-- ==== Sys2Proof/Word.lean ====
section
/-! DEFINITION. Words, bytes, rows and the small types that name operands. -/

namespace Sys2Proof

/-- A byte of core store, Dome, host or lantern memory. -/
abbrev Byte := BitVec 8
/-- A scalar register, counter, virtual address or 64-bit system register. -/
abbrev Word := BitVec 64
/-- An accumulator row or row-queue entry: 1,024 bytes, byte 0 in bits [7:0] (R108, R135). -/
abbrev Row := BitVec 8192
/-- A lane mask m0 to m7 (R330). -/
abbrev Mask := BitVec 512
/-- A descriptor, fault record, parameter-record header or other 64-byte record, byte 0 in bits [7:0]. -/
abbrev Rec512 := BitVec 512

/-- Sparse data by key: keys strictly rising, no entry equal to what an unlisted key reads as. -/
abbrev Tab (α : Type) := List (Nat × α)

/-- The two instruction streams of a core (R106). -/
inductive Side where
  | a
  | x
deriving DecidableEq, Repr

/-- A sequencer: physical core number g × 64 + cluster × 8 + core (R82) and stream. -/
structure SeqId where
  core : Nat
  side : Side
deriving DecidableEq, Repr

/-- The product variants of R1. -/
inductive Variant where
  | gl16
  | gl8
  | gl4
deriving DecidableEq, Repr

/-- The links that end on a compute die (R9, LNKSTS of R24). -/
inductive Link where
  | spanIn
  | spanOut
  | chordIn
  | chordOut
  | spoke
  | bridgeIn
  | bridgeOut
  | bridgeChordRx
  | bridgeChordTx
deriving DecidableEq, Repr

/-- Where a die takes its Mepen image from at boot (R25 step 5, R27). -/
inductive ImageSource where
  | host
  | span
  | chord
deriving DecidableEq, Repr

/-- Who writes a register of a register window (R57, R59, R60). -/
inductive Writer where
  | host
  | hostSecure
  | lantern
  | other
deriving DecidableEq, Repr

/-- What the scrubber finds in a word (R21, R22). -/
inductive ScrubTarget where
  | dome (die : Nat)
  | store (core : Nat)
  | acc (core : Nat)
deriving DecidableEq, Repr

/-- A secure register access of the abutment die over the spoke protocol (R60, R62). -/
inductive SpokeIn where
  | tail (q : BitVec 4) (v : Word)
  | reg (off : BitVec 16) (v : Word)
deriving DecidableEq, Repr

end Sys2Proof
end

