-- ==== Sys2Proof/Machine/Map.lean ====
section
/-! DEFINITION. Sparse tables and byte memories: one canonical form, one read and one write. -/

namespace Sys2Proof.Machine

variable {α : Type}

/-- The entry of key k, or d where the table lists none. -/
def tabGet (d : α) (k : Nat) : Tab α → α
  | [] => d
  | (j, v) :: r => if j = k then v else tabGet d k r

/-- The table with key k listed as v, keys kept rising. -/
def tabPut (k : Nat) (v : α) : Tab α → Tab α
  | [] => [(k, v)]
  | (j, w) :: r => if j = k then (k, v) :: r else if k < j then (k, v) :: (j, w) :: r else (j, w) :: tabPut k v r

/-- The table without key k. -/
def tabDel (k : Nat) (t : Tab α) : Tab α := t.filter (fun e => e.1 ≠ k)

/-- A write of v at key k of a table in which an unlisted key reads as d. -/
def memSet [DecidableEq α] (d : α) (k : Nat) (v : α) (t : Tab α) : Tab α :=
  if v = d then tabDel k t else tabPut k v t

/-- Keys strictly rising, all above b. -/
def risingFrom (b : Nat) : Tab α → Bool
  | [] => true
  | (j, _) :: r => decide (b ≤ j) && risingFrom (j + 1) r

/-- The canonical form: keys strictly rising and no entry equal to what an unlisted key reads as. -/
def Memory.wf [DecidableEq α] (d : α) (t : Tab α) : Bool := risingFrom 0 t && t.all (fun e => decide (e.2 ≠ d))

/-- Byte a of a memory; bytes that nothing has written read 0 (R23 for SRAM). -/
def readByte (m : Tab Byte) (a : Nat) : Byte := tabGet 0 a m

/-- Writes one byte. -/
def writeByte (m : Tab Byte) (a : Nat) (b : Byte) : Tab Byte := memSet 0 a b m

/-- The n bytes from address a on. -/
def readBytes (m : Tab Byte) : Nat → Nat → List Byte
  | _, 0 => []
  | a, n + 1 => readByte m a :: readBytes m (a + 1) n

/-- Writes bytes from address a on, the lowest address first. -/
def writeBytes (m : Tab Byte) : Nat → List Byte → Tab Byte
  | _, [] => m
  | a, b :: r => writeBytes (writeByte m a b) (a + 1) r

/-- The number that bytes hold, the first byte lowest (R183). -/
def natOfBytes : List Byte → Nat
  | [] => 0
  | b :: r => b.toNat + 256 * natOfBytes r

/-- The n low bytes of a number, lowest first. -/
def bytesOfNat : Nat → Nat → List Byte
  | 0, _ => []
  | n + 1, v => BitVec.ofNat 8 v :: bytesOfNat n (v / 256)

/-- The n bytes at a as a number. -/
def readNat (m : Tab Byte) (a n : Nat) : Nat := natOfBytes (readBytes m a n)

/-- Writes the n low bytes of v at a. -/
def writeNat (m : Tab Byte) (a n v : Nat) : Tab Byte := writeBytes m a (bytesOfNat n v)

/-- The row of accumulator or core-store bytes at a. -/
def readRow (m : Tab Byte) (a : Nat) : Row := BitVec.ofNat 8192 (readNat m a 1024)

/-- The bits [hi:lo] of a wide value as a number. -/
def bits {w : Nat} (v : BitVec w) (hi lo : Nat) : Nat := v.toNat / 2 ^ lo % 2 ^ (hi + 1 - lo)

/-- v with bits [hi:lo] replaced by the low bits of x. -/
def setBits {w : Nat} (v : BitVec w) (hi lo x : Nat) : BitVec w :=
  BitVec.ofNat w (v.toNat % 2 ^ lo + x % 2 ^ (hi + 1 - lo) * 2 ^ lo + v.toNat / 2 ^ (hi + 1) * 2 ^ (hi + 1))

/-- A signed number of n bits read from its two's-complement code. -/
def signed (n v : Nat) : Int := if v % 2 ^ n < 2 ^ (n - 1) then (v % 2 ^ n : Nat) else ((v % 2 ^ n : Nat) : Int) - 2 ^ n

/-- The low n bits of an integer's two's-complement code. -/
def codeOf (n : Nat) (v : Int) : Nat := (v % (2 ^ n : Nat)).toNat

/-- The first number from b below b + n that satisfies p. -/
def findFrom (p : Nat → Bool) : Nat → Nat → Option Nat
  | _, 0 => none
  | b, n + 1 => if p b then some b else findFrom p (b + 1) n

/-- ceil(a / b). -/
def ceilDiv (a b : Nat) : Nat := (a + b - 1) / b

end Sys2Proof.Machine
end

