-- ==== Sys2Proof/Machine/Hash.lean ====
section
/-! DEFINITION. CRC-32C (R29) and SHAKE256 (R77, R78, R80). -/

namespace Sys2Proof.Machine

/-- One bit of CRC-32C in reflected form: polynomial 0x1EDC6F41 (R29). -/
def crcBit (c : BitVec 32) : BitVec 32 := if c.getLsbD 0 then (c >>> 1) ^^^ 0x82F63B78 else c >>> 1
/-- One byte of CRC-32C. -/
def crcByte (c : BitVec 32) (b : Byte) : BitVec 32 :=
  crcBit (crcBit (crcBit (crcBit (crcBit (crcBit (crcBit (crcBit (c ^^^ b.setWidth 32))))))))
/-- A running CRC-32C carried over more bytes; it starts at 0xFFFFFFFF. -/
def crcRun (c : BitVec 32) (l : List Byte) : BitVec 32 := l.foldl crcByte c
/-- CRC-32C of bytes: initial value 0xFFFFFFFF and a final complement (R29). -/
def crc32c (l : List Byte) : Nat := (~~~ crcRun 0xFFFFFFFF l).toNat

/-- The round constants of Keccak-f[1600] (FIPS 202, which FIPS 205 builds on). -/
def keccakRound : List Word :=
  [0x0000000000000001, 0x0000000000008082, 0x800000000000808A, 0x8000000080008000, 0x000000000000808B,
   0x0000000080000001, 0x8000000080008081, 0x8000000000008009, 0x000000000000008A, 0x0000000000000088,
   0x0000000080008009, 0x000000008000000A]
    ++ [0x000000008000808B, 0x800000000000008B, 0x8000000000008089, 0x8000000000008003, 0x8000000000008002,
        0x8000000000000080, 0x000000000000800A, 0x800000008000000A, 0x8000000080008081, 0x8000000000008080,
        0x0000000080000001, 0x8000000080008008]

/-- The rotation of lane x + 5y. -/
def keccakRot : List Nat :=
  [0, 1, 62, 28, 27, 36, 44, 6, 55, 20, 3, 10, 43, 25, 39, 41, 45, 15, 21, 8, 18, 2, 61, 56, 14]

/-- One round: theta, rho, pi, chi and iota on 25 lanes. -/
def keccakStep (a : List Word) (rc : Word) : List Word :=
  let at_ (l : List Word) (i : Nat) : Word := l.getD i 0
  let c := (List.range 5).map (fun x => at_ a x ^^^ at_ a (x + 5) ^^^ at_ a (x + 10) ^^^ at_ a (x + 15) ^^^ at_ a (x + 20))
  let d := (List.range 5).map (fun x => at_ c ((x + 4) % 5) ^^^ (at_ c ((x + 1) % 5)).rotateLeft 1)
  let t := (List.range 25).map (fun i => (at_ a i ^^^ at_ d (i % 5)).rotateLeft (keccakRot.getD i 0))
  -- pi: lane (x, y) of the result is lane (x + 3y, x) of t
  let b := (List.range 25).map (fun i => at_ t ((i % 5 + 3 * (i / 5)) % 5 + 5 * (i % 5)))
  let e := (List.range 25).map (fun i =>
    at_ b i ^^^ (~~~ at_ b (i / 5 * 5 + (i + 1) % 5 % 5) &&& at_ b (i / 5 * 5 + (i + 2) % 5 % 5)))
  match e with
  | [] => []
  | x :: r => (x ^^^ rc) :: r

/-- Keccak-f[1600]. -/
def keccakF (a : List Word) : List Word := keccakRound.foldl keccakStep a

/-- Absorbs a padded message of n blocks of 136 bytes. -/
def shakeAbsorb : Nat → List Word → List Byte → List Word
  | 0, a, _ => a
  | n + 1, a, m =>
    let blk := m.take 136
    let lane (i : Nat) : Word := BitVec.ofNat 64 (natOfBytes ((blk.drop (8 * i)).take 8))
    shakeAbsorb n (keccakF ((List.range 25).map (fun i => a.getD i 0 ^^^ (if i < 17 then lane i else 0)))) (m.drop 136)

/-- The bytes of the first 17 lanes. -/
def shakeBlock (a : List Word) : List Byte := (a.take 17).flatMap (fun w => bytesOfNat 8 w.toNat)

/-- n output blocks. -/
def shakeSqueeze : Nat → List Word → List Byte
  | 0, _ => []
  | n + 1, a => shakeBlock a ++ shakeSqueeze n (keccakF a)

/-- The first n bytes of SHAKE256 of a message. -/
def shake256 (m : List Byte) (n : Nat) : List Byte :=
  let blocks := m.length / 136 + 1
  let pad := blocks * 136 - m.length
  let tail : List Byte := if pad = 1 then [0x9F] else 0x1F :: List.replicate (pad - 2) 0 ++ [0x80]
  (shakeSqueeze (n / 136 + 1) (shakeAbsorb blocks (List.replicate 25 0) (m ++ tail))).take n

end Sys2Proof.Machine
end

