-- ==== Sys2Proof/Machine/Num.lean ====
section
/-! DEFINITION. Number formats and rounding (R182 to R200): exact dyadic values, the one Round, conversions, sums and
compares. -/

namespace Sys2Proof.Machine

/-- A binary floating-point format: exponent and fraction bits, bias, whether it has infinities, and the codes above which
an all-ones exponent is no number (R184). -/
structure Fmt where
  eb : Nat
  mb : Nat
  bias : Nat
  ieee : Bool
  nan : Nat
  maxCode : Nat
deriving DecidableEq, Repr

/-- FP32. -/
def fp32 : Fmt := ⟨8, 23, 127, true, 0x7FC00000, 0x7F7FFFFF⟩
/-- FP16. -/
def fp16 : Fmt := ⟨5, 10, 15, true, 0x7E00, 0x7BFF⟩
/-- BF16. -/
def bf16 : Fmt := ⟨8, 7, 127, true, 0x7FC0, 0x7F7F⟩
/-- FP8E4M3: no infinities, one NaN magnitude. -/
def fp8e4m3 : Fmt := ⟨4, 3, 7, false, 0x7F, 0x7E⟩
/-- FP8E5M2. -/
def fp8e5m2 : Fmt := ⟨5, 2, 15, true, 0x7E, 0x7B⟩
/-- FP4E2M1: neither infinities nor NaN; its nan code is all-zero bits (R195). -/
def fp4e2m1 : Fmt := ⟨2, 1, 1, false, 0, 7⟩

/-- A value: NaN, an infinity, or (-1)^neg × m × 2^e. -/
inductive FVal where
  | nan
  | inf (neg : Bool)
  | fin (neg : Bool) (m : Nat) (e : Int)
deriving DecidableEq, Repr

/-- The value of a code (R184). -/
def Fmt.decode (F : Fmt) (v : Nat) : FVal :=
  let neg := v / 2 ^ (F.eb + F.mb) % 2 == 1
  let mag := v % 2 ^ (F.eb + F.mb)
  let ex := mag / 2 ^ F.mb
  let fr := mag % 2 ^ F.mb
  if F.maxCode < mag then (if F.ieee && fr == 0 then .inf neg else .nan)
  else if ex = 0 then .fin neg fr (1 - F.bias - F.mb)
  else .fin neg (2 ^ F.mb + fr) (ex - F.bias - F.mb)

/-- The sign bit of a format. -/
def Fmt.sign (F : Fmt) (neg : Bool) : Nat := if neg then 2 ^ (F.eb + F.mb) else 0

/-- The code of an infinity: where the format has none, the caller never asks for it. -/
def Fmt.infCode (F : Fmt) (neg : Bool) : Nat := F.sign neg + (2 ^ F.eb - 1) * 2 ^ F.mb

/-- Rounding modes (R191, R192); dither carries its matrix entry. -/
inductive RMode where
  | rne | rtz | rup | rdn | rna
  | dither (d : Nat)
deriving DecidableEq, Repr

/-- m × 2^e as a natural number of quanta 2^q, for e ≥ q. -/
def scaleUp (m : Nat) (e q : Int) : Nat := m * 2 ^ (e - q).toNat

/-- Whether a magnitude lo + rem / 2^s rounds up to lo + 1 (R191); sticky: something non-zero lies below rem. -/
def roundsUp (mode : RMode) (neg : Bool) (lo rem s : Nat) (sticky : Bool) : Bool :=
  let half := 2 ^ (s - 1)
  match mode with
  | .rne => decide (half < rem) || (rem == half && (sticky || lo % 2 == 1))
  | .rna => decide (half ≤ rem)
  | .rtz => false
  | .rup => !neg
  | .rdn => neg
  | .dither d =>
    if neg then !decide (512 * rem ≤ (2 * d + 1) * 2 ^ s) else decide (512 * 2 ^ s ≤ 512 * rem + (2 * d + 1) * 2 ^ s)

/-- The magnitude m × 2^e (with sticky: just above it) rounded to a multiple of 2^q: the multiple (R191). -/
def roundTo (mode : RMode) (neg : Bool) (m : Nat) (e q : Int) (sticky : Bool) : Nat :=
  if q ≤ e then scaleUp m e q
  else
    let s := (q - e).toNat
    let lo := m / 2 ^ s
    let rem := m % 2 ^ s
    if rem == 0 && !sticky then lo else if roundsUp mode neg lo rem s sticky then lo + 1 else lo

/-- The exponent of the quantum of the binade that holds m × 2^e in a format (R184, R191). -/
def Fmt.quantum (F : Fmt) (m : Nat) (e : Int) : Int := max ((m.log2 : Int) + e - F.mb) (1 - F.bias - F.mb)

/-- The code of a magnitude r × 2^q with q its quantum, if it does not pass the largest finite value. -/
def Fmt.pack? (F : Fmt) (r : Nat) (q : Int) : Option Nat :=
  let c := r + ((q - (1 - F.bias - F.mb)).toNat) * 2 ^ F.mb
  if c ≤ F.maxCode then some c else none

/-- The grid value a finite value rounds to, as multiple and quantum; the grid goes on past the largest value (R191). -/
def Fmt.roundGrid (F : Fmt) (mode : RMode) (neg : Bool) (m : Nat) (e : Int) (sticky : Bool) : Nat × Int :=
  let q := F.quantum m e
  (roundTo mode neg m e q sticky, q)

/-- What an arithmetic overflow gives (R199); none where the format has no infinity to give, or under DITHER, for which R199 lists no
result: a free value (log 38). -/
def Fmt.overflow (F : Fmt) (mode : RMode) (neg : Bool) : Option Nat :=
  let inf := if F.ieee then some (F.infCode neg) else none
  match mode with
  | .rtz => some (F.sign neg + F.maxCode)
  | .rup => if neg then some (F.sign neg + F.maxCode) else inf
  | .rdn => if neg then inf else some (F.sign neg + F.maxCode)
  | .dither _ => none
  | .rne | .rna => inf

/-- An exact value rounded into a format as arithmetic does (R198, R199): its code, or none for a NaN or infinity that the
format lacks. -/
def Fmt.round? (F : Fmt) (mode : RMode) (sticky : Bool) : FVal → Option Nat
  | .nan => if F = fp4e2m1 then none else some F.nan
  | .inf neg => if F.ieee then some (F.infCode neg) else none
  | .fin neg m e =>
    if m = 0 then some (F.sign neg)
    else
      let g := F.roundGrid mode neg m e sticky
      match F.pack? g.1 g.2 with
      | some c => some (F.sign neg + c)
      | none => F.overflow mode neg

/-- Rounding into a format that has infinities and NaN. -/
def Fmt.round (F : Fmt) (mode : RMode) (x : FVal) : Nat := (F.round? mode false x).getD F.nan

/-- A signed dyadic as a value, with the sign an exact zero takes. -/
def FVal.ofInt (m : Int) (e : Int) (zeroNeg : Bool) : FVal :=
  if m = 0 then .fin zeroNeg 0 e else .fin (decide (m < 0)) m.natAbs e

/-- (-1)^neg × m. -/
def sgn (neg : Bool) (m : Nat) : Int := if neg then -(m : Int) else m

/-- Negation. -/
def FVal.neg : FVal → FVal
  | .nan => .nan
  | .inf n => .inf (!n)
  | .fin n m e => .fin (!n) m e

/-- The exact product, and whether it is invalid: a NaN made from numbers (R198). -/
def FVal.mul : FVal → FVal → FVal × Bool
  | .nan, _ => (.nan, false)
  | _, .nan => (.nan, false)
  | .inf a, .inf b => (.inf (a != b), false)
  | .inf a, .fin b m _ => if m = 0 then (.nan, true) else (.inf (a != b), false)
  | .fin a m _, .inf b => if m = 0 then (.nan, true) else (.inf (a != b), false)
  | .fin a m e, .fin b n f => (.fin (a != b) (m * n) (e + f), false)

/-- The exact sum with the sign of an exact zero (R198), and whether it is invalid. -/
def FVal.add (mode : RMode) : FVal → FVal → FVal × Bool
  | .nan, _ => (.nan, false)
  | _, .nan => (.nan, false)
  | .inf a, .inf b => if a = b then (.inf a, false) else (.nan, true)
  | .inf a, .fin _ _ _ => (.inf a, false)
  | .fin _ _ _, .inf b => (.inf b, false)
  | .fin a m e, .fin b n f =>
    let q := min e f
    let z := if m = 0 ∧ n = 0 ∧ a = b then a else mode = .rdn
    (.ofInt (sgn a (scaleUp m e q) + sgn b (scaleUp n f q)) q z, false)

/-- The order of two numbers as exact reals: m × 2^e against n × 2^f. -/
def dyLt (m e n f : Int) : Bool :=
  let q := min e f
  decide (m * 2 ^ (e - q).toNat < n * 2 ^ (f - q).toNat)

/-- Strictly less, as reals; infinities at the ends; false with a NaN (R200). -/
def FVal.lt : FVal → FVal → Bool
  | .nan, _ => false
  | _, .nan => false
  | .inf a, .inf b => a && !b
  | .inf a, .fin _ _ _ => a
  | .fin _ _ _, .inf b => !b
  | .fin a m e, .fin b n f => dyLt (sgn a m) e (sgn b n) f

/-- Equality as reals: -0 equals +0 (R200). -/
def FVal.eq (a b : FVal) : Bool :=
  match a, b with
  | .nan, _ => false
  | _, .nan => false
  | a, b => !a.lt b && !b.lt a

/-- The sign of a value. -/
def FVal.isNeg : FVal → Bool
  | .nan => false
  | .inf n => n
  | .fin n _ _ => n

/-- a before b with -0 below +0, for min and max of numbers (R200). -/
def FVal.before (a b : FVal) : Bool := a.lt b || (a.eq b && a.isNeg && !b.isNeg)

/-- The minimum or maximum of two codes: one of the operands unchanged, or the canonical NaN (R200). -/
def Fmt.minmax (F : Fmt) (isMax : Bool) (a b : Nat) : Nat :=
  match F.decode a, F.decode b with
  | .nan, _ => F.nan
  | _, .nan => F.nan
  | x, y => if isMax then (if x.before y then b else a) else (if y.before x then b else a)

/-- a + b rounded once, and INV (R198). -/
def Fmt.addR (F : Fmt) (mode : RMode) (a b : Nat) : Nat × Bool :=
  let r := FVal.add mode (F.decode a) (F.decode b)
  (F.round mode r.1, r.2)

/-- a - b rounded once, and INV (R198). -/
def Fmt.subR (F : Fmt) (mode : RMode) (a b : Nat) : Nat × Bool :=
  let r := FVal.add mode (F.decode a) (F.decode b).neg
  (F.round mode r.1, r.2)

/-- a × b rounded once, and INV (R198). -/
def Fmt.mulR (F : Fmt) (mode : RMode) (a b : Nat) : Nat × Bool :=
  let r := FVal.mul (F.decode a) (F.decode b)
  (F.round mode r.1, r.2)

/-- c + a × b, or c - a × b, rounded once, and INV (R198). -/
def Fmt.fmaR (F : Fmt) (mode : RMode) (sub : Bool) (a b c : Nat) : Nat × Bool :=
  let p := FVal.mul (F.decode a) (F.decode b)
  let r := FVal.add mode (if sub then p.1.neg else p.1) (F.decode c)
  (F.round mode r.1, (p.2 && !(F.decode c = .nan)) || r.2)

/-- The entry of the dither matrix at row i, column j (R193). -/
def bayer (i j : Nat) : Nat :=
  let f (k : Nat) : Nat := 2 * ((i / 2 ^ k % 2 + j / 2 ^ k % 2) % 2) + i / 2 ^ k % 2
  64 * f 0 + 16 * f 1 + 4 * f 2 + f 3

/-- The formats conversions go to and come from (R182), without the block formats. -/
inductive EFmt where
  | raw | i8 | i16 | i32 | n8 | n16 | n32 | f (F : Fmt) | e8m0 | ni
deriving DecidableEq, Repr

/-- The element format of a code, but for TWC and the reserved codes (R182). -/
def eFmt : Nat → Option EFmt
  | 0x00 => some .raw | 0x01 => some .i8 | 0x02 => some .i16 | 0x03 => some .i32 | 0x04 => some .n8
  | 0x05 => some .n16 | 0x06 => some .n32 | 0x08 => some (.f fp32) | 0x09 => some (.f bf16) | 0x0A => some (.f fp16)
  | 0x0B => some (.f fp8e4m3) | 0x0C => some (.f fp8e5m2) | 0x0D => some (.f fp4e2m1) | 0x0E => some .e8m0
  | 0x10 => some .ni | _ => none

/-- The bits of an element (R182); NI in its unpacked code. -/
def EFmt.width : EFmt → Nat
  | .raw | .i8 | .n8 | .e8m0 | .ni => 8
  | .i16 | .n16 => 16
  | .i32 | .n32 => 32
  | .f F => 1 + F.eb + F.mb

/-- The value of an element's code; E8M0 0xFF is a NaN (R186, R187). NI elements need a scale and are read elsewhere. -/
def EFmt.value (F : EFmt) (v : Nat) : FVal :=
  match F with
  | .raw | .n8 | .ni => .ofInt (v % 2 ^ 8 : Nat) 0 false
  | .n16 => .ofInt (v % 2 ^ 16 : Nat) 0 false
  | .n32 => .ofInt (v % 2 ^ 32 : Nat) 0 false
  | .i8 => .ofInt (signed 8 v) 0 false
  | .i16 => .ofInt (signed 16 v) 0 false
  | .i32 => .ofInt (signed 32 v) 0 false
  | .f F => F.decode v
  | .e8m0 => if v % 256 = 255 then .nan else .fin false 1 ((v % 256 : Nat) - 127)

/-- Whether |a| > |b| for finite magnitudes. -/
def magGt (m : Nat) (e : Int) (n : Nat) (f : Int) : Bool := dyLt n f m e

/-- The largest finite value of a conversion target as m × 2^e (R195). -/
def EFmt.maxMag : EFmt → Nat × Int
  | .i8 => (127, 0)
  | .i16 => (32767, 0)
  | .i32 => (2 ^ 31 - 1, 0)
  | .n8 | .raw => (255, 0)
  | .n16 => (2 ^ 16 - 1, 0)
  | .n32 => (2 ^ 32 - 1, 0)
  | .ni => (255, -1)
  | .e8m0 => (1, 127)
  | .f F =>
    match F.decode F.maxCode with
    | .fin _ m e => (m, e)
    | _ => (0, 0)

/-- The clamp bound of a conversion: min(B, Max(F)), B an FP32 code that is no NaN (R195). -/
def EFmt.bound (F : EFmt) (b : Nat) : Nat × Int :=
  match fp32.decode b with
  | .fin _ m e => if magGt m e F.maxMag.1 F.maxMag.2 then F.maxMag else (m, e)
  | _ => F.maxMag

/-- A magnitude rounded onto the NI grid (R191): in half units, always odd. lo and hi are the odd half units around it. -/
def roundNi (mode : RMode) (neg : Bool) (m : Nat) (e : Int) : Int :=
  -- x in units of 2^q with q ≤ -1: h = half units (twice x) as a fraction a / 2^s
  let q := min e (-1)
  let x : Int := sgn neg (scaleUp m e q)
  let s := (-1 - q).toNat
  -- greatest odd half unit lo ≤ x: k = floor(x - 1/2), lo = 2 k + 1
  let k : Int := (x - 2 ^ s) / 2 ^ (s + 1)
  let lo : Int := 2 * k + 1
  let rem : Int := x - lo * 2 ^ s
  let full : Int := 2 ^ (s + 1)
  if rem = 0 then lo
  else
    let hi := lo + 2
    match mode with
    | .rne => if 2 * rem < full then lo else if full < 2 * rem then hi else if k % 2 = 0 then lo else hi
    | .rna => if 2 * rem < full then lo else if full < 2 * rem then hi
        else if lo.natAbs = hi.natAbs then 1 else if lo.natAbs < hi.natAbs then hi else lo
    | .rtz => if lo.natAbs = hi.natAbs then (if x < 0 then -1 else 1) else if lo.natAbs < hi.natAbs then lo else hi
    | .rup => hi
    | .rdn => lo
    | .dither d => if 512 * full ≤ 512 * rem + (2 * d + 1) * full then hi else lo

/-- The code of a signed grid value: n × 2^q for numbers, half units for NI. -/
def EFmt.codeOfGrid (F : EFmt) (neg : Bool) (n : Nat) (q : Int) : Nat :=
  match F with
  | .f G => G.sign neg + (G.pack? n q).getD G.maxCode
  | .ni => codeOf 8 ((sgn neg n - 1) / 2)
  | _ => codeOf F.width (sgn neg n)

/-- A finite magnitude rounded on a target's grid: multiple and quantum with its sign (R191). -/
def EFmt.roundOn (F : EFmt) (mode : RMode) (neg : Bool) (m : Nat) (e : Int) : Bool × Nat × Int :=
  match F with
  | .f G => if m = 0 then (neg, 0, 1 - G.bias - G.mb) else let g := G.roundGrid mode neg m e false; (neg, g.1, g.2)
  | .ni => let h := roundNi mode neg m e; (decide (h < 0), h.natAbs, -1)
  | _ => (neg, roundTo mode neg m e 0 false, 0)

/-- Whether a target holds no negative values (R195). -/
def EFmt.natural : EFmt → Bool
  | .n8 | .n16 | .n32 | .raw => true
  | _ => false

/-- Whether a target has a NaN (R195). -/
def EFmt.nan? : EFmt → Option Nat
  | .f F => if F = fp4e2m1 ∨ F = fp32 then (if F = fp32 then some F.nan else none) else some F.nan
  | _ => none

/-- Conversion into a narrow format (R195): the code, and the CLAMP and NAN flags it sets. -/
def convert (F : EFmt) (mode : RMode) (b : Nat) (x : FVal) : Nat × Bool × Bool :=
  let bnd := F.bound b
  let clamp (neg : Bool) : Nat :=
    if F.natural && neg then 0
    else let g := F.roundOn .rtz false bnd.1 bnd.2; F.codeOfGrid neg g.2.1 g.2.2
  match x with
  | .nan => match F.nan? with | some c => (c, false, false) | none => (0, false, true)
  | .inf neg => (clamp neg, true, false)
  | .fin neg m e =>
    if magGt m e bnd.1 bnd.2 then (clamp neg, true, false)
    else
      let y := F.roundOn mode neg m e
      if magGt y.2.1 y.2.2 bnd.1 bnd.2 then (clamp neg, true, false)
      else if F.natural && y.1 && y.2.1 != 0 then (0, true, false)
      else (F.codeOfGrid y.1 y.2.1 y.2.2, false, false)

/-- Conversion into FP32: from INT32 and NAT32 a rounding, from every other format exact (R195). -/
def toFp32 (mode : RMode) (x : FVal) : Nat := fp32.round mode x

end Sys2Proof.Machine
end

