-- ==== Sys2Proof/Config.lean ====
section
/-! DEFINITION. What the spec leaves open: free values, a constant with no body. -/

namespace Sys2Proof.Config

/-- Free value number n, as many low bits of it as the use needs: nothing constrains it (log 9). -/
opaque freeBits : Nat → Row

/-- The leaf entry of a page of another module's Dome, by the number of the free value and the page: nothing constrains it (log 9, log
29). -/
opaque freeLeaf : Nat → Nat → Word

/-- MIGLIM of Mepen's signed configuration (R401; log 45). -/
opaque migLim : Nat

end Sys2Proof.Config
end

