-- ==== Sys2Proof/Syntax.lean ====
section
/-! DEFINITION. The steps of the module, one constructor per row of spec/opcode_table.json: its events, and
the 190 instruction words of Zitum 1 with the fields of R267 (g is the guard). -/

namespace Sys2Proof

inductive Instr where
  /-- R286: sd := sa + sb mod 2^64. -/
  | add (g : BitVec 4) (d : BitVec 5) (a : BitVec 5) (b : BitVec 5)
  /-- R286: sd := sa - sb mod 2^64. -/
  | sub (g : BitVec 4) (d : BitVec 5) (a : BitVec 5) (b : BitVec 5)
  /-- R286: Bitwise AND. -/
  | and (g : BitVec 4) (d : BitVec 5) (a : BitVec 5) (b : BitVec 5)
  /-- R286: Bitwise OR. -/
  | or (g : BitVec 4) (d : BitVec 5) (a : BitVec 5) (b : BitVec 5)
  /-- R286: Bitwise XOR. -/
  | xor (g : BitVec 4) (d : BitVec 5) (a : BitVec 5) (b : BitVec 5)
  /-- R286: sa AND NOT sb. -/
  | andn (g : BitVec 4) (d : BitVec 5) (a : BitVec 5) (b : BitVec 5)
  /-- R286: Shift left by sb[5:0]. -/
  | shl (g : BitVec 4) (d : BitVec 5) (a : BitVec 5) (b : BitVec 5)
  /-- R286: Logical shift right. -/
  | shr (g : BitVec 4) (d : BitVec 5) (a : BitVec 5) (b : BitVec 5)
  /-- R286: Arithmetic shift right. -/
  | sra (g : BitVec 4) (d : BitVec 5) (a : BitVec 5) (b : BitVec 5)
  /-- R286: Rotate right. -/
  | rot (g : BitVec 4) (d : BitVec 5) (a : BitVec 5) (b : BitVec 5)
  /-- R286: Low 64 bits of the product. -/
  | mul (g : BitVec 4) (d : BitVec 5) (a : BitVec 5) (b : BitVec 5)
  /-- R286: High half of the signed product. -/
  | mulh (g : BitVec 4) (d : BitVec 5) (a : BitVec 5) (b : BitVec 5)
  /-- R286: High half of the unsigned product. -/
  | mulhn (g : BitVec 4) (d : BitVec 5) (a : BitVec 5) (b : BitVec 5)
  /-- R286: Signed minimum. -/
  | min (g : BitVec 4) (d : BitVec 5) (a : BitVec 5) (b : BitVec 5)
  /-- R286: Signed maximum. -/
  | max (g : BitVec 4) (d : BitVec 5) (a : BitVec 5) (b : BitVec 5)
  /-- R286: Unsigned minimum. -/
  | minn (g : BitVec 4) (d : BitVec 5) (a : BitVec 5) (b : BitVec 5)
  /-- R286: Unsigned maximum. -/
  | maxn (g : BitVec 4) (d : BitVec 5) (a : BitVec 5) (b : BitVec 5)
  /-- R286: Signed division with defined results for zero and overflow. -/
  | div (g : BitVec 4) (d : BitVec 5) (a : BitVec 5) (b : BitVec 5)
  /-- R286: Unsigned division. -/
  | divn (g : BitVec 4) (d : BitVec 5) (a : BitVec 5) (b : BitVec 5)
  /-- R286: Signed remainder. -/
  | rem (g : BitVec 4) (d : BitVec 5) (a : BitVec 5) (b : BitVec 5)
  /-- R286: Unsigned remainder. -/
  | remn (g : BitVec 4) (d : BitVec 5) (a : BitVec 5) (b : BitVec 5)
  /-- R286: Count leading zeros. -/
  | clz (g : BitVec 4) (d : BitVec 5) (a : BitVec 5)
  /-- R286: Count trailing zeros. -/
  | ctz (g : BitVec 4) (d : BitVec 5) (a : BitVec 5)
  /-- R286: Count one bits. -/
  | popc (g : BitVec 4) (d : BitVec 5) (a : BitVec 5)
  /-- R293: bt[N] := sa[20:2] × 4. -/
  | mtbt (g : BitVec 4) (t : BitVec 2) (a : BitVec 5)
  /-- R293: sd := bt[N]. -/
  | mfbt (g : BitVec 4) (d : BitVec 5) (t : BitVec 2)
  /-- R287: sd := sa + imm12. -/
  | addi (g : BitVec 4) (d : BitVec 5) (a : BitVec 5) (i : BitVec 12)
  /-- R287: sd := sa AND imm12. -/
  | andi (g : BitVec 4) (d : BitVec 5) (a : BitVec 5) (i : BitVec 12)
  /-- R287: sd := sa OR imm12. -/
  | ori (g : BitVec 4) (d : BitVec 5) (a : BitVec 5) (i : BitVec 12)
  /-- R287: sd := sa XOR imm12. -/
  | xori (g : BitVec 4) (d : BitVec 5) (a : BitVec 5) (i : BitVec 12)
  /-- R288: Shift left by an immediate. -/
  | shli (g : BitVec 4) (d : BitVec 5) (a : BitVec 5) (n : BitVec 6)
  /-- R288: Logical shift right by an immediate. -/
  | shri (g : BitVec 4) (d : BitVec 5) (a : BitVec 5) (n : BitVec 6)
  /-- R288: Arithmetic shift right by an immediate. -/
  | srai (g : BitVec 4) (d : BitVec 5) (a : BitVec 5) (n : BitVec 6)
  /-- R288: Rotate right by an immediate. -/
  | roti (g : BitVec 4) (d : BitVec 5) (a : BitVec 5) (n : BitVec 6)
  /-- R288: Sign-extend sa[w-1:0]. -/
  | sxt (g : BitVec 4) (d : BitVec 5) (a : BitVec 5) (w : BitVec 6)
  /-- R288: Zero-extend sa[w-1:0]. -/
  | zxt (g : BitVec 4) (d : BitVec 5) (a : BitVec 5) (w : BitVec 6)
  /-- R289: sd := imm17 sign-extended. -/
  | ldi (g : BitVec 4) (d : BitVec 5) (i : BitVec 17)
  /-- R289: sd := (sd << 16) OR imm16. -/
  | lsi (g : BitVec 4) (d : BitVec 5) (i : BitVec 16)
  /-- R290: pd := sa cond sb. -/
  | cmp (g : BitVec 4) (p : BitVec 3) (a : BitVec 5) (b : BitVec 5) (c : BitVec 4)
  /-- R290: pd := sa cond imm10. -/
  | cmpi (g : BitVec 4) (p : BitVec 3) (a : BitVec 5) (c : BitVec 4) (i : BitVec 10)
  /-- R291: pd := pa AND pb. -/
  | pand (g : BitVec 4) (d : BitVec 3) (a : BitVec 3) (b : BitVec 3)
  /-- R291: pd := pa OR pb. -/
  | por (g : BitVec 4) (d : BitVec 3) (a : BitVec 3) (b : BitVec 3)
  /-- R291: pd := pa XOR pb. -/
  | pxor (g : BitVec 4) (d : BitVec 3) (a : BitVec 3) (b : BitVec 3)
  /-- R291: pd := pa AND NOT pb. -/
  | pandn (g : BitVec 4) (d : BitVec 3) (a : BitVec 3) (b : BitVec 3)
  /-- R291: pd := NOT pa. -/
  | pnot (g : BitVec 4) (d : BitVec 3) (a : BitVec 3)
  /-- R291: pd := pa. -/
  | pmov (g : BitVec 4) (d : BitVec 3) (a : BitVec 3)
  /-- R291: sd := the predicate bits. -/
  | pget (g : BitVec 4) (d : BitVec 5)
  /-- R291: p1..p7 := sa[7:1]. -/
  | pput (g : BitVec 4) (a : BitVec 5)
  /-- R293: bt[N] := PC + 4 × imm20. -/
  | pbr (g : BitVec 4) (t : BitVec 2) (i : BitVec 20)
  /-- R294: Branch to bt[t] after two delay slots. -/
  | br (g : BitVec 4) (t : BitVec 2)
  /-- R294: Branch and link: s28 := PC + 12. -/
  | brl (g : BitVec 4) (t : BitVec 2)
  /-- R296: Starts hardware loop level L with count S(a) over n body words. -/
  | loop (g : BitVec 4) (l : BitVec 1) (a : BitVec 5) (n : BitVec 12)
  /-- R300: Ends the prologue or a kernel iteration, possibly completing a kernel boundary or retiring the record. -/
  | knext (g : BitVec 4)
  /-- R300: Ends the epilogue, or ends the record early. -/
  | exit (g : BitVec 4)
  /-- R301: Ends the iteration and waits on a shared stage counter. -/
  | yieldK (g : BitVec 4) (s : BitVec 5) (k : BitVec 4)
  /-- R301: Ends the iteration and waits on the I/O completion number. -/
  | yieldIo (g : BitVec 4) (s : BitVec 5)
  /-- R292: Pushes pa to the branch-outcome queue. -/
  | bpush (g : BitVec 4) (a : BitVec 3)
  /-- R292: Pops the branch-outcome queue into pd. -/
  | bpop (g : BitVec 4) (d : BitVec 3)
  /-- R304: Loads from core store, sign- or zero-extended. -/
  | ld (g : BitVec 4) (d : BitVec 5) (a : BitVec 5) (z : BitVec 3) (i : BitVec 9)
  /-- R304: Stores to core store. -/
  | st (g : BitVec 4) (d : BitVec 5) (a : BitVec 5) (z : BitVec 3) (i : BitVec 9)
  /-- R307: Reads a 1 KiB row into lqN. -/
  | lqr (g : BitVec 4) (n : BitVec 2) (a : BitVec 5) (b : BitVec 5) (x : BitVec 1)
  /-- R308: Gathers one row into lqN. -/
  | lqg (g : BitVec 4) (n : BitVec 2) (a : BitVec 5) (b : BitVec 5) (e : BitVec 1) (c : BitVec 2)
  /-- R307: Pops sqN and writes the row. -/
  | sqw (g : BitVec 4) (n : BitVec 1) (a : BitVec 5) (b : BitVec 5) (x : BitVec 1)
  /-- R308: Pops sqN and scatters the row. -/
  | sqs (g : BitVec 4) (n : BitVec 1) (a : BitVec 5) (b : BitVec 5) (e : BitVec 1) (c : BitVec 2)
  /-- R307: Pushes a zero row into lqN. -/
  | lqz (g : BitVec 4) (n : BitVec 2)
  /-- R311: Reserves a reply entry and sends a Dome read. -/
  | gld (g : BitVec 4) (a : BitVec 5) (b : BitVec 5) (z : BitVec 3)
  /-- R311: Sends a Dome write. -/
  | gst (g : BitVec 4) (d : BitVec 5) (a : BitVec 5) (b : BitVec 5) (z : BitVec 2)
  /-- R311: Pops the reply queue into sd; an explicit wait. -/
  | gpop (g : BitVec 4) (d : BitVec 5)
  /-- R311: sd := the number of reserved reply entries. -/
  | gcnt (g : BitVec 4) (d : BitVec 5)
  /-- R314: A returning integer add, min, max, and, or or xor. -/
  | amoReturning (g : BitVec 4) (a : BitVec 5) (b : BitVec 5) (o : BitVec 3) (t : BitVec 2)
  /-- R314: Returning exchange. -/
  | amoXchg (g : BitVec 4) (a : BitVec 5) (b : BitVec 5) (t : BitVec 2)
  /-- R314: Returning compare-and-swap. -/
  | amoCas (g : BitVec 4) (d : BitVec 5) (a : BitVec 5) (b : BitVec 5) (t : BitVec 2)
  /-- R314: Non-returning integer reduction. -/
  | amoReduction (g : BitVec 4) (a : BitVec 5) (b : BitVec 5) (o : BitVec 3) (t : BitVec 2)
  /-- R314: Non-returning FP32 add, min or max. -/
  | amoF32Reduction (g : BitVec 4) (a : BitVec 5) (b : BitVec 5) (o : BitVec 3)
  /-- R164: Waits until earlier accesses are complete at core scope. -/
  | fenceCore (g : BitVec 4)
  /-- R164: Waits until earlier accesses are complete at cluster scope. -/
  | fenceCluster (g : BitVec 4)
  /-- R164: Waits until earlier accesses are complete at die scope. -/
  | fenceDie (g : BitVec 4)
  /-- R164: Waits until earlier accesses are complete at module scope. -/
  | fenceModule (g : BitVec 4)
  /-- R174: Handoff fence between the ordinary and engine domains. -/
  | fenceX (g : BitVec 4) (m : BitVec 8)
  /-- R316: Waits until kN at least S(s). -/
  | kwait (g : BitVec 4) (s : BitVec 5) (k : BitVec 4)
  /-- R316: pd := kN at least S(s). -/
  | ktest (g : BitVec 4) (s : BitVec 5) (k : BitVec 4) (p : BitVec 3)
  /-- R316: sd := kN. -/
  | kget (g : BitVec 4) (s : BitVec 5) (k : BitVec 4)
  /-- R317: Adds to a local or remote stage counter. -/
  | kadd (g : BitVec 4) (s : BitVec 5) (k : BitVec 4) (r : BitVec 1) (c : BitVec 3)
  /-- R317: Sets a local or remote stage counter. -/
  | kset (g : BitVec 4) (s : BitVec 5) (k : BitVec 4) (r : BitVec 1) (c : BitVec 3)
  /-- R318: Waits on an engine completion number. -/
  | ewait (g : BitVec 4) (s : BitVec 5) (e : BitVec 3)
  /-- R318: sd := an engine issue number. -/
  | eseq (g : BitVec 4) (s : BitVec 5) (e : BitVec 3)
  /-- R319: Waits until n queue entries are written or free. -/
  | qwait (g : BitVec 4) (s : BitVec 5) (q : BitVec 4)
  /-- R302: Reads a system register. -/
  | rsr (g : BitVec 4) (s : BitVec 5) (r : BitVec 12)
  /-- R302: Writes a system register. -/
  | wsr (g : BitVec 4) (s : BitVec 5) (r : BitVec 12)
  /-- R302: Exchanges a system register with a scalar. -/
  | xsr (g : BitVec 4) (s : BitVec 5) (r : BitVec 12)
  /-- R303: No operation. -/
  | nop (g : BitVec 4)
  /-- R303: Completes, then raises TRAP. -/
  | trap (g : BitVec 4) (n : BitVec 16)
  /-- R303: Completes, then raises BREAK. -/
  | brk (g : BitVec 4) (n : BitVec 16)
  /-- R122: Waits for the participant set and forms an anchor group. -/
  | csync (g : BitVec 4) (m : BitVec 16)
  /-- R321: Sends a scalar message to a peer core. -/
  | csendS (g : BitVec 4) (a : BitVec 5) (p : BitVec 3)
  /-- R321: Receives a scalar message. -/
  | crecvS (g : BitVec 4) (d : BitVec 5) (p : BitVec 3)
  /-- R321: Sends a 1 KiB row to a peer core. -/
  | csendRow (g : BitVec 4) (a : BitVec 5) (p : BitVec 3)
  /-- R321: Receives a row into core store. -/
  | crecvRow (g : BitVec 4) (a : BitVec 5) (p : BitVec 3)
  /-- R333: Element-wise floating-point add. -/
  | vadd (g : BitVec 4) (d : BitVec 5) (a : BitVec 5) (b : BitVec 5) (m : BitVec 3)
  /-- R333: Element-wise subtract. -/
  | vsub (g : BitVec 4) (d : BitVec 5) (a : BitVec 5) (b : BitVec 5) (m : BitVec 3)
  /-- R333: Element-wise multiply. -/
  | vmul (g : BitVec 4) (d : BitVec 5) (a : BitVec 5) (b : BitVec 5) (m : BitVec 3)
  /-- R333: Fused a × b + c. -/
  | vfma (g : BitVec 4) (d : BitVec 5) (a : BitVec 5) (b : BitVec 5) (m : BitVec 3)
  /-- R333: Fused c - a × b. -/
  | vfms (g : BitVec 4) (d : BitVec 5) (a : BitVec 5) (b : BitVec 5) (m : BitVec 3)
  /-- R333: Floating-point minimum. -/
  | vmin (g : BitVec 4) (d : BitVec 5) (a : BitVec 5) (b : BitVec 5) (m : BitVec 3)
  /-- R333: Floating-point maximum. -/
  | vmax (g : BitVec 4) (d : BitVec 5) (a : BitVec 5) (b : BitVec 5) (m : BitVec 3)
  /-- R333: Clears the sign bit. -/
  | vabs (g : BitVec 4) (d : BitVec 5) (a : BitVec 5) (m : BitVec 3)
  /-- R333: Inverts the sign bit. -/
  | vneg (g : BitVec 4) (d : BitVec 5) (a : BitVec 5) (m : BitVec 3)
  /-- R333: Copies lane bits unchanged. -/
  | vmov (g : BitVec 4) (d : BitVec 5) (a : BitVec 5) (m : BitVec 3)
  /-- R333: Selects a or b by mask. -/
  | vsel (g : BitVec 4) (d : BitVec 5) (a : BitVec 5) (b : BitVec 5) (m : BitVec 3)
  /-- R334: Integer add. -/
  | viadd (g : BitVec 4) (d : BitVec 5) (a : BitVec 5) (b : BitVec 5) (m : BitVec 3)
  /-- R334: Integer subtract. -/
  | visub (g : BitVec 4) (d : BitVec 5) (a : BitVec 5) (b : BitVec 5) (m : BitVec 3)
  /-- R334: Integer multiply, low bits. -/
  | vimul (g : BitVec 4) (d : BitVec 5) (a : BitVec 5) (b : BitVec 5) (m : BitVec 3)
  /-- R334: Signed integer minimum. -/
  | vimin (g : BitVec 4) (d : BitVec 5) (a : BitVec 5) (b : BitVec 5) (m : BitVec 3)
  /-- R334: Signed integer maximum. -/
  | vimax (g : BitVec 4) (d : BitVec 5) (a : BitVec 5) (b : BitVec 5) (m : BitVec 3)
  /-- R334: Lane AND. -/
  | vand (g : BitVec 4) (d : BitVec 5) (a : BitVec 5) (b : BitVec 5) (m : BitVec 3)
  /-- R334: Lane OR. -/
  | vor (g : BitVec 4) (d : BitVec 5) (a : BitVec 5) (b : BitVec 5) (m : BitVec 3)
  /-- R334: Lane XOR. -/
  | vxor (g : BitVec 4) (d : BitVec 5) (a : BitVec 5) (b : BitVec 5) (m : BitVec 3)
  /-- R334: Lane shift left. -/
  | vshl (g : BitVec 4) (d : BitVec 5) (a : BitVec 5) (b : BitVec 5) (m : BitVec 3)
  /-- R334: Lane logical shift right. -/
  | vshr (g : BitVec 4) (d : BitVec 5) (a : BitVec 5) (b : BitVec 5) (m : BitVec 3)
  /-- R334: Lane arithmetic shift right. -/
  | vsra (g : BitVec 4) (d : BitVec 5) (a : BitVec 5) (b : BitVec 5) (m : BitVec 3)
  /-- R335: Correctly rounded 2^x. -/
  | vexp2 (g : BitVec 4) (d : BitVec 5) (a : BitVec 5) (m : BitVec 3)
  /-- R335: Correctly rounded log2. -/
  | vlog2 (g : BitVec 4) (d : BitVec 5) (a : BitVec 5) (m : BitVec 3)
  /-- R335: Correctly rounded reciprocal. -/
  | vrcp (g : BitVec 4) (d : BitVec 5) (a : BitVec 5) (m : BitVec 3)
  /-- R335: Correctly rounded reciprocal square root. -/
  | vrsqrt (g : BitVec 4) (d : BitVec 5) (a : BitVec 5) (m : BitVec 3)
  /-- R335: Correctly rounded square root. -/
  | vsqrt (g : BitVec 4) (d : BitVec 5) (a : BitVec 5) (m : BitVec 3)
  /-- R335: Correctly rounded tanh. -/
  | vtanh (g : BitVec 4) (d : BitVec 5) (a : BitVec 5) (m : BitVec 3)
  /-- R335: Correctly rounded sigmoid. -/
  | vsigm (g : BitVec 4) (d : BitVec 5) (a : BitVec 5) (m : BitVec 3)
  /-- R336: Floating-point compare into a mask. -/
  | vcmp (g : BitVec 4) (d : BitVec 3) (a : BitVec 5) (b : BitVec 5) (m : BitVec 3) (c : BitVec 3)
  /-- R336: Integer compare into a mask. -/
  | vicmp (g : BitVec 4) (d : BitVec 3) (a : BitVec 5) (b : BitVec 5) (m : BitVec 3) (c : BitVec 3)
  /-- R338: Tree sum of a row into sd. -/
  | vsum (g : BitVec 4) (a : BitVec 5) (s : BitVec 5) (m : BitVec 3)
  /-- R338: Row maximum into sd. -/
  | vrmax (g : BitVec 4) (a : BitVec 5) (s : BitVec 5) (m : BitVec 3)
  /-- R338: Row minimum into sd. -/
  | vrmin (g : BitVec 4) (a : BitVec 5) (s : BitVec 5) (m : BitVec 3)
  /-- R338: Value and lane of the row maximum. -/
  | vargmax (g : BitVec 4) (a : BitVec 5) (s : BitVec 5) (m : BitVec 3)
  /-- R337: md := ma AND mb. -/
  | mand (g : BitVec 4) (d : BitVec 3) (a : BitVec 3) (b : BitVec 3)
  /-- R337: md := ma OR mb. -/
  | mor (g : BitVec 4) (d : BitVec 3) (a : BitVec 3) (b : BitVec 3)
  /-- R337: md := ma XOR mb. -/
  | mxor (g : BitVec 4) (d : BitVec 3) (a : BitVec 3) (b : BitVec 3)
  /-- R337: md := NOT ma. -/
  | mnot (g : BitVec 4) (d : BitVec 3) (a : BitVec 3)
  /-- R337: md := all ones. -/
  | mset (g : BitVec 4) (d : BitVec 3)
  /-- R337: md := 0. -/
  | mclr (g : BitVec 4) (d : BitVec 3)
  /-- R337: Keeps only the lowest selected bit. -/
  | mfirst (g : BitVec 4) (d : BitVec 3) (a : BitVec 3) (m : BitVec 3)
  /-- R337: pd := OR over the taking-part lanes. -/
  | vany (g : BitVec 4) (p : BitVec 3) (a : BitVec 3) (m : BitVec 3)
  /-- R337: pd := AND over the taking-part lanes. -/
  | vall (g : BitVec 4) (p : BitVec 3) (a : BitVec 3) (m : BitVec 3)
  /-- R337: sd := count of set taking-part lanes. -/
  | mcnt (g : BitVec 4) (s : BitVec 5) (a : BitVec 3) (m : BitVec 3)
  /-- R339: Lane plus scalar. -/
  | vadds (g : BitVec 4) (d : BitVec 5) (a : BitVec 5) (s : BitVec 5) (m : BitVec 3)
  /-- R339: Lane minus scalar. -/
  | vsubs (g : BitVec 4) (d : BitVec 5) (a : BitVec 5) (s : BitVec 5) (m : BitVec 3)
  /-- R339: Lane times scalar. -/
  | vmuls (g : BitVec 4) (d : BitVec 5) (a : BitVec 5) (s : BitVec 5) (m : BitVec 3)
  /-- R339: Fused lane × scalar + old lane. -/
  | vfmas (g : BitVec 4) (d : BitVec 5) (a : BitVec 5) (s : BitVec 5) (m : BitVec 3)
  /-- R339: Minimum of lane and scalar. -/
  | vmins (g : BitVec 4) (d : BitVec 5) (a : BitVec 5) (s : BitVec 5) (m : BitVec 3)
  /-- R339: Maximum of lane and scalar. -/
  | vmaxs (g : BitVec 4) (d : BitVec 5) (a : BitVec 5) (s : BitVec 5) (m : BitVec 3)
  /-- R339: Broadcasts a scalar to every lane. -/
  | vbc (g : BitVec 4) (d : BitVec 5) (s : BitVec 5) (m : BitVec 3)
  /-- R340: Extracts one lane into sd. -/
  | vext (g : BitVec 4) (d : BitVec 5) (a : BitVec 5) (s : BitVec 5)
  /-- R340: Rotates lanes by a scalar. -/
  | vrot (g : BitVec 4) (d : BitVec 5) (a : BitVec 5) (s : BitVec 5) (m : BitVec 3)
  /-- R341: Mask of the k greatest lanes. -/
  | vtopk (g : BitVec 4) (d : BitVec 3) (a : BitVec 5) (s : BitVec 5) (m : BitVec 3)
  /-- R344: Converts and packs r FP32 or INT32 rows into a narrow format. -/
  | vpk (g : BitVec 4) (d : BitVec 5) (a : BitVec 5) (f : BitVec 4) (r : BitVec 2) (m : BitVec 3)
  /-- R345: Unpacks one part into FP32 or INT32. -/
  | vupk (g : BitVec 4) (d : BitVec 5) (a : BitVec 5) (f : BitVec 4) (p : BitVec 2) (m : BitVec 3)
  /-- R346: FP32 to INT32 with clamp. -/
  | vcvi (g : BitVec 4) (d : BitVec 5) (a : BitVec 5) (r : BitVec 2) (m : BitVec 3)
  /-- R346: INT32 to FP32. -/
  | vcvf (g : BitVec 4) (d : BitVec 5) (a : BitVec 5) (r : BitVec 2) (m : BitVec 3)
  /-- R346: Clamps lanes to VCLB. -/
  | vclp (g : BitVec 4) (d : BitVec 5) (a : BitVec 5) (m : BitVec 3)
  /-- R332: VWB := n. -/
  | vwset (g : BitVec 4) (n : BitVec 16)
  /-- R332: VWB := (VWB + d) mod 1,536. -/
  | vwin (g : BitVec 4) (n : BitVec 16)
  /-- R342: Permutes lanes by index lanes. -/
  | vperm (g : BitVec 4) (d : BitVec 5) (a : BitVec 5) (b : BitVec 5) (m : BitVec 3)
  /-- R347: Queues a matrix multiply-accumulate of A and B into C. -/
  | mma (g : BitVec 4) (c : BitVec 4) (a : BitVec 4) (b : BitVec 4) (x : BitVec 1) (s : BitVec 1) (t : BitVec 2) (u : BitVec 1) (v : BitVec 1) (p : BitVec 3) (i : BitVec 1)
  /-- R348: Queues the zeroing of a C tile. -/
  | mzero (g : BitVec 4) (c : BitVec 4) (s : BitVec 1)
  /-- R326: Loads a descriptor from core store. -/
  | dld (g : BitVec 4) (d : BitVec 4) (s : BitVec 5)
  /-- R326: Stores a descriptor to core store. -/
  | dst (g : BitVec 4) (d : BitVec 4) (s : BitVec 5)
  /-- R326: Modifies one field of a descriptor. -/
  | dmod (g : BitVec 4) (d : BitVec 4) (s : BitVec 5) (f : BitVec 6)
  /-- R365: Queues a copy between two descriptors, optionally posting a counter. -/
  | cpy (g : BitVec 4) (d : BitVec 4) (k : BitVec 4) (p : BitVec 1) (q : BitVec 4)
  /-- R367: Queues a chain walk up to a new tail. -/
  | cht (g : BitVec 4) (s : BitVec 5)
  /-- R368: Reads the copy-engine state. -/
  | chs (g : BitVec 4) (s : BitVec 5)
  /-- R371: Loads and checks a Truss bitstream. -/
  | tload (g : BitVec 4) (s : BitVec 5)
  /-- R371: Binds a descriptor to a Truss port. -/
  | tbind (g : BitVec 4) (d : BitVec 4) (p : BitVec 3)
  /-- R371: Starts a Truss phase. -/
  | tgo (g : BitVec 4)
  /-- R371: Completes at the end of the core's last phase. -/
  | tbar (g : BitVec 4)
  /-- R373: Creates a sequence from a prompt. -/
  | kvres (g : BitVec 4) (s : BitVec 5)
  /-- R373: Batched append. -/
  | kvapp (g : BitVec 4) (s : BitVec 5)
  /-- R373: Retires spans of a sequence. -/
  | kvret (g : BitVec 4) (s : BitVec 5)
  /-- R373: Forks a sequence. -/
  | kvfork (g : BitVec 4) (s : BitVec 5)
  /-- R373: Writes page-list entries for the selected enumeration lanes. -/
  | kvsel (g : BitVec 4) (s : BitVec 5)
  /-- R375: Builds and starts a chain that stages far pages. -/
  | kvgat (g : BitVec 4) (s : BitVec 5)
  /-- R378: Attention over a page list. -/
  | dattn (g : BitVec 4) (s : BitVec 5)
  /-- R378: Writes rotated keys and queries. -/
  | dattnRot (g : BitVec 4) (s : BitVec 5)
  /-- R378: Page score bounds from summaries. -/
  | dbnd (g : BitVec 4) (s : BitVec 5)
  /-- R378: Merges partial attention results. -/
  | dsum (g : BitVec 4) (s : BitVec 5)
  /-- R380: Waits until a segment beat is present. -/
  | segw (g : BitVec 4) (s : BitVec 5)
  /-- R381: Adds an explicit retention. -/
  | segk (g : BitVec 4) (s : BitVec 5)
  /-- R381: Removes an explicit retention. -/
  | segr (g : BitVec 4) (s : BitVec 5)
  /-- R382: Inserts a segment from staging. -/
  | segi (g : BitVec 4) (d : BitVec 4) (s : BitVec 5)
  /-- R383: Reads the ring turn, next tag and state. -/
  | segt (g : BitVec 4) (s : BitVec 5)
  /-- R384: Queues a trellis encoder job. -/
  | tcenc (g : BitVec 4) (s : BitVec 5)
  /-- R385: Queues an I/O request. -/
  | iorq (g : BitVec 4) (s : BitVec 5)
  /-- R389: Cancels an I/O request. -/
  | iocan (g : BitVec 4) (s : BitVec 5)
  /-- R18: A die receives the sync token, loads KEYC with the token value plus its input-span latency, and forwards the token. -/
  | keycSyncToken (die : Nat)
  /-- R56: A die receives the version token, narrows its range to that of its input link, and forwards it in the next beat slot. -/
  | versionToken (die : Nat)
  /-- R56: A die receives the commit token and writes the ring version into VLINK.VER. -/
  | commitToken (die : Nat)
  /-- R48: A die receives the ring sync token, sets KOFS from the token value and its KEYC, and forwards the token. -/
  | ringSyncToken (die : Nat)
  /-- R49: Every 2^20 cycles a lantern core sends a heartbeat to its neighbour. -/
  | lanternHeartbeat (die : Nat)
  /-- R49: No heartbeat arrives for 32 consecutive periods, so the upstream die is failed and excluded. -/
  | heartbeatTimeout (die : Nat)
  /-- R34: In each beat slot a die sends its oldest unsent beat if occupancy is at least DWELL and no hold is received; otherwise it sends an idle beat, and under DROP it replaces dropped beats. -/
  | beatSlotEgress (die : Nat)
  /-- R32: A header beat is written into the pier and checked for HCRC, tag, turn, length and format; the expectation and locator entry are updated. -/
  | headerBeatWrite (die : Nat)
  /-- R38: A payload beat is written into the pier, becomes present and updates the locator entry; PCRC is checked on the last beat. -/
  | payloadBeatWrite (die : Nat)
  /-- R43: A die receives hold value h from downstream, sends an idle beat in that slot, and forwards max(h - 1, its own assertion) upstream. -/
  | holdValueReceive (die : Nat) (h : Nat)
  /-- R45: Retention-caused hold lasts longer than HLIM, so every record holding retention on the oldest retained segment is stopped with RING cause HOLD_LIMIT. -/
  | holdLimit (die : Nat)
  /-- R50: A failure is signalled and the lead lantern identifies the failed element (DETECT). -/
  | ringFailureDetect (die : Nat)
  /-- R60: A spoke-protocol message carrying far traffic or a secure register access is taken whole at a spoke die or the host. -/
  | spokeMessage (die : Nat) (msg : Option SpokeIn)
  /-- R67: A command that a dependent waits on completes, and the dependent starts or completes CANCELLED. -/
  | dependencyResolved (q : BitVec 4)
  /-- R63: 2^16 cycles after the first unsignalled completion record, MSI-X vector 0 fires. -/
  | cqInterruptTimer
  /-- R95: On a checked header of tag t, the tile scheduler forms and takes in batches per launch, marks misses, retains the segment and makes records ready. -/
  | tileDispatch (die : Nat)
  /-- R88: A core selects its ready record with the smallest key, loads the batch area, and sets the registers or restores the context. -/
  | recordStart (core : Nat)
  /-- R261: After the record's engine commands complete, the core saves its context to CTX and returns it to the ready set or to waiting. -/
  | contextSave (core : Nat)
  /-- R100: The time from a pre-emption request or stop exceeds PLIM, so the running record faults and is stopped. -/
  | preemptLimit (core : Nat)
  /-- R101: A waiting record's stage-counter or I/O condition holds, and it returns to the ready set. -/
  | yieldConditionMet (record : Nat)
  /-- R87: A record whose sequencers have ended, whose commands and accesses have completed and whose side log is drained retires. -/
  | recordRetire (core : Nat)
  /-- R114: A Dome reply or row is absent at its contract cycle, so the cluster freezes. -/
  | domelate (cluster : Nat)
  /-- R114: The last outstanding freeze cause ends and the cluster executes the held CCYC cycle. -/
  | freezeEnd (cluster : Nat)
  /-- R117: A freeze exceeds FRZ_LIMIT, so causing records are stopped and their accesses abandoned. -/
  | watchdog (cluster : Nat)
  /-- R119: The condition of a sequencer's explicit wait becomes true and it issues again. -/
  | explicitWaitComplete (q : SeqId)
  /-- R138: A gld or returning-atomic reply writes its reply-queue entry. -/
  | replyWrite (core : Nat)
  /-- R125: A csend message arrives at the receiver and meets a crecv, or raises TIMING. -/
  | clusterMessageArrival (core : Nat)
  /-- R357: A queued matrix command starts when the engine is ready or at its stamp, after its footprint check. -/
  | matrixCommandStart (core : Nat)
  /-- R358: At s + r + K*c the A and B release counters post. -/
  | matrixOperandRelease (core : Nat)
  /-- R358: A matrix command writes its completion number and posts C's release. -/
  | matrixCompletion (core : Nat)
  /-- R369: A copy item or chain entry starts once its wait holds and its footprints and job card pass. -/
  | copyItemStart (core : Nat)
  /-- R369: A copy item or chain entry completes, makes its post, and advances CHAIN_HEAD or the completion number. -/
  | copyCompletion (core : Nat)
  /-- R247: A Truss phase starts when the previous phase has ended. -/
  | trussPhaseStart (cluster : Nat)
  /-- R248: Every row of the phase has been read and written, so the phase ends and tbar completes. -/
  | trussPhaseEnd (cluster : Nat)
  /-- R214: The free-list unit performs one walker command as a whole and writes RESULT, STATUS and the completion number. -/
  | walkerJob (core : Nat)
  /-- R379: A decode item starts when the previous item of the cluster's engine has completed. -/
  | decodeItemStart (cluster : Nat)
  /-- R379: A decode item finishes writing its results and its completion number. -/
  | decodeItemComplete (cluster : Nat)
  /-- R242: The trellis encoder starts the next accepted job. -/
  | encoderJobStart (die : Nat)
  /-- R241: One block finishes its two-pass search and is written whole. -/
  | encoderBlockComplete (die : Nat)
  /-- R381: A segk or segr item applies its retention change one cycle after acceptance. -/
  | viaductItemStart (core : Nat)
  /-- R382: A segi item completes when its last payload beat has been sent. -/
  | segmentInsertComplete (core : Nat)
  /-- R386: The I/O engine writes a request entry into the host request ring. -/
  | ioRequestSend (core : Nat)
  /-- R386: Every POLL × 64 cycles the engine reads up to 16 response entries. -/
  | ioResponsePoll (die : Nat)
  /-- R388: A request whose data is complete at die scope, after all earlier ones, writes RLEN and STATUS, makes its post, and writes the completion number. -/
  | ioCompletion (core : Nat)
  /-- R144: An owner die takes a request, translates and checks it, and then performs, forwards or faults it. -/
  | ownerAccess (src dst : Nat)
  /-- R145: The target die performs a forwarded physical request without translating it again. -/
  | apertureRequest (src dst : Nat)
  /-- R170: A die sends VC[self] to every die within 256 cycles after its remote writes. -/
  | clockBeaconSend (die : Nat)
  /-- R170: A die records a beacon's count, which may release held accesses. -/
  | clockBeaconReceive (src dst : Nat)
  /-- R170: A held incoming access whose clock is now covered is performed. -/
  | heldAccessRelease (src dst : Nat)
  /-- R154: A side-log entry is performed and freed, and the next entry for the page is sent. -/
  | sideLogReplayStep (core : Nat)
  /-- R255: A fault record enters its lantern core's fault queue at FQTAIL, or is held while the queue is full. -/
  | faultRecordDelivery (die : Nat)
  /-- R98: A record becomes late once the die's ring time passes its deadline, which changes its key class and may raise or withdraw a pre-emption request. -/
  | recordLate (record : Nat)
  /-- R107: An instruction's latency elapses and its register, row or pending queue entry is written. -/
  | latencyElapsed (core : Nat)
  /-- R277: A sequencer issues a word that is not an instruction and raises ILLEGAL, STREAM or ABSENT. -/
  | nonInstructionWord (word : BitVec 32)
  /-- R25: The power system applies input power and holds every compute die in reset. -/
  | powerOn
  /-- R25: The abutment die releases compute-die reset on all dies together; KEYC starts at 0 and SRAM initialisation begins. -/
  | computeDieResetRelease
  /-- R23: SRAM initialisation ends within 5 ms and the boot ROM starts. -/
  | sramInitComplete (die : Nat)
  /-- R10: A spoke, span, chord or bridge link finishes training, with lane repair if needed, and the result is recorded in LNKSTS. -/
  | linkTrainingComplete (die : Nat) (link : Link) (ok : Bool) (repaired : BitVec 8) (latency : BitVec 16) (holdLatency : BitVec 8) (farMin farMax : BitVec 8)
  /-- R27: A die receives a Mepen image in boot mode over a trained span or chord and relays it onward. -/
  | bootImageRelay (die : Nat) (src : ImageSource) (image : List Byte)
  /-- R77: The boot ROM checks the key hash and SLH-DSA signature, updates MEAS and jumps to Mepen, or holds the die and sets FAILD. -/
  | bootImageVerify (die : Nat)
  /-- R20: Every 1,024 cycles a die measures its hottest junction and writes THERM.TJ. -/
  | thermalMeasurement (die : Nat) (tj : BitVec 16)
  /-- R49: A link loses training and is reported failed, which starts bypass repair. -/
  | linkFailure (die : Nat) (link : Link)
  /-- R34: Link-level corruption on a span or chord is corrected by framing retry and counted in VERRC.RETRY. -/
  | linkRetry (die : Nat)
  /-- R12: A bridge port drops and counts an uncorrectable RS(544,514) codeword. -/
  | fecCodewordDrop (die : Nat)
  /-- R50: HOLDF is set, egress is moved to a chord or bridge chord, MODE := 2, traffic is rerouted, and records on excluded dies end. -/
  | repairSwitch
  /-- R51: A new DWELL is written, VDROP and DROP are set, the lead role or origin moves if needed, and HOLDF is cleared. -/
  | repairRebalance
  /-- R53: Homes stage the broken segments from IMG over the spoke and insert them after the next lower tag. -/
  | reinjection (die : Nat)
  /-- R62: The host writes SQTAIL; the write is accepted, ignored, or rejected and counted in QREJ according to the queue world. -/
  | sqTailWrite (q : BitVec 4) (value : Word) (secure : Bool)
  /-- R64: The host advances CQHEAD, freeing completion entries so that the lead lantern resumes taking commands. -/
  | cqHeadWrite (value : Word)
  /-- R256: Mepen advances FQHEAD, and held fault records can then enter the queue. -/
  | fqHeadWrite (die : Nat) (value : Word)
  /-- R57: A write to a register without behaviour of its own updates its RW fields or clears its W1C fields, and writes from agents without permission are ignored. -/
  | registerWrite (die : Nat) (off : BitVec 16) (value : Word) (by_ : Writer)
  /-- R209: The lantern core writes KVCFG with EN = 0; the free-list unit finishes its current job and takes no more. -/
  | kvUnitDisable (die : Nat)
  /-- R150: Mepen rewrites the RW fields of a valid leaf entry under the invalidation guarantee. -/
  | tlbRewrite (die : Nat) (va : Word) (leaf : Word)
  /-- R72: Installs NPAGE leaf entries in the owner die or in all spoke dies, all or none. -/
  | pin (q : BitVec 4) (packet : Rec512)
  /-- R72: Removes entries over NPAGE steps under the invalidation guarantee and returns the number of pages removed. -/
  | unpin (q : BitVec 4) (packet : Rec512)
  /-- R285: Checks and places an image and returns its handle. -/
  | loadImage (q : BitVec 4) (packet : Rec512)
  /-- R83: Records a logical-to-physical core map that meets the distance rules. -/
  | bind (q : BitVec 4) (packet : Rec512)
  /-- R56: Stops and clears the ring, negotiates the version, sets ring time, and writes the geometry, tables and ring regions. -/
  | ringConfig (q : BitVec 4) (packet : Rec512)
  /-- R53: Checks the IMG translations, then fills the ring with the tag range by home insertion. -/
  | inject (q : BitVec 4) (packet : Rec512)
  /-- R72: Places the image sections, sets up slot tables and makes the start records ready. -/
  | launch (q : BitVec 4) (packet : Rec512)
  /-- R93: Queues a slot entry write that takes effect at the die's next turn marker. -/
  | slotWrite (q : BitVec 4) (packet : Rec512)
  /-- R74: Writes a slot entry to host memory after earlier SLOT_WRITEs have been applied. -/
  | slotRead (q : BitVec 4) (packet : Rec512)
  /-- R75: Adds an increment to a shared stage counter of the bound core, ordered after earlier host writes. -/
  | signal (q : BitVec 4) (packet : Rec512)
  /-- R72: Completes when every earlier command of the same queue has completed. -/
  | fence (q : BitVec 4) (packet : Rec512)
  /-- R76: Disables a queue, discards its commands and tears down its launches. -/
  | resetQueue (q : BitVec 4) (packet : Rec512)
  /-- R76: Tears down a single launch. -/
  | teardown (q : BitVec 4) (packet : Rec512)
  /-- R80: Each selected die writes a signed report with MEAS and the nonce. -/
  | attest (q : BitVec 4) (packet : Rec512)
  /-- R257: FRES action 0 continues the stopped record, the missed command or the copy. -/
  | resume (die : Nat) (fseq : BitVec 32)
  /-- R257: FRES action 1 replays the side log for the named core and page. -/
  | replay (die : Nat) (fseq : BitVec 32)
  /-- R257: FRES action 2 kills the record, discards its engine work and log, and releases its retention. -/
  | killRecord (die : Nat) (fseq : BitVec 32)
  /-- R257: FRES action 3 tears down the launch, which completes FAULT. -/
  | killLaunch (die : Nat) (fseq : BitVec 32)
  /-- R22: The scrubber reads, checks and corrects a word in an idle bank cycle. -/
  | scrubRead (target : ScrubTarget) (addr : Nat)
  /-- R26: The whole module is put back into reset, the only way out of DOWN and the only way an excluded die returns to service. -/
  | moduleReset
  /-- R66: The lead lantern takes a packet whose IFV is out of range or whose OPC is not a command, and completes it with VERSION or BADOPC. -/
  | unknownOpcPacket (q : BitVec 4) (packet : Rec512)
deriving DecidableEq, Repr

end Sys2Proof
end

