-- ==== Sys2Proof/WellFormed.lean ====
section
/-! DEFINITION. Which field codes of an instruction word are legal, whatever the registers hold (R264, R268 to R272, and
the forms of each instruction). A word that breaks one of these raises ILLEGAL. -/

namespace Sys2Proof

/-- A scalar field used as a source: s31 is no source (R269). -/
def okSrc (f : BitVec 5) : Bool := f ≠ 31
/-- A scalar field used as a destination: s30 is no destination (R269). -/
def okDst (f : BitVec 5) : Bool := f ≠ 30
/-- A vector destination: code 31 is reserved (R270). -/
def okVd (f : BitVec 5) : Bool := f ≠ 31
/-- A vector destination that is also read: v0 to v27 only (R333). -/
def okVdRead (f : BitVec 5) : Bool := f.toNat < 28
/-- A destination mask: m0 is none (R271). -/
def okMd (f : BitVec 3) : Bool := f ≠ 0
/-- The guard: 0b1000 is reserved (R264). -/
def okGuard (g : BitVec 4) : Bool := g ≠ 8

/-- The sides that may access a system register, and whether it may be written (R272). -/
structure SysInfo where
  onA : Bool
  onX : Bool
  writable : Bool
deriving DecidableEq, Repr

/-- The system registers of R272 by number. -/
def sysInfo (r : BitVec 12) : Option SysInfo :=
  match r.toNat with
  | 0x000 | 0x001 | 0x002 | 0x003 | 0x010 | 0x011 | 0x013 | 0x060 => some ⟨true, true, false⟩
  | 0x012 | 0x030 | 0x031 | 0x032 | 0x033 | 0x034 => some ⟨false, true, true⟩
  | 0x020 | 0x021 | 0x022 | 0x023 | 0x024 | 0x025 => some ⟨true, true, true⟩
  | 0x050 | 0x051 => some ⟨true, false, true⟩
  | n => if 0x040 ≤ n ∧ n < 0x050 then some ⟨true, true, true⟩ else none

/-- Source rows per vpk of a narrow format (R343). -/
def packRows (fmt : BitVec 4) : Nat :=
  match fmt.toNat with
  | 0 | 1 | 7 => 2
  | _ => 4

/-- A vpk source: rows va to va + r - 1 end at v27, or a load queue (R344). -/
def okPackSrc (va : BitVec 5) (fmt : BitVec 4) : Bool :=
  28 ≤ va.toNat ∨ va.toNat + packRows fmt ≤ 28

/-- The legal words: guard, operand codes and reserved values of each form. Events have no word and are always legal. -/
def Instr.wf : Instr → Bool
  | .add g d a b | .sub g d a b | .and g d a b | .or g d a b | .xor g d a b | .andn g d a b
  | .shl g d a b | .shr g d a b | .sra g d a b | .rot g d a b | .mul g d a b | .mulh g d a b
  | .mulhn g d a b | .min g d a b | .max g d a b | .minn g d a b | .maxn g d a b | .div g d a b
  | .divn g d a b | .rem g d a b | .remn g d a b => okGuard g && okDst d && okSrc a && okSrc b
  | .clz g d a | .ctz g d a | .popc g d a => okGuard g && okDst d && okSrc a
  | .mtbt g _ a => okGuard g && okSrc a
  | .mfbt g d _ => okGuard g && okDst d
  | .addi g d a _ | .andi g d a _ | .ori g d a _ | .xori g d a _ => okGuard g && okDst d && okSrc a
  | .shli g d a _ | .shri g d a _ | .srai g d a _ | .roti g d a _ | .sxt g d a _ | .zxt g d a _ =>
    okGuard g && okDst d && okSrc a
  | .ldi g d _ => okGuard g && okDst d
  | .lsi g d _ => okGuard g && okDst d && okSrc d
  | .cmp g _ a b c => okGuard g && okSrc a && okSrc b && decide (c.toNat < 12)
  | .cmpi g _ a c _ => okGuard g && okSrc a && decide (c.toNat < 12)
  | .pand g _ _ _ | .por g _ _ _ | .pxor g _ _ _ | .pandn g _ _ _ => okGuard g
  | .pnot g _ _ | .pmov g _ _ => okGuard g
  | .pget g d => okGuard g && okDst d
  | .pput g a => okGuard g && okSrc a
  | .pbr g _ _ => okGuard g
  | .br g _ | .brl g _ => okGuard g
  | .loop g _ a n => okGuard g && okSrc a && decide (n ≠ 0)
  | .knext g | .exit g => okGuard g
  | .yieldK g s _ | .yieldIo g s => okGuard g && okDst s && okSrc s
  | .bpush g _ | .bpop g _ => okGuard g
  | .ld g d a z _ => okGuard g && okDst d && okSrc a && decide (z ≠ 7)
  | .st g d a z _ => okGuard g && okSrc d && okSrc a && decide (z.toNat < 4)
  | .lqr g _ a b x | .sqw g _ a b x => okGuard g && okSrc a && (decide (x = 1) || okSrc b)
  | .lqg g _ a b _ _ | .sqs g _ a b _ _ => okGuard g && okSrc a && okSrc b
  | .lqz g _ => okGuard g
  | .gld g a _ z => okGuard g && okSrc a && decide (z ≠ 7)
  | .gst g d a _ _ => okGuard g && okSrc d && okSrc a
  | .gpop g d | .gcnt g d => okGuard g && okDst d
  | .amoReturning g a b o _ | .amoReduction g a b o _ => okGuard g && okSrc a && okSrc b && decide (o.toNat < 6)
  | .amoXchg g a b _ => okGuard g && okSrc a && okSrc b
  | .amoCas g d a b _ => okGuard g && okSrc d && okSrc a && okSrc b
  | .amoF32Reduction g a b o => okGuard g && okSrc a && okSrc b && decide (o.toNat < 3)
  | .fenceCore g | .fenceCluster g | .fenceDie g | .fenceModule g => okGuard g
  | .fenceX g _ => okGuard g
  | .kwait g s _ => okGuard g && okSrc s
  | .ktest g s _ _ => okGuard g && okSrc s
  | .kget g s _ => okGuard g && okDst s
  | .kadd g s k r c | .kset g s k r c =>
    okGuard g && okSrc s && (if r = 1 then decide (8 ≤ k.toNat) else decide (c = 0))
  | .ewait g s _ => okGuard g && okSrc s
  | .eseq g s _ => okGuard g && okDst s
  | .qwait g s q => okGuard g && okSrc s && decide (q.toNat < 11)
  | .rsr g s r => okGuard g && okDst s && (sysInfo r).isSome
  | .wsr g s r => okGuard g && okSrc s && (match sysInfo r with | some i => i.writable | none => false)
  | .xsr g s r =>
    okGuard g && okSrc s && okDst s && (match sysInfo r with | some i => i.writable | none => false)
  | .nop g => okGuard g
  | .trap g _ | .brk g _ | .csync g _ => okGuard g
  | .csendS g a _ | .csendRow g a _ | .crecvRow g a _ => okGuard g && okSrc a
  | .crecvS g d _ => okGuard g && okDst d
  | .vadd g d _ _ _ | .vsub g d _ _ _ | .vmul g d _ _ _ | .vmin g d _ _ _ | .vmax g d _ _ _ | .vsel g d _ _ _ =>
    okGuard g && okVd d
  | .vfma g d _ _ _ | .vfms g d _ _ _ => okGuard g && okVdRead d
  | .vabs g d _ _ | .vneg g d _ _ | .vmov g d _ _ => okGuard g && okVd d
  | .viadd g d _ _ _ | .visub g d _ _ _ | .vimul g d _ _ _ | .vimin g d _ _ _ | .vimax g d _ _ _
  | .vand g d _ _ _ | .vor g d _ _ _ | .vxor g d _ _ _ | .vshl g d _ _ _ | .vshr g d _ _ _ | .vsra g d _ _ _ =>
    okGuard g && okVd d
  | .vexp2 g d _ _ | .vlog2 g d _ _ | .vrcp g d _ _ | .vrsqrt g d _ _ | .vsqrt g d _ _ | .vtanh g d _ _
  | .vsigm g d _ _ => okGuard g && okVd d
  | .vcmp g d _ _ _ c => okGuard g && okMd d && decide (c.toNat < 6)
  | .vicmp g d _ _ _ _ => okGuard g && okMd d
  | .vsum g _ s _ | .vrmax g _ s _ | .vrmin g _ s _ | .vargmax g _ s _ => okGuard g && okDst s
  | .mand g d _ _ | .mor g d _ _ | .mxor g d _ _ => okGuard g && okMd d
  | .mnot g d _ => okGuard g && okMd d
  | .mset g d | .mclr g d => okGuard g && okMd d
  | .mfirst g d _ _ => okGuard g && okMd d
  | .vany g _ _ _ | .vall g _ _ _ => okGuard g
  | .mcnt g s _ _ => okGuard g && okDst s
  | .vadds g d _ s _ | .vsubs g d _ s _ | .vmuls g d _ s _ | .vmins g d _ s _ | .vmaxs g d _ s _ | .vrot g d _ s _ =>
    okGuard g && okVd d && okSrc s
  | .vfmas g d _ s _ => okGuard g && okVdRead d && okSrc s
  | .vbc g d s _ => okGuard g && okVd d && okSrc s
  | .vext g d _ s => okGuard g && okDst d && okSrc s
  | .vtopk g d _ s _ => okGuard g && okMd d && okSrc s
  | .vpk g d a f _ _ => okGuard g && okVd d && decide (f.toNat < 9) && okPackSrc a f
  | .vupk g d _ f p _ => okGuard g && okVd d && decide (f.toNat < 9) && decide (p.toNat < packRows f)
  | .vcvi g d _ _ _ | .vcvf g d _ _ _ => okGuard g && okVd d
  | .vclp g d _ _ => okGuard g && okVd d
  | .vwset g n => okGuard g && decide (n.toNat < 1536)
  | .vwin g _ => okGuard g
  | .vperm g d _ _ _ => okGuard g && okVd d
  | .mma g _ _ _ _ _ t _ _ _ _ => okGuard g && decide (t ≠ 3)
  | .mzero g _ _ => okGuard g
  | .dld g _ s | .dst g _ s => okGuard g && okSrc s
  | .dmod g _ s f => okGuard g && okSrc s && decide (f.toNat < 19)
  | .cpy g _ _ _ _ => okGuard g
  | .cht g s => okGuard g && okSrc s
  | .chs g s => okGuard g && okDst s
  | .tload g s => okGuard g && okSrc s
  | .tbind g _ _ => okGuard g
  | .tgo g | .tbar g => okGuard g
  | .kvres g s | .kvapp g s | .kvret g s | .kvfork g s | .kvsel g s | .kvgat g s => okGuard g && okSrc s
  | .dattn g s | .dattnRot g s | .dbnd g s | .dsum g s => okGuard g && okSrc s
  | .segw g s | .segk g s | .segr g s => okGuard g && okSrc s
  | .segi g _ s => okGuard g && okSrc s
  | .segt g s => okGuard g && okDst s
  | .tcenc g s | .iorq g s | .iocan g s => okGuard g && okSrc s
  | _ => true

end Sys2Proof
end

