-- ==== Sys2Proof/Decode.lean ====
section
/-! DEFINITION. Decoding of 32-bit words (R263, R267 to R277), total and rejecting, then the encoder. -/

namespace Sys2Proof

/-- Bits [lo + len - 1 : lo] of an instruction word. -/
def fld (w : BitVec 32) (lo len : Nat) : BitVec len := w.extractLsb' lo len

/-- Words of major opcode 0x01, by their function codes and zero fields (R286, R293). -/
def decodeMajor01 (w : BitVec 32) : Option Instr :=
  if fld w 0 7 = 0 then some (.add (fld w 28 4) (fld w 17 5) (fld w 12 5) (fld w 7 5))
  else if fld w 0 7 = 1 then some (.sub (fld w 28 4) (fld w 17 5) (fld w 12 5) (fld w 7 5))
  else if fld w 0 7 = 2 then some (.and (fld w 28 4) (fld w 17 5) (fld w 12 5) (fld w 7 5))
  else if fld w 0 7 = 3 then some (.or (fld w 28 4) (fld w 17 5) (fld w 12 5) (fld w 7 5))
  else if fld w 0 7 = 4 then some (.xor (fld w 28 4) (fld w 17 5) (fld w 12 5) (fld w 7 5))
  else if fld w 0 7 = 5 then some (.andn (fld w 28 4) (fld w 17 5) (fld w 12 5) (fld w 7 5))
  else if fld w 0 7 = 6 then some (.shl (fld w 28 4) (fld w 17 5) (fld w 12 5) (fld w 7 5))
  else if fld w 0 7 = 7 then some (.shr (fld w 28 4) (fld w 17 5) (fld w 12 5) (fld w 7 5))
  else if fld w 0 7 = 8 then some (.sra (fld w 28 4) (fld w 17 5) (fld w 12 5) (fld w 7 5))
  else if fld w 0 7 = 9 then some (.rot (fld w 28 4) (fld w 17 5) (fld w 12 5) (fld w 7 5))
  else if fld w 0 7 = 10 then some (.mul (fld w 28 4) (fld w 17 5) (fld w 12 5) (fld w 7 5))
  else if fld w 0 7 = 11 then some (.mulh (fld w 28 4) (fld w 17 5) (fld w 12 5) (fld w 7 5))
  else if fld w 0 7 = 12 then some (.mulhn (fld w 28 4) (fld w 17 5) (fld w 12 5) (fld w 7 5))
  else if fld w 0 7 = 13 then some (.min (fld w 28 4) (fld w 17 5) (fld w 12 5) (fld w 7 5))
  else if fld w 0 7 = 14 then some (.max (fld w 28 4) (fld w 17 5) (fld w 12 5) (fld w 7 5))
  else if fld w 0 7 = 15 then some (.minn (fld w 28 4) (fld w 17 5) (fld w 12 5) (fld w 7 5))
  else if fld w 0 7 = 16 then some (.maxn (fld w 28 4) (fld w 17 5) (fld w 12 5) (fld w 7 5))
  else if fld w 0 7 = 17 then some (.div (fld w 28 4) (fld w 17 5) (fld w 12 5) (fld w 7 5))
  else if fld w 0 7 = 18 then some (.divn (fld w 28 4) (fld w 17 5) (fld w 12 5) (fld w 7 5))
  else if fld w 0 7 = 19 then some (.rem (fld w 28 4) (fld w 17 5) (fld w 12 5) (fld w 7 5))
  else if fld w 0 7 = 20 then some (.remn (fld w 28 4) (fld w 17 5) (fld w 12 5) (fld w 7 5))
  else if fld w 0 12 = 21 then some (.clz (fld w 28 4) (fld w 17 5) (fld w 12 5))
  else if fld w 0 12 = 22 then some (.ctz (fld w 28 4) (fld w 17 5) (fld w 12 5))
  else if fld w 0 12 = 23 then some (.popc (fld w 28 4) (fld w 17 5) (fld w 12 5))
  else if fld w 0 12 = 24 ∧ fld w 19 3 = 0 then some (.mtbt (fld w 28 4) (fld w 17 2) (fld w 12 5))
  else if fld w 0 12 = 25 ∧ fld w 14 3 = 0 then some (.mfbt (fld w 28 4) (fld w 17 5) (fld w 12 2))
  else none

/-- Words of major opcode 0x02, by their function codes and zero fields (R287). -/
def decodeMajor02 (w : BitVec 32) : Option Instr :=
  some (.addi (fld w 28 4) (fld w 17 5) (fld w 12 5) (fld w 0 12))

/-- Words of major opcode 0x03, by their function codes and zero fields (R287). -/
def decodeMajor03 (w : BitVec 32) : Option Instr :=
  some (.andi (fld w 28 4) (fld w 17 5) (fld w 12 5) (fld w 0 12))

/-- Words of major opcode 0x04, by their function codes and zero fields (R287). -/
def decodeMajor04 (w : BitVec 32) : Option Instr :=
  some (.ori (fld w 28 4) (fld w 17 5) (fld w 12 5) (fld w 0 12))

/-- Words of major opcode 0x05, by their function codes and zero fields (R287). -/
def decodeMajor05 (w : BitVec 32) : Option Instr :=
  some (.xori (fld w 28 4) (fld w 17 5) (fld w 12 5) (fld w 0 12))

/-- Words of major opcode 0x06, by their function codes and zero fields (R288). -/
def decodeMajor06 (w : BitVec 32) : Option Instr :=
  if fld w 6 6 = 0 then some (.shli (fld w 28 4) (fld w 17 5) (fld w 12 5) (fld w 0 6))
  else if fld w 6 6 = 16 then some (.shri (fld w 28 4) (fld w 17 5) (fld w 12 5) (fld w 0 6))
  else if fld w 6 6 = 32 then some (.srai (fld w 28 4) (fld w 17 5) (fld w 12 5) (fld w 0 6))
  else if fld w 6 6 = 48 then some (.roti (fld w 28 4) (fld w 17 5) (fld w 12 5) (fld w 0 6))
  else none

/-- Words of major opcode 0x07, by their function codes and zero fields (R288). -/
def decodeMajor07 (w : BitVec 32) : Option Instr :=
  if fld w 6 6 = 32 then some (.sxt (fld w 28 4) (fld w 17 5) (fld w 12 5) (fld w 0 6))
  else if fld w 6 6 = 0 then some (.zxt (fld w 28 4) (fld w 17 5) (fld w 12 5) (fld w 0 6))
  else none

/-- Words of major opcode 0x08, by their function codes and zero fields (R289). -/
def decodeMajor08 (w : BitVec 32) : Option Instr :=
  some (.ldi (fld w 28 4) (fld w 17 5) (fld w 0 17))

/-- Words of major opcode 0x09, by their function codes and zero fields (R289). -/
def decodeMajor09 (w : BitVec 32) : Option Instr :=
  if fld w 16 1 = 0 then some (.lsi (fld w 28 4) (fld w 17 5) (fld w 0 16))
  else none

/-- Words of major opcode 0x0A, by their function codes and zero fields (R290). -/
def decodeMajor0A (w : BitVec 32) : Option Instr :=
  if fld w 0 5 = 0 then some (.cmp (fld w 28 4) (fld w 19 3) (fld w 14 5) (fld w 9 5) (fld w 5 4))
  else none

/-- Words of major opcode 0x0B, by their function codes and zero fields (R290). -/
def decodeMajor0B (w : BitVec 32) : Option Instr :=
  some (.cmpi (fld w 28 4) (fld w 19 3) (fld w 14 5) (fld w 10 4) (fld w 0 10))

/-- Words of major opcode 0x0C, by their function codes and zero fields (R291). -/
def decodeMajor0C (w : BitVec 32) : Option Instr :=
  if fld w 0 7 = 0 ∧ fld w 10 2 = 0 ∧ fld w 15 2 = 0 ∧ fld w 20 2 = 0 then some (.pand (fld w 28 4) (fld w 17 3) (fld w 12 3) (fld w 7 3))
  else if fld w 0 7 = 1 ∧ fld w 10 2 = 0 ∧ fld w 15 2 = 0 ∧ fld w 20 2 = 0 then some (.por (fld w 28 4) (fld w 17 3) (fld w 12 3) (fld w 7 3))
  else if fld w 0 7 = 2 ∧ fld w 10 2 = 0 ∧ fld w 15 2 = 0 ∧ fld w 20 2 = 0 then some (.pxor (fld w 28 4) (fld w 17 3) (fld w 12 3) (fld w 7 3))
  else if fld w 0 7 = 3 ∧ fld w 10 2 = 0 ∧ fld w 15 2 = 0 ∧ fld w 20 2 = 0 then some (.pandn (fld w 28 4) (fld w 17 3) (fld w 12 3) (fld w 7 3))
  else if fld w 0 12 = 4 ∧ fld w 15 2 = 0 ∧ fld w 20 2 = 0 then some (.pnot (fld w 28 4) (fld w 17 3) (fld w 12 3))
  else if fld w 0 12 = 5 ∧ fld w 15 2 = 0 ∧ fld w 20 2 = 0 then some (.pmov (fld w 28 4) (fld w 17 3) (fld w 12 3))
  else if fld w 0 17 = 6 then some (.pget (fld w 28 4) (fld w 17 5))
  else if fld w 0 12 = 7 ∧ fld w 17 5 = 0 then some (.pput (fld w 28 4) (fld w 12 5))
  else none

/-- Words of major opcode 0x0D, by their function codes and zero fields (R293). -/
def decodeMajor0D (w : BitVec 32) : Option Instr :=
  some (.pbr (fld w 28 4) (fld w 20 2) (fld w 0 20))

/-- Words of major opcode 0x0E, by their function codes and zero fields (R294). -/
def decodeMajor0E (w : BitVec 32) : Option Instr :=
  if fld w 0 20 = 0 then some (.br (fld w 28 4) (fld w 20 2))
  else if fld w 0 20 = 262144 then some (.brl (fld w 28 4) (fld w 20 2))
  else none

/-- Words of major opcode 0x0F, by their function codes and zero fields (R296). -/
def decodeMajor0F (w : BitVec 32) : Option Instr :=
  if fld w 18 4 = 0 then some (.loop (fld w 28 4) (fld w 17 1) (fld w 12 5) (fld w 0 12))
  else none

/-- Words of major opcode 0x10, by their function codes and zero fields (R300, R301). -/
def decodeMajor10 (w : BitVec 32) : Option Instr :=
  if fld w 0 22 = 0 then some (.knext (fld w 28 4))
  else if fld w 0 22 = 65536 then some (.exit (fld w 28 4))
  else if fld w 4 6 = 0 ∧ fld w 15 7 = 4 then some (.yieldK (fld w 28 4) (fld w 10 5) (fld w 0 4))
  else if fld w 0 10 = 0 ∧ fld w 15 7 = 5 then some (.yieldIo (fld w 28 4) (fld w 10 5))
  else none

/-- Words of major opcode 0x11, by their function codes and zero fields (R292). -/
def decodeMajor11 (w : BitVec 32) : Option Instr :=
  if fld w 0 12 = 0 ∧ fld w 15 7 = 0 then some (.bpush (fld w 28 4) (fld w 12 3))
  else if fld w 0 17 = 1 ∧ fld w 20 2 = 0 then some (.bpop (fld w 28 4) (fld w 17 3))
  else none

/-- Words of major opcode 0x12, by their function codes and zero fields (R304). -/
def decodeMajor12 (w : BitVec 32) : Option Instr :=
  some (.ld (fld w 28 4) (fld w 17 5) (fld w 12 5) (fld w 9 3) (fld w 0 9))

/-- Words of major opcode 0x13, by their function codes and zero fields (R304). -/
def decodeMajor13 (w : BitVec 32) : Option Instr :=
  some (.st (fld w 28 4) (fld w 17 5) (fld w 12 5) (fld w 9 3) (fld w 0 9))

/-- Words of major opcode 0x14, by their function codes and zero fields (R307, R308). -/
def decodeMajor14 (w : BitVec 32) : Option Instr :=
  if fld w 0 3 = 0 ∧ fld w 4 3 = 0 ∧ fld w 19 3 = 0 then some (.lqr (fld w 28 4) (fld w 17 2) (fld w 12 5) (fld w 7 5) (fld w 3 1))
  else if fld w 3 4 = 2 ∧ fld w 19 3 = 0 then some (.lqg (fld w 28 4) (fld w 17 2) (fld w 12 5) (fld w 7 5) (fld w 2 1) (fld w 0 2))
  else if fld w 0 3 = 0 ∧ fld w 4 3 = 2 ∧ fld w 18 4 = 0 then some (.sqw (fld w 28 4) (fld w 17 1) (fld w 12 5) (fld w 7 5) (fld w 3 1))
  else if fld w 3 4 = 6 ∧ fld w 18 4 = 0 then some (.sqs (fld w 28 4) (fld w 17 1) (fld w 12 5) (fld w 7 5) (fld w 2 1) (fld w 0 2))
  else if fld w 0 17 = 64 ∧ fld w 19 3 = 0 then some (.lqz (fld w 28 4) (fld w 17 2))
  else none

/-- Words of major opcode 0x15, by their function codes and zero fields (R311). -/
def decodeMajor15 (w : BitVec 32) : Option Instr :=
  if fld w 0 1 = 0 ∧ fld w 4 3 = 0 ∧ fld w 17 5 = 0 then some (.gld (fld w 28 4) (fld w 12 5) (fld w 7 5) (fld w 1 3))
  else if fld w 0 1 = 0 ∧ fld w 3 4 = 2 then some (.gst (fld w 28 4) (fld w 17 5) (fld w 12 5) (fld w 7 5) (fld w 1 2))
  else if fld w 0 17 = 32 then some (.gpop (fld w 28 4) (fld w 17 5))
  else if fld w 0 17 = 48 then some (.gcnt (fld w 28 4) (fld w 17 5))
  else none

/-- Words of major opcode 0x16, by their function codes and zero fields (R314). -/
def decodeMajor16 (w : BitVec 32) : Option Instr :=
  if fld w 2 5 = 28 ∧ fld w 17 5 = 0 then some (.amoXchg (fld w 28 4) (fld w 12 5) (fld w 7 5) (fld w 0 2))
  else if fld w 2 5 = 30 then some (.amoCas (fld w 28 4) (fld w 17 5) (fld w 12 5) (fld w 7 5) (fld w 0 2))
  else if fld w 2 1 = 0 ∧ fld w 6 1 = 1 ∧ fld w 17 5 = 0 then some (.amoReturning (fld w 28 4) (fld w 12 5) (fld w 7 5) (fld w 3 3) (fld w 0 2))
  else if fld w 2 1 = 0 ∧ fld w 6 1 = 0 ∧ fld w 17 5 = 0 then some (.amoReduction (fld w 28 4) (fld w 12 5) (fld w 7 5) (fld w 3 3) (fld w 0 2))
  else if fld w 0 3 = 4 ∧ fld w 6 1 = 0 ∧ fld w 17 5 = 0 then some (.amoF32Reduction (fld w 28 4) (fld w 12 5) (fld w 7 5) (fld w 3 3))
  else none

/-- Words of major opcode 0x17, by their function codes and zero fields (R164, R174). -/
def decodeMajor17 (w : BitVec 32) : Option Instr :=
  if fld w 0 22 = 0 then some (.fenceCore (fld w 28 4))
  else if fld w 0 22 = 65536 then some (.fenceCluster (fld w 28 4))
  else if fld w 0 22 = 131072 then some (.fenceDie (fld w 28 4))
  else if fld w 0 22 = 196608 then some (.fenceModule (fld w 28 4))
  else if fld w 8 14 = 1024 then some (.fenceX (fld w 28 4) (fld w 0 8))
  else none

/-- Words of major opcode 0x18, by their function codes and zero fields (R316, R317). -/
def decodeMajor18 (w : BitVec 32) : Option Instr :=
  if fld w 0 9 = 0 ∧ fld w 18 4 = 0 then some (.kwait (fld w 28 4) (fld w 13 5) (fld w 9 4))
  else if fld w 3 6 = 8 ∧ fld w 18 4 = 0 then some (.ktest (fld w 28 4) (fld w 13 5) (fld w 9 4) (fld w 0 3))
  else if fld w 0 9 = 128 ∧ fld w 18 4 = 0 then some (.kget (fld w 28 4) (fld w 13 5) (fld w 9 4))
  else if fld w 3 2 = 0 ∧ fld w 6 3 = 3 ∧ fld w 18 4 = 0 then some (.kadd (fld w 28 4) (fld w 13 5) (fld w 9 4) (fld w 5 1) (fld w 0 3))
  else if fld w 3 2 = 0 ∧ fld w 6 3 = 4 ∧ fld w 18 4 = 0 then some (.kset (fld w 28 4) (fld w 13 5) (fld w 9 4) (fld w 5 1) (fld w 0 3))
  else none

/-- Words of major opcode 0x19, by their function codes and zero fields (R318, R319). -/
def decodeMajor19 (w : BitVec 32) : Option Instr :=
  if fld w 0 9 = 0 ∧ fld w 12 1 = 0 ∧ fld w 18 4 = 0 then some (.ewait (fld w 28 4) (fld w 13 5) (fld w 9 3))
  else if fld w 0 9 = 64 ∧ fld w 12 1 = 0 ∧ fld w 18 4 = 0 then some (.eseq (fld w 28 4) (fld w 13 5) (fld w 9 3))
  else if fld w 0 9 = 128 ∧ fld w 18 4 = 0 then some (.qwait (fld w 28 4) (fld w 13 5) (fld w 9 4))
  else none

/-- Words of major opcode 0x1A, by their function codes and zero fields (R302). -/
def decodeMajor1A (w : BitVec 32) : Option Instr :=
  if fld w 0 5 = 0 then some (.rsr (fld w 28 4) (fld w 17 5) (fld w 5 12))
  else if fld w 0 5 = 1 then some (.wsr (fld w 28 4) (fld w 17 5) (fld w 5 12))
  else if fld w 0 5 = 2 then some (.xsr (fld w 28 4) (fld w 17 5) (fld w 5 12))
  else none

/-- Words of major opcode 0x1B, by their function codes and zero fields (R122, R303). -/
def decodeMajor1B (w : BitVec 32) : Option Instr :=
  if fld w 0 22 = 0 then some (.nop (fld w 28 4))
  else if fld w 16 6 = 1 then some (.trap (fld w 28 4) (fld w 0 16))
  else if fld w 16 6 = 2 then some (.brk (fld w 28 4) (fld w 0 16))
  else if fld w 16 6 = 3 then some (.csync (fld w 28 4) (fld w 0 16))
  else none

/-- Words of major opcode 0x1C, by their function codes and zero fields (R321). -/
def decodeMajor1C (w : BitVec 32) : Option Instr :=
  if fld w 3 9 = 0 ∧ fld w 17 5 = 0 then some (.csendS (fld w 28 4) (fld w 12 5) (fld w 0 3))
  else if fld w 3 14 = 8 then some (.crecvS (fld w 28 4) (fld w 17 5) (fld w 0 3))
  else if fld w 3 9 = 2 ∧ fld w 17 5 = 0 then some (.csendRow (fld w 28 4) (fld w 12 5) (fld w 0 3))
  else if fld w 3 9 = 10 ∧ fld w 17 5 = 0 then some (.crecvRow (fld w 28 4) (fld w 12 5) (fld w 0 3))
  else none

/-- Words of major opcode 0x20, by their function codes and zero fields (R333). -/
def decodeMajor20 (w : BitVec 32) : Option Instr :=
  if fld w 0 4 = 0 then some (.vadd (fld w 28 4) (fld w 17 5) (fld w 12 5) (fld w 7 5) (fld w 4 3))
  else if fld w 0 4 = 1 then some (.vsub (fld w 28 4) (fld w 17 5) (fld w 12 5) (fld w 7 5) (fld w 4 3))
  else if fld w 0 4 = 2 then some (.vmul (fld w 28 4) (fld w 17 5) (fld w 12 5) (fld w 7 5) (fld w 4 3))
  else if fld w 0 4 = 3 then some (.vfma (fld w 28 4) (fld w 17 5) (fld w 12 5) (fld w 7 5) (fld w 4 3))
  else if fld w 0 4 = 4 then some (.vfms (fld w 28 4) (fld w 17 5) (fld w 12 5) (fld w 7 5) (fld w 4 3))
  else if fld w 0 4 = 5 then some (.vmin (fld w 28 4) (fld w 17 5) (fld w 12 5) (fld w 7 5) (fld w 4 3))
  else if fld w 0 4 = 6 then some (.vmax (fld w 28 4) (fld w 17 5) (fld w 12 5) (fld w 7 5) (fld w 4 3))
  else if fld w 0 4 = 7 ∧ fld w 7 5 = 0 then some (.vabs (fld w 28 4) (fld w 17 5) (fld w 12 5) (fld w 4 3))
  else if fld w 0 4 = 8 ∧ fld w 7 5 = 0 then some (.vneg (fld w 28 4) (fld w 17 5) (fld w 12 5) (fld w 4 3))
  else if fld w 0 4 = 9 ∧ fld w 7 5 = 0 then some (.vmov (fld w 28 4) (fld w 17 5) (fld w 12 5) (fld w 4 3))
  else if fld w 0 4 = 10 then some (.vsel (fld w 28 4) (fld w 17 5) (fld w 12 5) (fld w 7 5) (fld w 4 3))
  else none

/-- Words of major opcode 0x21, by their function codes and zero fields (R334). -/
def decodeMajor21 (w : BitVec 32) : Option Instr :=
  if fld w 0 4 = 0 then some (.viadd (fld w 28 4) (fld w 17 5) (fld w 12 5) (fld w 7 5) (fld w 4 3))
  else if fld w 0 4 = 1 then some (.visub (fld w 28 4) (fld w 17 5) (fld w 12 5) (fld w 7 5) (fld w 4 3))
  else if fld w 0 4 = 2 then some (.vimul (fld w 28 4) (fld w 17 5) (fld w 12 5) (fld w 7 5) (fld w 4 3))
  else if fld w 0 4 = 3 then some (.vimin (fld w 28 4) (fld w 17 5) (fld w 12 5) (fld w 7 5) (fld w 4 3))
  else if fld w 0 4 = 4 then some (.vimax (fld w 28 4) (fld w 17 5) (fld w 12 5) (fld w 7 5) (fld w 4 3))
  else if fld w 0 4 = 5 then some (.vand (fld w 28 4) (fld w 17 5) (fld w 12 5) (fld w 7 5) (fld w 4 3))
  else if fld w 0 4 = 6 then some (.vor (fld w 28 4) (fld w 17 5) (fld w 12 5) (fld w 7 5) (fld w 4 3))
  else if fld w 0 4 = 7 then some (.vxor (fld w 28 4) (fld w 17 5) (fld w 12 5) (fld w 7 5) (fld w 4 3))
  else if fld w 0 4 = 8 then some (.vshl (fld w 28 4) (fld w 17 5) (fld w 12 5) (fld w 7 5) (fld w 4 3))
  else if fld w 0 4 = 9 then some (.vshr (fld w 28 4) (fld w 17 5) (fld w 12 5) (fld w 7 5) (fld w 4 3))
  else if fld w 0 4 = 10 then some (.vsra (fld w 28 4) (fld w 17 5) (fld w 12 5) (fld w 7 5) (fld w 4 3))
  else none

/-- Words of major opcode 0x22, by their function codes and zero fields (R335). -/
def decodeMajor22 (w : BitVec 32) : Option Instr :=
  if fld w 0 4 = 0 ∧ fld w 7 5 = 0 then some (.vexp2 (fld w 28 4) (fld w 17 5) (fld w 12 5) (fld w 4 3))
  else if fld w 0 4 = 1 ∧ fld w 7 5 = 0 then some (.vlog2 (fld w 28 4) (fld w 17 5) (fld w 12 5) (fld w 4 3))
  else if fld w 0 4 = 2 ∧ fld w 7 5 = 0 then some (.vrcp (fld w 28 4) (fld w 17 5) (fld w 12 5) (fld w 4 3))
  else if fld w 0 4 = 3 ∧ fld w 7 5 = 0 then some (.vrsqrt (fld w 28 4) (fld w 17 5) (fld w 12 5) (fld w 4 3))
  else if fld w 0 4 = 4 ∧ fld w 7 5 = 0 then some (.vsqrt (fld w 28 4) (fld w 17 5) (fld w 12 5) (fld w 4 3))
  else if fld w 0 4 = 5 ∧ fld w 7 5 = 0 then some (.vtanh (fld w 28 4) (fld w 17 5) (fld w 12 5) (fld w 4 3))
  else if fld w 0 4 = 6 ∧ fld w 7 5 = 0 then some (.vsigm (fld w 28 4) (fld w 17 5) (fld w 12 5) (fld w 4 3))
  else none

/-- Words of major opcode 0x23, by their function codes and zero fields (R336). -/
def decodeMajor23 (w : BitVec 32) : Option Instr :=
  if fld w 3 1 = 0 ∧ fld w 20 2 = 0 then some (.vcmp (fld w 28 4) (fld w 17 3) (fld w 12 5) (fld w 7 5) (fld w 4 3) (fld w 0 3))
  else if fld w 3 1 = 1 ∧ fld w 20 2 = 0 then some (.vicmp (fld w 28 4) (fld w 17 3) (fld w 12 5) (fld w 7 5) (fld w 4 3) (fld w 0 3))
  else none

/-- Words of major opcode 0x24, by their function codes and zero fields (R338). -/
def decodeMajor24 (w : BitVec 32) : Option Instr :=
  if fld w 0 4 = 0 ∧ fld w 17 5 = 0 then some (.vsum (fld w 28 4) (fld w 12 5) (fld w 7 5) (fld w 4 3))
  else if fld w 0 4 = 1 ∧ fld w 17 5 = 0 then some (.vrmax (fld w 28 4) (fld w 12 5) (fld w 7 5) (fld w 4 3))
  else if fld w 0 4 = 2 ∧ fld w 17 5 = 0 then some (.vrmin (fld w 28 4) (fld w 12 5) (fld w 7 5) (fld w 4 3))
  else if fld w 0 4 = 3 ∧ fld w 17 5 = 0 then some (.vargmax (fld w 28 4) (fld w 12 5) (fld w 7 5) (fld w 4 3))
  else none

/-- Words of major opcode 0x25, by their function codes and zero fields (R337). -/
def decodeMajor25 (w : BitVec 32) : Option Instr :=
  if fld w 0 7 = 0 ∧ fld w 10 2 = 0 ∧ fld w 15 2 = 0 ∧ fld w 20 2 = 0 then some (.mand (fld w 28 4) (fld w 17 3) (fld w 12 3) (fld w 7 3))
  else if fld w 0 7 = 1 ∧ fld w 10 2 = 0 ∧ fld w 15 2 = 0 ∧ fld w 20 2 = 0 then some (.mor (fld w 28 4) (fld w 17 3) (fld w 12 3) (fld w 7 3))
  else if fld w 0 7 = 2 ∧ fld w 10 2 = 0 ∧ fld w 15 2 = 0 ∧ fld w 20 2 = 0 then some (.mxor (fld w 28 4) (fld w 17 3) (fld w 12 3) (fld w 7 3))
  else if fld w 0 12 = 3 ∧ fld w 15 2 = 0 ∧ fld w 20 2 = 0 then some (.mnot (fld w 28 4) (fld w 17 3) (fld w 12 3))
  else if fld w 0 17 = 4 ∧ fld w 20 2 = 0 then some (.mset (fld w 28 4) (fld w 17 3))
  else if fld w 0 17 = 5 ∧ fld w 20 2 = 0 then some (.mclr (fld w 28 4) (fld w 17 3))
  else if fld w 0 4 = 6 ∧ fld w 7 5 = 0 ∧ fld w 15 2 = 0 ∧ fld w 20 2 = 0 then some (.mfirst (fld w 28 4) (fld w 17 3) (fld w 12 3) (fld w 4 3))
  else if fld w 0 4 = 7 ∧ fld w 7 5 = 0 ∧ fld w 15 2 = 0 ∧ fld w 20 2 = 0 then some (.vany (fld w 28 4) (fld w 17 3) (fld w 12 3) (fld w 4 3))
  else if fld w 0 4 = 8 ∧ fld w 7 5 = 0 ∧ fld w 15 2 = 0 ∧ fld w 20 2 = 0 then some (.vall (fld w 28 4) (fld w 17 3) (fld w 12 3) (fld w 4 3))
  else if fld w 0 4 = 9 ∧ fld w 7 5 = 0 ∧ fld w 15 2 = 0 then some (.mcnt (fld w 28 4) (fld w 17 5) (fld w 12 3) (fld w 4 3))
  else none

/-- Words of major opcode 0x26, by their function codes and zero fields (R339, R340, R341). -/
def decodeMajor26 (w : BitVec 32) : Option Instr :=
  if fld w 0 4 = 0 then some (.vadds (fld w 28 4) (fld w 17 5) (fld w 12 5) (fld w 7 5) (fld w 4 3))
  else if fld w 0 4 = 1 then some (.vsubs (fld w 28 4) (fld w 17 5) (fld w 12 5) (fld w 7 5) (fld w 4 3))
  else if fld w 0 4 = 2 then some (.vmuls (fld w 28 4) (fld w 17 5) (fld w 12 5) (fld w 7 5) (fld w 4 3))
  else if fld w 0 4 = 3 then some (.vfmas (fld w 28 4) (fld w 17 5) (fld w 12 5) (fld w 7 5) (fld w 4 3))
  else if fld w 0 4 = 4 then some (.vmins (fld w 28 4) (fld w 17 5) (fld w 12 5) (fld w 7 5) (fld w 4 3))
  else if fld w 0 4 = 5 then some (.vmaxs (fld w 28 4) (fld w 17 5) (fld w 12 5) (fld w 7 5) (fld w 4 3))
  else if fld w 0 4 = 6 ∧ fld w 12 5 = 0 then some (.vbc (fld w 28 4) (fld w 17 5) (fld w 7 5) (fld w 4 3))
  else if fld w 0 7 = 7 then some (.vext (fld w 28 4) (fld w 17 5) (fld w 12 5) (fld w 7 5))
  else if fld w 0 4 = 8 then some (.vrot (fld w 28 4) (fld w 17 5) (fld w 12 5) (fld w 7 5) (fld w 4 3))
  else if fld w 0 4 = 9 ∧ fld w 20 2 = 0 then some (.vtopk (fld w 28 4) (fld w 17 3) (fld w 12 5) (fld w 7 5) (fld w 4 3))
  else none

/-- Words of major opcode 0x27, by their function codes and zero fields (R344, R345, R346). -/
def decodeMajor27 (w : BitVec 32) : Option Instr :=
  if fld w 0 3 = 0 then some (.vpk (fld w 28 4) (fld w 17 5) (fld w 12 5) (fld w 8 4) (fld w 6 2) (fld w 3 3))
  else if fld w 0 3 = 1 then some (.vupk (fld w 28 4) (fld w 17 5) (fld w 12 5) (fld w 8 4) (fld w 6 2) (fld w 3 3))
  else if fld w 0 3 = 2 ∧ fld w 8 4 = 0 then some (.vcvi (fld w 28 4) (fld w 17 5) (fld w 12 5) (fld w 6 2) (fld w 3 3))
  else if fld w 0 3 = 3 ∧ fld w 8 4 = 0 then some (.vcvf (fld w 28 4) (fld w 17 5) (fld w 12 5) (fld w 6 2) (fld w 3 3))
  else if fld w 0 3 = 4 ∧ fld w 6 6 = 0 then some (.vclp (fld w 28 4) (fld w 17 5) (fld w 12 5) (fld w 3 3))
  else none

/-- Words of major opcode 0x28, by their function codes and zero fields (R332). -/
def decodeMajor28 (w : BitVec 32) : Option Instr :=
  if fld w 16 6 = 0 then some (.vwset (fld w 28 4) (fld w 0 16))
  else if fld w 16 6 = 1 then some (.vwin (fld w 28 4) (fld w 0 16))
  else none

/-- Words of major opcode 0x29, by their function codes and zero fields (R342). -/
def decodeMajor29 (w : BitVec 32) : Option Instr :=
  if fld w 0 4 = 0 then some (.vperm (fld w 28 4) (fld w 17 5) (fld w 12 5) (fld w 7 5) (fld w 4 3))
  else none

/-- Words of major opcode 0x2A, by their function codes and zero fields (R347). -/
def decodeMajor2A (w : BitVec 32) : Option Instr :=
  some (.mma (fld w 28 4) (fld w 18 4) (fld w 14 4) (fld w 10 4) (fld w 9 1) (fld w 8 1) (fld w 6 2) (fld w 5 1) (fld w 4 1) (fld w 1 3) (fld w 0 1))

/-- Words of major opcode 0x2B, by their function codes and zero fields (R348). -/
def decodeMajor2B (w : BitVec 32) : Option Instr :=
  if fld w 0 8 = 0 ∧ fld w 9 9 = 0 then some (.mzero (fld w 28 4) (fld w 18 4) (fld w 8 1))
  else none

/-- Words of major opcode 0x2C, by their function codes and zero fields (R326). -/
def decodeMajor2C (w : BitVec 32) : Option Instr :=
  if fld w 0 13 = 0 then some (.dld (fld w 28 4) (fld w 18 4) (fld w 13 5))
  else if fld w 0 13 = 64 then some (.dst (fld w 28 4) (fld w 18 4) (fld w 13 5))
  else if fld w 6 7 = 2 then some (.dmod (fld w 28 4) (fld w 18 4) (fld w 13 5) (fld w 0 6))
  else none

/-- Words of major opcode 0x30, by their function codes and zero fields (R365, R367, R368). -/
def decodeMajor30 (w : BitVec 32) : Option Instr :=
  if fld w 4 1 = 0 ∧ fld w 6 3 = 0 ∧ fld w 13 5 = 0 then some (.cpy (fld w 28 4) (fld w 18 4) (fld w 9 4) (fld w 5 1) (fld w 0 4))
  else if fld w 0 13 = 64 ∧ fld w 18 4 = 0 then some (.cht (fld w 28 4) (fld w 13 5))
  else if fld w 0 13 = 128 ∧ fld w 18 4 = 0 then some (.chs (fld w 28 4) (fld w 13 5))
  else none

/-- Words of major opcode 0x31, by their function codes and zero fields (R371). -/
def decodeMajor31 (w : BitVec 32) : Option Instr :=
  if fld w 0 13 = 0 ∧ fld w 18 4 = 0 then some (.tload (fld w 28 4) (fld w 13 5))
  else if fld w 3 15 = 8 then some (.tbind (fld w 28 4) (fld w 18 4) (fld w 0 3))
  else if fld w 0 22 = 128 then some (.tgo (fld w 28 4))
  else if fld w 0 22 = 192 then some (.tbar (fld w 28 4))
  else none

/-- Words of major opcode 0x32, by their function codes and zero fields (R373, R375). -/
def decodeMajor32 (w : BitVec 32) : Option Instr :=
  if fld w 0 13 = 0 ∧ fld w 18 4 = 0 then some (.kvres (fld w 28 4) (fld w 13 5))
  else if fld w 0 13 = 64 ∧ fld w 18 4 = 0 then some (.kvapp (fld w 28 4) (fld w 13 5))
  else if fld w 0 13 = 128 ∧ fld w 18 4 = 0 then some (.kvret (fld w 28 4) (fld w 13 5))
  else if fld w 0 13 = 192 ∧ fld w 18 4 = 0 then some (.kvfork (fld w 28 4) (fld w 13 5))
  else if fld w 0 13 = 256 ∧ fld w 18 4 = 0 then some (.kvsel (fld w 28 4) (fld w 13 5))
  else if fld w 0 13 = 320 ∧ fld w 18 4 = 0 then some (.kvgat (fld w 28 4) (fld w 13 5))
  else none

/-- Words of major opcode 0x33, by their function codes and zero fields (R378). -/
def decodeMajor33 (w : BitVec 32) : Option Instr :=
  if fld w 0 13 = 0 ∧ fld w 18 4 = 0 then some (.dattn (fld w 28 4) (fld w 13 5))
  else if fld w 0 13 = 1 ∧ fld w 18 4 = 0 then some (.dattnRot (fld w 28 4) (fld w 13 5))
  else if fld w 0 13 = 64 ∧ fld w 18 4 = 0 then some (.dbnd (fld w 28 4) (fld w 13 5))
  else if fld w 0 13 = 128 ∧ fld w 18 4 = 0 then some (.dsum (fld w 28 4) (fld w 13 5))
  else none

/-- Words of major opcode 0x34, by their function codes and zero fields (R380, R381, R382, R383). -/
def decodeMajor34 (w : BitVec 32) : Option Instr :=
  if fld w 0 13 = 0 ∧ fld w 18 4 = 0 then some (.segw (fld w 28 4) (fld w 13 5))
  else if fld w 0 13 = 64 ∧ fld w 18 4 = 0 then some (.segk (fld w 28 4) (fld w 13 5))
  else if fld w 0 13 = 128 ∧ fld w 18 4 = 0 then some (.segr (fld w 28 4) (fld w 13 5))
  else if fld w 0 13 = 192 then some (.segi (fld w 28 4) (fld w 18 4) (fld w 13 5))
  else if fld w 0 13 = 256 ∧ fld w 18 4 = 0 then some (.segt (fld w 28 4) (fld w 13 5))
  else none

/-- Words of major opcode 0x35, by their function codes and zero fields (R384). -/
def decodeMajor35 (w : BitVec 32) : Option Instr :=
  if fld w 0 13 = 0 ∧ fld w 18 4 = 0 then some (.tcenc (fld w 28 4) (fld w 13 5))
  else none

/-- Words of major opcode 0x36, by their function codes and zero fields (R385, R389). -/
def decodeMajor36 (w : BitVec 32) : Option Instr :=
  if fld w 0 13 = 0 ∧ fld w 18 4 = 0 then some (.iorq (fld w 28 4) (fld w 13 5))
  else if fld w 0 13 = 64 ∧ fld w 18 4 = 0 then some (.iocan (fld w 28 4) (fld w 13 5))
  else none

/-- The instruction whose encoding a word has, before the checks of its operand codes: the opcode map of R274. -/
def decodeRaw (w : BitVec 32) : Option Instr :=
  match (fld w 22 6).toNat with
  | 0x01 => decodeMajor01 w
  | 0x02 => decodeMajor02 w
  | 0x03 => decodeMajor03 w
  | 0x04 => decodeMajor04 w
  | 0x05 => decodeMajor05 w
  | 0x06 => decodeMajor06 w
  | 0x07 => decodeMajor07 w
  | 0x08 => decodeMajor08 w
  | 0x09 => decodeMajor09 w
  | 0x0A => decodeMajor0A w
  | 0x0B => decodeMajor0B w
  | 0x0C => decodeMajor0C w
  | 0x0D => decodeMajor0D w
  | 0x0E => decodeMajor0E w
  | 0x0F => decodeMajor0F w
  | 0x10 => decodeMajor10 w
  | 0x11 => decodeMajor11 w
  | 0x12 => decodeMajor12 w
  | 0x13 => decodeMajor13 w
  | 0x14 => decodeMajor14 w
  | 0x15 => decodeMajor15 w
  | 0x16 => decodeMajor16 w
  | 0x17 => decodeMajor17 w
  | 0x18 => decodeMajor18 w
  | 0x19 => decodeMajor19 w
  | 0x1A => decodeMajor1A w
  | 0x1B => decodeMajor1B w
  | 0x1C => decodeMajor1C w
  | 0x20 => decodeMajor20 w
  | 0x21 => decodeMajor21 w
  | 0x22 => decodeMajor22 w
  | 0x23 => decodeMajor23 w
  | 0x24 => decodeMajor24 w
  | 0x25 => decodeMajor25 w
  | 0x26 => decodeMajor26 w
  | 0x27 => decodeMajor27 w
  | 0x28 => decodeMajor28 w
  | 0x29 => decodeMajor29 w
  | 0x2A => decodeMajor2A w
  | 0x2B => decodeMajor2B w
  | 0x2C => decodeMajor2C w
  | 0x30 => decodeMajor30 w
  | 0x31 => decodeMajor31 w
  | 0x32 => decodeMajor32 w
  | 0x33 => decodeMajor33 w
  | 0x34 => decodeMajor34 w
  | 0x35 => decodeMajor35 w
  | 0x36 => decodeMajor36 w
  | _ => none

/-- The instruction a word is, or none where R277 makes it ILLEGAL. STREAM and ABSENT are raised when it issues. -/
def decode (w : BitVec 32) : Option Instr := (decodeRaw w).filter Instr.wf

/-- The little-endian word of four bytes, the lowest address first (R263). -/
def wordOfBytes (b0 b1 b2 b3 : Byte) : BitVec 32 := b3 ++ b2 ++ b1 ++ b0

/-- The instruction in the first four bytes, and the bytes after it. -/
def decodeBytes : List Byte → Option (Instr × List Byte)
  | b0 :: b1 :: b2 :: b3 :: rest => (decode (wordOfBytes b0 b1 b2 b3)).map (·, rest)
  | _ => none

/-- What the decoder reads from an instruction whose bits are w, bit 0 the least significant bit of its first byte. -/
def decodeTableWord (nbits w : Nat) : Option Instr :=
  let v := w % 2 ^ nbits
  (decodeBytes [BitVec.ofNat 8 v, BitVec.ofNat 8 (v / 2 ^ 8), BitVec.ofNat 8 (v / 2 ^ 16), BitVec.ofNat 8 (v / 2 ^ 24)]).map (·.1)

/-- The word of a well-formed instruction, field by field from bit 31 down (R263, R267, R274). Steps of the module that
are no instruction words have no encoding. -/
def encode : Instr → Option (BitVec 32)
  | .add g d a b => some (g ++ 1#6 ++ d ++ a ++ b ++ 0#7)
  | .sub g d a b => some (g ++ 1#6 ++ d ++ a ++ b ++ 1#7)
  | .and g d a b => some (g ++ 1#6 ++ d ++ a ++ b ++ 2#7)
  | .or g d a b => some (g ++ 1#6 ++ d ++ a ++ b ++ 3#7)
  | .xor g d a b => some (g ++ 1#6 ++ d ++ a ++ b ++ 4#7)
  | .andn g d a b => some (g ++ 1#6 ++ d ++ a ++ b ++ 5#7)
  | .shl g d a b => some (g ++ 1#6 ++ d ++ a ++ b ++ 6#7)
  | .shr g d a b => some (g ++ 1#6 ++ d ++ a ++ b ++ 7#7)
  | .sra g d a b => some (g ++ 1#6 ++ d ++ a ++ b ++ 8#7)
  | .rot g d a b => some (g ++ 1#6 ++ d ++ a ++ b ++ 9#7)
  | .mul g d a b => some (g ++ 1#6 ++ d ++ a ++ b ++ 10#7)
  | .mulh g d a b => some (g ++ 1#6 ++ d ++ a ++ b ++ 11#7)
  | .mulhn g d a b => some (g ++ 1#6 ++ d ++ a ++ b ++ 12#7)
  | .min g d a b => some (g ++ 1#6 ++ d ++ a ++ b ++ 13#7)
  | .max g d a b => some (g ++ 1#6 ++ d ++ a ++ b ++ 14#7)
  | .minn g d a b => some (g ++ 1#6 ++ d ++ a ++ b ++ 15#7)
  | .maxn g d a b => some (g ++ 1#6 ++ d ++ a ++ b ++ 16#7)
  | .div g d a b => some (g ++ 1#6 ++ d ++ a ++ b ++ 17#7)
  | .divn g d a b => some (g ++ 1#6 ++ d ++ a ++ b ++ 18#7)
  | .rem g d a b => some (g ++ 1#6 ++ d ++ a ++ b ++ 19#7)
  | .remn g d a b => some (g ++ 1#6 ++ d ++ a ++ b ++ 20#7)
  | .clz g d a => some (g ++ 1#6 ++ d ++ a ++ 21#12)
  | .ctz g d a => some (g ++ 1#6 ++ d ++ a ++ 22#12)
  | .popc g d a => some (g ++ 1#6 ++ d ++ a ++ 23#12)
  | .mtbt g t a => some (g ++ 1#6 ++ 0#3 ++ t ++ a ++ 24#12)
  | .mfbt g d t => some (g ++ 1#6 ++ d ++ 0#3 ++ t ++ 25#12)
  | .addi g d a i => some (g ++ 2#6 ++ d ++ a ++ i)
  | .andi g d a i => some (g ++ 3#6 ++ d ++ a ++ i)
  | .ori g d a i => some (g ++ 4#6 ++ d ++ a ++ i)
  | .xori g d a i => some (g ++ 5#6 ++ d ++ a ++ i)
  | .shli g d a n => some (g ++ 6#6 ++ d ++ a ++ 0#6 ++ n)
  | .shri g d a n => some (g ++ 6#6 ++ d ++ a ++ 16#6 ++ n)
  | .srai g d a n => some (g ++ 6#6 ++ d ++ a ++ 32#6 ++ n)
  | .roti g d a n => some (g ++ 6#6 ++ d ++ a ++ 48#6 ++ n)
  | .sxt g d a w => some (g ++ 7#6 ++ d ++ a ++ 32#6 ++ w)
  | .zxt g d a w => some (g ++ 7#6 ++ d ++ a ++ 0#6 ++ w)
  | .ldi g d i => some (g ++ 8#6 ++ d ++ i)
  | .lsi g d i => some (g ++ 9#6 ++ d ++ 0#1 ++ i)
  | .cmp g p a b c => some (g ++ 10#6 ++ p ++ a ++ b ++ c ++ 0#5)
  | .cmpi g p a c i => some (g ++ 11#6 ++ p ++ a ++ c ++ i)
  | .pand g d a b => some (g ++ 12#6 ++ 0#2 ++ d ++ 0#2 ++ a ++ 0#2 ++ b ++ 0#7)
  | .por g d a b => some (g ++ 12#6 ++ 0#2 ++ d ++ 0#2 ++ a ++ 0#2 ++ b ++ 1#7)
  | .pxor g d a b => some (g ++ 12#6 ++ 0#2 ++ d ++ 0#2 ++ a ++ 0#2 ++ b ++ 2#7)
  | .pandn g d a b => some (g ++ 12#6 ++ 0#2 ++ d ++ 0#2 ++ a ++ 0#2 ++ b ++ 3#7)
  | .pnot g d a => some (g ++ 12#6 ++ 0#2 ++ d ++ 0#2 ++ a ++ 4#12)
  | .pmov g d a => some (g ++ 12#6 ++ 0#2 ++ d ++ 0#2 ++ a ++ 5#12)
  | .pget g d => some (g ++ 12#6 ++ d ++ 6#17)
  | .pput g a => some (g ++ 12#6 ++ 0#5 ++ a ++ 7#12)
  | .pbr g t i => some (g ++ 13#6 ++ t ++ i)
  | .br g t => some (g ++ 14#6 ++ t ++ 0#20)
  | .brl g t => some (g ++ 14#6 ++ t ++ 262144#20)
  | .loop g l a n => some (g ++ 15#6 ++ 0#4 ++ l ++ a ++ n)
  | .knext g => some (g ++ 16#6 ++ 0#22)
  | .exit g => some (g ++ 16#6 ++ 65536#22)
  | .yieldK g s k => some (g ++ 16#6 ++ 4#7 ++ s ++ 0#6 ++ k)
  | .yieldIo g s => some (g ++ 16#6 ++ 5#7 ++ s ++ 0#10)
  | .bpush g a => some (g ++ 17#6 ++ 0#7 ++ a ++ 0#12)
  | .bpop g d => some (g ++ 17#6 ++ 0#2 ++ d ++ 1#17)
  | .ld g d a z i => some (g ++ 18#6 ++ d ++ a ++ z ++ i)
  | .st g d a z i => some (g ++ 19#6 ++ d ++ a ++ z ++ i)
  | .lqr g n a b x => some (g ++ 20#6 ++ 0#3 ++ n ++ a ++ b ++ 0#3 ++ x ++ 0#3)
  | .lqg g n a b e c => some (g ++ 20#6 ++ 0#3 ++ n ++ a ++ b ++ 2#4 ++ e ++ c)
  | .sqw g n a b x => some (g ++ 20#6 ++ 0#4 ++ n ++ a ++ b ++ 2#3 ++ x ++ 0#3)
  | .sqs g n a b e c => some (g ++ 20#6 ++ 0#4 ++ n ++ a ++ b ++ 6#4 ++ e ++ c)
  | .lqz g n => some (g ++ 20#6 ++ 0#3 ++ n ++ 64#17)
  | .gld g a b z => some (g ++ 21#6 ++ 0#5 ++ a ++ b ++ 0#3 ++ z ++ 0#1)
  | .gst g d a b z => some (g ++ 21#6 ++ d ++ a ++ b ++ 2#4 ++ z ++ 0#1)
  | .gpop g d => some (g ++ 21#6 ++ d ++ 32#17)
  | .gcnt g d => some (g ++ 21#6 ++ d ++ 48#17)
  | .amoReturning g a b o t => some (g ++ 22#6 ++ 0#5 ++ a ++ b ++ 1#1 ++ o ++ 0#1 ++ t)
  | .amoXchg g a b t => some (g ++ 22#6 ++ 0#5 ++ a ++ b ++ 28#5 ++ t)
  | .amoCas g d a b t => some (g ++ 22#6 ++ d ++ a ++ b ++ 30#5 ++ t)
  | .amoReduction g a b o t => some (g ++ 22#6 ++ 0#5 ++ a ++ b ++ 0#1 ++ o ++ 0#1 ++ t)
  | .amoF32Reduction g a b o => some (g ++ 22#6 ++ 0#5 ++ a ++ b ++ 0#1 ++ o ++ 4#3)
  | .fenceCore g => some (g ++ 23#6 ++ 0#22)
  | .fenceCluster g => some (g ++ 23#6 ++ 65536#22)
  | .fenceDie g => some (g ++ 23#6 ++ 131072#22)
  | .fenceModule g => some (g ++ 23#6 ++ 196608#22)
  | .fenceX g m => some (g ++ 23#6 ++ 1024#14 ++ m)
  | .kwait g s k => some (g ++ 24#6 ++ 0#4 ++ s ++ k ++ 0#9)
  | .ktest g s k p => some (g ++ 24#6 ++ 0#4 ++ s ++ k ++ 8#6 ++ p)
  | .kget g s k => some (g ++ 24#6 ++ 0#4 ++ s ++ k ++ 128#9)
  | .kadd g s k r c => some (g ++ 24#6 ++ 0#4 ++ s ++ k ++ 3#3 ++ r ++ 0#2 ++ c)
  | .kset g s k r c => some (g ++ 24#6 ++ 0#4 ++ s ++ k ++ 4#3 ++ r ++ 0#2 ++ c)
  | .ewait g s e => some (g ++ 25#6 ++ 0#4 ++ s ++ 0#1 ++ e ++ 0#9)
  | .eseq g s e => some (g ++ 25#6 ++ 0#4 ++ s ++ 0#1 ++ e ++ 64#9)
  | .qwait g s q => some (g ++ 25#6 ++ 0#4 ++ s ++ q ++ 128#9)
  | .rsr g s r => some (g ++ 26#6 ++ s ++ r ++ 0#5)
  | .wsr g s r => some (g ++ 26#6 ++ s ++ r ++ 1#5)
  | .xsr g s r => some (g ++ 26#6 ++ s ++ r ++ 2#5)
  | .nop g => some (g ++ 27#6 ++ 0#22)
  | .trap g n => some (g ++ 27#6 ++ 1#6 ++ n)
  | .brk g n => some (g ++ 27#6 ++ 2#6 ++ n)
  | .csync g m => some (g ++ 27#6 ++ 3#6 ++ m)
  | .csendS g a p => some (g ++ 28#6 ++ 0#5 ++ a ++ 0#9 ++ p)
  | .crecvS g d p => some (g ++ 28#6 ++ d ++ 8#14 ++ p)
  | .csendRow g a p => some (g ++ 28#6 ++ 0#5 ++ a ++ 2#9 ++ p)
  | .crecvRow g a p => some (g ++ 28#6 ++ 0#5 ++ a ++ 10#9 ++ p)
  | .vadd g d a b m => some (g ++ 32#6 ++ d ++ a ++ b ++ m ++ 0#4)
  | .vsub g d a b m => some (g ++ 32#6 ++ d ++ a ++ b ++ m ++ 1#4)
  | .vmul g d a b m => some (g ++ 32#6 ++ d ++ a ++ b ++ m ++ 2#4)
  | .vfma g d a b m => some (g ++ 32#6 ++ d ++ a ++ b ++ m ++ 3#4)
  | .vfms g d a b m => some (g ++ 32#6 ++ d ++ a ++ b ++ m ++ 4#4)
  | .vmin g d a b m => some (g ++ 32#6 ++ d ++ a ++ b ++ m ++ 5#4)
  | .vmax g d a b m => some (g ++ 32#6 ++ d ++ a ++ b ++ m ++ 6#4)
  | .vabs g d a m => some (g ++ 32#6 ++ d ++ a ++ 0#5 ++ m ++ 7#4)
  | .vneg g d a m => some (g ++ 32#6 ++ d ++ a ++ 0#5 ++ m ++ 8#4)
  | .vmov g d a m => some (g ++ 32#6 ++ d ++ a ++ 0#5 ++ m ++ 9#4)
  | .vsel g d a b m => some (g ++ 32#6 ++ d ++ a ++ b ++ m ++ 10#4)
  | .viadd g d a b m => some (g ++ 33#6 ++ d ++ a ++ b ++ m ++ 0#4)
  | .visub g d a b m => some (g ++ 33#6 ++ d ++ a ++ b ++ m ++ 1#4)
  | .vimul g d a b m => some (g ++ 33#6 ++ d ++ a ++ b ++ m ++ 2#4)
  | .vimin g d a b m => some (g ++ 33#6 ++ d ++ a ++ b ++ m ++ 3#4)
  | .vimax g d a b m => some (g ++ 33#6 ++ d ++ a ++ b ++ m ++ 4#4)
  | .vand g d a b m => some (g ++ 33#6 ++ d ++ a ++ b ++ m ++ 5#4)
  | .vor g d a b m => some (g ++ 33#6 ++ d ++ a ++ b ++ m ++ 6#4)
  | .vxor g d a b m => some (g ++ 33#6 ++ d ++ a ++ b ++ m ++ 7#4)
  | .vshl g d a b m => some (g ++ 33#6 ++ d ++ a ++ b ++ m ++ 8#4)
  | .vshr g d a b m => some (g ++ 33#6 ++ d ++ a ++ b ++ m ++ 9#4)
  | .vsra g d a b m => some (g ++ 33#6 ++ d ++ a ++ b ++ m ++ 10#4)
  | .vexp2 g d a m => some (g ++ 34#6 ++ d ++ a ++ 0#5 ++ m ++ 0#4)
  | .vlog2 g d a m => some (g ++ 34#6 ++ d ++ a ++ 0#5 ++ m ++ 1#4)
  | .vrcp g d a m => some (g ++ 34#6 ++ d ++ a ++ 0#5 ++ m ++ 2#4)
  | .vrsqrt g d a m => some (g ++ 34#6 ++ d ++ a ++ 0#5 ++ m ++ 3#4)
  | .vsqrt g d a m => some (g ++ 34#6 ++ d ++ a ++ 0#5 ++ m ++ 4#4)
  | .vtanh g d a m => some (g ++ 34#6 ++ d ++ a ++ 0#5 ++ m ++ 5#4)
  | .vsigm g d a m => some (g ++ 34#6 ++ d ++ a ++ 0#5 ++ m ++ 6#4)
  | .vcmp g d a b m c => some (g ++ 35#6 ++ 0#2 ++ d ++ a ++ b ++ m ++ 0#1 ++ c)
  | .vicmp g d a b m c => some (g ++ 35#6 ++ 0#2 ++ d ++ a ++ b ++ m ++ 1#1 ++ c)
  | .vsum g a s m => some (g ++ 36#6 ++ 0#5 ++ a ++ s ++ m ++ 0#4)
  | .vrmax g a s m => some (g ++ 36#6 ++ 0#5 ++ a ++ s ++ m ++ 1#4)
  | .vrmin g a s m => some (g ++ 36#6 ++ 0#5 ++ a ++ s ++ m ++ 2#4)
  | .vargmax g a s m => some (g ++ 36#6 ++ 0#5 ++ a ++ s ++ m ++ 3#4)
  | .mand g d a b => some (g ++ 37#6 ++ 0#2 ++ d ++ 0#2 ++ a ++ 0#2 ++ b ++ 0#7)
  | .mor g d a b => some (g ++ 37#6 ++ 0#2 ++ d ++ 0#2 ++ a ++ 0#2 ++ b ++ 1#7)
  | .mxor g d a b => some (g ++ 37#6 ++ 0#2 ++ d ++ 0#2 ++ a ++ 0#2 ++ b ++ 2#7)
  | .mnot g d a => some (g ++ 37#6 ++ 0#2 ++ d ++ 0#2 ++ a ++ 3#12)
  | .mset g d => some (g ++ 37#6 ++ 0#2 ++ d ++ 4#17)
  | .mclr g d => some (g ++ 37#6 ++ 0#2 ++ d ++ 5#17)
  | .mfirst g d a m => some (g ++ 37#6 ++ 0#2 ++ d ++ 0#2 ++ a ++ 0#5 ++ m ++ 6#4)
  | .vany g p a m => some (g ++ 37#6 ++ 0#2 ++ p ++ 0#2 ++ a ++ 0#5 ++ m ++ 7#4)
  | .vall g p a m => some (g ++ 37#6 ++ 0#2 ++ p ++ 0#2 ++ a ++ 0#5 ++ m ++ 8#4)
  | .mcnt g s a m => some (g ++ 37#6 ++ s ++ 0#2 ++ a ++ 0#5 ++ m ++ 9#4)
  | .vadds g d a s m => some (g ++ 38#6 ++ d ++ a ++ s ++ m ++ 0#4)
  | .vsubs g d a s m => some (g ++ 38#6 ++ d ++ a ++ s ++ m ++ 1#4)
  | .vmuls g d a s m => some (g ++ 38#6 ++ d ++ a ++ s ++ m ++ 2#4)
  | .vfmas g d a s m => some (g ++ 38#6 ++ d ++ a ++ s ++ m ++ 3#4)
  | .vmins g d a s m => some (g ++ 38#6 ++ d ++ a ++ s ++ m ++ 4#4)
  | .vmaxs g d a s m => some (g ++ 38#6 ++ d ++ a ++ s ++ m ++ 5#4)
  | .vbc g d s m => some (g ++ 38#6 ++ d ++ 0#5 ++ s ++ m ++ 6#4)
  | .vext g d a s => some (g ++ 38#6 ++ d ++ a ++ s ++ 7#7)
  | .vrot g d a s m => some (g ++ 38#6 ++ d ++ a ++ s ++ m ++ 8#4)
  | .vtopk g d a s m => some (g ++ 38#6 ++ 0#2 ++ d ++ a ++ s ++ m ++ 9#4)
  | .vpk g d a f r m => some (g ++ 39#6 ++ d ++ a ++ f ++ r ++ m ++ 0#3)
  | .vupk g d a f p m => some (g ++ 39#6 ++ d ++ a ++ f ++ p ++ m ++ 1#3)
  | .vcvi g d a r m => some (g ++ 39#6 ++ d ++ a ++ 0#4 ++ r ++ m ++ 2#3)
  | .vcvf g d a r m => some (g ++ 39#6 ++ d ++ a ++ 0#4 ++ r ++ m ++ 3#3)
  | .vclp g d a m => some (g ++ 39#6 ++ d ++ a ++ 0#6 ++ m ++ 4#3)
  | .vwset g n => some (g ++ 40#6 ++ 0#6 ++ n)
  | .vwin g n => some (g ++ 40#6 ++ 1#6 ++ n)
  | .vperm g d a b m => some (g ++ 41#6 ++ d ++ a ++ b ++ m ++ 0#4)
  | .mma g c a b x s t u v p i => some (g ++ 42#6 ++ c ++ a ++ b ++ x ++ s ++ t ++ u ++ v ++ p ++ i)
  | .mzero g c s => some (g ++ 43#6 ++ c ++ 0#9 ++ s ++ 0#8)
  | .dld g d s => some (g ++ 44#6 ++ d ++ s ++ 0#13)
  | .dst g d s => some (g ++ 44#6 ++ d ++ s ++ 64#13)
  | .dmod g d s f => some (g ++ 44#6 ++ d ++ s ++ 2#7 ++ f)
  | .cpy g d k p q => some (g ++ 48#6 ++ d ++ 0#5 ++ k ++ 0#3 ++ p ++ 0#1 ++ q)
  | .cht g s => some (g ++ 48#6 ++ 0#4 ++ s ++ 64#13)
  | .chs g s => some (g ++ 48#6 ++ 0#4 ++ s ++ 128#13)
  | .tload g s => some (g ++ 49#6 ++ 0#4 ++ s ++ 0#13)
  | .tbind g d p => some (g ++ 49#6 ++ d ++ 8#15 ++ p)
  | .tgo g => some (g ++ 49#6 ++ 128#22)
  | .tbar g => some (g ++ 49#6 ++ 192#22)
  | .kvres g s => some (g ++ 50#6 ++ 0#4 ++ s ++ 0#13)
  | .kvapp g s => some (g ++ 50#6 ++ 0#4 ++ s ++ 64#13)
  | .kvret g s => some (g ++ 50#6 ++ 0#4 ++ s ++ 128#13)
  | .kvfork g s => some (g ++ 50#6 ++ 0#4 ++ s ++ 192#13)
  | .kvsel g s => some (g ++ 50#6 ++ 0#4 ++ s ++ 256#13)
  | .kvgat g s => some (g ++ 50#6 ++ 0#4 ++ s ++ 320#13)
  | .dattn g s => some (g ++ 51#6 ++ 0#4 ++ s ++ 0#13)
  | .dattnRot g s => some (g ++ 51#6 ++ 0#4 ++ s ++ 1#13)
  | .dbnd g s => some (g ++ 51#6 ++ 0#4 ++ s ++ 64#13)
  | .dsum g s => some (g ++ 51#6 ++ 0#4 ++ s ++ 128#13)
  | .segw g s => some (g ++ 52#6 ++ 0#4 ++ s ++ 0#13)
  | .segk g s => some (g ++ 52#6 ++ 0#4 ++ s ++ 64#13)
  | .segr g s => some (g ++ 52#6 ++ 0#4 ++ s ++ 128#13)
  | .segi g d s => some (g ++ 52#6 ++ d ++ s ++ 192#13)
  | .segt g s => some (g ++ 52#6 ++ 0#4 ++ s ++ 256#13)
  | .tcenc g s => some (g ++ 53#6 ++ 0#4 ++ s ++ 0#13)
  | .iorq g s => some (g ++ 54#6 ++ 0#4 ++ s ++ 0#13)
  | .iocan g s => some (g ++ 54#6 ++ 0#4 ++ s ++ 64#13)
  | _ => none

/-- The guard field of an instruction word (R264); events have none. -/
def Instr.guard : Instr → BitVec 4
  | .add g _ _ _ => g
  | .sub g _ _ _ => g
  | .and g _ _ _ => g
  | .or g _ _ _ => g
  | .xor g _ _ _ => g
  | .andn g _ _ _ => g
  | .shl g _ _ _ => g
  | .shr g _ _ _ => g
  | .sra g _ _ _ => g
  | .rot g _ _ _ => g
  | .mul g _ _ _ => g
  | .mulh g _ _ _ => g
  | .mulhn g _ _ _ => g
  | .min g _ _ _ => g
  | .max g _ _ _ => g
  | .minn g _ _ _ => g
  | .maxn g _ _ _ => g
  | .div g _ _ _ => g
  | .divn g _ _ _ => g
  | .rem g _ _ _ => g
  | .remn g _ _ _ => g
  | .clz g _ _ => g
  | .ctz g _ _ => g
  | .popc g _ _ => g
  | .mtbt g _ _ => g
  | .mfbt g _ _ => g
  | .addi g _ _ _ => g
  | .andi g _ _ _ => g
  | .ori g _ _ _ => g
  | .xori g _ _ _ => g
  | .shli g _ _ _ => g
  | .shri g _ _ _ => g
  | .srai g _ _ _ => g
  | .roti g _ _ _ => g
  | .sxt g _ _ _ => g
  | .zxt g _ _ _ => g
  | .ldi g _ _ => g
  | .lsi g _ _ => g
  | .cmp g _ _ _ _ => g
  | .cmpi g _ _ _ _ => g
  | .pand g _ _ _ => g
  | .por g _ _ _ => g
  | .pxor g _ _ _ => g
  | .pandn g _ _ _ => g
  | .pnot g _ _ => g
  | .pmov g _ _ => g
  | .pget g _ => g
  | .pput g _ => g
  | .pbr g _ _ => g
  | .br g _ => g
  | .brl g _ => g
  | .loop g _ _ _ => g
  | .knext g => g
  | .exit g => g
  | .yieldK g _ _ => g
  | .yieldIo g _ => g
  | .bpush g _ => g
  | .bpop g _ => g
  | .ld g _ _ _ _ => g
  | .st g _ _ _ _ => g
  | .lqr g _ _ _ _ => g
  | .lqg g _ _ _ _ _ => g
  | .sqw g _ _ _ _ => g
  | .sqs g _ _ _ _ _ => g
  | .lqz g _ => g
  | .gld g _ _ _ => g
  | .gst g _ _ _ _ => g
  | .gpop g _ => g
  | .gcnt g _ => g
  | .amoReturning g _ _ _ _ => g
  | .amoXchg g _ _ _ => g
  | .amoCas g _ _ _ _ => g
  | .amoReduction g _ _ _ _ => g
  | .amoF32Reduction g _ _ _ => g
  | .fenceCore g => g
  | .fenceCluster g => g
  | .fenceDie g => g
  | .fenceModule g => g
  | .fenceX g _ => g
  | .kwait g _ _ => g
  | .ktest g _ _ _ => g
  | .kget g _ _ => g
  | .kadd g _ _ _ _ => g
  | .kset g _ _ _ _ => g
  | .ewait g _ _ => g
  | .eseq g _ _ => g
  | .qwait g _ _ => g
  | .rsr g _ _ => g
  | .wsr g _ _ => g
  | .xsr g _ _ => g
  | .nop g => g
  | .trap g _ => g
  | .brk g _ => g
  | .csync g _ => g
  | .csendS g _ _ => g
  | .crecvS g _ _ => g
  | .csendRow g _ _ => g
  | .crecvRow g _ _ => g
  | .vadd g _ _ _ _ => g
  | .vsub g _ _ _ _ => g
  | .vmul g _ _ _ _ => g
  | .vfma g _ _ _ _ => g
  | .vfms g _ _ _ _ => g
  | .vmin g _ _ _ _ => g
  | .vmax g _ _ _ _ => g
  | .vabs g _ _ _ => g
  | .vneg g _ _ _ => g
  | .vmov g _ _ _ => g
  | .vsel g _ _ _ _ => g
  | .viadd g _ _ _ _ => g
  | .visub g _ _ _ _ => g
  | .vimul g _ _ _ _ => g
  | .vimin g _ _ _ _ => g
  | .vimax g _ _ _ _ => g
  | .vand g _ _ _ _ => g
  | .vor g _ _ _ _ => g
  | .vxor g _ _ _ _ => g
  | .vshl g _ _ _ _ => g
  | .vshr g _ _ _ _ => g
  | .vsra g _ _ _ _ => g
  | .vexp2 g _ _ _ => g
  | .vlog2 g _ _ _ => g
  | .vrcp g _ _ _ => g
  | .vrsqrt g _ _ _ => g
  | .vsqrt g _ _ _ => g
  | .vtanh g _ _ _ => g
  | .vsigm g _ _ _ => g
  | .vcmp g _ _ _ _ _ => g
  | .vicmp g _ _ _ _ _ => g
  | .vsum g _ _ _ => g
  | .vrmax g _ _ _ => g
  | .vrmin g _ _ _ => g
  | .vargmax g _ _ _ => g
  | .mand g _ _ _ => g
  | .mor g _ _ _ => g
  | .mxor g _ _ _ => g
  | .mnot g _ _ => g
  | .mset g _ => g
  | .mclr g _ => g
  | .mfirst g _ _ _ => g
  | .vany g _ _ _ => g
  | .vall g _ _ _ => g
  | .mcnt g _ _ _ => g
  | .vadds g _ _ _ _ => g
  | .vsubs g _ _ _ _ => g
  | .vmuls g _ _ _ _ => g
  | .vfmas g _ _ _ _ => g
  | .vmins g _ _ _ _ => g
  | .vmaxs g _ _ _ _ => g
  | .vbc g _ _ _ => g
  | .vext g _ _ _ => g
  | .vrot g _ _ _ _ => g
  | .vtopk g _ _ _ _ => g
  | .vpk g _ _ _ _ _ => g
  | .vupk g _ _ _ _ _ => g
  | .vcvi g _ _ _ _ => g
  | .vcvf g _ _ _ _ => g
  | .vclp g _ _ _ => g
  | .vwset g _ => g
  | .vwin g _ => g
  | .vperm g _ _ _ _ => g
  | .mma g _ _ _ _ _ _ _ _ _ _ => g
  | .mzero g _ _ => g
  | .dld g _ _ => g
  | .dst g _ _ => g
  | .dmod g _ _ _ => g
  | .cpy g _ _ _ _ => g
  | .cht g _ => g
  | .chs g _ => g
  | .tload g _ => g
  | .tbind g _ _ => g
  | .tgo g => g
  | .tbar g => g
  | .kvres g _ => g
  | .kvapp g _ => g
  | .kvret g _ => g
  | .kvfork g _ => g
  | .kvsel g _ => g
  | .kvgat g _ => g
  | .dattn g _ => g
  | .dattnRot g _ => g
  | .dbnd g _ => g
  | .dsum g _ => g
  | .segw g _ => g
  | .segk g _ => g
  | .segr g _ => g
  | .segi g _ _ => g
  | .segt g _ => g
  | .tcenc g _ => g
  | .iorq g _ => g
  | .iocan g _ => g
  | _ => 0

/-- The major opcode of an instruction word (R274); 0 for events. -/
def Instr.major : Instr → Nat
  | .add .. => 0x01
  | .sub .. => 0x01
  | .and .. => 0x01
  | .or .. => 0x01
  | .xor .. => 0x01
  | .andn .. => 0x01
  | .shl .. => 0x01
  | .shr .. => 0x01
  | .sra .. => 0x01
  | .rot .. => 0x01
  | .mul .. => 0x01
  | .mulh .. => 0x01
  | .mulhn .. => 0x01
  | .min .. => 0x01
  | .max .. => 0x01
  | .minn .. => 0x01
  | .maxn .. => 0x01
  | .div .. => 0x01
  | .divn .. => 0x01
  | .rem .. => 0x01
  | .remn .. => 0x01
  | .clz .. => 0x01
  | .ctz .. => 0x01
  | .popc .. => 0x01
  | .mtbt .. => 0x01
  | .mfbt .. => 0x01
  | .addi .. => 0x02
  | .andi .. => 0x03
  | .ori .. => 0x04
  | .xori .. => 0x05
  | .shli .. => 0x06
  | .shri .. => 0x06
  | .srai .. => 0x06
  | .roti .. => 0x06
  | .sxt .. => 0x07
  | .zxt .. => 0x07
  | .ldi .. => 0x08
  | .lsi .. => 0x09
  | .cmp .. => 0x0A
  | .cmpi .. => 0x0B
  | .pand .. => 0x0C
  | .por .. => 0x0C
  | .pxor .. => 0x0C
  | .pandn .. => 0x0C
  | .pnot .. => 0x0C
  | .pmov .. => 0x0C
  | .pget .. => 0x0C
  | .pput .. => 0x0C
  | .pbr .. => 0x0D
  | .br .. => 0x0E
  | .brl .. => 0x0E
  | .loop .. => 0x0F
  | .knext .. => 0x10
  | .exit .. => 0x10
  | .yieldK .. => 0x10
  | .yieldIo .. => 0x10
  | .bpush .. => 0x11
  | .bpop .. => 0x11
  | .ld .. => 0x12
  | .st .. => 0x13
  | .lqr .. => 0x14
  | .lqg .. => 0x14
  | .sqw .. => 0x14
  | .sqs .. => 0x14
  | .lqz .. => 0x14
  | .gld .. => 0x15
  | .gst .. => 0x15
  | .gpop .. => 0x15
  | .gcnt .. => 0x15
  | .amoReturning .. => 0x16
  | .amoXchg .. => 0x16
  | .amoCas .. => 0x16
  | .amoReduction .. => 0x16
  | .amoF32Reduction .. => 0x16
  | .fenceCore .. => 0x17
  | .fenceCluster .. => 0x17
  | .fenceDie .. => 0x17
  | .fenceModule .. => 0x17
  | .fenceX .. => 0x17
  | .kwait .. => 0x18
  | .ktest .. => 0x18
  | .kget .. => 0x18
  | .kadd .. => 0x18
  | .kset .. => 0x18
  | .ewait .. => 0x19
  | .eseq .. => 0x19
  | .qwait .. => 0x19
  | .rsr .. => 0x1A
  | .wsr .. => 0x1A
  | .xsr .. => 0x1A
  | .nop .. => 0x1B
  | .trap .. => 0x1B
  | .brk .. => 0x1B
  | .csync .. => 0x1B
  | .csendS .. => 0x1C
  | .crecvS .. => 0x1C
  | .csendRow .. => 0x1C
  | .crecvRow .. => 0x1C
  | .vadd .. => 0x20
  | .vsub .. => 0x20
  | .vmul .. => 0x20
  | .vfma .. => 0x20
  | .vfms .. => 0x20
  | .vmin .. => 0x20
  | .vmax .. => 0x20
  | .vabs .. => 0x20
  | .vneg .. => 0x20
  | .vmov .. => 0x20
  | .vsel .. => 0x20
  | .viadd .. => 0x21
  | .visub .. => 0x21
  | .vimul .. => 0x21
  | .vimin .. => 0x21
  | .vimax .. => 0x21
  | .vand .. => 0x21
  | .vor .. => 0x21
  | .vxor .. => 0x21
  | .vshl .. => 0x21
  | .vshr .. => 0x21
  | .vsra .. => 0x21
  | .vexp2 .. => 0x22
  | .vlog2 .. => 0x22
  | .vrcp .. => 0x22
  | .vrsqrt .. => 0x22
  | .vsqrt .. => 0x22
  | .vtanh .. => 0x22
  | .vsigm .. => 0x22
  | .vcmp .. => 0x23
  | .vicmp .. => 0x23
  | .vsum .. => 0x24
  | .vrmax .. => 0x24
  | .vrmin .. => 0x24
  | .vargmax .. => 0x24
  | .mand .. => 0x25
  | .mor .. => 0x25
  | .mxor .. => 0x25
  | .mnot .. => 0x25
  | .mset .. => 0x25
  | .mclr .. => 0x25
  | .mfirst .. => 0x25
  | .vany .. => 0x25
  | .vall .. => 0x25
  | .mcnt .. => 0x25
  | .vadds .. => 0x26
  | .vsubs .. => 0x26
  | .vmuls .. => 0x26
  | .vfmas .. => 0x26
  | .vmins .. => 0x26
  | .vmaxs .. => 0x26
  | .vbc .. => 0x26
  | .vext .. => 0x26
  | .vrot .. => 0x26
  | .vtopk .. => 0x26
  | .vpk .. => 0x27
  | .vupk .. => 0x27
  | .vcvi .. => 0x27
  | .vcvf .. => 0x27
  | .vclp .. => 0x27
  | .vwset .. => 0x28
  | .vwin .. => 0x28
  | .vperm .. => 0x29
  | .mma .. => 0x2A
  | .mzero .. => 0x2B
  | .dld .. => 0x2C
  | .dst .. => 0x2C
  | .dmod .. => 0x2C
  | .cpy .. => 0x30
  | .cht .. => 0x30
  | .chs .. => 0x30
  | .tload .. => 0x31
  | .tbind .. => 0x31
  | .tgo .. => 0x31
  | .tbar .. => 0x31
  | .kvres .. => 0x32
  | .kvapp .. => 0x32
  | .kvret .. => 0x32
  | .kvfork .. => 0x32
  | .kvsel .. => 0x32
  | .kvgat .. => 0x32
  | .dattn .. => 0x33
  | .dattnRot .. => 0x33
  | .dbnd .. => 0x33
  | .dsum .. => 0x33
  | .segw .. => 0x34
  | .segk .. => 0x34
  | .segr .. => 0x34
  | .segi .. => 0x34
  | .segt .. => 0x34
  | .tcenc .. => 0x35
  | .iorq .. => 0x36
  | .iocan .. => 0x36
  | _ => 0

/-- Whether a step is an instruction word (and not an event of the module). -/
def Instr.isWord (i : Instr) : Bool := (encode i).isSome

end Sys2Proof
end

