-- ==== Sys2Proof/Machine/CoreState.lean ====
section
/-! DEFINITION. What a sequencer, a core and its queues and engine queues hold (R106 to R128). -/

namespace Sys2Proof.Machine

/-- The 25 fault codes of R249. -/
inductive FaultCode where
  | illegal | stream | absent | align | addr | loopState | brDelay | queueLive | footprint | determinism
  | scheduleMiss | timing | xlateMiss | permission | atomicPermit | security | formatStore | watchdog
  | preemptLimit | trap | brk | eccUncorrectable | ring | engine | descriptor
deriving DecidableEq, Repr

/-- The queues of a core (R108), numbered as qwait codes 0 to 5 and then by direction. -/
inductive QName where
  | lq (n : BitVec 2)
  | sq (n : BitVec 1)
  | sAX | sXA | bAX | bXA
  | reply
deriving DecidableEq, Repr

/-- The state of a queue entry (R109, R152): its data comes at a cycle of CCYC; it awaits a Dome reply under contract;
it is written; it is held because its access faulted at the owner. -/
inductive QState where
  | pending (due : Nat)
  | awaiting (contract : Nat) (req : Nat)
  | written
  | held (req : Nat)
deriving DecidableEq, Repr

/-- A queue entry: scalars and outcomes stand in its low bits. -/
structure QEntry where
  val : Row
  st : QState
deriving DecidableEq, Repr

/-- Where a result goes once its latency has elapsed (R107). A post comes from outside the cluster: it falls due in a cycle of
KEYC, since it goes on through a freeze (R112, R116). -/
inductive Target where
  | sreg (q : Side) (r : Nat)
  | pred (q : Side) (mask : BitVec 8)
  | bt (q : Side) (t : BitVec 2)
  | sys (q : Side) (reg : Nat)
  | row (r : Nat) (mask : Row)
  | lmask (m : Nat)
  | desc (d : Nat) (mask : Rec512)
  | flagSet
  | flagClear
  | bytes (a n : Nat)
  | lanes (e : Nat) (addrs : List Nat)
  | kset (k : Nat) (by_ : Nat)
  | kadd (k : Nat)
  | post (k : Nat)
deriving DecidableEq, Repr

/-- A result on its way: the first cycle of CCYC that reads it, its target and its value. -/
structure Pend where
  due : Nat
  tgt : Target
  val : Row
deriving DecidableEq, Repr

/-- One hardware loop level (R298). -/
structure LoopLevel where
  lc : Word
  ls : BitVec 21
  le : BitVec 21
  active : Bool
deriving DecidableEq, Repr

/-- The sections of a loop record (R85). -/
inductive Section where
  | prologue | kernel | epilogue
deriving DecidableEq, Repr

/-- How a sequencer ended its record (R85). -/
inductive Ended where
  | byExit
  | retired
deriving DecidableEq, Repr

/-- The conditions of explicit waits (R119). -/
inductive WaitCond where
  | qPop (q : QName) (n : Nat)
  | qPush (q : QName)
  | qFree (q : QName) (n : Nat)
  | engineRoom (e : Nat)
  | sideLogRoom
  | counter (k : Nat) (v : Word)
  | engineDone (e : Nat) (v : Word)
  | fence (scope : Nat)
  | fenceX (mask : BitVec 8)
  | segment (ref : Word)
  | csync (mask : BitVec 16)
  | boundary
deriving DecidableEq, Repr

/-- A sequencer: its registers (R106), its place in the record (R85), and what its next issue waits for. -/
structure Seq where
  pc : BitVec 32
  regs : Tab Word
  p : BitVec 8
  bt : Tab (BitVec 21)
  btOld : Option (BitVec 2 × BitVec 21)
  l0 : LoopLevel
  l1 : LoopLevel
  lastLoop : BitVec 1
  slots : Nat
  slotBase : BitVec 32
  target : Option (BitVec 32)
  sect : Section
  iter : Nat
  ended : Option Ended
  group : Nat
  wait : Option WaitCond
  captured : Option (Bool × List Word)
  nextIssue : Nat
deriving DecidableEq, Repr

/-- Who makes an access, for the footprint guard and for job cards (R126, R129). -/
inductive Issuer where
  | seqA | vector | matrix (core : Nat) | copy (core : Nat) | truss (cluster : Nat) | decode (cluster : Nat)
  | walker (cluster : Nat) | encoder (die : Nat) | viaduct (die : Nat) | io (die : Nat)
deriving DecidableEq, Repr

/-- A range of core-store bytes or accumulator rows, ends included (R126). -/
structure Range where
  acc : Bool
  lo : Nat
  hi : Nat
  write : Bool
deriving DecidableEq, Repr

/-- An active footprint: with an end cycle, or until its job removes it (R126). -/
structure Fp where
  issuer : Issuer
  job : Nat
  range : Range
  start : Nat
  last : Option Nat
deriving DecidableEq, Repr

/-- An engine command as its queue accepted it: tag, instruction, scalar operands and snapshots (R110, R327, R364). -/
structure Cmd where
  tag : Word
  ins : Instr
  vals : List Word
  descs : List Rec512
  bfmt : Tab Word
  stamp : Word
  ofRec : Nat
  at_ : Nat
deriving DecidableEq, Repr

/-- The stages of an engine job. -/
inductive JobState where
  | waiting | running | missed (cause : Nat) | faulted
deriving DecidableEq, Repr

/-- A row that has been read and not yet written (R369): the half bytes of the destination before it and up to its end, the
bits it writes (byte address, mask, value) and the flags it sets. -/
structure RowIn where
  first : Nat
  last : Nat
  patches : List (Nat × Byte × Byte)
  flags : Word
deriving DecidableEq, Repr

/-- An input row of a Truss phase that has been read (R247, R160): its port, the cycle in which it enters, the row (none: a
block with a reserved code), and the address of the overflow entry that it still needs. -/
structure TIn where
  port : Nat
  at_ : Nat
  val : Option Row
  wants : Option Nat
deriving DecidableEq, Repr

/-- A job an engine has taken from its queue, or (copy) the chain entry it is at. Cycles are CCYC. Of a copy: the snapshots
and formats it started with, the half bytes that earlier starts completed, the rows on their way, and whether its card is on
the table (R129, R366, R369, R370). Of a phase of the Truss: the input rows read, and the rows written at each output port
(R247). Of a matrix command: the words of its operands that an error struck after it had fetched them, by core and number, as it
read them (R21; log 27). -/
structure Job where
  id : Nat
  eng : Nat
  cmd : Cmd
  st : JobState
  entry : Rec512
  start : Nat
  release : Nat
  released : Bool
  done : Nat
  aux : List Word
  descs : List Rec512 := []
  vals : List Word := []
  base : Nat := 0
  rows : List RowIn := []
  carded : Bool := true
  tin : List TIn := []
  tout : List Nat := []
  hadRead : List (Nat × Nat × Nat) := []
deriving DecidableEq, Repr

/-- One access of the side log (R153): a 64 KiB unit of the page it needs, the access (its request holds VA, operation, size and
data), whether a replay has sent it, whether the page is one of 2 MiB, and the code of the fault it met, 0 of one that joined the
log without being sent. -/
structure SideEntry where
  page : Nat
  req : Nat
  sent : Bool
  big : Bool
  code : Nat := 0
deriving DecidableEq, Repr

/-- A core: stores, descriptors, counters, queues, engine queues and jobs, its two sequencers, its record, the KEYC of the oldest
standing pre-emption request, the ready records that ask for it with theirs (R99), the KEYC at which a teardown told it to stop
(R76, R100), and the 64-bit
words of its stores with an uncorrectable error: core-store words by address / 8, accumulator words from 2^18 on (R21). -/
structure Core where
  store : Tab Byte
  acc : Tab Row
  bfmt : Tab Word
  desc : Tab Rec512
  k : Tab Word
  issued : Tab Word
  completed : Tab Word
  chainHead : Word
  chainTail : Word
  queues : Tab (List QEntry)
  vwb : Word
  vtype : Word
  vrm : Word
  vclb : Word
  vflags : Word
  mstamp : Word
  masks : Tab Mask
  stage : Word
  detmode : Word
  sideLog : List SideEntry
  fps : List Fp
  engQ : Tab (List Cmd)
  jobs : List Job
  nextJob : Nat
  engHold : List Nat
  matrixFree : Nat
  copyFree : Nat
  engFree : Tab Nat
  trussPorts : Tab Rec512
  trussImage : List Byte
  pend : List Pend
  a : Seq
  x : Seq
  running : Option Nat
  stopAt : Option Nat
  unresumable : Bool
  preempt : Option Nat
  asks : List (Nat × Nat)
  stopReq : Option Nat
  saving : Option Nat
  lastDone : Nat
  bad : List Nat
deriving DecidableEq, Repr

/-- A loop level as it stands when no loop is active. -/
def LoopLevel.init : LoopLevel := { lc := 0, ls := 0, le := 0, active := false }

/-- A sequencer at the reset of its die: every register zero (log 2). -/
def Seq.init : Seq :=
  { pc := 0, regs := [], p := 0, bt := [], btOld := none, l0 := LoopLevel.init, l1 := LoopLevel.init, lastLoop := 0,
    slots := 0, slotBase := 0, target := none, sect := .kernel, iter := 0, ended := none, group := 0, wait := none,
    captured := none, nextIssue := 0 }

/-- A core at the reset of its die: stores zero (R23), VCLB at FP32's maximum (R197), BFMT at RAW (R132). -/
def Core.init : Core :=
  { store := [], acc := [], bfmt := [], desc := [], k := [], issued := [], completed := [], chainHead := 0,
    chainTail := 0, queues := [], vwb := 0, vtype := 0, vrm := 0, vclb := 0x7F7FFFFF, vflags := 0, mstamp := 0,
    masks := [], stage := 0, detmode := 0, sideLog := [], fps := [], engQ := [], jobs := [], nextJob := 0,
    engHold := [], matrixFree := 0, copyFree := 0, engFree := [], trussPorts := [], trussImage := [], pend := [], a := Seq.init,
    x := Seq.init, running := none, stopAt := none, unresumable := false, preempt := none, asks := [], stopReq := none,
    saving := none, lastDone := 0, bad := [] }

end Sys2Proof.Machine
end

