-- ==== Sys2Proof/Machine/ModState.lean ====
section
/-! DEFINITION. What a cluster, a die and the module hold beyond the cores: clocks and freezes, records and launches. -/

namespace Sys2Proof.Machine

/-- An outstanding cause of a freeze (R114): its code, the core and stream behind it, what it waits for (a request for
DOMELATE, a queue's number for the queue causes, the core of the checker for FPFULL), and for served-in-order causes the frozen
cycles it still lasts (for a queue cause, the place of the entry from the head; for FPFULL, the engine). -/
structure Freeze where
  cause : Nat
  core : Nat
  side : Option Side
  req : Option Nat
  left : Nat
deriving DecidableEq, Repr

/-- A cluster message in flight (R321): sender and receiver cores, arrival cycle, kind and contents. -/
structure CMsg where
  src : Nat
  dst : Nat
  arrives : Nat
  isRow : Bool
  val : Row
  here : Bool
deriving DecidableEq, Repr

/-- A use of something that serves so much a cycle (R115, R137): the cycle of CCYC, the bank, link, port or slice, its place
in the order of R115, class and core, and its amount: one access, or the bytes of a slice; the engine job that makes it; and
whether no contract times it, so that it freezes nothing (R138). -/
structure Use where
  at_ : Nat
  key : Nat
  prio : Nat
  size : Nat := 1
  job : Option Nat := none
  soft : Bool := false
deriving DecidableEq, Repr

/-- A cluster: its clock (R113), freezes (R114), bank and link uses of the cycle (R115), messages and anchor groups. -/
structure Cluster where
  ccyc : Nat
  causes : List Freeze
  frozenFor : Nat
  uses : List Use
  msgs : List CMsg
  nextGroup : Nat
  trussQ : List Nat
  trussFree : Nat
  decodeFree : Nat
deriving DecidableEq, Repr

/-- The states of a record (R103). -/
inductive RecState where
  | ready | running | saving | waiting | retiring | retired | cancelled | killed
deriving DecidableEq, Repr

/-- A record made ready by a launch or a batch (R89, R95): its loop record, its place, what it resumes with, whether a fault keeps
it from running, and whether only the kills are accepted for it while it does not run (R253). -/
structure Rec where
  launch : Nat
  index : Nat
  raw : Rec512
  core : Nat
  state : RecState
  deadline : Nat
  batch : Option Nat
  tag : Nat
  turn : Word
  trip : Nat
  iters : Nat
  fresh : Bool
  late : Bool
  cond : Option WaitCond
  ioDone : Word
  cancel : Bool
  faulted : Bool
  killOnly : Bool := false
deriving DecidableEq, Repr

/-- What a Dome request does (R311, R314): a read with its sign extension, a write, or an atomic of R313 by its RET,
operation and type codes. -/
inductive ReqOp where
  | read (size : Nat) (sign : Bool)
  | write (size : Nat)
  | amo (ret : Bool) (op : Nat) (ty : Nat)
deriving DecidableEq, Repr

/-- Where a request is: on its way to its owner, held there for its clock (R170), forwarded to the die of an aperture
page at a physical address (R145), faulted in the permission class and kept for the side log (R151). -/
inductive ReqAt where
  | sent
  | clockHeld
  | forwarded (die : Nat) (pa : Nat)
  | logged
deriving DecidableEq, Repr

/-- An ordinary access in flight (R161): its issuing core and record, owner, address, operand and vector clock. -/
structure Req where
  id : Nat
  src : Nat
  owner : Nat
  core : Nat
  ofRec : Option Nat
  op : ReqOp
  va : Word
  data : Word
  cmp : Word
  clock : Tab Nat
  at_ : ReqAt
deriving DecidableEq, Repr

/-- A Dome reply on its way from the die that performed its access to its core (R138), with the owner's clock (R170). -/
structure Reply where
  req : Nat
  src : Nat
  core : Nat
  val : Word
  clock : Tab Nat
deriving DecidableEq, Repr

/-- A clock beacon in flight (R170). -/
structure Beacon where
  src : Nat
  dst : Nat
  count : Nat
deriving DecidableEq, Repr

/-- A fault record (R254) from its raise to its resolution: where it is delivered, and what it stopped or holds. -/
structure FaultRec where
  raw : Rec512
  die : Nat
  ofRec : Option Nat
  core : Nat
  eng : Option Nat
  job : Option Nat
  page : Nat
  raised : Nat
deriving DecidableEq, Repr

/-- A range of Dome virtual addresses on an active job card, with the KEYC at which the card was put on the table (R129). -/
structure Card where
  issuer : Issuer
  job : Nat
  lo : Nat
  hi : Nat
  write : Bool
  since : Nat := 0
deriving DecidableEq, Repr

/-- A beat of the weight lane (R33): kind 1 header, 2 payload, with its segment's tag and turn, and whether it was on its way
when DROP was last set (R52, log 41); idle beats are not listed. -/
structure Beat where
  kind : Nat
  tag : Nat
  turn : Nat
  data : BitVec 16384
  old : Bool := false
deriving DecidableEq, Repr

/-- A segment in a pier (R34, R37, R39, R42): its header's beat number and KEYC, its length in beats with the header,
beats written and sent, whether its header passed and it was dropped by repair, batches and records that retain it,
whether it was in the ring when DROP was last set (R52, log 41), and whether the next header came before its last payload beat,
so that the beats it lacks are lost (R32, R52). -/
structure Inst where
  tag : Nat
  turn : Nat
  first : Nat
  beats : Nat
  written : Nat
  sent : Nat
  headerAt : Nat
  pcrc : Nat
  good : Bool
  reinj : Bool
  dropped : Bool
  batches : Nat
  kept : List Nat
  old : Bool := false
  cut : Bool := false
deriving DecidableEq, Repr

/-- A control beat on its way round the weight lanes (R18, R48, R56); back is what a module learns when the tokens have
returned to an origin in another module: the die whose link emptied the range, if one did (log 29). -/
inductive Token where
  | keyc (v : Nat)
  | version (lo hi : Nat) (emptied : Option Nat)
  | commit (ver : Nat)
  | ring (v : Nat)
  | back (emptied : Option Nat)
deriving DecidableEq, Repr

/-- A segment to be inserted by its home (R53, R382): reference, length in payload beats, format, where its payload is, how many
of its payload beats are staged, the beats sent (the header is beat 0), whether it comes from the host's image, the segi behind it, and whether
it follows no segment. -/
structure Insertion where
  tag : Nat
  turn : Nat
  beats : Nat
  fmt : Nat
  va : Nat
  staged : Nat
  sent : Nat
  far : Bool
  byCore : Option (Nat × Nat)
  first : Bool
deriving DecidableEq, Repr

/-- A die's Viaduct engine: expectation (R32), pier counts in beats (R34, R42), segments held, arriving beats and control
beats, hold (R43 to R45), locator updates of the cycle (R37), the segment it is sending, insertions, ring regions (R58),
failure counts (R12, R49; retries by link), the next beat slot of bridge-in (R13), and whether VDROP names a range that repair
has broken (R52). -/
structure Ring where
  expect : Option (Nat × Nat)
  written : Nat
  sent : Nat
  insts : List Inst
  crc : Nat
  link : List (Nat × Beat)
  tokens : List (Nat × Token)
  holdIn : List (Nat × Nat)
  held : Bool
  slotAt : Nat
  holdRun : Nat
  limited : Bool
  lastSent : Option (Nat × Nat × Nat)
  inserts : List Insertion
  locPend : List (Nat × Nat)
  mapped : Bool
  pierPa : Nat
  segtPa : Nat
  locPa : Nat
  staging : Nat
  stagedBytes : Nat
  usedBytes : Nat
  retries : Tab Nat
  windowAt : Nat
  beatAt : Nat
  heardAt : Nat
  fecDrops : Nat
  bridgeAt : Nat
  holed : Bool
deriving DecidableEq, Repr

/-- The Viaduct engine at reset. -/
def Ring.init : Ring :=
  { expect := none, written := 0, sent := 0, insts := [], crc := 0, link := [], tokens := [], holdIn := [], held := false,
    slotAt := 0, holdRun := 0, limited := false, lastSent := none, inserts := [], locPend := [], mapped := false,
    pierPa := 0, segtPa := 0, locPa := 0, staging := 0, stagedBytes := 0, usedBytes := 0, retries := [], windowAt := 0,
    beatAt := 0, heardAt := 0, fecDrops := 0, bridgeAt := 0, holed := false }

/-- What training left of a link (R10, R24, R56): latency, the far end's version range, UCIe lanes replaced. -/
structure LinkInfo where
  lat : Nat
  vmin : Nat
  vmax : Nat
  lanes : Nat
deriving DecidableEq, Repr

/-- A page that Mepen moves to its owner's Dome (R401): the key of its TLB entry, the first physical page that it moves to, and
the bytes moved. -/
structure Migration where
  key : Nat
  ppn : Nat
  moved : Nat
deriving DecidableEq, Repr

/-- A die: clock, numbers, register window, trained links by link number (a failed one at its number + 16), the KEYC of the
next temperature measurement and the warnings sent to the lantern core (R20), TLB and the
rewrites of its entries that wait (R150), vector clock, Dome, physical pages Mepen has taken (R58, R91), lantern memory and fault queue, the 64-bit words of its Dome with an
uncorrectable error, by address / 8 (R21), the IOID and LEN of the requests that were cancelled after they were sent and that
the host has still to answer (R389), and the bytes that its slices give in this cycle to accesses that no contract times
(R136, R137); and what Mepen's handler keeps (R401): the page and the KEYC of each permission-class fault of the last 2^20 cycles,
the pages that it moves, and by TLB key and core, or for every core, the KEYC up to which faults are mended. -/
structure Die where
  keyc : Nat
  rdie : BitVec 10
  modPos : BitVec 6
  win : Tab Word
  links : Tab LinkInfo
  thermAt : Nat
  warnings : Nat
  tlb : Tab Word
  rewrites : List (Nat × Word)
  reserved : List (Nat × Nat)
  vc : Tab Nat
  recvd : Tab Nat
  beaconed : Nat
  dome : Tab Byte
  lantern : Tab Byte
  cards : List Card
  encQ : List Nat
  encFree : Nat
  ioReqs : Nat
  ioRsps : Nat
  ioPolled : Nat
  ring : Ring
  heldFaults : List FaultRec
  openFaults : List FaultRec
  nextFseq : Nat
  bad : List Nat
  slices : Tab Nat
  ioLate : List (Nat × Nat) := []
  perms : List (Nat × Nat) := []
  migrations : List Migration := []
  mended : List (Nat × Option Nat × Nat) := []
deriving DecidableEq, Repr

/-- A cluster at reset. -/
def Cluster.init : Cluster :=
  { ccyc := 0, causes := [], frozenFor := 0, uses := [], msgs := [], nextGroup := 1, trussQ := [],
    trussFree := 0, decodeFree := 0 }

/-- A die when compute-die reset is released, but for its numbers (log 2). -/
def Die.init : Die :=
  { keyc := 0, rdie := 0, modPos := 0, win := [], links := [], thermAt := 1024, warnings := 0, tlb := [], rewrites := [], reserved := [], vc := [], recvd := [], beaconed := 0, dome := [],
    lantern := [], cards := [], encQ := [], encFree := 0, ioReqs := 0, ioRsps := 0, ioPolled := 0, ring := Ring.init, heldFaults := [], openFaults := [], nextFseq := 0, bad := [], slices := [] }

end Sys2Proof.Machine
end

