-- ==== Sys2Proof/Machine/BootState.lean ====
section
/-! DEFINITION. What boot fixes (Rom), and what the lead lantern and the tile schedulers keep of commands, images,
launches, slots and batches. -/

namespace Sys2Proof.Machine

/-- What straps, fuses and the boot ROMs fix: whether compute-die reset is held, which dies have finished SRAM
initialisation, the images received (R25, R27), FAILD and UPD (R63), MEAS (R78), verified image headers (R77, R79) and the
fused key hash and seeds (R77, R78). -/
structure Rom where
  variant : Variant
  held : Bool
  sram : List Nat
  images : Tab (List Byte)
  failed : List Nat
  up : List Nat
  meas : Tab Rec512
  header : Tab Rec512
  keyHash : BitVec 256
  seeds : Tab (BitVec 256)
deriving DecidableEq, Repr

/-- A part of a section within one 64 KiB page of the Dome, or within a core store (R285): where it is, and its range there. -/
structure Placed where
  core : Bool
  place : Nat
  page : Nat
  lo : Nat
  hi : Nat
deriving DecidableEq, Repr

/-- A launch (R72, R89): queue, CID, start order, image and binding, deadline in ring time, priority, DET, argument, world,
NOCQ, slot-table addresses by die, and how it stands: active, being torn down for a fault or not, the dies whose turn
marker has freed its slots, the fault it reports, lateness, whether a slot has been filled (R76, R104), and where its sections
were placed (R285). -/
structure Launch where
  queue : Nat
  cid : Nat
  order : Nat
  image : Nat
  binding : List Nat
  deadline : Nat
  prio : Nat
  det : Bool
  arg : Word
  secure : Bool
  nocq : Bool
  slotVa : Tab Word
  active : Bool
  tearing : Option Nat
  freed : List Nat
  fault : Option (Nat × Nat)
  late : Bool
  filled : Bool
  placed : List Placed := []
deriving DecidableEq, Repr

/-- A command the lead lantern has taken (R64, R67): queue, packet, start order, whether a later SLOT_WRITE overwrites it, the
start order of the launch that it names (R72), and of the command that it depends on, as it was taken, with that command's final
status once it has one (R67), and for a SIGNAL the core it posts to and the cycle of KEYC from which the post is visible (R72). -/
structure Busy where
  queue : Nat
  packet : Rec512
  order : Nat
  super : Bool
  target : Option Nat := none
  dep : Option (Nat × Option Nat) := none
  seen : Option (Nat × Nat) := none
deriving DecidableEq, Repr

/-- One of the last 4,096 commands of a queue (R67): CID, OPC, start order and final status, none while it runs. -/
structure Past where
  cid : Nat
  opc : Nat
  order : Nat
  status : Option Nat
deriving DecidableEq, Repr

/-- A completion record that waits for room in the completion queue (R64, R68). -/
structure Completion where
  status : Nat
  opc : Nat
  sq : Nat
  late : Bool
  super : Bool
  cid : Nat
  result0 : Nat
  result1 : Nat
deriving DecidableEq, Repr

/-- An image in the lead lantern's store: its bytes, world and binding in force (R72, R83, R284). -/
structure Image where
  bytes : Tab Byte
  len : Nat
  secure : Bool
  binding : List Nat
deriving DecidableEq, Repr

/-- The scheduler's own copy of a slot's read-only fields (R92), and the tag and turn of the instance that the slot has missed at
its batch's retirement and does not compete for (R97). -/
structure SlotCopy where
  stage : Nat
  ovr : Bool
  missed : Bool
  state : Nat
  seqid : Word
  skip : Option (Nat × Nat) := none
deriving DecidableEq, Repr

/-- A dispatched batch (R95 to R97): launch, die, dispatching tag and turn, its slots in batch order with the entries of
its batch block, its records, and whether a record of it was killed or cancelled. -/
structure Batch where
  launch : Nat
  die : Nat
  tag : Nat
  turn : Nat
  slots : List Nat
  entries : List (BitVec 256)
  recs : List Nat
  killed : Bool
  cancelled : Bool
deriving DecidableEq, Repr

/-- A ring block taken by RING_CONFIG (R73): the number of dies, LASTTAG, the segment table entries, the geometry entries,
and the staging, pier, segment-table and locator offsets. -/
structure RingCfg where
  n : Nat
  lastTag : Nat
  segs : List Nat
  geom : List Nat
  staging : Nat
  pier : Nat
  segt : Nat
  loc : Nat
deriving DecidableEq, Repr

/-- The lead lantern (R61 to R72): lead die, round-robin place, start order, command history, commands in progress and
waiting dependents, completion records with PHASE and interrupts, images, the RING_CONFIG and INJECT in progress. -/
structure Lead where
  die : Nat
  rr : Nat
  order : Nat
  past : Tab (List Past)
  busy : List Busy
  waiting : List Busy
  out : List Completion
  phase : Bool
  unsignalled : Nat
  firstAt : Nat
  msi : Nat
  images : Tab Image
  config : Option (Busy × RingCfg)
  inject : Option Busy
deriving DecidableEq, Repr

/-- GL-16 at reset (log 3) with compute-die reset released, nothing received or measured (log 5). -/
def Rom.init : Rom :=
  { variant := .gl16, held := false, sram := [], images := [], failed := [], up := [], meas := [], header := [],
    keyHash := 0, seeds := [] }

/-- The lead lantern at reset (R64: PHASE is 1 on the first pass). -/
def Lead.init : Lead :=
  { die := 0, rr := 0, order := 0, past := [], busy := [], waiting := [], out := [], phase := true, unsignalled := 0,
    firstAt := 0, msi := 0, images := [], config := none, inject := none }

end Sys2Proof.Machine
end

