-- ==== Sys2Proof/Machine/State.lean ====
section
/-! DEFINITION. The machine's state as plain data, its stops, and the state after reset. -/

namespace Sys2Proof.Machine

/-- Why a step is no step of the machine. -/
inductive Fault where
  /-- Raised by an event that is imposed (by the agenda or a direct call) where the spec does not let it happen: its
  enabling condition does not hold. Safe: the machine stops where the hardware would not take that step. -/
  | notEnabled
  /-- Raised by an event that names a die, cluster, core or record that the variant does not have. Safe. -/
  | noSuchUnit
  /-- Raised by an instruction word executed where no sequencer is issuing. Safe. -/
  | noSequencer
deriving DecidableEq, Repr

/-- Why an instruction has no meaning here. -/
inductive Refusal where
  /-- The instruction has no meaning in the model yet. Safe. -/
  | notModelled (mnemonic : String)
deriving DecidableEq, Repr

/-- What comes from outside: a row of the table that a unit outside the cores does, or bytes that the host writes to its own
memory, in which its packets, images and responses lie (R61, R388; log 6). -/
inductive Input where
  | act (i : Instr)
  | hostWrite (addr : Nat) (bytes : List Byte)
deriving DecidableEq, Repr

/-- Whether an input comes at the end of its cycle: a scrub read, which needs a bank that nothing has used in the cycle (R22;
log 1). -/
def Input.atEnd : Input → Bool
  | .act (.scrubRead ..) => true
  | _ => false

/-- The model's place in a cycle (log 1): events whose time is open, then what falls due in it, then the sequencers that may
still issue in it. -/
inductive Phase where
  | events
  | due
  | issue (left : List SeqId)
deriving DecidableEq, Repr

/-- Everything of the module that runs; Rom holds what boot fixes. bootStep is the last boot step that has completed on
every die, from 8 on (R25). modules is the number of modules of the configured ring, ringN
of its dies, ringAll their ring die numbers in ring order
from the origin, ringOrder its dies of this module in that order, excluded the dies repair took out of service, failing the
elements whose failure has been signalled: a die of this module, NDIE for the module after this one, NDIE + 1 for this module
as a whole, NDIE + 2 for a repair that another module makes, NDIE + 3 for a chord that carries weights (R47, R49; log 41); broken the tags and turns of lost beats in order (R52), and repaired whether repair has switched the
ring since it was configured (R50). -/
structure Mod where
  dies : Tab Die
  clusters : Tab Cluster
  cores : Tab Core
  recs : Tab Rec
  nextRec : Nat
  launches : Tab Launch
  slots : Tab SlotCopy
  batches : Tab Batch
  nextBatch : Nat
  lead : Lead
  reqs : List Req
  replies : List Reply
  beacons : List Beacon
  nextReq : Nat
  excluded : List Nat
  host : Tab Byte
  bootStep : Nat
  modules : Nat
  ringN : Nat
  ringAll : List Nat
  ringOrder : List Nat
  repaired : Bool
  failing : List Nat
  broken : List (Nat × Nat)
  free : Nat
  agenda : List (Nat × Input)
  phase : Phase
  cur : SeqId
deriving DecidableEq, Repr

/-- The machine. -/
structure State where
  rom : Rom
  m : Mod
deriving DecidableEq, Repr

/-- The module at reset: every unit as its init says. -/
def Mod.init : Mod :=
  { dies := [], clusters := [], cores := [], recs := [], nextRec := 0, launches := [],
    slots := [], batches := [], nextBatch := 0, lead := Lead.init, reqs := [], replies := [],
    beacons := [], nextReq := 0, excluded := [], host := [],
    bootStep := 0, modules := 1, ringN := 0, ringAll := [], ringOrder := [], repaired := false, failing := [], broken := [], free := 0, agenda := [], phase := .events, cur := ⟨0, .a⟩ }

/-- The machine right after compute-die reset is released (R25). -/
def State.reset : State := { rom := Rom.init, m := Mod.init }

end Sys2Proof.Machine
end

