-- ==== Sys2Proof/Machine/Ops.lean ====
section
/-! DEFINITION. Named reads and writes of the state, results on their way, and raising a fault (R107, R249 to R255). -/

namespace Sys2Proof

/-- Compute dies of a variant (R1). -/
def Variant.ndie : Variant → Nat
  | .gl16 => 16
  | .gl8 => 8
  | .gl4 => 4

/-- CAPS of a variant (R2). -/
def Variant.caps : Variant → Word
  | .gl16 => 0x3410
  | .gl8 => 0x7208
  | .gl4 => 0x8104

/-- Whether the variant has the trellis encoder engine (R1, CAPS.TCE). -/
def Variant.tce : Variant → Bool
  | .gl4 => false
  | _ => true

end Sys2Proof

namespace Sys2Proof.Machine

/-- What a meaning answers. -/
abbrev Out := Host.Outcome State Fault Refusal

/-- The core with physical core number c. -/
def State.core (s : State) (c : Nat) : Core := tabGet Core.init c s.m.cores
/-- The state with core c replaced. -/
def State.setCore (s : State) (c : Nat) (k : Core) : State := { s with m := { s.m with cores := tabPut c k s.m.cores } }
/-- The state with core c changed by f. -/
def State.onCore (s : State) (c : Nat) (f : Core → Core) : State := s.setCore c (f (s.core c))
/-- Cluster number n: die × 8 + cluster. -/
def State.cluster (s : State) (n : Nat) : Cluster := tabGet Cluster.init n s.m.clusters
/-- The state with a cluster replaced. -/
def State.setCluster (s : State) (n : Nat) (k : Cluster) : State :=
  { s with m := { s.m with clusters := tabPut n k s.m.clusters } }
/-- The state with a cluster changed by f. -/
def State.onCluster (s : State) (n : Nat) (f : Cluster → Cluster) : State := s.setCluster n (f (s.cluster n))
/-- Die g at reset: its ring number is its DIE strap until RING_CONFIG writes it (R273), and the queue registers, with
CQCFG.ICNT, exist in die 0's window only (R59, R63). -/
def dieAtReset (g : Nat) : Die :=
  { Die.init with rdie := BitVec.ofNat 10 g, win := if g = 0 then [(0x0608, 0x100)] else [] }
/-- Die g. -/
def State.die (s : State) (g : Nat) : Die := tabGet (dieAtReset g) g s.m.dies
/-- The state with die g replaced. -/
def State.setDie (s : State) (g : Nat) (d : Die) : State := { s with m := { s.m with dies := tabPut g d s.m.dies } }
/-- The state with die g changed by f. -/
def State.onDie (s : State) (g : Nat) (f : Die → Die) : State := s.setDie g (f (s.die g))

/-- The record with number n that a launch or batch made ready, if there is one. -/
def State.record? (s : State) (n : Nat) : Option Rec := tabGet none n (s.m.recs.map (fun e => (e.1, some e.2)))
/-- The state with record n replaced. -/
def State.setRecord (s : State) (n : Nat) (r : Rec) : State := { s with m := { s.m with recs := tabPut n r s.m.recs } }
/-- The launch with number n, if there is one. -/
def State.launch? (s : State) (n : Nat) : Option Launch := tabGet none n (s.m.launches.map (fun e => (e.1, some e.2)))
/-- The state with launch n replaced. -/
def State.setLaunch (s : State) (n : Nat) (l : Launch) : State :=
  { s with m := { s.m with launches := tabPut n l s.m.launches } }

/-- Die and cluster of a physical core number (R82). -/
def dieOf (c : Nat) : Nat := c / 64
/-- The cluster, die × 8 + cluster, of a physical core number. -/
def clusterOf (c : Nat) : Nat := c / 8

/-- CCYC of a core's cluster (R113). -/
def State.ccyc (s : State) (c : Nat) : Nat := (s.cluster (clusterOf c)).ccyc
/-- KEYC of a core's die (R18). -/
def State.keyc (s : State) (c : Nat) : Nat := (s.die (dieOf c)).keyc

/-- One of a core's sequencers. -/
def Core.seq (k : Core) : Side → Seq
  | .a => k.a
  | .x => k.x
/-- The core with one sequencer replaced. -/
def Core.setSeq (k : Core) (sd : Side) (q : Seq) : Core :=
  match sd with
  | .a => { k with a := q }
  | .x => { k with x := q }
/-- A sequencer. -/
def State.seq (s : State) (q : SeqId) : Seq := (s.core q.core).seq q.side
/-- The state with a sequencer changed by f. -/
def State.onSeq (s : State) (q : SeqId) (f : Seq → Seq) : State :=
  s.onCore q.core (fun k => k.setSeq q.side (f (k.seq q.side)))

/-- Scalar register n as a source that is no queue: s0 reads zero (R269). -/
def Seq.s (q : Seq) (n : BitVec 5) : Word := if n = 0 then 0 else tabGet 0 n.toNat q.regs
/-- Predicate n: p0 is always true (R264). -/
def Seq.pred (q : Seq) (n : BitVec 3) : Bool := n = 0 || q.p.getLsbD n.toNat
/-- Branch target register n (R293). -/
def Seq.btv (q : Seq) (n : BitVec 2) : BitVec 21 := tabGet 0 n.toNat q.bt
/-- Lane mask n: m0 is all ones (R266). -/
def Core.mask (k : Core) (n : BitVec 3) : Mask := if n = 0 then BitVec.allOnes 512 else tabGet 0 n.toNat k.masks
/-- Stage counter n. -/
def Core.counter (k : Core) (n : Nat) : Word := tabGet 0 n k.k
/-- Descriptor n. -/
def Core.descr (k : Core) (n : BitVec 4) : Rec512 := tabGet 0 n.toNat k.desc
/-- Accumulator row n. -/
def Core.row (k : Core) (n : Nat) : Row := tabGet 0 n k.acc
/-- Issue number of engine e (R110). -/
def Core.issueNo (k : Core) (e : Nat) : Word := tabGet 0 e k.issued
/-- Completion number of engine e (R110). -/
def Core.doneNo (k : Core) (e : Nat) : Word := tabGet 0 e k.completed
/-- Format register of a bank (R132). -/
def Core.bfmtOf (k : Core) (bank : Nat) : Word := tabGet 0 bank k.bfmt

/-- The number under which a queue stands in a core's queue table. -/
def QName.idx : QName → Nat
  | .lq n => n.toNat
  | .sq n => 4 + n.toNat
  | .sAX => 6
  | .sXA => 7
  | .bAX => 8
  | .bXA => 9
  | .reply => 10
/-- The depth of a queue (R108). -/
def QName.depth : QName → Nat
  | .lq _ | .sq _ => 8
  | .sAX | .sXA | .bAX | .bXA => 16
  | .reply => 32
/-- The entries of a queue, head first. -/
def Core.queue (k : Core) (q : QName) : List QEntry := tabGet [] q.idx k.queues
/-- The core with a queue's entries replaced. -/
def Core.setQueue (k : Core) (q : QName) (l : List QEntry) : Core := { k with queues := tabPut q.idx l k.queues }
/-- Reserves an entry at the tail of a queue (R109). -/
def Core.push (k : Core) (q : QName) (e : QEntry) : Core := k.setQueue q (k.queue q ++ [e])
/-- Drops the head of a queue. -/
def Core.pop (k : Core) (q : QName) : Core := k.setQueue q (k.queue q).tail
/-- The value at the head of a queue. -/
def Core.head (k : Core) (q : QName) : Row :=
  match k.queue q with
  | [] => 0
  | e :: _ => e.val

/-- A value merged into an old one by a bit mask. -/
def mergeBits {w : Nat} (old mask v : BitVec w) : BitVec w := (old &&& ~~~mask) ||| (v &&& mask)

/-- A list of uncorrectable words after a write of n bytes from address a on: the words it reaches are good again (R21;
log 27). -/
def heal (l : List Nat) (a n : Nat) : List Nat := l.filter (fun w => !(decide (a < 8 * w + 8) && decide (8 * w < a + n)))

/-- Writes bytes of a core's core store. -/
def Core.putBytes (k : Core) (a : Nat) (l : List Byte) : Core :=
  { k with store := writeBytes k.store a l, bad := heal k.bad a l.length }
/-- Writes the n low bytes of a number to a core's core store. -/
def Core.putNat (k : Core) (a n v : Nat) : Core := { k with store := writeNat k.store a n v, bad := heal k.bad a n }
/-- Writes the bits of an accumulator row that a mask selects; the words it reaches are good again (R21, R331). -/
def Core.putRow (k : Core) (r : Nat) (m v : Row) : Core :=
  { k with
    acc := memSet 0 r (mergeBits (k.row r) m v) k.acc
    bad := k.bad.filter (fun w => !(decide (w / 128 = 2 ^ 11 + r) && bits m (64 * (w % 128) + 63) (64 * (w % 128)) != 0)) }
/-- Writes bytes of a die's Dome. -/
def Die.putBytes (d : Die) (a : Nat) (l : List Byte) : Die :=
  { d with dome := writeBytes d.dome a l, bad := heal d.bad a l.length }
/-- Writes the n low bytes of a number to a die's Dome. -/
def Die.putNat (d : Die) (a n v : Nat) : Die := { d with dome := writeNat d.dome a n v, bad := heal d.bad a n }

/-- Puts a result on its way (R107). -/
def Core.addPend (k : Core) (due : Nat) (t : Target) (v : Row) : Core := { k with pend := k.pend ++ [⟨due, t, v⟩] }
/-- Puts a result of core c on its way: it is read from lat cycles after this cycle on (R278). -/
def State.later (s : State) (c lat : Nat) (t : Target) (v : Row) : State :=
  s.onCore c (fun k => k.addPend (s.ccyc c + lat) t v)

/-- Whether a cluster is frozen (R113, R114). -/
def State.frozen (s : State) (n : Nat) : Bool := !(s.cluster n).causes.isEmpty
/-- A post to a counter of core c from outside its cluster: it is seen from the next cycle of KEYC on, and goes on through a
freeze (R112, R116). -/
def State.postOutside (s : State) (c k : Nat) (v : Row) : State :=
  s.onCore c (fun x => x.addPend (s.keyc c + 1) (.post k) v)

/-- Fault code numbers (R249). -/
def FaultCode.num : FaultCode → Nat
  | .illegal => 0x01 | .stream => 0x02 | .absent => 0x03 | .align => 0x04 | .addr => 0x05 | .loopState => 0x06
  | .brDelay => 0x07 | .queueLive => 0x08 | .footprint => 0x09 | .determinism => 0x0A | .scheduleMiss => 0x0B
  | .timing => 0x0C | .xlateMiss => 0x0D | .permission => 0x0E | .atomicPermit => 0x0F | .security => 0x10
  | .formatStore => 0x11 | .watchdog => 0x12 | .preemptLimit => 0x13 | .trap => 0x14 | .brk => 0x15
  | .eccUncorrectable => 0x16 | .ring => 0x17 | .engine => 0x18 | .descriptor => 0x19

/-- Permitted actions of a fault, as ACT holds them (R249, R254); copy says that a copy job raised it. -/
def FaultCode.act (f : FaultCode) (copy : Bool) : Nat :=
  match f with
  | .scheduleMiss | .trap | .brk => 13
  | .xlateMiss => 0
  | .permission => if copy then 13 else 14
  | .atomicPermit => 14
  | _ => 12

/-- Whether a fault stops its record (R249). -/
def FaultCode.stops : FaultCode → Bool
  | .scheduleMiss | .permission | .atomicPermit => false
  | _ => true

/-- Where a fault arose and what its record says beside the code (R254). -/
structure FaultInfo where
  code : FaultCode
  cause : Nat := 0
  va : Nat := 0
  aux : Nat := 0
  acc : Nat := 0
  kind : Nat := 0
  eng : Nat := 0
  pc : Nat := 0
  insn : Nat := 0
  second : Bool := false
  raiser : Option Nat := none
deriving DecidableEq, Repr

/-- The physical core number of R82 of a core: its die's ring number × 64 and its place on the die. -/
def State.pcore (s : State) (c : Nat) : Nat := (s.die (dieOf c)).rdie.toNat * 64 + c % 64

/-- The launch's and record's part of a fault record: LCID, RECIDX, PCORE, LCN, LQ and REQV (R254). -/
def State.faultOwner (s : State) (rec? : Option Nat) : Nat :=
  match rec?.bind s.record? with
  | none => 0
  | some r =>
    let l := s.launch? r.launch
    (l.map (·.cid)).getD 0 % 2 ^ 32 * 2 ^ 288 + r.index % 2 ^ 32 * 2 ^ 256 + s.pcore r.core % 2 ^ 16 * 2 ^ 208
      + bits r.raw 447 432 * 2 ^ 192 + (l.map (·.queue)).getD 0 % 16 * 2 ^ 156 + 2 ^ 130

/-- The fault record of R254 but for FSEQ, which delivery fills in; its KEYC is that of the die that raised the fault, the
delivering die unless the fault names another. -/
def State.faultRaw (s : State) (die : Nat) (rec? : Option Nat) (f : FaultInfo) (stop : Bool) : Rec512 :=
  BitVec.ofNat 512
    (f.va % 2 ^ 64 * 2 ^ 448 + f.aux % 2 ^ 64 * 2 ^ 384 + (s.die (f.raiser.getD die)).keyc % 2 ^ 64 * 2 ^ 320 + s.faultOwner rec?
      + f.pc % 2 ^ 32 * 2 ^ 224 + f.insn % 2 ^ 32 * 2 ^ 160 + f.kind % 16 * 2 ^ 152 + f.eng % 16 * 2 ^ 148
      + f.acc % 16 * 2 ^ 144 + f.code.act (f.kind == 2 && f.eng == 0) * 2 ^ 136
      + (if f.second then 2 ^ 131 else 0) + (if stop then 2 ^ 129 else 0) + f.cause % 256 * 2 ^ 8 + f.code.num)

/-- What a register of every die's window reads at reset: zero but for VCTL.HLIM, VLINK's range, SCHCFG, CLFRZ and IOCTL.POLL
(R57, R105, R118, R387). -/
def windowReset (off : Nat) : Word :=
  match off with
  | 0x0200 => 0x0010000000000000
  | 0x0248 => 0x0002010000000000
  | 0x0700 => 0x0010000000000001
  | 0x0B10 => 0x100000
  | n => if 0x0800 ≤ n ∧ n < 0x0880 ∧ n % 16 = 0 then 0x10000 else 0

/-- The register of a die's window at an offset. -/
def Die.reg (d : Die) (off : Nat) : Word := tabGet (windowReset off) off d.win
/-- The die with a register of its window replaced. -/
def Die.setReg (d : Die) (off : Nat) (v : Word) : Die := { d with win := tabPut off v d.win }

/-- The die with bits of a window register replaced. -/
def Die.setField (d : Die) (off hi lo v : Nat) : Die := d.setReg off (setBits (d.reg off) hi lo v)

/-- Adds 1 to a saturating counter field [hi:lo] of a die's window register (R57, R118, R256). -/
def Die.count (d : Die) (off hi lo n : Nat) : Die :=
  let w : Word := tabGet 0 off d.win
  { d with win := tabPut off (setBits w hi lo (min (bits w hi lo + n) (2 ^ (hi + 1 - lo) - 1))) d.win }

/-- Whether a record waits for its handler (R251, R253). -/
def State.isStopped (s : State) (c : Nat) : Bool := (s.core c).stopAt.isSome

/-- The first 64-bit word from lo to hi of core c's core store (acc: accumulator store, row r at 1024 r) that has an
uncorrectable error, as die × 2^32 + physical address; the accumulator store lies above the core store from 2^21 on (R21;
log 27). -/
def Core.eccIn (k : Core) (c : Nat) (acc : Bool) (lo hi : Nat) : Option Nat :=
  let b := if acc then 2 ^ 18 else 0
  (k.bad.find? (fun w => decide (lo / 8 + b ≤ w) && decide (w ≤ hi / 8 + b) && (acc || decide (w < 2 ^ 18)))).map
    (fun w => dieOf c * 2 ^ 32 + 8 * w)

/-- The uncorrectable error of the word at a physical address of die g's Dome, as die × 2^32 + physical address (R21). -/
def Die.eccAt (d : Die) (g pa : Nat) : Option Nat :=
  if d.bad.contains (pa / 8) then some (g * 2 ^ 32 + pa / 8 * 8) else none

/-- An access that missed its translation is fatal to its launch: the launch is marked to be torn down with FAULT, and the
record to be killed; the kill is carried out at the end of the cycle (R142, R249). -/
def State.missLaunch (s : State) (rec? : Option Nat) : State :=
  match rec? with
  | none => s
  | some n =>
    match s.record? n with
    | none => s
    | some r =>
      match s.launch? r.launch with
      | none => s
      | some l =>
        (s.setRecord n { r with faulted := true }).setLaunch r.launch
          { l with fault := some (0x0D, bits r.raw 447 432), tearing := some (l.tearing.getD 0) }

/-- A fault stops a record that does not run: it starts no more (R45, R251). -/
def State.markFaulted (s : State) (rec? : Option Nat) : State :=
  match rec? with
  | none => s
  | some n =>
    match s.record? n with
    | none => s
    | some r => s.setRecord n { r with faulted := true }

/-- Whether a record is in a final state (R103). -/
def Rec.final (r : Rec) : Bool := r.state = .retired || r.state = .cancelled || r.state = .killed

/-- Whether a record is stopped by a fault already: it runs and waits for its handler, or it does not run and a fault keeps it from
running (R45, R251, R253). -/
def State.hasStopped (s : State) (c : Nat) (rec? : Option Nat) : Bool :=
  match rec? with
  | none => false
  | some n => if (s.core c).running = some n then s.isStopped c else (s.record? n).any (fun r => r.faulted && !r.final)

/-- Whether a fault is in the permission class (R151). -/
def FaultCode.permClass (f : FaultCode) : Bool := f = .permission || f = .atomicPermit

/-- The die notes a permission-class fault on a page (R401). -/
def Die.notePerm (d : Die) (va : Nat) : Die :=
  { d with perms := d.perms.filter (fun e => decide (d.keyc < e.2 + 2 ^ 20)) ++ [(va / 2 ^ 16, d.keyc)] }

/-- Raises a fault against a record (R251, R253, R255): its fault record is held for the lantern core of die die, and
where the fault stops its record, both sequencers of core c stop at the end of this cycle, or a record that does not run is kept
from running. Against a record that is
already stopped it is counted in FLTCNT.MERGE and not delivered, unless SECOND. An uncorrectable error goes to the die that
holds the word, which its cause names with the physical address, and counts in ECCCNT.UE (R24, R254, R255). A
translation miss marks its launch to be torn down (R142). -/
def State.raiseFor (s : State) (die c : Nat) (rec? : Option Nat) (f : FaultInfo) (eng job : Option Nat) (page : Nat) :
    State :=
  let ecc := f.code = .eccUncorrectable
  let die := if ecc then f.cause / 2 ^ 32 else die
  let s := if ecc then s.onDie die (·.count 0x0110 31 16 1) else s
  let f : FaultInfo := if ecc then { f with cause := 0, aux := f.cause % 2 ^ 32 } else f
  let stopped := s.hasStopped c rec?
  let s := if f.code = .xlateMiss then s.missLaunch rec? else s
  if stopped && !f.second then
    s.onDie (dieOf c) (·.count 0x0A28 31 16 1)
  else
    let stop := f.code.stops && rec?.isSome
    let fr : FaultRec :=
      { raw := s.faultRaw die rec? f stop, die := die, ofRec := rec?, core := c, eng := eng, job := job, page := page,
        raised := (s.die die).keyc }
    let s := s.onDie die (fun d => { d with heldFaults := d.heldFaults ++ [fr] })
    let s := if f.code.permClass then s.onDie die (·.notePerm f.va) else s
    if !stop then s
    else if (s.core c).running == rec? then s.onCore c (fun k => { k with stopAt := some (k.stopAt.getD (s.ccyc c)) })
    else s.markFaulted rec?

/-- Taking a precise fault (R249 to R251, R265): the faulting instruction of sequencer q has no effect, its record is
reported with its PC and word and stopped at the end of the cycle; the sequencer issues nothing more. -/
def State.raisePrecise (s : State) (q : SeqId) (insn : BitVec 32) (f : FaultInfo) : State :=
  let k := s.core q.core
  let f := { f with kind := (match q.side with | .a => 0 | .x => 1), pc := (k.seq q.side).pc.toNat, insn := insn.toNat }
  let s := s.raiseFor (dieOf q.core) q.core k.running f none none 0
  s.onSeq q (fun sq => { sq with nextIssue := s.ccyc q.core + 1, captured := none, wait := none })

/-- A value nothing constrains (log 9), and the state with the counter of free values advanced. -/
def State.freeValue (s : State) : Row × State :=
  (Config.freeBits s.m.free, { s with m := { s.m with free := s.m.free + 1 } })

end Sys2Proof.Machine
end

