-- ==== Sys2Proof/Machine/Operands.lean ====
section
/-! DEFINITION. Issuing an instruction word: checks that depend on the word and its place (R250, R277), the guard and its
queue traffic (R264, R265), operand codes (R269, R270), implicit stalls and explicit waits of queues (R109, R121), and the
place of the next word (R294, R297). -/

namespace Sys2Proof

/-- The side's partner. -/
def Side.other : Side → Side
  | .a => .x
  | .x => .a
/-- The scalar queue that s30 pops (R269). -/
def Side.qin : Side → Machine.QName
  | .a => .sXA
  | .x => .sAX
/-- The scalar queue that s31 pushes (R269). -/
def Side.qout : Side → Machine.QName
  | .a => .sAX
  | .x => .sXA
/-- The branch-outcome queue towards a side (R292). -/
def Side.bin : Side → Machine.QName
  | .a => .bXA
  | .x => .bAX
/-- The branch-outcome queue from a side (R292). -/
def Side.bout : Side → Machine.QName
  | .a => .bAX
  | .x => .bXA

/-- Which streams may issue an instruction (R274). Events are no instruction words. -/
def Instr.onA (i : Instr) : Bool := !(0x20 ≤ i.major && i.major ≤ 0x2B)
/-- Which instructions the X stream may issue (R272, R274). -/
def Instr.onX (i : Instr) : Bool :=
  match i with
  | .yieldK .. | .yieldIo .. | .kadd .. | .kset .. => false
  | .rsr _ _ r | .wsr _ _ r | .xsr _ _ r => ((sysInfo r).map (·.onX)).getD true
  | i => !((0x12 ≤ i.major && i.major ≤ 0x16) || i.major = 0x1C || 0x2C ≤ i.major)
/-- Whether the side may issue the instruction: otherwise it raises STREAM (R272, R274, R277). -/
def Instr.sideOk (i : Instr) (sd : Side) : Bool :=
  match sd with
  | .a =>
    (match i with
     | .rsr _ _ r | .wsr _ _ r | .xsr _ _ r => ((sysInfo r).map (·.onA)).getD true
     | _ => true) && i.onA
  | .x => i.onX

/-- Words that are ILLEGAL on one side only: X waits on no reply queue (R319). -/
def Instr.sideIllegal (i : Instr) (sd : Side) : Bool :=
  match i with
  | .qwait _ _ c => sd = .x && c = 10
  | _ => false

/-- The instructions that raise BR_DELAY in a delay-slot position (R295). -/
def Instr.noSlot : Instr → Bool
  | .br .. | .brl .. | .loop .. | .knext .. | .exit .. | .yieldK .. | .yieldIo .. => true
  | _ => false

end Sys2Proof

namespace Sys2Proof.Machine

/-- The operand fields of an instruction: scalar and vector sources, highest field first (R269), scalar and vector
destinations, further pops and pushes, and the latency of what it pushes. -/
structure Operands where
  srcs : List (BitVec 5) := []
  vsrcs : List (BitVec 5) := []
  dst : Option (BitVec 5) := none
  vdst : Option (BitVec 5) := none
  pops : List QName := []
  pushes : List QName := []
  lat : Nat := 1
deriving DecidableEq, Repr

/-- The queues an instruction pops, in order (R269, R270). -/
def Operands.popList (o : Operands) (sd : Side) : List QName :=
  (o.srcs.filter (· = 30)).map (fun _ => sd.qin)
    ++ (o.vsrcs.filter (fun f => 28 ≤ f.toNat)).map (fun f => .lq (BitVec.ofNat 2 (f.toNat - 28))) ++ o.pops

/-- The queues an instruction pops when it issues; one that has waited popped them before its wait began (R119, R269). -/
def Operands.popsNow (o : Operands) (q : Seq) (sd : Side) : List QName := if q.captured.isSome then [] else o.popList sd

/-- The queues an instruction pushes (R269, R270). -/
def Operands.pushList (o : Operands) (sd : Side) : List QName :=
  (if o.dst = some 31 then [sd.qout] else [])
    ++ (match o.vdst with
        | some 28 => [.sq 0]
        | some 29 => [.sq 1]
        | _ => []) ++ o.pushes

/-- Where control goes after an instruction (R293 to R301). -/
inductive Flow where
  | next
  | branch (target : Option (BitVec 32))
  | goto (a : BitVec 32)
  | stay
  | keep
deriving DecidableEq, Repr

/-- What an instruction's own effect answers: done, done and then a fault (TRAP, BREAK), an explicit wait, a precise
fault, or a precise fault that also falls on an engine command starting in this cycle (R127). -/
inductive Res where
  | done (s : State) (fl : Flow)
  | doneFault (s : State) (f : FaultInfo)
  | wait (w : WaitCond)
  | fault (f : FaultInfo)
  | faultAt (s : State) (f : FaultInfo)

/-- Whether a sequencer's next word stands in a delay-slot position (R295). -/
def Seq.inSlot (q : Seq) : Bool := 0 < q.slots && (q.pc = q.slotBase + 4 || q.pc = q.slotBase + 8)

/-- The faults that depend only on the word and its position, in the order of R250. -/
def checkWord (i : Instr) (sd : Side) (q : Seq) (v : Variant) : Option FaultCode :=
  if !i.wf || i.sideIllegal sd then some .illegal
  else if !i.sideOk sd then some .stream
  else if (match i with | .tcenc .. => !v.tce | _ => false) then some .absent
  else if i.noSlot && q.inSlot then some .brDelay
  else none

/-- The record running on a core, with its number. -/
def State.runningRec (s : State) (c : Nat) : Option (Nat × Rec) :=
  (s.core c).running.bind (fun n => (s.record? n).map (fun r => (n, r)))

/-- The physical core that runs logical core c of the logical cluster of core's record (R83, R303, R317). -/
def State.peerCore (s : State) (core c : Nat) : Option Nat :=
  (s.runningRec core).bind (fun nr =>
    (s.launch? nr.2.launch).bind (fun l => let lcn := bits nr.2.raw 447 432; l.binding[lcn - lcn % 8 + c]?))

/-- The logical core number within its cluster of a core's record (R303). -/
def State.ownLogical (s : State) (core : Nat) : Option Nat :=
  (s.runningRec core).map (fun nr => bits nr.2.raw 447 432 % 8)

/-- The physical core of another logical core than the issuer's own; a remote post that names none is ILLEGAL (R317). -/
def State.remoteCore (s : State) (core c : Nat) : Option Nat :=
  if s.ownLogical core = some c then none else s.peerCore core c

/-- Whether a word is a remote post that names no other core of the cluster (R317). -/
def State.postsNowhere (s : State) (core : Nat) : Instr → Bool
  | .kadd _ _ _ rem c | .kset _ _ _ rem c => rem != 0 && (s.remoteCore core c.toNat).isNone
  | _ => false

/-- Whether a branch word stands at an address of the core store (R294). -/
def Core.branchAt (k : Core) (a : Nat) : Bool :=
  match decode (BitVec.ofNat 32 (readNat k.store a 4)) with
  | some (.br ..) | some (.brl ..) => true
  | _ => false

/-- Whether an address is a delay-slot position: one of the two words after a branch word (R295). -/
def Core.slotAt (k : Core) (pc : Nat) : Bool :=
  (decide (4 ≤ pc) && k.branchAt (pc - 4)) || (decide (8 ≤ pc) && k.branchAt (pc - 8))

/-- The fault that a word raises by its fields and its place, whatever its guard (R250, R277, R295, R317). -/
def State.wordCheck (s : State) (q : SeqId) (i : Instr) : Option FaultCode :=
  if s.postsNowhere q.core i then some .illegal
  else
    (checkWord i q.side (s.seq q) s.rom.variant).or
      (if i.noSlot && (s.core q.core).slotAt (s.seq q).pc.toNat then some .brDelay else none)

/-- Whether a guard is true (R264). -/
def Seq.guardTrue (q : Seq) (g : BitVec 4) : Bool := q.pred (g.truncate 3) != g.getLsbD 3

/-- Whether a sequencer may issue in this cycle (R107, R113, R119, R251). -/
def State.canIssue (s : State) (q : SeqId) : Bool :=
  let k := s.core q.core
  let sq := k.seq q.side
  let now := s.ccyc q.core
  decide (q.core < s.rom.variant.ndie * 64) && k.running.isSome && k.saving.isNone && sq.ended.isNone
    && sq.wait.isNone && decide (sq.nextIssue ≤ now) && (s.cluster (clusterOf q.core)).causes.isEmpty
    && (match k.stopAt with | none => true | some c => decide (now ≤ c))

/-- An instruction that cannot get past its queues: a freeze of the cluster by entry n of a queue, or an explicit wait
(R121). -/
inductive Block where
  | freeze (cause : Nat) (q : QName) (n : Nat)
  | wait (w : WaitCond)
deriving DecidableEq, Repr

/-- Whether an entry is written. -/
def QEntry.isWritten (e : QEntry) : Bool := e.st = .written

/-- Whether the n-th entry from the head is there to be popped; anch: the pusher is in the popper's group (R109, R121,
R311). -/
def popBlock (k : Core) (anch : Bool) (q : QName) (n : Nat) : Option Block :=
  match (k.queue q)[n]? with
  | none => if anch && q != .reply then some (.freeze 1 q n) else some (.wait (.qPop q (n + 1)))
  | some e =>
    if e.isWritten then none
    else if q = .reply then some (.wait (.qPop q (n + 1)))
    else some (.freeze 8 q n)

/-- Whether a push finds room; the reply queue's popper is the pusher itself (R121, R312). -/
def pushBlock (k : Core) (anch : Bool) (q : QName) : Option Block :=
  if (k.queue q).length < q.depth then none
  else if anch || q = .reply then some (.freeze 2 q 0) else some (.wait (.qPush q))

/-- The first pop of a list that is blocked; seen: the pops before it. -/
def popsBlock (k : Core) (anch : Bool) (seen : List QName) : List QName → Option Block
  | [] => none
  | q :: r =>
    match popBlock k anch q (seen.count q) with
    | some b => some b
    | none => popsBlock k anch (q :: seen) r

/-- Whether an instruction's queue traffic is blocked (R109, R121). -/
def Operands.block (o : Operands) (k : Core) (sd : Side) : Option Block :=
  let anch := decide (k.a.group = k.x.group)
  (popsBlock k anch [] (o.popsNow (k.seq sd) sd)).or ((o.pushList sd).findSome? (pushBlock k anch))

/-- The values of scalar sources, highest field first; s30 takes the queue's entries in turn (R269). -/
def readSrcs (q : Seq) (ins : List QEntry) : List (BitVec 5) → List Word
  | [] => []
  | f :: r =>
    if f = 30 then (match ins with | [] => 0 | e :: _ => e.val.truncate 64) :: readSrcs q ins.tail r
    else q.s f :: readSrcs q ins r

/-- The row number of vector register n (R270, R332). -/
def Core.vrow (k : Core) (n : BitVec 5) : Nat := (k.vwb.toNat + n.toNat) % 1536

/-- The values of vector sources (R270): rows of the window, or entries of the load queues in turn. -/
def readVsrcs (k : Core) (seen : List (BitVec 5)) : List (BitVec 5) → List Row
  | [] => []
  | f :: r =>
    (if f.toNat < 28 then k.row (k.vrow f)
     else (((k.queue (.lq (BitVec.ofNat 2 (f.toNat - 28))))[seen.count f]?).map (·.val)).getD 0)
      :: readVsrcs k (f :: seen) r

/-- What an instruction read: scalars and rows. -/
structure Vals where
  s : List Word
  v : List Row
deriving DecidableEq, Repr

/-- The n-th scalar source. -/
def Vals.x (v : Vals) (n : Nat) : Word := v.s.getD n 0
/-- The n-th row source. -/
def Vals.r (v : Vals) (n : Nat) : Row := v.v.getD n 0

/-- Pops the heads of queues. -/
def State.popAll (s : State) (c : Nat) (l : List QName) : State :=
  l.foldl (fun s q => s.onCore c (·.pop q)) s

/-- Pushes an entry whose data comes lat cycles after this one. -/
def State.pushLater (s : State) (c : Nat) (q : QName) (lat : Nat) (v : Row) : State :=
  s.onCore c (·.push q ⟨v, .pending (s.ccyc c + lat)⟩)

/-- Pushes all-zero entries (R265). -/
def State.pushZeros (s : State) (c : Nat) (lat : Nat) (l : List QName) : State :=
  l.foldl (fun s q => s.pushLater c q lat 0) s

/-- Writes a scalar destination after a latency: s0 discards, s31 pushes (R107, R269). -/
def State.writeS (s : State) (q : SeqId) (d : BitVec 5) (lat : Nat) (v : Word) : State :=
  if d = 0 then s
  else if d = 31 then s.pushLater q.core q.side.qout lat (v.setWidth 8192)
  else s.later q.core lat (.sreg q.side d.toNat) (v.setWidth 8192)

/-- Writes a predicate after a latency; p0 discards (R271). -/
def State.writeP (s : State) (q : SeqId) (d : BitVec 3) (lat : Nat) (v : Bool) : State :=
  if d = 0 then s
  else s.later q.core lat (.pred q.side ((1 : BitVec 8) <<< d.toNat)) (if v then BitVec.allOnes 8192 else 0)

/-- Gives a sequencer a group of its own (R120). -/
def State.leaveGroup (s : State) (q : SeqId) : State :=
  let n := (s.cluster (clusterOf q.core)).nextGroup
  (s.onSeq q (fun sq => { sq with group := n })).onCluster (clusterOf q.core) (fun c => { c with nextGroup := n + 1 })

/-- Whether a cause of a freeze is uses of one cycle being served one by one: of a bank, a link, a Dome port or a slice (R114,
R115, R137). -/
def Freeze.served (f : Freeze) : Bool :=
  f.cause = 3 || f.cause = 6 || (f.cause = 4 && f.req.isNone && f.left != 0)

/-- Begins a freeze cause of a cluster (R114); a freeze that begins counts in CLFCNT.FEVT (R118). -/
def State.freeze (s : State) (n : Nat) (f : Freeze) : State :=
  let c := s.cluster n
  let s := if c.causes.isEmpty then s.onDie (n / 8) (·.count (0x0808 + 16 * (n % 8)) 31 16 1) else s
  s.setCluster n { c with causes := c.causes ++ [f] }

/-- Loop level n of a sequencer. -/
def Seq.level (q : Seq) (n : BitVec 1) : LoopLevel := if n = 0 then q.l0 else q.l1
/-- The sequencer with a loop level replaced. -/
def Seq.setLevel (q : Seq) (n : BitVec 1) (l : LoopLevel) : Seq := if n = 0 then { q with l0 := l } else { q with l1 := l }

/-- The end-of-body test of one level at the word at pc (R297): where control goes if the loop goes on, and whether the
test passes on to the next level. -/
def Seq.testLevel (q : Seq) (n : BitVec 1) : Seq × Option (BitVec 32) × Bool :=
  let l := q.level n
  if !l.active then (q, none, true)
  else if q.pc != l.le.setWidth 32 then (q, none, false)
  else if 1 < l.lc.toNat then (q.setLevel n { l with lc := l.lc - 1 }, some (l.ls.setWidth 32), false)
  else (q.setLevel n { l with lc := 0, active := false }, none, true)

/-- The end-of-body tests, from the most recently started level outwards (R297). -/
def Seq.testLoops (q : Seq) : Seq × Option (BitVec 32) :=
  match q.testLevel q.lastLoop with
  | (q, some t, _) => (q, some t)
  | (q, none, false) => (q, none)
  | (q, none, true) => let r := q.testLevel (q.lastLoop ^^^ 1); (r.1, r.2.1)

/-- Ends a level whose body a taken branch leaves (R299). -/
def Seq.leaveLevel (q : Seq) (n : BitVec 1) (t : BitVec 32) : Seq :=
  let l := q.level n
  if l.active && !(decide (l.ls.setWidth 32 ≤ t) && decide (t ≤ l.le.setWidth 32)) then
    q.setLevel n { l with lc := 0, active := false }
  else q

/-- Ends the levels a taken branch to t leaves; a level started inside one that ends, ends with it (R299). -/
def Seq.leaveLoops (q : Seq) (t : BitVec 32) : Seq :=
  let outer := q.lastLoop ^^^ 1
  let was := (q.level outer).active
  let q := q.leaveLevel outer t
  if was && !(q.level outer).active && (q.level q.lastLoop).active then
    q.setLevel q.lastLoop { q.level q.lastLoop with lc := 0, active := false }
  else q.leaveLevel q.lastLoop t

/-- The sequencer as its next word issues: if a taken branch has come to its target, the levels that it leaves end now (R299), and
what the word before wrote to a branch target is no longer hidden (R293). -/
def Seq.begin (q : Seq) : Seq :=
  match q.slots, q.target with
  | 0, some t => { q.leaveLoops t with target := none, btOld := none }
  | _, _ => { q with btOld := none }

/-- The sequencer after the word at its pc has issued in cycle now (R293 to R297). -/
def Seq.advance (q : Seq) (now : Nat) (fl : Flow) : Seq :=
  let q := if fl = .keep then q else { q with nextIssue := now + 1, captured := none }
  match fl with
  | .keep => q
  | .stay => q
  | .goto a => { q with pc := a, slots := 0, target := none }
  | .branch t =>
    let r := q.testLoops
    { r.1 with slots := 2, slotBase := q.pc, target := t, pc := r.2.getD (q.pc + 4) }
  | .next =>
    let r := q.testLoops
    let q' := { r.1 with slots := q.slots - 1 }
    match q.slots, q.target with
    | 1, some t => { q' with pc := t }
    | _, _ => { q' with pc := r.2.getD (q.pc + 4) }

/-- The sequencer's word has issued: control goes on as fl says. -/
def State.finish (s : State) (q : SeqId) (fl : Flow) : State := s.onSeq q (·.advance (s.ccyc q.core) fl)

/-- Starts an explicit wait (R119): the sequencer leaves its group and idles, keeping what it has read. -/
def State.startWait (s : State) (q : SeqId) (w : WaitCond) (cap : Option (Bool × List Word)) : State :=
  (s.leaveGroup q).onSeq q (fun sq => { sq with wait := some w, captured := cap })

/-- What a guard-false instruction does beside its pops: it pushes zeros (R265). -/
def pushesZero (o : Operands) (q : SeqId) (s : State) : Res :=
  .done (s.pushZeros q.core o.lat (o.pushList q.side)) .next

/-- Concludes an instruction from what its effect answered on s', the state with its pops made; s: the state before. -/
def conclude (s s' : State) (q : SeqId) (i : Instr) (g : Bool) (vals : List Word) : Res → Out
  | .done t fl => .next (t.finish q fl)
  | .doneFault t f =>
    .next ((t.raisePrecise q ((encode i).getD 0) f).finish q .next)
  | .wait w => .next (s'.startWait q w (some (g, vals)))
  | .fault f => .next (s.raisePrecise q ((encode i).getD 0) f)
  | .faultAt t f => .next (t.raisePrecise q ((encode i).getD 0) f)

/-- Issues an instruction word on the current sequencer: the word's own faults; blocked queue traffic; the pops; then,
by the guard, the effect or the queue traffic alone. A precise fault leaves what was to be popped; an explicit wait keeps what
was read and popped in the issue cycle. -/
def issueWith (i : Instr) (o : Operands) (onFalse : SeqId → State → Res) (body : SeqId → Vals → State → Res)
    (s : State) : Out :=
  let q := s.m.cur
  if s.canIssue q then
    let k := s.core q.core
    let sq := k.seq q.side
    match s.wordCheck q i with
    | some f => .next (s.raisePrecise q ((encode i).getD 0) { code := f })
    | none =>
      match o.block k q.side with
      | some (.freeze c e n) =>
        .next (s.freeze (clusterOf q.core) { cause := c, core := q.core, side := some q.side, req := some e.idx, left := n })
      | some (.wait w) => .next (s.startWait q w none)
      | none =>
        let g := (sq.captured.map (·.1)).getD (sq.guardTrue i.guard)
        let vals : Vals :=
          { s := (sq.captured.map (·.2)).getD (readSrcs sq (k.queue q.side.qin) o.srcs), v := readVsrcs k [] o.vsrcs }
        let s' := (s.popAll q.core (o.popsNow sq q.side)).onSeq q Seq.begin
        conclude s s' q i g vals.s (if g then body q vals s' else onFalse q s')
  else .fault .noSequencer

/-- Issues an instruction word whose false guard leaves only its queue traffic (R265). -/
def issue (i : Instr) (o : Operands) (body : SeqId → Vals → State → Res) (s : State) : Out :=
  issueWith i o (pushesZero o) body s

end Sys2Proof.Machine
end

