-- ==== Sys2Proof/Machine/Flags.lean ====
section
/-! DEFINITION. Condition codes of compares (R276), predicate packing (R291), and the bits of VFLAGS (R197). -/

namespace Sys2Proof.Machine

/-- The test of a condition code; codes 12 to 15 are no tests (R276). -/
def condHolds (c : BitVec 4) (a b : Word) : Bool :=
  match c.toNat with
  | 0 => a == b
  | 1 => a != b
  | 2 => a.slt b
  | 3 => !a.slt b
  | 4 => a.ult b
  | 5 => !a.ult b
  | 6 => !b.slt a
  | 7 => b.slt a
  | 8 => !b.ult a
  | 9 => b.ult a
  | 10 => (a &&& b) == 0
  | 11 => (a &&& b) != 0
  | _ => false

/-- The predicates of a sequencer as pget packs them: bit i is p_i, bit 0 is 1 (R291). -/
def Seq.predBits (q : Seq) : BitVec 8 := q.p ||| 1

/-- The bits of VFLAGS (R197). -/
def flagNan : Word := 1
/-- A conversion clamped. -/
def flagClamp : Word := 2
/-- An INT32 matrix output saturated. -/
def flagSat : Word := 4
/-- An operation made a NaN from operands that held none. -/
def flagInv : Word := 8

/-- Sets VFLAGS bits in the cycle in which a result with this latency is written (R197). -/
def State.raiseFlags (s : State) (c lat : Nat) (f : Word) : State :=
  if f = 0 then s else s.later c lat .flagSet (f.setWidth 8192)

end Sys2Proof.Machine
end

