-- ==== Sys2Proof/Machine/Scalar.lean ====
section
/-! DEFINITION. Integer register and immediate operations, constants, compares and predicates (R286 to R292). -/

namespace Sys2Proof.Machine

/-- A scalar operation of two registers: sd := f(sa, sb) after lat cycles (R286). -/
def alu2 (i : Instr) (d a b : BitVec 5) (lat : Nat) (f : Word → Word → Word) (s : State) : Out :=
  issue i { srcs := [a, b], dst := some d, lat := lat }
    (fun q v s => .done (s.writeS q d lat (f (v.x 0) (v.x 1))) .next) s

/-- A scalar operation of one register: sd := f(sa) after one cycle (R286 to R288). -/
def alu1 (i : Instr) (d a : BitVec 5) (f : Word → Word) (s : State) : Out :=
  issue i { srcs := [a], dst := some d } (fun q v s => .done (s.writeS q d 1 (f (v.x 0))) .next) s

/-- Leading zero bits of a number held in n bits, from the top. -/
def leadingZeros (v : Nat) : Nat → Nat
  | 0 => 0
  | n + 1 => if v.testBit n then 0 else leadingZeros v n + 1

/-- Trailing zero bits of a number held in n bits. -/
def trailingZeros : Nat → Nat → Nat
  | 0, _ => 0
  | n + 1, v => if v % 2 = 1 then 0 else trailingZeros n (v / 2) + 1

/-- One bits among the n low bits of a number. -/
def onesCount : Nat → Nat → Nat
  | 0, _ => 0
  | n + 1, v => v % 2 + onesCount n (v / 2)

/-- The high half of the signed product (R286). -/
def mulHigh (a b : Word) : Word := BitVec.ofInt 64 ((a.toInt * b.toInt) / 2 ^ 64)
/-- The high half of the unsigned product (R286). -/
def mulHighN (a b : Word) : Word := BitVec.ofNat 64 (a.toNat * b.toNat / 2 ^ 64)
/-- Signed division, truncating; by zero all ones, and the overflow case gives its dividend (R286). -/
def divS (a b : Word) : Word := if b = 0 then BitVec.allOnes 64 else BitVec.ofInt 64 (a.toInt.tdiv b.toInt)
/-- Unsigned division (R286). -/
def divU (a b : Word) : Word := if b = 0 then BitVec.allOnes 64 else BitVec.ofNat 64 (a.toNat / b.toNat)
/-- Signed remainder with the sign of the dividend (R286). -/
def remS (a b : Word) : Word := if b = 0 then a else BitVec.ofInt 64 (a.toInt.tmod b.toInt)
/-- Unsigned remainder (R286). -/
def remU (a b : Word) : Word := if b = 0 then a else BitVec.ofNat 64 (a.toNat % b.toNat)
/-- Rotation right by the low six bits (R286). -/
def rotR (a : Word) (n : Nat) : Word := a.rotateRight (n % 64)
/-- The shift count of a register (R286). -/
def sh (b : Word) : Nat := b.toNat % 64

/-- add: sa + sb (R286). -/
def execAdd (g : BitVec 4) (d a b : BitVec 5) : State → Out :=
  alu2 (.add g d a b) d a b 1 (fun a b => a + b)

/-- sub: sa - sb (R286). -/
def execSub (g : BitVec 4) (d a b : BitVec 5) : State → Out :=
  alu2 (.sub g d a b) d a b 1 (fun a b => a - b)

/-- and: sa AND sb (R286). -/
def execAnd (g : BitVec 4) (d a b : BitVec 5) : State → Out :=
  alu2 (.and g d a b) d a b 1 (fun a b => a &&& b)

/-- or: sa OR sb (R286). -/
def execOr (g : BitVec 4) (d a b : BitVec 5) : State → Out :=
  alu2 (.or g d a b) d a b 1 (fun a b => a ||| b)

/-- xor: sa XOR sb (R286). -/
def execXor (g : BitVec 4) (d a b : BitVec 5) : State → Out :=
  alu2 (.xor g d a b) d a b 1 (fun a b => a ^^^ b)

/-- andn: sa AND NOT sb (R286). -/
def execAndn (g : BitVec 4) (d a b : BitVec 5) : State → Out :=
  alu2 (.andn g d a b) d a b 1 (fun a b => a &&& ~~~b)

/-- shl: shift left by sb[5:0] (R286). -/
def execShl (g : BitVec 4) (d a b : BitVec 5) : State → Out :=
  alu2 (.shl g d a b) d a b 1 (fun a b => a <<< sh b)

/-- shr: logical shift right (R286). -/
def execShr (g : BitVec 4) (d a b : BitVec 5) : State → Out :=
  alu2 (.shr g d a b) d a b 1 (fun a b => a >>> sh b)

/-- sra: arithmetic shift right (R286). -/
def execSra (g : BitVec 4) (d a b : BitVec 5) : State → Out :=
  alu2 (.sra g d a b) d a b 1 (fun a b => a.sshiftRight (sh b))

/-- rot: rotate right (R286). -/
def execRot (g : BitVec 4) (d a b : BitVec 5) : State → Out :=
  alu2 (.rot g d a b) d a b 1 (fun a b => rotR a (sh b))

/-- mul: low half of the product (R286). -/
def execMul (g : BitVec 4) (d a b : BitVec 5) : State → Out :=
  alu2 (.mul g d a b) d a b 3 (fun a b => a * b)

/-- mulh: high half, signed (R286). -/
def execMulh (g : BitVec 4) (d a b : BitVec 5) : State → Out :=
  alu2 (.mulh g d a b) d a b 3 (fun a b => mulHigh a b)

/-- mulhn: high half, unsigned (R286). -/
def execMulhn (g : BitVec 4) (d a b : BitVec 5) : State → Out :=
  alu2 (.mulhn g d a b) d a b 3 (fun a b => mulHighN a b)

/-- min: signed minimum (R286). -/
def execMin (g : BitVec 4) (d a b : BitVec 5) : State → Out :=
  alu2 (.min g d a b) d a b 1 (fun a b => if a.slt b then a else b)

/-- max: signed maximum (R286). -/
def execMax (g : BitVec 4) (d a b : BitVec 5) : State → Out :=
  alu2 (.max g d a b) d a b 1 (fun a b => if b.slt a then a else b)

/-- minn: unsigned minimum (R286). -/
def execMinn (g : BitVec 4) (d a b : BitVec 5) : State → Out :=
  alu2 (.minn g d a b) d a b 1 (fun a b => if a.ult b then a else b)

/-- maxn: unsigned maximum (R286). -/
def execMaxn (g : BitVec 4) (d a b : BitVec 5) : State → Out :=
  alu2 (.maxn g d a b) d a b 1 (fun a b => if b.ult a then a else b)

/-- div: signed division (R286). -/
def execDiv (g : BitVec 4) (d a b : BitVec 5) : State → Out :=
  alu2 (.div g d a b) d a b 34 (fun a b => divS a b)

/-- divn: unsigned division (R286). -/
def execDivn (g : BitVec 4) (d a b : BitVec 5) : State → Out :=
  alu2 (.divn g d a b) d a b 34 (fun a b => divU a b)

/-- rem: signed remainder (R286). -/
def execRem (g : BitVec 4) (d a b : BitVec 5) : State → Out :=
  alu2 (.rem g d a b) d a b 34 (fun a b => remS a b)

/-- remn: unsigned remainder (R286). -/
def execRemn (g : BitVec 4) (d a b : BitVec 5) : State → Out :=
  alu2 (.remn g d a b) d a b 34 (fun a b => remU a b)

/-- clz: leading zero bits (R286). -/
def execClz (g : BitVec 4) (d a : BitVec 5) : State → Out :=
  alu1 (.clz g d a) d a (fun a => BitVec.ofNat 64 (leadingZeros a.toNat 64))

/-- ctz: trailing zero bits (R286). -/
def execCtz (g : BitVec 4) (d a : BitVec 5) : State → Out :=
  alu1 (.ctz g d a) d a (fun a => BitVec.ofNat 64 (trailingZeros 64 a.toNat))

/-- popc: one bits (R286). -/
def execPopc (g : BitVec 4) (d a : BitVec 5) : State → Out :=
  alu1 (.popc g d a) d a (fun a => BitVec.ofNat 64 (onesCount 64 a.toNat))

/-- addi: sd := sa + imm, sign-extended (R287). -/
def execAddi (g : BitVec 4) (d a : BitVec 5) (i : BitVec 12) : State → Out :=
  alu1 (.addi g d a i) d a (fun a => a + i.signExtend 64)

/-- andi: sd := sa AND imm, sign-extended (R287). -/
def execAndi (g : BitVec 4) (d a : BitVec 5) (i : BitVec 12) : State → Out :=
  alu1 (.andi g d a i) d a (fun a => a &&& i.signExtend 64)

/-- ori: sd := sa OR imm, sign-extended (R287). -/
def execOri (g : BitVec 4) (d a : BitVec 5) (i : BitVec 12) : State → Out :=
  alu1 (.ori g d a i) d a (fun a => a ||| i.signExtend 64)

/-- xori: sd := sa XOR imm, sign-extended (R287). -/
def execXori (g : BitVec 4) (d a : BitVec 5) (i : BitVec 12) : State → Out :=
  alu1 (.xori g d a i) d a (fun a => a ^^^ i.signExtend 64)

/-- shli: shift left by an immediate (R288). -/
def execShli (g : BitVec 4) (d a : BitVec 5) (n : BitVec 6) : State → Out :=
  alu1 (.shli g d a n) d a (fun a => a <<< n.toNat)

/-- shri: logical shift right by an immediate (R288). -/
def execShri (g : BitVec 4) (d a : BitVec 5) (n : BitVec 6) : State → Out :=
  alu1 (.shri g d a n) d a (fun a => a >>> n.toNat)

/-- srai: arithmetic shift right by an immediate (R288). -/
def execSrai (g : BitVec 4) (d a : BitVec 5) (n : BitVec 6) : State → Out :=
  alu1 (.srai g d a n) d a (fun a => a.sshiftRight n.toNat)

/-- roti: rotate right by an immediate (R288). -/
def execRoti (g : BitVec 4) (d a : BitVec 5) (n : BitVec 6) : State → Out :=
  alu1 (.roti g d a n) d a (fun a => rotR a n.toNat)

/-- sxt: the low w bits sign-extended, where the field holds w - 1 (R288). -/
def execSxt (g : BitVec 4) (d a : BitVec 5) (w : BitVec 6) : State → Out :=
  alu1 (.sxt g d a w) d a (fun a => BitVec.ofInt 64 (signed (w.toNat + 1) a.toNat))

/-- zxt: the low w bits zero-extended, where the field holds w - 1 (R288). -/
def execZxt (g : BitVec 4) (d a : BitVec 5) (w : BitVec 6) : State → Out :=
  alu1 (.zxt g d a w) d a (fun a => BitVec.ofNat 64 (a.toNat % 2 ^ (w.toNat + 1)))

/-- ldi: sd := imm17 sign-extended (R289). -/
def execLdi (g : BitVec 4) (d : BitVec 5) (i : BitVec 17) : State → Out :=
  issue (.ldi g d i) { dst := some d } (fun q _ s => .done (s.writeS q d 1 (i.signExtend 64)) .next)

/-- lsi: sd := (sd shifted left by 16) OR imm16 (R289). -/
def execLsi (g : BitVec 4) (d : BitVec 5) (i : BitVec 16) : State → Out :=
  issue (.lsi g d i) { srcs := [d], dst := some d }
    (fun q v s => .done (s.writeS q d 1 (v.x 0 <<< 16 ||| i.setWidth 64)) .next)

/-- cmp: pd := sa cond sb (R290). -/
def execCmp (g : BitVec 4) (p : BitVec 3) (a b : BitVec 5) (c : BitVec 4) : State → Out :=
  issue (.cmp g p a b c) { srcs := [a, b] }
    (fun q v s => .done (s.writeP q p 1 (condHolds c (v.x 0) (v.x 1))) .next)

/-- cmpi: pd := sa cond imm10, sign-extended (R290). -/
def execCmpi (g : BitVec 4) (p : BitVec 3) (a : BitVec 5) (c : BitVec 4) (i : BitVec 10) : State → Out :=
  issue (.cmpi g p a c i) { srcs := [a] }
    (fun q v s => .done (s.writeP q p 1 (condHolds c (v.x 0) (i.signExtend 64))) .next)

/-- A predicate operation: pd := f(pa, pb) (R291). -/
def pred2 (i : Instr) (d a b : BitVec 3) (f : Bool → Bool → Bool) : State → Out :=
  issue i {} (fun q _ s => .done (s.writeP q d 1 (f ((s.seq q).pred a) ((s.seq q).pred b))) .next)

/-- pand: pd := pa AND pb (R291). -/
def execPand (g : BitVec 4) (d a b : BitVec 3) : State → Out := pred2 (.pand g d a b) d a b (fun a b => a && b)

/-- por: pd := pa OR pb (R291). -/
def execPor (g : BitVec 4) (d a b : BitVec 3) : State → Out := pred2 (.por g d a b) d a b (fun a b => a || b)

/-- pxor: pd := pa XOR pb (R291). -/
def execPxor (g : BitVec 4) (d a b : BitVec 3) : State → Out := pred2 (.pxor g d a b) d a b (fun a b => a != b)

/-- pandn: pd := pa AND NOT pb (R291). -/
def execPandn (g : BitVec 4) (d a b : BitVec 3) : State → Out := pred2 (.pandn g d a b) d a b (fun a b => a && !b)

/-- pnot: pd := NOT pa (R291). -/
def execPnot (g : BitVec 4) (d a : BitVec 3) : State → Out := pred2 (.pnot g d a) d a a (fun a _ => !a)

/-- pmov: pd := pa (R291). -/
def execPmov (g : BitVec 4) (d a : BitVec 3) : State → Out := pred2 (.pmov g d a) d a a (fun a _ => a)

/-- pget: sd := the predicate bits (R291). -/
def execPget (g : BitVec 4) (d : BitVec 5) : State → Out :=
  issue (.pget g d) { dst := some d }
    (fun q _ s => .done (s.writeS q d 1 ((s.seq q).predBits.setWidth 64)) .next)

/-- pput: p1 to p7 := sa[7:1] (R291). -/
def execPput (g : BitVec 4) (a : BitVec 5) : State → Out :=
  issue (.pput g a) { srcs := [a] }
    (fun q v s => .done (s.later q.core 1 (.pred q.side 0xFE) ((v.x 0).setWidth 8192)) .next)

/-- bpush: pushes pa to the branch-outcome queue towards the other side (R292). -/
def execBpush (g : BitVec 4) (a : BitVec 3) (s : State) : Out :=
  issue (.bpush g a) { pushes := [s.m.cur.side.bout] }
    (fun q _ s => .done (s.pushLater q.core q.side.bout 1 (if (s.seq q).pred a then 1 else 0)) .next) s

/-- bpop: pops the branch-outcome queue towards this side into pd (R292). -/
def execBpop (g : BitVec 4) (d : BitVec 3) (s : State) : Out :=
  issue (.bpop g d) { pops := [s.m.cur.side.bin] }
    (fun q _ s' => .done (s'.writeP q d 1 (((s.core q.core).head q.side.bin).getLsbD 0)) .next) s

end Sys2Proof.Machine
end

