-- ==== Sys2Proof/Machine/Control.lean ====
section
/-! DEFINITION. Branches, hardware loops, the ends of sections and records, system registers, nop, trap and brk (R293 to
R303). -/

namespace Sys2Proof.Machine

/-- mtbt: bt[N] := sa[20:2] × 4 (R293). -/
def execMtbt (g : BitVec 4) (t : BitVec 2) (a : BitVec 5) : State → Out :=
  issue (.mtbt g t a) { srcs := [a] }
    (fun q v s =>
      .done ((s.later q.core 1 (.bt q.side t) (BitVec.ofNat 8192 (bits (v.x 0) 20 2 * 4))).onSeq q
        (fun sq => { sq with btOld := some (t, sq.btv t) })) .next)

/-- mfbt: sd := bt[N] (R293). -/
def execMfbt (g : BitVec 4) (d : BitVec 5) (t : BitVec 2) : State → Out :=
  issue (.mfbt g d t) { dst := some d }
    (fun q _ s => .done (s.writeS q d 1 (((s.seq q).btv t).setWidth 64)) .next)

/-- pbr: bt[N] := (PC + 4 × imm20) mod 2^21 (R293). -/
def execPbr (g : BitVec 4) (t : BitVec 2) (i : BitVec 20) : State → Out :=
  issue (.pbr g t i) {}
    (fun q _ s =>
      let a : BitVec 21 := ((s.seq q).pc + i.signExtend 32 * 4).truncate 21
      .done ((s.later q.core 1 (.bt q.side t) (a.setWidth 8192)).onSeq q
        (fun sq => { sq with btOld := some (t, sq.btv t) })) .next)

/-- The target a branch reads: not yet what the instruction just before it wrote (R293). -/
def Seq.branchTarget (q : Seq) (t : BitVec 2) : BitVec 32 :=
  match q.btOld with
  | some (u, v) => if u = t then v.setWidth 32 else (q.btv t).setWidth 32
  | none => (q.btv t).setWidth 32

/-- Whether the word at pc is one of the last three of a level's body while it is active (R295). -/
def LoopLevel.nearEnd (l : LoopLevel) (pc : BitVec 32) : Bool :=
  l.active && decide (l.ls.toNat ≤ pc.toNat) && decide (l.le.toNat ≤ pc.toNat + 8) && decide (pc.toNat ≤ l.le.toNat)

/-- A branch (R294, R295): after two delay slots control goes to the target; brl also writes s28 := PC + 12. -/
def branch (i : Instr) (t : BitVec 2) (link : Bool) (s : State) : Out :=
  issueWith i {} (fun _ s => .done s (.branch none))
    (fun q _ s' =>
      let old := s.seq q
      let sq := s'.seq q
      if sq.l0.nearEnd sq.pc || sq.l1.nearEnd sq.pc then .fault { code := .loopState }
      else .done (if link then s'.writeS q 28 1 ((sq.pc + 12).setWidth 64) else s')
        (.branch (some (old.branchTarget t)))) s

/-- br (R294). -/
def execBr (g : BitVec 4) (t : BitVec 2) (s : State) : Out := branch (.br g t) t false s
/-- brl (R294). -/
def execBrl (g : BitVec 4) (t : BitVec 2) (s : State) : Out := branch (.brl g t) t true s

/-- loop: starts level L with count S(a) over the n words after it, or skips them for a count of 0 (R296). -/
def execLoop (g : BitVec 4) (l : BitVec 1) (a : BitVec 5) (n : BitVec 12) : State → Out :=
  issue (.loop g l a n) { srcs := [a] }
    (fun q v s =>
      let sq := s.seq q
      let first := sq.pc.toNat + 4
      let last := sq.pc.toNat + 4 * n.toNat
      let o := sq.level (l ^^^ 1)
      if (sq.level l).active then .fault { code := .loopState }
      else if o.active && !(decide (o.ls.toNat ≤ first) && decide (last ≤ o.le.toNat)) then
        .fault { code := .loopState }
      else if 0x1FFFFC < last then .fault { code := .addr }
      else if v.x 0 = 0 then .done s (.goto (BitVec.ofNat 32 (last + 4)))
      else
        let lev : LoopLevel :=
          { lc := v.x 0, ls := BitVec.ofNat 21 first, le := BitVec.ofNat 21 last, active := true }
        .done (s.onSeq q (fun sq => { sq.setLevel l lev with lastLoop := l })) .next)

/-- The address of a section for a side, as its loop record gives it (R84). -/
def sectAddr (raw : Rec512) (sd : Side) (k : Section) : BitVec 32 :=
  match sd, k with
  | .a, .prologue => BitVec.ofNat 32 (bits raw 95 64)
  | .a, .kernel => BitVec.ofNat 32 (bits raw 127 96)
  | .a, .epilogue => BitVec.ofNat 32 (bits raw 159 128)
  | .x, .prologue => BitVec.ofNat 32 (bits raw 191 160)
  | .x, .kernel => BitVec.ofNat 32 (bits raw 223 192)
  | .x, .epilogue => BitVec.ofNat 32 (bits raw 255 224)

/-- Flags of a loop record (R84). -/
def recCpl (raw : Rec512) : Bool := raw.getLsbD 431
/-- PRO. -/
def recPro (raw : Rec512) : Bool := raw.getLsbD 430
/-- EPI. -/
def recEpi (raw : Rec512) : Bool := raw.getLsbD 429
/-- YLD. -/
def recYld (raw : Rec512) : Bool := raw.getLsbD 428

/-- A core's record enters RETIRING once both sequencers have ended it (R103). -/
def State.retiring (s : State) (c : Nat) : State :=
  let k := s.core c
  if k.a.ended.isSome && k.x.ended.isSome && k.saving.isNone then
    match s.runningRec c with
    | none => s
    | some (n, r) => s.setRecord n { r with state := .retiring }
  else s

/-- How many sections a sequencer has gone through, to tell which section it is in (R85). -/
def Seq.sectNo (q : Seq) : Nat :=
  match q.sect with
  | .prologue => 0
  | .kernel | .epilogue => q.iter + 1

/-- Whether a loop is active. -/
def Seq.looping (q : Seq) : Bool := q.l0.active || q.l1.active

/-- Whether every queue of a core is empty (R86). -/
def Core.queuesEmpty (k : Core) : Bool := k.queues.all (fun e => e.2.isEmpty)

/-- Holds a sequencer at its section's end. -/
def Seq.holdAtBoundary (q : Seq) : Seq := { q with wait := some .boundary }

/-- The cycles a context save or restore takes at least (R262). -/
def ctxCost (raw : Rec512) : Nat := 68 + bits raw 303 288 + 128 * onesCount 16 (bits raw 415 400)

/-- What the end of a kernel iteration does at the boundary once both sequencers have reached it (R85, R86, R99, R101):
with a pre-emption or stop request, or a yield of this iteration, both stop and the record is to be saved; a yield of a later
iteration by A has not ended one. r: the record, q: the sequencer that completes the boundary. -/
def reachBoundary (s : State) (q : SeqId) (rn : Nat) (r : Rec) (n : Nat) : State :=
  let k := s.core q.core
  let last := decide (n = r.trip) && !recEpi r.raw
  let s := s.setRecord rn { r with iters := n }
  let yields := r.cond.isSome && k.a.iter == n
  if yields || (k.engHold.isEmpty && (k.preempt.isSome || r.cancel) && !last) then
    (s.setRecord rn { r with iters := n, state := .saving, cond := if yields then r.cond else none }).onCore q.core
      (fun k => { k with saving := some (s.keyc q.core), a := k.a.holdAtBoundary, x := k.x.holdAtBoundary })
  else s

/-- The end of a kernel iteration by knext or yield on sequencer q (R85, R300); hold keeps the sequencer there. The first of
the two to arrive waits there under a pre-emption request for the other (log 28). -/
def endIteration (s : State) (q : SeqId) (rn : Nat) (r : Rec) (hold : Bool) : Res :=
  let k := s.core q.core
  let sq := k.seq q.side
  let other := k.seq q.side.other
  let n := sq.iter + 1
  let completes := decide (n ≤ other.iter)
  if completes && !k.queuesEmpty then .fault { code := .queueLive }
  else
    let fin := decide (n = r.trip)
    let sq' : Seq :=
      if fin && recEpi r.raw then { sq with iter := n, sect := .epilogue, pc := sectAddr r.raw q.side .epilogue }
      else if fin then { sq with iter := n, ended := some .retired }
      else { sq with iter := n, pc := sectAddr r.raw q.side .kernel }
    let held := hold || (!completes && k.preempt.isSome && !r.cancel && !(fin && !recEpi r.raw))
    let s := s.onSeq q (fun _ => if held then sq'.holdAtBoundary else sq')
    let s := if completes then reachBoundary s q rn r n else s
    .done (s.retiring q.core) .stay


/-- knext: ends the prologue or the kernel iteration (R85, R300). -/
def execKnext (g : BitVec 4) : State → Out :=
  issue (.knext g) {}
    (fun q _ s =>
      match s.runningRec q.core with
      | none => .fault { code := .loopState }
      | some (rn, r) =>
        let k := s.core q.core
        let sq := k.seq q.side
        let other := k.seq q.side.other
        if sq.looping || sq.sect = .epilogue || (other.ended = some .byExit && other.sectNo = sq.sectNo) then
          .fault { code := .loopState }
        else if sq.sect = .prologue then
          .done (s.onSeq q (fun sq => { sq with sect := .kernel, pc := sectAddr r.raw q.side .kernel })) .stay
        else endIteration s q rn r false)

/-- exit: ends the epilogue, or with the other sequencer's exit the record (R85, R300). -/
def execExit (g : BitVec 4) : State → Out :=
  issue (.exit g) {}
    (fun q _ s =>
      let k := s.core q.core
      let sq := k.seq q.side
      let other := k.seq q.side.other
      if sq.looping || sq.sectNo < other.sectNo || (other.ended = some .retired && other.sectNo = sq.sectNo) then
        .fault { code := .loopState }
      else .done ((s.onSeq q (fun sq => { sq with ended := some .byExit })).retiring q.core) .stay)

/-- yield: ends the kernel iteration and names the condition the record waits for (R101, R300, R301). -/
def yieldOn (i : Instr) (sv : BitVec 5) (c : Word → WaitCond) (bad : Bool) : State → Out :=
  issue i { srcs := [sv] }
    (fun q v s =>
      match s.runningRec q.core with
      | none => .fault { code := .loopState }
      | some (rn, r) =>
        let k := s.core q.core
        let sq := k.seq q.side
        let other := k.seq q.side.other
        if sq.looping || sq.sect != .kernel || bad || !recYld r.raw
            || (other.ended = some .byExit && other.sectNo = sq.sectNo) then .fault { code := .loopState }
        else
          let r' := { r with cond := some (c (v.x 0)) }
          endIteration (s.setRecord rn r') q rn r' true)

/-- yield.k (R301): waits for a shared counter; k0 to k7 raise LOOP_STATE. -/
def execYieldK (g : BitVec 4) (sv : BitVec 5) (k : BitVec 4) : State → Out :=
  yieldOn (.yieldK g sv k) sv (fun v => .counter k.toNat v) (decide (k.toNat < 8))

/-- yield.io (R301): waits for the I/O completion number. -/
def execYieldIo (g : BitVec 4) (sv : BitVec 5) : State → Out :=
  yieldOn (.yieldIo g sv) sv (fun v => .engineDone 7 v) false

/-- COREID of a sequencer (R273). -/
def State.coreId (s : State) (q : SeqId) : Word :=
  let d := s.die (dieOf q.core)
  BitVec.ofNat 64 (d.rdie.toNat * 2 ^ 26 + d.modPos.toNat * 2 ^ 20 + dieOf q.core % 16 * 2 ^ 16
    + (match q.side with | .a => 0 | .x => 64) + q.core % 64)

/-- Ring time of a die (R48). -/
def Die.ringt (d : Die) : Word := BitVec.ofNat 64 d.keyc + tabGet 0 0x0250 d.win

/-- A system register's value in this cycle (R272, R302). -/
def State.sysRead (s : State) (q : SeqId) (r : BitVec 12) : Word :=
  let k := s.core q.core
  let sq := k.seq q.side
  match r.toNat with
  | 0x000 => s.rom.variant.caps
  | 0x001 => 0x0100
  | 0x002 => s.coreId q
  | 0x003 => k.stage
  | 0x010 => BitVec.ofNat 64 (s.keyc q.core)
  | 0x011 => BitVec.ofNat 64 (s.ccyc q.core)
  | 0x012 => k.mstamp
  | 0x013 => (s.die (dieOf q.core)).ringt
  | 0x020 => sq.l0.lc
  | 0x021 => sq.l0.ls.setWidth 64
  | 0x022 => sq.l0.le.setWidth 64
  | 0x023 => sq.l1.lc
  | 0x024 => sq.l1.ls.setWidth 64
  | 0x025 => sq.l1.le.setWidth 64
  | 0x030 => k.vwb
  | 0x031 => k.vtype
  | 0x032 => k.vrm
  | 0x033 => k.vclb
  | 0x034 => k.vflags
  | 0x050 => k.chainHead
  | 0x051 => k.chainTail
  | 0x060 => k.detmode
  | n => if 0x040 ≤ n ∧ n < 0x050 then k.bfmtOf (n - 0x040) else 0

/-- The element format codes that are not reserved (R182). -/
def fmtOk (f : Nat) : Bool := decide (f < 0x12) && f != 0x07 && f != 0x0F

/-- Whether a value fits BFMT (R132). -/
def bfmtOk (v : Word) : Bool :=
  let f := bits v 7 0
  let p := bits v 11 8
  decide (v.toNat < 2 ^ 12) && fmtOk f
    && (if f = 0x10 ∨ f = 0x11 then decide (2 ≤ p) && decide (p ≤ 8) else p == 0)

/-- Whether a value is an FP32 NaN. -/
def isNan32 (v : Nat) : Bool := v / 2 ^ 23 % 256 == 255 && v % 2 ^ 23 != 0

/-- Whether a command is a cht: it has a copy number, which the walk of a kvgat has not (R375). -/
def Cmd.isCht (c : Cmd) : Bool := c.tag != 0 && (match c.ins with | .cht .. => true | _ => false)
/-- Whether the copy engine of a core has a cht queued or running (R367). -/
def Core.chainBusy (k : Core) : Bool := (tabGet [] 0 k.engQ).any (·.isCht) || k.jobs.any (·.cmd.isCht)

/-- What a write of v to a system register raises, if it is refused (R132, R192, R197, R273, R298, R302, R367). -/
def sysRefused (k : Core) (sq : Seq) (r : BitVec 12) (v : Word) : Option FaultCode :=
  let bad (b : Bool) : Option FaultCode := if b then some .illegal else none
  let loopAddr (l : LoopLevel) : Option FaultCode :=
    if decide (2 ^ 21 ≤ v.toNat) || v.toNat % 4 != 0 then some .illegal
    else if l.active then some .loopState else none
  match r.toNat with
  | 0x021 | 0x022 => loopAddr sq.l0
  | 0x024 | 0x025 => loopAddr sq.l1
  | 0x030 => bad (decide (1536 ≤ v.toNat))
  | 0x031 => bad (decide (3 < v.toNat))
  | 0x032 => bad (decide (4 < v.toNat))
  | 0x033 => bad (decide (2 ^ 31 ≤ v.toNat) || isNan32 v.toNat)
  | 0x034 => bad (decide (15 < v.toNat))
  | 0x050 | 0x051 => bad k.chainBusy
  | n => if 0x040 ≤ n ∧ n < 0x050 then bad (!bfmtOk v) else none

/-- A write of a system register on its way: VFLAGS clears the bits that are 1, the chain registers hold 21 bits (R302,
R367). -/
def State.sysWrite (s : State) (q : SeqId) (r : BitVec 12) (v : Word) : State :=
  match r.toNat with
  | 0x034 => s.later q.core 1 .flagClear (v.setWidth 8192)
  | 0x050 | 0x051 => s.later q.core 1 (.sys q.side r.toNat) (BitVec.ofNat 8192 (v.toNat % 2 ^ 21))
  | n => s.later q.core 1 (.sys q.side n) (v.setWidth 8192)

/-- rsr: sd := REG (R302). -/
def execRsr (g : BitVec 4) (d : BitVec 5) (r : BitVec 12) : State → Out :=
  issue (.rsr g d r) { dst := some d } (fun q _ s => .done (s.writeS q d 1 (s.sysRead q r)) .next)

/-- wsr: REG := sa under the register's write rules (R302). -/
def execWsr (g : BitVec 4) (a : BitVec 5) (r : BitVec 12) : State → Out :=
  issue (.wsr g a r) { srcs := [a] }
    (fun q v s =>
      match sysRefused (s.core q.core) (s.seq q) r (v.x 0) with
      | some f => .fault { code := f }
      | none => .done (s.sysWrite q r (v.x 0)) .next)

/-- xsr: exchanges REG and sd in one step (R302). -/
def execXsr (g : BitVec 4) (d : BitVec 5) (r : BitVec 12) : State → Out :=
  issue (.xsr g d r) { srcs := [d], dst := some d }
    (fun q v s =>
      match sysRefused (s.core q.core) (s.seq q) r (v.x 0) with
      | some f => .fault { code := f }
      | none => .done ((s.sysWrite q r (v.x 0)).writeS q d 1 (s.sysRead q r)) .next)

/-- nop (R303). -/
def execNop (g : BitVec 4) : State → Out := issue (.nop g) {} (fun _ _ s => .done s .next)

/-- trap: completes, then raises TRAP (R303). -/
def execTrap (g : BitVec 4) (n : BitVec 16) : State → Out :=
  issue (.trap g n) {} (fun _ _ s => .doneFault s { code := .trap })

/-- brk: completes, then raises BREAK (R303). -/
def execBrk (g : BitVec 4) (n : BitVec 16) : State → Out :=
  issue (.brk g n) {} (fun _ _ s => .doneFault s { code := .brk })

end Sys2Proof.Machine
end

