-- ==== Sys2Proof/Machine/Links.lean ====
section
/-! DEFINITION. The links of a die and the routes of traffic other than weights (R9, R15, R24). -/

namespace Sys2Proof.Machine

/-- The number of a link in a die's link table. -/
def linkNo : Link → Nat
  | .spanIn => 0
  | .spanOut => 1
  | .chordIn => 2
  | .chordOut => 3
  | .spoke => 4
  | .bridgeIn => 5
  | .bridgeOut => 6
  | .bridgeChordRx => 7
  | .bridgeChordTx => 8

/-- What training left of a link of a die; a link that is not trained has none (R24, R56). -/
def Die.linkOf (d : Die) (l : Link) : Option LinkInfo := tabGet none (linkNo l) (d.links.map (fun e => (e.1, some e.2)))

/-- The bit of LNKSTS that tells whether a link is trained (R24). -/
def linkBit : Link → Nat
  | .spanOut => 8
  | .spanIn => 9
  | .chordOut => 12
  | .chordIn => 13
  | .spoke => 16
  | .bridgeIn => 20
  | .bridgeOut => 21
  | .bridgeChordRx => 22
  | .bridgeChordTx => 23

/-- Whether a link of a die is trained (R24). -/
def State.trained (s : State) (g : Nat) (l : Link) : Bool := ((s.die g).reg 0x0100).getLsbD (linkBit l)

/-- Whether a die has a link: spokes on every fourth die, bridge ports on the end dies of a module with bridges (R1, R7, R9,
R12). -/
def State.hasLink (s : State) (g : Nat) (l : Link) : Bool :=
  let n := s.rom.variant.ndie
  let bridge := s.rom.variant != .gl4
  match l with
  | .spanIn | .spanOut | .chordIn | .chordOut => true
  | .spoke => g % 4 = 0
  | .bridgeIn | .bridgeChordRx => bridge && g = 0
  | .bridgeOut | .bridgeChordTx => bridge && g + 1 = n

/-- Whether a link of a die has finished training, well or not; a failed one stands at its number + 16. -/
def Die.attempted (d : Die) (l : Link) : Bool := d.links.any (fun e => e.1 = linkNo l || e.1 = linkNo l + 16)

/-- Whether a link is a bridge port (R9). -/
def isBridge : Link → Bool
  | .bridgeIn | .bridgeOut | .bridgeChordRx | .bridgeChordTx => true
  | _ => false

/-- RPR: the UCIe lanes of a die's trained links that redundant lanes replace (R24). -/
def Die.setRpr (d : Die) : Die :=
  d.setField 0x0100 7 0 (min 255 (((d.links.filter (fun e => decide (e.1 < 5))).map (·.2.lanes)).foldl (· + ·) 0))

/-- The other end of a link within the module. -/
def State.farEnd (s : State) (g : Nat) (l : Link) : Option (Nat × Link) :=
  let n := s.rom.variant.ndie
  match l with
  | .spanOut => some ((g + 1) % n, .spanIn)
  | .spanIn => some ((g + n - 1) % n, .spanOut)
  | .chordOut => some ((g + 2) % n, .chordIn)
  | .chordIn => some ((g + n - 2) % n, .chordOut)
  | _ => none

/-- The hops that load-store and far traffic may take from a die: the return lane to the die before it, and the chords two dies
backward and forward (R15). -/
def State.hops (s : State) (g : Nat) : List Nat :=
  let n := s.rom.variant.ndie
  let out (d : Nat) : Bool := s.m.excluded.contains d || s.rom.failed.contains d
  [((g + n - 1) % n, Link.spanIn), ((g + n - 2) % n, .chordIn), ((g + 2) % n, .chordOut)].filterMap (fun e =>
    if s.trained g e.2 && !out e.1 then some e.1 else none)

/-- A shortest way to die j over the links that remain, searched in layers of one hop from the routes found so far; hops are
tried in the order of State.hops, so that of equal ways the one whose first hop runs counter-clockwise is found (R15). -/
def State.detour (s : State) (j : Nat) : Nat → List (List Nat × Nat) → List Nat → Option (List Nat)
  | 0, _, _ => none
  | n + 1, front, seen =>
    match front.find? (fun e => e.2 = j) with
    | some e => some e.1
    | none =>
      let next := (front.flatMap (fun e => (s.hops e.2).map (fun h => (e.1 ++ [h], h)))).foldl
        (fun (l : List (List Nat × Nat)) e => if seen.contains e.2 || l.any (fun x => x.2 = e.2) then l else l ++ [e]) []
      s.detour j n next (seen ++ next.map (·.2))

/-- The clockwise route of R15: chords from die i on, and one hop back on the return lane where the distance is odd. -/
def clockwise (n i j : Nat) : List Nat :=
  let d := (j + n - i) % n
  (List.range ((d + 1) / 2)).map (fun k => (i + 2 * (k + 1)) % n) ++ (if d % 2 = 1 then [j] else [])

/-- The counter-clockwise route of R15: one hop on the return lane where the distance is odd, and then chords. -/
def counterClockwise (n i j : Nat) : List Nat :=
  let d := (i + n - j) % n
  (List.range ((d + 1) / 2)).map (fun k => (i + 2 * n - d % 2 - 2 * k - (if d % 2 = 1 then 0 else 2)) % n)

/-- Whether every hop of a route is over a link that remains. -/
def State.routeOpen (s : State) (i : Nat) (l : List Nat) : Bool :=
  match l with
  | [] => true
  | h :: r => (s.hops i).contains h && s.routeOpen h r

/-- The dies that a message from die i to die j of the module passes, with j last: the shorter of the two routes, the
counter-clockwise one of equals; where a hop of it is gone, the fewest hops over what remains; none if no way is left (R15;
log 41). -/
def State.route (s : State) (i j : Nat) : Option (List Nat) :=
  let n := s.rom.variant.ndie
  let cw := clockwise n i j
  let ccw := counterClockwise n i j
  let best := if cw.length < ccw.length then cw else ccw
  if s.routeOpen i best then some best else s.detour j (n + 1) [([], i)] [i]

end Sys2Proof.Machine
end

