-- ==== Sys2Proof/Machine/Mem.lean ====
section
/-! DEFINITION. Core-store accesses: footprints (R126, R127), bank and link uses (R115), format checks (R133); and sending
Dome requests (R138 to R141, R170). -/

namespace Sys2Proof.Machine

/-- The numbers of the cores that have ever been touched; the others are as reset left them. -/
def State.liveCores (s : State) : List Nat := s.m.cores.map (·.1)

/-- Whether a footprint is active in a cycle (R126). -/
def Fp.active (f : Fp) (now : Nat) : Bool :=
  decide (f.start ≤ now) && (match f.last with | none => true | some e => decide (now ≤ e))

/-- Whether two ranges overlap and one of them writes (R127). -/
def Range.clash (a b : Range) : Bool :=
  a.acc == b.acc && decide (a.lo ≤ b.hi) && decide (b.lo ≤ a.hi) && (a.write || b.write)

/-- The active footprints of a core that ranges of an issuer conflict with (R127). -/
def Core.conflicts (k : Core) (iss : Issuer) (rs : List Range) (now : Nat) : List Fp :=
  k.fps.filter (fun f => f.active now && f.issuer != iss && rs.any f.range.clash)

/-- The core with the footprints of ranges added, those that have ended dropped (R126). -/
def Core.addFps (k : Core) (iss : Issuer) (job : Nat) (rs : List Range) (start : Nat) (last : Option Nat) : Core :=
  { k with fps := k.fps.filter (fun f => match f.last with | none => true | some e => start ≤ e) ++ rs.map (fun r => ⟨iss, job, r, start, last⟩) }

/-- The core without the footprints of a job. -/
def Core.dropFps (k : Core) (iss : Issuer) (job : Nat) : Core :=
  { k with fps := k.fps.filter (fun f => !(f.issuer = iss && f.job = job && f.last.isNone)) }

/-- The engine number of an issuer's jobs (R110). -/
def Issuer.engine : Issuer → Option Nat
  | .seqA | .vector => none
  | .copy _ => some 0
  | .matrix _ => some 1
  | .encoder _ => some 2
  | .truss _ => some 3
  | .decode _ => some 4
  | .walker _ => some 5
  | .viaduct _ => some 6
  | .io _ => some 7

/-- Removes every footprint of a job in a cluster. -/
def State.dropAll (s : State) (cl : Nat) (iss : Issuer) (job : Nat) : State :=
  (List.range 8).foldl (fun s i => s.onCore (cl * 8 + i) (·.dropFps iss job)) s

/-- Puts ranges of Dome addresses on a die's card table (R129). -/
def Die.addCards (d : Die) (iss : Issuer) (job : Nat) (l : List (Nat × Nat × Bool)) : Die :=
  { d with cards := d.cards ++ l.map (fun r => ⟨iss, job, r.1, r.2.1, r.2.2, d.keyc⟩) }
/-- Takes a job's card away. -/
def Die.dropCards (d : Die) (iss : Issuer) (job : Nat) : Die :=
  { d with cards := d.cards.filter (fun c => !(c.issuer = iss && c.job = job)) }
/-- The active cards of other issuers that ranges of a job conflict with (R127, R129). -/
def Die.cardClashes (d : Die) (iss : Issuer) (l : List (Nat × Nat × Bool)) : List Card :=
  d.cards.filter (fun c => c.issuer != iss && l.any (fun r => decide (r.1 ≤ c.hi) && decide (c.lo ≤ r.2.1) && (r.2.2 || c.write)))
/-- Whether the card table has room (R129). -/
def Die.cardRoom (d : Die) : Bool := decide ((d.cards.map (fun c => (c.issuer, c.job))).eraseDups.length < 1024)

/-- What the start of a job of engine e in this cycle did to its core, undone: a matrix engine is free again, and a tgo, which
completes as its phase begins, has no completion number (R127, R252). -/
def Core.unstart (k : Core) (e now : Nat) (tag : Word) : Core :=
  match e with
  | 1 => { k with matrixFree := min k.matrixFree now }
  | 3 => { k with completed := tabPut 3 (tag - 1) k.completed }
  | _ => k

/-- An engine job that started in this very cycle faults too when a start of the cycle conflicts with it, and does not
start: it uses no bank, port or slice (R127, R129, R252). The number of a job names its core. -/
def State.faultStarter (s : State) (iss : Issuer) (job : Nat) : State :=
  match iss.engine with
  | none => s
  | some e =>
    let core := job % 1024
    match (s.core core).jobs.find? (fun j => j.id = job && j.eng = e && j.st = .running) with
    | none => s
    | some j =>
      let s := (s.dropAll (clusterOf core) iss job).onDie (dieOf core) (fun d => { d.dropCards iss job with
        ring := { d.ring with inserts := d.ring.inserts.filter (fun x => x.byCore != some (core, job)) } })
      let s := s.onCluster (clusterOf core) (fun n => { n with uses := n.uses.filter (fun u => u.job != some job) })
      let s := s.onCore core (fun k =>
        { k.unstart e (s.ccyc core) j.cmd.tag with
          jobs := k.jobs.map (fun x => if x.id = j.id && x.eng = e then { x with st := .faulted } else x)
          engHold := e :: k.engHold })
      s.raiseFor (dieOf core) core (some j.cmd.ofRec) { code := .footprint, kind := 2, eng := e } (some e) (some j.id) 0

/-- The footprint check of an access that starts now on core c's stores: whether it passes, and the state in which engine
jobs that start in this cycle and clash with it have faulted too (R127). -/
def State.checkFps (s : State) (c : Nat) (iss : Issuer) (rs : List Range) : State × Bool :=
  let now := s.ccyc c
  let l := (s.core c).conflicts iss rs now
  ((l.filter (fun f => f.start = now)).foldl (fun s f => s.faultStarter f.issuer f.job) s, l.isEmpty)

/-- The keys of uses: banks of core store (core × 32 + bank) lie below 2^20, the links of the cluster network from there on, the
Dome ports, and the 64 slices of the die's Dome (R115, R136, R137). -/
def copyPortIn : Nat := 2 ^ 21
/-- The copy port's direction to the Dome. -/
def copyPortOut : Nat := 2 ^ 21 + 1
/-- Slice 0. -/
def sliceKey : Nat := 2 ^ 23
/-- The bytes that a slice gives in a cycle (R136). -/
def sliceRate : Nat := 256
/-- The place in R115's order of a class (1 matrix operand reads to 6 ld and st) on a core. -/
def usePrio (class_ c : Nat) : Nat := class_ * 2 ^ 17 + c

/-- Adds uses to a cluster. -/
def State.addUses (s : State) (cl : Nat) (l : List Use) : State := s.onCluster cl (fun n => { n with uses := n.uses ++ l })

/-- The uses of a cluster in this cycle; of a frozen cluster none, since its cycle has yet to come. -/
def State.usesNow (s : State) (cl : Nat) : List Use :=
  if s.frozen cl then [] else (s.cluster cl).uses.filter (fun u => u.at_ = (s.cluster cl).ccyc)

/-- The bytes that slice k of die g gives in this cycle to rows under contract (R137). -/
def State.sliceDue (s : State) (g k : Nat) : Nat :=
  (List.range 8).foldl (fun a i =>
    ((s.usesNow (8 * g + i)).filter (fun u => u.key = sliceKey + k)).foldl (fun a u => a + u.size) a) 0

/-- Whether the slices of the dies have room in this cycle for accesses that no contract times: die, slice and bytes. They yield to
rows under contract; one that needs more than a slice gives in a cycle begins alone (R136, R137). -/
def State.slicesRoom (s : State) (l : List (Nat × Nat × Nat)) : Bool :=
  l.all (fun e =>
    let used := tabGet 0 e.2.1 (s.die e.1).slices + s.sliceDue e.1 e.2.1
    used = 0 || decide (used + e.2.2 ≤ sliceRate))

/-- Counts bytes that slices give to accesses that no contract times. -/
def State.touchSlices (s : State) (l : List (Nat × Nat × Nat)) : State :=
  l.foldl (fun s e => s.onDie e.1 (fun d => { d with slices := tabPut e.2.1 (tabGet 0 e.2.1 d.slices + e.2.2) d.slices })) s

/-- A die whose Viaduct engine uses n bytes from a physical address in a reserved slice cycle: they take no other access's room (R36),
and their slices are not idle (R22). -/
def Die.reserveSlices (d : Die) (pa n : Nat) : Die :=
  { d with slices := (List.range (ceilDiv n 256)).foldl (fun t i =>
      let k := (pa / 256 + i) % 64
      tabPut k (tabGet 0 k t) t) d.slices }

/-- A die's slices at the end of a cycle: what is above their rate goes on in the next. -/
def Die.nextSlices (d : Die) : Tab Nat :=
  (d.slices.filter (fun e => decide (sliceRate < e.2))).map (fun e => (e.1, e.2 - sliceRate))

/-- Records accesses of a class to banks of core c in cycle t (R115). -/
def State.useBanks (s : State) (c t class_ : Nat) (banks : List Nat) : State :=
  s.addUses (clusterOf c) (banks.map (fun b => { at_ := t, key := c * 32 + b, prio := usePrio class_ c }))

/-- Whether a byte address lies in a bank whose format is TWC (R133). -/
def Core.twcAt (k : Core) (a : Nat) : Bool := bits (k.bfmtOf (a / 2 ^ 17)) 7 0 == 0x11

/-- The store bytes a core-store write on its way would leave, applied. -/
def applyBytes (st : Tab Byte) (p : Pend) : Tab Byte :=
  match p.tgt with
  | .bytes a n => writeBytes st a (bytesOfNat n p.val.toNat)
  | .lanes e l =>
    (l.zipIdx).foldl (fun st ai => writeBytes st ai.1 (bytesOfNat e (p.val.toNat / 2 ^ (8 * e * ai.2)))) st
  | _ => st

/-- The core store as cycle t reads it. -/
def Core.storeBy (k : Core) (t : Nat) : Tab Byte := (k.pend.filter (fun p => p.due ≤ t)).foldl applyBytes k.store

/-- The world of a core: true is secure (R79). -/
def Rom.secureCore (r : Rom) (c : Nat) : Bool := (tabGet (0 : Rec512) (dieOf c) r.header).getLsbD (320 + c % 64)

/-- Whether a core that is not secure would reach into a secure core: a unit of the other world (R79). -/
def Rom.coreSecret (r : Rom) (c other : Nat) : Bool := !r.secureCore c && r.secureCore other

/-- The local die that has a ring die number, if the module has it. -/
def State.localDie (s : State) (n : Nat) : Option Nat :=
  findFrom (fun g => (s.die g).rdie.toNat = n) 0 s.rom.variant.ndie

/-- Whether a virtual address of a die's pier window names a beat that the arriving segment has still to write (R38). -/
def Die.pierPending (d : Die) (va : Nat) : Bool :=
  let cap := bits (tabGet (0 : Word) 0x0210 d.win) 37 19
  let base := (tabGet (0 : Word) 0x0218 d.win).toNat
  if cap = 0 ∨ va < base ∨ base + 2 * cap * 2048 ≤ va then false
  else
    d.ring.insts.any (fun i =>
      let j := ((va - base) / 2048 + cap - i.first % cap) % cap
      decide (i.written ≤ j) && decide (j < i.beats))

/-- Whether ranges that a job reads name a beat that a pier has still to write: they overlap the card of its Viaduct engine at the
die that holds the pier (R38). -/
def State.pierClash (s : State) (l : List (Nat × Nat × Bool)) : Bool :=
  l.any (fun r =>
    !r.2.2 && r.1 / 2 ^ 62 == 0
      && (match s.localDie (bits (BitVec.ofNat 64 r.1) 61 52) with
          | none => false
          | some o =>
            (s.die o).pierPending r.2.1
              || (List.range ((r.2.1 - r.1) / 2048 + 1)).any (fun i => (s.die o).pierPending (r.1 + 2048 * i))))

/-- The card check of a job that starts now on die g: whether it passes, and the state in which jobs whose cards came in this
cycle and clash with it have faulted too (R38, R127, R129). -/
def State.checkCards (s : State) (g : Nat) (iss : Issuer) (l : List (Nat × Nat × Bool)) : State × Bool :=
  let x := (s.die g).cardClashes iss l
  ((x.filter (fun c => c.since = (s.die g).keyc)).foldl (fun s c => s.faultStarter c.issuer c.job) s,
    x.isEmpty && !s.pierClash l)

/-- The far spoke die of a die: the nearest surviving spoke die counter-clockwise (R60). -/
def State.farSpoke (s : State) (g : Nat) : Option Nat :=
  let n := s.rom.variant.ndie / 4
  ((List.range n).map (fun i => (g / 4 + n - i) % n * 4)).find? (fun d => !s.m.excluded.contains d && !s.rom.failed.contains d)

/-- The die whose TLB translates an address that a unit of die g names: its owner, or g's far spoke die (R139, R142). -/
def State.ownerDie (s : State) (g va : Nat) : Nat :=
  let v : Word := BitVec.ofNat 64 va
  match bits v 63 62 with
  | 0 => (s.localDie (bits v 61 52)).getD g
  | 1 => (s.farSpoke g).getD g
  | _ => g

/-- Where the fault of an access that a unit of die g made is delivered, and the die that raised it: the permission class goes to
the owner, what else the owner finds goes to die g, and everything else is die g's own (R151, R254, R255). -/
def State.faultPlace (s : State) (g : Nat) (f : FaultInfo) : Nat × FaultInfo :=
  let o := s.ownerDie g f.va
  if f.code.permClass then (o, f)
  else if f.code = .xlateMiss || f.code = .security then (g, { f with raiser := some o })
  else (g, f)

/-- The issue checks of a Dome address by gld, gst and atomics: the owner die, or the fault (R139, R141, R311). -/
def State.domeOwner (s : State) (va : Word) : Except FaultInfo Nat :=
  if bits va 63 62 != 0 then .error { code := .addr, va := va.toNat }
  else
    match s.localDie (bits va 61 52) with
    | none => .error { code := .addr, va := va.toNat }
    | some g => .ok g

/-- A die's clock with its own count raised by a remote write (R170). -/
def Die.tickClock (d : Die) (g : Nat) : Die := { d with vc := tabPut g ((tabGet 0 g d.vc + 1) % 2 ^ 32) d.vc }

/-- Whether a request writes at its owner. -/
def ReqOp.writes : ReqOp → Bool
  | .read _ _ => false
  | _ => true

/-- A new request of core c, put last among the requests. -/
def State.addReq (s : State) (c owner : Nat) (op : ReqOp) (va data cmp : Word) (clock : Tab Nat) (w : ReqAt) : State :=
  let r : Req :=
    { id := s.m.nextReq, src := dieOf c, owner := owner, core := c, ofRec := (s.core c).running, op := op, va := va,
      data := data, cmp := cmp, clock := clock, at_ := w }
  { s with m := { s.m with reqs := s.m.reqs ++ [r], nextReq := s.m.nextReq + 1 } }

/-- The die's clock when a message leaves for another owner: a write raises VC[self] first (R170). -/
def State.leave (s : State) (g owner : Nat) (writes : Bool) : State :=
  if owner != g && writes then s.onDie g (·.tickClock g) else s

/-- Sends an ordinary access to its owner with the die's clock (R138, R170). For an excluded owner nothing is sent and RING,
cause EXCLUDED, is raised against the record (R55, R141). -/
def State.send (s : State) (c owner : Nat) (op : ReqOp) (va data cmp : Word) : State :=
  let g := dieOf c
  if s.m.excluded.contains owner then
    s.raiseFor g c (s.core c).running { code := .ring, cause := 6, va := va.toNat, kind := 4 } none none 0
  else
    let s := s.leave g owner op.writes
    s.addReq c owner op va data cmp (if owner != g then (s.die g).vc else []) .sent

/-- The contract of a reply (R138). -/
def contractOf (local_ atomic : Bool) : Nat := if !local_ then 528 else if atomic then 96 else 80

/-- The 64 KiB unit of an address. -/
def pageOf (va : Word) : Nat := va.toNat / 2 ^ 16
/-- Whether a side-log entry's page holds a 64 KiB unit (R142, R153). -/
def SideEntry.holds (e : SideEntry) (page : Nat) : Bool := if e.big then e.page / 32 == page / 32 else e.page == page

/-- Issues an access to its owner, or into the side log when the log holds its page (R153); ret: a reply entry is
reserved. -/
def State.sendOrLog (s : State) (c owner : Nat) (op : ReqOp) (va data cmp : Word) (ret atomic : Bool) : Res :=
  let k := s.core c
  match k.sideLog.find? (·.holds (pageOf va)) with
  | some e =>
    if 16 ≤ k.sideLog.length then .wait .sideLogRoom
    else
      let id := s.m.nextReq
      let s := s.addReq c owner op va data cmp [] .logged
      let s := s.onCore c (fun k => { k with sideLog := k.sideLog ++ [⟨e.page, id, false, e.big, 0⟩] })
      .done (if ret then s.onCore c (·.push .reply ⟨0, .held id⟩) else s) .next
  | none =>
    let id := s.m.nextReq
    let due := s.ccyc c + contractOf (owner == dieOf c) atomic
    let s := s.send c owner op va data cmp
    .done (if ret then s.onCore c (·.push .reply ⟨0, .awaiting due id⟩) else s) .next

end Sys2Proof.Machine
end

