-- ==== Sys2Proof/Machine/Access.lean ====
section
/-! DEFINITION. Core-store loads and stores, row operations, Dome accesses and atomics, descriptors (R304 to R314, R322 to
R327). -/

namespace Sys2Proof.Machine

/-- The bytes of an access size code (R304). -/
def sizeOf3 (z : BitVec 3) : Nat := 2 ^ (z.toNat % 4)

/-- A loaded value extended by its code: 0 to 3 signed, 4 to 6 unsigned (R304, R310). -/
def extend (z : BitVec 3) (x : Nat) : Word :=
  if z.toNat < 4 then BitVec.ofInt 64 (signed (8 * sizeOf3 z) x) else BitVec.ofNat 64 x

/-- The address of a load or store: base plus a signed count of elements (R304). -/
def elemAddr (base : Word) (i : BitVec 9) (size : Nat) : Word := base + i.signExtend 64 * BitVec.ofNat 64 size

/-- The checks of a core-store access: ADDR, then ALIGN (R131, R250, R304). -/
def storeFault (a : Word) (size : Nat) : Option FaultCode :=
  if 2 ^ 21 ≤ a.toNat then some .addr else if a.toNat % size ≠ 0 then some .align else none

/-- The checks of a row or index-row address: ADDR, then ALIGN when it is no multiple of 64 or leaves its bank (R307). -/
def rowFault (a : Word) : Option FaultCode :=
  if 2 ^ 21 ≤ a.toNat then some .addr
  else if a.toNat % 64 ≠ 0 ∨ a.toNat / 2 ^ 17 ≠ (a.toNat + 1023) / 2 ^ 17 then some .align
  else none

/-- An access of core c has read ranges of its stores: a word with an uncorrectable error raises ECC_UNCORRECTABLE against
its record (R21, R249). -/
def State.eccRead (s : State) (c : Nat) (rs : List Range) : State :=
  match rs.findSome? (fun r =>
      if r.write then none
      else if r.acc then (s.core c).eccIn c true (1024 * r.lo) (1024 * r.hi + 1023) else (s.core c).eccIn c false r.lo r.hi) with
  | none => s
  | some e =>
    s.raiseFor (dieOf c) c (s.core c).running { code := .eccUncorrectable, cause := e, acc := 1, kind := 4 } none none 0

/-- The FOOTPRINT of a sequencer access with ranges that conflicts: the address and kind of the first of them that does (R127,
R254). -/
def State.footprintOf (s : State) (c : Nat) (rs : List Range) : FaultInfo :=
  match rs.find? (fun r => !((s.core c).conflicts .seqA [r] (s.ccyc c)).isEmpty) with
  | none => { code := .footprint }
  | some r => { code := .footprint, va := r.lo, acc := if r.write then 2 else 1 }

/-- A sequencer access to core store: footprint check with the ranges active through cycle last, and its bank uses; the
first range is what it reads or writes whole; class_: its class in the order of R115. -/
def accessStore (s orig : State) (c class_ last : Nat) (rs : List Range) (banks : List (Nat × Nat)) (k : State → Res) : Res :=
  let r := orig.checkFps c .seqA rs
  if r.2 then
    let s := s.eccRead c (rs.take 1)
    let s := s.onCore c (·.addFps .seqA 0 rs (s.ccyc c) (some last))
    k (banks.foldl (fun s b => s.useBanks c b.1 class_ [b.2]) s)
  else .faultAt r.1 (orig.footprintOf c rs)

/-- A range of core-store bytes. -/
def bytesAt (a n : Nat) (w : Bool) : Range := { acc := false, lo := a, hi := a + n - 1, write := w }

/-- ld (R304, R305). -/
def execLd (g : BitVec 4) (d a : BitVec 5) (z : BitVec 3) (i : BitVec 9) (o : State) : Out :=
  issue (.ld g d a z i) { srcs := [a], dst := some d, lat := 4 }
    (fun q v s =>
      let n := sizeOf3 z
      let addr := elemAddr (v.x 0) i n
      match storeFault addr n with
      | some f => .fault { code := f, va := addr.toNat, acc := 1 }
      | none =>
        let now := s.ccyc q.core
        accessStore s o q.core 6 (now + 3) [bytesAt addr.toNat n false] [(now, addr.toNat / 2 ^ 17)] (fun t =>
          .done (t.writeS q d 4 (extend z (readNat (t.core q.core).store addr.toNat n))) .next)) o

/-- st (R304, R305): the bytes are written at the end of the issue cycle. -/
def execSt (g : BitVec 4) (d a : BitVec 5) (z : BitVec 3) (i : BitVec 9) (o : State) : Out :=
  issue (.st g d a z i) { srcs := [d, a] }
    (fun q v s =>
      let n := sizeOf3 z
      let addr := elemAddr (v.x 1) i n
      match storeFault addr n with
      | some f => .fault { code := f, va := addr.toNat, acc := 2 }
      | none =>
        if (s.core q.core).twcAt addr.toNat then .fault { code := .formatStore, va := addr.toNat, acc := 2 }
        else
          let now := s.ccyc q.core
          accessStore s o q.core 6 now [bytesAt addr.toNat n true] [(now, addr.toNat / 2 ^ 17)] (fun t =>
            .done (t.onCore q.core (fun k => k.putNat addr.toNat n (v.x 0).toNat)) .next)) o

/-- The row address of lqr and sqw: base plus a register, or plus an immediate count of 64-byte units (R306). -/
def rowAddr (v : Vals) (b : BitVec 5) (x : BitVec 1) : Word :=
  if x = 1 then v.x 0 + b.setWidth 64 * 64 else v.x 0 + v.x 1

/-- The scalar sources of lqr and sqw. -/
def rowSrcs (a b : BitVec 5) (x : BitVec 1) : List (BitVec 5) := if x = 1 then [a] else [a, b]

/-- lqr: reads a row and pushes it; it is in the queue at issue + 6 (R307, R309). -/
def execLqr (g : BitVec 4) (n : BitVec 2) (a b : BitVec 5) (x : BitVec 1) (o : State) : Out :=
  issue (.lqr g n a b x) { srcs := rowSrcs a b x, pushes := [.lq n], lat := 6 }
    (fun q v s =>
      let addr := rowAddr v b x
      match rowFault addr with
      | some f => .fault { code := f, va := addr.toNat, acc := 1 }
      | none =>
        let now := s.ccyc q.core
        accessStore s o q.core 5 (now + 6) [bytesAt addr.toNat 1024 false] [(now, addr.toNat / 2 ^ 17)] (fun t =>
          .done (t.pushLater q.core (.lq n) 6 (readRow (t.core q.core).store addr.toNat)) .next)) o

/-- lqz: pushes a zero row, written at issue + 1 (R307, R309). -/
def execLqz (g : BitVec 4) (n : BitVec 2) : State → Out :=
  issue (.lqz g n) { pushes := [.lq n] } (fun q _ s => .done (s.pushLater q.core (.lq n) 1 0) .next)

/-- sqw: pops sqN and writes the row 2 cycles later (R307, R309). -/
def execSqw (g : BitVec 4) (n : BitVec 1) (a b : BitVec 5) (x : BitVec 1) (o : State) : Out :=
  issue (.sqw g n a b x) { srcs := rowSrcs a b x, pops := [.sq n] }
    (fun q v s =>
      let addr := rowAddr v b x
      match rowFault addr with
      | some f => .fault { code := f, va := addr.toNat, acc := 2 }
      | none =>
        if (s.core q.core).twcAt addr.toNat then .fault { code := .formatStore, va := addr.toNat, acc := 2 }
        else
          let now := s.ccyc q.core
          accessStore s o q.core 5 (now + 2) [bytesAt addr.toNat 1024 true] [(now + 2, addr.toNat / 2 ^ 17)] (fun t =>
            .done (t.later q.core 3 (.bytes addr.toNat 1024) ((o.core q.core).head (.sq n))) .next)) o

/-- The n element addresses of a gather or scatter: base plus shifted index lanes (R308). -/
def laneAddrs (base : Nat) (idx : Nat) (ib sc : Nat) : Nat → List Nat
  | 0 => []
  | n + 1 => (base + idx % 2 ^ ib * 2 ^ sc) :: laneAddrs base (idx / 2 ^ ib) ib sc n

/-- The accesses of lanes: one for each bank and 1 KiB window, as the banks they use (R309). -/
def laneBanks (l : List Nat) : List Nat := ((l.map (· / 1024)).foldr List.insert []).map (· / 128)

/-- The bounding range of lanes of e bytes. -/
def laneRange (l : List Nat) (e : Nat) (w : Bool) : Range :=
  { acc := false, lo := l.foldl min (2 ^ 21), hi := l.foldl max 0 + e - 1, write := w }

/-- Lane element bytes: 4 for .w, 2 for .h (R306). -/
def laneBytes (e : BitVec 1) : Nat := if e = 1 then 4 else 2

/-- The lanes of a gather or scatter, or the fault its checks raise, with the address of the first lane that has one; acc: what
the lanes do (R254, R307, R308). -/
def laneCheck (k : Core) (v : Vals) (e : BitVec 1) (c : BitVec 2) (acc : Nat) : Except FaultInfo (List Nat) :=
  match rowFault (v.x 1) with
  | some f => .error { code := f, va := (v.x 1).toNat, acc := 1 }
  | none =>
    let eb := laneBytes e
    let l := laneAddrs (v.x 0).toNat (readNat k.store (v.x 1).toNat 1024) (8 * eb) c.toNat (1024 / eb)
    match l.find? (fun a => decide (2 ^ 21 ≤ a)), l.find? (fun a => decide (a % eb ≠ 0)) with
    | some a, _ => .error { code := .addr, va := a, acc := acc }
    | none, some a => .error { code := .align, va := a, acc := acc }
    | none, none => .ok l

/-- Lane values joined into a row, lane 0 lowest. -/
def joinLanes (eb : Nat) : List Nat → Nat
  | [] => 0
  | x :: r => x % 2 ^ (8 * eb) + 2 ^ (8 * eb) * joinLanes eb r

/-- lqg: gathers one row, in the queue at issue + 10 (R308, R309). -/
def execLqg (g : BitVec 4) (n : BitVec 2) (a b : BitVec 5) (e : BitVec 1) (c : BitVec 2) (o : State) : Out :=
  issue (.lqg g n a b e c) { srcs := [a, b], pushes := [.lq n], lat := 10 }
    (fun q v s =>
      match laneCheck (s.core q.core) v e c 1 with
      | .error f => .fault f
      | .ok l =>
        let now := s.ccyc q.core
        let eb := laneBytes e
        accessStore s o q.core 5 (now + 10) [bytesAt (v.x 1).toNat 1024 false, laneRange l eb false]
          ((now, (v.x 1).toNat / 2 ^ 17) :: (laneBanks l).map (fun b => (now + 1, b))) (fun t =>
            let st := (t.core q.core).storeBy (now + 1)
            .done ((t.eccRead q.core (l.map (fun a => bytesAt a eb false))).pushLater q.core (.lq n) 10
              (BitVec.ofNat 8192 (joinLanes eb (l.map (fun a => readNat st a eb))))) .next)) o

/-- sqs: pops sqN and scatters its lanes at issue + 2, the highest lane last (R308, R309). -/
def execSqs (g : BitVec 4) (n : BitVec 1) (a b : BitVec 5) (e : BitVec 1) (c : BitVec 2) (o : State) : Out :=
  issue (.sqs g n a b e c) { srcs := [a, b], pops := [.sq n] }
    (fun q v s =>
      let k := s.core q.core
      match laneCheck k v e c 2 with
      | .error f => .fault f
      | .ok l =>
        if l.any k.twcAt then .fault { code := .formatStore, va := (l.find? k.twcAt).getD 0, acc := 2 }
        else
          let now := s.ccyc q.core
          let eb := laneBytes e
          accessStore s o q.core 5 (now + 2) [bytesAt (v.x 1).toNat 1024 false, laneRange l eb true]
            ((now, (v.x 1).toNat / 2 ^ 17) :: (laneBanks l).map (fun b => (now + 2, b))) (fun t =>
              .done (t.later q.core 3 (.lanes eb l) ((o.core q.core).head (.sq n))) .next)) o

/-- The address of gld and gst: base plus an unsigned count of elements (R311). -/
def domeAddr (base : Word) (b : BitVec 5) (size : Nat) : Word := base + BitVec.ofNat 64 (size * b.toNat)

/-- A Dome access at its issue: owner and alignment checks, then on its way (R139, R141, R153, R311). -/
def domeAccess (s : State) (c : Nat) (va : Word) (size : Nat) (op : ReqOp) (data cmp : Word) (ret atomic : Bool)
    (acc : Nat) : Res :=
  match s.domeOwner va with
  | .error f => .fault { f with acc := acc }
  | .ok g =>
    if va.toNat % size ≠ 0 then .fault { code := .align, va := va.toNat, acc := acc }
    else s.sendOrLog c g op va data cmp ret atomic

/-- A guard-false access that returns reserves a reply entry written as zero in its issue cycle (R312). -/
def zeroReply (q : SeqId) (s : State) : Res :=
  .done (s.onCore q.core (·.push .reply ⟨0, .written⟩)) .next

/-- gld: reserves a reply entry and sends a read (R311, R312). -/
def execGld (g : BitVec 4) (a b : BitVec 5) (z : BitVec 3) : State → Out :=
  issueWith (.gld g a b z) { srcs := [a], pushes := [.reply] } zeroReply
    (fun q v s =>
      domeAccess s q.core (domeAddr (v.x 0) b (sizeOf3 z)) (sizeOf3 z) (.read (sizeOf3 z) (decide (z.toNat < 4))) 0 0
        true false 1)

/-- gst: sends a write (R311). -/
def execGst (g : BitVec 4) (d a b : BitVec 5) (z : BitVec 2) : State → Out :=
  issue (.gst g d a b z) { srcs := [d, a] }
    (fun q v s =>
      domeAccess s q.core (domeAddr (v.x 1) b (2 ^ z.toNat)) (2 ^ z.toNat) (.write (2 ^ z.toNat)) (v.x 0) 0 false false 2)

/-- gpop: pops the reply queue into sd; an explicit wait in every case, so the sequencer leaves its group (R120, R311). -/
def execGpop (g : BitVec 4) (d : BitVec 5) (o : State) : Out :=
  issueWith (.gpop g d) { dst := some d, pops := [.reply] }
    (fun q s => pushesZero { dst := some d } q (s.leaveGroup q))
    (fun q _ s => .done ((s.leaveGroup q).writeS q d 1 (((o.core q.core).head .reply).truncate 64)) .next) o

/-- gcnt: sd := the number of reserved reply entries (R311). -/
def execGcnt (g : BitVec 4) (d : BitVec 5) : State → Out :=
  issue (.gcnt g d) { dst := some d }
    (fun q _ s => .done (s.writeS q d 1 (BitVec.ofNat 64 ((s.core q.core).queue .reply).length)) .next)

/-- The bytes of an atomic's type code (R314). -/
def amoBytes (ty : Nat) : Nat := if ty = 1 ∨ ty = 3 then 8 else 4

/-- An atomic at its issue (R314): the address checks, then DETERMINISM for what DET = 1 forbids. -/
def amoAccess (s : State) (c : Nat) (va : Word) (ret : Bool) (op ty : Nat) (data cmp : Word) : Res :=
  match s.domeOwner va with
  | .error f => .fault { f with acc := if ret then 3 else 4 }
  | .ok g =>
    if va.toNat % amoBytes ty ≠ 0 then .fault { code := .align, va := va.toNat, acc := if ret then 3 else 4 }
    else if (s.core c).detmode.getLsbD 0 && (ret || ty == 4) then
      .fault { code := .determinism, va := va.toNat, acc := if ret then 3 else 4 }
    else s.sendOrLog c g (.amo ret op ty) va data cmp ret true

/-- A returning integer atomic (R313, R314). -/
def execAmoReturning (g : BitVec 4) (a b : BitVec 5) (o : BitVec 3) (t : BitVec 2) : State → Out :=
  issueWith (.amoReturning g a b o t) { srcs := [a, b], pushes := [.reply] } zeroReply
    (fun q v s => amoAccess s q.core (v.x 0) true o.toNat t.toNat (v.x 1) 0)

/-- amo.xchg (R313, R314). -/
def execAmoXchg (g : BitVec 4) (a b : BitVec 5) (t : BitVec 2) : State → Out :=
  issueWith (.amoXchg g a b t) { srcs := [a, b], pushes := [.reply] } zeroReply
    (fun q v s => amoAccess s q.core (v.x 0) true 6 t.toNat (v.x 1) 0)

/-- amo.cas: sd is the compare value (R313, R314). -/
def execAmoCas (g : BitVec 4) (d a b : BitVec 5) (t : BitVec 2) : State → Out :=
  issueWith (.amoCas g d a b t) { srcs := [d, a, b], pushes := [.reply] } zeroReply
    (fun q v s => amoAccess s q.core (v.x 1) true 7 t.toNat (v.x 2) (v.x 0))

/-- An integer reduction (R313, R314). -/
def execAmoReduction (g : BitVec 4) (a b : BitVec 5) (o : BitVec 3) (t : BitVec 2) : State → Out :=
  issue (.amoReduction g a b o t) { srcs := [a, b] }
    (fun q v s => amoAccess s q.core (v.x 0) false o.toNat t.toNat (v.x 1) 0)

/-- An FP32 reduction (R313, R314). -/
def execAmoF32Reduction (g : BitVec 4) (a b : BitVec 5) (o : BitVec 3) : State → Out :=
  issue (.amoF32Reduction g a b o) { srcs := [a, b] }
    (fun q v s => amoAccess s q.core (v.x 0) false o.toNat 4 (v.x 1) 0)

/-- The checks of a descriptor's core-store address (R326). -/
def descAddrFault (a : Word) : Option FaultCode :=
  if 2 ^ 21 ≤ a.toNat then some .addr else if a.toNat % 64 ≠ 0 then some .align else none

/-- dld: dN := 64 bytes, new for reads issued at issue + 4 (R326). -/
def execDld (g : BitVec 4) (d : BitVec 4) (a : BitVec 5) (o : State) : Out :=
  issue (.dld g d a) { srcs := [a] }
    (fun q v s =>
      match descAddrFault (v.x 0) with
      | some f => .fault { code := f, va := (v.x 0).toNat, acc := 1 }
      | none =>
        let now := s.ccyc q.core
        let a := (v.x 0).toNat
        accessStore s o q.core 6 (now + 3) [bytesAt a 64 false] [(now, a / 2 ^ 17)] (fun t =>
          .done (t.later q.core 4 (.desc d.toNat (BitVec.allOnes 512))
            (BitVec.ofNat 8192 (readNat (t.core q.core).store a 64))) .next)) o

/-- dst: stores dN at 64 bytes (R326). -/
def execDst (g : BitVec 4) (d : BitVec 4) (a : BitVec 5) (o : State) : Out :=
  issue (.dst g d a) { srcs := [a] }
    (fun q v s =>
      match descAddrFault (v.x 0) with
      | some f => .fault { code := f, va := (v.x 0).toNat, acc := 2 }
      | none =>
        let a := (v.x 0).toNat
        if (s.core q.core).twcAt a then .fault { code := .formatStore, va := a, acc := 2 }
        else
          let now := s.ccyc q.core
          accessStore s o q.core 6 now [bytesAt a 64 true] [(now, a / 2 ^ 17)] (fun t =>
            .done (t.onCore q.core (fun k => k.putNat a 64 (k.descr d).toNat)) .next)) o

/-- The bit position, width and signedness of a dmod field; 18 is BASEADD (R326). -/
def descField (f : Nat) : Nat × Nat × Bool :=
  match f with
  | 0 => (0, 8, false) | 1 => (8, 8, false) | 2 => (16, 8, false) | 3 => (24, 8, false) | 4 => (32, 32, false)
  | 5 | 18 => (64, 64, false)
  | 6 => (128, 16, false) | 7 => (144, 16, false) | 8 => (160, 16, false) | 9 => (176, 16, false)
  | 10 => (192, 32, true) | 11 => (224, 32, true) | 12 => (256, 32, true) | 13 => (288, 32, true)
  | 14 => (320, 64, false) | 15 => (384, 64, false) | 16 => (448, 32, true) | _ => (480, 32, false)

/-- Whether a value fits a field (R326). -/
def descFits (v : Word) (w : Nat) (sgn : Bool) : Bool :=
  if sgn then decide (-(2 ^ (w - 1) : Int) ≤ v.toInt) && decide (v.toInt < 2 ^ (w - 1)) else decide (v.toNat < 2 ^ w)

/-- dmod: one field of dN := S(s); BASEADD adds to BASE (R326). -/
def execDmod (g : BitVec 4) (d : BitVec 4) (a : BitVec 5) (f : BitVec 6) : State → Out :=
  issue (.dmod g d a f) { srcs := [a] }
    (fun q v s =>
      let fl := descField f.toNat
      if descFits (v.x 0) fl.2.1 fl.2.2 then
        let x := if f = 18 then v.x 0 + BitVec.ofNat 64 (bits ((s.core q.core).descr d) 127 64) else v.x 0
        let mask : Rec512 := BitVec.ofNat 512 ((2 ^ fl.2.1 - 1) * 2 ^ fl.1)
        .done (s.later q.core 1 (.desc d.toNat mask) (BitVec.ofNat 8192 (x.toNat * 2 ^ fl.1))) .next
      else .fault { code := .descriptor })

end Sys2Proof.Machine
end

