-- ==== Sys2Proof/Machine/Sync.lean ====
section
/-! DEFINITION. Fences, stage counters, engine and queue waits, csync and cluster messages (R122, R125, R164, R174, R303,
R315 to R321). -/

namespace Sys2Proof.Machine

/-- Whether every earlier returning access of a core has its reply-queue entry written (R164). -/
def Core.repliesWritten (k : Core) : Bool := (k.queue .reply).all (·.isWritten)

/-- Whether the earlier ordinary accesses of core c are complete: at module scope all are performed; at smaller scopes
those owned by the issuing die, the others having left it (R164); and its side log is empty (R155). -/
def State.fenceDone (s : State) (c : Nat) (module : Bool) : Bool :=
  let k := s.core c
  k.sideLog.isEmpty && k.repliesWritten && !s.m.reqs.any (fun r => r.core = c && (module || r.owner = dieOf c))

/-- A fence (R315): in the A stream an explicit wait; in the X stream it orders nothing. -/
def fence (i : Instr) (w : WaitCond) (module : Bool) : State → Out :=
  issue i {}
    (fun q _ s =>
      if q.side = .x then .done s .next
      else if s.fenceDone q.core module then .done (s.leaveGroup q) .next
      else .wait w)

/-- fence.core (R164). -/
def execFenceCore (g : BitVec 4) : State → Out := fence (.fenceCore g) (.fence 0) false
/-- fence.cluster (R164). -/
def execFenceCluster (g : BitVec 4) : State → Out := fence (.fenceCluster g) (.fence 1) false
/-- fence.die (R164). -/
def execFenceDie (g : BitVec 4) : State → Out := fence (.fenceDie g) (.fence 2) false
/-- fence.module (R164). -/
def execFenceModule (g : BitVec 4) : State → Out := fence (.fenceModule g) (.fence 3) true
/-- fence.x (R174): module scope for the earlier accesses; engine writes are performed before their completion (R173). -/
def execFenceX (g : BitVec 4) (m : BitVec 8) : State → Out := fence (.fenceX g m) (.fenceX m) true

/-- An explicit wait that holds or waits; it leaves the anchor group either way (R120). -/
def explicitWait (i : Instr) (o : Operands) (ok : SeqId → Vals → State → Bool) (w : SeqId → Vals → WaitCond) :
    State → Out :=
  issue i o (fun q v s => if ok q v s then .done (s.leaveGroup q) .next else .wait (w q v))

/-- kwait (R316). -/
def execKwait (g : BitVec 4) (a : BitVec 5) (k : BitVec 4) : State → Out :=
  explicitWait (.kwait g a k) { srcs := [a] }
    (fun q v s => decide ((v.x 0).toNat ≤ ((s.core q.core).counter k.toNat).toNat)) (fun _ v => .counter k.toNat (v.x 0))

/-- ktest (R316). -/
def execKtest (g : BitVec 4) (a : BitVec 5) (k : BitVec 4) (p : BitVec 3) : State → Out :=
  issue (.ktest g a k p) { srcs := [a] }
    (fun q v s =>
      .done (s.writeP q p 1 (decide ((v.x 0).toNat ≤ ((s.core q.core).counter k.toNat).toNat))) .next)

/-- kget (R316). -/
def execKget (g : BitVec 4) (d : BitVec 5) (k : BitVec 4) : State → Out :=
  issue (.kget g d k) { dst := some d } (fun q _ s => .done (s.writeS q d 1 ((s.core q.core).counter k.toNat)) .next)

/-- kadd and kset: post a local counter for the next cycle, or a shared counter of a core of the logical cluster for
issue + 4 (R317). The ILLEGAL of a remote form stands in State.wordCheck (R250); a core that is not secure may not post to one
that is (R79). -/
def postCounter (i : Instr) (a : BitVec 5) (rem : BitVec 1) (c : BitVec 3) (t : Nat → Target) : State → Out :=
  issue i { srcs := [a] }
    (fun q v s =>
      if rem = 0 then .done (s.later q.core 1 (t (s.pcore q.core)) ((v.x 0).setWidth 8192)) .next
      else
        match s.remoteCore q.core c.toNat with
        | none => .fault { code := .illegal }
        | some p =>
          if s.rom.coreSecret q.core p then .fault { code := .security } else .done (s.later p 4 (t (s.pcore q.core)) ((v.x 0).setWidth 8192)) .next)

/-- kadd (R316, R317). -/
def execKadd (g : BitVec 4) (a : BitVec 5) (k : BitVec 4) (r : BitVec 1) (c : BitVec 3) : State → Out :=
  postCounter (.kadd g a k r c) a r c (fun _ => .kadd k.toNat)
/-- kset (R316, R317). -/
def execKset (g : BitVec 4) (a : BitVec 5) (k : BitVec 4) (r : BitVec 1) (c : BitVec 3) : State → Out :=
  postCounter (.kset g a k r c) a r c (fun by_ => .kset k.toNat by_)

/-- ewait (R318). -/
def execEwait (g : BitVec 4) (a : BitVec 5) (e : BitVec 3) : State → Out :=
  explicitWait (.ewait g a e) { srcs := [a] }
    (fun q v s => decide ((v.x 0).toNat ≤ ((s.core q.core).doneNo e.toNat).toNat))
    (fun _ v => .engineDone e.toNat (v.x 0))

/-- eseq (R318). -/
def execEseq (g : BitVec 4) (d : BitVec 5) (e : BitVec 3) : State → Out :=
  issue (.eseq g d e) { dst := some d } (fun q _ s => .done (s.writeS q d 1 ((s.core q.core).issueNo e.toNat)) .next)

/-- The queue a qwait code names for a side, and whether that side pops it (R319). -/
def qwaitQueue (sd : Side) (c : Nat) : QName × Bool :=
  match c with
  | 0 | 1 | 2 | 3 => (.lq (BitVec.ofNat 2 c), sd = .x)
  | 4 | 5 => (.sq (BitVec.ofNat 1 (c - 4)), sd = .a)
  | 6 => (sd.qin, true)
  | 7 => (sd.qout, false)
  | 8 => (sd.bin, true)
  | 9 => (sd.bout, false)
  | _ => (.reply, true)

/-- Whether the n entries nearest the head of a queue are written (R319). -/
def Core.headWritten (k : Core) (q : QName) (n : Nat) : Bool :=
  decide (n ≤ (k.queue q).length) && ((k.queue q).take n).all (·.isWritten)

/-- qwait (R319). -/
def execQwait (g : BitVec 4) (a : BitVec 5) (c : BitVec 4) : State → Out :=
  explicitWait (.qwait g a c) { srcs := [a] }
    (fun q v s =>
      let k := s.core q.core
      let qw := qwaitQueue q.side c.toNat
      let n := min (v.x 0).toNat qw.1.depth
      if qw.2 then k.headWritten qw.1 n else decide (n ≤ qw.1.depth - (k.queue qw.1).length))
    (fun q v =>
      let qw := qwaitQueue q.side c.toNat
      let n := min (v.x 0).toNat qw.1.depth
      if qw.2 then .qPop qw.1 n else .qFree qw.1 n)

/-- The sequencers a csync mask names: bit 2c is A and bit 2c + 1 is X of logical core c; none if a logical core is not
bound (R303). -/
def State.csyncSet (s : State) (core : Nat) (m : BitVec 16) : Option (List SeqId) :=
  (List.range 16).foldr
    (fun i acc =>
      if m.getLsbD i then
        (s.peerCore core (i / 2)).bind (fun p => acc.map (⟨p, if i % 2 = 0 then .a else .x⟩ :: ·))
      else acc) (some [])

/-- The sequencer's csync has completed in this cycle: its next word issues 2 cycles later, in group n (R122). -/
def Seq.synced (q : Seq) (now n : Nat) : Seq :=
  { (q.advance now .next) with nextIssue := now + 2, group := n, wait := none }

/-- csync (R122, R303): completes when every participant has issued a csync naming the same set. -/
def execCsync (g : BitVec 4) (m : BitVec 16) : State → Out :=
  issue (.csync g m) {}
    (fun q _ s =>
      match s.csyncSet q.core m with
      | none => .fault { code := .timing }
      | some l =>
        let cl := clusterOf q.core
        let waiting : List (SeqId × BitVec 16) :=
          (List.range 16).filterMap (fun i =>
            let p : SeqId := ⟨cl * 8 + i / 2, if i % 2 = 0 then .a else .x⟩
            match (s.seq p).wait with
            | some (.csync m') => some (p, m')
            | _ => none)
        let same (pm : SeqId × BitVec 16) : Bool :=
          match s.csyncSet pm.1.core pm.2 with
          | some l' => l'.all l.contains && l.all l'.contains
          | none => false
        if !l.contains q then .fault { code := .timing }
        else if waiting.any (fun pm => ((s.csyncSet pm.1.core pm.2).getD []).contains q && !same pm) then
          .fault { code := .timing }
        else if l.all (fun p => p == q || waiting.any (fun pm => pm.1 == p && same pm)) then
          let n := (s.cluster cl).nextGroup
          let now := s.ccyc q.core
          let s := s.onCluster cl (fun c => { c with nextGroup := n + 1 })
          .done (l.foldl (fun s p => s.onSeq p (·.synced now n)) s) .keep
        else .wait (.csync m))

/-- The hops from one core of a cluster to another and the link keys in order: the shorter way, clockwise at 4 (R125). -/
def ringHops (a b : Nat) : List Nat :=
  let d := (b % 8 + 8 - a % 8) % 8
  if d ≤ 4 then (List.range d).map (fun j => 2 ^ 20 + (a % 8 + j) % 8 * 2)
  else (List.range (8 - d)).map (fun j => 2 ^ 20 + (a % 8 + 8 - j) % 8 * 2 + 1)

/-- Whether two cores' A sequencers are in one anchor group (R125). -/
def State.anchored (s : State) (a b : Nat) : Bool :=
  clusterOf a == clusterOf b && (s.core a).a.group == (s.core b).a.group

/-- Sends a cluster message (R321): it takes the link of hop j at c + 2j and arrives at c + 2 + 2h. -/
def sendMsg (s : State) (src dst : Nat) (isRow : Bool) (v : Row) : State :=
  let now := s.ccyc src
  let hops := ringHops src dst
  s.onCluster (clusterOf src) (fun c =>
    { c with
      msgs := c.msgs ++ [⟨src, dst, now + 2 + 2 * hops.length, isRow, v, false⟩]
      uses := c.uses ++ hops.zipIdx.map (fun kj => { at_ := now + 2 * (kj.2 + 1), key := kj.1, prio := usePrio 5 src }) })

/-- csend with its data found, or the TIMING of an unanchored or own peer (R125, R321); a core that is not secure may not send to
one that is (R79). -/
def csendTo (q : SeqId) (p : BitVec 3) (isRow : Bool) (v : Row) (s : State) : Res :=
  if s.ownLogical q.core = some p.toNat then .fault { code := .timing }
  else
    match s.peerCore q.core p.toNat with
    | none => .fault { code := .timing }
    | some d =>
      if !s.anchored q.core d then .fault { code := .timing }
      else if s.rom.coreSecret q.core d then .fault { code := .security }
      else .done (sendMsg s q.core d isRow v) .next

/-- A guard-false csend: a zero message, or nothing where a true one raises TIMING, which a false guard does not (R250,
R321). -/
def csendFalse (p : BitVec 3) (isRow : Bool) (q : SeqId) (s : State) : Res :=
  match csendTo q p isRow 0 s with
  | .fault _ => .done s .next
  | r => r

/-- csend.s (R320, R321); guard-false it sends a zero message. -/
def execCsendS (g : BitVec 4) (a : BitVec 5) (p : BitVec 3) : State → Out :=
  issueWith (.csendS g a p) { srcs := [a] } (csendFalse p false)
    (fun q v s => csendTo q p false ((v.x 0).setWidth 8192) s)

/-- csend.row (R320, R321): reads the row in its issue cycle; guard-false it sends a zero message. -/
def execCsendRow (g : BitVec 4) (a : BitVec 5) (p : BitVec 3) (o : State) : Out :=
  issueWith (.csendRow g a p) { srcs := [a] } (csendFalse p true)
    (fun q v s =>
      match rowFault (v.x 0) with
      | some f => .fault { code := f, va := (v.x 0).toNat, acc := 1 }
      | none =>
        let a := (v.x 0).toNat
        match csendTo q p true (readRow (s.core q.core).store a) s with
        | .done _ _ =>
          let now := s.ccyc q.core
          accessStore s o q.core 5 now [bytesAt a 1024 false] [(now, a / 2 ^ 17)]
            (csendTo q p true (readRow (s.core q.core).store a))
        | r => r) o

/-- The messages that arrive at a core in this cycle. -/
def State.arrivals (s : State) (c : Nat) : List CMsg :=
  (s.cluster (clusterOf c)).msgs.filter (fun m => m.dst = c && m.here && m.arrives = s.ccyc c)

/-- The state without the messages that arrive at a core in this cycle. -/
def State.clearArrivals (s : State) (c : Nat) : State :=
  s.onCluster (clusterOf c) (fun n =>
    { n with msgs := n.msgs.filter (fun m => !(m.dst = c && m.here && m.arrives = s.ccyc c)) })

/-- crecv (R321): takes the message of the named peer and kind that arrives in this cycle; others that arrive with it are
discarded with TIMING. orig is the state a fault leaves. -/
def crecvFrom (q : SeqId) (p : BitVec 3) (isRow : Bool) (orig s : State) (k : Row → State → Res) : Res :=
  match s.peerCore q.core p.toNat with
  | none => .fault { code := .timing }
  | some src =>
    if s.ownLogical q.core = some p.toNat || !s.anchored q.core src then .fault { code := .timing }
    else
      let l := s.arrivals q.core
      match l.find? (fun m => m.src = src && m.isRow == isRow) with
      | none => .faultAt (orig.clearArrivals q.core) { code := .timing }
      | some m =>
        let s := s.clearArrivals q.core
        if l.length ≤ 1 then k m.val s
        else
          match k m.val s with
          | .done t fl =>
            .done (t.raiseFor (dieOf q.core) q.core (t.core q.core).running
              { code := .timing, kind := 4 } none none 0) fl
          | r => r

/-- A guard-false crecv accepts and discards the message that is due, and raises TIMING where none is; further messages of its
cycle are discarded with TIMING (R321). -/
def crecvFalse (o : Operands) (q : SeqId) (s : State) : Res :=
  let l := s.arrivals q.core
  if l.isEmpty then .fault { code := .timing }
  else if l.length ≤ 1 then pushesZero o q (s.clearArrivals q.core)
  else
    pushesZero o q ((s.clearArrivals q.core).raiseFor (dieOf q.core) q.core (s.core q.core).running
      { code := .timing, kind := 4 } none none 0)

/-- crecv.s (R320, R321). -/
def execCrecvS (g : BitVec 4) (d : BitVec 5) (p : BitVec 3) (o : State) : Out :=
  issueWith (.crecvS g d p) { dst := some d } (crecvFalse { dst := some d })
    (fun q _ s => crecvFrom q p false o s (fun v s => .done (s.writeS q d 1 (v.truncate 64)) .next)) o

/-- crecv.row (R320, R321): writes the row in its own issue cycle. -/
def execCrecvRow (g : BitVec 4) (a : BitVec 5) (p : BitVec 3) (o : State) : Out :=
  issueWith (.crecvRow g a p) { srcs := [a] } (crecvFalse {})
    (fun q v s =>
      match rowFault (v.x 0) with
      | some f => .fault { code := f, va := (v.x 0).toNat, acc := 2 }
      | none =>
        let a := (v.x 0).toNat
        if (s.core q.core).twcAt a then
          .faultAt (o.clearArrivals q.core) { code := .formatStore, va := a, acc := 2 }
        else
          crecvFrom q p true o s (fun r s =>
            let now := s.ccyc q.core
            accessStore s (o.clearArrivals q.core) q.core 5 now [bytesAt a 1024 true] [(now, a / 2 ^ 17)] (fun t =>
              .done (t.onCore q.core (fun k => k.putNat a 1024 r.toNat)) .next))) o

end Sys2Proof.Machine
end

