-- ==== Sys2Proof/Machine/Desc.lean ====
section
/-! DEFINITION. Descriptors and parameter records as engines read them (R231 to R236, R322 to R325). -/

namespace Sys2Proof.Machine

/-- SPACE of a descriptor (R322). -/
def dSpace (d : Rec512) : Nat := bits d 7 0
/-- CORE. -/
def dCore (d : Rec512) : Nat := bits d 15 8
/-- FMT. -/
def dFmt (d : Rec512) : Nat := bits d 23 16
/-- PLANES. -/
def dPlanes (d : Rec512) : Nat := bits d 31 24
/-- ZFILL. -/
def dZfill (d : Rec512) : Bool := d.getLsbD 32
/-- WWALK. -/
def dWwalk (d : Rec512) : Bool := d.getLsbD 33
/-- REL. -/
def dRel (d : Rec512) : Bool := d.getLsbD 34
/-- RELK. -/
def dRelk (d : Rec512) : Nat := bits d 38 35
/-- MC. -/
def dMc (d : Rec512) : Bool := d.getLsbD 39
/-- BASE. -/
def dBase (d : Rec512) : Nat := bits d 127 64
/-- SIZEn. -/
def dSize (d : Rec512) (n : Nat) : Nat := bits d (143 + 16 * n) (128 + 16 * n)
/-- STRIDEn. -/
def dStride (d : Rec512) (n : Nat) : Int := signed 32 (bits d (223 + 32 * n) (192 + 32 * n))
/-- PREC. -/
def dPrec (d : Rec512) : Nat := bits d 447 384
/-- TRI_DIAG. -/
def dTri (d : Rec512) : Int := signed 32 (bits d 479 448)
/-- MASK_CONST. -/
def dMask (d : Rec512) : Nat := bits d 511 480

/-- An output extent of a window walk (R324). -/
def walkOut (im k pad dil ws : Nat) : Int := ((im : Int) + 2 * pad - dil * ((k : Int) - 1) - 1) / ws + 1
/-- KH. -/
def dKH (d : Rec512) : Nat := bits d 347 344
/-- KW. -/
def dKW (d : Rec512) : Nat := bits d 351 348
/-- IH. -/
def dIH (d : Rec512) : Nat := bits d 331 320
/-- IW. -/
def dIW (d : Rec512) : Nat := bits d 343 332
/-- PAD. -/
def dPad (d : Rec512) : Nat := bits d 359 356
/-- DIL. -/
def dDil (d : Rec512) : Nat := bits d 363 360
/-- WS. -/
def dWs (d : Rec512) : Nat := bits d 355 352
/-- OH of a walking descriptor (R324). -/
def dOH (d : Rec512) : Int := walkOut (dIH d) (dKH d) (dPad d) (dDil d) (dWs d)
/-- OW of a walking descriptor (R324). -/
def dOW (d : Rec512) : Int := walkOut (dIW d) (dKW d) (dPad d) (dDil d) (dWs d)

/-- The image cell of output pixel i1 and tap i2 as an element offset; none reads +0 (R324). -/
def walkCell (d : Rec512) (i1 i2 : Nat) : Option Int :=
  let p := dSize d 3 + i1
  if dOH d * dOW d ≤ p then none
  else
    let oy := p / (dOW d).toNat
    let ox := p % (dOW d).toNat
    let iy : Int := (oy * dWs d : Nat) - (dPad d : Int) + (i2 / dKW d * dDil d : Nat)
    let ix : Int := (ox * dWs d : Nat) - (dPad d : Int) + (i2 % dKW d * dDil d : Nat)
    if iy < 0 ∨ (dIH d : Int) ≤ iy ∨ ix < 0 ∨ (dIW d : Int) ≤ ix then none
    else some (ix * dStride d 1 + iy * dStride d 2)

/-- The element index of (i0, i1, i2, i3), or none where the walk reads +0 (R323, R324). -/
def dIndex (d : Rec512) (i0 i1 i2 i3 : Nat) : Option Int :=
  if dWwalk d then (walkCell d i1 i2).map (fun c => c + i0 * dStride d 0)
  else some (i0 * dStride d 0 + i1 * dStride d 1 + i2 * dStride d 2 + i3 * dStride d 3)

/-- Least and greatest of n steps of a stride. -/
def strideSpan (n : Nat) (st : Int) : Int × Int :=
  let e := ((n : Int) - 1) * st
  (min 0 e, max 0 e)

/-- Least and greatest of a list. -/
def spanOf : List Int → Option (Int × Int)
  | [] => none
  | x :: r => some (match spanOf r with | none => (x, x) | some (a, b) => (min a x, max b x))

/-- The least and greatest element index a descriptor touches (R126, R324). -/
def dSpan (d : Rec512) : Option (Int × Int) :=
  let a := strideSpan (dSize d 0) (dStride d 0)
  if dWwalk d then
    (spanOf ((List.range (dSize d 1)).flatMap (fun i1 => (List.range (dSize d 2)).filterMap (walkCell d i1)))).map
      (fun c => (c.1 + a.1, c.2 + a.2))
  else
    let f (n : Nat) := strideSpan (dSize d n) (dStride d n)
    some (a.1 + (f 1).1 + (f 2).1 + (f 3).1, a.2 + (f 1).2 + (f 2).2 + (f 3).2)

/-- Whether the walk fields of a walking descriptor are refused (R325). -/
def walkBad (d : Rec512) : Bool :=
  dIH d == 0 || dIW d == 0 || dKH d == 0 || dKW d == 0 || dWs d == 0 || dDil d == 0 || dSpace d == 2
    || dStride d 3 != 0 || decide (dOH d < 1) || decide (dOW d < 1) || decide (dKH d * dKW d < dSize d 2)
    || (!dZfill d && (dPad d != 0 || decide (dOH d * dOW d < dSize d 3 + dSize d 1)))

/-- The DESCRIPTOR cases of R325 that do not depend on the format, and the pointer's of R231. -/
def descBad (d : Rec512) (dest copy : Bool) : Bool :=
  decide (3 < dSpace d) || (dFmt d != 0xFF && !fmtOk (dFmt d)) || bits d 63 40 != 0 || bits d 383 364 != 0
    || dPlanes d == 1 || decide (8 < dPlanes d)
    || dSize d 0 == 0 || dSize d 1 == 0 || dSize d 2 == 0 || (dSize d 3 == 0 && !dWwalk d)
    || (!dMc d && decide (7 < dCore d)) || (dMc d && !(copy && dest && dSpace d == 1))
    || (if dWwalk d then dest || walkBad d else dZfill d)
    || decide (2 ^ 21 ≤ dPrec d) || dPrec d % 64 != 0

/-- PLANES on a format that has none (R325). -/
def planesBad (d : Rec512) (f : Nat) : Bool := dPlanes d != 0 && f != 0x10 && f != 0x11

/-- Bytes of an element; sub-byte formats count one (R323). -/
def fmtBytes (f : Nat) : Nat :=
  match f with
  | 0x02 | 0x05 | 0x09 | 0x0A => 2
  | 0x03 | 0x06 | 0x08 => 4
  | _ => 1

/-- The first and last byte of element index x from a base in bytes, with p planes of an NI block (R183, R189, R323). -/
def elemBytes (f p : Nat) (base x : Int) : Int × Int :=
  match f with
  | 0x0D => (base + x / 2, base + x / 2)
  | 0x10 => (base + 64 * (x / 64), base + 64 * (x / 64) + 8 * p - 1)
  | f => (base + x * fmtBytes f, base + x * fmtBytes f + fmtBytes f - 1)

/-- BASE in bytes: accumulator rows hold 1,024 (R323). -/
def dBaseBytes (d : Rec512) : Nat := if dSpace d = 2 then dBase d * 1024 else dBase d

/-- A parameter record's MULT, BLEN, advance a, G and SKIND (R231). -/
def pMult (p : Rec512) : Nat := bits p 287 272
/-- BLEN. -/
def pBlen (p : Rec512) : Nat := bits p 255 248
/-- a = ADV + 4. -/
def pAdv (p : Rec512) : Nat := bits p 247 246 + 4
/-- G. -/
def pGroup (p : Rec512) : Nat := 32 * 2 ^ bits p 245 244
/-- SKIND. -/
def pSkind (p : Rec512) : Nat := bits p 243 242
/-- SCALE. -/
def pScale (p : Rec512) : Nat := bits p 511 448
/-- BOUND. -/
def pBound (p : Rec512) : Nat := bits p 319 288
/-- RM. -/
def pRm (p : Rec512) : Nat := bits p 257 256
/-- ZR. -/
def pZr (p : Rec512) : Bool := p.getLsbD 239
/-- TWC block bytes BB = N a / 32 and bits Lb (R234). -/
def twcBlock (p : Rec512) : Nat := 2 * pBlen p * pAdv p

/-- Whether a parameter record holds a reserved value or a non-zero reserved field, whatever its tensor's format (R231, R233). -/
def recordReserved (p : Rec512) : Bool :=
  bits p 271 258 != 0 || bits p 238 0 != 0 || pRm p == 3 || pBound p / 2 ^ 31 != 0 || isNan32 (pBound p)
    || bits p 245 244 == 3 || (pSkind p == 0 && pScale p != 0)
    || (!pZr p && (bits p 447 384 != 0 || bits p 383 320 != 0 || bits p 241 240 != 0))

/-- Whether a parameter record is refused for a format and the scale kinds allowed (R231, R233). RM and BOUND are of conversions
into the tensor, of which RAW, E8M0 and TWC have none, and a conversion into FP32 has no clamp (R134, R186, R195). -/
def recordBad (p : Rec512) (f : Nat) (kinds : List Nat) : Bool :=
  let twc := f == 0x11
  let grp := twc || f == 0x10
  recordReserved p || !kinds.contains (pSkind p)
    || (if twc then pMult p % 2 == 0 || pBlen p == 0 || decide (64 < pBlen p)
        else pMult p != 0 || pBlen p != 0 || bits p 247 246 != 0)
    || ((twc || f == 0x00 || f == 0x0E) && (pRm p != 0 || pBound p != 0)) || (f == 0x08 && pBound p != 0)
    || (!grp && bits p 245 244 != 0)

/-- The scale kinds a copy descriptor may carry (R231). -/
def copyKinds (f : Nat) : List Nat :=
  match f with
  | 0x10 | 0x11 => [1]
  | 0x0D => [0, 3]
  | 0x01 => [0, 2]
  | _ => [0]

/-- The physical core whose store a descriptor of core c names; none for other spaces or an unbound CORE (R83, R131). -/
def State.srcCore (s : State) (c : Nat) (d : Rec512) : Option Nat :=
  if dSpace d = 0 then some c else if dSpace d = 1 then s.peerCore c (dCore d) else none

/-- The format of a descriptor in core store: FMT, or the named bank's (R133, R351). -/
def State.storeFmt (s : State) (src : Nat) (d : Rec512) : Nat :=
  if dFmt d != 0xFF then dFmt d else bits ((s.core src).bfmtOf (dBase d / 2 ^ 17)) 7 0

/-- The record a descriptor names and the four parts of its table T; zeros where there is none (R231, R233). -/
def readRecord (k : Core) (d : Rec512) : List Rec512 :=
  let a := dPrec d
  if a = 0 then [0, 0, 0, 0, 0]
  else (List.range 5).map (fun i => BitVec.ofNat 512 (readNat k.store (a + 64 * i) 64))

/-- The uncorrectable error in the parameter record that a descriptor names: the header, and the table of a TWC operand
(R21, R233). -/
def Core.recordEcc (k : Core) (c : Nat) (d : Rec512) (f : Nat) : Option FaultInfo :=
  if dPrec d = 0 then none
  else (k.eccIn c false (dPrec d) (dPrec d + (if f = 0x11 then 319 else 63))).map
    (fun e => { code := .eccUncorrectable, cause := e })

/-- Entry x of a table T kept as four parts. -/
def tableAt (t : List Rec512) (x : Nat) : Nat := bits (t.getD (x / 64) 0) (8 * (x % 64) + 7) (8 * (x % 64))

/-- The 8-bit code of TWC weight i of the block at blk (R235); rd reads a byte. -/
def twcCode (rd : Nat → Byte) (p : Rec512) (t : List Rec512) (blk i : Nat) : Nat :=
  let lb := 8 * twcBlock p
  let b (x : Nat) : Nat := if (rd (blk + x % lb / 8)).getLsbD (x % lb % 8) then 1 else 0
  let w := (List.range 16).foldl (fun a j => a + b (i * pAdv p / 4 + j) * 2 ^ j) 0
  tableAt t (w * pMult p % 2 ^ 16 / 256)

/-- The byte that holds plane j of NI element x from a base in bytes, plane 7 first (R189, R323). -/
def niByte (base : Nat) (x : Int) (j : Nat) : Nat := ((base : Int) + 64 * (x / 64)).toNat + 8 * (7 - j) + (x % 64).toNat / 8

/-- The code of NI element x of plane blocks at base of which the p highest planes are read; the others read 0 (R188, R189). -/
def niCode (rd : Nat → Byte) (p base : Nat) (x : Int) : Nat :=
  (List.range p).foldl
    (fun a j => a + (if (rd (niByte base x (7 - j))).getLsbD (x % 8).toNat then 2 ^ (7 - j) else 0)) 0

/-- Whether the strides of a descriptor are none that NI has (R323). -/
def niStrides (d : Rec512) : Bool :=
  dStride d 0 != 1 || dStride d 1 % 64 != 0 || dStride d 2 % 64 != 0 || dStride d 3 % 64 != 0

/-- The code of element x of a format at a base in bytes (R183, R323). -/
def elemCode (rd : Nat → Byte) (f : Nat) (base : Nat) (x : Int) : Nat :=
  match f with
  | 0x0D => (rd (base + x / 2).toNat).toNat / (if x % 2 = 0 then 1 else 16) % 16
  | 0x10 => niCode rd 8 base x
  | f => natOfBytes ((List.range (fmtBytes f)).map (fun j => rd ((base + x * fmtBytes f).toNat + j)))

/-- Byte a of the accumulator rows taken as one store. -/
def Core.accByte (k : Core) (a : Nat) : Byte := BitVec.ofNat 8 ((k.row (a / 1024)).toNat / 2 ^ (8 * (a % 1024)))

end Sys2Proof.Machine
end

