-- ==== Sys2Proof/Machine/Special.lean ====
section
/-! DEFINITION. The special functions of R201, correctly rounded: exact integer arithmetic where the result is algebraic of
degree two, and interval arithmetic in 320-bit fixed point elsewhere. Where an interval does not decide the rounding the
result is a free value (log 9). -/

namespace Sys2Proof.Machine

/-- Fixed-point fraction bits of the interval arithmetic. -/
def fixP : Nat := 320
/-- floor(ln 2 × 2^320). -/
def fixLn2 : Nat := 1480553391661173448385607439722553250922680800745876974795605978609098082859138712941075737848984
/-- floor(log2 e × 2^320). -/
def fixLog2e : Nat := 3081577904126213121686167198097690134163479766071396094403848907535455306605342191083616308484524
/-- A bound on the error of every fixed-point value below, in units of 2^-320, for arguments below 2^16. -/
def fixErr : Nat := 2 ^ 40

/-- The integer square root, by bits: n bits of root from r on. -/
def isqrtBits (v : Nat) : Nat → Nat → Nat
  | 0, r => r
  | n + 1, r => let t := r + 2 ^ n; isqrtBits v n (if t * t ≤ v then t else r)
/-- floor of the square root. -/
def isqrt (v : Nat) : Nat := isqrtBits v (v.log2 / 2 + 1) 0

/-- The code both ends of an interval of magnitudes round to, each taken as just above its integer (RNE). -/
def roundBetween (F : Fmt) (neg : Bool) (lo hi : Nat) (e : Int) : Option Nat :=
  let a := F.round? .rne true (.fin neg lo e)
  if a = F.round? .rne true (.fin neg hi e) then a else none

/-- Terms of the exponential series: sum and term, y in fixed point. -/
def expTerms (y : Nat) : Nat → Nat → Nat → Nat → Nat
  | 0, _, _, sum => sum
  | n + 1, k, t, sum => let t' := t * y / (k * 2 ^ fixP); expTerms y n (k + 1) t' (sum + t')

/-- 2^f in fixed point for a fraction f in fixed point, 0 ≤ f < 1. -/
def exp2Frac (f : Nat) : Nat := expTerms (f * fixLn2 / 2 ^ fixP) 90 1 (2 ^ fixP) (2 ^ fixP)

/-- Terms of the atanh series: u^2 and the current power, in fixed point. -/
def atanhTerms (u2 : Nat) : Nat → Nat → Nat → Nat → Nat
  | 0, _, _, sum => sum
  | n + 1, k, p, sum => atanhTerms u2 n (k + 2) (p * u2 / 2 ^ fixP) (sum + p / k)

/-- ln z in fixed point, for z = m / 2^s in [1, 2). -/
def lnFix (m s : Nat) : Nat :=
  let u := (m - 2 ^ s) * 2 ^ fixP / (m + 2 ^ s)
  2 * atanhTerms (u * u / 2 ^ fixP) 110 1 u 0

/-- m × 2^e as a signed fixed-point integer (a floor), for magnitudes below 2^16. -/
def toFix (neg : Bool) (m : Nat) (e : Int) : Int :=
  let s := e + fixP
  let v : Int := sgn neg m
  if 0 ≤ s then v * 2 ^ s.toNat else v / 2 ^ (-s).toNat

/-- e^-y in fixed point for y = m × 2^e ≥ 0; 0 once y passes 2^10. -/
def expNeg (m : Nat) (e : Int) : Nat :=
  if dyLt (2 ^ 10) 0 m e then 0
  else
    let w : Int := -((toFix false m e * fixLog2e) / 2 ^ fixP)
    let i := w / 2 ^ fixP
    let f := (w % 2 ^ fixP).toNat
    exp2Frac f / 2 ^ (-i).toNat

/-- 2^x (R201). -/
def exp2Of (F : Fmt) (neg : Bool) (m : Nat) (e : Int) : Option Nat :=
  if m = 0 then F.round? .rne false (.fin false 1 0)
  else if dyLt (2 ^ 16) 0 m e then
    (if neg then some 0 else F.round? .rne true (.fin false 1 (2 ^ 16)))
  else if 0 ≤ e ∨ m % 2 ^ (-e).toNat = 0 then
    let i : Int := sgn neg (if 0 ≤ e then m * 2 ^ e.toNat else m / 2 ^ (-e).toNat)
    if i < -1000 then some 0 else F.round? .rne false (.fin false 1 i)
  else
    let w := toFix neg m e
    let i := w / 2 ^ fixP
    let v := exp2Frac (w % 2 ^ fixP).toNat
    if i < -1000 then some 0 else roundBetween F false (v - fixErr) (v + fixErr) (i - fixP)

/-- log2 of a positive finite value (R201). -/
def log2Of (F : Fmt) (m : Nat) (e : Int) : Option Nat :=
  let s := m.log2
  let i : Int := s + e
  if m = 2 ^ s then F.round? .rne false (.ofInt i 0 false)
  else
    let v : Int := i * 2 ^ fixP + (lnFix m s * 2 ^ fixP / fixLn2 : Nat)
    roundBetween F (decide (v < 0)) (v.natAbs - fixErr) (v.natAbs + fixErr) (-fixP)

/-- 1/x of a non-zero finite value (R201). -/
def rcpOf (F : Fmt) (neg : Bool) (m : Nat) (e : Int) : Option Nat :=
  let k := m.log2 + 64
  F.round? .rne (2 ^ k % m != 0) (.fin neg (2 ^ k / m) (-e - k))

/-- The square root of a positive finite value (R201). -/
def sqrtOf (F : Fmt) (m : Nat) (e : Int) : Option Nat :=
  let v := if e % 2 = 0 then m * 2 ^ 128 else m * 2 ^ 129
  let f : Int := if e % 2 = 0 then e - 128 else e - 129
  let r := isqrt v
  F.round? .rne (r * r != v) (.fin false r (f / 2))

/-- The reciprocal square root of a positive finite value (R201): the root of 2^k / m with an even exponent left. -/
def rsqrtOf (F : Fmt) (m : Nat) (e : Int) : Option Nat :=
  let k := m.log2 + 128
  let k := if ((k : Int) + e) % 2 = 0 then k else k + 1
  let v := 2 ^ k / m
  let r := isqrt v
  F.round? .rne (r * r != v || 2 ^ k % m != 0) (.fin false r (-(k + e) / 2))

/-- tanh of a non-zero finite value (R201). -/
def tanhOf (F : Fmt) (neg : Bool) (m : Nat) (e : Int) : Option Nat :=
  let t := expNeg m (e + 1)
  let v := (2 ^ fixP - t) * 2 ^ fixP / (2 ^ fixP + t)
  roundBetween F neg (v - fixErr) (v + fixErr) (-fixP)

/-- 1/(1 + e^-x) of a non-zero finite value (R201). -/
def sigmOf (F : Fmt) (neg : Bool) (m : Nat) (e : Int) : Option Nat :=
  let t := expNeg m e
  let v := if neg then t * 2 ^ fixP / (2 ^ fixP + t) else 2 ^ (2 * fixP) / (2 ^ fixP + t)
  roundBetween F false (v - fixErr) (v + fixErr) (-fixP)

/-- The special functions in the order of their function codes (R335). -/
inductive SFun where
  | exp2 | log2 | rcp | rsqrt | sqrt | tanh | sigm
deriving DecidableEq, Repr

/-- The number of a function, to name its free values. -/
def SFun.num : SFun → Nat
  | .exp2 => 0 | .log2 => 1 | .rcp => 2 | .rsqrt => 3 | .sqrt => 4 | .tanh => 5 | .sigm => 6

/-- The function of a code, and INV (R201). -/
def special (F : Fmt) (f : SFun) (x : Nat) : Nat × Bool :=
  let free := (Config.freeBits (f.num * 2 ^ 40 + F.eb * 2 ^ 33 + x)).toNat % 2 ^ (1 + F.eb + F.mb)
  let inf (neg : Bool) : Nat × Bool := (F.infCode neg, false)
  let zero (neg : Bool) : Nat × Bool := (F.sign neg, false)
  let one (neg : Bool) : Nat × Bool := (F.round .rne (.fin neg 1 0), false)
  match f, F.decode x with
  | _, .nan => (F.nan, false)
  | .exp2, .inf n => if n then zero false else inf false
  | .exp2, .fin n m e => ((exp2Of F n m e).getD free, false)
  | .log2, .inf n => if n then (F.nan, true) else inf false
  | .log2, .fin n m e => if m = 0 then inf true else if n then (F.nan, true) else ((log2Of F m e).getD free, false)
  | .rcp, .inf n => zero n
  | .rcp, .fin n m e => if m = 0 then inf n else ((rcpOf F n m e).getD free, false)
  | .rsqrt, .inf n => if n then (F.nan, true) else zero false
  | .rsqrt, .fin n m e => if m = 0 then inf n else if n then (F.nan, true) else ((rsqrtOf F m e).getD free, false)
  | .sqrt, .inf n => if n then (F.nan, true) else inf false
  | .sqrt, .fin n m e => if m = 0 then zero n else if n then (F.nan, true) else ((sqrtOf F m e).getD free, false)
  | .tanh, .inf n => one n
  | .tanh, .fin n m e => if m = 0 then zero n else ((tanhOf F n m e).getD free, false)
  | .sigm, .inf n => if n then zero false else one false
  | .sigm, .fin n m e =>
    if m = 0 then (F.round .rne (.fin false 1 (-1)), false) else ((sigmOf F n m e).getD free, false)

end Sys2Proof.Machine
end

