-- ==== Sys2Proof/Machine/Vector.lean ====
section
/-! DEFINITION. The vector unit (R328 to R346). -/

namespace Sys2Proof.Machine

/-- The n lanes of w bits of a row, lane 0 first (R328). -/
def rowLanes (w : Nat) : Nat → Nat → List Nat
  | 0, _ => []
  | n + 1, v => v % 2 ^ w :: rowLanes w n (v / 2 ^ w)

/-- Lanes of w bits joined into a number, lane 0 lowest. -/
def joinW (w : Nat) : List Nat → Nat
  | [] => 0
  | x :: r => x % 2 ^ w + 2 ^ w * joinW w r

/-- A row of lanes. -/
def rowOf (w : Nat) (l : List Nat) : Row := BitVec.ofNat 8192 (joinW w l)

/-- The bits of a row that the lanes with a mask bit set occupy (R330). -/
def laneBits (w n : Nat) (m : Mask) : Row :=
  rowOf w ((List.range n).map (fun i => if m.getLsbD i then 2 ^ w - 1 else 0))

/-- What a vector instruction reads beside its operands, in its issue cycle (R329). -/
structure VCtx where
  k : Core
  n : Nat
  w : Nat
  f : Fmt
  mode : RMode
  isInt : Bool

/-- The rounding mode VRM holds (R192). -/
def vrmMode (v : Word) : RMode :=
  match v.toNat with
  | 1 => .rtz
  | 2 => .rup
  | 3 => .rdn
  | 4 => .rna
  | _ => .rne

/-- The lanes and formats of a VTYPE value (R328). -/
def vctx (k : Core) : VCtx :=
  let mode := vrmMode k.vrm
  match k.vtype.toNat with
  | 1 => ⟨k, 256, 32, fp32, mode, true⟩
  | 2 => ⟨k, 512, 16, bf16, mode, false⟩
  | 3 => ⟨k, 512, 16, fp16, mode, false⟩
  | _ => ⟨k, 256, 32, fp32, mode, false⟩

/-- The accumulator rows a vector instruction touches, as footprint ranges (R126, R331). -/
def vRanges (k : Core) (vsrcs : List (BitVec 5)) (vd : Option (BitVec 5)) : List Range :=
  ((vsrcs.filter (fun f => f.toNat < 28)).map (fun f => ⟨true, k.vrow f, k.vrow f, false⟩))
    ++ (match vd with
        | some d => if d.toNat < 28 then [⟨true, k.vrow d, k.vrow d, true⟩] else []
        | none => [])

/-- The footprint check of a vector access, active through issue + lat - 1 (R126, R127). -/
def accessRows (s orig : State) (c lat : Nat) (rs : List Range) (k : State → Res) : Res :=
  let r := orig.checkFps c .vector rs
  if r.2 then k ((s.eccRead c rs).onCore c (·.addFps .vector 0 rs (s.ccyc c) (some (s.ccyc c + lat - 1))))
  else .faultAt r.1 { code := .footprint }

/-- Writes a row destination: a window row under the bits of keep, a pushed row with zeros elsewhere, or nothing (R270,
R330). -/
def State.writeV (s : State) (c : Nat) (vd : BitVec 5) (lat : Nat) (v keep : Row) : State :=
  if vd.toNat < 28 then s.later c lat (.row ((s.core c).vrow vd) keep) v
  else if vd = 28 then s.pushLater c (.sq 0) lat (v &&& keep)
  else if vd = 29 then s.pushLater c (.sq 1) lat (v &&& keep)
  else s

/-- A vector instruction with a row destination: f gives the row, the bits it writes and the flags it sets (R329, R330,
R331). acc: vd is read too. -/
def vecRow (i : Instr) (vd : BitVec 5) (vsrcs srcs : List (BitVec 5)) (lat : Nat) (acc : Bool)
    (f : VCtx → Vals → Row × Row × Word) (o : State) : Out :=
  issue i { srcs := srcs, vsrcs := vsrcs, vdst := some vd, lat := lat }
    (fun q v s =>
      let k := s.core q.core
      let v := if acc then { v with v := v.v ++ [k.row (k.vrow vd)] } else v
      let r := f (vctx k) v
      accessRows s o q.core lat (vRanges k vsrcs (some vd)) (fun t =>
        .done ((t.writeV q.core vd lat r.1 r.2.1).raiseFlags q.core lat r.2.2) .next)) o

/-- A vector instruction whose result is a scalar (R329). -/
def vecScalar (i : Instr) (sd va : BitVec 5) (srcs : List (BitVec 5)) (lat : Nat) (f : VCtx → Vals → Word × Word)
    (o : State) : Out :=
  issue i { srcs := srcs, vsrcs := [va], dst := some sd, lat := lat }
    (fun q v s =>
      let k := s.core q.core
      let r := f (vctx k) v
      accessRows s o q.core lat (vRanges k [va] none) (fun t =>
        .done ((t.writeS q sd lat r.1).raiseFlags q.core lat r.2) .next)) o

/-- A vector instruction whose result is a mask (R330). -/
def vecMask (i : Instr) (md : BitVec 3) (vsrcs srcs : List (BitVec 5)) (lat : Nat) (f : VCtx → Vals → Mask) (o : State) :
    Out :=
  issue i { srcs := srcs, vsrcs := vsrcs }
    (fun q v s =>
      let k := s.core q.core
      accessRows s o q.core lat (vRanges k vsrcs none) (fun t =>
        .done (t.later q.core lat (.lmask md.toNat) ((f (vctx k) v).setWidth 8192)) .next)) o

/-- INV as a flag word. -/
def invIf (b : Bool) : Word := if b then flagInv else 0

/-- Lane results joined under a mask: the flags of the lanes that take part are joined (R330). -/
def laneResult (c : VCtx) (m : Mask) (l : List (Nat × Word)) : Row × Row × Word :=
  (rowOf c.w (l.map (·.1)), laneBits c.w c.n m,
    (l.zipIdx.filter (fun x => m.getLsbD x.2)).foldl (fun a x => a ||| x.1.2) 0)

/-- The lanes of a row operand. -/
def VCtx.lanes (c : VCtx) (r : Row) : List Nat := rowLanes c.w c.n r.toNat

/-- A lane-wise operation of one row. -/
def lane1 (i : Instr) (d a : BitVec 5) (m : BitVec 3) (lat : Nat) (f : VCtx → Nat → Nat × Word) : State → Out :=
  vecRow i d [a] [] lat false (fun c v => laneResult c (c.k.mask m) ((c.lanes (v.r 0)).map (f c)))

/-- A lane-wise operation of two rows. -/
def lane2 (i : Instr) (d a b : BitVec 5) (m : BitVec 3) (lat : Nat) (f : VCtx → Nat → Nat → Nat × Word) : State → Out :=
  vecRow i d [a, b] [] lat false
    (fun c v => laneResult c (c.k.mask m) (List.zipWith (f c) (c.lanes (v.r 0)) (c.lanes (v.r 1))))

/-- A lane-wise operation of two rows and the destination's old contents. -/
def lane3 (i : Instr) (d a b : BitVec 5) (m : BitVec 3) (lat : Nat) (f : VCtx → Nat → Nat → Nat → Nat × Word) :
    State → Out :=
  vecRow i d [a, b] [] lat true
    (fun c v =>
      laneResult c (c.k.mask m)
        (List.zipWith (fun x y => f c x.1 x.2 y) (List.zip (c.lanes (v.r 0)) (c.lanes (v.r 1))) (c.lanes (v.r 2))))

/-- The scalar operand of a vector-scalar operation as an element of the lane format (R339). -/
def VCtx.elem (c : VCtx) (s : Word) : Nat := s.toNat % 2 ^ c.w

/-- A lane-wise operation of a row and a scalar (R339). -/
def laneS (i : Instr) (d a s : BitVec 5) (m : BitVec 3) (lat : Nat) (f : VCtx → Nat → Nat → Nat × Word) : State → Out :=
  vecRow i d [a] [s] lat false
    (fun c v => laneResult c (c.k.mask m) ((c.lanes (v.r 0)).map (fun x => f c x (c.elem (v.x 0)))))

/-- A rounded result with INV as its flag. -/
def withInv (r : Nat × Bool) : Nat × Word := (r.1, invIf r.2)

/-- vabs and vneg of a code: a NaN gives the canonical NaN (R333). -/
def signOp (F : Fmt) (flip : Bool) (x : Nat) : Nat :=
  match F.decode x with
  | .nan => F.nan
  | _ =>
    let mag := x % 2 ^ (F.eb + F.mb)
    if flip && x / 2 ^ (F.eb + F.mb) % 2 == 0 then mag + 2 ^ (F.eb + F.mb) else mag

/-- vadd (R333). -/
def execVadd (g : BitVec 4) (d a b : BitVec 5) (m : BitVec 3) : State → Out :=
  lane2 (.vadd g d a b m) d a b m 4 (fun c x y => withInv (c.f.addR c.mode x y))

/-- vsub (R333). -/
def execVsub (g : BitVec 4) (d a b : BitVec 5) (m : BitVec 3) : State → Out :=
  lane2 (.vsub g d a b m) d a b m 4 (fun c x y => withInv (c.f.subR c.mode x y))

/-- vmul (R333). -/
def execVmul (g : BitVec 4) (d a b : BitVec 5) (m : BitVec 3) : State → Out :=
  lane2 (.vmul g d a b m) d a b m 4 (fun c x y => withInv (c.f.mulR c.mode x y))

/-- vmin (R333). -/
def execVmin (g : BitVec 4) (d a b : BitVec 5) (m : BitVec 3) : State → Out :=
  lane2 (.vmin g d a b m) d a b m 2 (fun c x y => (c.f.minmax false x y, 0))

/-- vmax (R333). -/
def execVmax (g : BitVec 4) (d a b : BitVec 5) (m : BitVec 3) : State → Out :=
  lane2 (.vmax g d a b m) d a b m 2 (fun c x y => (c.f.minmax true x y, 0))

/-- vfma: one rounding (R333). -/
def execVfma (g : BitVec 4) (d a b : BitVec 5) (m : BitVec 3) : State → Out :=
  lane3 (.vfma g d a b m) d a b m 4 (fun c x y z => withInv (c.f.fmaR c.mode false x y z))

/-- vfms: one rounding (R333). -/
def execVfms (g : BitVec 4) (d a b : BitVec 5) (m : BitVec 3) : State → Out :=
  lane3 (.vfms g d a b m) d a b m 4 (fun c x y z => withInv (c.f.fmaR c.mode true x y z))

/-- vabs (R333). -/
def execVabs (g : BitVec 4) (d a : BitVec 5) (m : BitVec 3) : State → Out :=
  lane1 (.vabs g d a m) d a m 2 (fun c x => (signOp c.f false x, 0))

/-- vneg (R333). -/
def execVneg (g : BitVec 4) (d a : BitVec 5) (m : BitVec 3) : State → Out :=
  lane1 (.vneg g d a m) d a m 2 (fun c x => (signOp c.f true x, 0))

/-- vmov: the lane bits unchanged (R333). -/
def execVmov (g : BitVec 4) (d a : BitVec 5) (m : BitVec 3) : State → Out :=
  lane1 (.vmov g d a m) d a m 2 (fun _ x => (x, 0))

/-- vsel: every lane is written (R333). -/
def execVsel (g : BitVec 4) (d a b : BitVec 5) (m : BitVec 3) : State → Out :=
  vecRow (.vsel g d a b m) d [a, b] [] 2 false
    (fun c v =>
      let k := laneBits c.w c.n (c.k.mask m)
      ((v.r 0 &&& k) ||| (v.r 1 &&& ~~~k), BitVec.allOnes 8192, 0))

/-- viadd: on lanes of the lane width (R334). -/
def execViadd (g : BitVec 4) (d a b : BitVec 5) (m : BitVec 3) : State → Out :=
  lane2 (.viadd g d a b m) d a b m 2 (fun _ x y => (x + y, 0))

/-- visub: on lanes of the lane width (R334). -/
def execVisub (g : BitVec 4) (d a b : BitVec 5) (m : BitVec 3) : State → Out :=
  lane2 (.visub g d a b m) d a b m 2 (fun c x y => (x + (2 ^ c.w - y), 0))

/-- vimul: on lanes of the lane width (R334). -/
def execVimul (g : BitVec 4) (d a b : BitVec 5) (m : BitVec 3) : State → Out :=
  lane2 (.vimul g d a b m) d a b m 2 (fun _ x y => (x * y, 0))

/-- vimin: on lanes of the lane width (R334). -/
def execVimin (g : BitVec 4) (d a b : BitVec 5) (m : BitVec 3) : State → Out :=
  lane2 (.vimin g d a b m) d a b m 2 (fun c x y => (if signed c.w x < signed c.w y then x else y, 0))

/-- vimax: on lanes of the lane width (R334). -/
def execVimax (g : BitVec 4) (d a b : BitVec 5) (m : BitVec 3) : State → Out :=
  lane2 (.vimax g d a b m) d a b m 2 (fun c x y => (if signed c.w y < signed c.w x then x else y, 0))

/-- vand: on lanes of the lane width (R334). -/
def execVand (g : BitVec 4) (d a b : BitVec 5) (m : BitVec 3) : State → Out :=
  lane2 (.vand g d a b m) d a b m 2 (fun _ x y => (x &&& y, 0))

/-- vor: on lanes of the lane width (R334). -/
def execVor (g : BitVec 4) (d a b : BitVec 5) (m : BitVec 3) : State → Out :=
  lane2 (.vor g d a b m) d a b m 2 (fun _ x y => (x ||| y, 0))

/-- vxor: on lanes of the lane width (R334). -/
def execVxor (g : BitVec 4) (d a b : BitVec 5) (m : BitVec 3) : State → Out :=
  lane2 (.vxor g d a b m) d a b m 2 (fun _ x y => (x ^^^ y, 0))

/-- vshl: on lanes of the lane width (R334). -/
def execVshl (g : BitVec 4) (d a b : BitVec 5) (m : BitVec 3) : State → Out :=
  lane2 (.vshl g d a b m) d a b m 2 (fun c x y => (x * 2 ^ (y % c.w), 0))

/-- vshr: on lanes of the lane width (R334). -/
def execVshr (g : BitVec 4) (d a b : BitVec 5) (m : BitVec 3) : State → Out :=
  lane2 (.vshr g d a b m) d a b m 2 (fun c x y => (x / 2 ^ (y % c.w), 0))

/-- vsra: on lanes of the lane width (R334). -/
def execVsra (g : BitVec 4) (d a b : BitVec 5) (m : BitVec 3) : State → Out :=
  lane2 (.vsra g d a b m) d a b m 2 (fun c x y => (codeOf c.w (signed c.w x / 2 ^ (y % c.w)), 0))

/-- vexp2: correctly rounded (R201, R335). -/
def execVexp2 (g : BitVec 4) (d a : BitVec 5) (m : BitVec 3) : State → Out :=
  lane1 (.vexp2 g d a m) d a m 12 (fun c x => withInv (special c.f .exp2 x))

/-- vlog2: correctly rounded (R201, R335). -/
def execVlog2 (g : BitVec 4) (d a : BitVec 5) (m : BitVec 3) : State → Out :=
  lane1 (.vlog2 g d a m) d a m 12 (fun c x => withInv (special c.f .log2 x))

/-- vrcp: correctly rounded (R201, R335). -/
def execVrcp (g : BitVec 4) (d a : BitVec 5) (m : BitVec 3) : State → Out :=
  lane1 (.vrcp g d a m) d a m 12 (fun c x => withInv (special c.f .rcp x))

/-- vrsqrt: correctly rounded (R201, R335). -/
def execVrsqrt (g : BitVec 4) (d a : BitVec 5) (m : BitVec 3) : State → Out :=
  lane1 (.vrsqrt g d a m) d a m 12 (fun c x => withInv (special c.f .rsqrt x))

/-- vsqrt: correctly rounded (R201, R335). -/
def execVsqrt (g : BitVec 4) (d a : BitVec 5) (m : BitVec 3) : State → Out :=
  lane1 (.vsqrt g d a m) d a m 12 (fun c x => withInv (special c.f .sqrt x))

/-- vtanh: correctly rounded (R201, R335). -/
def execVtanh (g : BitVec 4) (d a : BitVec 5) (m : BitVec 3) : State → Out :=
  lane1 (.vtanh g d a m) d a m 12 (fun c x => withInv (special c.f .tanh x))

/-- vsigm: correctly rounded (R201, R335). -/
def execVsigm (g : BitVec 4) (d a : BitVec 5) (m : BitVec 3) : State → Out :=
  lane1 (.vsigm g d a m) d a m 12 (fun c x => withInv (special c.f .sigm x))

/-- The mask whose bit i is f of lane i, for taking-part lanes; bits from n up are 0 (R330, R336). -/
def maskOf (m : Mask) (l : List Bool) : Mask :=
  BitVec.ofNat 512 (joinW 1 (l.zipIdx.map (fun x => if x.1 && m.getLsbD x.2 then 1 else 0)))

/-- A floating-point compare (R336). -/
def fpTest (F : Fmt) (c : Nat) (x y : Nat) : Bool :=
  let a := F.decode x
  let b := F.decode y
  match c with
  | 0 => a.eq b
  | 1 => !a.eq b
  | 2 => a.lt b
  | 3 => a.lt b || a.eq b
  | 4 => b.lt a
  | _ => b.lt a || a.eq b

/-- An integer compare on lanes of w bits (R336). -/
def intTest (w c x y : Nat) : Bool :=
  let a := signed w x
  let b := signed w y
  match c with
  | 0 => x == y
  | 1 => x != y
  | 2 => decide (a < b)
  | 3 => decide (a ≤ b)
  | 4 => decide (b < a)
  | 5 => decide (b ≤ a)
  | 6 => decide (x < y)
  | _ => decide (x ≤ y)

/-- vcmp (R336). -/
def execVcmp (g : BitVec 4) (d : BitVec 3) (a b : BitVec 5) (m : BitVec 3) (cc : BitVec 3) : State → Out :=
  vecMask (.vcmp g d a b m cc) d [a, b] [] 2
    (fun c v => maskOf (c.k.mask m) (List.zipWith (fpTest c.f cc.toNat) (c.lanes (v.r 0)) (c.lanes (v.r 1))))

/-- vicmp (R336). -/
def execVicmp (g : BitVec 4) (d : BitVec 3) (a b : BitVec 5) (m : BitVec 3) (cc : BitVec 3) : State → Out :=
  vecMask (.vicmp g d a b m cc) d [a, b] [] 2
    (fun c v => maskOf (c.k.mask m) (List.zipWith (intTest c.w cc.toNat) (c.lanes (v.r 0)) (c.lanes (v.r 1))))

/-- One level of the reduction tree: neighbours joined (R204). -/
def pairUp {α : Type} (f : α → α → α) : List α → List α
  | a :: b :: r => f a b :: pairUp f r
  | l => l

/-- The reduction tree over up to 512 lanes (R204). -/
def treeReduce {α : Type} (f : α → α → α) : Nat → List α → List α
  | 0, l => l
  | n + 1, l => treeReduce f n (pairUp f l)

/-- A lane widened to FP32, bits kept for FP32 lanes (R204). -/
def VCtx.widen (c : VCtx) (x : Nat) : Nat := if c.w = 32 then x else fp32.round .rne (c.f.decode x)

/-- The lanes of a reduction: masked lanes enter as the identity (R204). -/
def VCtx.reduceLanes (c : VCtx) (m : Mask) (r : Row) (idF idI : Nat) : List Nat :=
  (c.lanes r).zipIdx.map (fun x => if m.getLsbD x.2 then (if c.isInt then x.1 else c.widen x.1) else if c.isInt then idI else idF)

/-- vsum of a row (R204, R338). -/
def sumRow (c : VCtx) (m : Mask) (r : Row) : Word × Word :=
  if c.isInt then
    (BitVec.ofInt 64 (((c.reduceLanes m r 0 0).map (signed 32)).foldl (· + ·) 0), 0)
  else
    let l := (c.reduceLanes m r 0x80000000 0).map (fun x => (x, false))
    match treeReduce (fun a b => let s := fp32.addR .rne a.1 b.1; (s.1, s.2 || a.2 || b.2)) 9 l with
    | x :: _ => (BitVec.ofNat 64 x.1, invIf x.2)
    | [] => (0, 0)

/-- vrmax and vrmin of a row (R204, R338). -/
def extremeRow (c : VCtx) (isMax : Bool) (m : Mask) (r : Row) : Word × Word :=
  let l := c.reduceLanes m r (if isMax then 0xFF800000 else 0x7F800000) (if isMax then 0x80000000 else 0x7FFFFFFF)
  if c.isInt then
    match treeReduce (fun a b => if (signed 32 a < signed 32 b) = isMax then b else a) 9 l with
    | x :: _ => (BitVec.ofInt 64 (signed 32 x), 0)
    | [] => (0, 0)
  else
    match treeReduce (fp32.minmax isMax) 9 l with
    | x :: _ => (BitVec.ofNat 64 x, 0)
    | [] => (0, 0)

/-- A key that orders the lanes of an element format: NaN above +infinity, -0 below +0; integers signed (R200, R341). -/
def laneKey (F : Fmt) (isInt : Bool) (w x : Nat) : Int :=
  if isInt then signed w x
  else
    match F.decode x with
    | .nan => 2 ^ 40
    | _ =>
      let mag := x % 2 ^ (F.eb + F.mb)
      if x / 2 ^ (F.eb + F.mb) % 2 = 1 then -(mag : Int) - 1 else mag

/-- vargmax of a row: value and lane of the greatest lane that takes part, the lower lane on a tie (R204, R338). -/
def argmaxRow (c : VCtx) (m : Mask) (r : Row) : Word × Word :=
  let key := laneKey c.f c.isInt c.w
  let cand := (c.lanes r).zipIdx.filter (fun x => m.getLsbD x.2)
  let best := cand.foldl
    (fun (b : Option (Nat × Nat)) x => match b with | none => some x | some y => if key y.1 < key x.1 then some x else b) none
  match best with
  | none => (BitVec.ofNat 64 ((if c.isInt then 0x80000000 else 0xFF800000) * 2 ^ 32 + 0xFFFFFFFF), 0)
  | some (x, i) =>
    let v := if c.isInt then x else match c.f.decode x with | .nan => fp32.nan | _ => c.widen x
    (BitVec.ofNat 64 (v * 2 ^ 32 + i), 0)

/-- vsum (R338). -/
def execVsum (g : BitVec 4) (a sd : BitVec 5) (m : BitVec 3) : State → Out :=
  vecScalar (.vsum g a sd m) sd a [] 10 (fun c v => sumRow c (c.k.mask m) (v.r 0))

/-- vrmax (R338). -/
def execVrmax (g : BitVec 4) (a sd : BitVec 5) (m : BitVec 3) : State → Out :=
  vecScalar (.vrmax g a sd m) sd a [] 10 (fun c v => extremeRow c true (c.k.mask m) (v.r 0))

/-- vrmin (R338). -/
def execVrmin (g : BitVec 4) (a sd : BitVec 5) (m : BitVec 3) : State → Out :=
  vecScalar (.vrmin g a sd m) sd a [] 10 (fun c v => extremeRow c false (c.k.mask m) (v.r 0))

/-- vargmax (R338). -/
def execVargmax (g : BitVec 4) (a sd : BitVec 5) (m : BitVec 3) : State → Out :=
  vecScalar (.vargmax g a sd m) sd a [] 10 (fun c v => argmaxRow c (c.k.mask m) (v.r 0))

/-- A mask operation that writes a mask after one cycle (R337). -/
def maskOp (i : Instr) (d : BitVec 3) (f : VCtx → Mask) : State → Out :=
  issue i {}
    (fun q _ s => .done (s.later q.core 1 (.lmask d.toNat) ((f (vctx (s.core q.core))).setWidth 8192)) .next)

/-- The taking-part bits of a mask operand: lanes below n with m set (R337). -/
def VCtx.part (c : VCtx) (m : BitVec 3) : Mask := BitVec.ofNat 512 ((c.k.mask m).toNat % 2 ^ c.n)

/-- mand (R337). -/
def execMand (g : BitVec 4) (d a b : BitVec 3) : State → Out :=
  maskOp (.mand g d a b) d (fun c => c.k.mask a &&& c.k.mask b)

/-- mor (R337). -/
def execMor (g : BitVec 4) (d a b : BitVec 3) : State → Out :=
  maskOp (.mor g d a b) d (fun c => c.k.mask a ||| c.k.mask b)

/-- mxor (R337). -/
def execMxor (g : BitVec 4) (d a b : BitVec 3) : State → Out :=
  maskOp (.mxor g d a b) d (fun c => c.k.mask a ^^^ c.k.mask b)

/-- mnot (R337). -/
def execMnot (g : BitVec 4) (d a : BitVec 3) : State → Out :=
  maskOp (.mnot g d a) d (fun c => ~~~(c.k.mask a))

/-- mset (R337). -/
def execMset (g : BitVec 4) (d : BitVec 3) : State → Out :=
  maskOp (.mset g d) d (fun _ => BitVec.allOnes 512)

/-- mclr (R337). -/
def execMclr (g : BitVec 4) (d : BitVec 3) : State → Out :=
  maskOp (.mclr g d) d (fun _ => 0)

/-- mfirst: only the lowest selected bit (R337). -/
def execMfirst (g : BitVec 4) (d a m : BitVec 3) : State → Out :=
  maskOp (.mfirst g d a m) d
    (fun c => let x := c.k.mask a &&& c.part m; x &&& (0 - x))

/-- vany (R337). -/
def execVany (g : BitVec 4) (p a m : BitVec 3) : State → Out :=
  issue (.vany g p a m) {}
    (fun q _ s => let c := vctx (s.core q.core); .done (s.writeP q p 1 (c.k.mask a &&& c.part m != 0)) .next)

/-- vall (R337). -/
def execVall (g : BitVec 4) (p a m : BitVec 3) : State → Out :=
  issue (.vall g p a m) {}
    (fun q _ s => let c := vctx (s.core q.core); .done (s.writeP q p 1 (c.k.mask a &&& c.part m == c.part m)) .next)

/-- mcnt (R337). -/
def execMcnt (g : BitVec 4) (sd : BitVec 5) (a m : BitVec 3) : State → Out :=
  issue (.mcnt g sd a m) { dst := some sd }
    (fun q _ s =>
      let c := vctx (s.core q.core)
      .done (s.writeS q sd 1 (BitVec.ofNat 64 (onesCount 512 (c.k.mask a &&& c.part m).toNat))) .next)

/-- vadds (R339). -/
def execVadds (g : BitVec 4) (d a sb : BitVec 5) (m : BitVec 3) : State → Out :=
  laneS (.vadds g d a sb m) d a sb m 4 (fun c x y => withInv (c.f.addR c.mode x y))

/-- vsubs (R339). -/
def execVsubs (g : BitVec 4) (d a sb : BitVec 5) (m : BitVec 3) : State → Out :=
  laneS (.vsubs g d a sb m) d a sb m 4 (fun c x y => withInv (c.f.subR c.mode x y))

/-- vmuls (R339). -/
def execVmuls (g : BitVec 4) (d a sb : BitVec 5) (m : BitVec 3) : State → Out :=
  laneS (.vmuls g d a sb m) d a sb m 4 (fun c x y => withInv (c.f.mulR c.mode x y))

/-- vmins (R339). -/
def execVmins (g : BitVec 4) (d a sb : BitVec 5) (m : BitVec 3) : State → Out :=
  laneS (.vmins g d a sb m) d a sb m 2 (fun c x y => (c.f.minmax false x y, 0))

/-- vmaxs (R339). -/
def execVmaxs (g : BitVec 4) (d a sb : BitVec 5) (m : BitVec 3) : State → Out :=
  laneS (.vmaxs g d a sb m) d a sb m 2 (fun c x y => (c.f.minmax true x y, 0))

/-- vfmas: a × s + old lane, one rounding (R339). -/
def execVfmas (g : BitVec 4) (d a sb : BitVec 5) (m : BitVec 3) : State → Out :=
  vecRow (.vfmas g d a sb m) d [a] [sb] 4 true
    (fun c v =>
      laneResult c (c.k.mask m)
        (List.zipWith (fun x z => withInv (c.f.fmaR c.mode false x (c.elem (v.x 0)) z)) (c.lanes (v.r 0)) (c.lanes (v.r 1))))

/-- vbc: the low bits of s in every lane (R339). -/
def execVbc (g : BitVec 4) (d sb : BitVec 5) (m : BitVec 3) : State → Out :=
  vecRow (.vbc g d sb m) d [] [sb] 2 false
    (fun c v => (rowOf c.w (List.replicate c.n (c.elem (v.x 0))), laneBits c.w c.n (c.k.mask m), 0))

/-- vext: one lane, zero-extended (R340). -/
def execVext (g : BitVec 4) (sd a sb : BitVec 5) : State → Out :=
  vecScalar (.vext g sd a sb) sd a [sb] 2
    (fun c v => (BitVec.ofNat 64 ((v.r 0).toNat / 2 ^ (c.w * ((v.x 0).toNat % c.n)) % 2 ^ c.w), 0))

/-- vrot: r[i] := lane (i + S(sb)) mod n (R340). -/
def execVrot (g : BitVec 4) (d a sb : BitVec 5) (m : BitVec 3) : State → Out :=
  vecRow (.vrot g d a sb m) d [a] [sb] 2 false
    (fun c v =>
      let k := (v.x 0).toNat % c.n
      let l := c.lanes (v.r 0)
      (rowOf c.w (l.drop k ++ l.take k), laneBits c.w c.n (c.k.mask m), 0))

/-- The k greatest lanes that take part, the lower lane first on a tie (R341). -/
def topk (c : VCtx) (m : Mask) (r : Row) (k : Nat) : Mask :=
  let l := (c.lanes r).zipIdx.map (fun x => (laneKey c.f c.isInt c.w x.1, x.2))
  let cand := l.filter (fun x => m.getLsbD x.2)
  maskOf m (l.map (fun (x : Int × Nat) => decide ((cand.filter (fun (y : Int × Nat) => decide (x.1 < y.1) || (y.1 == x.1 && decide (y.2 < x.2)))).length < k)))

/-- vtopk (R341). -/
def execVtopk (g : BitVec 4) (d : BitVec 3) (a sb : BitVec 5) (m : BitVec 3) : State → Out :=
  vecMask (.vtopk g d a sb m) d [a] [sb] 24 (fun c v => topk c (c.k.mask m) (v.r 0) (v.x 0).toNat)

/-- vperm: lanes by index lanes (R342). -/
def execVperm (g : BitVec 4) (d a b : BitVec 5) (m : BitVec 3) : State → Out :=
  vecRow (.vperm g d a b m) d [a, b] [] 4 false
    (fun c v =>
      let l := (v.r 0).toNat
      (rowOf c.w ((c.lanes (v.r 1)).map (fun x => if x < c.n then l / 2 ^ (c.w * x) % 2 ^ c.w else 0)),
        laneBits c.w c.n (c.k.mask m), 0))

/-- The narrow format of a vpk or vupk code (R343). -/
def packFmt (f : Nat) : EFmt :=
  match f with
  | 0 => .f bf16 | 1 => .f fp16 | 2 => .f fp8e4m3 | 3 => .f fp8e5m2 | 4 => .f fp4e2m1 | 5 => .i8 | 6 => .ni | 7 => .i16
  | _ => .f fp4e2m1

/-- The mode an rm field names, with the dither entry of its index (R192, R194). -/
def rmMode (c : VCtx) (rm i j : Nat) : RMode :=
  match rm with
  | 0 => .rne
  | 1 => .rtz
  | 2 => .dither (bayer (i % 16) (j % 16))
  | _ => c.mode

/-- CLAMP and NAN of a conversion as flag bits (R195). -/
def convFlags (r : Nat × Bool × Bool) : Word := (if r.2.1 then flagClamp else 0) ||| (if r.2.2 then flagNan else 0)

/-- The dither row of a vector source: its row number, or 0 for a row from a load queue (R194). -/
def VCtx.ditherRow (c : VCtx) (va : BitVec 5) : Nat := if va.toNat < 28 then c.k.vrow va else 0

/-- The source fields of a vpk: consecutive rows, or one load queue r times (R344). -/
def packSrcs (va : BitVec 5) (r : Nat) : List (BitVec 5) :=
  (List.range r).map (fun t => if va.toNat < 28 then va + BitVec.ofNat 5 t else va)

/-- vpk (R344): the packed row, the bits it writes and its flags. -/
def packRow (c : VCtx) (v : Vals) (va : BitVec 5) (f rm : Nat) (m : Mask) : Row × Row × Word :=
  let F := packFmt f
  let r := packRows (BitVec.ofNat 4 f)
  let w := F.width
  let conv (t : Nat) : List (Nat × Bool × Bool) :=
    let row := c.ditherRow (if va.toNat < 28 then va + BitVec.ofNat 5 t else va)
    (rowLanes 32 256 (v.r t).toNat).zipIdx.map (fun x =>
      convert F (rmMode c rm row x.2) c.k.vclb.toNat (if c.isInt then EFmt.value .i32 x.1 else fp32.decode x.1))
  let rows := (List.range r).map conv
  let base := if f = 8 then 1024 else 0
  let val := (joinW w (rows.flatten.map (·.1))) * 2 ^ (base * w)
  let keep := (joinW w ((List.range r).flatMap (fun _ => (List.range 256).map (fun l => if m.getLsbD l then 2 ^ w - 1 else 0))))
    * 2 ^ (base * w)
  let fl := (rows.flatMap (fun l => (l.zipIdx.filter (fun x => m.getLsbD x.2)).map (fun x => convFlags x.1))).foldl (· ||| ·) 0
  (BitVec.ofNat 8192 val, BitVec.ofNat 8192 keep, fl)

/-- vpk (R344). -/
def execVpk (g : BitVec 4) (d a : BitVec 5) (f : BitVec 4) (r : BitVec 2) (m : BitVec 3) : State → Out :=
  vecRow (.vpk g d a f r m) d (packSrcs a (packRows f)) [] 4 false
    (fun c v => packRow c v a f.toNat r.toNat (c.k.mask m))

/-- The 32-bit value of a packed element (R345). -/
def unpackElem (f x : Nat) : Nat :=
  match packFmt f with
  | .i8 => codeOf 32 (signed 8 x)
  | .i16 => codeOf 32 (signed 16 x)
  | .ni => fp32.round .rne (.ofInt (2 * signed 8 x + 1) (-1) false)
  | F => fp32.round .rne (F.value x)

/-- The lane bits of 256 lanes of 32 bits under a mask. -/
def bits256 (m : Mask) : Row := laneBits 32 256 m

/-- vupk (R345). -/
def execVupk (g : BitVec 4) (d a : BitVec 5) (f : BitVec 4) (p : BitVec 2) (m : BitVec 3) : State → Out :=
  vecRow (.vupk g d a f p m) d [a] [] 4 false
    (fun c v =>
      let w := (packFmt f.toNat).width
      let base := (if f = 8 then 1024 else 0) + 256 * p.toNat
      (rowOf 32 ((rowLanes w 256 ((v.r 0).toNat / 2 ^ (w * base))).map (unpackElem f.toNat)), bits256 (c.k.mask m), 0))

/-- vcvi: FP32 to INT32 with clamp (R346). -/
def execVcvi (g : BitVec 4) (d a : BitVec 5) (r : BitVec 2) (m : BitVec 3) : State → Out :=
  vecRow (.vcvi g d a r m) d [a] [] 4 false
    (fun c v =>
      let l := (rowLanes 32 256 (v.r 0).toNat).zipIdx.map (fun x =>
        convert .i32 (rmMode c r.toNat (c.ditherRow a) x.2) c.k.vclb.toNat (fp32.decode x.1))
      let m := c.k.mask m
      (rowOf 32 (l.map (·.1)), bits256 m, ((l.zipIdx.filter (fun x => m.getLsbD x.2)).map (fun x => convFlags x.1)).foldl (· ||| ·) 0))

/-- vcvf: INT32 to FP32 (R346). -/
def execVcvf (g : BitVec 4) (d a : BitVec 5) (r : BitVec 2) (m : BitVec 3) : State → Out :=
  vecRow (.vcvf g d a r m) d [a] [] 4 false
    (fun c v =>
      (rowOf 32 ((rowLanes 32 256 (v.r 0).toNat).zipIdx.map (fun x =>
        toFp32 (rmMode c r.toNat (c.ditherRow a) x.2) (EFmt.value .i32 x.1))), bits256 (c.k.mask m), 0))

/-- vclp of one lane (R346): the lane and whether it clamped. -/
def clampLane (c : VCtx) (x : Nat) : Nat × Word :=
  if c.isInt then
    let b : Int :=
      match fp32.decode c.k.vclb.toNat with
      | .fin _ m e => min ((if 0 ≤ e then m * 2 ^ e.toNat else m / 2 ^ (-e).toNat : Nat) : Int) (2 ^ 31 - 1)
      | _ => 2 ^ 31 - 1
    let v := signed 32 x
    let r := max (-b) (min v b)
    (codeOf 32 r, if r = v then 0 else flagClamp)
  else
    match c.f.decode x with
    | .nan => (c.f.nan, 0)
    | y =>
      let F : EFmt := .f c.f
      let b := F.bound c.k.vclb.toNat
      let ovr := match y with | .fin _ m e => magGt m e b.1 b.2 | _ => true
      if ovr then
        let g := F.roundOn .rtz false b.1 b.2
        (F.codeOfGrid y.isNeg g.2.1 g.2.2, flagClamp)
      else (x, 0)

/-- vclp: clamps lanes to VCLB (R346). -/
def execVclp (g : BitVec 4) (d a : BitVec 5) (m : BitVec 3) : State → Out :=
  lane1 (.vclp g d a m) d a m 2 clampLane

/-- vwset: VWB := n (R332). -/
def execVwset (g : BitVec 4) (n : BitVec 16) : State → Out :=
  issue (.vwset g n) {} (fun q _ s => .done (s.later q.core 1 (.sys q.side 0x030) (n.setWidth 8192)) .next)

/-- vwin: VWB := (VWB + d) mod 1,536 (R332). -/
def execVwin (g : BitVec 4) (n : BitVec 16) : State → Out :=
  issue (.vwin g n) {}
    (fun q _ s =>
      let b := (((s.core q.core).vwb.toNat : Int) + n.toInt) % 1536
      .done (s.later q.core 1 (.sys q.side 0x030) (BitVec.ofNat 8192 b.toNat)) .next)

end Sys2Proof.Machine
end

