-- ==== Sys2Proof/Machine/Matrix.lean ====
section
/-! DEFINITION. Engine queues (R110, R111, R364) and the matrix engine (R123, R124, R202, R203, R229, R347 to R362). -/

namespace Sys2Proof.Machine

/-- The depth of an engine's queue (R123, R364). -/
def engDepth : Nat → Nat
  | 0 => 16
  | 1 => 4
  | 2 => 2
  | 7 => 64
  | _ => 8

/-- The commands in an engine's queue, oldest first. -/
def Core.engQueue (k : Core) (e : Nat) : List Cmd := tabGet [] e k.engQ
/-- Whether the queue has room. -/
def Core.engRoom (k : Core) (e : Nat) : Bool := decide ((k.engQueue e).length < engDepth e)
/-- The core with an engine's queue replaced. -/
def Core.setEngQueue (k : Core) (e : Nat) (l : List Cmd) : Core := { k with engQ := tabPut e l k.engQ }

/-- Accepts a command into the queue of engine e: it takes the next issue number and its snapshots (R110, R327, R364). -/
def State.accept (s : State) (c e : Nat) (i : Instr) (vals : List Word) (descs : List Rec512) : State :=
  s.onCore c (fun k =>
    let tag := k.issueNo e + 1
    let cmd : Cmd :=
      { tag := tag, ins := i, vals := vals, descs := descs, bfmt := k.bfmt, stamp := k.mstamp,
        ofRec := k.running.getD 0, at_ := s.ccyc c }
    { k.setEngQueue e (k.engQueue e ++ [cmd]) with issued := tabPut e tag k.issued })

/-- Writes the completion number of a command and notes the cycle for the context save (R110, R262); the numbers belong to
the record that runs, so a command of a record that has been killed writes none. -/
def State.completeCmd (s : State) (c e : Nat) (cmd : Cmd) : State :=
  s.onCore c (fun k =>
    if k.running.getD cmd.ofRec = cmd.ofRec then { k with completed := tabPut e cmd.tag k.completed, lastDone := s.keyc c }
    else k)

/-- The core with a job replaced by its number and engine. -/
def Core.putJob (k : Core) (j : Job) : Core :=
  { k with jobs := k.jobs.map (fun x => if x.id = j.id && x.eng = j.eng then j else x) }
/-- The core without a job. -/
def Core.dropJob (k : Core) (j : Job) : Core :=
  { k with jobs := k.jobs.filter (fun x => !(x.id = j.id && x.eng = j.eng)) }
/-- The jobs of an engine, in start order. -/
def Core.jobsOf (k : Core) (e : Nat) : List Job := k.jobs.filter (fun j => j.eng = e)

/-- An asynchronous fault on a job of engine e of core c: later commands of the core to it are held (R252). -/
def State.engFault (s : State) (c e : Nat) (cmd : Cmd) (job : Option Nat) (f : FaultInfo) : State :=
  let s := s.onCore c (fun k => { k with engHold := if k.engHold.contains e then k.engHold else e :: k.engHold })
  let p := s.faultPlace (dieOf c) { f with kind := 2, eng := e }
  s.raiseFor p.1 c (some cmd.ofRec) p.2 (some e) job 0

/-- Whether a core's checker holds 64 footprints of engine commands (R128). -/
def Core.fpFull (k : Core) (now : Nat) : Bool :=
  let l := (k.fps.filter (fun f => f.active now && f.issuer != .seqA && f.issuer != .vector)).map
    (fun f => (f.issuer, f.job))
  decide (64 ≤ l.eraseDups.length)

/-- The core whose checker is full among those whose stores the ranges of a starting job name (R126, R128). -/
def State.fullChecker (s : State) (now : Nat) (l : List (Nat × Range)) : Option Nat :=
  (l.map (·.1)).find? (fun o => (s.core o).fpFull now)

/-- The command of core c to engine e that found a checker full is abandoned: it does not start, and it holds those behind it
(R117, R258). -/
def State.abandonFull (s : State) (c e : Nat) : State :=
  let s := s.onCore c (fun k =>
    { k with engHold := List.insert e k.engHold
             jobs := k.jobs.map (fun j => if j.eng = e && j.st = .waiting then { j with st := .faulted } else j) })
  if e = 3 then s.onCluster (clusterOf c) (fun n => { n with trussQ := n.trussQ.erase c }) else s

/-- The freeze of a command of core c to engine e that finds the checker of core o full; a stopped record's command keeps no cluster
frozen and is abandoned (R114, R128, R258). -/
def State.freezeFull (s : State) (c e o : Nat) : State :=
  if s.isStopped c then s.abandonFull c e
  else s.freeze (clusterOf c) { cause := 7, core := c, side := none, req := some o, left := e }

/-- The number of a core's next job; the core stands in its low ten bits. -/
def Core.jobId (k : Core) (c : Nat) : Nat := k.nextJob * 1024 + c

/-- One operand of a matrix command, resolved at acceptance: its core, or accumulator rows (R351). -/
structure MOp where
  src : Option Nat
  d : Rec512
  fmt : Nat
  tr : Bool
  prm : Rec512
  tab : List Rec512
deriving DecidableEq, Repr

/-- A matrix command as it was accepted. Modes: 0 NI, 1 INT8, 2 FP8, 3 FP4, 4 BF16 or FP16 (R351). -/
structure MCmd where
  zero : Bool
  cd : Rec512
  a : MOp
  b : MOp
  mode : Nat
  planes : Nat
  acc : Bool
  tri : Nat
  i32 : Bool
deriving DecidableEq, Repr

/-- Line extent: rows of A, columns of B (R350). -/
def MOp.lines (o : MOp) : Nat :=
  if o.tr then dSize o.d 0 else if dWwalk o.d then min (dSize o.d 1) 128 else dSize o.d 1
/-- K extent (R350). -/
def MOp.kext (o : MOp) : Nat :=
  if o.fmt = 0x11 then dSize o.d 0 else if o.tr then dSize o.d 1 else dSize o.d 0 * dSize o.d 2
/-- The K offset within the first block row of a TWC operand (R352). -/
def MOp.off (o : MOp) : Nat := if o.fmt = 0x11 then 64 * (dSize o.d 3 - 1) else 0
/-- Weights per TWC block. -/
def MOp.blkLen (o : MOp) : Nat := 64 * pBlen o.prm
/-- The element index of a line and K index. -/
def MOp.index (o : MOp) (line k : Nat) : Option Int :=
  if o.tr then dIndex o.d line k 0 0 else dIndex o.d (k % dSize o.d 0) line (k / dSize o.d 0) 0
/-- The address of the TWC block that holds K index k of a column (R234). -/
def MOp.blkAddr (o : MOp) (line k : Nat) : Nat :=
  dBase o.d + ((o.off + k) / o.blkLen * o.lines + line) * twcBlock o.prm
/-- A byte of core h's store as a matrix job has fetched it: words that an error struck since are read as they were (R21; log
27). -/
def Job.rdStore (j : Job) (s : State) (h a : Nat) : Byte :=
  match j.hadRead.find? (fun w => w.1 = h && w.2.1 = a / 8) with
  | some w => BitVec.ofNat 8 (w.2.2 / 2 ^ (8 * (a % 8)))
  | none => readByte (s.core h).store a
/-- Reads one byte of the operand's store. -/
def Job.rd (j : Job) (s : State) (c : Nat) (o : MOp) : Nat → Byte :=
  match o.src with
  | some h => j.rdStore s h
  | none => (s.core c).accByte
/-- The code of an element. -/
def MOp.code (rd : Nat → Byte) (o : MOp) (line k : Nat) : Nat :=
  if o.fmt = 0x11 then twcCode rd o.prm o.tab (o.blkAddr line k) ((o.off + k) % o.blkLen)
  else
    match o.index line k with
    | none => 0
    | some x => elemCode rd o.fmt (dBaseBytes o.d) x

/-- Mode of an operand pair (R351). -/
def matMode (fa fb : Nat) : Option Nat :=
  let fp8 (f : Nat) : Bool := f == 0x0B || f == 0x0C
  if fa = 0x01 ∧ (fb = 0x10 ∨ fb = 0x11) then some 0
  else if fa = 0x01 ∧ fb = 0x01 then some 1
  else if fp8 fa && fp8 fb then some 2
  else if fa = 0x0D ∧ fb = 0x0D then some 3
  else if fa = fb ∧ (fa = 0x09 ∨ fa = 0x0A) then some 4
  else none
/-- K-chunk of a mode (R202). -/
def matKc : Nat → Nat
  | 0 | 1 => 64
  | 2 | 3 => 32
  | _ => 16
/-- Cycles per K index (R351). -/
def matCyc (mode p : Nat) : Nat :=
  match mode with
  | 0 => ceilDiv p 2
  | 1 | 2 => 4
  | 3 => 2
  | _ => 16

/-- M of a command, from C. -/
def MCmd.m (x : MCmd) : Nat := dSize x.cd 1
/-- N of a command, from C. -/
def MCmd.n (x : MCmd) : Nat := dSize x.cd 0
/-- K of a command. -/
def MCmd.k (x : MCmd) : Nat := x.a.kext
/-- Whether element (m, n) is kept (R229). -/
def MCmd.kept (x : MCmd) (m n : Nat) : Bool :=
  match x.tri with
  | 1 => decide ((n : Int) ≤ m + dTri x.cd)
  | 2 => decide ((m : Int) + dTri x.cd ≤ n)
  | _ => true
/-- Whether every sub-tile is wholly masked: no element is kept (R356). -/
def MCmd.masked (x : MCmd) : Bool :=
  match x.tri with
  | 1 => decide ((x.m : Int) - 1 + dTri x.cd < 0)
  | 2 => decide ((x.n : Int) - 1 < dTri x.cd)
  | _ => false
/-- r of R358. -/
def MCmd.r (x : MCmd) : Nat := if !x.zero && (dSpace x.a.d = 1 || dSpace x.b.d = 1) then 8 else 0
/-- Cycles from the start to the last K step's end: r + K c (R357, R358). -/
def MCmd.steps (x : MCmd) : Nat := if x.zero then x.m else if x.masked then 1 else x.r + x.k * matCyc x.mode x.planes
/-- Cycles from the start to the release posts (R358). -/
def MCmd.relAfter (x : MCmd) : Nat := if x.masked || x.zero then 0 else x.steps
/-- Whether a command reads the rows of C (R202, R229). -/
def MCmd.readsC (x : MCmd) : Bool := x.acc && !x.zero && !x.masked
/-- Cycles from the start to completion (R358). -/
def MCmd.doneAfter (x : MCmd) : Nat := if x.zero then x.m + 1 else x.relAfter + 24

/-- The chunks of K: first index and length (R202). -/
def MCmd.chunks (x : MCmd) : List (Nat × Nat) :=
  let kc := matKc x.mode
  (List.range (ceilDiv x.k kc)).map (fun j => (j * kc, min kc (x.k - j * kc)))

/-- The pieces of a chunk: NI chunks split at scale groups (R190, R202). -/
def MCmd.pieces (x : MCmd) (q : Nat × Nat) : List (Nat × Nat) :=
  if x.mode = 0 then
    let l := min 64 (pGroup x.b.prm)
    (List.range (ceilDiv q.2 l)).map (fun i => (q.1 + i * l, min l (q.2 - i * l)))
  else [q]

/-- The scale code of a line at K index k (R232): BF16, FP32 or E8M0 by SKIND. rd reads the scale array's store. -/
def MOp.scale (rd : Nat → Byte) (o : MOp) (line k : Nat) : Nat :=
  let at_ (a n : Nat) : Nat := natOfBytes ((List.range n).map (fun j => rd (a + j)))
  match pSkind o.prm with
  | 1 => at_ (pScale o.prm + ((o.off + k) / pGroup o.prm * o.lines + line) * 2) 2
  | 2 => at_ (pScale o.prm + line * 4) 4
  | 3 => at_ (pScale o.prm + (k / 32 * o.lines + line)) 1
  | _ => 0x3F800000

/-- The exact sum of products with R203's special values, and INV; bad: an operand or scale was a NaN. -/
def exactSum (l : List (FVal × Bool)) (bad : Bool) : FVal × Bool :=
  let r := l.foldl
    (fun (a : FVal × Bool) p => let t := FVal.add .rne a.1 p.1; (t.1, a.2 || p.2 || t.2)) (.fin true 0 0, false)
  (r.1, r.2 && !bad)

/-- What a matrix command reads: bytes of A, B and of their scale arrays. -/
structure MReads where
  a : Nat → Byte
  b : Nat → Byte
  sa : Nat → Byte
  sb : Nat → Byte

/-- The value of a code of one of the floating formats of an operand. -/
def fpValue (f v : Nat) : FVal :=
  match eFmt f with
  | some e => e.value v
  | none => .nan

/-- The integer sum of a piece in NI and INT8 mode (R202, R355). -/
def MCmd.intSum (x : MCmd) (rd : MReads) (m n : Nat) (p : Nat × Nat) : Int :=
  (List.range p.2).foldl
    (fun s i =>
      let a := signed 8 (x.a.code rd.a m (p.1 + i))
      let c := signed 8 (x.b.code rd.b n (p.1 + i))
      s + a * (if x.mode = 0 then 2 * (c / 2 ^ (8 - x.planes)) + 1 else c)) 0

/-- The exact sum of a chunk in the floating modes (R202, R203). -/
def MCmd.fpSum (x : MCmd) (rd : MReads) (m n : Nat) (p : Nat × Nat) : FVal × Bool :=
  let sa := if x.mode = 3 then EFmt.e8m0.value (x.a.scale rd.sa m p.1) else .fin false 1 0
  let sb := if x.mode = 3 then EFmt.e8m0.value (x.b.scale rd.sb n p.1) else .fin false 1 0
  let ab := (List.range p.2).map
    (fun i => (fpValue x.a.fmt (x.a.code rd.a m (p.1 + i)), fpValue x.b.fmt (x.b.code rd.b n (p.1 + i))))
  let bad := sa = .nan || sb = .nan || ab.any (fun y => y.1 = .nan || y.2 = .nan)
  exactSum (ab.map (fun y => let q := FVal.mul y.1 y.2; ((FVal.mul (FVal.mul q.1 sa).1 sb).1, q.2))) bad

/-- V(S) of a piece as an FP32 code, and INV (R202, R355). -/
def MCmd.value (x : MCmd) (rd : MReads) (m n : Nat) (p : Nat × Nat) : Nat × Bool :=
  match x.mode with
  | 0 =>
    let t := fp32.round .rne (.ofInt (x.intSum rd m n p) (7 - (x.planes : Int)) false)
    let t := fp32.mulR .rne t (x.a.scale rd.sa m p.1)
    let u := fp32.mulR .rne t.1 (x.b.scale rd.sb n p.1 * 2 ^ 16)
    (u.1, t.2 || u.2)
  | 1 => (fp32.round .rne (.ofInt (x.intSum rd m n p) 0 false), false)
  | _ => let r := x.fpSum rd m n p; (fp32.round .rne r.1, r.2)

/-- Clamps to signed 32 bits. -/
def sat32 (v : Int) : Int := max (-(2 ^ 31)) (min v (2 ^ 31 - 1))

/-- C[m][n] and the flags it sets (R202, R203, R229). -/
def MCmd.elem (x : MCmd) (rd : MReads) (old m n : Nat) : Nat × Word :=
  if !x.kept m n then (dMask x.cd, 0)
  else
    let ps := x.chunks.flatMap x.pieces
    if x.i32 then
      let r := ps.foldl
        (fun (a : Int × Word) p =>
          let t := a.1 + x.intSum rd m n p
          (sat32 t, if sat32 t = t then a.2 else a.2 ||| flagSat)) (if x.acc then signed 32 old else 0, 0)
      (codeOf 32 r.1, r.2)
    else
      ps.foldl
        (fun (a : Nat × Word) p =>
          let v := x.value rd m n p
          let t := fp32.addR .rne a.1 v.1
          (t.1, a.2 ||| invIf (v.2 || t.2))) (if x.acc then old else 0x80000000, 0)

/-- The lanes of C that a command writes in each row. -/
def MCmd.rowMask (x : MCmd) : Row := BitVec.ofNat 8192 (2 ^ (32 * x.n) - 1)

/-- Row m of the result and its flags. -/
def MCmd.row (x : MCmd) (rd : MReads) (old : Row) (m : Nat) : Row × Word :=
  let l := (List.range x.n).map (fun n => x.elem rd (bits old (32 * n + 31) (32 * n)) m n)
  (rowOf 32 (l.map (·.1)), l.foldl (fun a y => a ||| y.2) 0)

/-- The first and last byte of an operand (R126, R238). -/
def MOp.span (p : Nat) (o : MOp) : Option (Int × Int) :=
  if o.fmt = 0x11 then
    some (dBase o.d, dBase o.d + (ceilDiv (o.off + o.kext) o.blkLen * o.lines * twcBlock o.prm : Nat) - 1)
  else
    (dSpan o.d).map (fun r =>
      ((elemBytes o.fmt p (dBaseBytes o.d) r.1).1, (elemBytes o.fmt p (dBaseBytes o.d) r.2).2))

/-- The first byte and the length of the scale-array bytes a command reads (R232). -/
def MOp.scaleSpan (o : MOp) (k : Nat) : Option (Nat × Nat) :=
  let n := o.lines
  match pSkind o.prm with
  | 1 =>
    let g := o.off / pGroup o.prm
    some (pScale o.prm + g * n * 2, ((o.off + k - 1) / pGroup o.prm + 1 - g) * n * 2)
  | 2 => some (pScale o.prm, n * 4)
  | 3 => some (pScale o.prm, ceilDiv k 32 * n)
  | _ => none

/-- A sorted insertion that keeps one of each. -/
def insertOnce (x : Nat) : List Nat → List Nat
  | [] => [x]
  | y :: r => if x < y then x :: y :: r else if x = y then y :: r else y :: insertOnce x r

/-- The 1 KiB windows of a list of byte addresses, ascending. -/
def windowsOf (l : List Int) : List Nat := l.foldl (fun a b => insertOnce (b / 1024).toNat a) []

/-- The first and last byte of everything an operand reads in a chunk (R359). -/
def MOp.chunkRanges (p : Nat) (o : MOp) (q : Nat × Nat) : List (Int × Int) :=
  (List.range o.lines).flatMap (fun l =>
    (List.range q.2).flatMap (fun i =>
      let k := q.1 + i
      if o.fmt = 0x11 then
        let lb := 8 * twcBlock o.prm
        let b := (o.off + k) % o.blkLen * pAdv o.prm / 4
        [0, 8, 15].map (fun j => let a : Int := (o.blkAddr l k + (b + j) % lb / 8 : Nat); (a, a))
      else
        match o.index l k with
        | none => []
        | some x => [elemBytes o.fmt p (dBaseBytes o.d) x]))

/-- The first byte and the length of the scales an operand reads in a chunk. -/
def MOp.chunkScales (o : MOp) (q : Nat × Nat) : Option (Nat × Nat) :=
  let n := o.lines
  match pSkind o.prm with
  | 1 =>
    let g0 := (o.off + q.1) / pGroup o.prm
    let g1 := (o.off + q.1 + q.2 - 1) / pGroup o.prm
    some (pScale o.prm + g0 * n * 2, (g1 + 1 - g0) * n * 2)
  | 2 => some (pScale o.prm, n * 4)
  | 3 => some (pScale o.prm + q.1 / 32 * n, n)
  | _ => none

/-- The 1 KiB windows of n bytes from a on, ascending. -/
def windowsFrom (a n : Nat) : List Nat := (List.range ((a + n - 1) / 1024 + 1 - a / 1024)).map (· + a / 1024)

/-- A fetch: its cycle counted from the first K step, the core and 1 KiB window it reads, its operand, and whether it reads the
operand's scale array (R359). -/
structure Fetch where
  at_ : Nat
  core : Nat
  window : Nat
  isB : Bool
  scale : Bool
deriving DecidableEq, Repr

/-- Places the fetches of one chunk; none when one falls past the chunk's window (R359). -/
def placeFetches (t0 len : Nat) (done : List Fetch) : List Fetch → Option (List Fetch)
  | [] => some done
  | x :: r =>
    let n := (done.filter (fun f => f.core = x.core && f.window / 128 = x.window / 128)).length
    if n < len then placeFetches t0 len (done ++ [{ x with at_ := t0 + n }]) r else none

/-- The core whose store holds an operand's scale array (R231). -/
def MOp.scaleCore (c : Nat) (o : MOp) : Nat := o.src.getD c

/-- The fetches of a command of core c; none when its layout is illegal (R359). -/
def MCmd.fetches (x : MCmd) (c : Nat) : Option (List Fetch) :=
  let cyc := matCyc x.mode x.planes
  x.chunks.foldl
    (fun acc q =>
      let op (o : MOp) (isB : Bool) : List Fetch :=
        match o.src with
        | none => []
        | some h => (windowsOf ((o.chunkRanges x.planes q).flatMap (fun e => [e.1, e.2]))).map (fun w => ⟨0, h, w, isB, false⟩)
      let sc (o : MOp) (isB : Bool) : List Fetch :=
        match o.chunkScales q with
        | none => []
        | some r => (windowsFrom r.1 r.2).map (fun w => ⟨0, o.scaleCore c, w, isB, true⟩)
      acc.bind (fun l =>
        (placeFetches (cyc * q.1) (cyc * q.2) [] (op x.a false ++ op x.b true ++ sc x.a false ++ sc x.b true)).map
          (l ++ ·))) (some [])

/-- The command a queue entry holds. -/
def Cmd.mat (cmd : Cmd) : MCmd :=
  let d (n : Nat) : Rec512 := cmd.descs.getD n 0
  let v (n : Nat) : Nat := (cmd.vals.getD n 0).toNat
  let src (n : Nat) : Option Nat := if n = 0 then none else some (n - 1)
  match cmd.ins with
  | .mma _ _ _ _ x _ t u w _ i =>
    { zero := false, cd := d 0, a := ⟨src (v 3), d 1, v 0, u = 1, d 3, []⟩,
      b := ⟨src (v 4), d 2, v 1, w = 1, d 4, [d 5, d 6, d 7, d 8]⟩, mode := (matMode (v 0) (v 1)).getD 0,
      planes := v 2, acc := x = 1, tri := t.toNat, i32 := i = 1 }
  | _ =>
    { zero := true, cd := d 0, a := ⟨none, 0, 0, false, 0, []⟩, b := ⟨none, 0, 0, false, 0, []⟩, mode := 4,
      planes := 0, acc := false, tri := 0, i32 := false }

/-- Whether a command is stamped (R123, R347, R348). -/
def Cmd.stamped (cmd : Cmd) : Bool :=
  match cmd.ins with
  | .mma _ _ _ _ _ t _ _ _ _ _ => t = 1
  | .mzero _ _ t => t = 1
  | _ => false

/-- Whether a C descriptor is refused, with the record it names (R233, R325, R350, R353, R354); FMT 0xFF of rows is FP32. -/
def cBad (d : Rec512) (fmts : List Nat) (prm : Rec512) : Bool :=
  descBad d true false || (dPrec d != 0 && recordBad prm (if dFmt d = 0xFF then 0x08 else dFmt d) [0]) || dSpace d != 2 || !fmts.contains (dFmt d) || planesBad d 0x08 || dSize d 2 != 1
    || dSize d 3 != 1 || dStride d 0 != 1 || dStride d 1 != 256 || dWwalk d || decide (128 < dSize d 1)
    || decide (256 < dSize d 0)

/-- Whether C's rows pass row 1,535 (R135, R353). -/
def cAddr (d : Rec512) : Bool := decide (1536 < dBase d + dSize d 1)

/-- The scale kinds of a matrix operand (R352). -/
def matKinds (mode : Nat) (isB : Bool) : List Nat :=
  match mode, isB with
  | 0, false => [0, 2]
  | 0, true => [1]
  | 3, _ => [3]
  | _, _ => [0]

/-- Whether an operand's shape, format or record is refused (R323, R325, R350 to R352). -/
def MOp.bad (o : MOp) (mode : Nat) (isB : Bool) : Bool :=
  let d := o.d
  descBad d false false || planesBad d o.fmt
    || (if dPrec d = 0 then !(matKinds mode isB).contains 0 else recordBad o.prm o.fmt (matKinds mode isB))
    || o.lines == 0 || decide ((if isB then 256 else 128) < o.lines) || o.kext == 0
    || (if o.fmt = 0x11 then
          dStride d 0 != 0 || dStride d 1 != 0 || dStride d 2 != 0 || dStride d 3 != 0 || dSize d 2 != 1 || dWwalk d
            || o.tr || decide (pBlen o.prm < dSize d 3)
        else if o.tr then dSize d 2 != 1 || dSize d 3 != 1 || dWwalk d
        else if dWwalk d then isB || (decide (128 < dSize d 1) && decide (((dSize d 3 : Int) + 128) < dOH d * dOW d))
        else dSize d 3 != 1)
    || (o.fmt == 0x10 && niStrides d)

/-- Whether a byte range leaves its store. -/
def spanAddr (sp : Option (Int × Int)) (size : Nat) : Bool :=
  match sp with
  | none => false
  | some (a, b) => decide (a < 0) || decide ((size : Int) ≤ b)

/-- Whether an operand's ranges pass the end of a store, its record's included (R131, R135, R231). -/
def MOp.addr (o : MOp) (p k : Nat) : Bool :=
  spanAddr (o.span p) (if o.src = none then 1536 * 1024 else 2 ^ 21)
    || spanAddr ((o.scaleSpan k).map (fun x => ((x.1 : Int), (x.1 + x.2 - 1 : Nat)))) (2 ^ 21)
    || (dPrec o.d != 0 && decide (2 ^ 21 < dPrec o.d + (if o.fmt = 0x11 then 320 else 64)))

/-- The accumulator rows of a byte span. -/
def rowSpan (sp : Option (Int × Int)) : Option (Nat × Nat) := sp.map (fun r => ((r.1 / 1024).toNat, (r.2 / 1024).toNat))

/-- The checks of an mma at acceptance (R250, R354): the snapshots it queues, or the fault. -/
def mmaCheck (s : State) (c : Nat) (i : Instr) (dc da db : BitVec 4) (pl : Nat) :
    Except FaultCode (List Word × List Rec512) :=
  let k := s.core c
  let cd := k.descr dc
  let a := k.descr da
  let b := k.descr db
  let sa := s.srcCore c a
  let sb := s.srcCore c b
  if dSpace b ≥ 2 || dSpace a ≥ 3 || (dSpace a != 2 && sa.isNone) || sb.isNone || (dSpace a == 2 && dFmt a == 0xFF) then
    .error .descriptor
  else
    let fa := if dSpace a = 2 then dFmt a else s.storeFmt (sa.getD 0) a
    let fb := s.storeFmt (sb.getD 0) b
    let p := if pl != 0 then pl + 1
      else if dPlanes b != 0 then dPlanes b
      else bits ((s.core (sb.getD 0)).bfmtOf (dBase b / 2 ^ 17)) 11 8
    let enc (o : Option Nat) : Word := match o with | none => 0 | some n => BitVec.ofNat 64 (n + 1)
    let vals := [BitVec.ofNat 64 fa, BitVec.ofNat 64 fb, BitVec.ofNat 64 p, enc sa, enc sb]
    let descs := [cd, a, b, (readRecord k a).getD 0 0] ++ readRecord k b
    let rc := (readRecord k cd).getD 0 0
    match matMode fa fb with
    | none => .error .descriptor
    | some mode =>
      let x := ({ tag := 0, ins := i, vals := vals, descs := descs, bfmt := [], stamp := 0, ofRec := 0, at_ := 0 } : Cmd).mat
      let ovr := match (if dSpace a = 2 then rowSpan (x.a.span p) else none) with
        | none => false
        | some r => decide (r.1 < dBase cd + x.m) && decide (dBase cd ≤ r.2)
      if cBad cd (if x.i32 then [0x03] else [0x08, 0xFF]) rc || x.a.bad mode false || x.b.bad mode true
          || (mode != 0 && pl != 0) || (mode == 0 && (decide (p < 2) || decide (8 < p) || x.b.tr || x.k % 64 != 0))
          || (x.i32 && decide (1 < mode)) || (dSpace a == 2 && fa == 0x0D)
          || x.a.lines != x.m || x.b.lines != x.n || x.a.kext != x.b.kext || decide (2 ^ 20 < x.k) || ovr
          || (x.fetches c).isNone then .error .descriptor
      else if cAddr cd || x.a.addr p x.k || x.b.addr p x.k then .error .addr
      else if (dSpace a != 2 && dBase a % fmtBytes fa != 0) || dBase b % fmtBytes fb != 0 then .error .align
      else .ok (vals, descs)

/-- The uncorrectable error in the parameter records that an mma's operands name (R21, R233). -/
def mmaRecords (s : State) (c : Nat) (dc da db : BitVec 4) : Option FaultInfo :=
  let k := s.core c
  let ecc (d : Rec512) : Option FaultInfo := k.recordEcc c d (((s.srcCore c d).map (fun o => s.storeFmt o d)).getD 0)
  (ecc (k.descr dc)).or ((ecc (k.descr da)).or (ecc (k.descr db)))

/-- A matrix command: it waits for queue space, is checked and is accepted (R111, R349, R354). -/
def issueMatrix (i : Instr) (chk : State → Nat → Except FaultInfo (List Word × List Rec512)) : State → Out :=
  issueWith i {} (fun _ s => .done s .next)
    (fun q _ s =>
      if !(s.core q.core).engRoom 1 then .wait (.engineRoom 1)
      else
        match chk s q.core with
        | .error f => .fault f
        | .ok r => .done (s.accept q.core 1 i r.1 r.2) .next)

/-- mma (R347 to R354). -/
def execMma (g c a b : BitVec 4) (x s_ : BitVec 1) (t : BitVec 2) (u v : BitVec 1) (p : BitVec 3) (i : BitVec 1) :
    State → Out :=
  let ins : Instr := .mma g c a b x s_ t u v p i
  issueMatrix ins (fun s core =>
    match mmaRecords s core c a b with
    | some f => .error f
    | none =>
      match mmaCheck s core ins c a b p.toNat with
      | .error f => .error { code := f }
      | .ok r => .ok r)

/-- mzero (R348, R353). -/
def execMzero (g c : BitVec 4) (s_ : BitVec 1) : State → Out :=
  issueMatrix (.mzero g c s_)
    (fun s core =>
      let k := s.core core
      let cd := k.descr c
      match k.recordEcc core cd 0x08 with
      | some f => .error f
      | none =>
        if cBad cd [0x08, 0xFF, 0x03] ((readRecord k cd).getD 0 0) then .error { code := .descriptor }
        else if cAddr cd then .error { code := .addr }
        else .ok ([], [cd]))

/-- The rows of C as a range. -/
def MCmd.cRange (x : MCmd) : Range := { acc := true, lo := dBase x.cd, hi := dBase x.cd + x.m - 1, write := true }

/-- The ranges an operand reads: the core whose store it is, and the range (R126, R361). -/
def MOp.ranges (c : Nat) (o : MOp) (p k : Nat) : List (Nat × Range) :=
  (match o.span p with
   | none => []
   | some r =>
     match o.src with
     | none => [(c, ⟨true, (r.1 / 1024).toNat, (r.2 / 1024).toNat, false⟩)]
     | some h => [(h, ⟨false, r.1.toNat, r.2.toNat, false⟩)])
    ++ (match o.scaleSpan k with
        | none => []
        | some r => [(o.scaleCore c, ⟨false, r.1, r.1 + r.2 - 1, false⟩)])

/-- Whether an incomplete earlier command writes rows that this one reads or writes (R357). -/
def MCmd.blockedBy (x : MCmd) (e : MCmd) : Bool :=
  let hit (lo hi : Nat) : Bool := decide (lo ≤ e.cRange.hi) && decide (e.cRange.lo ≤ hi)
  hit x.cRange.lo x.cRange.hi
    || (match (if x.a.src = none && !x.zero then rowSpan (x.a.span x.planes) else none) with
        | none => false
        | some r => hit r.1 r.2)

/-- Whether the matrix engine of a core is ready for a command in cycle now (R123, R357). -/
def Core.matReady (k : Core) (now : Nat) (x : MCmd) : Bool :=
  decide (k.matrixFree ≤ now) && (k.jobsOf 1).all (fun j => !x.blockedBy j.cmd.mat)

/-- Checks and adds footprints over several cores' stores: whether all pass, and the state after the same-cycle rule. -/
def State.checkAll (s : State) (iss : Issuer) (l : List (Nat × Range)) : State × Bool :=
  l.foldl (fun a r => let t := a.1.checkFps r.1 iss [r.2]; (t.1, a.2 && t.2)) (s, true)

/-- Adds footprints of a job over several cores' stores. -/
def State.addAll (s : State) (iss : Issuer) (job : Nat) (l : List (Nat × Range)) (start : Nat) (last : Option Nat) :
    State :=
  l.foldl (fun s r => s.onCore r.1 (·.addFps iss job [r.2] start last)) s

/-- One of a command's operands. -/
def MCmd.operand (x : MCmd) (isB : Bool) : MOp := if isB then x.b else x.a

/-- Whether two operands are one read: the same base, shape and format from the same core; the planes read belong to the
format of an NI or TWC operand (R124). -/
def MOp.sameRead (a b : MOp) (pa pb : Nat) : Bool :=
  a.src == b.src && dBase a.d == dBase b.d && a.fmt == b.fmt && bits a.d 383 128 == bits b.d 383 128
    && dWwalk a.d == dWwalk b.d && dZfill a.d == dZfill b.d && (decide (a.fmt < 0x10) || pa == pb)

/-- Whether a fetch of core p's command y is the same read as fetch f of core c's command x: both stamped and started in one
cycle, of one window in one cycle, from a core that is another than either, and of operands (or of scale arrays) that are one
read (R124). -/
def Fetch.shares (f : Fetch) (c : Nat) (x : MCmd) (p : Nat) (y : MCmd) (g : Fetch) : Bool :=
  let a := x.operand f.isB
  let b := y.operand g.isB
  dSpace a.d == 1 && dSpace b.d == 1 && f.core != c && f.core != p && f.core == g.core && f.window == g.window
    && f.scale == g.scale && x.r + f.at_ == y.r + g.at_ && a.sameRead b x.planes y.planes && (!f.scale || a.prm == b.prm)

/-- The uses of banks and links that the fetches of a command of job id starting in cycle now make (R115, R359), identical
stamped reads of other cores in this cycle being one multicast read (R124). -/
def State.fetchUses (s : State) (c now id : Nat) (stamped : Bool) (x : MCmd) : List Use :=
  let peers : List (Nat × MCmd × List Fetch) := if !stamped then [] else
    (List.range 8).flatMap (fun i =>
      let p := clusterOf c * 8 + i
      if p = c then [] else
      ((s.core p).jobsOf 1).filterMap (fun j =>
        let y := j.cmd.mat
        if j.start = now && j.cmd.stamped && j.st = .running && !y.zero && !y.masked then some (p, y, (y.fetches p).getD [])
        else none))
  ((x.fetches c).getD []).flatMap (fun f =>
    let t := now + x.r + f.at_
    let with_ := (peers.filter (fun y => y.2.2.any (f.shares c x y.1 y.2.1))).map (·.1)
    let taken := with_.flatMap (fun p => ringHops f.core p)
    (if with_.isEmpty then [{ at_ := t, key := f.core * 32 + f.window / 128, prio := usePrio 1 c, job := some id }] else [])
      ++ (if f.core = c then [] else
          (ringHops f.core c).zipIdx.filterMap (fun hj =>
            if taken.contains hj.1 then none
            else some { at_ := t + 2 * (hj.2 + 1), key := hj.1, prio := usePrio 1 c, job := some id })))

/-- The head of a core's matrix queue, when it may move in cycle now: at the head, nothing held (R357, R360). -/
def Core.matHead (k : Core) (now : Nat) : Option Cmd :=
  match k.engQueue 1 with
  | [] => none
  | cmd :: _ =>
    if decide (cmd.at_ < now) && !k.engHold.contains 1 && (k.jobsOf 1).all (fun j => decide (j.start < now)) then some cmd
    else none

/-- The uncorrectable error in a range of a core's stores that an engine reads (R21, R259). -/
def State.eccRange (s : State) (r : Nat × Range) : Option Nat :=
  if r.2.acc then (s.core r.1).eccIn r.1 true (1024 * r.2.lo) (1024 * r.2.hi + 1023)
  else (s.core r.1).eccIn r.1 false r.2.lo r.2.hi

/-- The uncorrectable error in core-store ranges (address and bytes) that an engine reads (R21, R259). -/
def State.eccBytes (s : State) (c : Nat) (l : List (Nat × Nat)) : Option Nat :=
  (l.filter (fun r => r.2 != 0)).findSome? (fun r => s.eccRange (c, bytesAt r.1 r.2 false))

/-- Whether MATRIX_COMMAND_START may happen on a core in cycle now. -/
def Core.matCanStart (k : Core) (now : Nat) : Bool :=
  match k.matHead now with
  | none => false
  | some cmd => if cmd.stamped then decide (cmd.stamp.toNat ≤ now) else k.matReady now cmd.mat

/-- MATRIX_COMMAND_START: the head starts, misses its stamp, or fails its footprint check (R123, R357, R360, R361). -/
def execMatrixCommandStart (c : Nat) (s : State) : Out :=
  if s.frozen (clusterOf c) then .fault .notEnabled else
  let k := s.core c
  let now := s.ccyc c
  match k.matHead now with
  | none => .fault .notEnabled
  | some cmd =>
    let x := cmd.mat
    let miss (cause : Nat) : Out :=
      .next (s.engFault c 1 cmd none { code := .scheduleMiss, cause := cause, aux := cmd.stamp.toNat })
    if cmd.stamped && decide (cmd.stamp.toNat < now) then miss 1
    else if cmd.stamped && decide (now < cmd.stamp.toNat) then .fault .notEnabled
    else if !k.matReady now x then (if cmd.stamped then miss 2 else .fault .notEnabled)
    else
      let opA := if x.zero then [] else x.a.ranges c x.planes x.k
      let opB := if x.zero then [] else x.b.ranges c x.planes x.k
      let iss := Issuer.matrix c
      if !x.zero && (x.a.src.toList ++ x.b.src.toList).any (s.rom.coreSecret c) then .next (s.engFault c 1 cmd none { code := .security })
      else
      match s.fullChecker now ((c, x.cRange) :: (opA ++ opB)) with
      | some o => .next (s.freezeFull c 1 o)
      | none =>
      let chk := s.checkAll iss ((c, x.cRange) :: (opA ++ opB))
      if !chk.2 then .next (chk.1.engFault c 1 cmd none { code := .footprint })
      else
        let id := k.jobId c
        let rel := if x.zero || x.masked then now + 1 else now + x.relAfter
        let done := now + x.doneAfter
        let lastOf (o : MOp) : Option Nat := if dRel o.d then some (now + x.relAfter) else none
        let s := s.addAll iss id [(c, x.cRange)] now none
        let s := s.addAll iss id opA now (lastOf x.a)
        let s := s.addAll iss id opB now (lastOf x.b)
        let uses := if x.zero || x.masked then [] else s.fetchUses c now id cmd.stamped x
        let job : Job :=
          { id := id, eng := 1, cmd := cmd, st := .running, entry := 0, start := now, release := rel,
            released := false, done := done, aux := [] }
        let s := s.addUses (clusterOf c) uses
        .next (s.onCore c (fun k =>
          { k.setEngQueue 1 (k.engQueue 1).tail with
            jobs := k.jobs ++ [job], nextJob := k.nextJob + 1, matrixFree := now + x.steps }))

/-- The core-store words with an uncorrectable error that a fetch of a command of core c reads, by core and word (R21, R359). -/
def State.fetchBad (s : State) (x : MCmd) (f : Fetch) : List Nat :=
  let cyc := matCyc x.mode x.planes
  let o := x.operand f.isB
  let near := (s.core f.core).bad.filter (fun w => w / 128 = f.window)
  if near.isEmpty then []
  else
    let rs := ((x.chunks.filter (fun q => decide (cyc * q.1 ≤ f.at_) && decide (f.at_ < cyc * (q.1 + q.2)))).flatMap (fun q =>
      if f.scale then ((o.chunkScales q).map (fun r => ((r.1 : Int), ((r.1 + r.2 - 1 : Nat) : Int)))).toList
      else o.chunkRanges x.planes q) : List (Int × Int))
    near.filter (fun w => rs.any (fun r => decide (r.1 ≤ (8 * w + 7 : Nat)) && decide (((8 * w : Nat) : Int) ≤ r.2)))

/-- The uncorrectable error that a matrix job of core c meets in cycle now: in the fetches of this cycle, and as its last K step is
over in accumulator rows of A and in the rows of C that it adds to (R21, R258, R359, R361). -/
def State.matEcc (s : State) (c now : Nat) (j : Job) : Option Nat :=
  let x := j.cmd.mat
  let cores := (List.range 8).map (clusterOf c * 8 + ·)
  if j.st != .running || j.released || x.zero || x.masked || cores.all (fun p => (s.core p).bad.isEmpty) then none
  else
    let rows (r : Range) : Option Nat := (s.core c).eccIn c true (1024 * r.lo) (1024 * r.hi + 1023)
    let now_ := ((x.fetches c).getD []).filter (fun f => j.start + x.r + f.at_ = now)
    (now_.findSome? (fun f => (s.fetchBad x f).head?.map (fun w => dieOf f.core * 2 ^ 32 + 8 * w))).or
      (if now < j.release then none
       else (match x.a.src, rowSpan (x.a.span x.planes) with
             | none, some r => rows ⟨true, r.1, r.2, false⟩
             | _, _ => none).or (if x.readsC then rows x.cRange else none))

/-- The rows of C as the partial writes of a faulted command leave them: the elements it would have written hold values that
nothing constrains (R361; log 27). -/
def State.looseRows (s : State) (c : Nat) (x : MCmd) : State :=
  (List.range x.m).foldl (fun s m =>
    let f := s.freeValue
    f.2.onCore c (·.putRow (dBase x.cd + m) x.rowMask f.1)) s

/-- An uncorrectable error in a fetch of a matrix job stops the job as ENGINE would; it fetches nothing more (R258, R259, R361). -/
def matrixEcc (c : Nat) (s : State) : Out :=
  if s.frozen (clusterOf c) then .fault .notEnabled else
  let k := s.core c
  match (k.jobsOf 1).findSome? (fun j => (s.matEcc c (s.ccyc c) j).map (fun e => (j, e))) with
  | none => .fault .notEnabled
  | some (j, e) =>
    let s := s.looseRows c j.cmd.mat
    let s := s.onCluster (clusterOf c) (fun n => { n with uses := n.uses.filter (fun u => u.job != some j.id) })
    let s := (s.dropAll (clusterOf c) (.matrix c) j.id).onCore c (·.putJob { j with st := .faulted })
    .next (s.engFault c 1 j.cmd (some j.id) { code := .eccUncorrectable, cause := e })

/-- The job whose operands MATRIX_OPERAND_RELEASE releases in cycle now. -/
def Core.matRelease (k : Core) (now : Nat) : Option Job :=
  (k.jobsOf 1).find? (fun j => j.st = .running && !j.released && decide (j.release ≤ now))

/-- MATRIX_OPERAND_RELEASE: the zero rows of mzero are put on their way (R353); of an mma every K step is made, so the results are determined and put on their way to C, and the release
counters of A and B are posted (R112, R358). A wholly masked command has posted them at its start, and the posts are seen from the
cycle after it on. -/
def execMatrixOperandRelease (c : Nat) (s : State) : Out :=
  if s.frozen (clusterOf c) then .fault .notEnabled else
  let k := s.core c
  match k.matRelease (s.ccyc c) with
  | none => .fault .notEnabled
  | some j =>
    let x := j.cmd.mat
    if x.zero then
      .next (((List.range x.m).foldl
        (fun s m => s.onCore c (·.addPend (j.start + 2 + m) (.row (dBase x.cd + m) x.rowMask) 0)) s).onCore c
        (·.putJob { j with released := true }))
    else
    let rd : MReads := ⟨j.rd s c x.a, j.rd s c x.b, j.rdStore s (x.a.scaleCore c), j.rdStore s (x.b.scaleCore c)⟩
    let s := (List.range x.m).foldl
      (fun s m =>
        let r := x.row rd (k.row (dBase x.cd + m)) m
        let s := s.onCore c (·.addPend j.done (.row (dBase x.cd + m) x.rowMask) r.1)
        if r.2 = 0 then s else s.onCore c (·.addPend j.done .flagSet (r.2.setWidth 8192))) s
    let post (s : State) (d : Rec512) : State := if dRel d then s.later c (if x.masked then 0 else 1) (.kadd (dRelk d)) 1 else s
    .next ((post (post s x.a.d) x.b.d).onCore c (·.putJob { j with released := true }))

/-- The oldest matrix job, when it completes in cycle now. -/
def Core.matDone (k : Core) (now : Nat) : Option Job :=
  match k.jobsOf 1 with
  | [] => none
  | j :: _ => if j.st = .running && j.released && decide (j.done ≤ now) then some j else none

/-- MATRIX_COMPLETION: the completion number is written, C's release counter is posted and the footprints end (R358). -/
def execMatrixCompletion (c : Nat) (s : State) : Out :=
  if s.frozen (clusterOf c) then .fault .notEnabled else
  match (s.core c).matDone (s.ccyc c) with
  | none => .fault .notEnabled
  | some j =>
    let x := j.cmd.mat
    let s := if dRel x.cd then s.later c 1 (.kadd (dRelk x.cd)) 1 else s
    let s := s.dropAll (clusterOf c) (.matrix c) j.id
    .next ((s.completeCmd c 1 j.cmd).onCore c (·.dropJob j))

end Sys2Proof.Machine
end

