-- ==== Sys2Proof/Machine/Owner.lean ====
section
/-! DEFINITION. The owner side of the Dome: translation, checks, requests, atomics, clocks and the side log (R136 to R155,
R162 to R171). -/

namespace Sys2Proof.Machine

/-- V, S, R, W, A, RAP and G of a leaf entry (R143). -/
def lV (l : Word) : Bool := l.getLsbD 63
/-- S. -/
def lS (l : Word) : Bool := l.getLsbD 62
/-- R. -/
def lR (l : Word) : Bool := l.getLsbD 61
/-- W. -/
def lW (l : Word) : Bool := l.getLsbD 60
/-- A. -/
def lA (l : Word) : Bool := l.getLsbD 59
/-- RAP. -/
def lRap (l : Word) : Bool := l.getLsbD 58
/-- CMP. -/
def lCmp (l : Word) : Nat := bits l 57 56
/-- LAY. -/
def lLay (l : Word) : Nat := bits l 55 52
/-- FMT. -/
def lFmt (l : Word) : Nat := bits l 51 48
/-- TARGET. -/
def lTarget (l : Word) : Nat := bits l 47 38
/-- PPN. -/
def lPpn (l : Word) : Nat := bits l 37 16
/-- G. -/
def lG (l : Word) : Bool := l.getLsbD 6

/-- The element format a leaf's hint names (R148). -/
def hintFmt (h : Nat) : Nat :=
  [0x00, 0x01, 0x02, 0x03, 0x08, 0x09, 0x0A, 0x0B, 0x0C, 0x0D, 0x0E, 0x10, 0x11].getD h 0

/-- The valid entry of a die's memory-side TLB that maps an address (R142). -/
def Die.leaf (d : Die) (va : Nat) : Option Word :=
  let a := tabGet 0 (va / 2 ^ 16) d.tlb
  let b := tabGet 0 (va / 2 ^ 21 * 32) d.tlb
  if lV a && !lG a then some a else if lV b && lG b then some b else none

/-- The byte of a row-tiled 64 KiB unit at which page offset o lies (R146). -/
def tiled (o : Nat) : Nat := o / 1024 * 1024 + ((o / 16 % 64) ^^^ (o / 1024)) * 16 + o % 16

/-- The physical address of a virtual one under its leaf entry (R145, R146). -/
def physOf (l : Word) (va : Nat) : Nat :=
  let o := va % (if lG l then 2 ^ 21 else 2 ^ 16)
  let q := o % 2 ^ 16
  (lPpn l + o / 2 ^ 16) * 2 ^ 16 + (if lLay l = 1 then tiled q else q)

/-- Whether a 4 MiB granule of a die's Dome is secure (R79). -/
def Rom.secureGranule (r : Rom) (g pa : Nat) : Bool := (tabGet (0 : Rec512) g r.header).getLsbD (64 + pa / 2 ^ 22 % 256)

/-- The die whose Dome holds a page: the owner, or TARGET of an aperture (R145). -/
def State.holder (s : State) (owner : Nat) (l : Word) : Nat :=
  if lA l then (s.localDie (lTarget l)).getD owner else owner

/-- The owner's checks of a request in the order of R144; atomic: it needs RAP away from home. -/
def State.ownerCheck (s : State) (owner src : Nat) (sec rd wr atomic : Bool) (va : Nat) : Except FaultCode Word :=
  match (s.die owner).leaf va with
  | none => .error .xlateMiss
  | some l =>
    let far := bits (BitVec.ofNat 64 va) 63 62 == 1
    if !sec && (lS l || (!far && s.rom.secureGranule (s.holder owner l) (physOf l va))) then .error .security
    else if (rd && !lR l) || (wr && !lW l) then .error .permission
    else if atomic && !lRap l && (lA l || src != owner) then .error .atomicPermit
    else .ok l

/-- Where a byte of memory is: in a die's Dome, in host memory, or in another module of the ring. -/
inductive Loc where
  | dome (die pa : Nat)
  | host (a : Nat)
  | away
deriving DecidableEq, Repr

/-- An engine's translation of a byte address with its checks, from die g in a world (R139, R141, R144, R259): the place, its
leaf entry, or the fault and its cause. DESIGN CHOICE (log 29): every engine may name a die of the ring in another module (R141), not
only the copy engine whose traffic R14 names; the owner's checks there find nothing, and its leaf entry is a free value. -/
def State.locate (s : State) (g : Nat) (sec rd wr : Bool) (va : Nat) : Except (FaultCode × Nat) (Loc × Word) :=
  let v : Word := BitVec.ofNat 64 va
  match bits v 63 62 with
  | 0 =>
    match s.localDie (bits v 61 52) with
    | none => if s.m.ringAll.contains (bits v 61 52) then .ok (.away, Config.freeLeaf s.m.free (va / 2 ^ 16)) else .error (.addr, 0)
    | some o =>
      if s.m.excluded.contains o then .error (.ring, 6)
      else
        match s.ownerCheck o g sec rd wr false va with
        | .error f => .error (f, 0)
        | .ok l =>
          let h := s.holder o l
          match (if rd then (s.die h).eccAt h (physOf l va) else none) with
          | some e => .error (.eccUncorrectable, e)
          | none => .ok (.dome h (physOf l va), l)
  | 1 =>
    if bits v 61 56 != (s.die g).modPos.toNat || bits v 55 52 != 0 then .error (.addr, 0)
    else
      match s.farSpoke g with
      | none => .error (.ring, 6)
      | some o =>
        match s.ownerCheck o g sec rd wr false va with
        | .error f => .error (f, 0)
        | .ok l => .ok (.host (physOf l va), l)
  | _ => .error (.addr, 0)

/-- The byte at a place; another module's bytes are a free value (log 9). -/
def State.byteAt (s : State) (l : Loc) (i : Nat) : Byte :=
  match l with
  | .dome d pa => readByte (s.die d).dome pa
  | .host a => readByte s.m.host a
  | .away => BitVec.ofNat 8 ((Config.freeBits s.m.free).toNat / 2 ^ (8 * (i % 1024)))

/-- Writes a byte at a place. -/
def State.putByte (s : State) (l : Loc) (b : Byte) : State :=
  match l with
  | .dome d pa => s.onDie d (·.putBytes pa [b])
  | .host a => { s with m := { s.m with host := writeByte s.m.host a b } }
  | .away => s

/-- The bytes at each slice that addresses lie in, as an engine of die g names them: die, slice and count (R136). -/
def State.sliceBytes (s : State) (g : Nat) (l : List Nat) : List (Nat × Nat × Nat) :=
  let pas := (l.foldl (fun a b => insertOnce b a) []).filterMap (fun va =>
    match s.locate g true false false va with
    | .ok (.dome d pa, _) => some (d, pa / 256 % 64)
    | _ => none)
  (pas.eraseDups).map (fun k => (k.1, k.2, pas.count k))

/-- Counts the accesses of engine work of die g to addresses at the slices that hold them (R136). -/
def State.touchVas (s : State) (g : Nat) (l : List Nat) : State := s.touchSlices (s.sliceBytes g l)

/-- The n bytes at a virtual address as an engine of die g reads them; the fault of the first byte that has one. -/
def State.readVa (s : State) (g : Nat) (sec : Bool) : Nat → Nat → Except (FaultCode × Nat) (List Byte)
  | _, 0 => .ok []
  | va, n + 1 =>
    match s.locate g sec true false va with
    | .error e => .error e
    | .ok l =>
      match s.readVa g sec (va + 1) n with
      | .error e => .error e
      | .ok r => .ok (s.byteAt l.1 va :: r)

/-- Writes bytes at a virtual address as an engine of die g; the fault of the first byte that has one. -/
def State.writeVa (s : State) (g : Nat) (sec : Bool) : Nat → List Byte → Except (FaultCode × Nat) State
  | _, [] => .ok s
  | va, b :: r =>
    match s.locate g sec false true va with
    | .error e => .error e
    | .ok l => (s.putByte l.1 b).writeVa g sec (va + 1) r

/-- Reads as a unit that may name the Dome only: a far address raises ADDR (R139). -/
def State.readDome (s : State) (g : Nat) (sec : Bool) (va n : Nat) : Except (FaultCode × Nat) (List Byte) :=
  if va / 2 ^ 62 != 0 then .error (.addr, 0) else s.readVa g sec va n

/-- Writes as a unit that may name the Dome only (R139). -/
def State.writeDome (s : State) (g : Nat) (sec : Bool) (va : Nat) (l : List Byte) : Except (FaultCode × Nat) State :=
  if va / 2 ^ 62 != 0 then .error (.addr, 0) else s.writeVa g sec va l

/-- The translation of a byte address by a unit that may name the Dome only (R139). -/
def State.locateDome (s : State) (g : Nat) (sec rd wr : Bool) (va : Nat) : Except (FaultCode × Nat) (Loc × Word) :=
  if va / 2 ^ 62 != 0 then .error (.addr, 0) else s.locate g sec rd wr va

/-- The vector clock that covers a request: from every die other than its sender a write or beacon has come with at least
its count, and no such write is still held (R170). -/
def State.covered (s : State) (dst src : Nat) (clock : Tab Nat) : Bool :=
  (List.range 16).all (fun k =>
    let v := tabGet 0 k clock
    k = src || k = dst
      || (decide ((tabGet 0 k (s.die dst).recvd + 2 ^ 32 - v) % 2 ^ 32 < 2 ^ 31)
          && !s.m.reqs.any (fun r => r.at_ = .clockHeld && r.owner = dst && r.src = k && r.op.writes
              && decide ((v + 2 ^ 32 - tabGet 0 k r.clock) % 2 ^ 32 < 2 ^ 31))))

/-- The greater of two counts modulo 2^32 (R170). -/
def laterCount (a b : Nat) : Nat := if (a + 2 ^ 32 - b) % 2 ^ 32 < 2 ^ 31 then a else b

/-- The key under which a die's TLB holds the valid entry that maps an address. -/
def Die.leafKey (d : Die) (va : Nat) : Option Nat :=
  let a := tabGet 0 (va / 2 ^ 16) d.tlb
  let b := tabGet 0 (va / 2 ^ 21 * 32) d.tlb
  if lV a && !lG a then some (va / 2 ^ 16) else if lV b && lG b then some (va / 2 ^ 21 * 32) else none

/-- Merges a vector clock into a die's own (R170). -/
def Die.mergeClock (d : Die) (clock : Tab Nat) : Die :=
  { d with vc := clock.foldl (fun v e => tabPut e.1 (laterCount e.2 (tabGet 0 e.1 v)) v) d.vc }

/-- Notes the count of a message from die k (R170). -/
def Die.heard (d : Die) (k n : Nat) : Die := { d with recvd := tabPut k (laterCount n (tabGet 0 k d.recvd)) d.recvd }

/-- The new value of a location under an atomic (R167, R313): by its operation and type codes. -/
def atomicNew (ret : Bool) (op ty old x cmp : Nat) : Nat :=
  let w := if ty % 2 = 0 then 32 else 64
  let sg := ty / 2 = 0
  let lt (a b : Nat) : Bool := if sg then decide (signed w a < signed w b) else decide (a < b)
  if ret then
    match op with
    | 0 => (old + x) % 2 ^ w
    | 1 => if lt x old then x else old
    | 2 => if lt old x then x else old
    | 3 => old &&& x
    | 4 => old ||| x
    | 5 => old ^^^ x
    | 6 => x
    | _ => if old = cmp then x else old
  else if op < 6 then
    match op with
    | 0 => (old + x) % 2 ^ w
    | 1 => if lt x old then x else old
    | 2 => if lt old x then x else old
    | 3 => old &&& x
    | 4 => old ||| x
    | _ => old ^^^ x
  else old

/-- The new value of a location under any atomic, FP32 forms included (R167, R200, R314). -/
def amoNew (ret : Bool) (op ty old x cmp : Nat) : Nat :=
  if ty = 4 then
    match op with
    | 0 => (fp32.addR .rne old x).1
    | 1 => fp32.minmax false old x
    | _ => fp32.minmax true old x
  else atomicNew ret op ty old x cmp

/-- The access kind a fault record names (R254). -/
def ReqOp.acc : ReqOp → Nat
  | .read _ _ => 1
  | .write _ => 2
  | .amo ret _ _ => if ret then 3 else 4

/-- Whether a request answers with a reply. -/
def ReqOp.returns : ReqOp → Bool
  | .read _ _ => true
  | .write _ => false
  | .amo ret _ _ => ret

/-- Whether a request needs R, W and an atomic's permit (R144). -/
def ReqOp.needs : ReqOp → Bool × Bool × Bool
  | .read _ _ => (true, false, false)
  | .write _ => (false, true, false)
  | .amo ret _ _ => (ret, true, true)

/-- The state without a request. -/
def State.dropReq (s : State) (id : Nat) : State := { s with m := { s.m with reqs := s.m.reqs.filter (fun r => r.id ≠ id) } }
/-- The state with a request replaced. -/
def State.putReq (s : State) (r : Req) : State :=
  { s with m := { s.m with reqs := s.m.reqs.map (fun x => if x.id = r.id then r else x) } }

/-- Performs a request's effect on a Dome location, as one step (R162, R166, R314): the state and the value it answers. -/
def State.effect (s : State) (r : Req) (d pa : Nat) : State × Word :=
  let m := (s.die d).dome
  match r.op with
  | .read n sg =>
    let v := readNat m pa n
    (s, if sg then BitVec.ofInt 64 (signed (8 * n) v) else BitVec.ofNat 64 v)
  | .write n => (s.onDie d (·.putNat pa n r.data.toNat), 0)
  | .amo ret op ty =>
    let n := amoBytes ty
    let old := readNat m pa n
    let w := 2 ^ (8 * n)
    let new := amoNew ret op ty old (r.data.toNat % w) (r.cmp.toNat % w)
    (s.onDie d (·.putNat pa n new),
      if ty < 2 then BitVec.ofInt 64 (signed (8 * n) old) else BitVec.ofNat 64 old)

/-- Writes the reply-queue entry that waits for a request. -/
def Core.fillReply (k : Core) (id : Nat) (v : Word) : Core :=
  k.setQueue .reply ((k.queue .reply).map (fun e =>
    match e.st with
    | .awaiting _ n => if n = id then ⟨v.setWidth 8192, .written⟩ else e
    | .held n => if n = id then ⟨v.setWidth 8192, .written⟩ else e
    | _ => e))

/-- Marks the reply-queue entry of a faulted request as held (R152). -/
def Core.holdReply (k : Core) (id : Nat) : Core :=
  k.setQueue .reply ((k.queue .reply).map (fun e =>
    match e.st with
    | .awaiting _ n => if n = id then { e with st := .held id } else e
    | _ => e))

/-- Sends the first side-log entry whose page holds a 64 KiB unit (R154). -/
def sendFirst (page : Nat) : List SideEntry → List SideEntry
  | [] => []
  | e :: r => if e.holds page then { e with sent := true } :: r else e :: sendFirst page r

/-- A performed access leaves its core's side log, if it stands there, and the next entry of its page is sent (R154). -/
def State.logDone (s : State) (c id : Nat) : State :=
  match (s.core c).sideLog.find? (fun e => e.req = id) with
  | none => s
  | some e => s.onCore c (fun k => { k with sideLog := sendFirst e.page (k.sideLog.filter (fun x => x.req ≠ id)) })

/-- The state without an access that ends unperformed, nor its side-log entry (R151, R257). -/
def State.endReq (s : State) (r : Req) : State :=
  let s := s.dropReq r.id
  if (s.core r.core).sideLog.any (fun e => e.req = r.id) then
    s.onCore r.core (fun k => { k with sideLog := k.sideLog.filter (fun e => e.req ≠ r.id) })
  else s

/-- Performs a request at a place in a Dome and sends its reply (R138, R145, R170); an uncorrectable word it reads abandons it
(R21, R258). -/
def State.perform (s : State) (r : Req) (d pa : Nat) : State :=
  match (if (match r.op with | .write _ => true | _ => false) then none else (s.die d).eccAt d pa) with
  | some e =>
    (s.endReq r).raiseFor r.src r.core r.ofRec
      { code := .eccUncorrectable, cause := e, va := r.va.toNat, acc := r.op.acc, kind := 3 } none none 0
  | none =>
  let s := s.touchSlices [(d, pa / 256 % 64, 8)]
  let t := ((s.dropReq r.id).logDone r.core r.id).effect r d pa
  let s := if r.owner != r.src && r.op.writes then t.1.onDie r.owner (·.mergeClock r.clock) else t.1
  if !r.op.returns then s
  else
    let rep : Reply := { req := r.id, src := d, core := r.core, val := t.2, clock := if r.owner != r.src then (s.die r.owner).vc else [] }
    { s with m := { s.m with replies := s.m.replies ++ [rep] } }

/-- Puts an access into a core's side log in program order (R153). -/
def sideInsert (e : SideEntry) : List SideEntry → List SideEntry
  | [] => [e]
  | x :: r => if e.req < x.req then e :: x :: r else x :: sideInsert e r

/-- An access enters its core's side log in program order, or stays there, and its reply is held (R152, R153). -/
def State.enterLog (s : State) (r : Req) (code : Nat) : State :=
  let big := (((s.die r.owner).leaf r.va.toNat).map lG).getD false
  let s := s.putReq { r with at_ := .logged }
  s.onCore r.core (fun k =>
    let k := if k.sideLog.any (fun e => e.req = r.id) then
        { k with sideLog := k.sideLog.map (fun e => if e.req = r.id then { e with sent := false, code := code } else e) }
      else { k with sideLog := sideInsert ⟨pageOf r.va, r.id, false, big, code⟩ k.sideLog }
    if r.op.returns then k.holdReply r.id else k)

/-- A request that faults at its owner: the permission class is side-logged and its reply held; other faults end it
(R142, R144, R151 to R153, R255). -/
def State.ownerFault (s : State) (r : Req) (f : FaultCode) : State :=
  let info : FaultInfo := { code := f, va := r.va.toNat, acc := r.op.acc, kind := 3, raiser := some r.owner }
  if f.permClass then (s.raiseFor r.owner r.core r.ofRec info none none (pageOf r.va)).enterLog r f.num
  else (s.endReq r).raiseFor r.src r.core r.ofRec info none none 0

/-- Whether an access that was already on its way and meets no fault joins the log: the log of its core holds an older access to its
page, and a core's accesses to one page are performed in program order. DEDUCED (R153, R154; log 32). -/
def State.joinsLog (s : State) (r : Req) : Bool :=
  (s.core r.core).sideLog.any (fun e => e.holds (pageOf r.va) && decide (e.req < r.id))

/-- The owner takes a request: it translates and checks it, then faults, performs or forwards it; one that passes its checks and was
sent before an older access of its core to its page entered the side log joins the log behind that (R144, R145, R153, R154, R401).
A read of a pier beat not yet present raises FOOTPRINT against the record (R38). -/
def State.take (s : State) (r : Req) : State :=
  let n := r.op.needs
  match s.ownerCheck r.owner r.src (s.rom.secureCore r.core) n.1 n.2.1 n.2.2 r.va.toNat with
  | .error f => s.ownerFault r f
  | .ok l =>
    if s.joinsLog r then s.enterLog r 0
    else if (s.die r.owner).pierPending r.va.toNat then
      (s.endReq r).raiseFor r.src r.core r.ofRec
        { code := .footprint, va := r.va.toNat, acc := r.op.acc, kind := 3, raiser := some r.owner } none none 0
    else if lA l then
      let s := s.dropReq r.id
      let r := { r with at_ := .forwarded (s.holder r.owner l) (physOf l r.va.toNat) }
      { s with m := { s.m with reqs := s.m.reqs ++ [r] } }
    else s.perform r r.owner (physOf l r.va.toNat)

/-- Whether the side log of a request's core has no entry for it. -/
def State.logFull (s : State) (r : Req) : Bool :=
  let l := (s.core r.core).sideLog
  decide (16 ≤ l.length) && !l.any (fun e => e.req = r.id)

/-- Whether an access that has come to its owner needs an entry of its core's side log while all are in use: it waits at the owner,
unreported, until one is free. DESIGN CHOICE, the spec speaks only of issuing (R153; log 32). -/
def State.logWaits (s : State) (r : Req) : Bool :=
  let n := r.op.needs
  s.logFull r
    && (match s.ownerCheck r.owner r.src (s.rom.secureCore r.core) n.1 n.2.1 n.2.2 r.va.toNat with
        | .error f => f.permClass
        | .ok _ => s.joinsLog r)

/-- Whether the entry of an owner's TLB that maps an address is being rewritten: what then comes to it waits for the new value
(R150). -/
def State.rewriteWaits (s : State) (o va : Nat) : Bool :=
  let d := s.die o
  match d.leafKey va with
  | none => false
  | some k => d.rewrites.any (fun e => e.1 = k)

/-- Whether a request that has come to its owner waits there: for the rewrite of its entry of the TLB (R150), or for an entry of its
side log (R153). -/
def State.takeWaits (s : State) (r : Req) : Bool := s.rewriteWaits r.owner r.va.toNat || s.logWaits r

/-- Whether an older request of the same die is held at the same owner: requests of one die to one owner are performed in the
order sent (R164, R166, R169, R170). -/
def State.behindHeld (s : State) (r : Req) : Bool :=
  s.m.reqs.any (fun x => x.src = r.src && x.owner = r.owner && x.at_ = .clockHeld && x.id != r.id)

/-- Whether a request of the same die to the same owner was sent before a replay sends r, and has still to be performed there; one
that waits for an entry of the very side log that the replay empties does not count (R154, R164, R170). -/
def State.behindSent (s : State) (r : Req) : Bool :=
  s.m.reqs.any (fun x => x.src = r.src && x.owner = r.owner && x.id != r.id
    && (x.at_ = .sent || (x.at_ = .clockHeld && !(x.core = r.core && s.logWaits x))))

/-- OWNER_ACCESS: the oldest request from src on its way to dst arrives, if a route leads there (R15); it is held where its
clock is not covered, behind an older one that is held, or where its side log has no room (R144, R153, R164, R170). -/
def execOwnerAccess (src dst : Nat) (s : State) : Out :=
  match s.m.reqs.find? (fun r => r.src = src && r.owner = dst && r.at_ = .sent) with
  | none => .fault .notEnabled
  | some r =>
    if s.m.excluded.contains dst then .next (s.dropReq r.id)
    else if (s.route src dst).isNone then .fault .notEnabled
    else
      let t := if src != dst && r.op.writes then s.onDie dst (·.heard src (tabGet 0 src r.clock)) else s
      if !t.covered dst src r.clock || t.behindHeld r || t.logWaits r then .next (t.putReq { r with at_ := .clockHeld })
      else if t.rewriteWaits dst r.va.toNat then .fault .notEnabled
      else .next (t.take r)

/-- HELD_ACCESS_RELEASE: the oldest held request from src is covered now and is performed (R170). -/
def execHeldAccessRelease (src dst : Nat) (s : State) : Out :=
  match s.m.reqs.find? (fun r => r.src = src && r.owner = dst && r.at_ = .clockHeld) with
  | none => .fault .notEnabled
  | some r => if s.covered dst src r.clock && !s.takeWaits r then .next (s.take r) else .fault .notEnabled

/-- The access of a core whose reply is due and which its owner refuses, with its fault, or which joins the side log: the owner
reports it within the contract (R152, R153, R255). -/
def State.refusedDue (s : State) (c : Nat) : Option (Req × Option FaultCode) :=
  ((s.core c).queue .reply).findSome? (fun e =>
    match e.st with
    | .awaiting due id =>
      if s.ccyc c < due then none
      else
        match s.m.reqs.find? (fun r => r.id = id && (r.at_ = .sent || r.at_ = .clockHeld)) with
        | none => none
        | some r =>
          let n := r.op.needs
          if s.takeWaits r || s.m.excluded.contains r.owner then none
          else
            match s.ownerCheck r.owner r.src (s.rom.secureCore c) n.1 n.2.1 n.2.2 r.va.toNat with
            | .error f => some (r, some f)
            | .ok _ => if s.joinsLog r then some (r, none) else none
    | _ => none)

/-- An access, or a side-log entry, whose owner is out of service: it is discarded with RING, cause EXCLUDED, at the issuing die
(R141, R257, R260). -/
def State.loseAccess (s : State) (r : Req) : State :=
  (s.endReq r).raiseFor r.src r.core r.ofRec
    { code := .ring, cause := 6, va := r.va.toNat, acc := r.op.acc, kind := 4 } none none 0

/-- The owner's report of a refused access comes by the contract cycle of its reply (R152, R255). -/
def reportRefused (c : Nat) (s : State) : Out :=
  match s.refusedDue c with
  | none => .fault .notEnabled
  | some (r, some f) => .next (s.ownerFault r f)
  | some (r, none) => .next (s.enterLog r 0)

/-- The owner, other than die g itself, of a Dome address that an engine of die g names. -/
def State.farOwner (s : State) (g va : Nat) : Option Nat :=
  let v : Word := BitVec.ofNat 64 va
  if bits v 63 62 != 0 then none else (s.localDie (bits v 61 52)).filter (· != g)

/-- Whether a route leads from die g to the die that translates an address: its owner, or g's far spoke die (R15, R60). -/
def State.routed (s : State) (g va : Nat) : Bool := (s.route g (s.ownerDie g va)).isSome

/-- Whether an engine of die g may perform accesses at other owners now: nothing older of its die is on the way there, and
its clock is covered (R170). -/
def State.enginesClear (s : State) (g : Nat) (owners : List Nat) : Bool :=
  owners.all (fun o =>
    !s.m.reqs.any (fun r => r.src = g && r.owner = o && (r.at_ = .sent || r.at_ = .clockHeld))
      && s.covered o g (s.die g).vc)

/-- The clocks after an engine write of die g at another owner (R170). -/
def State.engineWrote (s : State) (g owner : Nat) : State :=
  if owner = g then s
  else
    let s := s.onDie g (·.tickClock g)
    let v := (s.die g).vc
    s.onDie owner (fun d => (d.heard g (tabGet 0 g v)).mergeClock v)

/-- The clocks after an engine read of die g at another owner (R170). -/
def State.engineRead (s : State) (g owner : Nat) : State :=
  if owner = g then s else s.onDie g (·.mergeClock (s.die owner).vc)

/-- Whether engine work of die g on some addresses may be performed now: a route leads to their owners, its requests are not held
there, and no entry that maps them is being rewritten (R15, R150, R170). -/
def State.vasClear (s : State) (g : Nat) (vas : List Nat) : Bool :=
  vas.all (fun va => s.routed g va && !s.rewriteWaits (s.ownerDie g va) va) && s.enginesClear g (vas.filterMap (s.farOwner g)).eraseDups

/-- The clocks after engine work of die g that read some addresses and wrote others (R170). -/
def State.engineDid (s : State) (g : Nat) (reads writes : List Nat) : State :=
  let s := ((reads.filterMap (s.farOwner g)).eraseDups).foldl (fun s o => s.engineRead g o) s
  ((writes.filterMap (s.farOwner g)).eraseDups).foldl (fun s o => s.engineWrote g o) s

/-- APERTURE_REQUEST: the die that holds an aperture page performs the forwarded request without translating, once a route leads
there (R15, R145). -/
def execApertureRequest (src dst : Nat) (s : State) : Out :=
  match s.m.reqs.find? (fun r => r.owner = src && (match r.at_ with | .forwarded d _ => d = dst | _ => false)) with
  | none => .fault .notEnabled
  | some r =>
    match r.at_ with
    | .forwarded d pa => if (s.route src d).isNone then .fault .notEnabled else .next (s.perform r d pa)
    | _ => .fault .notEnabled

/-- CLOCK_BEACON_SEND: the die tells every other die the count of its remote writes (R170). -/
def execClockBeaconSend (die : Nat) (s : State) : Out :=
  let d := s.die die
  let n := tabGet 0 die d.vc
  if n = d.beaconed then .fault .notEnabled
  else
    let s := s.onDie die (fun d => { d with beaconed := n })
    let l := ((List.range s.rom.variant.ndie).filter (· != die)).map (fun g => (⟨die, g, n⟩ : Beacon))
    .next { s with m := { s.m with beacons := s.m.beacons ++ l } }

/-- The first beacon from src to dst, if a route leads there and no earlier write of src is still on its way (R15, R170). -/
def State.beaconReady (s : State) (src dst : Nat) : Option Beacon :=
  match s.m.beacons.find? (fun b => b.src = src && b.dst = dst) with
  | none => none
  | some b =>
    if (s.route src dst).isNone || s.m.reqs.any (fun r => r.src = src && r.owner = dst && r.at_ = .sent && r.op.writes
        && decide ((b.count + 2 ^ 32 - tabGet 0 src r.clock) % 2 ^ 32 < 2 ^ 31)) then none
    else some b

/-- CLOCK_BEACON_RECEIVE: a die records a beacon's count (R170). -/
def execClockBeaconReceive (src dst : Nat) (s : State) : Out :=
  match s.beaconReady src dst with
  | none => .fault .notEnabled
  | some b =>
    let s := s.onDie dst (·.heard src b.count)
    .next { s with m := { s.m with beacons := s.m.beacons.erase b } }

/-- The reply that REPLY_WRITE writes at a core: a route has led it there, and its entry's contract cycle has come (R15, R116,
R138). -/
def State.replyDue (s : State) (c : Nat) : Option Reply :=
  s.m.replies.find? (fun p => p.core = c && (s.route p.src (dieOf c)).isSome && ((s.core c).queue .reply).any (fun e =>
    match e.st with
    | .awaiting due n => n = p.req && decide (due ≤ s.ccyc c)
    | .held n => n = p.req
    | _ => false))

/-- REPLY_WRITE: a reply writes its reply-queue entry, and the reader's die merges the owner's clock (R138, R170). A reply
whose entry is gone is dropped. -/
def execReplyWrite (core : Nat) (s : State) : Out :=
  if s.frozen (clusterOf core) then .fault .notEnabled else
  let drop (p : Reply) : State := { s with m := { s.m with replies := s.m.replies.erase p } }
  match s.replyDue core with
  | some p => .next (((drop p).onCore core (·.fillReply p.req p.val)).onDie (dieOf core) (·.mergeClock p.clock))
  | none =>
    match s.m.replies.find? (fun p => p.core = core && !((s.core core).queue .reply).any (fun e =>
        match e.st with
        | .awaiting _ n => n = p.req
        | .held n => n = p.req
        | _ => false)) with
    | some p => .next (drop p)
    | none => .fault .notEnabled

/-- The side-log entry whose access has been sent by a replay (R154). -/
def Core.replaying (k : Core) : Option SideEntry := k.sideLog.find? (·.sent)

/-- SIDE_LOG_REPLAY_STEP: the sent entry comes to its owner behind everything that its die sent there before, is translated afresh
and taken as any other access: performed and freed, and the next entry of its page is sent, or forwarded, or it faults again and
stays with all later ones of its page, and a new fault is raised (R15, R38, R145, R150, R154, R170). -/
def execSideLogReplayStep (core : Nat) (s : State) : Out :=
  match (s.core core).replaying with
  | none => .fault .notEnabled
  | some e =>
    match s.m.reqs.find? (fun r => r.id = e.req && r.at_ = .logged) with
    | none => .fault .notEnabled
    | some r =>
      let g := dieOf core
      if s.m.excluded.contains r.owner then .next (s.loseAccess r)
      else
        let t := s.leave g r.owner r.op.writes
        let clock := if r.owner != g then (t.die g).vc else []
        if (s.route g r.owner).isNone || s.behindSent r || s.rewriteWaits r.owner r.va.toNat || !s.covered r.owner g clock then
          .fault .notEnabled
        else
          let t := if r.owner != g && r.op.writes then t.onDie r.owner (·.heard g (tabGet 0 g clock)) else t
          .next (t.take { r with clock := clock })

end Sys2Proof.Machine
end

