-- ==== Sys2Proof/Machine/Copy.lean ====
section
/-! DEFINITION. Engine commands at their issue (R363, R364) and the copy engine (R129, R134, R179, R365 to R370, R375). -/

namespace Sys2Proof.Machine

/-- An engine command of the A stream: its checks, queue space, and acceptance with its snapshots (R111, R364). -/
def issueEngine (i : Instr) (e : Nat) (srcs : List (BitVec 5))
    (chk : State → Nat → Vals → Except FaultInfo (List Word × List Rec512)) : State → Out :=
  issueWith i { srcs := srcs } (fun _ s => .done s .next)
    (fun q v s =>
      match chk s q.core v with
      | .error f => .fault f
      | .ok r =>
        if (s.core q.core).engRoom e then .done (s.accept q.core e i r.1 r.2) .next else .wait (.engineRoom e))

/-- Whether a core-store block address passes its checks: below 2^21, then aligned (R131, R364). -/
def blockFault (a : Word) (size align : Nat) : Option FaultInfo :=
  if decide (2 ^ 21 < a.toNat + size) then some { code := .addr, va := a.toNat }
  else if a.toNat % align != 0 then some { code := .align, va := a.toNat }
  else none

/-- One side of a copy: space, the cores whose stores it names, base in bytes, format, the planes of a plane block that it
touches, its elements in walk order (none reads +0), and the lines of its scales. -/
structure CSide where
  space : Nat
  cores : List Nat
  base : Nat
  fmt : Nat
  planes : Nat
  elems : List (Option Int)
  prm : Rec512
  d : Rec512
deriving DecidableEq, Repr

/-- The elements of a descriptor in walk order: i0 fastest, then i1, i2 and i3 (R323). -/
def walkElems (d : Rec512) : List (Option Int) :=
  (List.range (if dWwalk d then 1 else dSize d 3)).flatMap (fun i3 =>
    (List.range (dSize d 2)).flatMap (fun i2 =>
      (List.range (dSize d 1)).flatMap (fun i1 => (List.range (dSize d 0)).map (fun i0 => dIndex d i0 i1 i2 i3))))

/-- The number of elements of a walk. -/
def walkCount (d : Rec512) : Nat := dSize d 0 * dSize d 1 * dSize d 2 * (if dWwalk d then 1 else dSize d 3)

/-- The bytes of a TWC tensor: its blocks (R234). -/
def twcBytes (d p : Rec512) : Nat := ceilDiv (dSize d 0) (64 * pBlen p) * dSize d 1 * twcBlock p

/-- Bits of an element of a format in its stream (R134, R182). -/
def streamBits (f : Nat) : Nat := if f = 0x0D then 4 else 8 * fmtBytes f

/-- The bytes of a side (R134, R365). -/
def sideBytes (d p : Rec512) (f : Nat) : Nat := if f = 0x11 then twcBytes d p else (walkCount d * streamBits f + 7) / 8

/-- The cores a side names; a multicast destination names every core of its mask (R323). -/
def State.sideCores (s : State) (c : Nat) (d : Rec512) : List (Option Nat) :=
  if dSpace d = 1 ∧ dMc d then
    ((List.range 8).filter (fun i => (dCore d).testBit i)).map (s.peerCore c)
  else if dSpace d = 1 then [s.peerCore c (dCore d)]
  else [some c]

/-- The core whose bank gives a side its format: the core named; of a multicast the lowest of its mask, the issuing core where the
mask is empty. DESIGN CHOICE: of several banks the spec names none (R133, R323; log 8). -/
def State.fmtCore (s : State) (c : Nat) (d : Rec512) : Option Nat :=
  match s.sideCores c d with
  | [] => some c
  | o :: _ => o

/-- The format of a copy descriptor, if it is known: FMT, the bank's, FP32 for rows, or the leaf hint h (R133, R148,
R323). -/
def State.copyFmt (s : State) (c : Nat) (d : Rec512) (h : Option Nat) : Option Nat :=
  if dFmt d != 0xFF then some (dFmt d)
  else
    match dSpace d with
    | 2 => some 0x08
    | 3 => h.map hintFmt
    | _ => (s.fmtCore c d).map (fun o => s.storeFmt o d)

/-- The planes an NI side is read with (R196). -/
def State.sidePlanes (s : State) (c : Nat) (d : Rec512) : Nat :=
  if dPlanes d != 0 then dPlanes d
  else match s.srcCore c d with
    | some o => bits ((s.core o).bfmtOf (dBase d / 2 ^ 17)) 11 8
    | none => 0

/-- A side of a cpy, all eight planes of its plane blocks. A TWC tensor moves as the bytes of its blocks (R134). -/
def State.cpySide (s : State) (c : Nat) (d p : Rec512) (f : Nat) : CSide :=
  { space := dSpace d, cores := (s.sideCores c d).filterMap id, base := dBaseBytes d, fmt := if f = 0x11 then 0 else f,
    planes := 8,
    elems := if f = 0x11 then (List.range (twcBytes d p)).map (fun (i : Nat) => some (i : Int)) else walkElems d,
    prm := p, d := d }

/-- The first and last byte a side touches. -/
def CSide.span (x : CSide) : Option (Int × Int) :=
  (spanOf (x.elems.filterMap id)).map (fun r =>
    ((elemBytes x.fmt x.planes x.base r.1).1, (elemBytes x.fmt x.planes x.base r.2).2))

/-- Whether a VA is outside what an engine of die g may name (R139 to R141). -/
def State.vaBad (s : State) (g va : Nat) : Bool :=
  let v : Word := BitVec.ofNat 64 va
  match bits v 63 62 with
  | 0 => (s.localDie (bits v 61 52)).isNone && !s.m.ringAll.contains (bits v 61 52)
  | 1 => bits v 61 56 != (s.die g).modPos.toNat || bits v 55 52 != 0
  | _ => true

/-- Whether a side leaves its store or names no address (R131, R135, R141, R325). -/
def State.sideAddr (s : State) (c : Nat) (x : CSide) : Bool :=
  match x.span with
  | none => false
  | some r =>
    match x.space with
    | 2 => spanAddr (some r) (1536 * 1024)
    | 3 => decide (r.1 < 0) || s.vaBad (dieOf c) r.1.toNat || s.vaBad (dieOf c) r.2.toNat
    | _ => spanAddr (some r) (2 ^ 21)

/-- Whether a RAW side's NI walk covers whole plane blocks, and its FP4 walk is even (R134). -/
def wholeStream (f : Nat) (l : List (Option Int)) : Bool :=
  match f with
  | 0x0D => l.length % 2 == 0
  | 0x10 =>
    l.length % 64 == 0
      && (List.range (l.length / 64)).all (fun b =>
        match l[64 * b]? with
        | some (some x) => x % 64 == 0 && (List.range 64).all (fun i => l[64 * b + i]? == some (some (x + i)))
        | _ => false)
  | _ => true

/-- A copy ready to move: destination, source, whether it moves a stream of bytes or converts element by element, and the 8-byte
locations of the source that an earlier row has read, with what it read (R162). -/
structure CPlan where
  dst : CSide
  src : CSide
  stream : Bool
  had : List (Nat × Nat) := []
deriving DecidableEq, Repr

/-- The plan of a copy between two descriptors of known formats; pl: the planes that a converted NI source is read with. -/
def State.pairPlan (s : State) (c : Nat) (d q pd pq : Rec512) (fd fq pl : Nat) : CPlan :=
  let stream := fd == 0x00 || fq == 0x00 || fd == 0x11 || fd == fq
  let y := s.cpySide c q pq fq
  { dst := s.cpySide c d pd fd, src := if stream then y else { y with planes := pl }, stream := stream }

/-- The side that the scale array of a converted NI source lies on: the issuing core's store for accumulator rows, and else
where the data lies (R231). -/
def CPlan.scaleSide (p : CPlan) (c : Nat) : CSide :=
  { p.src with space := if p.src.space = 2 then 0 else p.src.space, cores := if p.src.space = 1 then p.src.cores else [c] }

/-- The first and last byte of the scale array that a converted NI source reads (R196, R232). -/
def CPlan.scaleRange (p : CPlan) : Option (Nat × Nat) :=
  if p.stream || p.src.fmt != 0x10 then none
  else
    let q := p.src.d
    some (pScale p.src.prm, pScale p.src.prm + ceilDiv (dSize q 0 * dSize q 2) (pGroup p.src.prm) * dSize q 1 * 2 - 1)

/-- Whether a byte range of a core's store meets a bank whose format is TWC (R134). -/
def Core.twcIn (k : Core) (r : Int × Int) : Bool :=
  (List.range 16).any (fun (b : Nat) =>
    decide (r.1 / 2 ^ 17 ≤ (b : Int)) && decide ((b : Int) ≤ r.2 / 2 ^ 17) && bits (k.bfmtOf b) 7 0 == 0x11)

/-- Whether a destination in core store meets a TWC bank (R134). -/
def State.sideTwc (s : State) (x : CSide) : Bool :=
  decide (x.space < 2) && (match x.span with | none => false | some r => x.cores.any (fun o => (s.core o).twcIn r))

/-- The mark of a format that a leaf hint will name (R148). -/
def fmtOpen : Nat := 0x100

/-- Whether a TWC side's shape is refused: strides, a third extent, a window walk (R234). -/
def twcShape (d : Rec512) : Bool :=
  dStride d 0 != 0 || dStride d 1 != 0 || dStride d 2 != 0 || dStride d 3 != 0 || dSize d 2 != 1 || dWwalk d

/-- Whether one side of a copy is refused by itself; of a side whose format is open, what does not depend on it (R186, R189, R231,
R233, R234, R325, R365). -/
def State.sideBad (s : State) (c : Nat) (d p : Rec512) (f : Nat) (dest : Bool) : Bool :=
  descBad d dest true || (s.sideCores c d).any (·.isNone)
    || (if f = fmtOpen then dPrec d != 0 && recordReserved p
        else
          planesBad d f || !fmtOk f || (if dPrec d = 0 then f == 0x11 else recordBad p f (copyKinds f))
            || (dSpace d == 2 && !([0x08, 0x03, 0x09, 0x0A].contains f)) || (f == 0x11 && twcShape d)
            || (f == 0x10 && (niStrides d || dSize d 0 % 64 != 0)) || decide (2 ^ 32 ≤ sideBytes d p f))

/-- Whether one side of a copy leaves its store or names no address; of a side whose format is open, by its first byte. -/
def State.sideFar (s : State) (c : Nat) (d p : Rec512) (f : Nat) : Bool :=
  if f = fmtOpen then dSpace d == 3 && s.vaBad (dieOf c) (dBase d) else s.sideAddr c (s.cpySide c d p f)

/-- Whether a destination takes no such source: trellis blocks are written by the encoder only, and moved whole (R134); tw: it meets
a TWC bank. -/
def storeBad (d pd : Rec512) (fd fq : Nat) (tw : Bool) : Bool :=
  if fq = 0x11 then fd == 0x11 && (dSize d 0 % (64 * pBlen pd) != 0 || dSize d 3 != 1) else fd == 0x11 || tw

/-- Whether two sides of known formats do not go together (R134, R186, R196, R365). The rules on TWC come first. -/
def State.pairBad (s : State) (c : Nat) (d q pd pq : Rec512) (fd fq pl : Nat) (tw : Bool) : Bool :=
  let raw := fd == 0x00 || fq == 0x00
  if storeBad d pd fd fq tw then false
  else if fq = 0x11 then
    fd != 0x11 || dSize q 0 % (64 * pBlen pq) != 0 || walkCount d != walkCount q || twcBytes d pd != twcBytes q pq
  else
    (fd == 0x0E && fq != 0x0E)
      || (fq == 0x10 && fd != 0x10 && !raw && (dPrec q == 0 || decide (pl < 2) || decide (8 < pl)))
      || (if raw then
            sideBytes d pd fd != sideBytes q pq fq || !wholeStream fd (s.cpySide c d pd fd).elems
              || !wholeStream fq (s.cpySide c q pq fq).elems
          else walkCount d != walkCount q)

/-- The checks of a copy between two descriptors, in the order of R250; where the format of a side is open, those that do not
depend on it (R134, R148, R250, R325, R364, R365). pl: the planes of an NI source; tw: the destination meets a TWC bank. -/
def State.cpyBad (s : State) (c : Nat) (d q pd pq : Rec512) (fd fq pl : Nat) (tw : Bool) : Option FaultCode :=
  let known := fd != fmtOpen && fq != fmtOpen
  if s.sideBad c d pd fd true || s.sideBad c q pq fq false || (known && s.pairBad c d q pd pq fd fq pl tw) then some .descriptor
  else if s.sideFar c d pd fd || s.sideFar c q pq fq
      || (match (if known then (s.pairPlan c d q pd pq fd fq pl).scaleRange else none) with
          | none => false
          | some r => if dSpace q = 3 then s.vaBad (dieOf c) r.1 || s.vaBad (dieOf c) r.2 else decide (2 ^ 21 ≤ r.2))
      then some .addr
  else if (dSpace d != 2 && dBase d % fmtBytes fd != 0) || (dSpace q != 2 && dBase q % fmtBytes fq != 0) then some .align
  else if known && storeBad d pd fd fq tw then some .formatStore
  else none

/-- What a copy between two descriptors keeps of the format registers when it is enqueued: the formats of destination and
source, the source's planes, and whether the destination meets a TWC bank (R133, R134). -/
def State.cpyVals (s : State) (c : Nat) (d q pd : Rec512) : List Word :=
  let fd := (s.copyFmt c d none).getD fmtOpen
  [BitVec.ofNat 64 fd, BitVec.ofNat 64 ((s.copyFmt c q none).getD fmtOpen), BitVec.ofNat 64 (s.sidePlanes c q),
    if fd != fmtOpen && s.sideTwc (s.cpySide c d pd fd) then 1 else 0]

/-- cpy at acceptance: what does not need a leaf hint is checked (R148, R325, R364, R365). -/
def cpyCheck (s : State) (c : Nat) (dd dq : BitVec 4) : Except FaultInfo (List Word × List Rec512) :=
  let k := s.core c
  let d := k.descr dd
  let q := k.descr dq
  let pd := (readRecord k d).getD 0 0
  let pq := (readRecord k q).getD 0 0
  let vals := s.cpyVals c d q pd
  let fd := (vals.getD 0 0).toNat
  let fq := (vals.getD 1 0).toNat
  match (k.recordEcc c d fd).or (k.recordEcc c q fq) with
  | some e => .error e
  | none =>
    match s.cpyBad c d q pd pq fd fq (vals.getD 2 0).toNat (vals.getD 3 0 == 1) with
    | some f => .error { code := f }
    | none => .ok (vals, [d, q, pd, pq])

/-- cpy (R363 to R365). -/
def execCpy (g d k : BitVec 4) (p : BitVec 1) (q : BitVec 4) : State → Out :=
  issueEngine (.cpy g d k p q) 0 [] (fun s c _ => cpyCheck s c d k)

/-- cht (R367): the tail is S(s)[20:0], 32-byte aligned; CHAIN_TAIL reads it. -/
def execCht (g : BitVec 4) (sv : BitVec 5) : State → Out :=
  issueWith (.cht g sv) { srcs := [sv] } (fun _ s => .done s .next)
    (fun q v s =>
      let t := (v.x 0).toNat % 2 ^ 21
      if t % 32 != 0 then .fault { code := .align, va := t }
      else if !(s.core q.core).engRoom 0 then .wait (.engineRoom 0)
      else
        let s := s.accept q.core 0 (.cht g sv) [BitVec.ofNat 64 t] []
        .done (s.onCore q.core (fun k => { k with chainTail := BitVec.ofNat 64 t })) .next)

/-- The tail and the start of a chain item; none where the start is CHAIN_HEAD. -/
def Cmd.chain (cmd : Cmd) : Option (Nat × Option Nat) :=
  match cmd.ins with
  | .cht .. => some ((cmd.vals.getD 0 0).toNat, (cmd.vals[1]?).map (·.toNat))
  | _ => none

/-- The 256-bit chain entry at an address (R366). -/
def Core.chainEntry (k : Core) (a : Nat) : Rec512 := BitVec.ofNat 512 (readNat k.store a 32)
/-- WVAL, WK, WAIT of an entry: whether its wait holds (R366, R367). -/
def Core.entryReady (k : Core) (e : Rec512) : Bool :=
  !e.getLsbD 23 || decide (bits e 95 64 ≤ (k.counter (bits e 31 28)).toNat)
/-- NEXT. -/
def entryNext (e : Rec512) : Nat := bits e 63 43

/-- The checks of a chain entry's fields (R366). -/
def entryBad (e : Rec512) (next : Nat) : Option FaultCode :=
  let len := bits e 127 96
  let lin := !e.getLsbD 21
  let lim (sp a : Nat) : Bool :=
    match sp with
    | 0 => decide (2 ^ 21 < a + len)
    | 2 => decide (1536 * 1024 < a * 1024 + len)
    | _ => false
  if bits e 42 40 != 0 || bits e 16 0 != 0
      || (if lin then bits e 20 19 == 1 || bits e 18 17 == 1 || len % 64 != 0 || decide (2 ^ 26 < len)
            || ((bits e 20 19 == 2 || bits e 18 17 == 2) && len % 1024 != 0)
          else len != 0 || bits e 255 196 != 0 || bits e 191 132 != 0) then some .descriptor
  else if lin && (lim (bits e 20 19) (bits e 255 192) || lim (bits e 18 17) (bits e 191 128)) then some .addr
  else if next % 32 != 0 then some .align
  else none

/-- A linear side of LEN bytes (R366). -/
def linearSide (c sp a len : Nat) : CSide :=
  { space := sp, cores := [c], base := if sp = 2 then a * 1024 else a, fmt := 0, planes := 8,
    elems := (List.range len).map (fun (i : Nat) => some (i : Int)), prm := 0, d := 0 }

/-- The plan of a chain entry with DESC = 0 (R366). -/
def linearPlan (c : Nat) (e : Rec512) : CPlan :=
  let len := bits e 127 96
  { dst := linearSide c (bits e 18 17) (bits e 191 128) len, src := linearSide c (bits e 20 19) (bits e 255 192) len,
    stream := true }

/-- The format that a descriptor takes at the start of its item: the one it was enqueued with, or the leaf hint of its first
byte; wr: it is a destination. The fault of reading the hint (R148). -/
def State.hintedFmt (s : State) (c : Nat) (d : Rec512) (f : Nat) (wr : Bool) : Except FaultInfo Nat :=
  if f != fmtOpen then .ok f
  else
    match s.locate (dieOf c) (s.rom.secureCore c) (!wr) wr (dBase d) with
    | .error e => .error { code := e.1, cause := e.2, va := dBase d, acc := if wr then 2 else 1 }
    | .ok l => .ok (hintFmt (lFmt l.2))

/-- What a copy between two descriptors starts with: the snapshots, and formats and planes as plain numbers; recheck: the
checks have not been made. -/
def State.startPair (s : State) (c : Nat) (d q pd pq : Rec512) (vals : List Word) (recheck : Bool) :
    Except FaultInfo (List Rec512 × List Word) :=
  let f (n : Nat) : Nat := (vals.getD n 0).toNat
  match s.hintedFmt c d (f 0) true, s.hintedFmt c q (f 1) false with
  | .error e, _ => .error e
  | _, .error e => .error e
  | .ok fd, .ok fq =>
    match (if recheck || f 0 == fmtOpen || f 1 == fmtOpen then s.cpyBad c d q pd pq fd fq (f 2) (f 3 == 1) else none) with
    | some e => .error { code := e }
    | none => .ok ([d, q, pd, pq], [BitVec.ofNat 64 fd, BitVec.ofNat 64 fq, BitVec.ofNat 64 (f 2)])

/-- What a copy item, or its chain entry e, starts with: a cpy what it was enqueued with, an entry the core's descriptor and
format registers of this cycle; a linear entry may not write into a TWC bank (R133, R134, R148, R366). -/
def State.copySnap (s : State) (c : Nat) (cmd : Cmd) (e : Rec512) : Except FaultInfo (List Rec512 × List Word) :=
  let k := s.core c
  match cmd.chain with
  | none =>
    let d (n : Nat) : Rec512 := cmd.descs.getD n 0
    s.startPair c (d 0) (d 1) (d 2) (d 3) cmd.vals false
  | some _ =>
    if e.getLsbD 21 then
      let d := k.descr (BitVec.ofNat 4 (bits e 131 128))
      let q := k.descr (BitVec.ofNat 4 (bits e 195 192))
      let pd := (readRecord k d).getD 0 0
      let vals := s.cpyVals c d q pd
      match (k.recordEcc c d (vals.getD 0 0).toNat).or (k.recordEcc c q (vals.getD 1 0).toNat) with
      | some f => .error f
      | none =>
        if descBad d true true || descBad q false true || (s.sideCores c d).any (·.isNone)
            || (s.sideCores c q).any (·.isNone) then .error { code := .descriptor }
        else s.startPair c d q pd ((readRecord k q).getD 0 0) vals true
    else if s.sideTwc (linearPlan c e).dst then .error { code := .formatStore }
    else .ok ([], [])

/-- What a started copy job moves: its item, or its chain entry (R365, R366). -/
def State.itemPlan (s : State) (c : Nat) (j : Job) : CPlan :=
  if j.cmd.chain.isSome && !j.entry.getLsbD 21 then linearPlan c j.entry
  else
    let d (n : Nat) : Rec512 := j.descs.getD n 0
    let f (n : Nat) : Nat := (j.vals.getD n 0).toNat
    s.pairPlan c (d 0) (d 1) (d 2) (d 3) (f 0) (f 1) (f 2)

/-- What a started copy job moves, with the locations that it has read ahead of the row they belong to (R162). -/
def State.jobPlan (s : State) (c : Nat) (j : Job) : CPlan := { s.itemPlan c j with had := j.hadRead.map (·.2) }

/-- Where a chain item of a core stands: the address of its current entry. -/
def Core.chainAt (k : Core) (start : Option Nat) (j : Option Job) : Nat :=
  match start with
  | none => k.chainHead.toNat
  | some a => (j.bind (·.aux[1]?)).elim a (·.toNat)

/-- The chain entry that a chain item has read and not finished (R367): aux then lists the half bytes written, the entry's
address and a mark. -/
def Job.readEntry (j : Job) : Option Rec512 := if j.aux.length = 3 then some j.entry else none

/-- The half bytes of its destination that a copy job has written. -/
def Job.pos (j : Job) : Nat := (j.aux.getD 0 0).toNat
/-- The half bytes of its destination that a copy job has read the source of. -/
def Job.fetched (j : Job) : Nat := ((j.rows.getLast?).map (·.last)).getD j.pos

/-- Reads one byte of a side's store; faults are checked beforehand. -/
def State.sideByte (s : State) (c : Nat) (x : CSide) (a : Nat) : Byte :=
  match x.space with
  | 2 => (s.core c).accByte a
  | 3 =>
    match s.locate (dieOf c) (s.rom.secureCore c) true false a with
    | .ok l => s.byteAt l.1 a
    | .error _ => 0
  | _ => readByte (s.core (x.cores.headD c)).store a

/-- Reads one byte of a copy's source, or what an earlier row has read there (R162). -/
def State.srcByte (s : State) (c : Nat) (p : CPlan) (a : Nat) : Byte :=
  match p.had.find? (fun w => w.1 = a / 8) with
  | some w => BitVec.ofNat 8 (w.2 / 2 ^ (8 * (a % 8)))
  | none => s.sideByte c p.src a

/-- A write of some bits of a byte: address, mask and value. -/
abbrev Patch := Nat × Byte × Byte

/-- The patches that write a code into element x of a format (R183, R189, R323). -/
def elemPatch (f base : Nat) (x : Int) (code : Nat) : List Patch :=
  match f with
  | 0x0D =>
    if x % 2 = 0 then [((base + x / 2).toNat, 0x0F, BitVec.ofNat 8 code)]
    else [((base + x / 2).toNat, 0xF0, BitVec.ofNat 8 (16 * code))]
  | 0x10 =>
    (List.range 8).map (fun j =>
      let b := BitVec.ofNat 8 (2 ^ (x % 8).toNat)
      (niByte base x j, b, if code.testBit j then b else 0))
  | f => (List.range (fmtBytes f)).map (fun j => ((base + x * fmtBytes f).toNat + j, 0xFF, BitVec.ofNat 8 (code / 2 ^ (8 * j))))

/-- One unit of a copy: destination address, half bytes it counts, source and scale addresses it reads, patches and flags. -/
structure CUnit where
  dst : Nat
  nibbles : Nat
  reads : List Nat
  scales : List Nat
  patches : List Patch
  flags : Word
deriving DecidableEq, Repr

/-- The stream bytes of a side as pairs of half-byte addresses, low half first; none is a zero half (R134). -/
def CSide.halves (x : CSide) : List (Option Nat) :=
  match x.fmt with
  | 0x0D => x.elems.map (·.map (fun e => (2 * (x.base : Int) + e).toNat))
  | 0x10 =>
    (x.elems.zipIdx.filter (fun e => e.2 % 64 = 0)).flatMap (fun e =>
      (List.range 128).map (fun h => e.1.map (fun i => (2 * ((x.base : Int) + 64 * (i / 64))).toNat + h)))
  | f =>
    x.elems.flatMap (fun e =>
      (List.range (2 * fmtBytes f)).map (fun h => e.map (fun i => (2 * ((x.base : Int) + i * fmtBytes f)).toNat + h)))

/-- The units of a stream copy: half byte by half byte (R134). -/
def streamUnits (rd : Nat → Byte) (x y : CSide) : List CUnit :=
  (List.zip x.halves y.halves).filterMap (fun p =>
    p.1.map (fun a =>
      let v := match p.2 with
        | none => 0
        | some b => (rd (b / 2)).toNat / (if b % 2 = 0 then 1 else 16) % 16
      { dst := a / 2, nibbles := 1, reads := p.2.toList.map (· / 2), scales := [],
        patches := [(a / 2, if a % 2 = 0 then 0x0F else 0xF0, BitVec.ofNat 8 (if a % 2 = 0 then v else 16 * v))],
        flags := 0 }))

/-- The rounding mode of a conversion into a tensor at dither index (i, j) (R192 to R194, R231). -/
def recordMode (p : Rec512) (i j : Nat) : RMode :=
  match pRm p with
  | 1 => .rtz
  | 2 => .dither (bayer i j)
  | _ => .rne

/-- The value of a source element (R184 to R188, R196); sc reads a scale of line and K index. -/
def srcValue (f planes code : Nat) (scale : Nat) : FVal :=
  if f = 0x10 then
    let c := signed 8 code / 2 ^ (8 - planes)
    (FVal.mul (.ofInt (2 * c + 1) (7 - (planes : Int)) false) (fp32.decode (scale * 2 ^ 16))).1
  else
    match eFmt f with
    | some e => e.value code
    | none => .nan

/-- Whether a format is an integer or natural one (R196). -/
def intFmt (f : Nat) : Bool := decide (1 ≤ f) && decide (f ≤ 6)

/-- The converted code and its flags (R134, R195, R196). -/
def convertCode (fd fq : Nat) (p : Rec512) (hasRec : Bool) (i j : Nat) (x : FVal) : Nat × Word :=
  let mode := if !hasRec || (intFmt fd && intFmt fq) then .rne else recordMode p i j
  let bound := if hasRec then pBound p else 0x7F800000
  match eFmt fd with
  | some (.f F) =>
    if F = fp32 then (toFp32 mode x, 0)
    else let r := convert (.f F) mode bound x; (r.1, (if r.2.1 then flagClamp else 0) ||| (if r.2.2 then flagNan else 0))
  | some e => let r := convert e mode bound x; (r.1, (if r.2.1 then flagClamp else 0) ||| (if r.2.2 then flagNan else 0))
  | none => (0, 0)

/-- The bytes that reading an element touches (R183, R189). -/
def CSide.elemReads (y : CSide) (e : Int) : List Nat :=
  match y.fmt with
  | 0x10 => (List.range y.planes).map (fun j => niByte y.base e (7 - j))
  | f => let b := elemBytes f y.planes y.base e; (List.range (b.2 - b.1 + 1).toNat).map (fun i => b.1.toNat + i)

/-- The units of a converting copy: element t to element t (R134, R365). sc reads a byte of the source's scale array. -/
def elemUnits (rd sc : Nat → Byte) (x y : CSide) : List CUnit :=
  let r := dSize y.d 1
  (List.zip x.elems y.elems).zipIdx.filterMap (fun p =>
    p.1.1.map (fun a =>
      let t := p.2
      let ni := y.fmt == 0x10
      let i0 := t % dSize y.d 0
      let i1 := t / dSize y.d 0 % dSize y.d 1
      let i2 := t / (dSize y.d 0 * dSize y.d 1) % dSize y.d 2
      let scAt := pScale y.prm + ((i2 * dSize y.d 0 + i0) / pGroup y.prm * r + i1) * 2
      let scale := if ni then (sc scAt).toNat + 256 * (sc (scAt + 1)).toNat else 0
      let v := match p.1.2 with
        | none => if ni then srcValue y.fmt y.planes 0 scale else .fin false 0 0
        | some e =>
          srcValue y.fmt y.planes (if ni then niCode rd y.planes y.base e else elemCode rd y.fmt y.base e) scale
      let w := convertCode x.fmt y.fmt x.prm (dPrec x.d != 0) (t / dSize x.d 0 % dSize x.d 1 % 16) (t % dSize x.d 0 % 16) v
      { dst := (elemBytes x.fmt x.planes x.base a).1.toNat, nibbles := streamBits x.fmt / 4,
        reads := (p.1.2.map y.elemReads).getD [], scales := if ni then [scAt, scAt + 1] else [],
        patches := elemPatch x.fmt x.base a w.1, flags := w.2 }))

/-- The units of a copy in walk order. -/
def State.copyUnits (s : State) (c : Nat) (p : CPlan) : List CUnit :=
  let rd := s.srcByte c p
  if p.stream then streamUnits rd p.dst p.src else elemUnits rd (s.sideByte c (p.scaleSide c)) p.dst p.src

/-- A unit with the half bytes of the destination before it and before its run (R179). -/
structure CPlace where
  at_ : Nat
  run : Nat
  unit : CUnit
deriving DecidableEq, Repr

/-- Places the units of a walk: a run begins at every 64 KiB boundary of the destination address (R179). n: half bytes before
the next unit; r: before its run; pg: the 64 KiB unit of that run. -/
def placeUnits (n r pg : Nat) : List CUnit → List CPlace
  | [] => []
  | u :: l =>
    let r' := if u.dst / 2 ^ 16 = pg then r else n
    ⟨n, r', u⟩ :: placeUnits (n + u.nibbles) r' (u.dst / 2 ^ 16) l

/-- The units of a copy with their places. -/
def State.copyPlaces (s : State) (c : Nat) (p : CPlan) : List CPlace :=
  let l := s.copyUnits c p
  placeUnits 0 0 ((l.head?.map (·.dst / 2 ^ 16)).getD 0) l

/-- The half bytes before the run that half byte n lies in; all of them at the end of the walk. -/
def runFloor (l : List CPlace) (n : Nat) : Nat := ((l.find? (fun q => q.at_ = n)).map (·.run)).getD n

/-- The read of a source byte that fails: its fault and cause; ecc: uncorrectable words count (R21, R144). -/
def State.sideFault (s : State) (c : Nat) (x : CSide) (ecc : Bool) (a : Nat) : Option (FaultCode × Nat) :=
  if x.space = 3 then
    match s.locate (dieOf c) (s.rom.secureCore c) true false a with
    | .error e => if e.1 = .eccUncorrectable && !ecc then none else some e
    | .ok _ => none
  else if !ecc then none
  else
    let o := x.cores.headD c
    ((s.core o).eccIn o (x.space = 2) a a).map (fun e => (FaultCode.eccUncorrectable, e))

/-- The first fault of a list of units: of a source or scale byte it reads, then of a Dome byte it writes, with the VA of the
first byte of the list on that side (R144, R179, R254). -/
def State.unitsFault (s : State) (c : Nat) (p : CPlan) (ecc : Bool) (l : List CUnit) : Option FaultInfo :=
  let reads := l.flatMap (·.reads)
  let scales := l.flatMap (·.scales)
  let va (x : CSide) (a : Nat) : Nat := if x.space = 3 then a else 0
  match reads.findSome? (s.sideFault c p.src ecc) with
  | some e => some { code := e.1, cause := e.2, va := va p.src (reads.headD 0), acc := 1 }
  | none =>
    match scales.findSome? (s.sideFault c (p.scaleSide c) ecc) with
    | some e => some { code := e.1, cause := e.2, va := va p.src (scales.headD 0), acc := 1 }
    | none =>
      if p.dst.space != 3 then none
      else
        ((l.flatMap (fun u => u.patches.map (·.1))).findSome? (fun a =>
          match s.locate (dieOf c) (s.rom.secureCore c) false true a with
          | .error e => some e
          | .ok _ => none)).map
          (fun e => { code := e.1, cause := e.2, va := (l.map (·.dst)).headD 0, acc := 2 })

/-- The fault met at a unit: of the pages of the run that it begins, or of its own bytes; with the half bytes before that run
(R179). -/
def State.placeFault (s : State) (c : Nat) (p : CPlan) (l : List CPlace) (q : CPlace) : Option (Nat × FaultInfo) :=
  let run := if q.at_ = q.run then s.unitsFault c p false ((l.filter (fun x => x.run = q.run)).map (·.unit)) else none
  (run.or (s.unitsFault c p true [q.unit])).map (fun f => (q.run, f))

/-- Whether the run that a unit begins must wait: an entry of the TLB that maps a page of it is being rewritten (R150, R179). -/
def State.runWaits (s : State) (c : Nat) (p : CPlan) (l : List CPlace) (q : CPlace) : Bool :=
  q.at_ = q.run && (List.range s.rom.variant.ndie).any (fun g => !(s.die g).rewrites.isEmpty)
    && (l.filter (fun x => x.run = q.run)).any (fun x =>
      ((if p.dst.space = 3 then x.unit.patches.map (·.1) else [])
        ++ (if p.src.space = 3 then x.unit.reads ++ x.unit.scales else [])).any
        (fun va => s.rewriteWaits (s.ownerDie (dieOf c) va) va))

/-- Applies patches to accumulator bytes. -/
def Core.patchAcc (k : Core) (p : Patch) : Core :=
  let r := p.1 / 1024
  let lo := 8 * (p.1 % 1024)
  let old := k.accByte p.1
  let new := (old &&& ~~~p.2.1) ||| p.2.2
  k.putRow r (BitVec.ofNat 8192 (255 * 2 ^ lo)) (BitVec.ofNat 8192 (new.toNat * 2 ^ lo))

/-- Applies a patch at a side's destination (R323 for a multicast). -/
def State.applyPatch (s : State) (c : Nat) (x : CSide) (p : Patch) : State :=
  match x.space with
  | 2 => s.onCore c (·.patchAcc p)
  | 3 =>
    match s.locate (dieOf c) (s.rom.secureCore c) false true p.1 with
    | .ok l => s.putByte l.1 ((s.byteAt l.1 p.1 &&& ~~~p.2.1) ||| p.2.2)
    | .error _ => s
  | _ =>
    x.cores.foldl (fun s o => s.onCore o (fun k =>
      k.putBytes p.1 [(readByte k.store p.1 &&& ~~~p.2.1) ||| p.2.2])) s

/-- Owners of the Dome pages an engine job of die g names; for those of other dies the clocks of R170 apply. -/
def State.ownersOf (s : State) (g : Nat) (sides : List CSide) : List Nat :=
  (sides.filterMap (fun x =>
    if x.space = 3 ∧ bits (BitVec.ofNat 64 x.base) 63 62 = 0 then s.localDie (bits (BitVec.ofNat 64 x.base) 61 52)
    else none)).filter (· != g)

/-- Whether the Dome or far side of a copy of a core may be accessed now: a route leads there and older requests of the die are
ahead of it no more (R15, R170). -/
def State.sideClear (s : State) (c : Nat) (x : CSide) : Bool :=
  (x.space != 3 || s.routed (dieOf c) x.base) && s.enginesClear (dieOf c) (s.ownersOf (dieOf c) [x])

/-- The contract of a copy's rows: L of R369, or none. -/
def State.copyLat (s : State) (c : Nat) (p : CPlan) : Option Nat :=
  if p.dst.space = 3 then none
  else if p.src.space != 3 then some 4
  else
    let v : Word := BitVec.ofNat 64 p.src.base
    if bits v 63 62 != 0 then none
    else if bits v 61 52 = (s.die (dieOf c)).rdie.toNat then some 64
    else if (s.localDie (bits v 61 52)).isSome then some 576
    else none

/-- The half bytes of a side's stream. -/
def CSide.halfBytes (x : CSide) : Nat := x.elems.length * streamBits x.fmt / 4

/-- The rows that a start of a copy has still to write and n of R369. -/
structure CTime where
  dr : Nat
  sr : Nat
  n : Nat
deriving DecidableEq, Repr

/-- Dr, Sr and n of a copy of which the first half bytes were written by earlier starts (R369, R370). -/
def CPlan.time (p : CPlan) (base : Nat) : CTime :=
  let total := p.dst.halfBytes
  let left := total - base
  let dr := ceilDiv left 2048
  let sr := if dr = 0 then 0 else max 1 (ceilDiv (p.src.halfBytes * left / max 1 total) 2048)
  ⟨dr, sr, max dr sr⟩

/-- The cycle of destination row k of a job, counted from its start without L (R369). -/
def CTime.row (t : CTime) (k : Nat) : Nat := ceilDiv ((k + 1) * t.n) t.dr - 1
/-- The cycle of source row i. -/
def CTime.srcRow (t : CTime) (i : Nat) : Nat := ceilDiv ((i + 1) * t.n) t.sr - 1

/-- The Dome ranges a plan declares on its card (R129). -/
def CPlan.cardRanges (p : CPlan) : List (Nat × Nat × Bool) :=
  let f (x : CSide) (w : Bool) : List (Nat × Nat × Bool) :=
    if x.space = 3 ∧ bits (BitVec.ofNat 64 x.base) 63 62 = 0 then
      x.span.toList.map (fun r => (r.1.toNat, r.2.toNat, w)) else []
  let sc := match p.scaleRange with
    | some r => if p.src.space = 3 && r.1 / 2 ^ 62 == 0 then [(r.1, r.2, false)] else []
    | none => []
  f p.dst true ++ f p.src false ++ sc

/-- The core-store and row ranges a plan's footprints name (R126, R233). -/
def CPlan.fpRanges (p : CPlan) (c : Nat) : List (Nat × Range) :=
  let f (x : CSide) (w : Bool) : List (Nat × Range) :=
    match x.span with
    | none => []
    | some r =>
      match x.space with
      | 3 => []
      | 2 => [(c, ⟨true, (r.1 / 1024).toNat, (r.2 / 1024).toNat, w⟩)]
      | _ => x.cores.map (fun o => (o, ⟨false, r.1.toNat, r.2.toNat, w⟩))
  let sc := match p.scaleRange with
    | some r => if p.src.space = 3 then [] else [((p.scaleSide c).cores.headD c, ⟨false, r.1, r.2, false⟩)]
    | none => []
  f p.dst true ++ f p.src false ++ sc

/-- The pieces of n of a list, in order. -/
def kib {α : Type} (n : Nat) : Nat → List α → List (List α)
  | 0, _ => []
  | f + 1, l => if l.isEmpty then [] else l.take n :: kib n f (l.drop n)

/-- The 1 KiB windows of a list of byte addresses, each once. -/
def windows (l : List Nat) : List Nat := l.foldl (fun a b => insertOnce (b / 1024) a) []

/-- The uses that a row under contract with these byte addresses makes in cycle t of the slices of core c's own die: the bytes at
each (R136, R137). Slices of another die are used when the row leaves it. -/
def State.sliceUses (s : State) (c t class_ : Nat) (job : Option Nat) (l : List Nat) : List Use :=
  ((s.sliceBytes (dieOf c) l).filter (fun e => e.1 = dieOf c)).map (fun e =>
    { at_ := t, key := sliceKey + e.2.1, prio := usePrio class_ c, size := e.2.2, job := job })

/-- The uses of banks of a core's store that reading bytes in cycle t makes, one for each 1 KiB window (R115, R369). -/
def bankUses (o c t class_ : Nat) (job : Option Nat) (l : List Nat) : List Use :=
  (windows l).map (fun w => { at_ := t, key := o * 32 + w / 128, prio := usePrio class_ c, job := job })

/-- The uses of banks that reading some units of a copy in cycle t makes: of its source and of its scale array. -/
def CPlan.bankReads (p : CPlan) (c t : Nat) (job : Option Nat) (l : List CUnit) : List Use :=
  let f (x : CSide) (a : List Nat) : List Use := if 2 ≤ x.space then [] else bankUses (x.cores.headD c) c t 2 job a
  f p.src (l.flatMap (·.reads)) ++ f (p.scaleSide c) (l.flatMap (·.scales))

/-- Units cut into the source rows that hold them, n in all. -/
def sourceRows (n : Nat) (l : List CUnit) : List (List CUnit) := kib (max 1 (ceilDiv l.length (max 1 n))) l.length l

/-- The uses that the source rows of a job under contract make: a row of a core store of its banks in the cycle of its place, a
row of a Dome of the copy port and of the slices L cycles later (R115, R136, R137, R369). -/
def State.sourceUses (s : State) (c job start lat base : Nat) (p : CPlan) (l : List CPlace) : List Use :=
  let t := p.time base
  (sourceRows t.sr ((l.filter (fun q => base ≤ q.at_)).map (·.unit))).zipIdx.flatMap (fun r =>
    let at_ := start + t.srcRow r.2
    if p.src.space = 3 then
      { at_ := at_ + lat, key := copyPortIn, prio := usePrio 2 c, job := some job }
        :: s.sliceUses c (at_ + lat) 2 (some job) (r.1.flatMap (fun u => u.reads ++ u.scales))
    else p.bankReads c at_ (some job) r.1)

/-- The copy item a core would work on in cycle now, with its job if it has begun. -/
def Core.copyItem (k : Core) (now : Nat) : Option (Cmd × Option Job) :=
  if k.engHold.contains 0 ∨ now < k.copyFree then none
  else
    match k.jobsOf 0 with
    | j :: _ => if j.st = .waiting then some (j.cmd, some j) else none
    | [] =>
      match k.engQueue 0 with
      | [] => none
      | cmd :: _ => if cmd.at_ < now then some (cmd, none) else none

/-- Whether COPY_ITEM_START may happen on a core now: an item is at the head whose entry is to be read, or whose wait holds
(R367, R369). -/
def Core.copyCanStart (k : Core) (now : Nat) : Bool :=
  match k.copyItem now with
  | none => false
  | some (cmd, j) =>
    match cmd.chain with
    | none => true
    | some (tail, st) =>
      k.chainAt st j = tail || (match j.bind Job.readEntry with | none => true | some e => k.entryReady e)

/-- The job of an item, made when it begins. -/
def copyJob (s : State) (c : Nat) (cmd : Cmd) (old : Option Job) : State × Job :=
  match old with
  | some j => (s, j)
  | none =>
    let k := s.core c
    let j : Job :=
      { id := k.jobId c, eng := 0, cmd := cmd, st := .waiting, entry := 0, start := 0, release := 0, released := false,
        done := 0, aux := [0] }
    (s.onCore c (fun k => { k.setEngQueue 0 (k.engQueue 0).tail with jobs := k.jobs ++ [j], nextJob := k.nextJob + 1 }), j)

/-- Ends a copy item: its completion number is written, unless it is the walk of a kvgat (R110, R375). -/
def finishCopy (s : State) (c : Nat) (j : Job) : State :=
  let s := s.onCore c (fun k => { k.dropJob j with copyFree := s.ccyc c + 1 })
  if j.cmd.tag = 0 then s.onCore c (fun k => { k with lastDone := s.keyc c }) else s.completeCmd c 0 j.cmd

/-- A copy item or entry that cannot go on: its job is faulted and later items are held; its fault record has the bytes of its
complete runs (R179, R252, R254, R370). -/
def faultCopy (s : State) (c : Nat) (j : Job) (f : FaultInfo) : State :=
  let s := s.onCore c (·.putJob { j with st := .faulted })
  s.engFault c 0 j.cmd (some j.id) (if f.code = .eccUncorrectable then f else { f with aux := j.pos / 2 })

/-- Removes the footprints and the card of a copy job. -/
def releaseCopy (s : State) (c : Nat) (j : Job) : State :=
  (s.dropAll (clusterOf c) (.copy c) j.id).onDie (dieOf c) (·.dropCards (.copy c) j.id)

/-- Whether a copy of a core that is not secure names the store of one that is (R79). -/
def State.copySecret (s : State) (c : Nat) (p : CPlan) : Bool :=
  (p.dst.cores ++ p.src.cores).any (s.rom.coreSecret c)

/-- Starts a copy job whose plan is p: its checkers, its card and its first run pass; the rest of its life is rows
(R127 to R129, R179, R369). A job under a contract that finds the card table full has started, and its rows wait for the
card; another waits to start. -/
def State.startCopy (s : State) (c : Nat) (j : Job) (p : CPlan) : Out :=
  let now := s.ccyc c
  let iss := Issuer.copy c
  let l := s.copyPlaces c p
  let cards := p.cardRanges
  let lat := s.copyLat c p
  let room := cards.isEmpty || (s.die (dieOf c)).cardRoom
  let first := (l.filter (fun q => q.run = j.pos)).map (·.unit)
  match (if s.copySecret c p then some { code := .security } else s.unitsFault c p false first) with
  | some f => .next (faultCopy s c j f)
  | none =>
    match s.fullChecker now (p.fpRanges c) with
      | some o => .next (s.freezeFull c 0 o)
      | none =>
        if (!room && !(lat.isSome && p.src.space = 3)) || (l.find? (fun q => q.at_ = j.pos)).any (s.runWaits c p l) then .fault .notEnabled
        else
          let chk := s.checkAll iss (p.fpRanges c)
          let crd := if room then chk.1.checkCards (dieOf c) iss cards else (chk.1, true)
          if !chk.2 || !crd.2 then .next (faultCopy crd.1 c j { code := .footprint })
          else
            let t := p.time j.pos
            let job : Job :=
              { j with st := .running, start := now, released := lat.isNone, release := now + 1, base := j.pos, rows := [],
                       hadRead := [], carded := room,
                       done := match lat with | some v => if t.n = 0 then now + 1 else now + v + t.n | none => now + 1 }
            let s := s.addAll iss j.id (p.fpRanges c) now none
            let s := if room then s.onDie (dieOf c) (·.addCards iss j.id cards) else s
            let s := s.addUses (clusterOf c) (match lat with | some v => s.sourceUses c j.id now v j.pos p l | none => [])
            .next (s.onCore c (·.putJob job))

/-- COPY_ITEM_START: a chain entry is read and its fields checked; it, or a cpy, starts once its wait holds and its checks,
footprints and job card pass; a chain that is at its tail completes (R127, R129, R365 to R370). -/
def execCopyItemStart (c : Nat) (s : State) : Out :=
  if s.frozen (clusterOf c) then .fault .notEnabled else
  let k := s.core c
  let now := s.ccyc c
  if !k.copyCanStart now then .fault .notEnabled
  else
    match k.copyItem now with
    | none => .fault .notEnabled
    | some (cmd, old) =>
      let r := copyJob s c cmd old
      let s := r.1
      let j := r.2
      let at_ := match cmd.chain with | none => 0 | some (_, st) => k.chainAt st old
      if (match cmd.chain with | none => false | some (tail, _) => at_ = tail) then .next (finishCopy s c j)
      else
        let e : Rec512 := if cmd.chain.isSome then (j.readEntry).getD (k.chainEntry at_) else 0
        let early : Option FaultInfo := if cmd.chain.isNone then none
          else if at_ % 32 != 0 then some { code := .align }
          else if j.readEntry.isSome then none
          else
            match k.eccIn c false at_ (at_ + 31) with
            | some x => some { code := .eccUncorrectable, cause := x }
            | none => (entryBad e (entryNext e)).map (fun f => { code := f })
        match early with
        | some f => .next (faultCopy s c j f)
        | none =>
          let j := if cmd.chain.isSome then { j with entry := e, aux := [j.aux.getD 0 0, BitVec.ofNat 64 at_, 1] } else j
          if cmd.chain.isSome && !k.entryReady e then .next (s.onCore c (·.putJob j))
          else
            match (if j.pos = 0 then s.copySnap c cmd e else .ok (j.descs, j.vals)) with
            | .error f => .next (faultCopy s c j f)
            | .ok v => let j := { j with descs := v.1, vals := v.2 }; s.startCopy c j (s.jobPlan c j)

/-- The running copy job of a core. -/
def Core.copyRunning (k : Core) : Option Job := (k.jobsOf 0).find? (fun j => j.st = .running)

/-- The writes of some units: their patches, and the flags of their conversions in this cycle (R197). -/
def State.writeUnits (s : State) (c : Nat) (x : CSide) (l : List Patch) (flags : Word) : State :=
  let s := l.foldl (fun s q => s.applyPatch c x q) s
  if flags = 0 then s else s.later c 0 .flagSet (flags.setWidth 8192)

/-- The clocks after rows of a copy were written at other owners (R170). -/
def State.copyWrote (s : State) (c : Nat) (p : CPlan) : State :=
  (s.ownersOf (dieOf c) [p.dst]).foldl (fun s o => s.engineWrote (dieOf c) o) s

/-- The bits that units write. -/
def patchesOf (l : List CPlace) : List Patch := l.flatMap (fun q => q.unit.patches)
/-- The flags that units set. -/
def flagsOf (l : List CPlace) : Word := l.foldl (fun a q => a ||| q.unit.flags) 0

/-- The 8-byte locations that a unit writes. -/
def CUnit.locs (u : CUnit) : List Nat := (u.patches.map (·.1 / 8)).eraseDups

/-- The units of the row that a running job reads next: rows of 1 KiB count from where it started (R369). A row that goes to the Dome
does not end within a location, which is written in one step (R162). -/
def Job.nextRow (j : Job) (p : CPlan) (l : List CPlace) : List CPlace :=
  let e := j.base + 2048 * ((j.fetched - j.base) / 2048 + 1)
  let row := l.filter (fun q => decide (j.fetched ≤ q.at_) && decide (q.at_ < e))
  if p.dst.space != 3 then row
  else
    let last := ((row.getLast?).map (·.unit.locs)).getD []
    row ++ (l.filter (fun q => decide (e ≤ q.at_) && decide (j.fetched ≤ q.at_))).takeWhile (fun q => q.unit.locs.any last.contains)

/-- The locations of a Dome or far source that the row read last shares with the unit after it, with what they hold: they are read
once (R162). -/
def State.readAhead (s : State) (c : Nat) (p : CPlan) (row l : List CPlace) (last : Nat) : List (Nat × Nat × Nat) :=
  if p.src.space != 3 then []
  else
    let locs (q : Option CPlace) : List Nat := ((q.map (fun x => x.unit.reads.map (· / 8))).getD []).eraseDups
    ((locs row.getLast?).filter (locs (l.find? (fun q => q.at_ = last))).contains).map (fun w =>
      (0, w, natOfBytes ((List.range 8).map (fun i => s.srcByte c p (8 * w + i)))))

/-- Whether the next row of a job may be read now. Dome rows and those of far memory come when they come, the requests of
older accesses having gone ahead (R116, R138, R170); a row of a core store is read L cycles before its write, or, where the
write has no contract, as it is performed, its source rows one a cycle. A row that goes to the Dome, which has no contract, waits
while the port carries another in this cycle: the cluster does not freeze for it (R137, R138, R369). -/
def State.fetchReady (s : State) (c : Nat) (j : Job) (p : CPlan) : Bool :=
  let t := p.time j.base
  let cl := s.cluster (clusterOf c)
  j.carded
    && (p.dst.space != 3 || !cl.uses.any (fun u => u.at_ = cl.ccyc && u.key = copyPortOut))
    && (if p.src.space = 3 then
          s.sideClear c p.src && (!j.released || !s.frozen (clusterOf c))
        else
          !s.frozen (clusterOf c)
            && (if j.released then j.rows.isEmpty && decide (j.release ≤ s.ccyc c)
                else decide (j.start + t.row ((j.fetched - j.base) / 2048) ≤ s.ccyc c)))

/-- What a row read from a Dome takes of slices beyond those that its contract has taken: all of a job without a contract, those of
other dies else (R136, R137). -/
def State.rowSlices (s : State) (c : Nat) (j : Job) (p : CPlan) (row : List CPlace) : List (Nat × Nat × Nat) :=
  if p.src.space != 3 then []
  else
    (s.sliceBytes (dieOf c) (row.flatMap (fun q => q.unit.reads ++ q.unit.scales))).filter
      (fun e => j.released || e.1 != dieOf c)

/-- The uses that a row makes when it is read: of a core store without a contract its banks, one source row a cycle, and, of the
copy port, of a row that goes to the Dome (R115, R137, R369). The second is the number of its source rows. -/
def State.rowUses (s : State) (c : Nat) (j : Job) (p : CPlan) (row : List CPlace) : List Use × Nat :=
  let t := s.ccyc c
  let n := ceilDiv (p.src.halfBytes * row.length / max 1 p.dst.elems.length) 2048
  let rows := sourceRows (max 1 n) (row.map (·.unit))
  ((if p.src.space = 3 || !j.released then [] else rows.zipIdx.flatMap (fun r => p.bankReads c (t + r.2) (some j.id) r.1))
      ++ (if p.dst.space = 3 then [{ at_ := t, key := copyPortOut, prio := usePrio 2 c, soft := true }] else []),
    rows.length)

/-- A row of a running copy job is read. A fault ends the job: what precedes its run is complete before the fault (R21, R144,
R179, R197, R369). -/
def copyFetch (c : Nat) (s : State) : Out :=
  match (s.core c).copyRunning with
  | none => .fault .notEnabled
  | some j =>
    let p := s.jobPlan c j
    let l := s.copyPlaces c p
    let next := j.nextRow p l
    let all : List CPlace := match next.find? (s.runWaits c p l) with
      | some w => next.filter (fun q => decide (q.at_ < w.at_))
      | none => next
    if all.isEmpty || !s.fetchReady c j p then .fault .notEnabled
    else
      let bad := all.findSome? (s.placeFault c p l)
      let row : List CPlace := match bad with | some (at_, _) => all.filter (fun q => decide (q.at_ < at_)) | none => all
      match row.isEmpty, bad with
      | true, some (at_, f) =>
        if !j.rows.isEmpty then .fault .notEnabled
        else .next (faultCopy (releaseCopy s c j) c { j with aux := BitVec.ofNat 64 at_ :: j.aux.tail } f)
      | _, _ =>
        let last := row.foldl (fun a q => a + q.unit.nibbles) j.fetched
        let r : RowIn := { first := j.fetched, last := last, patches := patchesOf row, flags := flagsOf row }
        let sl := s.rowSlices c j p row
        let u := s.rowUses c j p row
        if !s.slicesRoom sl then .fault .notEnabled
        else
          let j := { j with rows := j.rows ++ [r], release := max j.release (s.ccyc c + u.2), hadRead := s.readAhead c p row l last }
          let s : State := (s.touchSlices sl).addUses (clusterOf c) u.1
          let s := (s.ownersOf (dieOf c) [p.src]).foldl (fun s o => s.engineRead (dieOf c) o) s
          let s : State := { s with m := { s.m with free := s.m.free + 1 } }
          .next (s.onCore c (·.putJob j))

/-- The cycle of CCYC in which the first row on its way is due, for a job under contract (R369). -/
def State.rowDue (s : State) (c : Nat) (j : Job) (p : CPlan) : Nat :=
  j.start + (s.copyLat c p).getD 0 + (p.time j.base).row ((j.pos - j.base) / 2048)

/-- The fault of writing a row's bytes now, of a die that has gone out of service since its run was checked: no row is lost without a
fault (R141, R179). -/
def State.writeFault (s : State) (c : Nat) (p : CPlan) (r : RowIn) : Option FaultInfo :=
  if p.dst.space != 3 then none
  else
    (r.patches.findSome? (fun q =>
      match s.locate (dieOf c) (s.rom.secureCore c) false true q.1 with
      | .error e => some e
      | .ok _ => none)).map (fun e => { code := e.1, cause := e.2, va := (r.patches.map (·.1)).headD 0, acc := 2 })

/-- A row of a running copy job is written: in its cycle where a contract holds, else as it is performed, when the slices of its
destination have room. Where a row comes into a core store without a contract, the item completes in the cycle after it at the
earliest (R115, R137, R173, R369). -/
def copyWrite (c : Nat) (s : State) : Out :=
  match (s.core c).copyRunning with
  | none => .fault .notEnabled
  | some j =>
    match j.rows with
    | [] => .fault .notEnabled
    | r :: rest =>
      let p := s.jobPlan c j
      let sl := if p.dst.space = 3 then s.sliceBytes (dieOf c) (r.patches.map (·.1)) else []
      let ready := if j.released then s.sideClear c p.dst && s.slicesRoom sl else decide (s.rowDue c j p ≤ s.ccyc c)
      if s.frozen (clusterOf c) || !ready then .fault .notEnabled
      else
        match s.writeFault c p r with
        | some f =>
          let at_ := runFloor (s.copyPlaces c p) j.pos
          .next (faultCopy (releaseCopy s c j) c { j with aux := BitVec.ofNat 64 at_ :: j.aux.tail } f)
        | none =>
          let s := (s.writeUnits c p.dst r.patches r.flags).copyWrote c p
          let s := s.touchSlices sl
          let s := if 2 ≤ p.dst.space then s
            else s.addUses (clusterOf c) (p.dst.cores.flatMap (fun o => bankUses o c (s.ccyc c) 2 (some j.id) (r.patches.map (·.1))))
          let done := if j.released && p.dst.space != 3 then s.ccyc c + 1 else j.done
          .next (s.onCore c (·.putJob { j with rows := rest, done := done, aux := BitVec.ofNat 64 r.last :: j.aux.tail }))

/-- The card of a started job is put on the table once it has room; a job whose card clashes then faults (R127, R129). -/
def copyCard (c : Nat) (s : State) : Out :=
  match (s.core c).copyRunning with
  | none => .fault .notEnabled
  | some j =>
    if j.carded || !(s.die (dieOf c)).cardRoom then .fault .notEnabled
    else
      let l := (s.jobPlan c j).cardRanges
      let r := s.checkCards (dieOf c) (.copy c) l
      if !r.2 then .next (faultCopy (releaseCopy r.1 c j) c j { code := .footprint })
      else .next ((s.onDie (dieOf c) (·.addCards (.copy c) j.id l)).onCore c (·.putJob { j with carded := true }))

/-- Whether the rows that a core's copy job reads or writes next have their own time: a contract with a source in core
store, or a contract for the write (R369). -/
def State.copyTimed (s : State) (c : Nat) (write : Bool) : Bool :=
  match (s.core c).copyRunning with
  | none => false
  | some j => !j.released && (write || (s.jobPlan c j).src.space != 3)

/-- Whether the rows of a Dome transfer under contract are absent at their contract cycle (R114, R138). -/
def State.copyLate (s : State) (c : Nat) : Bool :=
  match (s.core c).copyRunning with
  | none => false
  | some j =>
    let p := s.jobPlan c j
    !j.released && p.src.space = 3 && j.rows.isEmpty && decide (j.pos < p.dst.halfBytes) && decide (s.rowDue c j p ≤ s.ccyc c)

/-- Whether COPY_COMPLETION may happen on a core now: every row is written, and the cycle after the last has come
(R369). -/
def State.copyCanEnd (s : State) (c : Nat) : Bool :=
  match (s.core c).copyRunning with
  | none => false
  | some j => decide (j.done ≤ s.ccyc c) && j.rows.isEmpty && decide ((s.jobPlan c j).dst.halfBytes ≤ j.pos)

/-- COPY_COMPLETION: the post is made, and CHAIN_HEAD or the completion number advances (R173, R365, R367, R369). -/
def execCopyCompletion (c : Nat) (s : State) : Out :=
  if s.frozen (clusterOf c) then .fault .notEnabled else
  if !s.copyCanEnd c then .fault .notEnabled
  else
    match (s.core c).copyRunning with
    | none => .fault .notEnabled
    | some j =>
      let s := releaseCopy s c j
      match j.cmd.chain with
      | none =>
        let s := match j.cmd.ins with
          | .cpy _ _ _ p k => if p = 1 then s.later c 1 (.kadd k.toNat) 1 else s
          | _ => s
        .next (finishCopy s c j)
      | some (tail, st) =>
        let e := j.entry
        let s := if e.getLsbD 22 then s.later c 1 (.kadd (bits e 27 24)) (BitVec.ofNat 8192 (bits e 39 32)) else s
        let nx := entryNext e
        let s := if st.isNone then s.onCore c (fun k => { k with chainHead := BitVec.ofNat 64 nx }) else s
        if nx = tail then .next (finishCopy s c j)
        else
          .next (s.onCore c (fun k =>
            { k.putJob { j with st := .waiting, entry := 0, aux := [0, BitVec.ofNat 64 nx], descs := [], vals := [] } with
              copyFree := s.ccyc c + 1 }))

/-- The run that a copy job is in is written to its end now, for a record that is killed: a job that has started is in its
first run, and one that stands at a boundary is in the next run once it has read a row of it (R179, R257; log 8). -/
def State.finishRun (s : State) (c : Nat) (j : Job) : State :=
  let p := s.jobPlan c j
  let l := s.copyPlaces c p
  let r := runFloor l j.pos
  if !j.carded || (r = j.pos && j.rows.isEmpty && decide (j.base < j.pos)) then s
  else
    let rest := (l.filter (fun q => decide (j.pos ≤ q.at_) && q.run = r)).takeWhile (fun q => (s.placeFault c p l q).isNone)
    if rest.isEmpty then s else (s.writeUnits c p.dst (patchesOf rest) (flagsOf rest)).copyWrote c p

/-- The Dome and far addresses of the runs that a core's copy job has begun and not ended: their pages have been checked, and stay
as they are until the run is written (R179). -/
def State.runVas (s : State) (c : Nat) : List Nat :=
  match (s.core c).copyRunning with
  | none => []
  | some j =>
    let p := s.jobPlan c j
    let l := s.copyPlaces c p
    let begun := l.filter (fun q => decide (runFloor l j.pos ≤ q.at_) && decide (q.at_ < j.fetched))
    let mine := l.filter (fun q => begun.any (fun b => b.run = q.run))
    (if p.dst.space = 3 then mine.flatMap (fun q => q.unit.patches.map (·.1)) else [])
      ++ (if p.src.space = 3 then mine.flatMap (fun q => q.unit.reads ++ q.unit.scales) else [])

/-- STATE of chs (R368). -/
def Core.copyState (k : Core) : Nat :=
  match k.jobsOf 0 with
  | j :: _ =>
    match j.st with
    | .faulted => 3
    | .running => 2
    | _ => 1
  | [] => 0

/-- BYTESDONE of chs: the bytes of complete runs of the item or entry in progress (R179, R368, R369). -/
def State.copyBytes (s : State) (c : Nat) : Nat :=
  match (s.core c).jobsOf 0 with
  | [] => 0
  | j :: _ => if j.st = .running then runFloor (s.copyPlaces c (s.jobPlan c j)) j.pos / 2 else j.pos / 2

/-- chs: the copy engine's state as of its issue cycle, with latency 2 (R368). -/
def execChs (g : BitVec 4) (d : BitVec 5) : State → Out :=
  issue (.chs g d) { dst := some d, lat := 2 }
    (fun q _ s =>
      let k := s.core q.core
      let v := bits k.chainHead 20 0 * 2 ^ 43 + k.copyState * 2 ^ 40 + s.copyBytes q.core % 2 ^ 32
      .done (s.writeS q d 2 (BitVec.ofNat 64 v)) .next)

end Sys2Proof.Machine
end

