-- ==== Sys2Proof/Machine/Truss.lean ====
section
/-! DEFINITION. The Truss: bitstreams, bindings, streams of rows, zero-run blocks and phases (R156 to R160, R243 to R248,
R371). -/

namespace Sys2Proof.Machine

/-- A node entry of a bitstream (R244). -/
structure TNode where
  op : Nat
  src0 : Nat
  src1 : Nat
  fin : Nat
  fout : Nat
  rm : Nat
  esz : Nat
  mode : Nat
  tport : Nat
  rsv : Nat
  bound : Nat
deriving DecidableEq, Repr

/-- Node k of a bitstream. -/
def trussNode (img : List Byte) (k : Nat) : TNode :=
  let v : BitVec 128 := BitVec.ofNat 128 (natOfBytes ((img.drop (64 + 16 * k)).take 16))
  { op := bits v 127 120, src0 := bits v 119 112, src1 := bits v 111 104, fin := bits v 103 96, fout := bits v 95 88,
    rm := bits v 87 86, esz := bits v 85 84, mode := bits v 83 82, tport := bits v 81 80, rsv := bits v 79 32,
    bound := bits v 31 0 }

/-- The source code of output port p. -/
def trussOut (img : List Byte) (p : Nat) : Nat := (img.getD p 0).toNat

/-- The input port a source code names. -/
def srcPort (c : Nat) : Option Nat := if 0x10 ≤ c ∧ c < 0x14 then some (c - 0x10) else none
/-- The node and output a source code names. -/
def srcNode (c : Nat) : Option (Nat × Nat) := if 0x40 ≤ c ∧ c < 0x60 then some ((c - 0x40) / 2, c % 2) else none

/-- Which inputs an operator needs (R243). -/
def trussNeeds (op : Nat) : Bool × Bool :=
  match op with
  | 5 | 8 => (true, true)
  | 6 => (false, true)
  | _ => (true, false)

/-- e of an ESZ code. -/
def eszBytes (n : Nat) : Nat := 2 ^ n
/-- Latency of a node (R243). -/
def TNode.latency (n : TNode) : Nat := if n.op = 3 then 3 + eszBytes n.esz else 4

/-- Every source code a bitstream names. -/
def trussUses (img : List Byte) : List Nat :=
  ((List.range 4).map (trussOut img)
    ++ (List.range 16).flatMap (fun k => let n := trussNode img k; if n.op = 0 then [] else [n.src0, n.src1])).filter (· != 0)

/-- Whether a source code names an input port or an output of a used node. -/
def trussSrcOk (img : List Byte) (c : Nat) : Bool :=
  match srcPort c, srcNode c with
  | some _, _ => true
  | _, some (k, o) => let n := trussNode img k; n.op != 0 && (o == 0 || n.op == 7)
  | _, _ => false

/-- Whether the nodes behind a source form no cycle. -/
def trussAcyclic (img : List Byte) : Nat → Nat → Bool
  | 0, _ => false
  | f + 1, c =>
    match srcNode c with
    | none => true
    | some (k, _) => let n := trussNode img k; trussAcyclic img f n.src0 && trussAcyclic img f n.src1

/-- The largest latency from an input port to a source (R245). -/
def trussLatency (img : List Byte) : Nat → Nat → Nat
  | 0, _ => 0
  | f + 1, c =>
    match srcNode c with
    | none => 0
    | some (k, _) => let n := trussNode img k; n.latency + max (trussLatency img f n.src0) (trussLatency img f n.src1)

/-- Bits of an element a CVT or SCALE handles; NI in its unpacked code. -/
def cvtBits (f : Nat) : Nat := streamBits f
/-- Formats a CVT or SCALE may read: those whose elements have a value by themselves (R182, R195, R196). -/
def cvtFmt (f : Nat) : Bool := fmtOk f && f != 0x10 && f != 0x11

/-- The interval in cycles that the stream of a source must keep at least, by the operator that consumes it (R245). -/
def trussNeed (img : List Byte) : Nat → Nat → Nat
  | 0, _ => 1
  | f + 1, c =>
    let outs := (List.range 4).any (fun p => trussOut img p == c)
    if outs then 1
    else
      match (List.range 16).find? (fun k => let n := trussNode img k; n.op != 0 && (n.src0 == c || n.src1 == c)) with
      | none => 1
      | some k =>
        let n := trussNode img k
        let o := trussNeed img f (0x40 + 2 * k)
        match n.op with
        | 4 => max 1 (o * cvtBits n.fout / max 1 (cvtBits n.fin))
        | 6 => max 1 (o * eszBytes n.esz / 4)
        | 7 => let m := max o (trussNeed img f (0x41 + 2 * k)); if n.mode = 0 then m else max 1 (m / 2)
        | 8 => 2 * o
        | _ => o

/-- The row interval of an input port: 1, 2 or 4; 0 stands for more (R245). -/
def trussInterval (img : List Byte) (p : Nat) : Nat :=
  let n := trussNeed img 17 (0x10 + p)
  if n ≤ 1 then 1 else if n ≤ 2 then 2 else if n ≤ 4 then 4 else 0

/-- Whether a node holds a reserved value, or a non-zero field that is reserved or that its operator must leave zero; of an unused
node too (R244, R245). -/
def nodeReserved (n : TNode) : Bool :=
  let code (c : Nat) : Bool := c == 0 || (srcPort c).isSome || (srcNode c).isSome
  decide (8 < n.op) || n.rsv != 0 || n.rm == 3 || n.esz == 3 || !fmtOk n.fin || !fmtOk n.fout || !code n.src0 || !code n.src1
    || (n.src1 != 0 && !(trussNeeds n.op).2)
    || (n.mode != 0 && !(n.op == 5 && n.mode != 3) && !(n.op == 7 && n.mode == 1))

/-- Whether a used node's fields are refused (R244, R245). -/
def nodeBad (img : List Byte) (n : TNode) : Bool :=
  let need := trussNeeds n.op
  (n.src0 != 0) != need.1 || (n.src1 != 0) != need.2
    || (n.op == 4 && (!cvtFmt n.fin || n.fout == 0x11 || (n.fout == 0x0E && n.fin != 0x0E)
          || decide (2 ^ 31 ≤ n.bound) || isNan32 n.bound))
    || (n.op == 5 && (!cvtFmt n.fin || n.fin == 0x0E))
    || (n.op == 1 && (srcPort n.src0).isNone)
    || (n.op == 6 && (trussUses img).contains (0x10 + n.tport))

/-- Whether tload refuses a bitstream (R245). -/
def trussBad (img : List Byte) : Bool :=
  let used := (List.range 16).filter (fun k => (trussNode img k).op != 0)
  let uses := trussUses img
  ((img.drop 4).take 60).any (· != 0) || uses.any (fun c => !trussSrcOk img c)
    || uses.eraseDups.length != uses.length
    || (List.range 16).any (fun k => nodeReserved (trussNode img k))
    || used.any (fun k =>
        let n := trussNode img k
        nodeBad img n || !uses.contains (0x40 + 2 * k) || (n.op == 7 && !uses.contains (0x41 + 2 * k))
          || !trussAcyclic img 17 (0x40 + 2 * k)
          || (n.op == 2 && !(List.range 4).any (fun p => trussOut img p == 0x40 + 2 * k)))
    || (List.range 4).any (fun p => uses.contains (0x10 + p) && trussInterval img p == 0)

/-- A stream: for each row the entry cycle of the last input row that contributes to it, and the row; none: ENGINE. -/
abbrev TStream := List (Nat × Option Row)

/-- Rows k at a time; an incomplete group never leaves. -/
def groupsOf (k : Nat) : Nat → TStream → List TStream
  | 0, _ => []
  | f + 1, l => if l.length < k then [] else l.take k :: groupsOf k f (l.drop k)

/-- The codes of w bits of a row, lowest first. -/
def rowCodes (w : Nat) (r : Row) : List Nat := (List.range (8192 / w)).map (fun i => bits r (w * i + w - 1) (w * i))

/-- Rows from codes of w bits. -/
def codesRows (w : Nat) (l : List Nat) : List Row := (kib (8192 / w) l.length l).map (rowOf w)

/-- A node that takes k rows at a time: f maps the index of the first and the rows to the rows it emits. -/
def mapGroups (k : Nat) (f : Nat → List Row → List (Option Row)) (l : TStream) : TStream :=
  (groupsOf k l.length l).zipIdx.flatMap (fun (g : TStream × Nat) =>
    let t := g.1.foldl (fun a r => max a r.1) 0
    let rows : List Row := g.1.filterMap (fun (x : Nat × Option Row) => x.2)
    if rows.length < g.1.length then [(t, none)] else (f (g.2 * k) rows).map (fun r => (t, r)))

/-- XPOSE of a tile of 32 × 32 e-byte elements. -/
def xpose (e : Nat) (rows : List Row) : List (Option Row) :=
  let c := rows.flatMap (rowCodes (8 * e))
  (codesRows (8 * e) ((List.range 1024).map (fun i => c.getD (i % 32 * 32 + i / 32) 0))).map some

/-- The rounding mode of a node's RM at a dither index (R192, R243). -/
def nodeMode (rm i j : Nat) : RMode :=
  match rm with
  | 1 => .rtz
  | 2 => .dither (bayer (i % 16) (j % 16))
  | _ => .rne

/-- NI codes in their plane blocks of 64 elements, byte by byte (R189). -/
def planeBytes (l : List Nat) : List Nat :=
  (kib 64 l.length l).flatMap (fun b =>
    (List.range 64).map (fun o =>
      (List.range 8).foldl (fun a i => a + (if (b.getD (8 * (o % 8) + i) 0).testBit (7 - o / 8) then 2 ^ i else 0)) 0))

/-- CVT of a group of rows whose first has stream index i (R189, R195, R243). RAW and E8M0 are converted into themselves only. -/
def trussCvt (n : TNode) (i : Nat) (rows : List Row) : List (Option Row) :=
  let w := cvtBits n.fin
  let l := rows.zipIdx.flatMap (fun r => (rowCodes w r.1).zipIdx.map (fun c =>
    let x := match eFmt n.fin with | some e => e.value c.1 | none => .nan
    let mode := nodeMode n.rm (i + r.2) c.2
    match eFmt n.fout with
    | some (.f F) => if F = fp32 then toFp32 mode x else (convert (.f F) mode n.bound x).1
    | some e => if n.fin = n.fout ∧ (n.fin = 0x00 ∨ n.fin = 0x0E) then c.1 else (convert e mode n.bound x).1
    | none => 0))
  (codesRows (cvtBits n.fout) (if n.fout = 0x10 then planeBytes l else l)).map some

/-- SCALE of row i of data by its row of FP32 scales. Past an integer format's range RTZ gives the largest finite value of the
sign (R199); a result the format cannot hold is a free value (log 9). -/
def trussScale (n : TNode) (free i : Nat) (x sc : Row) : Row :=
  let w := cvtBits n.fin
  rowOf w ((rowCodes w x).zipIdx.map (fun c =>
    let g := 32 * 2 ^ n.mode
    let v := match eFmt n.fin with | some e => e.value c.1 | none => .nan
    let p := (FVal.mul v (fp32.decode (bits sc (32 * (c.2 / g) + 31) (32 * (c.2 / g))))).1
    let open_ := (Config.freeBits (free + i * 2048 + c.2)).toNat % 2 ^ w
    let mode := nodeMode n.rm i c.2
    match eFmt n.fin with
    | some (.f F) => (F.round? mode false p).getD open_
    | some e =>
      match p with
      | .fin neg m q =>
        let y := e.roundOn mode neg m q
        if e.natural && y.1 && y.2.1 != 0 then open_
        else if magGt y.2.1 y.2.2 e.maxMag.1 e.maxMag.2 then
          (if n.rm = 1 then e.codeOfGrid y.1 e.maxMag.1 e.maxMag.2 else open_)
        else e.codeOfGrid y.1 y.2.1 y.2.2
      | _ => open_
    | none => open_))

/-- GATHER of elements of e bytes from a table by rows of NAT32 indices; past the table is ENGINE (R246). -/
def trussGather (e : Nat) (table : List Byte) (rows : List Row) : List (Option Row) :=
  let idx := rows.flatMap (rowCodes 32)
  (kib (1024 / e) idx.length idx).map (fun l =>
    if l.any (fun i => decide (table.length / e ≤ i)) then none
    else some (rowOf (8 * e) (l.map (fun i => natOfBytes ((table.drop (i * e)).take e)))))

/-- Rows of even or odd place. -/
def everyOther (odd : Bool) (l : TStream) : TStream := l.zipIdx.filterMap (fun r => if (r.2 % 2 == 1) == odd then some r.1 else none)

/-- Rows of two streams in turn. -/
def mergeRows (a b : TStream) : TStream := (List.zip a b).flatMap (fun p => [p.1, p.2])

/-- What a phase has read: the bitstream, the rows of its input ports (of EXPAND's, expanded), tables, and where its free values
begin. -/
structure TReads where
  img : List Byte
  rows : Nat → TStream
  table : Nat → List Byte
  free : Nat

/-- The stream of a source (R243). -/
def TReads.stream (r : TReads) : Nat → Nat → TStream
  | 0, _ => []
  | f + 1, c =>
    match srcPort c, srcNode c with
    | some p, _ => r.rows p
    | none, none => []
    | none, some (k, o) =>
      let n := trussNode r.img k
      let a := r.stream f n.src0
      let b := r.stream f n.src1
      match n.op with
      | 1 | 2 => a
      | 3 => mapGroups (eszBytes n.esz) (fun _ l => xpose (eszBytes n.esz) l) a
      | 4 => mapGroups (max 1 (cvtBits n.fin / max 1 (cvtBits n.fout))) (trussCvt n) a
      | 5 =>
        (List.zip a b).zipIdx.map (fun p =>
          (max p.1.1.1 p.1.2.1,
            match p.1.1.2, p.1.2.2 with
            | some x, some y => some (trussScale n (r.free + k * 2 ^ 40) p.2 x y)
            | _, _ => none))
      | 6 => mapGroups (max 1 (4 / eszBytes n.esz)) (fun _ l => trussGather (eszBytes n.esz) (r.table n.tport) l) b
      | 7 => if n.mode = 0 then a else everyOther (o = 1) a
      | 8 => mergeRows a b
      | _ => []

/-- Where the four parts of a zero-run tensor's metadata lie (R158): codes of NB blocks. -/
def codesAt (meta_ nb : Nat) : Nat := meta_ + 64 + 64 * ceilDiv nb 32768

/-- Slot class c in bytes (R157). -/
def slotBytes (p : Rec512) : Nat := 256 * (bits p 241 240 + 1)
/-- META. -/
def pMeta (p : Rec512) : Nat := bits p 447 384
/-- OVBASE. -/
def pOv (p : Rec512) : Nat := bits p 383 320

/-- A zero-run block expanded from its compressed bytes (R156). -/
def expandBlock (b : List Byte) : Row :=
  let bit (i : Nat) : Bool := (b.getD (i / 8) 0).getLsbD (i % 8)
  let r := (List.range 256).foldl
    (fun (a : Nat × List Nat) i =>
      if bit i then (a.1 + 1, natOfBytes ((b.drop (32 + 4 * a.1)).take 4) :: a.2) else (a.1, 0 :: a.2)) (0, [])
  rowOf 32 r.2.reverse

/-- The compressed form of a block (R156). -/
def compressBlock (r : Row) : List Byte :=
  let w := rowCodes 32 r
  (List.range 32).map (fun j => BitVec.ofNat 8 ((List.range 8).foldl (fun a i => a + (if w.getD (8 * j + i) 0 = 0 then 0 else 2 ^ i)) 0))
    ++ (w.filter (· != 0)).flatMap (bytesOfNat 4)

/-- A bound port: its side with its blocks, and its parameter record. -/
structure TPort where
  side : CSide
  prm : Rec512
deriving DecidableEq, Repr

/-- The bytes a port's descriptor holds. -/
def TPort.bytes (p : TPort) : Nat := (p.side.halfBytes + 1) / 2
/-- The rows, or blocks, a port's descriptor holds. -/
def TPort.count (p : TPort) : Nat := ceilDiv p.bytes 1024

/-- The bit of the header that says whether a unit is secure: bit n of its die's units (R79). -/
def Rom.secureUnit (r : Rom) (g n : Nat) : Bool := (tabGet (0 : Rec512) g r.header).getLsbD n
/-- The world of a cluster's Truss. -/
def State.trussSecure (s : State) (cl : Nat) : Bool := s.rom.secureUnit (cl / 8) (384 + cl % 8)

/-- The translation of a byte that the Truss of core c's cluster reads or writes, or its fault (R139, R142, R144). -/
def State.trussAt (s : State) (c : Nat) (wr : Bool) (va : Nat) : Except FaultInfo (Loc × Word) :=
  match s.locateDome (dieOf c) (s.trussSecure (clusterOf c)) (!wr) wr va with
  | .ok l => .ok l
  | .error e => .error { code := e.1, cause := e.2, va := va, acc := if wr then 2 else 1 }

/-- n bytes that the Truss reads at a VA. -/
def State.getVa (s : State) (c va n : Nat) : Except FaultInfo (List Byte) :=
  match s.readDome (dieOf c) (s.trussSecure (clusterOf c)) va n with
  | .ok l => .ok l
  | .error e => .error { code := e.1, cause := e.2, va := va, acc := 1 }

/-- Bytes that the Truss writes at a VA. -/
def State.putVa (s : State) (c va : Nat) (l : List Byte) : Except FaultInfo State :=
  match s.writeDome (dieOf c) (s.trussSecure (clusterOf c)) va l with
  | .ok t => .ok t
  | .error e => .error { code := e.1, cause := e.2, va := va, acc := 2 }

/-- The binding of port p for core c (R246): descriptor, record and format; 0xFF: the leaf hint's. The key p holds the
descriptor, 8 + p its record, 16 + p its format. -/
def Core.trussBind (k : Core) (p : Nat) : Option (Rec512 × Rec512 × Nat) :=
  if k.trussPorts.any (fun e => e.1 = p) then
    some (tabGet 0 p k.trussPorts, tabGet 0 (8 + p) k.trussPorts, (tabGet 0 (16 + p) k.trussPorts).toNat)
  else none

/-- A port with its descriptor, record and format. -/
def State.portOf (s : State) (c : Nat) (d prm : Rec512) (f : Nat) : TPort := { side := s.cpySide c d prm f, prm := prm }

/-- The half bytes of row r of a port (R134, R323). -/
def TPort.rowHalves (t : TPort) (r : Nat) : List (Option Nat) := (t.side.halves.drop (2048 * r)).take 2048
/-- The byte addresses of row r of a port, each once. -/
def TPort.rowBytes (t : TPort) (r : Nat) : List Nat :=
  (t.rowHalves r).foldl (fun l o => match o with | some a => insertOnce (a / 2) l | none => l) []

/-- A byte of a port. -/
def State.portByte (s : State) (c : Nat) (x : CSide) (a : Nat) : Byte :=
  match x.space with
  | 3 => match s.trussAt c false a with | .ok l => s.byteAt l.1 a | .error _ => 0
  | _ => readByte (s.core (x.cores.headD c)).store a

/-- The fault of reading bytes of a port: the translation of a Dome byte, or an uncorrectable error (R21, R144). -/
def State.portFault (s : State) (c : Nat) (x : CSide) (l : List Nat) : Option FaultInfo :=
  l.findSome? (fun a =>
    if x.space = 3 then (match s.trussAt c false a with | .ok _ => none | .error f => some { f with va := l.headD a })
    else (s.eccRange (x.cores.headD c, bytesAt a 1 false)).map (fun e => { code := .eccUncorrectable, cause := e }))

/-- Row r of a port as it is read now (R134, R247). -/
def State.portRow (s : State) (c : Nat) (t : TPort) (r : Nat) : Except FaultInfo Row :=
  match s.portFault c t.side (t.rowBytes r) with
  | some f => .error f
  | none =>
    .ok (rowOf 4 ((t.rowHalves r).map (fun (o : Option Nat) => match o with
      | none => 0
      | some b => (s.portByte c t.side (b / 2)).toNat / (if b % 2 = 0 then 1 else 16) % 16)))

/-- The bytes of a table bound to a port, in walk order. -/
def State.portBytes (s : State) (c : Nat) (x : CSide) : List Byte :=
  let h := x.halves.map (fun (o : Option Nat) => match o with
    | none => 0
    | some b => (s.portByte c x (b / 2)).toNat / (if b % 2 = 0 then 1 else 16) % 16)
  (kib 2 h.length h).map (fun p => BitVec.ofNat 8 (p.getD 0 0 + 16 * p.getD 1 0))

/-- The offset of a port's first row from the start of the phase; none: a port of another module has no contract (R138,
R247). -/
def State.portOffset (s : State) (c : Nat) (x : CSide) : Option Nat :=
  if x.space != 3 then some 1
  else
    let o := bits (BitVec.ofNat 64 x.base) 61 52
    if o = (s.die (dieOf c)).rdie.toNat then some 64 else if (s.localDie o).isSome then some 576 else none

/-- The code of block b of a zero-run tensor of nb blocks; a set summary bit stands for its region's codes (R157, R158). -/
def State.blockCode (s : State) (c : Nat) (p : Rec512) (nb b : Nat) : Except FaultInfo Nat := do
  let sm ← s.getVa c (pMeta p + 64 + b / 64 / 8) 1
  if (natOfBytes sm).testBit (b / 64 % 8) then return (if slotBytes p = 1024 then 4 else 8)
  else
    let v ← s.getVa c (codesAt (pMeta p) nb + b / 2) 1
    return natOfBytes v / (if b % 2 = 0 then 1 else 16) % 16

/-- Block b of a zero-run port read (R157, R160): the expanded row, none for a reserved code; or the address of the overflow
entry that holds it. -/
def State.readSlot (s : State) (c : Nat) (p : TPort) (b : Nat) : Except FaultInfo (Option Row × Option Nat) := do
  let sz := slotBytes p.prm
  let slot ← s.getVa c (p.side.base + b * sz) sz
  let code ← s.blockCode c p.prm p.count b
  if code ≤ 3 ∧ 256 * (code + 1) ≤ sz then return (some (expandBlock slot), none)
  else if code = 4 ∧ sz = 1024 then return (some (BitVec.ofNat 8192 (natOfBytes slot)), none)
  else if code = 8 then return (none, some (pOv p.prm + natOfBytes (slot.take 4) * 1024))
  else return (none, none)

/-- Whether an input port feeds EXPAND. -/
def feedsExpand (img : List Byte) (p : Nat) : Bool :=
  (List.range 16).any (fun k => let n := trussNode img k; n.op == 1 && n.src0 == 0x10 + p)
/-- Whether PACK feeds an output port. -/
def fedByPack (img : List Byte) (p : Nat) : Bool :=
  match srcNode (trussOut img p) with
  | some (k, _) => (trussNode img k).op == 2
  | none => false
/-- Whether an input port is a stream source. -/
def isStream (img : List Byte) (p : Nat) : Bool := (trussUses img).contains (0x10 + p)
/-- Whether an input port holds a GATHER's table. -/
def isTable (img : List Byte) (p : Nat) : Bool :=
  (List.range 16).any (fun k => let n := trussNode img k; n.op == 6 && n.tport == p)

/-- Port p of a phase, as bound when its tgo began; none: not bound. -/
def State.phasePort (s : State) (c : Nat) (j : Job) (p : Nat) : Option TPort :=
  let f := (j.cmd.descs.getD (16 + p) 0).toNat
  if f = 0 then none else some (s.portOf c (j.cmd.descs.getD p 0) (j.cmd.descs.getD (8 + p) 0) (f - 1))

/-- The bitstream of a phase. -/
def Job.image (j : Job) : List Byte := j.aux.flatMap (fun w => bytesOfNat 8 w.toNat)

/-- The rows an input port has given a phase. -/
def Job.portRows (j : Job) (p : Nat) : List TIn := j.tin.filter (fun r => r.port = p)

/-- What a phase has read so far: a row that waits for its overflow entry, and those behind it, are still to come. -/
def State.trussReads (s : State) (c : Nat) (j : Job) : TReads :=
  { img := j.image,
    rows := fun p => ((j.portRows p).takeWhile (fun r => r.wants.isNone)).map (fun r => (r.at_, r.val)),
    table := fun p => match s.phasePort c j p with | none => [] | some t => s.portBytes c t.side,
    free := j.base }

/-- A row that leaves a phase: its cycle, output port, row number and row. -/
structure TWrite where
  at_ : Nat
  port : Nat
  row : Nat
  val : Option Row
deriving DecidableEq, Repr

/-- The cycles in which the rows of one output port leave: L after the last input row that contributes, one a cycle (R243,
R247). -/
def leaveAt (lat : Nat) : Nat → TStream → List (Nat × Option Row)
  | _, [] => []
  | from_, x :: r => let t := max (x.1 + lat) from_; (t, x.2) :: leaveAt lat (t + 1) r

/-- The graph latency L (R245). -/
def graphLatency (img : List Byte) : Nat := (List.range 4).foldl (fun a p => max a (trussLatency img 17 (trussOut img p))) 0

/-- The rows that leave an output port, as far as the rows read so far say (R247). -/
def TReads.writes (r : TReads) (p : Nat) : List TWrite :=
  if trussOut r.img p = 0 then []
  else (leaveAt (graphLatency r.img) 0 (r.stream 17 (trussOut r.img p))).zipIdx.map (fun x => ⟨x.1.1, p, x.2, x.1.2⟩)

/-- The rows that a phase has still to write, as far as they are known. -/
def State.phaseWrites (s : State) (c : Nat) (j : Job) : List TWrite :=
  (List.range 4).flatMap (fun p => ((s.trussReads c j).writes p).drop (j.tout.getD p 0))

/-- Writes row r of an output port; a fault writes nothing (R144). -/
def State.writePort (s : State) (c : Nat) (t : TPort) (r : Nat) (v : Row) : Except FaultInfo State :=
  let bad := if t.side.space != 3 then none else (t.rowBytes r).findSome? (fun a =>
    match s.trussAt c true a with | .ok _ => none | .error f => some { f with va := (t.rowBytes r).headD a })
  match bad with
  | some f => .error f
  | none =>
    .ok ((t.rowHalves r).zipIdx.foldl
      (fun s h =>
        match h.1 with
        | none => s
        | some a =>
          let n := bits v (4 * h.2 + 3) (4 * h.2)
          let m : Byte := if a % 2 = 0 then 0x0F else 0xF0
          let w : Byte := BitVec.ofNat 8 (if a % 2 = 0 then n else 16 * n)
          if t.side.space = 3 then
            match s.trussAt c true (a / 2) with
            | .ok l => s.putByte l.1 ((s.byteAt l.1 (a / 2) &&& ~~~m) ||| w)
            | .error _ => s
          else
            t.side.cores.foldl (fun s o => s.onCore o (fun k =>
              k.putBytes (a / 2) [(readByte k.store (a / 2) &&& ~~~m) ||| w])) s) s)

/-- The smallest class code whose size holds n bytes (R157). -/
def classOf (n : Nat) : Nat := (n + 255) / 256 - 1

/-- The slot and the code of block b written, and its region's summary bit made anew from the region's codes (R159). -/
def State.putBlock (s : State) (c : Nat) (p : TPort) (b code : Nat) (slot : List Byte) : Except FaultInfo State := do
  let sz := slotBytes p.prm
  let s ← s.putVa c (p.side.base + b * sz) ((slot ++ List.replicate sz 0).take sz)
  let codes := codesAt (pMeta p.prm) p.count
  let old ← s.getVa c (codes + b / 2) 1
  let o := natOfBytes old
  let s ← s.putVa c (codes + b / 2) [BitVec.ofNat 8 (if b % 2 = 0 then o / 16 * 16 + code else o % 16 + 16 * code)]
  let l ← (if b / 64 * 64 + 64 ≤ p.count then s.getVa c (codes + b / 64 * 32) 32 else .ok [0])
  let full := l.all (fun v => [v.toNat % 16, v.toNat / 16].all (fun y => y == 4 || y == 8))
  let sa := pMeta p.prm + 64 + b / 64 / 8
  let sm ← s.getVa c sa 1
  s.putVa c sa [BitVec.ofNat 8 (setBits (BitVec.ofNat 8 (natOfBytes sm)) (b / 64 % 8) (b / 64 % 8) (if full then 1 else 0)).toNat]

/-- The addresses at which PACK writes block b: its slot, and the overflow entry that it takes (R136, R159). -/
def State.packVas (s : State) (c : Nat) (p : TPort) (b : Nat) (v : Row) : List Nat :=
  let sz := slotBytes p.prm
  (List.range sz).map (fun i => p.side.base + b * sz + i)
    ++ (if (compressBlock v).length ≤ sz ∨ sz = 1024 then []
        else
          match s.getVa c (pMeta p.prm) 4 with
          | .ok fl => (List.range 1024).map (fun i => pOv p.prm + natOfBytes fl * 1024 + i)
          | .error _ => [])

/-- PACK of block b (R159): none when the overflow pool is full; a fault writes nothing. -/
def State.packBlock (s : State) (c : Nat) (p : TPort) (b : Nat) (v : Row) : Except FaultInfo (Option State) := do
  let sz := slotBytes p.prm
  let z := compressBlock v
  if z.length ≤ sz then return some (← s.putBlock c p b (classOf z.length) z)
  else if sz = 1024 then return some (← s.putBlock c p b 4 (bytesOfNat 1024 v.toNat))
  else
    let fl ← s.getVa c (pMeta p.prm) 4
    let cp ← s.getVa c (pMeta p.prm + 4) 4
    let fill := natOfBytes fl
    if fill < natOfBytes cp then
      let s ← s.putVa c (pOv p.prm + fill * 1024) (bytesOfNat 1024 v.toNat)
      let s ← s.putBlock c p b 8 (bytesOfNat 4 fill)
      let s ← s.putVa c (pMeta p.prm) (bytesOfNat 4 (fill + 1))
      return some s
    else return none

/-- tload (R371): the address of 320 bytes. -/
def execTload (g : BitVec 4) (sv : BitVec 5) : State → Out :=
  issueEngine (.tload g sv) 3 [sv]
    (fun _ _ v => match blockFault (v.x 0) 320 64 with | some f => .error f | none => .ok ([v.x 0], []))

/-- Whether a port's shape is refused for its format (R189, R231, R233, R234). -/
def portBad (d prm : Rec512) (f : Nat) : Bool :=
  planesBad d f || (if dPrec d = 0 then f == 0x11 else recordBad prm f (copyKinds f))
    || (f == 0x10 && (niStrides d || dSize d 0 % 64 != 0))
    || (f == 0x11 && (dStride d 0 != 0 || dStride d 1 != 0 || dStride d 2 != 0 || dStride d 3 != 0
          || dSize d 0 % (64 * max 1 (pBlen prm)) != 0))

/-- The checks of tbind at acceptance (R139, R189, R231, R234, R246, R325): descriptor, record and format; what a leaf hint
decides is checked when the phase begins (R148). -/
def tbindCheck (s : State) (c : Nat) (p : Nat) (n : BitVec 4) : Except FaultInfo (List Word × List Rec512) :=
  let k := s.core c
  let d := k.descr n
  let prm := (readRecord k d).getD 0 0
  let f := (s.copyFmt c d none).getD 0xFF
  let x := s.cpySide c d prm (if f = 0xFF then 0 else f)
  let v : Word := BitVec.ofNat 64 (dBase d)
  match k.recordEcc c d f with
  | some e => .error e
  | none =>
  if descBad d (decide (4 ≤ p)) false || dSpace d == 2 || (s.sideCores c d).any (·.isNone)
      || (if f = 0xFF then dPrec d != 0 && recordReserved prm else portBad d prm f) then
    .error { code := .descriptor }
  else if (dSpace d == 3 && (bits v 63 62 != 0 || s.vaBad (dieOf c) (dBase d))) || s.sideAddr c x then
    .error { code := .addr, va := dBase d }
  else if dBase d % fmtBytes f != 0 then .error { code := .align, va := dBase d }
  else .ok ([BitVec.ofNat 64 p], [d, prm, BitVec.ofNat 512 f])

/-- tbind (R371). -/
def execTbind (g d : BitVec 4) (p : BitVec 3) : State → Out :=
  issueEngine (.tbind g d p) 3 [] (fun s c _ => tbindCheck s c p.toNat d)

/-- tgo (R247, R371): its phase takes its place among those of the cluster at its issue. -/
def execTgo (g : BitVec 4) : State → Out :=
  issueWith (.tgo g) {} (fun _ s => .done s .next)
    (fun q _ s =>
      if !(s.core q.core).engRoom 3 then .wait (.engineRoom 3)
      else
        .done ((s.accept q.core 3 (.tgo g) [] []).onCluster (clusterOf q.core)
          (fun n => { n with trussQ := n.trussQ ++ [q.core] })) .next)

/-- tbar (R248, R371). -/
def execTbar (g : BitVec 4) : State → Out := issueEngine (.tbar g) 3 [] (fun _ _ _ => .ok ([], []))

/-- The Truss item a core's engine has taken. -/
def Core.trussItem (k : Core) : Option Job := (k.jobsOf 3).find? (fun j => !j.released && j.st != .faulted)
/-- The phase of a core that has started. -/
def Core.trussPhase (k : Core) : Option Job := (k.jobsOf 3).find? (·.released)

/-- Whether a core's Truss item may begin or end now without a phase event; a tgo that waits needs room for its card (R129,
R371). -/
def State.trussCanAdvance (s : State) (c : Nat) : Bool :=
  let k := s.core c
  let now := s.ccyc c
  match k.trussItem with
  | some j =>
    (match j.cmd.ins with
     | .tgo .. => decide (j.st = .waiting) && (s.die (dieOf c)).cardRoom
     | .tbar .. => k.trussPhase.isNone
     | _ => true) && decide (j.done ≤ now)
  | none =>
    match k.engQueue 3 with
    | [] => false
    | cmd :: _ => decide (cmd.at_ < now) && !k.engHold.contains 3 && decide (tabGet 0 3 k.engFree ≤ now)

/-- A fault on a Truss item or phase: it is faulted, and the core's later items are held (R252). -/
def State.trussFault (s : State) (c : Nat) (j : Job) (f : FaultInfo) : State :=
  let s := s.onCore c (·.putJob { j with st := .faulted })
  let s := s.onCluster (clusterOf c) (fun n => { n with trussQ := n.trussQ.erase c })
  s.engFault c 3 j.cmd (some j.id) f

/-- The ranges of core stores and of the Dome that a port names (R126, R129, R159). -/
def TPort.ranges (t : TPort) (zr wr : Bool) : List (Nat × Range) × List (Nat × Nat × Bool) :=
  let span : Option (Nat × Nat) :=
    if zr then some (t.side.base, t.side.base + t.count * slotBytes t.prm - 1)
    else t.side.span.map (fun r => (r.1.toNat, r.2.toNat))
  let m := pMeta t.prm
  let cards := if zr then
      [(m, m + 7, wr), (m + 64, codesAt m t.count + ceilDiv t.count 2 - 1, wr)] else []
  match span with
  | none => ([], cards)
  | some r => if t.side.space = 3 then ([], (r.1, r.2, wr) :: cards) else (t.side.cores.map (fun o => (o, ⟨false, r.1, r.2, wr⟩)), cards)

/-- The ports a bitstream uses: number, whether it holds zero-run slots, and whether it is written. -/
def trussPortsUsed (img : List Byte) : List (Nat × Bool × Bool) :=
  ((List.range 4).filter (fun p => isStream img p || isTable img p)).map (fun p => (p, feedsExpand img p, false))
    ++ ((List.range 4).filter (fun p => trussOut img p != 0)).map (fun p => (4 + p, fedByPack img p, true))

/-- The format of a bound port: its own, or the leaf hint of its first byte, read with the rights of the port (R148). -/
def State.bindFmt (s : State) (c : Nat) (wr : Bool) (b : Rec512 × Rec512 × Nat) : Except FaultInfo Nat :=
  if b.2.2 != 0xFF then .ok b.2.2
  else
    match s.trussAt c wr (dBase b.1) with
    | .error f => .error f
    | .ok l => if portBad b.1 b.2.1 (hintFmt (lFmt l.2)) then .error { code := .descriptor } else .ok (hintFmt (lFmt l.2))

/-- Whether a page of a zero-run port is mapped and is not marked so (R160). -/
def State.notZeroRun (s : State) (c : Nat) (t : TPort) (wr : Bool) : Bool :=
  let n := t.count * slotBytes t.prm
  (t.side.base :: (t.side.base + n - 1) :: (List.range (n / 65536)).map (fun i => t.side.base + 65536 * (i + 1))).any (fun a =>
    decide (a < t.side.base + n) && (match s.trussAt c wr a with | .ok l => lCmp l.2 != 1 | .error _ => false))

/-- The checks of a phase's port when its tgo begins, and its format (R148, R160, R246); an uncorrectable word in a table is
found here (R21). -/
def State.openPort (s : State) (c : Nat) (img : List Byte) (u : Nat × Bool × Bool) : Except FaultInfo Nat :=
  match (s.core c).trussBind u.1 with
  | none => .error { code := .descriptor }
  | some b =>
    match s.bindFmt c u.2.2 b with
    | .error f => .error f
    | .ok f =>
      let t := s.portOf c b.1 b.2.1 f
      let table := !u.2.2 && isTable img u.1
      if (u.2.1 && (!pZr t.prm || t.side.space != 3)) || (t.side.space == 3 && table) then .error { code := .descriptor }
      else if u.2.1 && s.notZeroRun c t u.2.2 then .error { code := .descriptor }
      else
        match (if table then (t.ranges false false).1.findSome? s.eccRange else none) with
        | some e => .error { code := .eccUncorrectable, cause := e }
        | none => .ok f

/-- The formats of the ports that a phase uses, or why it may not begin (R246, R371). -/
def State.openPorts (s : State) (c : Nat) (img : List Byte) : List (Nat × Bool × Bool) → Except FaultInfo (List (Nat × Nat))
  | [] => .ok []
  | u :: r =>
    match s.openPort c img u with
    | .error f => .error f
    | .ok f =>
      match s.openPorts c img r with
      | .error e => .error e
      | .ok l => .ok ((u.1, f) :: l)

/-- A tgo item begins: its ports are checked, and its footprints and card stand from now on (R126 to R129, R248); a full card
table makes it wait, a full checker freezes the cluster (R114). -/
def State.startTgo (s : State) (c : Nat) (j : Job) : State :=
  let img := (s.core c).trussImage
  if img.isEmpty then s.trussFault c j { code := .engine }
  else
    match s.openPorts c img (trussPortsUsed img) with
    | .error f => s.trussFault c j f
    | .ok fs =>
      let k := s.core c
      let descs : List Rec512 := (List.range 24).map (fun p =>
        if p < 16 then tabGet 0 p k.trussPorts
        else match fs.find? (fun e => e.1 = p - 16) with | some e => BitVec.ofNat 512 (e.2 + 1) | none => 0)
      let j := { j with aux := (List.range 40).map (fun i => (BitVec.ofNat 64 (natOfBytes ((img.drop (8 * i)).take 8)) : Word)),
                        cmd := { j.cmd with descs := descs } }
      let cl := clusterOf c
      let iss := Issuer.truss cl
      let rs := (trussPortsUsed img).filterMap (fun u => (s.phasePort c j u.1).map (fun t => t.ranges u.2.1 u.2.2))
      let fps := rs.flatMap (·.1)
      let cards := rs.flatMap (·.2)
      match s.fullChecker (s.ccyc c) fps with
      | some o => s.freezeFull c 3 o
      | none =>
        if !cards.isEmpty && !(s.die (dieOf c)).cardRoom then s
        else
          let chk := s.checkAll iss fps
          let crd := chk.1.checkCards (dieOf c) iss cards
          if !chk.2 || !crd.2 then crd.1.trussFault c j { code := .footprint }
          else
            ((s.addAll iss j.id fps (s.ccyc c) none).onDie (dieOf c) (·.addCards iss j.id cards)).onCore c
              (·.putJob { j with st := .running })

/-- Ends a Truss item. -/
def State.endTruss (s : State) (c : Nat) (j : Job) : State :=
  ((s.completeCmd c 3 j.cmd).onCore c (·.dropJob j)).onCore c
    (fun k => { k with engFree := tabPut 3 (s.ccyc c + 1) k.engFree })

/-- A core's Truss item begins or ends (R371): tload takes 8 cycles, tbind and an idle tbar 1. A core that is not secure may not
use a secure Truss (R79). -/
def State.trussAdvance (s : State) (c : Nat) : State :=
  let k := s.core c
  let now := s.ccyc c
  match k.trussItem with
  | some j =>
    match j.cmd.ins with
    | .tgo .. => s.startTgo c j
    | .tload .. => (s.onCore c (fun k => { k with trussImage := j.image })).endTruss c j
    | .tbind .. =>
      let p := (j.cmd.vals.getD 0 0).toNat
      (s.onCore c (fun k =>
        { k with trussPorts := tabPut (16 + p) (j.cmd.descs.getD 2 0) (tabPut (8 + p) (j.cmd.descs.getD 1 0)
            (tabPut p (j.cmd.descs.getD 0 0) k.trussPorts)) })).endTruss c j
    | _ => s.endTruss c j
  | none =>
    match k.engQueue 3 with
    | [] => s
    | cmd :: rest =>
      let a := (cmd.vals.getD 0 0).toNat
      let img := readBytes k.store a 320
      let words := match cmd.ins with
        | .tload .. => (List.range 40).map (fun i => (BitVec.ofNat 64 (readNat k.store (a + 8 * i) 8) : Word))
        | _ => []
      let j : Job :=
        { id := k.jobId c, eng := 3, cmd := cmd, st := (match cmd.ins with | .tgo .. => .waiting | _ => .running), entry := 0,
          start := now, release := 0, released := false,
          done := now + (match cmd.ins with | .tload .. => 8 | .tgo .. => 0 | _ => 1), aux := words }
      let s := s.onCore c (fun k => { k.setEngQueue 3 rest with jobs := k.jobs ++ [j], nextJob := k.nextJob + 1 })
      if s.trussSecure (clusterOf c) && !s.rom.secureCore c then s.trussFault c j { code := .security }
      else
        match cmd.ins with
        | .tload .. =>
          match s.eccBytes c [(a, 320)] with
          | some e => s.trussFault c j { code := .eccUncorrectable, cause := e }
          | none => if trussBad img then s.trussFault c j { code := .descriptor } else s
        | .tgo .. => s.startTgo c j
        | _ => s

/-- The core whose phase comes next in a cluster: the first in order of issue whose Truss items are not held (R247). -/
def State.phaseNext (s : State) (cl : Nat) : Option Nat :=
  ((s.cluster cl).trussQ).find? (fun c => !(s.core c).engHold.contains 3)

/-- Whether a phase runs in a cluster. -/
def State.phaseRunning (s : State) (cl : Nat) : Option (Nat × Job) :=
  (List.range 8).findSome? (fun i =>
    ((s.core (cl * 8 + i)).jobsOf 3).findSome? (fun j => if j.released && j.st == .running then some (cl * 8 + i, j) else none))

/-- The core whose phase may start in this cycle. -/
def State.phaseReady (s : State) (cl : Nat) : Option (Nat × Job) :=
  if (s.phaseRunning cl).isSome || decide ((s.cluster cl).ccyc < (s.cluster cl).trussFree) then none
  else
    (s.phaseNext cl).bind (fun c =>
      (s.core c).trussItem.bind (fun j => match j.cmd.ins with | .tgo .. => if j.st = .running then some (c, j) else none | _ => none))

/-- TRUSS_PHASE_START: the next phase of the cluster starts, and its tgo completes (R247, R371). -/
def execTrussPhaseStart (cl : Nat) (s : State) : Out :=
  if s.frozen cl then .fault .notEnabled else
  match s.phaseReady cl with
  | none => .fault .notEnabled
  | some (c, j) =>
    let now := s.ccyc c
    let ph := { j with released := true, start := now, base := s.m.free, tin := [], tout := [] }
    let s := s.onCluster cl (fun n => { n with trussQ := n.trussQ.erase c })
    let s : State := { s with m := { s.m with free := s.m.free + 2 ^ 45 } }
    .next ((s.completeCmd c 3 j.cmd).onCore c (fun k => { k.putJob ph with engFree := tabPut 3 (now + 1) k.engFree }))

/-- The stream input ports of a phase with their bindings. -/
def State.phaseIns (s : State) (c : Nat) (j : Job) : List (Nat × TPort) :=
  ((List.range 4).filter (isStream j.image)).filterMap (fun p => (s.phasePort c j p).map (fun t => (p, t)))

/-- The cycle in which the next row of an input port enters, if the port has a contract (R138, R247). -/
def State.nextEntry (s : State) (c : Nat) (j : Job) (p : Nat) (t : TPort) : Option Nat :=
  (s.portOffset c t.side).map (fun o => j.start + o + (j.portRows p).length * trussInterval j.image p)

/-- Whether an input port has rows still to be read. -/
def Job.hasMore (j : Job) (p : Nat) (t : TPort) : Bool := decide ((j.portRows p).length < t.count)

/-- Whether a row of a Dome port of the phase that runs in a cluster is absent at its contract cycle (R114, R138, R247). -/
def State.trussLate (s : State) (cl : Nat) : Bool :=
  match s.phaseRunning cl with
  | none => false
  | some (c, j) =>
    (s.phaseIns c j).any (fun q =>
      q.2.side.space == 3 && j.hasMore q.1 q.2
        && (match s.nextEntry c j q.1 q.2 with | some t => decide (t ≤ s.ccyc c) | none => false))

/-- The first block of a running phase that has entered and is to be read from its overflow entry (R160). -/
def Job.overflowDue (j : Job) (now : Nat) : Option TIn := j.tin.find? (fun r => r.wants.isSome && decide (r.at_ ≤ now))

/-- Whether a block of the phase that runs in a cluster is absent because it lies in its overflow entry (R114, R160). -/
def State.overflowLate (s : State) (cl : Nat) : Bool :=
  match s.phaseRunning cl with
  | none => false
  | some (c, j) => (j.overflowDue (s.ccyc c)).isSome

/-- A phase ends: its footprints and its card go, and the cluster may start the next (R126, R129, R247). -/
def State.closePhase (s : State) (cl : Nat) (j : Job) : State :=
  ((s.dropAll cl (.truss cl) j.id).onDie (cl / 8) (·.dropCards (.truss cl) j.id)).onCluster cl
    (fun n => { n with trussFree := n.ccyc + 1 })

/-- A phase that faults: rows already written stay (R248, R252). -/
def State.stopPhase (s : State) (cl c : Nat) (j : Job) (f : FaultInfo) : State := (s.closePhase cl j).trussFault c j f

/-- Reads the next row of Dome port p of the running phase; it enters at its contract cycle, or, of another module, as it comes.
The requests of older accesses of the die have gone ahead (R116, R138, R170, R247). -/
def trussFetch (cl p : Nat) (s : State) : Out :=
  match s.phaseRunning cl with
  | none => .fault .notEnabled
  | some (c, j) =>
    match (s.phaseIns c j).find? (fun q => q.1 = p) with
    | none => .fault .notEnabled
    | some (_, t) =>
      let now := s.ccyc c
      let last := ((j.portRows p).getLast?.map (fun r => r.at_ + trussInterval j.image p)).getD (j.start + 1)
      let at_ := match s.nextEntry c j p t with | some e => max e now | none => now
      let n := (j.portRows p).length
      let ex := feedsExpand j.image p
      let vas := if ex then (List.range (slotBytes t.prm)).map (fun i => t.side.base + n * slotBytes t.prm + i) else t.rowBytes n
      let sl := (s.sliceBytes (dieOf c) vas).filter (fun e => (s.portOffset c t.side).isNone || e.1 != dieOf c)
      if t.side.space != 3 || !j.hasMore p t || !s.vasClear (dieOf c) vas || !s.slicesRoom sl then .fault .notEnabled
      else if (s.portOffset c t.side).isNone && (s.frozen cl || decide (now < last)) then .fault .notEnabled
      else
        let row : Except FaultInfo (Option Row × Option Nat) :=
          if ex then s.readSlot c t n else (s.portRow c t n).map (fun r => (some r, none))
        match row with
        | .error f => .next (s.stopPhase cl c j f)
        | .ok v =>
          let s := (s.touchSlices sl).engineDid (dieOf c) vas []
          let s := if (s.portOffset c t.side).isNone then s
            else s.addUses cl ({ at_ := at_, key := copyPortIn, prio := usePrio 3 c, job := some j.id } :: s.sliceUses c at_ 3 (some j.id) vas)
          let s : State := { s with m := { s.m with free := s.m.free + 1 } }
          .next (s.onCore c (·.putJob { j with tin := j.tin ++ [⟨p, at_, v.1, v.2⟩] }))

/-- The overflow entry of a block comes when the slices that hold it have room (R137, R160). -/
def trussOverflow (cl : Nat) (s : State) : Out :=
  match s.phaseRunning cl with
  | none => .fault .notEnabled
  | some (c, j) =>
    match j.overflowDue (s.ccyc c) with
    | none => .fault .notEnabled
    | some r =>
      let va := r.wants.getD 0
      let sl := s.sliceBytes (dieOf c) ((List.range 1024).map (va + ·))
      if !s.vasClear (dieOf c) [va] || !s.slicesRoom sl || !(s.cluster cl).causes.any (·.cause = 5) then .fault .notEnabled
      else
        match s.getVa c va 1024 with
        | .error f => .next (s.stopPhase cl c j f)
        | .ok l =>
          let new := { r with val := some (BitVec.ofNat 8192 (natOfBytes l)), wants := none }
          .next (((s.touchSlices sl).engineDid (dieOf c) [va] []).onCore c
            (·.putJob { j with tin := j.tin.map (fun x => if x.port = r.port ∧ x.at_ = r.at_ then new else x) }))

/-- The rows of core-store ports that enter the running phase in this cycle are read (R115, R247). -/
def trussEnter (cl : Nat) (s : State) : Out :=
  match s.phaseRunning cl with
  | none => .fault .notEnabled
  | some (c, j) =>
    let now := s.ccyc c
    let l := (s.phaseIns c j).filter (fun q =>
      q.2.side.space != 3 && j.hasMore q.1 q.2
        && (match s.nextEntry c j q.1 q.2 with | some t => decide (t ≤ now) | none => false))
    match l with
    | [] => .fault .notEnabled
    | (p, t) :: _ =>
      if s.frozen cl then .fault .notEnabled
      else
        let n := (j.portRows p).length
        match s.portRow c t n with
        | .error f => .next (s.stopPhase cl c j f)
        | .ok v =>
          let s := s.addUses cl (bankUses (t.side.cores.headD c) c now 3 (some j.id) (t.rowBytes n))
          .next (s.onCore c (·.putJob { j with tin := j.tin ++ [⟨p, now, some v, none⟩] }))

/-- The uncorrectable error that the GATHER nodes of a phase meet in this cycle: in the table elements that the index rows passing
them now name (R21, R243, R246). -/
def State.gatherBad (s : State) (c : Nat) (j : Job) : Option Nat :=
  let r := s.trussReads c j
  (List.range 16).findSome? (fun k =>
    let n := trussNode r.img k
    if n.op != 6 then none
    else
      match s.phasePort c j n.tport with
      | none => none
      | some t =>
        let o := t.side.cores.headD c
        if (s.core o).bad.isEmpty then none
        else
          let e := eszBytes n.esz
          let rows := (r.stream 17 n.src1).filter (fun x => x.1 + trussLatency r.img 17 n.src1 = s.ccyc c)
          let h := t.side.halves
          (rows.flatMap (fun x => (x.2.map (rowCodes 32)).getD [])).findSome? (fun i =>
            (List.range e).findSome? (fun b => ((h[2 * (i * e + b)]?).join).bind (fun a => s.eccRange (o, bytesAt (a / 2) 1 false)))))

/-- An uncorrectable error in a table stops the running phase (R5, R21). -/
def trussEcc (cl : Nat) (s : State) : Out :=
  match s.phaseRunning cl with
  | none => .fault .notEnabled
  | some (c, j) =>
    if s.frozen cl then .fault .notEnabled
    else
      match s.gatherBad c j with
      | none => .fault .notEnabled
      | some e => .next (s.stopPhase cl c j { code := .eccUncorrectable, cause := e })

/-- The row of the running phase that is written next: the earliest whose cycle has come, at the lowest port; a row for another
owner's Dome waits until the requests of older accesses have gone ahead, and none leaves while the cluster is frozen (R113, R170,
R247). -/
def State.leaving (s : State) (cl c : Nat) (j : Job) : Option TWrite :=
  let l := (s.phaseWrites c j).filter (fun w =>
    decide (w.at_ ≤ s.ccyc c) && w.row == j.tout.getD w.port 0
      && (match s.phasePort c j (4 + w.port) with
          | none => true
          | some t => t.side.space != 3 || s.vasClear (cl / 8) (t.rowBytes w.row)))
  if s.frozen cl then none
  else l.foldl (fun b w => match b with | some x => if w.at_ < x.at_ then some w else b | none => some w) none

/-- A row leaves the running phase and is written. More rows than the port's descriptor holds, a full overflow pool, a reserved
code and an index past the table raise ENGINE (R157, R159, R246 to R248). -/
def trussLeave (cl : Nat) (s : State) : Out :=
  match s.phaseRunning cl with
  | none => .fault .notEnabled
  | some (c, j) =>
    match s.leaving cl c j with
    | none => .fault .notEnabled
    | some w =>
      let now := s.ccyc c
      match s.phasePort c j (4 + w.port), w.val with
      | some t, some v =>
        if t.count ≤ w.row then .next (s.stopPhase cl c j { code := .engine })
        else
          let pk := fedByPack j.image w.port
          let vas := if pk then s.packVas c t w.row v else t.rowBytes w.row
          let r := if pk then s.packBlock c t w.row v else (s.writePort c t w.row v).map some
          match r with
          | .error f => .next (s.stopPhase cl c j f)
          | .ok none => .next (s.stopPhase cl c j { code := .engine })
          | .ok (some s') =>
            let s := if t.side.space = 3 then
                (s'.engineDid (dieOf c) [] (if pk then [pMeta t.prm, vas.headD 0] else vas)).addUses cl
                  ({ at_ := now, key := copyPortOut, prio := usePrio 3 c, job := some j.id } :: s'.sliceUses c now 3 (some j.id) vas)
              else s'.addUses cl (t.side.cores.flatMap (fun o => bankUses o c now 3 (some j.id) vas))
            let n := (List.range 4).map (fun p => j.tout.getD p 0 + (if p = w.port then 1 else 0))
            .next (s.onCore c (·.putJob { j with tout := n }))
      | _, _ => .next (s.stopPhase cl c j { code := .engine })

/-- Whether the running phase has read every input row and written every row that leaves it. -/
def State.phaseOver (s : State) (c : Nat) (j : Job) : Bool :=
  decide (j.start < s.ccyc c) && (s.phaseIns c j).all (fun q => !j.hasMore q.1 q.2)
    && j.tin.all (fun r => r.wants.isNone && decide (r.at_ ≤ s.ccyc c)) && (s.phaseWrites c j).isEmpty

/-- Whether an output port of a phase has received fewer rows than its descriptor holds (R248). -/
def State.phaseShort (s : State) (c : Nat) (j : Job) : Bool :=
  (trussPortsUsed j.image).any (fun u =>
    u.2.2 && (match s.phasePort c j u.1 with
      | none => true
      | some t => decide (j.tout.getD (u.1 - 4) 0 < t.count)))

/-- TRUSS_PHASE_END: every row has been read and written; the footprints and cards end. An output port that has received fewer
rows than its descriptor holds raises ENGINE (R248). -/
def execTrussPhaseEnd (cl : Nat) (s : State) : Out :=
  if s.frozen cl then .fault .notEnabled else
  match s.phaseRunning cl with
  | none => .fault .notEnabled
  | some (c, j) =>
    if !s.phaseOver c j then .fault .notEnabled
    else if s.phaseShort c j then .next (s.stopPhase cl c j { code := .engine })
    else .next ((s.closePhase cl j).onCore c (·.dropJob j))

end Sys2Proof.Machine
end

