-- ==== Sys2Proof/Machine/Kv.lean ====
section
/-! DEFINITION. KV pages, the context record, the radix tree, and the walker commands (R206 to R218, R224, R225, R372 to
R376). -/

namespace Sys2Proof.Machine

/-- A KV context record (R206). -/
structure KCtx where
  root : Nat
  sumBase : Nat
  freq : Nat
  nlayer : Nat
  ptcap : Nat
  hkv : Nat
  kfmt : Nat
  hdc : Nat
  rot : Nat
  pack : Bool
deriving DecidableEq, Repr

/-- The fields of a context record. -/
def kctxOf (v : Rec512) : KCtx :=
  { root := bits v 511 448, sumBase := bits v 447 384, freq := bits v 383 320, nlayer := bits v 319 304,
    ptcap := bits v 303 288, hkv := bits v 287 280, kfmt := bits v 279 272, hdc := bits v 271 270, rot := bits v 269 269,
    pack := v.getLsbD 268 }

/-- HD. -/
def KCtx.hd (x : KCtx) : Nat := 64 * 2 ^ x.hdc
/-- e, the bytes of an element. -/
def KCtx.eb (x : KCtx) : Nat := fmtBytes x.kfmt
/-- KB, the bytes of a page's keys (R207). -/
def KCtx.kb (x : KCtx) : Nat := x.hkv * 64 * x.hd * x.eb
/-- The bytes of a page (R207). -/
def KCtx.pageBytes (x : KCtx) : Nat := 2 * x.kb + (if x.pack then 2 * x.hkv * 128 else 0)
/-- The bytes of a node block (R210). -/
def KCtx.nodeBytes (x : KCtx) : Nat := 64 + 8 * x.ptcap * x.nlayer + 4 * 64 * x.ptcap

/-- PGU of a die's KVCFG (R209). -/
def Die.pgu (d : Die) : Nat := bits (tabGet (0 : Word) 0x0920 d.win) 47 40
/-- EN of a die's KVCFG. -/
def Die.kvEn (d : Die) : Bool := (tabGet (0 : Word) 0x0920 d.win).getLsbD 0
/-- NBSZ. -/
def Die.nbsz (d : Die) : Nat := bits (tabGet (0 : Word) 0x0920 d.win) 63 48

/-- Whether a context record is refused on a die (R206, R207, R210). -/
def KCtx.bad (x : KCtx) (v : Rec512) (d : Die) : Bool :=
  x.nlayer == 0 || decide (1024 < x.nlayer) || x.ptcap == 0 || decide (256 < x.ptcap) || x.hkv == 0 || decide (64 < x.hkv)
    || decide (x.kfmt < 9) || decide (12 < x.kfmt) || x.hdc == 3 || (x.pack && x.kfmt != 0x0B) || bits v 267 0 != 0
    || decide (d.pgu * 65536 < x.pageBytes) || decide (d.nbsz * 64 < x.nodeBytes)

/-- What a walker job carries: the state, die and world of its unit, and its context. -/
structure KEnv where
  die : Nat
  sec : Bool
  ctx : KCtx

/-- A job's answer: a state and values, a status that undoes it (R373), or a fault. -/
inductive KStop where
  | status (n : Nat)
  | fault (f : FaultInfo)
deriving DecidableEq, Repr

/-- A walker computation: what it leaves, or why it stops. -/
abbrev KRes (α : Type) := Except KStop α

/-- DESCRIPTOR. -/
def kBad {α : Type} : KRes α := .error (.fault { code := .descriptor })

/-- Reads n bytes at a Dome VA as a number. -/
def State.kRead (s : State) (e : KEnv) (va n : Nat) : KRes Nat :=
  match s.readDome e.die e.sec va n with
  | .ok l => .ok (natOfBytes l)
  | .error f => .error (.fault { code := f.1, cause := f.2, va := va, acc := 1 })

/-- Writes the n low bytes of v at a Dome VA; a write at another owner raises the clocks (R170). -/
def State.kWrite (s : State) (e : KEnv) (va n v : Nat) : KRes State :=
  match s.writeDome e.die e.sec va (bytesOfNat n v) with
  | .ok t => .ok (t.engineDid e.die [] [va])
  | .error f => .error (.fault { code := f.1, cause := f.2, va := va, acc := 2 })

/-- A node record with its address (R210, R211). -/
structure KNode where
  va : Nat
  raw : Rec512
deriving DecidableEq, Repr

/-- KIND. -/
def KNode.kind (n : KNode) : Nat := bits n.raw 1 0
/-- PT of a data node. -/
def KNode.pt (n : KNode) : Nat := bits n.raw 511 448
/-- PARENT, in both kinds of node. -/
def KNode.parent (n : KNode) : Nat := bits n.raw 447 384
/-- CHILD of a data node. -/
def KNode.child (n : KNode) : Nat := bits n.raw 383 320
/-- SIB, in both kinds of node. -/
def KNode.sib (n : KNode) : Nat := bits n.raw 319 256
/-- START. -/
def KNode.start (n : KNode) : Nat := bits n.raw 255 224
/-- LEN. -/
def KNode.len (n : KNode) : Nat := bits n.raw 223 192
/-- REF. -/
def KNode.ref (n : KNode) : Nat := bits n.raw 191 176
/-- SPAN. -/
def KNode.span (n : KNode) : Nat := bits n.raw 175 173
/-- EMPTY. -/
def KNode.empty (n : KNode) : Bool := n.raw.getLsbD 172
/-- NEXT of a sequence node. -/
def KNode.next (n : KNode) : Nat := bits n.raw 127 96
/-- CLOSED. -/
def KNode.closed (n : KNode) : Nat := bits n.raw 95 64
/-- NRNG. -/
def KNode.nrng (n : KNode) : Nat := bits n.raw 4 2

/-- A retired range (R211). -/
structure KRange where
  start : Nat
  len : Nat
  close : Bool
deriving DecidableEq, Repr

/-- The ranges of a sequence node. -/
def KNode.ranges (n : KNode) : List KRange :=
  ([bits n.raw 511 448, bits n.raw 383 320, bits n.raw 255 192, bits n.raw 191 128].take n.nrng).map
    (fun v => ⟨v / 2 ^ 32, v % 2 ^ 31, decide (v / 2 ^ 31 % 2 = 1)⟩)

/-- A range as a value. -/
def KRange.code (r : KRange) : Nat := r.start * 2 ^ 32 + (if r.close then 2 ^ 31 else 0) + r.len

/-- A sequence node record from its fields. -/
def seqRecord (parent sib next closed : Nat) (rs : List KRange) : Rec512 :=
  let c (i : Nat) : Nat := ((rs[i]?).map (·.code)).getD 0
  BitVec.ofNat 512 (c 0 * 2 ^ 448 + parent * 2 ^ 384 + c 1 * 2 ^ 320 + sib * 2 ^ 256 + c 2 * 2 ^ 192 + c 3 * 2 ^ 128
    + next % 2 ^ 32 * 2 ^ 96 + closed % 2 ^ 32 * 2 ^ 64 + rs.length * 4 + 1)

/-- A data node record from its fields. -/
def dataRecord (pt parent child sib start len ref span : Nat) : Rec512 :=
  BitVec.ofNat 512 (pt * 2 ^ 448 + parent * 2 ^ 384 + child * 2 ^ 320 + sib * 2 ^ 256 + start * 2 ^ 224 + len * 2 ^ 192
    + ref % 2 ^ 16 * 2 ^ 176 + span * 2 ^ 173)

/-- Reads a node record; a reserved KIND, or LEN past the page table, is refused (R210). -/
def State.kNode (s : State) (e : KEnv) (va : Nat) : KRes KNode :=
  match s.kRead e va 64 with
  | .error x => .error x
  | .ok v =>
    let n : KNode := ⟨va, BitVec.ofNat 512 v⟩
    if 2 ≤ n.kind ∨ (n.kind = 0 ∧ 64 * e.ctx.ptcap < n.len) then kBad else .ok n

/-- Reads a node record of a kind (R210). -/
def State.kNodeOf (s : State) (e : KEnv) (kind va : Nat) : KRes KNode :=
  match s.kNode e va with
  | .error x => .error x
  | .ok n => if n.kind = kind then .ok n else kBad

/-- Rewrites a node record. -/
def State.kPut (s : State) (e : KEnv) (n : KNode) : KRes State := s.kWrite e n.va 64 n.raw.toNat

/-- A node with bits [hi:lo] of its record replaced. -/
def KNode.set (n : KNode) (hi lo v : Nat) : KNode := { n with raw := setBits n.raw hi lo v }

/-- The data nodes on the path from a node to the root, nearest first, the root left out; the checks of R210. -/
def State.kPath (s : State) (e : KEnv) : Nat → Nat → KRes (List KNode)
  | 0, _ => kBad
  | f + 1, va =>
    match s.kNodeOf e 0 va with
    | .error x => .error x
    | .ok n =>
      if n.parent = 0 then (if va = e.ctx.root then .ok [] else kBad)
      else
        match s.kPath e f n.parent with
        | .error x => .error x
        | .ok l => .ok (n :: l)

/-- The longest path a walk takes (R210). -/
def kPathMax : Nat := 65537
/-- More nodes than a list of siblings can have: the 64-byte blocks of the Dome addresses. A longer list is a loop, which the walk
would not leave; it raises DESCRIPTOR. DESIGN CHOICE (R210, R212, R216; log 14). -/
def kSibMax : Nat := 2 ^ 56

/-- The walker's page or node stack: base and count registers (R209). -/
def stackRegs (nodes : Bool) : Nat × Nat := if nodes then (0x0910, 0x0918) else (0x0900, 0x0908)

/-- Entries held by a stack. -/
def State.kCount (s : State) (e : KEnv) (nodes : Bool) : Nat :=
  bits (tabGet (0 : Word) (stackRegs nodes).2 (s.die e.die).win) 31 0

/-- The state with a stack's COUNT replaced. -/
def State.kSetCount (s : State) (e : KEnv) (nodes : Bool) (n : Nat) : State :=
  let r := (stackRegs nodes).2
  s.onDie e.die (fun d => { d with win := tabPut r (setBits (tabGet (0 : Word) r d.win) 31 0 n) d.win })

/-- Pops entry COUNT - 1 of a stack; a stack too short is FREE_SHORT (R209, R214). -/
def State.kPop (s : State) (e : KEnv) (nodes : Bool) : KRes (State × Nat) :=
  let n := s.kCount e nodes
  if n = 0 then .error (.status 1)
  else
    match s.kRead e ((tabGet (0 : Word) (stackRegs nodes).1 (s.die e.die).win).toNat + 8 * (n - 1)) 8 with
    | .error x => .error x
    | .ok v => .ok (s.kSetCount e nodes (n - 1), v)

/-- Pushes an entry; a stack at its capacity is too short (R214; log 14). -/
def State.kPush (s : State) (e : KEnv) (nodes : Bool) (v : Nat) : KRes State :=
  let n := s.kCount e nodes
  if bits (tabGet (0 : Word) (stackRegs nodes).2 (s.die e.die).win) 63 32 ≤ n then .error (.status 1)
  else
    match s.kWrite e ((tabGet (0 : Word) (stackRegs nodes).1 (s.die e.die).win).toNat + 8 * n) 8 v with
    | .error x => .error x
    | .ok t => .ok (t.kSetCount e nodes (n + 1))

/-- The VA of page entry (layer y, page k) of a node (R210). -/
def KEnv.entryVa (e : KEnv) (n : KNode) (y k : Nat) : Nat := n.pt + 8 * (y * e.ctx.ptcap + k)
/-- The VA of token i of a node's run. -/
def KEnv.tokenVa (e : KEnv) (n : KNode) (i : Nat) : Nat := n.va + 64 + 8 * e.ctx.ptcap * e.ctx.nlayer + 4 * i

/-- Folds a list through a walker computation. -/
def kFold {α β : Type} (f : β → α → KRes β) : List α → β → KRes β
  | [], b => .ok b
  | a :: r, b =>
    match f b a with
    | .error x => .error x
    | .ok c => kFold f r c

/-- How many tokens of a node's run match a prompt from its first token on. -/
def State.kMatch (s : State) (e : KEnv) (n : KNode) : Nat → Nat → List Nat → KRes Nat
  | _, 0, _ => .ok 0
  | _, _, [] => .ok 0
  | i, left + 1, t :: r =>
    match s.kRead e (e.tokenVa n i) 4 with
    | .error x => .error x
    | .ok v =>
      if v = t then
        match s.kMatch e n (i + 1) left r with
        | .error x => .error x
        | .ok m => .ok (m + 1)
      else .ok 0

/-- The first child in sibling order that goes on with a prompt: a data node, not EMPTY, its SPAN in the mask and its first
token the next one (R212). -/
def State.kChild (s : State) (e : KEnv) (mask : Nat) (tok : Nat) : Nat → Nat → KRes (Option KNode)
  | 0, _ => kBad
  | f + 1, va =>
    if va = 0 then .ok none
    else
      match s.kNode e va with
      | .error x => .error x
      | .ok n =>
        if n.kind = 0 ∧ !n.empty ∧ mask.testBit n.span ∧ 0 < n.len then
          match s.kRead e (e.tokenVa n 0) 4 with
          | .error x => .error x
          | .ok v => if v = tok then .ok (some n) else s.kChild e mask tok f n.sib
        else s.kChild e mask tok f n.sib

/-- Splits a node at a multiple of 64 positions: the tail, with later pages, children and REF, is its only child (R212). -/
def State.kSplit (s : State) (e : KEnv) (n : KNode) (a : Nat) : KRes State := do
  let p ← s.kPop e true
  let tail : KNode := ⟨p.2, dataRecord (p.2 + 64) n.va n.child 0 (n.start + a) (n.len - a) n.ref n.span⟩
  let x := e.ctx
  let pages := (List.range x.nlayer).flatMap (fun y => (List.range x.ptcap).map (fun k => (y, k)))
  let s ← kFold (fun (s : State) (yk : Nat × Nat) => do
    if yk.2 + a / 64 < x.ptcap then
      let v ← s.kRead e (e.entryVa n yk.1 (yk.2 + a / 64)) 8
      let s ← s.kWrite e (e.entryVa tail yk.1 yk.2) 8 v
      s.kWrite e (e.entryVa n yk.1 (yk.2 + a / 64)) 8 0
    else s.kWrite e (e.entryVa tail yk.1 yk.2) 8 0) pages p.1
  let s ← kFold (fun (s : State) (i : Nat) => do
    let v ← s.kRead e (e.tokenVa n (a + i)) 4
    s.kWrite e (e.tokenVa tail i) 4 v) (List.range (n.len - a)) s
  let rec relink (s : State) : Nat → Nat → KRes State
    | 0, _ => kBad
    | f + 1, c =>
      if c = 0 then .ok s
      else
        match s.kNode e c with
        | .error x => .error x
        | .ok m =>
          match s.kPut e (m.set 447 384 tail.va) with
          | .error x => .error x
          | .ok s => relink s f m.sib
  let s ← relink s kSibMax n.child
  let s ← s.kPut e tail
  s.kPut e ((n.set 223 192 a).set 383 320 tail.va)

/-- Follows a prompt from a node: the matched nodes, the matched length and the last matched node (R212). -/
def State.kWalk (s : State) (e : KEnv) (mask : Nat) : Nat → Nat → List Nat → List Nat → Nat →
    KRes (State × List Nat × Nat × Nat)
  | 0, _, _, _, _ => kBad
  | _ + 1, cur, [], hit, len => .ok (s, hit, len, cur)
  | f + 1, cur, t :: rest, hit, len =>
    match s.kNode e cur with
    | .error x => .error x
    | .ok c =>
      match s.kChild e mask t kSibMax c.child with
      | .error x => .error x
      | .ok none => .ok (s, hit, len, cur)
      | .ok (some n) =>
        match s.kMatch e n 0 n.len (t :: rest) with
        | .error x => .error x
        | .ok m =>
          if m = n.len then s.kWalk e mask f n.va ((t :: rest).drop m) (hit ++ [n.va]) (len + m)
          else
            let a := 64 * (m / 64)
            if a = 0 then .ok (s, hit, len, cur)
            else
              match s.kSplit e n a with
              | .error x => .error x
              | .ok s => .ok (s, hit ++ [n.va], len + a, n.va)

/-- Links a node as the first child of a data node (log 14). -/
def State.kLink (s : State) (e : KEnv) (parent : Nat) (n : KNode) : KRes State := do
  let p ← s.kNodeOf e 0 parent
  let s ← s.kPut e ((n.set 447 384 parent).set 319 256 p.child)
  s.kPut e (p.set 383 320 n.va)

/-- Takes a node out of its parent's child list. -/
def State.kUnlink (s : State) (e : KEnv) (n : KNode) : KRes State := do
  let p ← s.kNodeOf e 0 n.parent
  if p.child = n.va then s.kPut e (p.set 383 320 n.sib)
  else
    let rec go (s : State) : Nat → Nat → KRes State
      | 0, _ => kBad
      | f + 1, c =>
        if c = 0 then .ok s
        else
          match s.kNode e c with
          | .error x => .error x
          | .ok m => if m.sib = n.va then s.kPut e (m.set 319 256 n.sib) else go s f m.sib
    go s kSibMax p.child

/-- Adds to REF of a data node. -/
def State.kRef (s : State) (e : KEnv) (va : Nat) (up : Bool) : KRes State := do
  let n ← s.kNodeOf e 0 va
  s.kPut e (n.set 191 176 (if up then n.ref + 1 else n.ref + 65535))

/-- The NAT32 list of n elements in core store. -/
def Core.nat32s (k : Core) (a n : Nat) : List Nat := (List.range n).map (fun i => readNat k.store (a + 4 * i) 4)

/-- What a walker command leaves: state, RESULT and AREA (R372). -/
structure KDone where
  s : State
  result : Nat
  area : Option Nat

/-- kvres (R212, R373). -/
def State.kvRes (s : State) (e : KEnv) (c : Nat) (b : Rec512) : KRes KDone := do
  let toks := (s.core c).nat32s (bits b 319 288) (bits b 255 224)
  let w ← s.kWalk e (bits b 175 168) (toks.length + 1) e.ctx.root toks [] 0
  let p ← w.1.kPop e true
  let seq : KNode := ⟨p.2, seqRecord 0 0 w.2.2.1 0 []⟩
  let s ← p.1.kLink e w.2.2.2 seq
  let s ← kFold (fun (s : State) va => s.kRef e va true) w.2.1 s
  .ok ⟨s, w.2.2.1, some p.2⟩

/-- Whether a node is retired for a sequence (R211, R216). -/
def retired (rs : List KRange) (n : KNode) : Bool :=
  rs.any (fun r => decide (r.start ≤ n.start) && decide (n.start < r.start + r.len))

/-- kvfork (R213, R373). -/
def State.kvFork (s : State) (e : KEnv) (b : Rec512) : KRes KDone := do
  let q ← s.kNodeOf e 1 (bits b 447 384)
  let path ← s.kPath e kPathMax q.parent
  let p ← s.kPop e true
  let s ← p.1.kLink e q.parent ⟨p.2, seqRecord 0 0 q.next q.closed q.ranges⟩
  let s ← kFold (fun (s : State) (n : KNode) => s.kRef e n.va true) (path.filter (fun n => !retired q.ranges n)) s
  .ok ⟨s, 0, some p.2⟩

/-- A range put in its place by START. -/
def insertRange (r : KRange) : List KRange → List KRange
  | [] => [r]
  | x :: l => if r.start < x.start then r :: x :: l else x :: insertRange r l

/-- Adjacent ranges of one mode merged (R216). -/
def mergeRanges : List KRange → List KRange
  | [] => []
  | r :: l =>
    match mergeRanges l with
    | [] => [r]
    | x :: m => if r.start + r.len = x.start ∧ r.close = x.close then { r with len := r.len + x.len } :: m else r :: x :: m

/-- Pushes the valid pages of a node whose REF has reached 0 and marks it EMPTY (R216); the count goes on. -/
def State.kFree (s : State) (e : KEnv) (va count : Nat) : KRes (State × Nat) := do
  let n ← s.kNodeOf e 0 va
  let x := e.ctx
  let pages := (List.range x.nlayer).flatMap (fun y => (List.range x.ptcap).map (fun k => e.entryVa n y k))
  let r ← kFold (fun (a : State × Nat) va => do
    let v ← a.1.kRead e va 8
    if v / 2 ^ 15 % 2 = 1 then
      let s ← a.1.kPush e false (v - 2 ^ 15)
      let s ← s.kWrite e va 8 (v - 2 ^ 15)
      .ok (s, a.2 + 1)
    else .ok a) pages (s, count)
  let s ← r.1.kPut e (n.set 172 172 1)
  .ok (s, r.2)

/-- Unlinks an EMPTY node without children, pushes its block, and tests its parent (R216). -/
def State.kPrune (s : State) (e : KEnv) : Nat → Nat → KRes State
  | 0, _ => kBad
  | f + 1, va =>
    match s.kNodeOf e 0 va with
    | .error x => .error x
    | .ok n =>
      if !n.empty || n.child != 0 || n.parent = 0 then .ok s
      else
        match s.kUnlink e n with
        | .error x => .error x
        | .ok s =>
          match s.kPush e true va with
          | .error x => .error x
          | .ok s => s.kPrune e f n.parent

/-- Retires nodes, given in ascending START: REF, pages, EMPTY (R216): the state, pages pushed and emptied nodes. -/
def State.kRetire (s : State) (e : KEnv) (l : List KNode) : KRes (State × Nat × List Nat) :=
  kFold (fun (a : State × Nat × List Nat) (n : KNode) => do
    let s ← a.1.kRef e n.va false
    if n.ref = 1 then
      let r ← s.kFree e n.va a.2.1
      .ok (r.1, r.2, a.2.2 ++ [n.va])
    else .ok (s, a.2)) l (s, 0, [])

/-- Tests emptied nodes for removal, ancestors first, so that none is tested after its removal. -/
def State.kPruneAll (s : State) (e : KEnv) (l : List Nat) : KRes State :=
  kFold (fun (s : State) va => s.kPrune e kPathMax va) l s

/-- kvret (R216, R373). -/
def State.kvRet (s : State) (e : KEnv) (b : Rec512) : KRes KDone := do
  let q ← s.kNodeOf e 1 (bits b 447 384)
  let path ← s.kPath e kPathMax q.parent
  let live := path.reverse.filter (fun n => !retired q.ranges n)
  let close := b.getLsbD 167
  if b.getLsbD 166 then
    let r ← s.kRetire e live
    let s ← r.1.kUnlink e q
    let s ← s.kPush e true q.va
    let s ← s.kPruneAll e (r.2.2.filter (fun va => va ≠ q.parent) ++ [q.parent])
    .ok ⟨s, r.2.1, none⟩
  else
    let sel := live.filter (fun n => (bits b 175 168).testBit n.span)
    if sel.isEmpty then .ok ⟨s, 0, none⟩
    else
      let rs := mergeRanges (sel.foldl (fun l n => insertRange ⟨n.start, n.len, close⟩ l) q.ranges)
      if 4 < rs.length then .error (.status 2)
      else
        let sum := if close then sel.foldl (fun a n => a + n.len) 0 else 0
        let s ← s.kPut e { q with raw := seqRecord q.parent q.sib q.next (q.closed + sum) rs }
        let r ← s.kRetire e sel
        let s ← r.1.kPruneAll e r.2.2
        .ok ⟨s, r.2.1, none⟩

/-- The BF16 codes of a reset summary: +∞ minima, then −∞ maxima, for every head (R218, R222). -/
def resetSummary (x : KCtx) : List Byte :=
  (List.range x.hkv).flatMap (fun _ =>
    (List.range x.hd).flatMap (fun _ => bytesOfNat 2 0x7F80) ++ (List.range x.hd).flatMap (fun _ => bytesOfNat 2 0xFF80))

/-- Takes a page for entry (y, k) of a node and resets its summary (R218). -/
def State.kPage (s : State) (e : KEnv) (n : KNode) (y k : Nat) : KRes State := do
  let p ← s.kPop e false
  let v := p.2 / 2 ^ 16 * 2 ^ 16 + 2 ^ 15 + p.2 % 2 ^ 15
  let s ← p.1.kWrite e (e.entryVa n y k) 8 v
  let l := resetSummary e.ctx
  s.kWrite e (e.ctx.sumBase + p.2 % 2 ^ 15 * (e.ctx.hkv * e.ctx.hd * 4)) l.length (natOfBytes l)

/-- An entry of a kvapp's list (R374): the sequence node, the count n and the tokens; none where a reserved value stands. -/
def Core.appendEntry (k : Core) (at_ : Nat) : KRes (Nat × Nat × List Nat) :=
  let b := readBytes k.store at_ 128
  let num (i n : Nat) : Nat := natOfBytes ((b.drop i).take n)
  let n := num 16 1
  if n = 0 ∨ 16 < n ∨ num 17 7 != 0 then kBad else .ok (num 0 8, n, (List.range n).map (fun i => num (24 + 4 * i) 4))

/-- Whether an append of n positions under a span tag extends the data node above a sequence (R218). -/
def KCtx.extends (x : KCtx) (rs : List KRange) (d : KNode) (span n : Nat) : Bool :=
  d.parent != 0 && d.ref == 1 && !retired rs d && d.span == span && decide ((d.len + n + 63) / 64 ≤ x.ptcap)

/-- What the list of a kvapp needs, as counted so far: node blocks, pages, whether a sequence passes the greatest position, and of
each sequence met the positions and the span tag of its data node and its NEXT (R218). -/
structure KNeed where
  nodes : Nat
  pages : Nat
  past : Bool
  seen : List (Nat × Nat × Nat × Nat)

/-- Counts what one list entry of a kvapp needs (R218). -/
def State.kNeed (s : State) (e : KEnv) (c at_ span : Nat) (a : KNeed) : KRes KNeed := do
  let x := e.ctx
  let w ← (s.core c).appendEntry at_
  let n := w.2.1
  let v : Nat × Bool × Nat ← (match a.seen.find? (fun y => y.1 = w.1) with
    | some y => .ok (y.2.1, decide (y.2.2.1 = span) && decide ((y.2.1 + n + 63) / 64 ≤ x.ptcap), y.2.2.2)
    | none => do
      let q ← s.kNodeOf e 1 w.1
      let _ ← s.kPath e kPathMax q.parent
      let d ← s.kNodeOf e 0 q.parent
      .ok (d.len, x.extends q.ranges d span n, q.next))
  let len := if v.2.1 then v.1 else 0
  .ok { nodes := a.nodes + (if v.2.1 then 0 else 1)
        pages := a.pages + x.nlayer * ((len + n + 63) / 64 - (len + 63) / 64)
        past := a.past || decide (2 ^ 31 - 1 < v.2.2 + n)
        seen := (w.1, len + n, span, v.2.2 + n) :: a.seen.filter (fun y => y.1 ≠ w.1) }

/-- The append of one list entry of a kvapp under the span tag its slot had when the command started; the positions appended
(R218, R374). -/
def State.kAppend (s : State) (e : KEnv) (c at_ span : Nat) : KRes (State × Nat) := do
  let w ← (s.core c).appendEntry at_
  let n := w.2.1
  let q ← s.kNodeOf e 1 w.1
  let d ← s.kNodeOf e 0 q.parent
  let x := e.ctx
  let r : State × KNode ← (if x.extends q.ranges d span n then .ok (s, d) else do
    let p ← s.kPop e true
    let node : KNode := ⟨p.2, dataRecord (p.2 + 64) 0 0 0 q.next 0 1 span⟩
    let s ← p.1.kUnlink e q
    let s ← s.kLink e q.parent node
    let node ← s.kNodeOf e 0 p.2
    let s ← kFold (fun (s : State) (i : Nat) => s.kWrite e (node.pt + 8 * i) 8 0) (List.range (x.ptcap * x.nlayer)) s
    let s ← s.kLink e p.2 q
    .ok (s, node))
  let node ← r.1.kNodeOf e 0 r.2.va
  let k0 := (node.len + 63) / 64
  let k1 := (node.len + n + 63) / 64
  let news := (List.range x.nlayer).flatMap (fun y => (List.range (k1 - k0)).map (fun k => (y, k0 + k)))
  let s ← kFold (fun (s : State) (yk : Nat × Nat) => s.kPage e node yk.1 yk.2) news r.1
  let s ← kFold (fun (s : State) (t : Nat × Nat) => s.kWrite e (e.tokenVa node (node.len + t.2)) 4 t.1) w.2.2.zipIdx s
  let s ← s.kPut e (node.set 223 192 (node.len + n))
  let q ← s.kNodeOf e 1 q.va
  let s ← s.kPut e (q.set 127 96 (q.next + n))
  let out := bytesOfNat 8 node.va ++ bytesOfNat 4 q.next ++ bytesOfNat 28 0
  .ok (s.onCore c (·.putBytes (at_ + 88) out), n)

/-- The SPAN fields of the slots that a kvapp's list names (R92, R218). -/
def State.kvSpans (s : State) (e : KEnv) (c : Nat) (b : Rec512) : KRes (List Word) :=
  kFold (fun (l : List Word) (i : Nat) =>
    match s.kRead e (readNat (s.core c).store (bits b 319 288 + 128 * i + 8) 8) 32 with
    | .error x => .error x
    | .ok v => .ok (l ++ [BitVec.ofNat 64 (v / 2 ^ 69 % 8)])) (List.range (bits b 255 224)) []

/-- kvapp: the needs of the whole list are counted first, then all entries are appended or none (R218, R373, R374). -/
def State.kvApp (s : State) (e : KEnv) (c : Nat) (b : Rec512) (spans : List Word) : KRes KDone := do
  let l := List.range (bits b 255 224)
  let at_ (i : Nat) : Nat := bits b 319 288 + 128 * i
  let span (i : Nat) : Nat := (spans.getD i 0).toNat
  let need ← kFold (fun (a : KNeed) (i : Nat) => s.kNeed e c (at_ i) (span i) a) l ⟨0, 0, false, []⟩
  if s.kCount e true < need.nodes ∨ s.kCount e false < need.pages then .error (.status 1)
  else if need.past then .error (.status 3)
  else
    let r ← kFold (fun (a : State × Nat) (i : Nat) => do
      let t ← a.1.kAppend e c (at_ i) (span i)
      .ok (t.1, a.2 + t.2)) l (s, 0)
    .ok ⟨r.1, r.2, none⟩

/-- The effective position of an unretired position (R217). -/
def effPos (rs : List KRange) (p : Nat) : Nat :=
  rs.foldl (fun a r => if r.close && decide (r.start + r.len ≤ p) then a - r.len else a) p

/-- The enumeration of a sequence: its unretired nodes and pages in ascending position (R224). -/
def enumeration (rs : List KRange) (path : List KNode) : List (KNode × Nat) :=
  (path.reverse.filter (fun n => !retired rs n)).flatMap (fun n => (List.range ((n.len + 63) / 64)).map (fun k => (n, k)))

/-- The lanes that a kvsel's selection row selects (R373). -/
def Core.selected (k : Core) (b : Rec512) : List Nat :=
  (List.range 256).filter (fun i => readNat k.store (bits b 127 96 + 4 * i) 4 != 0)

/-- kvsel (R224, R373). -/
def State.kvSel (s : State) (e : KEnv) (c : Nat) (b : Rec512) : KRes KDone := do
  let q ← s.kNodeOf e 1 (bits b 447 384)
  let path ← s.kPath e kPathMax q.parent
  let l := enumeration q.ranges path
  let hit := ((s.core c).selected b).filterMap (fun i => l[bits b 223 192 + i]?)
  let r ← kFold (fun (a : State × Nat) (nk : KNode × Nat) => do
    let n := nk.1
    let v ← a.1.kRead e (e.entryVa n (bits b 191 176) nk.2) 8
    let lpos := n.start + 64 * nk.2
    let w := lpos % 2 ^ 32 * 2 ^ 32 + effPos q.ranges lpos % 2 ^ 24 * 2 ^ 8 + min 64 (n.len - 64 * nk.2)
    .ok (a.1.onCore c (·.putBytes (bits b 319 288 + 16 * a.2) (bytesOfNat 8 v ++ bytesOfNat 8 w)), a.2 + 1))
    hit (s, 0)
  .ok ⟨r.1, r.2, none⟩

/-- A linear chain entry between virtual addresses (R366). -/
def chainEntryOf (src dst len next : Nat) (post : Bool) (pk : Nat) : Nat :=
  src * 2 ^ 192 + dst * 2 ^ 128 + len * 2 ^ 96 + next * 2 ^ 43
    + (if post then 2 ^ 32 + pk * 2 ^ 24 + 2 ^ 22 else 0) + 3 * 2 ^ 19 + 3 * 2 ^ 17

/-- The page list entries of a list in core store: index, page entry and second word. -/
def Core.pageList (k : Core) (a n : Nat) : List (Nat × Nat × Nat) :=
  (List.range n).map (fun i => (i, readNat k.store (a + 16 * i) 8, readNat k.store (a + 16 * i + 8) 8))

/-- The entries of a page list whose LOC is in far space (R225). -/
def Core.farPages (k : Core) (a n : Nat) : List (Nat × Nat × Nat) := (k.pageList a n).filter (fun x => x.2.1 / 2 ^ 62 = 1)

/-- kvgat (R225, R373, R375): chain entries, list rewrites, and one item in the copy queue that takes no number. -/
def State.kvGat (s : State) (e : KEnv) (c : Nat) (j : Job) (b : Rec512) : KRes KDone :=
  let area := bits b 383 320
  let list := bits b 319 288
  let chain := bits b 287 256
  let pg := (s.die e.die).pgu * 65536
  let far := (s.core c).farPages list (bits b 255 224)
  let f := far.length
  let entries :=
    if f = 0 then [chainEntryOf 0 0 0 (chain + 32) true (bits b 165 162)]
    else far.zipIdx.map (fun x =>
      chainEntryOf (x.1.2.1 / 2 ^ 16 * 2 ^ 16) (area + x.2 * pg) pg (chain + 32 * (x.2 + 1)) (x.2 + 1 = f) (bits b 165 162))
  let s := s.onCore c (fun k =>
    far.zipIdx.foldl (fun k x =>
        let at_ := list + 16 * x.1.1
        (k.putNat at_ 8 ((area + x.2 * pg) / 2 ^ 16 * 2 ^ 16 + x.1.2.1 % 2 ^ 16)).putNat (at_ + 8) 8
          (x.1.2.2 / 2 ^ 8 * 2 ^ 8 + 2 ^ 7 + x.1.2.2 % 2 ^ 7))
      (k.putBytes chain (entries.flatMap (bytesOfNat 32))))
  let item : Cmd :=
    { j.cmd with tag := 0, ins := .cht 0 0, at_ := s.ccyc c, descs := [],
                 vals := [BitVec.ofNat 64 (chain + 32 * entries.length), BitVec.ofNat 64 chain] }
  .ok ⟨s.onCore c (fun k => k.setEngQueue 0 (k.engQueue 0 ++ [item])), f, none⟩

/-- The walker commands in the order of their fn (R363). -/
def walkerFn (i : Instr) : Nat :=
  match i with
  | .kvres .. => 0 | .kvapp .. => 1 | .kvret .. => 2 | .kvfork .. => 3 | .kvsel .. => 4 | _ => 5

/-- The walker block's checks (R372): fields a command does not use are zero, counts and indices in range. -/
def walkerBad (fn : Nat) (b : Rec512) (x : KCtx) : Bool :=
  let uses (l : List Nat) : Bool := l.contains fn
  let zero (ok : List Nat) (v : Nat) : Bool := !uses ok && v != 0
  let cnt := bits b 255 224
  bits b 161 128 != 0 || bits b 95 64 != 0
    || zero [2, 3, 4] (bits b 447 384) || zero [0, 3, 5] (bits b 383 320) || zero [0, 1, 4, 5] (bits b 319 288)
    || zero [5] (bits b 287 256) || zero [0, 1, 5] cnt || zero [4] (bits b 223 192) || zero [4] (bits b 191 176)
    || zero [0, 2] (bits b 175 168) || zero [2] (bits b 167 166) || zero [5] (bits b 165 162) || zero [4] (bits b 127 96)
    || (fn == 0 && (cnt == 0 || decide (65536 < cnt))) || (fn == 1 && (cnt == 0 || decide (64 < cnt)))
    || (fn == 5 && (cnt == 0 || decide (4096 < cnt) || bits b 383 320 % 65536 != 0))
    || (fn == 4 && decide (x.nlayer ≤ bits b 191 176))

/-- The core-store ranges of a walker command beyond its block: address, bytes, alignment and whether they are written; a kvsel
writes at most an entry for each selected lane, and a kvgat a chain entry for each far page of its list, or one (R373, R375). -/
def walkerRanges (fn : Nat) (b : Rec512) (k : Core) : List (Nat × Nat × Nat × Bool) :=
  let l := bits b 319 288
  let n := bits b 255 224
  match fn with
  | 0 => [(l, 4 * n, 64, false)]
  | 1 => [(l, 128 * n, 64, true)]
  | 4 => [(l, 16 * (k.selected b).length, 64, true), (bits b 127 96, 1024, 64, false)]
  | 5 => [(l, 16 * n, 64, true), (bits b 287 256, 32 * max 1 (k.farPages l n).length, 32, true)]
  | _ => []

/-- The ranges of a walker command that it reads: its block and its list or selection row (R372). -/
def walkerReads (fn a : Nat) (rs : List (Nat × Nat × Nat × Bool)) : List (Nat × Nat) :=
  let l := rs.map (fun r => (r.1, r.2.1))
  (a, 64) :: (match fn with
    | 4 => l.drop 1
    | 5 => l.take 1
    | _ => l)

/-- A walker or decode command names a block in the core's store, 64-byte aligned (R364, R372, R377). -/
def blockCmd (i : Instr) (e : Nat) (sv : BitVec 5) : State → Out :=
  issueEngine i e [sv]
    (fun _ _ v => match blockFault (v.x 0) 64 64 with | some f => .error f | none => .ok ([v.x 0], []))

/-- kvres (R373). -/
def execKvres (g : BitVec 4) (sv : BitVec 5) : State → Out := blockCmd (.kvres g sv) 5 sv
/-- kvapp (R373). -/
def execKvapp (g : BitVec 4) (sv : BitVec 5) : State → Out := blockCmd (.kvapp g sv) 5 sv
/-- kvret (R373). -/
def execKvret (g : BitVec 4) (sv : BitVec 5) : State → Out := blockCmd (.kvret g sv) 5 sv
/-- kvfork (R373). -/
def execKvfork (g : BitVec 4) (sv : BitVec 5) : State → Out := blockCmd (.kvfork g sv) 5 sv
/-- kvsel (R373). -/
def execKvsel (g : BitVec 4) (sv : BitVec 5) : State → Out := blockCmd (.kvsel g sv) 5 sv
/-- kvgat (R373). -/
def execKvgat (g : BitVec 4) (sv : BitVec 5) : State → Out := blockCmd (.kvgat g sv) 5 sv

/-- A fault on a job of engine e: it is faulted, and the core's later commands are held (R252). -/
def State.jobFault (s : State) (c e : Nat) (j : Job) (f : FaultInfo) : State :=
  (s.onCore c (·.putJob { j with st := .faulted })).engFault c e j.cmd (some j.id) f

/-- Ends a job of engine e: its completion number is written (R110). -/
def State.endJob (s : State) (c e : Nat) (j : Job) : State :=
  ((s.completeCmd c e j.cmd).onCore c (·.dropJob j)).onCore c
    (fun k => { k with engFree := tabPut e (s.ccyc c + 1) k.engFree })

/-- The next command in the queue of engine e that the engine may take in cycle now: none of the core's is in progress. -/
def Core.nextItem (k : Core) (e now : Nat) : Option Cmd :=
  if !(k.jobsOf e).isEmpty || k.engHold.contains e || decide (now < tabGet 0 e k.engFree) then none
  else
    match k.engQueue e with
    | [] => none
    | cmd :: _ => if cmd.at_ < now then some cmd else none

/-- Takes the head of a core's queue of engine e as a job. -/
def State.takeItem (s : State) (c e : Nat) (cmd : Cmd) (entry : Rec512) : State × Job :=
  let k := s.core c
  let j : Job :=
    { id := k.jobId c, eng := e, cmd := cmd, st := .running, entry := entry, start := s.ccyc c, release := 0,
      released := false, done := 0, aux := [] }
  (s.onCore c (fun k =>
    { k.setEngQueue e (k.engQueue e).tail with jobs := k.jobs ++ [j], nextJob := k.nextJob + 1 }), j)

/-- The world of a cluster's KV walker (R79). -/
def State.walkerEnv (s : State) (c : Nat) (x : KCtx) : KEnv :=
  { die := dieOf c, sec := s.rom.secureUnit (dieOf c) (400 + clusterOf c % 8), ctx := x }

/-- The context record a block names (R206). -/
def State.kRecord (s : State) (g : Nat) (sec : Bool) (va : Nat) : Except FaultInfo Rec512 :=
  match s.readDome g sec va 64 with
  | .error f => .error { code := f.1, cause := f.2, va := va, acc := 1 }
  | .ok l => .ok (BitVec.ofNat 512 (natOfBytes l))

/-- The context that a block names, with its checks (R206). -/
def State.kContext (s : State) (g : Nat) (sec : Bool) (va : Nat) : Except FaultInfo KCtx :=
  match s.kRecord g sec va with
  | .error f => .error f
  | .ok v => if (kctxOf v).bad v (s.die g) then .error { code := .descriptor } else .ok (kctxOf v)

/-- The context that a job began with (R364, R372, R377). -/
def Job.kctx (j : Job) : KCtx := kctxOf (j.descs.headD 0)

/-- The Dome addresses that a walker item reads as it starts: its context record, and the slots of a kvapp (R206, R218). -/
def State.walkerStartVas (s : State) (c : Nat) (cmd : Cmd) : List Nat :=
  let k := s.core c
  let b : Rec512 := BitVec.ofNat 512 (readNat k.store (cmd.vals.getD 0 0).toNat 64)
  bits b 511 448 :: (if walkerFn cmd.ins = 1 then
      (List.range (min 64 (bits b 255 224))).map (fun i => readNat k.store (bits b 319 288 + 128 * i + 8) 8) else [])

/-- The walker item of a core that starts now: what it reads from other owners is not held (R170). -/
def State.walkerNext (s : State) (c : Nat) : Option Cmd :=
  ((s.core c).nextItem 5 (s.ccyc c)).filter (fun cmd => s.vasClear (dieOf c) (s.walkerStartVas c cmd))

/-- A walker item starts: its block is read and checked, and its footprints stand until the job is done (R209, R372,
R376); a full checker freezes the cluster with the item at the head (R114, R128). -/
def State.walkerStart (t : State) (c : Nat) (cmd : Cmd) : State :=
  let a := (cmd.vals.getD 0 0).toNat
  let b : Rec512 := BitVec.ofNat 512 (readNat (t.core c).store a 64)
  let r := t.takeItem c 5 cmd b
  let s := r.1
  let j := r.2
  let g := dieOf c
  let sec := s.rom.secureUnit g (400 + clusterOf c % 8)
  let fn := walkerFn cmd.ins
  if sec && !s.rom.secureCore c then s.jobFault c 5 j { code := .security }
  else if !(s.die g).kvEn then s.jobFault c 5 j { code := .engine }
  else
    match s.eccBytes c [(a, 64)] with
    | some e => s.jobFault c 5 j { code := .eccUncorrectable, cause := e }
    | none =>
    match s.kRecord g sec (bits b 511 448) with
    | .error f => s.jobFault c 5 j f
    | .ok v =>
      let x := kctxOf v
      let rs := walkerRanges fn b (s.core c)
      if x.bad v (s.die g) || walkerBad fn b x then s.jobFault c 5 j { code := .descriptor }
      else if rs.any (fun r => decide (2 ^ 21 < r.1 + r.2.1)) then s.jobFault c 5 j { code := .addr }
      else if rs.any (fun r => r.1 % r.2.2.1 != 0) then s.jobFault c 5 j { code := .align }
      else
        let iss := Issuer.walker (clusterOf c)
        let fps : List (Nat × Range) :=
          (c, bytesAt a 64 true) :: (rs.filter (fun r => r.2.1 != 0)).map (fun r => (c, bytesAt r.1 r.2.1 r.2.2.2))
        match s.fullChecker (s.ccyc c) fps with
        | some o => t.freezeFull c 5 o
        | none =>
        let chk := s.checkAll iss fps
        if !chk.2 then chk.1.jobFault c 5 j { code := .footprint }
        else
          match s.eccBytes c (walkerReads fn a rs) with
          | some e => s.jobFault c 5 j { code := .eccUncorrectable, cause := e }
          | none =>
            match (if fn = 1 then s.kvSpans ⟨g, sec, x⟩ c b else .ok []) with
            | .error (.fault f) => s.jobFault c 5 j f
            | .error (.status _) => s
            | .ok spans =>
              ((s.engineDid g (s.walkerStartVas c cmd) []).onCore c (·.putJob { j with vals := spans, descs := [v] })).addAll
                iss j.id fps (s.ccyc c) none

/-- The walker job a core has in progress. -/
def Core.walkerRunning (k : Core) : Option Job := (k.jobsOf 5).find? (fun j => j.st = .running)

/-- Whether a walker job of the cluster that names the same context reached the die's free-list unit before that of core c: it
started earlier, or in the same cycle on a lower core (R214). -/
def State.walkerBehind (s : State) (c : Nat) (j : Job) : Bool :=
  (List.range 8).any (fun i =>
    let p := clusterOf c * 8 + i
    match (s.core p).walkerRunning with
    | none => false
    | some x => p != c && bits x.entry 511 448 == bits j.entry 511 448
        && (decide (x.start < j.start) || (x.start == j.start && decide (p < c))))

/-- The Dome addresses a walker job names: tree, summaries, sequence, area and stacks. -/
def State.walkerVas (s : State) (c : Nat) (j : Job) : List Nat :=
  let b := j.entry
  let reg (r : Nat) : Nat := (tabGet (0 : Word) r (s.die (dieOf c)).win).toNat
  [bits b 447 384, bits b 383 320, reg 0x0900, reg 0x0910, j.kctx.root, j.kctx.sumBase]

/-- Whether the free-list unit may perform a core's walker job: the unit is enabled and takes jobs (R209), in the order they
reached it (R214), none of its own die's accesses to their owners is held (R170), and a kvgat has room in the copy queue
(R375). -/
def State.walkerReady (s : State) (c : Nat) : Bool :=
  match (s.core c).walkerRunning with
  | none => false
  | some j =>
    (s.die (dieOf c)).kvEn && !s.walkerBehind c j && s.vasClear (dieOf c) (s.walkerVas c j)
      && (walkerFn j.cmd.ins != 5 || (s.core c).engRoom 0)

/-- What a walker command of core c does, in the world e, to the state, and its result (R214, R373). -/
def State.walkerDo (s : State) (e : KEnv) (c : Nat) (j : Job) : KRes KDone :=
  match walkerFn j.cmd.ins with
  | 0 => s.kvRes e c j.entry
  | 1 => s.kvApp e c j.entry j.vals
  | 2 => s.kvRet e j.entry
  | 3 => s.kvFork e j.entry
  | 4 => s.kvSel e c j.entry
  | _ => s.kvGat e c j j.entry

/-- WALKER_JOB: the free-list unit performs a core's walker command as a whole, writes RESULT and STATUS, and the completion
number (R214, R372, R373). -/
def execWalkerJob (c : Nat) (s : State) : Out :=
  if s.frozen (clusterOf c) then .fault .notEnabled else
  let k := s.core c
  if !s.walkerReady c then .fault .notEnabled
  else
    match k.walkerRunning with
    | none => .fault .notEnabled
    | some j =>
      let b := j.entry
      let a := (j.cmd.vals.getD 0 0).toNat
      let vas := s.walkerVas c j
      let s := (s.touchVas (dieOf c) vas).engineDid (dieOf c) vas []
      let drop (t : State) : State := t.dropAll (clusterOf c) (.walker (clusterOf c)) j.id
      let finish (t : State) (st res : Nat) (area : Option Nat) : State :=
        let v := setBits (setBits b 63 0 (res % 2 ^ 32 * 2 ^ 32 + st)) 383 320 (area.getD (bits b 383 320))
        (drop (t.onCore c (·.putNat a 64 v.toNat))).endJob c 5 j
      match s.walkerDo (s.walkerEnv c j.kctx) c j with
      | .ok d => .next (finish d.s 0 d.result d.area)
      | .error (.status n) => .next (finish s n 0 none)
      | .error (.fault f) => .next ((drop s).jobFault c 5 j f)

end Sys2Proof.Machine
end

