-- ==== Sys2Proof/Machine/Attn.lean ====
section
/-! DEFINITION. The decode engine: rotation, scores, page bounds, attention sums and their merge (R217, R219 to R228, R230,
R377 to R379). -/

namespace Sys2Proof.Machine

/-- Fixed-point fraction bits of the sine and cosine. -/
def trigP : Nat := 600
/-- floor(2 π × 2^600). -/
def trigTau : Nat := 26072175254305998270457586298651767412822903721283034119025385178698713854569912464245971894249736648520746658252008459940502276531683872291549502603252724803009373274703743273820695

/-- Terms of the sine or cosine series: alternating, y2 the square of the argument in fixed point. -/
def trigTerms (y2 : Nat) : Nat → Nat → Int → Int → Int
  | 0, _, _, sum => sum
  | n + 1, k, t, sum =>
    let t' : Int := -(t * y2 / 2 ^ trigP / (k * (k + 1) : Nat))
    trigTerms y2 n (k + 2) t' (sum + t')

/-- sin or cos of a fixed-point argument below π/2 in magnitude. -/
def trigSmall (isSin : Bool) (y : Int) : Int :=
  let y2 := (y * y / 2 ^ trigP).toNat
  if isSin then trigTerms y2 80 2 y y else trigTerms y2 80 1 (2 ^ trigP) (2 ^ trigP)

/-- sin or cos of a finite FP32 value, correctly rounded into FP32, or none where the interval does not decide it (R220,
R201). -/
def trigOf (isSin neg : Bool) (m : Nat) (e : Int) : Option Nat :=
  if m = 0 then (if isSin then some (fp32.sign neg) else fp32.round? .rne false (.fin false 1 0))
  else
    let x := if 0 ≤ e + trigP then m * 2 ^ (e + trigP).toNat else m / 2 ^ (-(e + trigP)).toNat
    let r := x % trigTau
    let q := (4 * r + trigTau / 2) / trigTau
    let y : Int := (r : Int) - (q * trigTau / 4 : Nat)
    let swap := q % 2 == 1
    let v := trigSmall (isSin != swap) y
    let v := if isSin then (if q % 4 ≥ 2 then -v else v) else (if q % 4 = 1 ∨ q % 4 = 2 then -v else v)
    let v := if isSin && neg then -v else v
    let err := 2 ^ 150
    roundBetween fp32 (decide (v < 0)) (v.natAbs - err) (v.natAbs + err) (-trigP)

/-- sin or cos of an FP32 code: NaN and infinities give the canonical NaN (R220). -/
def trig (isSin : Bool) (c : Nat) : Nat :=
  match fp32.decode c with
  | .fin neg m e => (trigOf isSin neg m e).getD ((Config.freeBits (2 ^ 60 + 2 * c + (if isSin then 1 else 0))).toNat % 2 ^ 32)
  | _ => fp32.nan

/-- FP32 of a position (R220). -/
def posCode (p : Nat) : Nat := fp32.round .rne (.ofInt p 0 false)

/-- A head vector rotated at an effective position (R220): freq holds HD/2 FP32 codes. -/
def rotate (x : KCtx) (freq : List Nat) (pe : Nat) (v : List FVal) : List Nat :=
  let h := x.hd / 2
  let ang := freq.map (fun f => let th := (fp32.mulR .rne (posCode pe) f).1; (fp32.decode (trig false th), fp32.decode (trig true th)))
  let comb (a b c d : FVal) : Nat :=
    fp32.round .rne (FVal.add .rne (FVal.mul a b).1 (FVal.mul c d).1).1
  (List.range x.hd).map (fun i =>
    let p := if x.rot = 0 then i / 2 else i % h
    let second := if x.rot = 0 then i % 2 = 1 else h ≤ i
    let a := v.getD (if x.rot = 0 then 2 * p else p) .nan
    let b := v.getD (if x.rot = 0 then 2 * p + 1 else p + h) .nan
    let cs := (ang.getD p (.nan, .nan)).1
    let sn := (ang.getD p (.nan, .nan)).2
    if second then comb a sn b cs else comb a cs b.neg sn)

/-- The exact dot product of two FP32 vectors, rounded per block of 128 terms (R221). -/
def dotBlocks (q k : List Nat) : Nat :=
  let part (n : Nat) : Nat :=
    let l := (List.zip ((q.drop (128 * n)).take 128) ((k.drop (128 * n)).take 128)).map
      (fun p => (fp32.decode p.1, fp32.decode p.2))
    fp32.round .rne (exactSum (l.map (fun p => FVal.mul p.1 p.2)) false).1
  if q.length ≤ 128 then part 0 else (fp32.addR .rne (part 0) (part 1)).1

/-- A score (R221). -/
def scoreOf (cs : Nat) (q k : List Nat) : Nat := (fp32.mulR .rne (dotBlocks q k) cs).1

/-- Whether an FP32 code is a NaN. -/
def isNanC (c : Nat) : Bool := fp32.decode c = .nan
/-- FP32 +∞ and −∞. -/
def posInf : Nat := 0x7F800000
/-- FP32 −∞. -/
def negInf : Nat := 0xFF800000

/-- The running sums of R226: m, l, o, nan, inf. -/
structure AttSum where
  m : Nat
  l : Nat
  o : List Nat
  nan : Bool
  inf : Bool
deriving DecidableEq, Repr

/-- The sums before the first page. -/
def AttSum.init (hd : Nat) : AttSum := { m := negInf, l := 0, o := List.replicate hd 0, nan := false, inf := false }

/-- c + a × v rounded once. -/
def fmaV (a : Nat) (v : FVal) (c : Nat) : Nat :=
  fp32.round .rne (FVal.add .rne (FVal.mul (fp32.decode a) v).1 (fp32.decode c)).1

/-- Exp2RNE. -/
def exp2C (c : Nat) : Nat := (special fp32 .exp2 c).1

/-- One page: its slots in J with score and value vector (R226). -/
def AttSum.page (x : AttSum) (js : List (Nat × List FVal)) : AttSum :=
  let nan := x.nan || js.any (fun j => isNanC j.1)
  let hot := js.any (fun j => j.1 == posInf)
  let x := if !x.inf && hot then { x with inf := true, l := 0, o := x.o.map (fun _ => 0) } else x
  let x := { x with nan := nan }
  if x.inf then
    (js.filter (fun j => j.1 == posInf)).foldl
      (fun x j =>
        { x with l := (fp32.addR .rne x.l 0x3F800000).1,
                 o := (List.zip x.o j.2).map (fun p => fmaV 0x3F800000 p.2 p.1) }) x
  else
    let mnew := (js.filter (fun j => !isNanC j.1)).foldl (fun a j => fp32.minmax true a j.1) x.m
    if mnew = negInf then x
    else
      let a := exp2C (fp32.subR .rne x.m mnew).1
      let x := { x with l := (fp32.mulR .rne x.l a).1, o := x.o.map (fun c => (fp32.mulR .rne c a).1) }
      let x := js.foldl
        (fun x j =>
          let w := exp2C (fp32.subR .rne j.1 mnew).1
          { x with l := (fp32.addR .rne x.l w).1, o := (List.zip x.o j.2).map (fun p => fmaV w p.2 p.1) }) x
      { x with m := mnew }

/-- o / l rounded once (R226). -/
def divC (a b : Nat) : Nat :=
  match fp32.decode a, fp32.decode b with
  | .nan, _ => fp32.nan
  | _, .nan => fp32.nan
  | .inf s, .fin t _ _ => fp32.infCode (s != t)
  | .inf _, .inf _ => fp32.nan
  | .fin s _ _, .inf t => fp32.sign (s != t)
  | .fin s m e, .fin t n f =>
    if n = 0 then (if m = 0 then fp32.nan else fp32.infCode (s != t))
    else
      let k := n.log2 + 64
      (fp32.round? .rne (m * 2 ^ k % n != 0) (.fin (s != t) (m * 2 ^ k / n) (e - f - k))).getD fp32.nan

/-- The end of R226: o, m, l and FLAGS; the flags are sticky, so NANS does not take INF away (R227). -/
def AttSum.finish (x : AttSum) (norm : Bool) : List Nat :=
  if x.nan then x.o.map (fun _ => fp32.nan) ++ [fp32.nan, fp32.nan, 1 + (if x.inf then 4 else 0), 0]
  else if x.l % 2 ^ 31 = 0 then x.o.map (fun _ => 0) ++ [negInf, 0, 2, 0]
  else
    (if norm then x.o.map (fun c => divC c x.l) else x.o)
      ++ [if x.inf then posInf else x.m, x.l, (if x.inf then 4 else 0) + (if norm then 8 else 0), 0]

/-- A decode block (R377). -/
structure DBlk where
  ctx : Nat
  list : Nat
  count : Nat
  qaddr : Nat
  out : Nat
  qp : Nat
  qepos : Nat
  hq : Nat
  kvh : Nat
  norm : Bool
  cs : Nat
deriving DecidableEq, Repr

/-- The fields of a decode block. -/
def dblkOf (b : Rec512) : DBlk :=
  { ctx := bits b 511 448, list := bits b 447 416, count := bits b 415 384, qaddr := bits b 383 352, out := bits b 351 320,
    qp := bits b 319 288, qepos := bits b 287 264, hq := bits b 263 256, kvh := bits b 255 250, norm := b.getLsbD 249,
    cs := bits b 223 192 }

/-- The kinds of decode commands: 0 dattn, 1 dattn.rot, 2 dbnd, 3 dsum. -/
def decodeFn (i : Instr) : Nat :=
  match i with
  | .dattn .. => 0
  | .dattnRot .. => 1
  | .dbnd .. => 2
  | _ => 3

/-- A page list entry (R224). -/
structure PEnt where
  loc : Nat
  v : Bool
  sumix : Nat
  lpos : Nat
  epos : Nat
  nval : Nat
deriving DecidableEq, Repr

/-- The page list of a command. -/
def Core.pents (k : Core) (a n : Nat) : List PEnt :=
  (k.pageList a n).map (fun x =>
    { loc := x.2.1 / 2 ^ 16 * 2 ^ 16, v := decide (x.2.1 / 2 ^ 15 % 2 = 1), sumix := x.2.1 % 2 ^ 15,
      lpos := x.2.2 / 2 ^ 32, epos := x.2.2 / 2 ^ 8 % 2 ^ 24, nval := x.2.2 % 2 ^ 7 })

/-- Whether an LPOS list ascends. -/
def ascending : List Nat → Bool
  | a :: b :: r => decide (a < b) && ascending (b :: r)
  | _ => true

/-- The bytes of a result (R227). -/
def KCtx.resBytes (x : KCtx) : Nat := 4 * x.hd + 16

/-- The core-store ranges of a decode command: address, bytes, alignment and whether they are written; slots: the keys that a
dattn.rot writes; parts: the addresses that a dsum's list holds. -/
def decodeRanges (fn : Nat) (d : DBlk) (x : KCtx) (slots : Nat) (parts : List Nat) : List (Nat × Nat × Nat × Bool) :=
  match fn with
  | 0 => [(d.list, 16 * d.count, 1, false), (d.qaddr, 4 * x.hd * d.hq, 1, false), (d.out, x.resBytes * d.hq, 64, true)]
  | 1 => [(d.list, 16 * d.count, 1, false), (d.qaddr, 4 * x.hd * d.hq, 1, false), (d.out, 4 * x.hd * (slots + d.hq), 64, true)]
  | 2 => [(d.list, 16 * d.count, 1, false), (d.qaddr, 4 * x.hd, 1, false), (d.out, 1024, 64, true)]
  | _ => [(d.list, 4 * d.count, 1, false), (d.out, x.resBytes * d.hq, 64, true)]
      ++ parts.map (fun a => (a, x.resBytes * d.hq, 1, false))

/-- The checks of a decode block and its list (R207, R219, R226, R377, R378). -/
def decodeBad (fn : Nat) (b : Rec512) (d : DBlk) (x : KCtx) (l : List PEnt) : Bool :=
  bits b 248 224 != 0 || bits b 191 0 != 0 || (fn != 1 && (d.hq == 0 || decide (16 < d.hq))) || decide (x.hkv ≤ d.kvh)
    || (match fn with
        | 0 | 1 => decide (4096 < d.count)
        | 2 => d.count == 0 || decide (256 < d.count)
        | _ => d.count == 0 || decide (64 < d.count))
    || (fn != 2 && l.any (fun e => decide (e.loc / 2 ^ 62 = 1)))
    || (decide (fn < 2) && l.any (fun e => e.nval == 0 || decide (64 < e.nval)))
    || (fn == 0 && !ascending (l.map (·.lpos)))

/-- The world of a cluster's decode engine (R79). -/
def State.decodeEnv (s : State) (c : Nat) (x : KCtx) : KEnv :=
  { die := dieOf c, sec := s.rom.secureUnit (dieOf c) (392 + clusterOf c % 8), ctx := x }

/-- The Dome ranges a decode command reads: its pages with the FREQ table, or its summaries (R219, R220, R222). -/
def decodeReads (fn : Nat) (x : KCtx) (l : List PEnt) : List (Nat × Nat × Bool) :=
  match fn with
  | 0 | 1 => (x.freq, x.freq + 2 * x.hd - 1, false) :: l.map (fun e => (e.loc, e.loc + x.pageBytes - 1, false))
  | 2 => (l.filter (·.v)).map (fun e =>
      let n := x.hkv * x.hd * 4
      (x.sumBase + e.sumix * n, x.sumBase + e.sumix * n + n - 1, false))
  | _ => []

/-- The fault that reading a command's pages raises: translation, or a leaf whose CMP does not match PACK (R207). -/
def State.decodeReadBad (s : State) (e : KEnv) (fn : Nat) (l : List (Nat × Nat × Bool)) : Option FaultInfo :=
  l.zipIdx.findSome? (fun ri =>
    let r := ri.1
    ([r.1, r.2.1] ++ (List.range ((r.2.1 - r.1) / 65536)).map (fun i => r.1 + 65536 * (i + 1))).findSome? (fun a =>
      match s.locateDome e.die e.sec true false a with
      | .error f => some { code := f.1, cause := f.2, va := a, acc := 1 }
      | .ok q => if decide (fn < 2) && decide (0 < ri.2) && (lCmp q.2 == 2) != e.ctx.pack then some { code := .descriptor } else none))

/-- dattn (R378). -/
def execDattn (g : BitVec 4) (sv : BitVec 5) : State → Out := blockCmd (.dattn g sv) 4 sv
/-- dattn.rot (R378). -/
def execDattnRot (g : BitVec 4) (sv : BitVec 5) : State → Out := blockCmd (.dattnRot g sv) 4 sv
/-- dbnd (R378). -/
def execDbnd (g : BitVec 4) (sv : BitVec 5) : State → Out := blockCmd (.dbnd g sv) 4 sv
/-- dsum (R378). -/
def execDsum (g : BitVec 4) (sv : BitVec 5) : State → Out := blockCmd (.dsum g sv) 4 sv

/-- The decode job in progress in a cluster. -/
def State.decodeRunning (s : State) (cl : Nat) : Option (Nat × Job) :=
  (List.range 8).findSome? (fun i =>
    ((s.core (cl * 8 + i)).jobsOf 4).findSome? (fun j => if j.st == .running then some (cl * 8 + i, j) else none))

/-- The decode item that starts next in a cluster: of the lowest core that has one waiting (R379). -/
def State.decodeNext (s : State) (cl : Nat) : Option (Nat × Cmd) :=
  let now := (s.cluster cl).ccyc
  if (s.decodeRunning cl).isSome || decide (now < (s.cluster cl).decodeFree) then none
  else (List.range 8).findSome? (fun i => ((s.core (cl * 8 + i)).nextItem 4 now).map (fun x => (cl * 8 + i, x)))

/-- The rows of a Dome that a decode command reads on the decode port: of each entry the keys of its head, with their values for
dattn, in rows of 1 KiB; of a dbnd one row an entry, its minima and maxima (R207, R219, R222, R379). -/
def decodeRows (fn : Nat) (d : DBlk) (x : KCtx) (l : List PEnt) : List (List Nat) :=
  let head (e : PEnt) (off n : Nat) : List Nat := (List.range n).map (fun i => e.loc + off + d.kvh * 64 * x.hd * x.eb + i)
  let keys (e : PEnt) : List Nat := head e 0 (e.nval * x.hd * x.eb)
  match fn with
  | 0 => l.flatMap (fun e => let b := keys e ++ head e x.kb (e.nval * x.hd * x.eb); kib 1024 b.length b)
  | 1 => l.flatMap (fun e => let b := keys e; kib 1024 b.length b)
  | 2 => l.map (fun e =>
      if e.v then (List.range (4 * x.hd)).map (fun i => x.sumBase + e.sumix * (x.hkv * x.hd * 4) + d.kvh * x.hd * 4 + i) else [])
  | _ => []

/-- The cycles that a row of a decode command takes on the decode port: f for dattn (R379). -/
def decodePace (fn : Nat) (d : DBlk) (x : KCtx) : Nat := if fn = 0 then ceilDiv d.hq (if x.eb = 2 then 16 else 8) else 1

/-- The bank accesses of a decode job to ranges of core c's store, one 1 KiB window a cycle from cycle t on; the spec states no
cycles for them (R115; log 9). -/
def decodeUses (c t : Nat) (rs : List (Nat × Nat)) : List Use :=
  (rs.flatMap (fun r => (List.range (if r.2 = 0 then 0 else (r.1 + r.2 - 1) / 1024 + 1 - r.1 / 1024)).map (fun i => r.1 / 1024 + i))).zipIdx.map
    (fun w => { at_ := t + w.2, key := c * 32 + w.1 / 128, prio := usePrio 4 c })

/-- DECODE_ITEM_START: the item is read and checked; its footprints and card stand until it completes (R126 to R129, R377,
R379). A full checker freezes the cluster, a full card table makes the item wait. -/
def execDecodeItemStart (cl : Nat) (s₀ : State) : Out :=
  if s₀.frozen cl then .fault .notEnabled else
  match s₀.decodeNext cl with
  | none => .fault .notEnabled
  | some (c, cmd) =>
    let k := s₀.core c
    let now := s₀.ccyc c
    let a := (cmd.vals.getD 0 0).toNat
    let b : Rec512 := BitVec.ofNat 512 (readNat k.store a 64)
    let d := dblkOf b
    let fn := decodeFn cmd.ins
    let r := s₀.takeItem c 4 cmd b
    let s := r.1
    let j := r.2
    let g := dieOf c
    let sec := s.rom.secureUnit g (392 + cl % 8)
    if !s.vasClear g [d.ctx] then .fault .notEnabled
    else if sec && !s.rom.secureCore c then .next (s.jobFault c 4 j { code := .security })
    else
      match s.eccBytes c [(a, 64)] with
      | some e => .next (s.jobFault c 4 j { code := .eccUncorrectable, cause := e })
      | none =>
      match s.kContext g sec d.ctx with
      | .error f => .next (s.jobFault c 4 j f)
      | .ok x =>
        let l := if fn = 3 then [] else k.pents d.list (min d.count 4096)
        let parts := if fn = 3 then k.nat32s d.list (min d.count 64) else []
        let rs := decodeRanges fn d x (l.foldl (fun a e => a + e.nval) 0) parts
        if decodeBad fn b d x l then .next (s.jobFault c 4 j { code := .descriptor })
        else if rs.any (fun r => decide (2 ^ 21 < r.1 + r.2.1)) then .next (s.jobFault c 4 j { code := .addr })
        else if rs.any (fun r => r.1 % r.2.2.1 != 0) then .next (s.jobFault c 4 j { code := .align })
        else
          let reads := decodeReads fn x l
          match s.decodeReadBad (s.decodeEnv c x) fn reads with
          | some f => .next (s.jobFault c 4 j f)
          | none =>
            let iss := Issuer.decode cl
            let fps : List (Nat × Range) :=
              (rs.filter (fun r => r.2.1 != 0)).map (fun r => (c, bytesAt r.1 r.2.1 r.2.2.2))
            match s.fullChecker now fps with
            | some o => .next (s₀.freezeFull c 4 o)
            | none =>
              if !reads.isEmpty && !(s.die g).cardRoom then .fault .notEnabled
              else
                let chk := s.checkAll iss fps
                let crd := chk.1.checkCards g iss reads
                let ins := (rs.filter (fun r => !r.2.2.2)).map (fun r => (r.1, r.2.1))
                if !chk.2 || !crd.2 then .next (crd.1.jobFault c 4 j { code := .footprint })
                else
                  match s.eccBytes c ins with
                  | some e => .next (s.jobFault c 4 j { code := .eccUncorrectable, cause := e })
                  | none =>
                    let span := (decodeRows fn d x l).length * decodePace fn d x
                    let done := match fn with
                      | 0 => now + 64 + span + 16 * d.hq + 24
                      | 2 => now + 64 + span + 24
                      | _ => now + 1
                    let raw := match s.kRecord g sec d.ctx with | .ok v => v | .error _ => 0
                    let s := (s.addAll iss j.id fps now none).onDie g (·.addCards iss j.id reads)
                    let s := s.addUses cl (decodeUses c now ((a, 64) :: ins))
                    let s := (s.touchVas g ((List.range 64).map (d.ctx + ·))).engineDid g [d.ctx] []
                    let timed := fn == 0 || fn == 2
                    .next (s.onCore c (·.putJob
                      { j with done := done, release := if timed then now + 64 else now, released := !timed, descs := [raw] }))

/-- Reads n little-endian words of w bytes at a VA. -/
def State.kWords (s : State) (e : KEnv) (va w n : Nat) : KRes (List Nat) :=
  match s.readDome e.die e.sec va (w * n) with
  | .ok l => .ok ((kib w (w * n) l).map natOfBytes)
  | .error f => .error (.fault { code := f.1, cause := f.2, va := va, acc := 1 })

/-- A head's key or value vector at a slot of a page, exact (R207). -/
def State.kVector (s : State) (e : KEnv) (page h j : Nat) (value : Bool) : KRes (List FVal) := do
  let x := e.ctx
  let l ← s.kWords e (page + (if value then x.kb else 0) + (h * 64 + j) * x.hd * x.eb) x.eb x.hd
  let v := l.map (fpValue x.kfmt)
  if x.pack then
    let c ← s.kRead e (page + 2 * x.kb + (if value then x.hkv * 128 else 0) + (h * 64 + j) * 2) 2
    .ok (v.map (fun y => (FVal.mul y (bf16.decode c)).1))
  else .ok v

/-- FP32 vector r of the query rows. -/
def Core.queryRow (k : Core) (a hd r : Nat) : List Nat := k.nat32s (a + 4 * hd * r) hd

/-- The rotated keys and the values of a page list for one head, per page: the slot, its key and its value (R226). -/
def State.kPages (s : State) (e : KEnv) (d : DBlk) (freq : List Nat) (l : List PEnt) :
    KRes (List (PEnt × List (Nat × List Nat × List FVal))) :=
  kFold (fun (acc : List (PEnt × List (Nat × List Nat × List FVal))) (p : PEnt) => do
    let rows ← kFold (fun (r : List (Nat × List Nat × List FVal)) (j : Nat) => do
      let kv ← s.kVector e p.loc d.kvh j false
      let vv ← s.kVector e p.loc d.kvh j true
      .ok (r ++ [(j, rotate e.ctx freq (p.epos + j) kv, vv)])) (List.range p.nval) []
    .ok (acc ++ [(p, rows)])) l []

/-- dattn: the HQ results (R226, R227). -/
def attend (x : KCtx) (d : DBlk) (freq : List Nat) (queries : List (List Nat))
    (pages : List (PEnt × List (Nat × List Nat × List FVal))) : List Nat :=
  queries.flatMap (fun q =>
    let q := rotate x freq d.qepos (q.map fp32.decode)
    (pages.foldl (fun (a : AttSum) p =>
      a.page ((p.2.filter (fun r => decide (p.1.lpos + r.1 ≤ d.qp))).map (fun r => (scoreOf d.cs q r.2.1, r.2.2))))
      (AttSum.init x.hd)).finish d.norm)

/-- The bound of one entry's page (R223). -/
def boundOf (q mn mx : List FVal) : Nat :=
  if (q ++ mn ++ mx).any (· = .nan) then fp32.nan
  else if (List.zip mn mx).any (fun p => p.2.lt p.1) then negInf
  else
    let t := (List.zip q (List.zip mn mx)).map (fun p =>
      let a := FVal.mul p.1 p.2.1
      let b := FVal.mul p.1 p.2.2
      if a.1 = .nan || b.1 = .nan then (FVal.nan, true) else (if a.1.lt b.1 then b.1 else a.1, false))
    fp32.round .rne (exactSum t false).1

/-- dbnd: 256 lanes (R223, R378). -/
def State.bounds (s : State) (e : KEnv) (d : DBlk) (q : List Nat) (l : List PEnt) : KRes (List Nat) := do
  let x := e.ctx
  let r ← kFold (fun (acc : List Nat) (p : PEnt) => do
    if p.v then
      let a := x.sumBase + p.sumix * (x.hkv * x.hd * 4) + d.kvh * x.hd * 4
      let mn ← s.kWords e a 2 x.hd
      let mx ← s.kWords e (a + 2 * x.hd) 2 x.hd
      .ok (acc ++ [boundOf (q.map fp32.decode) (mn.map bf16.decode) (mx.map bf16.decode)])
    else .ok (acc ++ [negInf])) l []
  .ok (r ++ List.replicate (256 - r.length) negInf)

/-- dsum of the parts of one head, each o, m, l, FLAGS, zero (R228). -/
def mergeParts (hd : Nat) (norm : Bool) (parts : List (List Nat)) : List Nat :=
  let m (p : List Nat) : Nat := p.getD hd 0
  let l (p : List Nat) : Nat := p.getD (hd + 1) 0
  let fl (p : List Nat) (b : Nat) : Bool := (p.getD (hd + 2) 0).testBit b
  let o (p : List Nat) : List Nat := p.take hd
  let add (a b : Nat) : Nat := (fp32.addR .rne a b).1
  let zero := AttSum.init hd
  if parts.any (fl · 0) then ({ zero with nan := true }).finish norm
  else if parts.any (fl · 2) then
    ((parts.filter (fl · 2)).foldl (fun (a : AttSum) p =>
      { a with l := add a.l (l p), o := (List.zip a.o (o p)).map (fun x => add x.1 x.2) }) { zero with inf := true }).finish norm
  else
    let live := parts.filter (fun p => !fl p 1)
    let mm := live.foldl (fun a p => fp32.minmax true a (m p)) negInf
    (live.foldl (fun (a : AttSum) p =>
      let w := exp2C (fp32.subR .rne (m p) mm).1
      { a with l := add a.l (fp32.mulR .rne (l p) w).1,
               o := (List.zip a.o (o p)).map (fun x => add x.1 (fp32.mulR .rne x.2 w).1) }) { zero with m := mm }).finish norm

/-- What a decode command writes at OUT, as 32-bit words (R378). -/
def State.decodeOut (s : State) (c : Nat) (fn : Nat) (d : DBlk) (x : KCtx) : KRes (List Nat) :=
  let k := s.core c
  let e := s.decodeEnv c x
  match fn with
  | 2 => s.bounds e d (k.queryRow d.qaddr x.hd 0) (k.pents d.list d.count)
  | 3 =>
    let parts := k.nat32s d.list d.count
    .ok ((List.range d.hq).flatMap (fun h =>
      mergeParts x.hd d.norm (parts.map (fun a => k.nat32s (a + x.resBytes * h) (x.hd + 4)))))
  | _ => do
    let freq ← s.kWords e x.freq 4 (x.hd / 2)
    let pages ← s.kPages e d freq (k.pents d.list d.count)
    let qs := (List.range d.hq).map (k.queryRow d.qaddr x.hd)
    if fn = 0 then .ok (attend x d freq qs pages)
    else
      .ok ((pages.flatMap (fun p => p.2.flatMap (fun r => r.2.1)))
        ++ qs.zipIdx.flatMap (fun q => rotate x freq (d.qepos + q.2) (q.1.map fp32.decode)))

/-- The rows that a running decode job reads (R379). -/
def State.jobRows (s : State) (c : Nat) (j : Job) : List (List Nat) :=
  let d := dblkOf j.entry
  decodeRows (decodeFn j.cmd.ins) d j.kctx ((s.core c).pents d.list d.count)

/-- A row of a cluster's decode job comes through the decode port, in its cycle or as soon as the requests of older accesses to its
die have gone ahead and its slices have room: a slice that is taken delays the job and never freezes the cluster (R137, R170,
R379). -/
def decodeRow (cl : Nat) (s : State) : Out :=
  if s.frozen cl then .fault .notEnabled else
  match s.decodeRunning cl with
  | none => .fault .notEnabled
  | some (c, j) =>
    let now := s.ccyc c
    if now < j.release then .fault .notEnabled
    else
      match (s.jobRows c j).drop j.base with
      | [] => .fault .notEnabled
      | row :: _ =>
        let g := dieOf c
        let sl := s.sliceBytes g row
        if !s.vasClear g row || !s.slicesRoom sl then .fault .notEnabled
        else
          let late := if j.released then 0 else now - j.release
          .next ((s.touchSlices sl).onCore c (·.putJob
            { j with base := j.base + 1, done := j.done + late,
                     release := now + decodePace (decodeFn j.cmd.ins) (dblkOf j.entry) j.kctx }))

/-- Whether the decode job of a cluster may complete: its rows have been read, its time has come, and the requests of older
accesses to other dies that it reads from have gone ahead (R170, R379). -/
def State.decodeCanEnd (s : State) (c : Nat) (j : Job) (x : KCtx) : Bool :=
  let d := dblkOf j.entry
  decide (j.done ≤ s.ccyc c) && decide ((s.jobRows c j).length ≤ j.base)
    && s.vasClear (dieOf c) (d.ctx :: (decodeReads (decodeFn j.cmd.ins) x ((s.core c).pents d.list d.count)).map (·.1))

/-- Whether the time of the decode job of a cluster is not stated: dattn.rot and dsum (R379). -/
def State.decodeUntimed (s : State) (cl : Nat) : Bool := (s.decodeRunning cl).any (fun e => e.2.released)

/-- The core-store ranges that a running decode job reads: its list, its queries or the parts of a dsum (R378). -/
def State.decodeIns (s : State) (c : Nat) (j : Job) : List (Nat × Nat) :=
  let d := dblkOf j.entry
  let fn := decodeFn j.cmd.ins
  let parts := if fn = 3 then (s.core c).nat32s d.list d.count else []
  ((decodeRanges fn d j.kctx 0 parts).filter (fun r => !r.2.2.2)).map (fun r => (r.1, r.2.1))

/-- DECODE_ITEM_COMPLETE: the results and the completion number are written (R378, R379); dattn.rot and dsum have no stated
time. A word of its list, its queries or its parts that has gone bad since the item started is found now (R21). The bank writes of
the results are taken to begin in this cycle, one window of 1 KiB a cycle (DESIGN CHOICE, log 9). -/
def execDecodeItemComplete (cl : Nat) (s : State) : Out :=
  if s.frozen cl then .fault .notEnabled else
  match s.decodeRunning cl with
  | none => .fault .notEnabled
  | some (c, j) =>
    let x := j.kctx
    if !s.decodeCanEnd c j x then .fault .notEnabled
    else
      let d := dblkOf j.entry
      let g := dieOf c
      let t := (s.dropAll cl (.decode cl) j.id).onDie g (·.dropCards (.decode cl) j.id)
      let t := t.onCluster cl (fun n => { n with decodeFree := n.ccyc + 1 })
      let t := t.engineDid g (d.ctx :: (decodeReads (decodeFn j.cmd.ins) x ((s.core c).pents d.list d.count)).map (·.1)) []
      match s.eccBytes c (s.decodeIns c j), s.decodeOut c (decodeFn j.cmd.ins) d x with
      | some e, _ => .next (t.jobFault c 4 j { code := .eccUncorrectable, cause := e })
      | none, .error (.fault f) => .next (t.jobFault c 4 j f)
      | none, .error (.status _) => .next (t.jobFault c 4 j { code := .engine })
      | none, .ok l =>
        let t := t.onCore c (·.putBytes d.out (l.flatMap (bytesOfNat 4)))
        let t := t.addUses cl (decodeUses c (s.ccyc c) [(d.out, 4 * l.length)])
        .next (t.endJob c 4 j)

end Sys2Proof.Machine
end

