-- ==== Sys2Proof/Machine/Encoder.lean ====
section
/-! DEFINITION. The trellis encoder engine: job records, the two-pass tail-biting search, blocks (R234, R235, R239 to R242,
R384). -/

namespace Sys2Proof.Machine

/-- An encoder job record (R239). -/
structure EJob where
  tgt : Nat
  out : Nat
  scr : Nat
  prec : Nat
  nblk : Nat
  pl : Nat
deriving DecidableEq, Repr

/-- The fields of a job record. -/
def ejobOf (v : Rec512) : EJob :=
  { tgt := bits v 511 448, out := bits v 447 384, scr := bits v 383 320, prec := bits v 319 256, nblk := bits v 255 224,
    pl := bits v 223 220 }

/-- Whether a job record or its parameter record is refused (R231, R233, R239). -/
def ejobBad (v : Rec512) (x : EJob) (p : Rec512) : Bool :=
  bits v 219 0 != 0 || x.nblk == 0 || decide (65536 < x.nblk) || decide (x.pl < 2) || decide (8 < x.pl)
    || x.prec % 64 != 0 || recordBad p 0x11 [1]

/-- Lb of a record: the bits of a block (R234). -/
def blockBits (p : Rec512) : Nat := 8 * twcBlock p
/-- N of a record: the weights of a block. -/
def blockWeights (p : Rec512) : Nat := 64 * pBlen p

/-- What the search of one block depends on: record, table, planes, targets and group scales. -/
structure ESearch where
  prm : Rec512
  tab : List Nat
  pl : Nat
  targets : List Nat
  scales : List Nat
deriving DecidableEq, Repr

/-- The weight whose window is complete at position x, if any (R240). -/
def ESearch.weightAt (e : ESearch) (x : Nat) : Option Nat :=
  let i := ceilDiv ((x - 15) * 4) (pAdv e.prm)
  if i < blockWeights e.prm ∧ i * pAdv e.prm / 4 = x - 15 then some i else none

/-- Term(W, i) of R240. -/
def ESearch.term (e : ESearch) (w i : Nat) : Nat :=
  let c := signed 8 (e.tab.getD (w * pMult e.prm % 2 ^ 16 / 256) 0)
  let sc := bf16.decode (e.scales.getD (i / pGroup e.prm) 0)
  let v := fp32.round .rne (FVal.mul (.ofInt (2 * (c / 2 ^ (8 - e.pl)) + 1) (7 - (e.pl : Int)) false) sc).1
  let d := (fp32.subR .rne v (e.targets.getD i 0)).1
  (fp32.mulR .rne d d).1

/-- Whether an FP32 code is below another. -/
def ltC (a b : Nat) : Bool := (fp32.decode a).lt (fp32.decode b)

/-- Costs and survivor bits of one position (R240): forced holds S when the string's end is forced. -/
def ESearch.stepAt (e : ESearch) (x : Nat) (forced : Option Nat) (cost : List Nat) : List Nat × List Bool :=
  let lb := blockBits e.prm
  let wt := e.weightAt x
  let one (s : Nat) : Nat × Bool :=
    let y := s / 2 ^ 14
    if (match forced with | none => false | some t => decide (lb ≤ x) && (y == 1) != t.testBit (x - lb)) then (posInf, false)
    else
      let cand (z : Nat) : Nat :=
        let q := s * 2 % 2 ^ 15 + z
        let c := cost.getD q posInf
        match wt with
        | none => c
        | some i => (fp32.addR .rne c (e.term (q + y * 2 ^ 15) i)).1
      if ltC (cand 1) (cand 0) then (cand 1, true) else (cand 0, false)
  ((List.range (2 ^ 15)).map one).unzip

/-- The costs after positions 15 to Lb + 14 and the survivor bits, the last position first (R240). -/
def ESearch.pass (e : ESearch) (forced : Option Nat) (cost : List Nat) : List Nat × List (List Bool) :=
  (List.range (blockBits e.prm)).foldl
    (fun a i => let r := e.stepAt (15 + i) forced a.1; (r.1, r.2 :: a.2)) (cost, [])

/-- The string behind a final state: y_0 on (R240). -/
def traceback : Nat → List (List Bool) → List Bool
  | s, [] => (List.range 15).map s.testBit
  | s, d :: r => traceback (s * 2 % 2 ^ 15 + (if d.getD s false then 1 else 0)) r ++ [s.testBit 14]

/-- The lowest state of least cost. -/
def bestState (cost : List Nat) : Nat :=
  (cost.zipIdx.foldl (fun (a : Nat × Nat) c => if ltC c.1 a.1 then (c.1, c.2) else a) (cost.headD posInf, 0)).2

/-- A number from its bits, lowest first. -/
def natOfBits : List Bool → Nat
  | [] => 0
  | b :: r => (if b then 1 else 0) + 2 * natOfBits r

/-- EncodeBlock: the block's bits (R240). -/
def ESearch.encode (e : ESearch) : List Bool :=
  let one := e.pass none (List.replicate (2 ^ 15) 0)
  let s := natOfBits ((traceback (bestState one.1) one.2).take 15)
  let two := e.pass (some s) ((List.range (2 ^ 15)).map (fun i => if i = s then 0 else posInf))
  (traceback s two.2).take (blockBits e.prm)

/-- tcenc: the VA of a job record; it takes its place in the die's order (R239, R384). -/
def execTcenc (g : BitVec 4) (sv : BitVec 5) : State → Out :=
  issueWith (.tcenc g sv) { srcs := [sv] } (fun _ s => .done s .next)
    (fun q v s =>
      if (v.x 0).toNat % 64 != 0 then .fault { code := .align, va := (v.x 0).toNat }
      else if !(s.core q.core).engRoom 2 then .wait (.engineRoom 2)
      else
        .done ((s.accept q.core 2 (.tcenc g sv) [v.x 0] []).onDie (dieOf q.core)
          (fun d => { d with encQ := d.encQ ++ [q.core] })) .next)

/-- The encoder job in progress on a die. -/
def State.encRunning (s : State) (g : Nat) : Option (Nat × Job) :=
  (List.range 64).findSome? (fun i =>
    ((s.core (g * 64 + i)).jobsOf 2).findSome? (fun j => if j.st == .running then some (g * 64 + i, j) else none))

/-- The command the encoder of a die takes next (R242, R384). -/
def State.encNext (s : State) (g : Nat) : Option (Nat × Cmd) :=
  if (s.encRunning g).isSome || decide ((s.die g).keyc < (s.die g).encFree) then none
  else
    ((s.die g).encQ.find? (fun c => !(s.core c).engHold.contains 2)).bind
      (fun c => ((s.core c).engQueue 2).head?.map (fun x => (c, x)))

/-- The world of a die's encoder (R79). -/
def State.encSecure (s : State) (g : Nat) : Bool := s.rom.secureUnit g 410

/-- Reads n words of w bytes for the encoder. -/
def State.encWords (s : State) (g va w n : Nat) : Except FaultInfo (List Nat) :=
  match s.readDome g (s.encSecure g) va (w * n) with
  | .ok l => .ok ((kib w (w * n) l).map natOfBytes)
  | .error f => .error { code := f.1, cause := f.2, va := va, acc := 1 }

/-- The ranges of an encoder job's card (R129, R239). -/
def ejobCards (x : EJob) (p : Rec512) : List (Nat × Nat × Bool) :=
  let n := blockWeights p
  [(x.tgt, x.tgt + 4 * n * x.nblk - 1, false), (pScale p, pScale p + ceilDiv n (pGroup p) * x.nblk * 2 - 1, false),
    (x.out, x.out + x.nblk * twcBlock p - 1, true), (x.scr, x.scr + blockBits p * 4096 - 1, true)]

/-- The Dome addresses that a running encoder job names; l: its parameter record and table (R170). -/
def EJob.vas (x : EJob) (l : List Rec512) : List Nat := [x.tgt, pScale (l.headD 0), x.out, x.scr]

/-- The addresses of n bytes from a VA. -/
def spanVas (va n : Nat) : List Nat := (List.range n).map (va + ·)

/-- ENCODER_JOB_START: the next job's record and, where PREC is not 0, its parameter record with the table are read and checked, and
its card stands. The requests of older accesses to the dies it reads from have gone ahead (R113, R170, R231, R233, R239, R242,
R384). -/
def execEncoderJobStart (g : Nat) (s : State) : Out :=
  match s.encNext g with
  | none => .fault .notEnabled
  | some (c, cmd) =>
    if s.frozen (clusterOf c) || !s.vasClear g [(cmd.vals.getD 0 0).toNat] then .fault .notEnabled else
    let s := s.onDie g (fun d => { d with encQ := d.encQ.erase c })
    let va := (cmd.vals.getD 0 0).toNat
    if s.encSecure g && !s.rom.secureCore c then
      let r := s.takeItem c 2 cmd 0
      .next (r.1.jobFault c 2 r.2 { code := .security })
    else
      match s.encWords g va 64 1 with
      | .error f => let r := s.takeItem c 2 cmd 0; .next (r.1.jobFault c 2 r.2 f)
      | .ok l =>
        let v : Rec512 := BitVec.ofNat 512 (l.headD 0)
        let x := ejobOf v
        let r := s.takeItem c 2 cmd v
        let noRec := x.prec == 0 || x.prec % 64 != 0
        if !noRec && !s.vasClear g [x.prec] then .fault .notEnabled
        else
        match (if noRec then .ok [] else s.encWords g x.prec 64 5) with
        | .error f => .next (r.1.jobFault c 2 r.2 f)
        | .ok q =>
          let p : Rec512 := BitVec.ofNat 512 (q.headD 0)
          if noRec || ejobBad v x p then .next (r.1.jobFault c 2 r.2 { code := .descriptor })
          else if !(r.1.die g).cardRoom then .fault .notEnabled
          else
            let crd := r.1.checkCards g (.encoder g) (ejobCards x p)
            if !crd.2 then .next (crd.1.jobFault c 2 r.2 { code := .footprint })
            else
            let j := { r.2 with done := (s.die g).keyc + 66 * blockBits p + 64, aux := [0],
                                cmd := { cmd with descs := q.map (fun w => (BitVec.ofNat 512 w : Rec512)) } }
            let t := (r.1.touchVas g (spanVas va 64 ++ spanVas x.prec 320)).engineDid g [va, x.prec] []
            .next ((t.onCore c (·.putJob j)).onDie g (·.addCards (.encoder g) j.id (ejobCards x p)))

/-- The search of block b of a job with the parameter record and table it was started with (R233), or the fault that its data
raise (R241). -/
def State.encSearch (s : State) (g : Nat) (x : EJob) (l : List Rec512) (b : Nat) : Except FaultInfo ESearch := do
  let p := l.headD 0
  let tab := (l.drop 1).flatMap (fun w => (bytesOfNat 64 w.toNat).map (·.toNat))
  let n := blockWeights p
  let t ← s.encWords g (x.tgt + b * 4 * n) 4 n
  let sc ← ((List.range (ceilDiv n (pGroup p))).mapM (fun i => s.encWords g (pScale p + (i * x.nblk + b) * 2) 2 1))
  let scales := sc.map (·.headD 0)
  let odd (v : FVal) : Bool := match v with | .fin .. => false | _ => true
  if t.any (fun c => odd (fp32.decode c)) || scales.any (fun c => odd (bf16.decode c)) then .error { code := .engine }
  else .ok { prm := p, tab := tab, pl := x.pl, targets := t, scales := scales }

/-- Bytes from bits, lowest first. -/
def bytesOfBits (l : List Bool) : List Byte := (kib 8 l.length l).map (fun b => BitVec.ofNat 8 (natOfBits b))

/-- The addresses that a block reads and writes, apart from its scratch: targets, group scales and the block (R239, R240). -/
def EJob.blockVas (x : EJob) (p : Rec512) (b : Nat) : List Nat :=
  let n := blockWeights p
  spanVas (x.tgt + b * 4 * n) (4 * n)
    ++ (List.range (ceilDiv n (pGroup p))).flatMap (fun i => spanVas (pScale p + (i * x.nblk + b) * 2) 2)
    ++ spanVas (x.out + b * twcBlock p) (twcBlock p)

/-- A job of a killed record ends at its block (R257).
ENCODER_BLOCK_COMPLETE: one block is encoded and written whole; after the last the job completes. The survivor scratch
holds free values: its layout is not stated (R173, R240, R241; log 9). What ends a job waits while its cluster is frozen: its
completion number is the core's (R113). -/
def execEncoderBlockComplete (g : Nat) (s : State) : Out :=
  match s.encRunning g with
  | none => .fault .notEnabled
  | some (c, j) =>
    let x := ejobOf j.entry
    let b := (j.aux.headD 0).toNat
    let killed : Bool := decide (((s.record? j.cmd.ofRec).map (·.state)) = some .killed)
    if (s.die g).keyc < j.done || !s.vasClear g (x.vas j.cmd.descs) then .fault .notEnabled
    else if s.frozen (clusterOf c) && (killed || b + 1 = x.nblk) then .fault .notEnabled
    else
      let close (t : State) : State :=
        t.onDie g (fun d => { d.dropCards (.encoder g) j.id with encFree := d.keyc + 1 })
      match s.encSearch g x j.cmd.descs b with
      | .error f => .next ((close s).jobFault c 2 j { f with aux := b })
      | .ok e =>
        let lb := blockBits e.prm
        let scr := (List.range (lb * 4096)).map (fun i => (Config.freeBits (s.m.free + i)).truncate 8)
        match s.writeDome g (s.encSecure g) x.scr scr with
        | .error f => .next ((close s).jobFault c 2 j { code := f.1, cause := f.2, va := x.scr, acc := 2, aux := b })
        | .ok t =>
          match t.writeDome g (s.encSecure g) (x.out + b * twcBlock e.prm) (bytesOfBits e.encode) with
          | .error f => .next ((close s).jobFault c 2 j { code := f.1, cause := f.2, va := x.out, acc := 2, aux := b })
          | .ok t =>
            let t := (t.touchVas g (x.blockVas e.prm b)).engineDid g [x.tgt, pScale e.prm] [x.out, x.scr]
            let t := { t with m := { t.m with free := t.m.free + lb * 4096 } }
            if killed then .next ((close t).onCore c (·.dropJob j))
            else if b + 1 = x.nblk then .next ((close t).endJob c 2 j)
            else
              .next (t.onCore c (·.putJob
                { j with aux := [BitVec.ofNat 64 (b + 1)], done := (s.die g).keyc + 66 * lb + 64 }))

end Sys2Proof.Machine
end

