-- ==== Sys2Proof/Machine/Io.lean ====
section
/-! DEFINITION. I/O requests to the host and their responses (R385 to R389). -/

namespace Sys2Proof.Machine

/-- LOG2N of a die's request ring. -/
def Die.ioLog (d : Die) : Nat := bits (d.reg 0x0B00) 4 0
/-- IOCTL.EN. -/
def Die.ioEn (d : Die) : Bool := (d.reg 0x0B10).getLsbD 0

/-- The stages of a request (R386, R388, R389): 4 started, 1 sent, 3 response taken, 2 its data complete or ended without a host
answer. Job.aux holds stage, RLEN, STATUS and the host address of the data. -/
def Job.ioStage (j : Job) : Nat := (j.aux.getD 0 0).toNat
/-- RLEN of a request whose response is taken. -/
def Job.ioLen (j : Job) : Nat := (j.aux.getD 1 0).toNat
/-- STATUS. -/
def Job.ioStatus (j : Job) : Nat := (j.aux.getD 2 0).toNat

/-- Whether a command is an iorq. -/
def Cmd.isIorq (c : Cmd) : Bool := match c.ins with | .iorq .. => true | _ => false
/-- Whether an iocan has cancelled a command that is still queued. -/
def Cmd.cancelled (c : Cmd) : Bool := decide (2 ≤ c.vals.length)

/-- The requests of a die that are sent and not answered; one that was cancelled after it was sent is still to be answered
(R386, R389; log 18). -/
def State.ioOutstanding (s : State) (g : Nat) : Nat :=
  (s.die g).ioLate.length + ((List.range 64).map (fun i =>
    (((s.core (g * 64 + i)).jobsOf 7).filter (fun j => j.cmd.isIorq && (j.ioStage == 1 || j.ioStage == 4))).length
      + (((s.core (g * 64 + i)).engQueue 7).filter (·.isIorq)).length)).foldl (· + ·) 0

/-- Whether engine e of a core takes another command: room in its queue, and for iorq fewer than 2^LOG2N requests of the die
outstanding (R364, R386). -/
def State.ioRoom (s : State) (c : Nat) : Bool :=
  (s.core c).engRoom 7 && decide (s.ioOutstanding (dieOf c) < 2 ^ (s.die (dieOf c)).ioLog)

/-- Whether a request record is refused (R385). -/
def ioBad (v : Rec512) : Bool :=
  bits v 511 510 != 0 || bits v 453 448 != 0 || bits v 383 352 % 64 != 0 || bits v 383 352 == 0
    || decide (16777216 < bits v 383 352) || bits v 351 344 == 255 || bits v 338 320 != 0

/-- iorq: the record is checked and snapshotted at acceptance (R385). -/
def execIorq (g : BitVec 4) (sv : BitVec 5) : State → Out :=
  issueWith (.iorq g sv) { srcs := [sv] } (fun _ s => .done s .next)
    (fun q v s =>
      let a := (v.x 0).toNat
      let r : Rec512 := BitVec.ofNat 512 (readNat (s.core q.core).store a 64)
      match blockFault (v.x 0) 64 64 with
      | some f =>
        if f.code = .addr then .fault f
        else if ioBad r then .fault { code := .descriptor } else .fault f
      | none =>
        match s.eccBytes q.core [(a, 64)] with
        | some e => .fault { code := .eccUncorrectable, cause := e }
        | none =>
        if ioBad r then .fault { code := .descriptor }
        else if s.ioRoom q.core then .done (s.accept q.core 7 (.iorq g sv) [v.x 0] [r]) .next
        else .wait (.engineRoom 7))

/-- The IOID of a request: PCORE and its issue number (R386). -/
def State.ioId (s : State) (c : Nat) (tag : Word) : Nat := s.pcore c * 2 ^ 48 + tag.toNat % 2 ^ 48

/-- Writes the next entry of a die's request ring (R386). -/
def State.ioWrite (s : State) (g : Nat) (id : Nat) (v : Rec512) (chan : Nat) : State :=
  let d := s.die g
  let n := 2 ^ d.ioLog
  let at_ := bits (d.reg 0x0B00) 63 12 * 4096 + d.ioReqs % n * 64
  let phase := (d.ioReqs / n + 1) % 2
  let e := id + bits v 447 384 * 2 ^ 64 + bits v 383 352 * 2 ^ 128 + chan * 2 ^ 160 + phase * 2 ^ 184
    + bits v 255 64 * 2 ^ 192 + bits v 319 256 * 2 ^ 384
  let s := { s with m := { s.m with host := writeNat s.m.host at_ 64 e } }
  s.onDie g (fun d => { d with ioReqs := d.ioReqs + 1 })

/-- The world of a die's I/O engine (R79). -/
def State.ioSecure (s : State) (g : Nat) : Bool := s.rom.secureUnit g 411

/-- iocan: cancels at its acceptance (R389): an unsent target is never sent; for a sent one the host is told, and it ends
CANCELLED. A core that is not secure may not use a secure I/O engine (R79). -/
def execIocan (g : BitVec 4) (sv : BitVec 5) : State → Out :=
  issueWith (.iocan g sv) { srcs := [sv] } (fun _ s => .done s .next)
    (fun q v s =>
      if s.ioSecure (dieOf q.core) && !s.rom.secureCore q.core then .fault { code := .security }
      else if !(s.core q.core).engRoom 7 then .wait (.engineRoom 15)
      else
        let c := q.core
        let t := v.x 0
        let k := s.core c
        let s :=
          if (k.engQueue 7).any (fun x => x.tag == t && x.isIorq) then
            s.onCore c (fun k => k.setEngQueue 7 ((k.engQueue 7).map (fun x =>
              if x.tag == t && x.isIorq && !x.cancelled then { x with vals := x.vals ++ [1] } else x)))
          else
            match (k.jobsOf 7).find? (fun j => j.cmd.tag == t && j.cmd.isIorq && (j.ioStage == 1 || j.ioStage == 4)) with
            | none => s
            | some j =>
              if j.ioStage = 4 then s.onCore c (·.putJob { j with aux := [2, 0, 2] }) else
              let s := s.ioWrite (dieOf c) (s.ioId c t) (j.cmd.descs.getD 0 0) 255
              let s := s.onDie (dieOf c) (fun d =>
                { d with ioLate := d.ioLate ++ [(s.ioId c t, bits (j.cmd.descs.getD 0 0) 383 352)] })
              s.onCore c (·.putJob { j with aux := [2, 0, 2] })
        .done (s.accept c 7 (.iocan g sv) [t] []) .next)

/-- The command at the head of a core's I/O queue, when the engine may take it: requests of a core are many in progress. -/
def Core.ioNext (k : Core) (now : Nat) : Option Cmd :=
  if k.engHold.contains 7 then none
  else match k.engQueue 7 with | [] => none | cmd :: _ => if cmd.at_ < now then some cmd else none

/-- The request of a core that has started and is not sent: it is sent in a later cycle (R127, R386). -/
def State.ioStarted (s : State) (c : Nat) : Option Job :=
  ((s.core c).jobsOf 7).find? (fun j => j.st = .running && j.ioStage == 4 && decide (j.release < s.keyc c))

/-- The head of a core's I/O queue starts (R79, R126 to R129, R385, R387, R389). -/
def State.ioStart (s : State) (c : Nat) (cmd : Cmd) : Out :=
  let g := dieOf c
  let v := cmd.descs.getD 0 0
  let r := s.takeItem c 7 cmd v
  let t := r.1
  let j := r.2
  if !cmd.isIorq then .next (t.onCore c (·.putJob { j with aux := [2, 0, 0] }))
  else if cmd.cancelled then .next (t.onCore c (·.putJob { j with aux := [2, 0, 2] }))
  else if !(s.die g).ioEn then .next (t.jobFault c 7 j { code := .engine })
  else if s.ioSecure g && !s.rom.secureCore c then .next (t.jobFault c 7 j { code := .security })
  else
    let iss := Issuer.io g
    let dst := bits v 511 448
    let cards := [(dst, dst + bits v 383 352 - 1, true)]
    let fps := [(c, bytesAt ((cmd.vals.getD 0 0).toNat) 8 true)]
    match s.fullChecker (s.ccyc c) fps with
    | some o => .next (s.freezeFull c 7 o)
    | none =>
      if !(s.die g).cardRoom then .fault .notEnabled
      else
        let chk := t.checkAll iss fps
        let crd := chk.1.checkCards g iss cards
        if !chk.2 || !crd.2 then .next (crd.1.jobFault c 7 j { code := .footprint })
        else
          .next (((t.addAll iss j.id fps (s.ccyc c) none).onDie g (·.addCards iss j.id cards)).onCore c
            (·.putJob { j with aux := [4, 0, 0], release := s.keyc c }))

/-- IO_REQUEST_SEND: the entry of a request that has started is written into the host's ring; or the head of a core's I/O queue
starts (R386, R387, R389). -/
def execIoRequestSend (c : Nat) (s : State) : Out :=
  match s.ioStarted c with
  | some j =>
    let g := dieOf c
    let v := j.cmd.descs.getD 0 0
    let s := s.ioWrite g (s.ioId c j.cmd.tag) v (bits v 351 344)
    let s := s.onDie g (fun d =>
      { d.count 0x0B18 63 32 1 with ioPolled := if s.ioOutstanding g ≤ 1 then d.keyc else d.ioPolled })
    .next (s.onCore c (·.putJob { j with aux := [1, 0, 0] }))
  | none =>
    if s.frozen (clusterOf c) then .fault .notEnabled else
    match (s.core c).ioNext (s.ccyc c) with
    | none => .fault .notEnabled
    | some cmd => s.ioStart c cmd

/-- The poll interval in cycles (R387). -/
def Die.ioPoll (d : Die) : Nat := max 1 (bits (d.reg 0x0B10) 31 16) * 64

/-- Whether the response ring of a die is due to be read (R386). -/
def State.ioPollDue (s : State) (g : Nat) : Bool :=
  let d := s.die g
  d.ioEn && decide (d.ioPolled + d.ioPoll ≤ d.keyc)
    && (!d.ioLate.isEmpty || (List.range 64).any (fun i => ((s.core (g * 64 + i)).jobsOf 7).any (fun j => j.ioStage == 1)))

/-- Takes one response (R388); the late response of a cancelled request writes nothing (R389) and is still counted, by its STATUS or
by an RLEN above its request's LEN (R387). -/
def State.ioTake (s : State) (g : Nat) (e : Nat) : State :=
  let id := e % 2 ^ 64
  let hit := (List.range 64).findSome? (fun i =>
    let c := g * 64 + i
    ((s.core c).jobsOf 7).findSome? (fun j =>
      if j.cmd.isIorq && s.ioId c j.cmd.tag == id && j.ioStage == 1 && j.st = .running then some (c, j) else none))
  let st := e / 2 ^ 160 % 256
  let rlen := e / 2 ^ 128 % 2 ^ 32
  let err (s : State) : State := s.onDie g (·.count 0x0B18 31 16 1)
  match hit with
  | none =>
    let late := (s.die g).ioLate.find? (·.1 == id)
    let s := s.onDie g (fun d => { d with ioLate := match late with | some x => d.ioLate.erase x | none => d.ioLate })
    if st = 1 || late.any (fun x => decide (x.2 < rlen)) then err s else s
  | some (c, j) =>
    let v := j.cmd.descs.getD 0 0
    if bits v 383 352 < rlen then (err s).onCore c (·.putJob { j with aux := [2, 0, 1] })
    else
      let src := e / 2 ^ 64 % 2 ^ 64
      (if st = 1 then err s else s).onCore c (·.putJob
        { j with aux := [3, BitVec.ofNat 64 rlen, BitVec.ofNat 64 st, BitVec.ofNat 64 src] })

/-- Where the next row of a request's data goes, and its bytes: up to the next address that is a multiple of 1 KiB, so that no
location is cut (R162, R388). -/
def Job.ioRow (j : Job) : Nat × Nat :=
  let a := bits (j.cmd.descs.getD 0 0) 511 448 + j.base
  (a, min (j.ioLen - j.base) (1024 - a % 1024))

/-- The request of a core whose response is taken and whose data may be copied now: none of its die's older accesses to the
owner of the next row is held, and its slices have room (R136, R170, R388). -/
def State.ioDataReady (s : State) (c : Nat) : Option Job :=
  ((s.core c).jobsOf 7).find? (fun j =>
    j.st = .running && j.ioStage == 3 && s.vasClear (dieOf c) [j.ioRow.1]
      && s.slicesRoom (s.sliceBytes (dieOf c) (spanVas j.ioRow.1 j.ioRow.2)))

/-- A row of the data of a response is copied from the host's memory to DST; when is not stated, nor the order among requests
(R162, R170, R177, R388). -/
def ioCopy (c : Nat) (s : State) : Out :=
  match s.ioDataReady c with
  | none => .fault .notEnabled
  | some j =>
    let g := dieOf c
    let dst := j.ioRow.1
    let n := j.ioRow.2
    match s.writeDome g (s.ioSecure g) dst (readBytes s.m.host ((j.aux.getD 3 0).toNat + j.base) n) with
    | .ok t =>
      let t := (t.touchVas g (spanVas dst n)).engineDid g [] [dst]
      let aux := if j.ioLen ≤ j.base + n then 2 :: j.aux.tail else j.aux
      .next (t.onCore c (·.putJob { j with aux := aux, base := j.base + n }))
    | .error f =>
      let s := (s.dropAll (clusterOf c) (.io g) j.id).onDie g (·.dropCards (.io g) j.id)
      .next (s.jobFault c 7 j { code := f.1, cause := f.2, va := dst, acc := 2 })

/-- Reads up to n entries of a die's response ring in order (R386). -/
def State.ioRead (s : State) (g : Nat) : Nat → State
  | 0 => s
  | n + 1 =>
    let d := s.die g
    let size := 2 ^ bits (d.reg 0x0B08) 4 0
    let at_ := bits (d.reg 0x0B08) 63 12 * 4096 + d.ioRsps % size * 32
    let e := readNat s.m.host at_ 32
    if e / 2 ^ 248 % 2 = (d.ioRsps / size + 1) % 2 then
      ((s.ioTake g e).onDie g (fun d => { d with ioRsps := d.ioRsps + 1 })).ioRead g n
    else s

/-- IO_RESPONSE_POLL (R386). -/
def execIoResponsePoll (g : Nat) (s : State) : Out :=
  if s.ioPollDue g then .next ((s.onDie g (fun d => { d with ioPolled := d.keyc })).ioRead g 16) else .fault .notEnabled

/-- The I/O job of a core that may complete: its data is complete and it is the oldest of the core (R301, R388). -/
def Core.ioDone (k : Core) : Option Job := (k.jobsOf 7).head?.filter (fun j => j.ioStage == 2 && j.st != .faulted)

/-- The address of the I/O completion number in the saved context of a record that does not run on a core (R301; log 21). -/
def State.ioSaved (s : State) (c : Nat) (j : Job) : Option Nat :=
  if (s.core c).running = some j.cmd.ofRec then none
  else (s.record? j.cmd.ofRec).map (fun r => bits r.raw 511 448 + 0x9F8)

/-- Ends an I/O job: the completion number of the core, or of the saved context of a record that has yielded (R110, R301);
the saved number stands after the eight issue numbers at 0x980 (log 21); where CTX is another die's, its write carries the clock
(R170). -/
def State.ioEnd (s : State) (c : Nat) (j : Job) : State :=
  if (s.core c).running = some j.cmd.ofRec then s.endJob c 7 j
  else
    let s := s.onCore c (·.dropJob j)
    match s.record? j.cmd.ofRec with
    | none => s
    | some r =>
      let s := s.setRecord j.cmd.ofRec { r with ioDone := j.cmd.tag }
      let a := bits r.raw 511 448 + 0x9F8
      match s.writeDome (dieOf c) (s.rom.secureCore c) a (bytesOfNat 8 j.cmd.tag.toNat) with
      | .ok t => (t.touchVas (dieOf c) [a]).engineDid (dieOf c) [] [a]
      | .error _ => s

/-- IO_COMPLETION: RLEN, STATUS, the post and the completion number, in issue order; a write of a saved number waits for the
requests of older accesses to its owner (R170, R175, R301, R388, R389). -/
def execIoCompletion (c : Nat) (s : State) : Out :=
  if s.frozen (clusterOf c) then .fault .notEnabled else
  match (s.core c).ioDone with
  | none => .fault .notEnabled
  | some j =>
    if !s.vasClear (dieOf c) (s.ioSaved c j).toList then .fault .notEnabled
    else if !j.cmd.isIorq then .next (s.ioEnd c j)
    else
      let v := j.cmd.descs.getD 0 0
      let a := (j.cmd.vals.getD 0 0).toNat
      let g := dieOf c
      let s := s.onCore c (·.putNat a 8 (j.ioLen % 2 ^ 32 * 2 ^ 32 + j.ioStatus % 256))
      let s := if j.ioStatus = 2 then s.onDie g (·.count 0x0B18 15 0 1) else s
      let s := if v.getLsbD 339 then s.postOutside c (bits v 343 340) 1 else s
      let s := (s.dropAll (clusterOf c) (.io g) j.id).onDie g (·.dropCards (.io g) j.id)
      .next (s.ioEnd c j)

end Sys2Proof.Machine
end

