-- ==== Sys2Proof/Machine/Lead.lean ====
section
/-! DEFINITION. The lead lantern's bookkeeping: packets, completion records, command history, images (R61 to R72, R284). -/

namespace Sys2Proof.Machine

/-- Bytes lo to lo + n − 1 of a packet as a number (R65). -/
def pkt (p : Rec512) (lo n : Nat) : Nat := bits p (8 * (lo + n) - 1) (8 * lo)
/-- IFV of a packet. -/
def pktIfv (p : Rec512) : Nat := bits p 63 56
/-- OPC. -/
def pktOpc (p : Rec512) : Nat := bits p 55 48
/-- NOCQ. -/
def pktNocq (p : Rec512) : Bool := p.getLsbD 40
/-- CID. -/
def pktCid (p : Rec512) : Nat := bits p 31 0
/-- DV, DQ and DCID of the dependency word. -/
def pktDep (p : Rec512) : Option (Nat × Nat) := if p.getLsbD 127 then some (bits p 99 96, bits p 95 64) else none

/-- A register of the lead lantern's queue block, which stands in die 0's window (R59, R63). -/
def State.qreg (s : State) (off : Nat) : Word := (s.die 0).reg off
/-- The state with a register of the queue block replaced. -/
def State.setQreg (s : State) (off : Nat) (v : Word) : State := s.onDie 0 (·.setReg off v)

/-- LOG2N and EN of a submission queue (R63). -/
def State.sqLog (s : State) (q : Nat) : Nat := bits (s.qreg (0x0408 + 16 * q)) 4 0
/-- EN. -/
def State.sqEn (s : State) (q : Nat) : Bool := (s.qreg (0x0408 + 16 * q)).getLsbD 30
/-- S: the queue's world (R62, R79). -/
def State.sqSecure (s : State) (q : Nat) : Bool := (tabGet (0 : Rec512) 0 s.rom.header).getLsbD (416 + q)
/-- SQTAIL. -/
def State.sqTail (s : State) (q : Nat) : Nat := (s.qreg (0x0500 + 8 * q)).toNat
/-- SQHEAD. -/
def State.sqHead (s : State) (q : Nat) : Nat := (s.qreg (0x0580 + 8 * q)).toNat

/-- Whether the completion queue is enabled and not full (R64). -/
def State.cqRoom (s : State) : Bool :=
  let c := s.qreg 0x0608
  c.getLsbD 31 && ((s.qreg 0x0618).toNat + 1) % 2 ^ bits c 4 0 != (s.qreg 0x0610).toNat

/-- Writes a completion record at CQTAIL, word 0 last, and advances CQTAIL; ICNT unsignalled records fire MSI-X vector 0
(R63, R64, R68). -/
def State.putCompletion (s : State) (c : Completion) : State :=
  let log := bits (s.qreg 0x0608) 4 0
  let tail := (s.qreg 0x0618).toNat
  let at_ := bits (s.qreg 0x0600) 63 12 * 4096 + tail * 32
  let w0 := c.status * 2 ^ 56 + c.opc * 2 ^ 48 + c.sq * 2 ^ 44 + (if s.m.lead.phase then 2 ^ 43 else 0)
    + (if c.late then 2 ^ 42 else 0) + (if c.super then 2 ^ 41 else 0) + c.cid
  let host := writeNat s.m.host (at_ + 8) 8 c.result0
  let host := writeNat host (at_ + 16) 8 c.result1
  let host := writeNat host (at_ + 24) 8 (s.sqHead c.sq)
  let host := writeNat host at_ 8 w0
  let next := (tail + 1) % 2 ^ log
  let l := s.m.lead
  let n := l.unsignalled + 1
  let fire := decide (max 1 (bits (s.qreg 0x0608) 15 8) ≤ n)
  let l := { l with
    phase := if next = 0 then !l.phase else l.phase
    firstAt := if l.unsignalled = 0 then (s.die l.die).keyc else l.firstAt
    unsignalled := if fire then 0 else n
    msi := if fire then l.msi + 1 else l.msi }
  { s with m := { s.m with host := host, lead := l } }.setQreg 0x0618 (BitVec.ofNat 64 next)

/-- Posts a completion record: it is written, or waits behind others for room (R64). -/
def State.post (s : State) (c : Completion) : State :=
  if s.cqRoom && s.m.lead.out.isEmpty then s.putCompletion c
  else { s with m := { s.m with lead := { s.m.lead with out := s.m.lead.out ++ [c] } } }

/-- Writes waiting completion records while there is room, up to n (R64). -/
def State.flushOut (s : State) : Nat → State
  | 0 => s
  | n + 1 =>
    match s.m.lead.out with
    | [] => s
    | c :: r =>
      if s.cqRoom then ({ s with m := { s.m with lead := { s.m.lead with out := r } } }.putCompletion c).flushOut n else s

/-- The history of a queue, the latest command first (R67). -/
def State.past (s : State) (q : Nat) : List Past := tabGet [] q s.m.lead.past
/-- The state with a queue's history replaced. -/
def State.setPast (s : State) (q : Nat) (l : List Past) : State :=
  { s with m := { s.m with lead := { s.m.lead with past := tabPut q l s.m.lead.past } } }

/-- Notes the final status of a command in its queue's history, and for the commands that wait for it (R67). -/
def State.noteStatus (s : State) (q order status : Nat) : State :=
  let s := s.setPast q ((s.past q).map (fun p => if p.order = order then { p with status := some status } else p))
  { s with m := { s.m with lead := { s.m.lead with waiting := s.m.lead.waiting.map (fun (b : Busy) =>
    match b.dep with
    | some (o, none) => if o = order then { b with dep := some (o, some status) } else b
    | _ => b) } } }

/-- Ends a command: its status is noted, and its completion record is posted unless NOCQ and SUCCESS (R65, R68). -/
def State.conclude (s : State) (b : Busy) (status : Nat) (late : Bool) (r0 r1 : Nat) : State :=
  let s := s.noteStatus b.queue b.order status
  let s := { s with m := { s.m with lead := { s.m.lead with busy := s.m.lead.busy.filter (fun x => x.order ≠ b.order) } } }
  if pktNocq b.packet && status = 0 then s
  else
    s.post { status := status, opc := pktOpc b.packet, sq := b.queue, late := late, super := b.super, cid := pktCid b.packet,
             result0 := r0, result1 := r1 }

/-- Keeps a command among those in progress. -/
def State.keepBusy (s : State) (b : Busy) : State :=
  { s with m := { s.m with lead := { s.m.lead with busy := s.m.lead.busy ++ [b] } } }

/-- An image of the store. -/
def State.image? (s : State) (h : Nat) : Option Image := tabGet none h (s.m.lead.images.map (fun e => (e.1, some e.2)))

/-- n bytes of an image at an offset as a number. -/
def Image.num (i : Image) (off n : Nat) : Nat := readNat i.bytes off n
/-- NSEC, NLCN and NLDIE of an image (R284). -/
def Image.nsec (i : Image) : Nat := i.num 6 2
/-- NLCN. -/
def Image.nlcn (i : Image) : Nat := i.num 8 4
/-- NLDIE. -/
def Image.nldie (i : Image) : Nat := i.num 12 2

/-- A section entry of an image: its own offset and its fields (R284). -/
structure Sect where
  at_ : Nat
  kind : Nat
  place : Nat
  addr : Nat
  off : Nat
  len : Nat
deriving DecidableEq, Repr

/-- The section entries of an image (R284). -/
def Image.sects (i : Image) : List Sect :=
  (List.range i.nsec).map (fun n =>
    let a := 64 + 32 * n
    { at_ := a, kind := i.num a 2, place := i.num (a + 4) 4, addr := i.num (a + 8) 8, off := i.num (a + 16) 8,
      len := i.num (a + 24) 8 })

/-- The contents of the sections of a kind joined in order, as offsets of entries of n bytes. -/
def Image.entries (i : Image) (kind n : Nat) : List Nat :=
  (i.sects.filter (fun x => x.kind = kind)).flatMap (fun x => (List.range (x.len / n)).map (fun j => x.off + n * j))

/-- The loop records of an image, in record-index order. -/
def Image.records (i : Image) : List Rec512 := (i.entries 5 64).map (fun o => BitVec.ofNat 512 (i.num o 64))
/-- The start list. -/
def Image.starts (i : Image) : List Nat := (i.entries 6 4).map (fun o => i.num o 4)
/-- The tag vector entry of a tag; NREC = 0 above the highest (R90). -/
def Image.tagVec (i : Image) (t : Nat) : BitVec 128 :=
  match (i.entries 7 16)[t]? with
  | none => 0
  | some o => BitVec.ofNat 128 (i.num o 16)
/-- NREC of a tag vector entry. -/
def tvNrec (v : BitVec 128) : Nat := bits v 15 0
/-- BLIM. -/
def tvBlim (v : BitVec 128) : Nat := bits v 23 16
/-- BUDF. -/
def tvBudf (v : BitVec 128) : Nat := bits v 63 32
/-- REC0. -/
def tvRec0 (v : BitVec 128) : Nat := bits v 95 64

/-- The slot counts of the buckets of a logical die (R91, R284). -/
def Image.bucketCounts (i : Image) (d : Nat) : List Nat :=
  match i.sects.find? (fun x => x.kind = 8 && x.place = d) with
  | none => [0, 0, 0, 0]
  | some x => (List.range 4).map (fun b => i.num (x.off + 2 * b) 2)
/-- NSLOT of a logical die. -/
def Image.nslot (i : Image) (d : Nat) : Nat := (i.bucketCounts d).foldl (· + ·) 0
/-- Whether an image has slots. -/
def Image.hasSlots (i : Image) : Bool := (List.range i.nldie).any (fun d => decide (0 < i.nslot d))

/-- The bucket of a slot by its index (R91). -/
def bucketOf (counts : List Nat) (slot : Nat) : Nat :=
  let c (n : Nat) : Nat := (counts.take n).foldl (· + ·) 0
  if slot < c 1 then 0 else if slot < c 2 then 1 else if slot < c 3 then 2 else 3
/-- The position limit of a bucket (R91). -/
def bucketLimit (b : Nat) : Nat := [8192, 65536, 524288, 2097152].getD b 0

/-- The core of this module that runs an LCN under a launch's binding (R82, R83); the binding of a launch names cores by
die of the module, and the number 2^16 stands for a core of another module. -/
def Launch.placeOf (l : Launch) (lcn : Nat) : Option Nat :=
  (l.binding[lcn]?).bind (fun p => if p < 2 ^ 16 then some p else none)

/-- The logical die of a launch that runs on a die, if one does. -/
def Launch.logicalDie (l : Launch) (g : Nat) : Option Nat :=
  (List.range (l.binding.length)).findSome? (fun n =>
    match l.placeOf n with | some c => if dieOf c = g then some (n / 64) else none | none => none)

end Sys2Proof.Machine
end

