-- ==== Sys2Proof/Machine/Pier.lean ====
section
/-! DEFINITION. A die's pier: geometry, segments held, locator entries, retention and free capacity (R35 to R42). -/

namespace Sys2Proof.Machine

/-- VCTL.MODE; P of R33 is its number while the ring runs. -/
def Die.mode (d : Die) : Nat := bits (d.reg 0x0200) 15 14
/-- VCTL.LASTTAG. -/
def Die.lastTag (d : Die) : Nat := bits (d.reg 0x0200) 31 16
/-- A flag of VCTL. -/
def Die.vctl (d : Die) (b : Nat) : Bool := (d.reg 0x0200).getLsbD b
/-- VGEOM.DWELL. -/
def Die.dwell (d : Die) : Nat := bits (d.reg 0x0210) 18 0
/-- VGEOM.CAP, a multiple of 32. -/
def Die.cap (d : Die) : Nat := bits (d.reg 0x0210) 37 24 * 32
/-- VGEOM.MARGIN. -/
def Die.margin (d : Die) : Nat := bits (d.reg 0x0210) 49 38
/-- The ring state of R50 that VSTAT.STATE shows. -/
def Die.ringState (d : Die) : Nat := bits (d.reg 0x0208) 15 12
/-- VLINK.VER. -/
def Die.ver (d : Die) : Nat := bits (d.reg 0x0248) 63 56
/-- The die with its Viaduct engine changed. -/
def Die.onRing (d : Die) (f : Ring → Ring) : Die := { d with ring := f d.ring }

/-- Whether a segment is retained (R39). -/
def Inst.retained (i : Inst) : Bool := decide (0 < i.batches) || !i.kept.isEmpty

/-- STATE of a segment's locator entry (R37): 0 once its header beat is sent and nothing retains it, 4 dropped, 1 while it is
not whole, 3 when it is whole and its header beat is sent, else 2. -/
def Inst.state (i : Inst) : Nat :=
  if i.dropped then 4
  else if 0 < i.sent ∧ !i.retained then 0
  else if i.written < i.beats ∨ i.cut then 1
  else if 0 < i.sent then 3 else 2

/-- The locator entry of a segment (R37). -/
def Inst.locator (i : Inst) (cap : Nat) : Nat :=
  i.turn % 2 ^ 32 * 2 ^ 96 + (i.written - 1) * 2048 * 2 ^ 64 + i.first % cap * 2 ^ 32 + i.state

/-- The locator entry of a tag as programs read it (R37). -/
def Die.locEntry (d : Die) (tag : Nat) : Nat := readNat d.dome (d.ring.locPa + 16 * tag) 16
/-- PRESENT of a locator entry. -/
def locPresent (e : Nat) : Nat := e / 2 ^ 64 % 2 ^ 32
/-- TURN of a locator entry. -/
def locTurn (e : Nat) : Nat := e / 2 ^ 96
/-- STATE of a locator entry. -/
def locState (e : Nat) : Nat := e % 8

/-- The segment table entry of a tag (R30). -/
def Die.segEntry (d : Die) (tag : Nat) : Nat := readNat d.dome (d.ring.segtPa + 16 * tag) 16
/-- LEN of a segment table entry. -/
def segLen (e : Nat) : Nat := e / 2 ^ 96
/-- FMT of a segment table entry. -/
def segFmt (e : Nat) : Nat := e / 2 ^ 88 % 256
/-- HOME of a segment table entry. -/
def segHome (e : Nat) : Nat := e / 2 ^ 64 % 1024
/-- IMG of a segment table entry. -/
def segImg (e : Nat) : Nat := e % 2 ^ 64

/-- The segment of a tag and turn that a pier holds. -/
def Ring.seg? (r : Ring) (tag turn : Nat) : Option Inst := r.insts.find? (fun i => i.tag = tag && i.turn = turn)
/-- The newest segment of a tag, which its locator entry describes. -/
def Ring.newest (r : Ring) (tag : Nat) : Option Inst := r.insts.reverse.find? (fun i => i.tag = tag)

/-- Enters the locator update of a segment, which stands in the next cycle, if the segment is its tag's newest (R37). -/
def Die.touch (d : Die) (first : Nat) : Die :=
  match d.ring.insts.find? (fun i => i.first = first) with
  | none => d
  | some i =>
    if ((d.ring.newest i.tag).map (·.first)) = some first then
      d.onRing (fun r => { r with locPend := r.locPend ++ [(i.tag, i.locator d.cap)] })
    else d

/-- Forgets segments that are wholly sent, not retained, and not still to be dispatched (R39, R95). -/
def Die.prune (d : Die) : Die :=
  d.onRing (fun r => { r with insts := r.insts.filter (fun i => decide (i.sent < i.beats) || i.retained || i.good) })

/-- Changes the segment whose header is beat first, enters its locator update, and forgets what is no longer needed. -/
def Die.onSeg (d : Die) (first : Nat) (f : Inst → Inst) : Die :=
  ((d.onRing (fun r => { r with insts := r.insts.map (fun i => if i.first = first then f i else i) })).touch first).prune

/-- The locator updates entered in a cycle are written (R37). -/
def Die.flushLoc (d : Die) : Die :=
  (d.ring.locPend.foldl (fun d e => d.putNat (d.ring.locPa + 16 * e.1) 16 e.2) d).onRing (fun r => { r with locPend := [] })

/-- Adds an explicit retention of a record (R381). -/
def Die.keep (d : Die) (first rec : Nat) : Die := d.onSeg first (fun i => { i with kept := rec :: i.kept })
/-- Removes one explicit retention of a record (R381). -/
def Die.unkeep (d : Die) (first rec : Nat) : Die := d.onSeg first (fun i => { i with kept := i.kept.erase rec })
/-- Releases every explicit retention of a record (R381). -/
def Die.releaseRec (d : Die) (rec : Nat) : Die :=
  (d.ring.insts.filter (fun i => i.kept.contains rec)).foldl
    (fun d i => d.onSeg i.first (fun i => { i with kept := i.kept.filter (· ≠ rec) })) d
/-- Adds or removes the retention of a batch (R39). -/
def Die.retain (d : Die) (tag turn : Nat) (add : Bool) : Die :=
  match d.ring.seg? tag turn with
  | none => d
  | some i => d.onSeg i.first (fun i => { i with batches := if add then i.batches + 1 else i.batches - 1 })

/-- Occupancy: beats written and not yet sent (R34). -/
def Ring.occupancy (r : Ring) : Nat := r.written - r.sent
/-- The oldest beat that is retained or unsent (R42). -/
def Ring.oldest (r : Ring) : Nat := (r.insts.filter (·.retained)).foldl (fun m i => min m i.first) r.sent
/-- Free capacity F (R42). -/
def Die.freeCap (d : Die) : Nat := d.cap - (d.ring.written - d.ring.oldest)
/-- The retention entries in use: segments retained whose header beat has been sent (R39). -/
def Ring.entries (r : Ring) : Nat := r.insts.countP (fun i => decide (0 < i.sent) && i.retained)
/-- Whether a die asserts hold because its pier has too little room or no retention entry is free (R42). -/
def Die.holdShort (d : Die) : Bool := decide (d.freeCap < d.margin) || decide (512 ≤ d.ring.entries)
/-- Whether hold is asserted because of retention: without what it retains the die would not assert it (R42, R45). -/
def Die.holdRetain (d : Die) : Bool :=
  (decide (d.freeCap < d.margin) && decide (d.margin + d.ring.occupancy ≤ d.cap)) || decide (512 ≤ d.ring.entries)
/-- Whether a die asserts hold in this cycle (R42). -/
def Die.asserts (d : Die) : Bool := d.vctl 9 || d.holdShort
/-- Whether a hold because of retention is timed now: HOLDF is not set, and repair is not at SWITCH or REBALANCE (R45, R260). -/
def Die.holdTimed (d : Die) : Bool := d.holdRetain && !d.vctl 9 && d.ringState != 3 && d.ringState != 4

/-- The retention deadline of a segment (R40). -/
def Die.retDeadline (d : Die) (i : Inst) : Nat := i.headerAt + d.mode * (d.cap - d.margin)

/-- The dies of the module. -/
def State.allDies (s : State) : List Nat := List.range s.rom.variant.ndie

/-- Whether every die of the ring has inserted all it was to. -/
def State.insertsDone (s : State) : Bool := s.allDies.all (fun g => (s.die g).ring.inserts.isEmpty)

/-- Sets VSTAT.STATE on every die of the ring (R50). -/
def State.setRingState (s : State) (n : Nat) : State :=
  s.m.ringOrder.foldl (fun s g => s.onDie g (·.setField 0x0208 15 12 n)) s

/-- When all insertions are made, an INJECT completes and REINJECT leaves to BYPASSED, or to NORMAL where no switch was made
(R32, R50, R53, R72). -/
def State.insertsEnd (s : State) : State :=
  if !s.insertsDone then s
  else
    let s : State := match s.m.lead.inject with
      | none => s
      | some b =>
        ({ s with m := { s.m with lead := { s.m.lead with inject := none } } }).conclude b 0 false 0 0
    match s.m.ringOrder with
    | [] => s
    | g :: _ =>
      if (s.die g).ringState = 5 then s.setRingState (if s.m.repaired then 6 else 1) else s

/-- The insertions of a die without the one of a segi job that has not begun (R257, R382). -/
def Ring.dropInsert (r : Ring) (c job : Nat) : Ring :=
  { r with inserts := r.inserts.filter (fun x => !(x.byCore == some (c, job) && x.sent == 0)) }
/-- Whether the insertion of a segi job has begun. -/
def Ring.inserting (r : Ring) (c job : Nat) : Bool := r.inserts.any (fun x => x.byCore == some (c, job) && decide (0 < x.sent))

/-- The beats at which the header of (tag, turn) has been written on a die, by its expectation (R97). -/
def Ring.passed (r : Ring) (tag turn : Nat) : Bool :=
  match r.expect with
  | none => false
  | some (t, n) =>
    let d := (n + 2 ^ 32 - turn % 2 ^ 32) % 2 ^ 32
    if d = 0 then decide (tag < t) else decide (d < 2 ^ 31)

end Sys2Proof.Machine
end

