-- ==== Sys2Proof/Machine/Sched.lean ====
section
/-! DEFINITION. Records, batches and slots: arbitration, start, context save and restore, retirement, kill and teardown,
dispatch on headers, launch end (R85 to R104, R257, R261, R262). -/

namespace Sys2Proof.Machine

/-- The cores of a die. -/
def coresOf (g : Nat) : List Nat := (List.range 64).map (g * 64 + ·)

/-- The numbers and records of a launch. -/
def State.recsOf (s : State) (l : Nat) : List (Nat × Rec) := s.m.recs.filter (fun e => e.2.launch = l)

/-- Whether a die's ring time has passed a deadline (R48, R98). -/
def Die.isLate (d : Die) (deadline : Nat) : Bool := decide (deadline < d.ringt.toNat)

/-- The key of a record, smallest first (R98). -/
def State.recKey (s : State) (r : Rec) : List Nat :=
  let l := s.launch? r.launch
  [if r.late then 1 else 0, r.deadline, 3 - (l.map (·.prio)).getD 0, (l.map (·.order)).getD 0, r.index]

/-- Lexicographic order of keys. -/
def keyLt : List Nat → List Nat → Bool
  | a :: r, b :: t => decide (a < b) || (a = b && keyLt r t)
  | _, _ => false

/-- The ready record of a core with the smallest key; of two with one key, which the spec does not order (two batches of one
record), the one made ready first: DESIGN CHOICE (R98; log 28). -/
def State.best (s : State) (c : Nat) : Option (Nat × Rec) :=
  (s.m.recs.filter (fun e => e.2.core = c && e.2.state = .ready && !e.2.faulted)).foldl
    (fun b e => match b with
      | none => some e
      | some x => if keyLt (s.recKey e.2) (s.recKey x.2) then some e else b) none

/-- Raises and withdraws the pre-emption requests of a core: a ready record asks when its key is smaller than the running
record's, and its request stands until it leaves the ready set (R99). -/
def State.arbitrate (s : State) (c : Nat) : State :=
  match s.runningRec c with
  | none => s.onCore c (fun k => { k with preempt := none, asks := [] })
  | some (_, r) =>
    let ready := s.m.recs.filter (fun e => e.2.core = c && e.2.state = .ready && !e.2.faulted)
    let old := (s.core c).asks.filter (fun a => ready.any (fun e => e.1 = a.1))
    let new := (ready.filter (fun e => keyLt (s.recKey e.2) (s.recKey r) && !old.any (fun a => a.1 = e.1))).map
      (fun e => (e.1, s.keyc c))
    s.onCore c (fun k => { k with asks := old ++ new, preempt := ((old ++ new).head?).map (·.2) })

/-- Makes a record of a launch ready on its core (R89, R95, R103): trip is the resolved trip count. -/
def State.makeReady (s : State) (launch index : Nat) (raw : Rec512) (c deadline : Nat) (batch : Option Nat)
    (tag turn n : Nat) : State :=
  let trip := if bits raw 383 352 = 0 then n else bits raw 383 352
  let r : Rec :=
    { launch := launch, index := index, raw := raw, core := c, state := .ready, deadline := deadline, batch := batch,
      tag := tag, turn := BitVec.ofNat 64 turn, trip := trip, iters := 0, fresh := true,
      late := (s.die (dieOf c)).isLate deadline, cond := none, ioDone := 0, cancel := false, faulted := false }
  let i := s.m.nextRec
  ({ s with m := { s.m with recs := tabPut i r s.m.recs, nextRec := i + 1 } }).arbitrate c

/-- The key of a slot copy: launch, die and slot. -/
def slotKey (l g n : Nat) : Nat := l * 2 ^ 16 + g * 2 ^ 12 + n
/-- The scheduler's copy of a slot (R92). -/
def State.slot (s : State) (l g n : Nat) : SlotCopy :=
  tabGet { stage := 0, ovr := false, missed := false, state := 0, seqid := 0 } (slotKey l g n) s.m.slots
/-- The instance that a slot has missed at its batch's retirement noted, or forgotten (R97). -/
def State.skipSlot (s : State) (l g n : Nat) (x : Option (Nat × Nat)) : State :=
  { s with m := { s.m with slots := tabPut (slotKey l g n) { s.slot l g n with skip := x } s.m.slots } }

/-- The VA of a slot's entry (R91). -/
def Launch.slotAt (ln : Launch) (g n : Nat) : Nat := (tabGet 0 g ln.slotVa).toNat + 32 * n

/-- The fault that reading a slot's entry raises: a word of it is uncorrectable (R5, R21). -/
def State.slotBad (s : State) (ln : Launch) (g n : Nat) : Option FaultInfo :=
  match s.readVa g true (ln.slotAt g n) 32 with
  | .ok _ => none
  | .error f => if f.1 = .eccUncorrectable then some { code := f.1, cause := f.2, kind := 4 } else none

/-- A slot entry with an uncorrectable word is reported to the lantern core, and the launch that it serves, whose work it affects,
is marked to end with FAULT at the end of the cycle; no logical core is named (R5, R21, R69; log 27). -/
def State.slotFault (s : State) (l : Nat) (ln : Launch) (g : Nat) (f : FaultInfo) : State :=
  (s.raiseFor g (g * 64) none f none none 0).setLaunch l
    { ln with fault := some (ln.fault.getD (f.code.num, 0)), tearing := some (ln.tearing.getD 0) }

/-- A slot entry as it stands: the RW fields in the Dome with the scheduler's own fields over them (R92). -/
def State.slotEntry (s : State) (l : Nat) (ln : Launch) (g n bucket : Nat) : BitVec 256 :=
  let c := s.slot l g n
  let at_ := ln.slotAt g n
  let e : BitVec 256 := BitVec.ofNat 256 (natOfBytes ((List.range 32).map (fun i =>
    match s.locate g true false false (at_ + i) with
    | .ok p => s.byteAt p.1 (at_ + i)
    | .error _ => 0)))
  let e := setBits e 95 80 c.stage
  let e := setBits e 78 77 ((if c.ovr then 2 else 0) + (if c.missed then 1 else 0))
  setBits e 68 0 (bucket * 2 ^ 66 + c.state * 2 ^ 64 + c.seqid.toNat)

/-- Writes a slot entry: the scheduler's copy of its own fields, and the whole entry in the Dome (R92). -/
def State.writeSlot (s : State) (l : Nat) (ln : Launch) (g n : Nat) (e : BitVec 256) : State :=
  let c : SlotCopy :=
    { s.slot l g n with
      stage := bits e 95 80, ovr := e.getLsbD 78, missed := e.getLsbD 77, state := bits e 65 64,
      seqid := BitVec.ofNat 64 (bits e 63 0) }
  let s := { s with m := { s.m with slots := tabPut (slotKey l g n) c s.m.slots } }
  match s.writeVa g true (ln.slotAt g n) (bytesOfNat 32 e.toNat) with
  | .ok t => t
  | .error _ => s

/-- Changes a slot entry. -/
def State.onSlot (s : State) (l : Nat) (ln : Launch) (g n bucket : Nat) (f : BitVec 256 → BitVec 256) : State :=
  s.writeSlot l ln g n (f (s.slotEntry l ln g n bucket))

/-- STATE of a slot entry set. -/
def slotState (e : BitVec 256) (v : Nat) : BitVec 256 := setBits e 65 64 v

/-- The bucket counts of a launch's slots on a die (R91). -/
def State.buckets (s : State) (ln : Launch) (g : Nat) : List Nat :=
  match s.image? ln.image, ln.logicalDie g with
  | some i, some d => i.bucketCounts d
  | _, _ => [0, 0, 0, 0]
/-- The number of a launch's slots on a die. -/
def State.slotCount (s : State) (ln : Launch) (g : Nat) : Nat := (s.buckets ln g).foldl (· + ·) 0

/-- A slot freed to EMPTY, in the scheduler's copy and in the Dome (R76, R92, R94). -/
def State.freeSlot (s : State) (l : Nat) (ln : Launch) (g n : Nat) : State :=
  if (s.slot l g n).state = 0 then s
  else (s.onSlot l ln g n (bucketOf (s.buckets ln g) n) (slotState · 0)).skipSlot l g n none
/-- The slots that have been written of a launch on some dies: die and slot. -/
def State.slotsOn (s : State) (l : Nat) (on : Nat → Bool) : List (Nat × Nat) :=
  (s.m.slots.filter (fun e => e.1 / 2 ^ 16 = l && on (e.1 / 2 ^ 12 % 16))).map (fun e => (e.1 / 2 ^ 12 % 16, e.1 % 2 ^ 12))
/-- Frees the slots of a launch on some dies. -/
def State.freeSlots (s : State) (l : Nat) (on : Nat → Bool) : State :=
  match s.launch? l with
  | none => s
  | some ln => (s.slotsOn l on).foldl (fun s e => s.freeSlot l ln e.1 e.2) s

/-- Miss(s) of R95. -/
def State.missSlot (s : State) (l : Nat) (ln : Launch) (g n bucket : Nat) : State :=
  (s.onSlot l ln g n bucket (fun e => setBits (slotState e 2) 77 77 1)).onDie g (·.count 0x0708 63 48 1)

/-- The slots that dispatched batches of a launch hold on a die (R92, R93). -/
def State.heldSlots (s : State) (l g : Nat) : List Nat :=
  (s.m.batches.filter (fun b => b.2.launch = l && b.2.die = g)).flatMap (fun b => b.2.slots)

/-- The effective deadline of a slot (R92). -/
def effDeadline (ln : Launch) (e : BitVec 256) : Nat :=
  if bits e 191 128 != 0 then bits e 191 128 else if ln.deadline != 0 then ln.deadline else 2 ^ 64 - 1

/-- The records of a tag on a die: index, record and core (R90). -/
def State.localRecs (s : State) (ln : Launch) (g t : Nat) : List (Nat × Rec512 × Nat) :=
  match s.image? ln.image with
  | none => []
  | some i =>
    let e := i.tagVec t
    let rs := i.records
    (List.range (tvNrec e)).filterMap (fun j =>
      let n := tvRec0 e + j
      (rs[n]?).bind (fun r => (ln.placeOf (bits r 447 432)).bind (fun c =>
        if dieOf c = g then some (n, r, c) else none)))

/-- Inserts a slot in ascending order of effective deadline and index (R95). -/
def insertSlot (x : Nat × Nat) : List (Nat × Nat) → List (Nat × Nat)
  | [] => [x]
  | y :: r => if keyLt [x.1, x.2] [y.1, y.2] then x :: y :: r else y :: insertSlot x r

/-- Dispatch of one launch on a checked header (R95, R96). DEDUCED (log 22): slots that a dispatched batch holds are no
candidates, since each waits for the instance that R97 gives it at the batch's retirement, and without a candidate nothing is
dispatched. -/
def State.dispatchLaunch (s : State) (g : Nat) (i : Inst) (l : Nat) (ln : Launch) : State :=
  let recs := s.localRecs ln g i.tag
  match s.image? ln.image with
  | none => s
  | some im =>
    let counts := s.buckets ln g
    let held := s.heldSlots l g
    let bk (n : Nat) : Nat := bucketOf counts n
    if recs.isEmpty then s
    else
      let e := im.tagVec i.tag
      let cand := (List.range (s.slotCount ln g)).filter (fun n =>
        let c := s.slot l g n
        c.stage = i.tag && (c.state = 1 || c.state = 2) && !held.contains n && c.skip != some (i.tag, i.turn))
      match cand.findSome? (s.slotBad ln g) with
      | some f => s.slotFault l ln g f
      | none =>
      let s := cand.foldl (fun s n => s.onSlot l ln g n (bk n) (slotState · 1)) s
      let order := (cand.map (fun n => (effDeadline ln (s.slotEntry l ln g n (bk n)), n))).foldr insertSlot []
      let batch := (order.take (tvBlim e)).map (·.2)
      let s := ((order.drop (tvBlim e)).map (·.2)).foldl (fun s n => s.missSlot l ln g n (bk n)) s
      match batch with
      | [] => s
      | b0 :: _ =>
        let trips (r : Rec512) : Nat := if bits r 383 352 = 0 then batch.length else bits r 383 352
        let bgt := tvBudf e + (recs.map (fun r => bits r.2.1 351 320 * trips r.2.1 % 2 ^ 64)).foldl max 0
        let d := s.die g
        if d.retDeadline i < d.keyc + bgt then batch.foldl (fun s n => s.missSlot l ln g n (bk n)) s
        else
          let s := s.onDie g (·.retain i.tag i.turn true)
          let s := batch.foldl (fun s n => s.onSlot l ln g n (bk n) (fun e => setBits e 77 77 0)) s
          let dl := effDeadline ln (s.slotEntry l ln g b0 (bk b0))
          let bn := s.m.nextBatch
          let first := s.m.nextRec
          let b : Batch :=
            { launch := l, die := g, tag := i.tag, turn := i.turn, slots := batch,
              entries := batch.map (fun n => s.slotEntry l ln g n (bk n)),
              recs := (List.range recs.length).map (first + ·), killed := false, cancelled := false }
          let s := { s with m := { s.m with batches := tabPut bn b s.m.batches, nextBatch := bn + 1 } }
          recs.foldl (fun s r => s.makeReady l r.1 r.2.1 r.2.2 dl (some bn) i.tag i.turn batch.length) s

/-- The active launches in start order (R95). -/
def State.activeLaunches (s : State) : List (Nat × Launch) :=
  let l := s.m.launches.filter (fun e => e.2.active)
  (l.map (fun e => (e.2.order, e.1))).foldr insertSlot [] |>.filterMap (fun x => (s.launch? x.2).map (fun ln => (x.2, ln)))

/-- The next tag after t in turn order with records on a die (R97). -/
def State.nextTag (s : State) (ln : Launch) (g t : Nat) : Nat :=
  let n := (s.die g).lastTag + 1
  (((List.range n).map (fun k => (t + 1 + k) % n)).find? (fun u => !(s.localRecs ln g u).isEmpty)).getD t

/-- The update of one slot when its batch has retired (R97, R103). -/
def State.retireSlot (s : State) (b : Batch) (ln : Launch) (n : Nat) : State :=
  let bk := bucketOf (s.buckets ln b.die) n
  let e := s.slotEntry b.launch ln b.die n bk
  match (if b.killed || b.cancelled then none else s.slotBad ln b.die n) with
  | some f => s.slotFault b.launch ln b.die f
  | none =>
  if b.killed then s.writeSlot b.launch ln b.die n (slotState e 3)
  else if b.cancelled then s
  else if bucketLimit bk < bits e 127 96 then s.writeSlot b.launch ln b.die n (setBits (slotState e 3) 78 78 1)
  else if e.getLsbD 79 then s.writeSlot b.launch ln b.die n (slotState e 3)
  else
    let t := s.nextTag ln b.die b.tag
    let s := s.writeSlot b.launch ln b.die n (setBits (setBits e 95 80 t) 77 77 0)
    let turn := (if b.tag < t then b.turn else b.turn + 1) % 2 ^ 32
    if (s.die b.die).ring.passed t turn then (s.missSlot b.launch ln b.die n bk).skipSlot b.launch b.die n (some (t, turn)) else s

/-- The updates of a batch whose records have all ended: its slots, then its retention (R97, R103). -/
def State.endBatch (s : State) (bn : Nat) : State :=
  match s.m.batches.find? (fun e => e.1 = bn) with
  | none => s
  | some (_, b) =>
    if b.recs.all (fun n => (s.record? n).all (·.final)) then
      let s := { s with m := { s.m with batches := tabDel bn s.m.batches } }
      let s := match s.launch? b.launch with
        | none => s
        | some ln => b.slots.foldl (fun s n => s.retireSlot b ln n) s
      s.onDie b.die (·.retain b.tag b.turn false)
    else s

/-- Ends a launch: its command completes, and its slot tables are unmapped (R69, R72, R91, R104). -/
def State.endLaunch (s : State) (l : Nat) (ln : Launch) : State :=
  let status := if ln.fault.isSome then 7 else if ln.tearing.isSome then 6 else 0
  let r1 := match ln.fault with | none => 0 | some (code, lcn) => code + lcn * 2 ^ 16
  let s := s.setLaunch l { ln with active := false }
  let s := ln.slotVa.foldl (fun s e =>
    let pages := ceilDiv (32 * s.slotCount ln e.1) (2 ^ 16)
    let p := e.2.toNat / 2 ^ 16
    let own (x : Nat × Word) : Bool := decide (p ≤ x.1) && decide (x.1 < p + pages)
    s.onDie e.1 (fun d =>
      { d with
        tlb := d.tlb.filter (fun x => !own x)
        reserved := d.reserved.filter (fun r => !(d.tlb.filter own).any (fun x => lPpn x.2 = r.1)) })) s
  match s.m.lead.busy.find? (fun b => b.order = l) with
  | none => s
  | some b => s.conclude b status ln.late (s.die 0).keyc r1

/-- Whether a SLOT_WRITE for a launch is pending (R104). -/
def State.writesPending (s : State) (l : Nat) : Bool :=
  s.m.lead.busy.any (fun b => pktOpc b.packet = 8 && b.target == some l)

/-- The end conditions of a launch (R76, R104); marker: a turn marker of die 0. -/
def State.checkLaunch (s : State) (l : Nat) (marker : Bool) : State :=
  match s.launch? l with
  | none => s
  | some ln =>
    if !ln.active then s
    else
      let allFinal := (s.recsOf l).all (·.2.final)
      let slotted := ((s.image? ln.image).map (·.hasSlots)).getD false
      let slots := s.m.slots.filter (fun e => e.1 / 2 ^ 16 = l)
      if ln.tearing.isSome then (if allFinal then s.endLaunch l ln else s)
      else if !slotted then (if allFinal then s.endLaunch l ln else s)
      else if marker && allFinal && !s.writesPending l && slots.all (fun e => e.2.state = 0) && ln.filled then
        s.endLaunch l ln
      else s

/-- The record completion of a record with CPL (R70). -/
def State.recCompletion (s : State) (r : Rec) (status code : Nat) : State :=
  match s.launch? r.launch with
  | none => s
  | some ln =>
    if !recCpl r.raw then s
    else
      let lcn := bits r.raw 447 432
      s.post { status := status, opc := 0xFF, sq := ln.queue, late := (s.die (dieOf r.core)).isLate r.deadline,
               super := false, cid := ln.cid, result0 := lcn,
               result1 := r.index * 2 ^ 32 + (if status = 7 then code + lcn * 2 ^ 16 else 0) }

/-- A record reaches a final state: its retentions are released, its completion is written, and its batch and launch are
seen to (R70, R97, R103, R104). -/
def State.finalRec (s : State) (n : Nat) (r : Rec) (st : RecState) (status code : Nat) : State :=
  let late := (s.die (dieOf r.core)).isLate r.deadline
  let s := s.setRecord n { r with state := st, cond := none }
  let s := (s.onDie (dieOf r.core) (·.releaseRec n)).arbitrate r.core
  let s := s.recCompletion r status code
  let s : State := if st = RecState.retired && late then
      let s := s.onDie (dieOf r.core) (·.count 0x0708 47 32 1)
      match s.launch? r.launch with | none => s | some ln => s.setLaunch r.launch { ln with late := true }
    else s
  let s : State := match r.batch with
    | none => s
    | some bn =>
      let s : State := match s.m.batches.find? (fun e => e.1 = bn) with
        | none => s
        | some (_, b) =>
          let b : Batch :=
            { b with killed := b.killed || decide (st = RecState.killed), cancelled := b.cancelled || decide (st = RecState.cancelled) }
          { s with m := { s.m with batches := tabPut bn b s.m.batches } }
      s.endBatch bn
  s.checkLaunch r.launch false

/-- The core once its record has left it. -/
def Core.leave (k : Core) : Core :=
  { k with running := none, stopAt := none, unresumable := false, preempt := none, asks := [], stopReq := none, saving := none,
           a := { k.a with wait := none, captured := none }, x := { k.x with wait := none, captured := none } }

/-- Takes a record off its core: the sequencers leave their groups (R120). -/
def State.vacate (s : State) (c : Nat) : State := ((s.onCore c (·.leave)).leaveGroup ⟨c, .a⟩).leaveGroup ⟨c, .x⟩

/-- Whether engine commands of a record are queued or in progress; io: those of the I/O engine count too (R87, R99,
R301). -/
def Core.engBusy (k : Core) (n : Nat) (io : Bool) : Bool :=
  (List.range 8).any (fun e =>
    (io || e != 7)
      && ((k.engQueue e).any (fun c => c.ofRec = n) || (k.jobsOf e).any (fun j => j.cmd.ofRec = n)))

/-- Whether results of store accesses of a core are still on their way. -/
def Core.storing (k : Core) : Bool :=
  k.pend.any (fun p => match p.tgt with | .bytes .. | .lanes .. => true | _ => false)

/-- Whether every access of a core has been performed and its side log is empty (R87, R155). -/
def State.accessesDone (s : State) (c : Nat) : Bool :=
  let k := s.core c
  k.sideLog.isEmpty && k.repliesWritten && !s.m.reqs.any (fun r => r.core = c) && !k.storing

/-- Whether RECORD_RETIRE may happen on a core (R87). -/
def State.canRetire (s : State) (c : Nat) : Bool :=
  let k := s.core c
  match k.running with
  | none => false
  | some n => k.a.ended.isSome && k.x.ended.isSome && k.saving.isNone && k.stopAt.isNone && !k.engBusy n true && s.accessesDone c

/-- The active launch that a SLOT_WRITE or SLOT_READ named when it started (R72). -/
def State.targetOf (s : State) (b : Busy) : Option (Nat × Launch) :=
  b.target.bind (fun l => (s.launch? l).bind (fun ln => if ln.active then some (l, ln) else none))

/-- Writes the answer of a SLOT_READ to host memory (R72, R74); an entry that cannot be read ends its launch, and the read with it
(R5; log 27). -/
def State.answerRead (s : State) (b : Busy) : State :=
  let g := s.localDie (pkt b.packet 24 2)
  match s.targetOf b, g with
  | some (l, ln), some g =>
    let n := pkt b.packet 26 2
    let e := s.slotEntry l ln g n (bucketOf (s.buckets ln g) n)
    match s.slotBad ln g n with
    | some f => (s.slotFault l ln g f).conclude b 6 false 0 0
    | none =>
    let s := { s with m := { s.m with host := writeNat s.m.host (pkt b.packet 32 8) 32 e.toNat } }
    s.conclude b 0 false 0 0
  | _, _ => s.conclude b 6 false 0 0

/-- Whether a SLOT_READ waits for an earlier SLOT_WRITE of its slot (R74). -/
def State.readWaits (s : State) (b : Busy) : Bool :=
  (s.m.lead.busy.takeWhile (·.order ≠ b.order)).any (fun x => pktOpc x.packet = 8
    && x.target == b.target && pkt x.packet 24 4 = pkt b.packet 24 4)

/-- Answers the SLOT_READs that wait for nothing (R74). -/
def State.answerReads (s : State) : State :=
  s.m.lead.busy.foldl (fun s b => if pktOpc b.packet = 9 && !s.readWaits b then s.answerRead b else s) s

/-- The completion of commands that wait: SLOT_READ, SIGNAL, FENCE, TEARDOWN, RESET_QUEUE (R72, R74, R76). -/
def State.settle (s : State) : State :=
  s.answerReads.m.lead.busy.foldl
    (fun s b =>
      let ovr (p : Nat → Launch → Bool) : Bool :=
        s.m.launches.all (fun e => !p e.1 e.2 || (!e.2.active
          && (s.m.slots.filter (fun x => x.1 / 2 ^ 16 = e.1)).all (fun x => x.2.state = 0)))
      match pktOpc b.packet with
      | 0x0B => if (s.m.lead.busy ++ s.m.lead.waiting).all (fun x => x.queue ≠ b.queue || decide (b.order ≤ x.order)) then
          s.conclude b 0 false 0 0 else s
      | 0x0C => if ovr (fun n l => l.queue = pkt b.packet 16 1 && decide (n < b.order)) then
          s.conclude b 0 false 0 0 else s
      | 0x0D => if ovr (fun n _ => b.target == some n) then s.conclude b 0 false 0 0 else s
      | 0x0A => if b.seen.any (fun x => decide (x.2 ≤ s.keyc x.1)) then s.conclude b 0 false 0 0 else s
      | _ => s) s.answerReads

/-- RECORD_RETIRE (R87, R97, R98, R104). -/
def execRecordRetire (c : Nat) (s : State) : Out :=
  if s.frozen (clusterOf c) then .fault .notEnabled else
  if !s.canRetire c then .fault .notEnabled
  else
    match s.runningRec c with
    | none => .fault .notEnabled
    | some (n, r) => .next (((s.vacate c).finalRec n r .retired 0 0).settle)

/-- The bytes of a sequencer's scalars as a context holds them: s0, s30 and s31 as zero (R261). -/
def Seq.ctxScalars (q : Seq) : List Byte :=
  (List.range 32).flatMap (fun n => bytesOfNat 8 (if n = 30 ∨ n = 31 then 0 else (q.s (BitVec.ofNat 5 n)).toNat))
/-- The 128 bytes of predicates, branch targets and loop registers (R261); targets are 8 bytes each. -/
def Seq.ctxRest (q : Seq) : List Byte :=
  bytesOfNat 8 q.predBits.toNat ++ (List.range 4).flatMap (fun n => bytesOfNat 8 (q.btv (BitVec.ofNat 2 n)).toNat)
    ++ [q.l0.lc.toNat, q.l0.ls.toNat, q.l0.le.toNat, q.l1.lc.toNat, q.l1.ls.toNat, q.l1.le.toNat].flatMap (bytesOfNat 8)
    ++ bytesOfNat 40 ((if q.l0.active then 1 else 0) + (if q.l1.active then 2 else 0))

/-- The bytes of the batch area (R96). -/
def batchArea : Nat := 0x1FF000

/-- The bytes of a core-store bank that are part of a context: all but the batch area, which is not saved (R96, R261). -/
def ctxBytes (b : Nat) : Nat := if b = 15 then batchArea - b * 2 ^ 17 else 2 ^ 17

/-- The 128 KiB of a core-store bank as a context holds them; the batch area stands as zero (R96, R261; log 28). -/
def Core.ctxBank (k : Core) (b : Nat) : List Byte :=
  readBytes k.store (b * 2 ^ 17) (ctxBytes b) ++ List.replicate (2 ^ 17 - ctxBytes b) 0

/-- The uncorrectable error in the rows and banks that a context save reads (R21, R262). -/
def State.ctxEcc (s : State) (c : Nat) (r : Rec) : Option Nat :=
  let nrow := bits r.raw 303 288
  let row0 := bits r.raw 271 256
  ((if nrow = 0 then none else s.eccRange (c, { acc := true, lo := row0, hi := row0 + nrow - 1, write := false })).orElse fun _ =>
    s.eccBytes c (((List.range 16).filter (fun b => r.raw.getLsbD (400 + b))).map
      (fun b => (b * 2 ^ 17, ctxBytes b))))

/-- The context of a record in the layout of R261. -/
def State.context (s : State) (c : Nat) (r : Rec) : List Byte :=
  let k := s.core c
  let w (l : List Word) : List Byte := l.flatMap (fun v => bytesOfNat 8 v.toNat)
  let rows := (List.range (bits r.raw 303 288)).flatMap (fun i => bytesOfNat 1024 (k.row (bits r.raw 271 256 + i)).toNat)
  let banks := ((List.range 16).filter (fun b => r.raw.getLsbD (400 + b))).flatMap k.ctxBank
  w [BitVec.ofNat 64 r.iters, BitVec.ofNat 64 r.trip, BitVec.ofNat 64 (s.keyc c), k.stage &&& 0xFFFFFFFF, 0, 0, 0, 0]
    ++ k.a.ctxScalars ++ k.a.ctxRest ++ k.x.ctxScalars ++ k.x.ctxRest
    ++ w [k.vwb, k.vtype, k.vrm, k.vclb, k.mstamp, 0, 0, 0]
    ++ (List.range 7).flatMap (fun i => bytesOfNat 64 (k.mask (BitVec.ofNat 3 (i + 1))).toNat)
    ++ (List.range 16).flatMap (fun i => bytesOfNat 64 (k.descr (BitVec.ofNat 4 i)).toNat)
    ++ w ((List.range 8).map k.counter)
    ++ w ((List.range 8).map k.issueNo) ++ w ((List.range 8).map k.doneNo)
    ++ w ((List.range 16).map k.bfmtOf) ++ List.replicate (0x1000 - 0xA80) 0 ++ rows ++ banks

/-- Whether CONTEXT_SAVE may complete on a core: the record's engine commands are complete, but for the I/O engine's at a
yield, its accesses are done, and the save has taken its cycles; a record stopped for a teardown is not saved (R76, R99,
R155, R262, R301). -/
def State.canSave (s : State) (c : Nat) : Bool :=
  let k := s.core c
  match k.saving, s.runningRec c with
  | some t, some (n, r) =>
    k.stopAt.isNone && !k.engBusy n r.cond.isNone && s.accessesDone c
      && (r.cancel || (!k.pend.any (fun p => match p.tgt with | .kset .. | .kadd .. => false | _ => true)
          && decide (max t k.lastDone + ctxCost r.raw ≤ s.keyc c)))
  | _, _ => false

/-- A context save or restore that faults: the record is killed, or its launch for XLATE_MISS (R262). -/
def State.ctxFault (s : State) (c n : Nat) (r : Rec) (f : FaultCode × Nat) (va acc : Nat) : State :=
  let p := s.faultPlace (dieOf c) { code := f.1, cause := f.2, va := va, acc := acc, kind := 4 }
  let s := s.raiseFor p.1 c (some n) p.2 none none 0
  let s : State := match s.launch? r.launch with
    | none => s
    | some ln =>
      let ln := { ln with fault := some (ln.fault.getD (f.1.num, bits r.raw 447 432)) }
      s.setLaunch r.launch (if f.1 = .xlateMiss then { ln with tearing := some (ln.tearing.getD 0) } else ln)
  (s.vacate c).finalRec n { r with faulted := true } .killed 7 f.1.num

/-- CONTEXT_SAVE, whose words must be readable (R21): the context is written to CTX, and the record returns to the ready set or waits; a cancelled record, or
one whose launch is being torn down, is cancelled (R76, R99, R101, R103, R105). -/
def execContextSave (c : Nat) (s : State) : Out :=
  if s.frozen (clusterOf c) then .fault .notEnabled else
  if !s.canSave c then .fault .notEnabled
  else
    match s.runningRec c with
    | none => .fault .notEnabled
    | some (n, r) =>
      if r.cancel then .next (((s.vacate c).finalRec n r .cancelled 6 0).settle)
      else
        let va := bits r.raw 511 448
        let out : Except (FaultCode × Nat) State := match s.ctxEcc c r with
          | some e => .error (.eccUncorrectable, e)
          | none => s.writeDome (dieOf c) (s.rom.secureCore c) va (s.context c r)
        match out with
        | .error f => .next ((s.ctxFault c n r f va 2).settle)
        | .ok t =>
          let t := t.onDie (dieOf c) (·.count 0x0708 31 16 1)
          let r := { r with fresh := false, ioDone := (s.core c).doneNo 7 }
          let t := (t.vacate c).setRecord n { r with state := if r.cond.isSome then .waiting else .ready }
          if ((s.launch? r.launch).bind (·.tearing)).isSome then .next ((t.finalRec n r .cancelled 6 0).settle)
          else .next (t.arbitrate c)

/-- A sequencer q as a record's first run sets it; its loop registers keep their values, no loop active (R88). -/
def startSeq (q : Seq) (r : Rec) (sd : Side) (s1 stage arg larg slots : Word) (group now : Nat) : Seq :=
  let sect := if recPro r.raw then Section.prologue else Section.kernel
  { Seq.init with
    l0 := { q.l0 with active := false }
    l1 := { q.l1 with active := false }
    pc := sectAddr r.raw sd sect
    sect := sect
    regs := [(1, s1), (2, stage), (3, r.turn), (4, arg), (5, larg), (6, slots)].filter (fun e => e.2 ≠ 0)
    group := group
    nextIssue := now }

/-- Loads the batch area of a core from its batch block; what it holds past the block's entries is zero: DESIGN CHOICE, the spec
is silent (R96; log 28). -/
def State.loadBatch (s : State) (c : Nat) (r : Rec) : State :=
  match r.batch.bind (fun bn => (s.m.batches.find? (fun e => e.1 = bn)).map (·.2)) with
  | none => s
  | some b =>
    let block := (List.zip b.entries b.slots).flatMap (fun e =>
      bytesOfNat 32 e.1.toNat ++ bytesOfNat 32 e.2)
    s.onCore c (·.putBytes batchArea (block ++ List.replicate (4096 - block.length) 0))

/-- Whether a result goes to what the first run of a record sets and the restore of a context writes: it is the earlier record's,
and the next one does not see it (R88, R112, R261). -/
def Target.ofRecord : Target → Bool
  | .sreg .. | .pred .. | .bt .. | .desc .. => true
  | .sys _ r => r = 0x012 || (0x030 ≤ r && r < 0x034)
  | .kset i _ | .kadd i | .post i => decide (i < 8)
  | _ => false

/-- Whether a result goes to what the restore of a context writes beside that: masks, loop registers, and the rows, formats and
banks that the record names (R261). -/
def Target.ofContext (raw : Rec512) : Target → Bool
  | .lmask _ => true
  | .sys _ r => (0x020 ≤ r && r < 0x026) || (decide (0x040 ≤ r) && raw.getLsbD (400 + (r - 0x040)))
  | .row n _ => decide (bits raw 271 256 ≤ n) && decide (n < bits raw 271 256 + bits raw 303 288)
  | _ => false

/-- The core set up for a record's first run (R88). -/
def State.firstRun (s : State) (c n : Nat) (r : Rec) (ln : Launch) (group : Nat) : State :=
  let batch := (r.batch.bind (fun bn => (s.m.batches.find? (fun e => e.1 = bn)).map (·.2)))
  let cnt : Word := match batch with | none => 1 | some b => BitVec.ofNat 64 b.slots.length
  let stage : Word := if r.batch.isSome then BitVec.ofNat 64 r.tag else 0x10000
  let now := s.ccyc c
  s.onCore c (fun k =>
    { k with
      a := startSeq k.a r .a cnt stage (BitVec.ofNat 64 (bits r.raw 63 0)) ln.arg (tabGet 0 (dieOf c) ln.slotVa) group now
      x := startSeq k.x r .x cnt stage (BitVec.ofNat 64 (bits r.raw 63 0)) ln.arg (tabGet 0 (dieOf c) ln.slotVa) group now
      vwb := 0, vrm := 0, mstamp := 0, desc := [], vtype := 0, vclb := 0x7F7FFFFF, issued := [], completed := []
      k := k.k.filter (fun e => 8 ≤ e.1)
      detmode := if ln.det then 1 else 0
      stage := stage
      running := some n
      pend := k.pend.filter (fun p => !p.tgt.ofRecord) })

/-- A sequencer restored from the bytes of a context (R261); it goes on with its next kernel iteration. -/
def restoreSeq (r : Rec) (sd : Side) (b : Tab Byte) (scal rest group now : Nat) : Seq :=
  let w (a : Nat) : Word := BitVec.ofNat 64 (readNat b a 8)
  let lv (a : Nat) (act : Bool) : LoopLevel :=
    { lc := w a, ls := (w (a + 8)).truncate 21, le := (w (a + 16)).truncate 21, active := act }
  let fin := decide (r.iters = r.trip)
  { Seq.init with
    pc := sectAddr r.raw sd (if fin then .epilogue else .kernel)
    sect := if fin then .epilogue else .kernel
    iter := r.iters
    ended := if fin && !recEpi r.raw then some .retired else none
    regs := ((List.range 32).map (fun n => (n, w (scal + 8 * n)))).filter (fun e => e.2 ≠ 0)
    p := BitVec.ofNat 8 (readNat b rest 1)
    bt := ((List.range 4).map (fun n => (n, (w (rest + 8 + 8 * n)).truncate 21))).filter (fun e => e.2 ≠ 0)
    l0 := lv (rest + 40) ((readByte b (rest + 88)).getLsbD 0)
    l1 := lv (rest + 64) ((readByte b (rest + 88)).getLsbD 1)
    group := group
    nextIssue := now }

/-- The core with a record's context restored (R261, R262): it issues after the restore's cycles. Results of an earlier record that
are still on their way do not fall on what is restored. -/
def State.resumeRun (s : State) (c n : Nat) (r : Rec) (ln : Launch) (group : Nat) (ctx : List Byte) : State :=
  let b : Tab Byte := writeBytes [] 0 ctx
  let w (a : Nat) : Word := BitVec.ofNat 64 (readNat b a 8)
  let tab (a m : Nat) : Tab Word := ((List.range m).map (fun i => (i, w (a + 8 * i)))).filter (fun e => e.2 ≠ 0)
  let now := s.ccyc c + ctxCost r.raw
  let nrow := bits r.raw 303 288
  let row0 := bits r.raw 271 256
  let banks := (List.range 16).filter (fun i => r.raw.getLsbD (400 + i))
  s.onCore c (fun k =>
    let k := { k with pend := k.pend.filter (fun p => !p.tgt.ofRecord && !p.tgt.ofContext r.raw) }
    let k := { k with store := k.pend.foldl applyBytes k.store
                      pend := k.pend.filter (fun p => match p.tgt with | .bytes .. | .lanes .. => false | _ => true) }
    let k := (List.range nrow).foldl
      (fun (k : Core) i => k.putRow (row0 + i) (BitVec.allOnes 8192) (readRow b (0x1000 + 1024 * i))) k
    let k := (banks.zipIdx).foldl
      (fun (k : Core) e => k.putBytes (e.1 * 2 ^ 17) (readBytes b (0x1000 + 1024 * nrow + e.2 * 2 ^ 17) (ctxBytes e.1))) k
    { k with
      a := restoreSeq r .a b 0x40 0x140 group now
      x := restoreSeq r .x b 0x1C0 0x2C0 group now
      stage := BitVec.ofNat 64 (readNat b 24 4)
      vwb := w 0x340, vtype := w 0x348, vrm := w 0x350, vclb := w 0x358, mstamp := w 0x360
      masks := ((List.range 7).map (fun i => (i + 1, BitVec.ofNat 512 (readNat b (0x380 + 64 * i) 64)))).filter (fun e => e.2 ≠ 0)
      desc := ((List.range 16).map (fun i => (i, BitVec.ofNat 512 (readNat b (0x540 + 64 * i) 64)))).filter (fun e => e.2 ≠ 0)
      k := tab 0x940 8 ++ k.k.filter (fun e => 8 ≤ e.1)
      issued := tab 0x980 8, completed := tab 0x9C0 8
      bfmt := banks.foldl (fun t i => tabPut i (w (0xA00 + 8 * i)) t) k.bfmt
      detmode := if ln.det then 1 else 0
      running := some n })

/-- The bytes of a record's context. -/
def ctxLen (raw : Rec512) : Nat := 0x1000 + 1024 * bits raw 303 288 + 2 ^ 17 * onesCount 16 (bits raw 415 400)

/-- RECORD_START: a free core takes its ready record with the smallest key; its registers are set, or its context is
restored, and its batch area is loaded; both sequencers form a new group (R88, R96, R98, R120, R261). -/
def execRecordStart (c : Nat) (s : State) : Out :=
  if s.frozen (clusterOf c) then .fault .notEnabled else
  if (s.core c).running.isSome then .fault .notEnabled
  else
    match s.best c with
    | none => .fault .notEnabled
    | some (n, r) =>
      match s.launch? r.launch with
      | none => .fault .notEnabled
      | some ln =>
        let cl := clusterOf c
        let group := (s.cluster cl).nextGroup
        let s := s.onCluster cl (fun x => { x with nextGroup := group + 1 })
        if r.fresh then
          .next (((s.setRecord n { r with state := .running }).firstRun c n r ln group).loadBatch c r |>.arbitrate c)
        else
          let va := bits r.raw 511 448
          match s.readDome (dieOf c) (s.rom.secureCore c) va (ctxLen r.raw) with
          | .error f => .next ((s.ctxFault c n r f va 1).settle)
          | .ok ctx =>
            .next ((((s.setRecord n { r with state := .running }).resumeRun c n r ln group ctx).loadBatch c r).retiring c |>.arbitrate c)

/-- PLIM as it acts (R105). -/
def Die.plim (d : Die) : Nat := max 4096 (bits (d.reg 0x0700) 63 32)

/-- Whether PREEMPT_LIMIT is due on a core: its request or stop, or the save or retirement it led to, is older than PLIM (R100). It
is not raised against a record that is stopped for another fault, but as soon as that record goes on: DESIGN CHOICE (R251, R253;
log 28). -/
def State.limitDue (s : State) (c : Nat) : Bool :=
  let k := s.core c
  let old (t : Option Nat) : Bool := match t with | some t => decide (t + (s.die (dieOf c)).plim < s.keyc c) | none => false
  k.running.isSome && k.stopAt.isNone && !k.unresumable && (old k.preempt || old k.stopReq)

/-- PREEMPT_LIMIT: the running record faults and is stopped where it stands; it cannot be resumed (R100). -/
def execPreemptLimit (c : Nat) (s : State) : Out :=
  if !s.limitDue c then .fault .notEnabled
  else
    let s := s.raiseFor (dieOf c) c (s.core c).running { code := .preemptLimit, kind := 4 } none none 0
    let s := s.onDie (dieOf c) (·.count 0x0708 15 0 1)
    .next (s.onCore c (fun k => { k with unresumable := true }))

/-- Whether the condition a record waits for holds (R101, R301). -/
def State.yieldMet (s : State) (r : Rec) : Bool :=
  r.state = .waiting
    && (match r.cond with
        | some (.counter k v) => decide (v.toNat ≤ ((s.core r.core).counter k).toNat)
        | some (.engineDone _ v) => decide (v.toNat ≤ r.ioDone.toNat)
        | _ => true)

/-- YIELD_CONDITION_MET (R101). -/
def execYieldConditionMet (n : Nat) (s : State) : Out :=
  match s.record? n with
  | none => .fault .notEnabled
  | some r =>
    if s.yieldMet r then .next ((s.setRecord n { r with state := .ready, cond := none }).arbitrate r.core)
    else .fault .notEnabled

/-- Whether a record becomes late now (R98). -/
def State.turnsLate (s : State) (r : Rec) : Bool :=
  !r.late && !r.final && (s.die (dieOf r.core)).isLate r.deadline

/-- RECORD_LATE: the record's key class changes, which may raise a pre-emption request (R98, R99). -/
def execRecordLate (n : Nat) (s : State) : Out :=
  match s.record? n with
  | none => .fault .notEnabled
  | some r =>
    if s.turnsLate r then .next ((s.setRecord n { r with late := true }).arbitrate r.core) else .fault .notEnabled

/-- Ends a core's started copy job of a killed record at its next run boundary (R257). -/
def State.killCopy (s : State) (c : Nat) (j : Job) : State :=
  let s := if j.st = .running then s.finishRun c j else s
  (releaseCopy s c j).onCore c (·.dropJob j)

/-- The issuer under which an engine's job of a core holds footprints and cards. -/
def engIssuer (c e : Nat) : Issuer :=
  match e with
  | 0 => .copy c
  | 1 => .matrix c
  | 2 => .encoder (dieOf c)
  | 3 => .truss (clusterOf c)
  | 4 => .decode (clusterOf c)
  | 5 => .walker (clusterOf c)
  | 6 => .viaduct (dieOf c)
  | _ => .io (dieOf c)

/-- Takes an engine's job that will not go on from its core, with its footprints, its card and its insertion. -/
def State.removeJob (s : State) (c : Nat) (j : Job) : State :=
  ((s.dropAll (clusterOf c) (engIssuer c j.eng) j.id).onDie (dieOf c) (fun d =>
    (d.dropCards (engIssuer c j.eng) j.id).onRing (·.dropInsert c j.id))).onCore c (·.dropJob j)

/-- Ends a job of a killed record: a copy at its next run boundary, a phase of the Truss at its row, an insertion that has begun
when it is whole, and what a decode engine, a walker, the encoder or the I/O engine has started at its own next end; what has not
started, has missed or has faulted goes (R257). -/
def State.killJob (s : State) (c : Nat) (j : Job) : State :=
  if j.eng = 0 then s.killCopy c j
  else if j.st != .running then s.removeJob c j
  else if j.eng = 3 then (if j.released then (s.closePhase (clusterOf c) j).onCore c (·.dropJob j) else s.removeJob c j)
  else if j.eng = 6 && !(s.die (dieOf c)).ring.inserting c j.id then (s.removeJob c j).insertsEnd
  else s

/-- Discards the engine work of a record: its queued commands and its jobs (R257). -/
def State.dropWork (s : State) (c n : Nat) : State :=
  let s := s.onCore c (fun k =>
    { k with engQ := k.engQ.map (fun e => (e.1, e.2.filter (fun x => x.ofRec ≠ n))) })
  let s := ((s.core c).jobs.filter (fun j => j.cmd.ofRec = n)).foldl
    (fun s j => s.killJob c j) s
  let s := s.onDie (dieOf c) (fun d => { d with encQ := d.encQ.filter (· ≠ c) })
  let s := s.onCluster (clusterOf c) (fun x => { x with trussQ := x.trussQ.filter (· ≠ c) })
  s.onCore c (fun k => { k with engHold := k.engHold.filter (fun e => (k.jobsOf e).any (fun j => j.st = .faulted)) })

/-- Discards the accesses of a killed record that are in the side log, and abandons its requests (R154, R257). -/
def State.dropAccesses (s : State) (c n : Nat) : State :=
  let s := { s with m := { s.m with reqs := s.m.reqs.filter (fun (r : Req) => !(r.core = c && r.ofRec = some n && r.at_ = ReqAt.logged)) } }
  s.onCore c (fun k => { k with sideLog := [], queues := [] })

/-- The freeze causes of a core are abandoned (R117, R258). -/
def State.dropCauses (s : State) (c : Nat) : State :=
  s.onCluster (clusterOf c) (fun x => { x with causes := x.causes.filter (fun f => f.served || f.core ≠ c) })

/-- Kills a record for a fault (R103, R154, R257). -/
def State.killRec (s : State) (n : Nat) (code : Nat) : State :=
  match s.record? n with
  | none => s
  | some r =>
    if r.final then s
    else
      let s := s.dropWork r.core n
      let s := if (s.core r.core).running = some n then ((s.dropAccesses r.core n).dropCauses r.core).vacate r.core else s
      let s := match s.launch? r.launch with
        | none => s
        | some ln => s.setLaunch r.launch { ln with fault := some (ln.fault.getD (code, bits r.raw 447 432)) }
      s.finalRec n r .killed 7 code

/-- Asks a record to stop for a teardown: a ready or waiting one is cancelled at once, a running one at its next kernel
boundary, a saving one when its save completes, a retiring one retires; from then on its time counts (R76, R100, R103). -/
def State.stopRec (s : State) (n : Nat) : State :=
  match s.record? n with
  | none => s
  | some r =>
    match r.state with
    | .ready | .waiting => s.finalRec n r .cancelled 6 0
    | .running | .saving | .retiring =>
      (s.setRecord n { r with cancel := r.cancel || decide (r.state = .running) }).onCore r.core
        (fun k => { k with stopReq := some (k.stopReq.getD (s.keyc r.core)) })
    | _ => s

/-- Cancels what waits for a launch that is torn down: its SLOT_WRITEs complete CANCELLED (R76). -/
def State.cancelWrites (s : State) (l : Nat) : State :=
  (s.m.lead.busy.filter (fun b => pktOpc b.packet = 8 && b.target == some l)).foldl (fun s b => s.conclude b 6 false 0 0) s

/-- Tears a launch down (R76); where no ring runs, its slots are free at once. -/
def State.tearLaunch (s : State) (l : Nat) : State :=
  match s.launch? l with
  | none => s
  | some ln =>
    if !ln.active then s
    else
      let s := s.setLaunch l { ln with tearing := some 1 }
      let s := s.cancelWrites l
      let s := (s.recsOf l).foldl (fun s e => s.stopRec e.1) s
      (s.freeSlots l (fun g => (s.die g).mode = 0)).checkLaunch l false

/-- Tears a launch down for a fault: records with a fault against them are killed, the others stopped (R142, R257). -/
def State.faultLaunch (s : State) (l code : Nat) : State :=
  match s.launch? l with
  | none => s
  | some ln =>
    let hit := (s.recsOf l).filter (fun e =>
      e.2.faulted || ((s.core e.2.core).running = some e.1 && s.isStopped e.2.core))
    let lcn := match hit with | [] => 0 | e :: _ => bits e.2.raw 447 432
    let s := s.setLaunch l { ln with tearing := some 1, fault := some (ln.fault.getD (code, lcn)) }
    let s := hit.foldl (fun s e => s.killRec e.1 code) s
    s.tearLaunch l

/-- Applies one pending SLOT_WRITE at a turn marker, unless a dispatched batch holds the slot (R74, R93). -/
def State.applyWrite (s : State) (g : Nat) (b : Busy) : State :=
  match s.targetOf b with
  | none => s.conclude b 6 false 0 0
  | some (l, ln) =>
    let n := pkt b.packet 26 2
    if (s.heldSlots l g).contains n then s
    else
      let e : BitVec 256 := BitVec.ofNat 256 (bits b.packet 511 256)
      let later := (s.m.lead.busy.dropWhile (·.order ≠ b.order)).tail.any (fun x => pktOpc x.packet = 8
        && x.target == some l && pkt x.packet 24 4 = pkt b.packet 24 4)
      let s := (s.writeSlot l ln g n (setBits e 78 77 0)).skipSlot l g n none
      let s := s.setLaunch l { ln with filled := ln.filled || bits e 65 64 != 0 }
      s.conclude { b with super := later } 0 false 0 0

/-- The turn marker of a die: pending SLOT_WRITEs in start order, then the slots of torn-down launches whose records have
stopped (R94). -/
def State.turnMarker (s : State) (g : Nat) : State :=
  let here (b : Busy) : Bool := pktOpc b.packet = 8 && s.localDie (pkt b.packet 24 2) = some g
  let s := (s.m.lead.busy.filter here).foldl (fun s b => s.applyWrite g b) s
  let s := s.answerReads
  let stopped (l : Nat) : Bool :=
    match s.launch? l with
    | none => true
    | some ln => (ln.tearing.isSome || !ln.active) && (s.recsOf l).all (fun e => dieOf e.2.core != g || e.2.final)
  let s := (s.m.launches.filter (fun e => stopped e.1)).foldl (fun s e => s.freeSlots e.1 (· = g)) s
  let s := if g = 0 then s.m.launches.foldl (fun s e => s.checkLaunch e.1 true) s else s
  s.settle

/-- The segment whose header a die's tile scheduler has still to take: the oldest checked one not yet dispatched. -/
def Ring.undispatched (r : Ring) : Option Inst := r.insts.find? (fun i => i.good)

/-- TILE_DISPATCH: the tile scheduler takes one checked header, launch by launch in start order (R95, R105). -/
def execTileDispatch (g : Nat) (s : State) : Out :=
  match (s.die g).ring.undispatched with
  | none => .fault .notEnabled
  | some i =>
    let s := s.onDie g (fun d => d.onRing (fun r =>
      { r with insts := r.insts.map (fun x => if x.first = i.first then { x with good := false } else x) }))
    let s := if ((s.die g).reg 0x0700).getLsbD 0 then
        s.activeLaunches.foldl (fun s e => if e.2.tearing.isSome then s else s.dispatchLaunch g i e.1 e.2) s
      else s
    .next (s.onDie g (·.prune))

end Sys2Proof.Machine
end

