-- ==== Sys2Proof/Machine/Viaduct.lean ====
section
/-! DEFINITION. The Viaduct weight ring: links, beats, headers, hold, control beats, insertion, the segment instructions
(R28 to R45, R48, R52, R53, R56, R380 to R383). -/

namespace Sys2Proof.Machine

/-- The last die of the module. -/
def State.lastDie (s : State) : Nat := s.rom.variant.ndie - 1

/-- The die after a die for the control beats of boot, before any ring is configured: the next die that runs Mepen, over the
span or else the chord (R25, R56, log 25). -/
def State.bootNext (s : State) (g : Nat) : Nat × Link :=
  let n := s.rom.variant.ndie
  let a := (g + 1) % n
  let b := (g + 2) % n
  let live (x : Nat) : Bool := s.rom.up.contains x && !s.m.excluded.contains x
  if s.trained a .spanIn && live a then (a, .spanIn)
  else if s.trained b .chordIn && live b then (b, .chordIn)
  else (a, .spanIn)

/-- Whether the configured ring is one of several modules: its internal ring is open (R13, R46). -/
def State.manyModules (s : State) : Bool := s.m.ringOrder.any (fun g => (s.die g).vctl 10)

/-- The die that a die's weight egress lands on and the link it arrives by; none where it leaves the module (R7, R13, R47,
R57). -/
def State.downstream (s : State) (g : Nat) : Option (Nat × Link) :=
  let d := s.die g
  let n := s.rom.variant.ndie
  if s.m.ringOrder.isEmpty then some (s.bootNext g)
  else if d.vctl 12 then none
  else if d.vctl 13 then (if g + 2 < n || !d.vctl 10 then some ((g + 2) % n, .chordIn) else none)
  else if g + 1 = n ∧ d.vctl 10 then none
  else some ((g + 1) % n, .spanIn)

/-- The die of this module whose weight egress lands on a die: one of the ring, or before any is configured one that runs
Mepen. -/
def State.upstream (s : State) (g : Nat) : Option Nat :=
  findFrom (fun u => (s.downstream u).any (fun x => x.1 = g)
    && (if s.m.ringOrder.isEmpty then s.rom.up.contains u && !s.m.excluded.contains u else s.m.ringOrder.contains u))
    0 s.rom.variant.ndie

/-- The measured latency of a link of a die (R57). -/
def Die.latOf (d : Die) (l : Link) : Nat := ((d.linkOf l).map (·.lat)).getD 1

/-- Puts a beat on the weight link downstream of a die: it arrives after the link's latency (R33, R35). -/
def State.sendBeat (s : State) (g : Nat) (b : Beat) : State :=
  match s.downstream g with
  | none => s
  | some (t, l) => s.onDie t (fun d => d.onRing (fun r => { r with link := r.link ++ [(d.keyc + d.latOf l, b)] }))

/-- What comes to die 0 of the module after a control beat has left it: a version range that the other modules narrow and ring
time that they raise by amounts the model leaves free. With the origin in another module (home false) the token has passed the
origin, and what comes next is the token that follows it, or the end of the command (R48, R56; log 29). -/
def Token.abroad (f : Row) (home : Bool) (ndie : Nat) : Token → Token
  | .version lo hi e =>
    let lo' := max lo (bits f 7 0)
    let hi' := min hi (bits f 15 8)
    let e' := if e.isNone && decide (hi' < lo') then some (ndie + bits f 25 16) else e
    if home then .version lo' hi' e' else if lo' ≤ hi' then .commit hi' else .back e'
  | .ring v => if home then .ring (v + bits f 63 32) else .back none
  | .commit v => if home then .commit v else .ring (bits f 191 128)
  | t => t

/-- Puts a control beat on the weight link downstream of a die; the slot in which it is forwarded counts in the link's
latency (R48, R56, log 23). After one that leaves the module another comes to die 0 by bridge-in after an open time (log 29). -/
def State.sendToken (s : State) (g : Nat) (t : Token) : State :=
  match s.downstream g with
  | none =>
    let f := s.freeValue
    let home := s.m.ringOrder.any (fun g => (s.die g).vctl 11)
    f.2.onDie 0 (fun d => d.onRing (fun r =>
      { r with tokens := r.tokens ++ [(d.keyc + d.latOf .bridgeIn + bits f.1 95 64, t.abroad f.1 home s.rom.variant.ndie)] }))
  | some (n, l) => s.onDie n (fun d => d.onRing (fun r => { r with tokens := r.tokens ++ [(d.keyc + d.latOf l, t)] }))

/-- Whether a beat may come to die 0 from another module in this beat slot of its bridge (R13, R33). -/
def State.bridgeDue (s : State) : Bool :=
  let d := s.die 0
  s.manyModules && s.m.ringOrder.contains 0 && d.mode != 0 && decide (d.ring.bridgeAt ≤ d.keyc)

/-- A beat of another module comes to die 0 by bridge-in, a header or a payload beat with contents the model leaves free (R13;
log 29). -/
def bridgeBeat (s : State) : Out :=
  if !s.bridgeDue then .fault .notEnabled
  else
    let f := s.freeValue
    let h := f.2.freeValue
    let g := h.2.freeValue
    let v : BitVec 16384 := h.1.setWidth 16384 ||| (g.1.setWidth 16384 <<< 8192)
    let b : Beat := { kind := if f.1.getLsbD 0 then 1 else 2, tag := bits v 15 0, turn := bits v 63 32, data := v }
    .next (g.2.onDie 0 (fun d => d.onRing (fun r =>
      { r with link := r.link ++ [(d.keyc, b)], bridgeAt := d.keyc + d.mode })))

/-- A hold value of another module comes to the last die by bridge-out in this cycle (R43; log 29). -/
def bridgeHold (s : State) : Out :=
  let n := s.lastDie
  if s.manyModules && s.m.ringOrder.contains n && !(s.die n).ring.holdIn.any (fun e => decide ((s.die n).keyc ≤ e.1))
      && !(s.die n).ring.held then
    let f := s.freeValue
    .next (f.2.onDie n (fun d => d.onRing (fun r => { r with holdIn := r.holdIn ++ [(d.keyc, 1 + bits f.1 15 0 % s.m.ringN)] })))
  else .fault .notEnabled

/-- The tag after a tag in turn order (R31). -/
def Die.nextTagOf (d : Die) (t : Nat) : Nat := if t = d.lastTag then 0 else t + 1
/-- The tag before a tag in turn order. -/
def Die.prevTagOf (d : Die) (t : Nat) : Nat := if t = 0 then d.lastTag else t - 1

/-- Whether a tag and turn lie in the range of VDROP (R52, R57). -/
def Die.inDrop (d : Die) (tag turn : Nat) : Bool :=
  let v := d.reg 0x0230
  let t := bits v 63 32
  let lo := bits v 15 0
  let hi := bits v 31 16
  if lo ≤ hi then turn == t && decide (lo ≤ tag) && decide (tag ≤ hi)
  else (turn == t && decide (lo ≤ tag)) || (turn == (t + 1) % 2 ^ 32 && decide (tag ≤ hi))

/-- Whether a tag and turn come after the range of VDROP in turn order (R52). -/
def Die.pastDrop (d : Die) (tag turn : Nat) : Bool :=
  let v := d.reg 0x0230
  let hi := bits v 31 16
  let t := if bits v 15 0 ≤ hi then bits v 63 32 else (bits v 63 32 + 1) % 2 ^ 32
  let n := (turn + 2 ^ 32 - t) % 2 ^ 32
  if n = 0 then decide (hi < tag) else decide (n < 2 ^ 31)

/-- The header H of a beat (R28). -/
def Beat.head (b : Beat) : BitVec 256 := b.data.setWidth 256
/-- TAG of a header. -/
def hTag (h : BitVec 256) : Nat := bits h 15 0
/-- TURN. -/
def hTurn (h : BitVec 256) : Nat := bits h 63 32
/-- LEN. -/
def hLen (h : BitVec 256) : Nat := bits h 95 64
/-- FMT. -/
def hFmt (h : BitVec 256) : Nat := bits h 103 96
/-- PCRC. -/
def hPcrc (h : BitVec 256) : Nat := bits h 159 128
/-- HCRC. -/
def hCrc (h : BitVec 256) : Nat := bits h 255 224

/-- A header with its HCRC for a protocol version: zero at version 1 (R29). -/
def sealHeader (ver : Nat) (h : BitVec 256) : BitVec 256 :=
  setBits h 255 224 (if ver < 2 then 0 else crc32c (bytesOfNat 28 h.toNat))

/-- The header of an inserted segment (R28, R53). -/
def Die.makeHeader (d : Die) (tag turn len fmt pcrc : Nat) : BitVec 256 :=
  sealHeader d.ver (BitVec.ofNat 256 (pcrc * 2 ^ 128 + fmt * 2 ^ 96 + len * 2 ^ 64 + turn % 2 ^ 32 * 2 ^ 32 + 2 ^ 17
    + (if tag = d.lastTag then 2 ^ 16 else 0) + tag))

/-- The address of byte o of the payload that a home inserts; a far segment's bytes are in the home's staging buffer, used as a
circle of 64 MiB (R53). -/
def State.insertAt (s : State) (g : Nat) (x : Insertion) (o : Nat) : Nat :=
  if x.far then (s.die g).ring.staging + (x.va + o) % 2 ^ 26 else x.va + o

/-- n bytes of the payload that a home inserts from byte o on, as they are stored (R53). -/
def State.insertBytes (s : State) (g : Nat) (x : Insertion) (o n : Nat) : List Byte :=
  (List.range n).map (fun i =>
    match s.locate g true false false (s.insertAt g x (o + i)) with
    | .ok l => s.byteAt l.1 (s.insertAt g x (o + i))
    | .error _ => 0)

/-- The fault of reading what the next beat of an insertion is made of: the payload beat, and with the header of a segi, for its
PCRC, the whole payload (R21, R53, R382). -/
def State.insertFault (s : State) (g : Nat) (x : Insertion) : Option FaultInfo :=
  let r : Nat × Nat := if x.sent = 0 then (0, if x.far then 0 else x.beats * 2048) else ((x.sent - 1) * 2048, 2048)
  (List.range r.2).findSome? (fun i =>
    match s.locate g true true false (s.insertAt g x (r.1 + i)) with
    | .ok _ => none
    | .error f => some { code := f.1, cause := f.2, va := s.insertAt g x (r.1 + i), acc := 1 })

/-- The beat that an insertion sends next; the header's PCRC is that of the payload, for a far segment as IMG holds it (R29,
R53). -/
def State.insertBeat (s : State) (g : Nat) (x : Insertion) (turn : Nat) : Beat :=
  let d := s.die g
  if x.sent = 0 then
    let len := x.beats * 2048
    let l := if x.far then (s.readVa g true (segImg (d.segEntry x.tag)) len).toOption.getD [] else s.insertBytes g x 0 len
    let h := d.makeHeader x.tag turn len x.fmt (crc32c l)
    { kind := 1, tag := x.tag, turn := turn, data := h.setWidth 16384 }
  else
    { kind := 2, tag := x.tag, turn := turn,
      data := BitVec.ofNat 16384 (natOfBytes (s.insertBytes g x ((x.sent - 1) * 2048) 2048)) }

/-- Whether an insertion may send in this slot: it has begun, or the segment before it has just left; the first into an empty
ring waits for a slot with no unsent beat (R53). -/
def Die.mayInsert (d : Die) (x : Insertion) : Bool :=
  if 0 < x.sent then true
  else if x.first then d.ring.occupancy == 0
  else match d.ring.lastSent with
    | some (t, _, 0) => t == d.prevTagOf x.tag
    | _ => false

/-- Whether an insertion's next beat is available: a header whose payload can be read, or a payload beat that is staged
(R53). -/
def State.insertReady (s : State) (g : Nat) (x : Insertion) : Bool :=
  if x.sent = 0 then
    !x.far || (s.readVa g true (segImg ((s.die g).segEntry x.tag)) (x.beats * 2048)).toOption.isSome
  else decide (x.sent ≤ x.staged)

/-- TURN of an insertion: the reference's for a segi; else that of the segment before it as the home sends it, or VSTAT.TURN
in an empty ring, plus 1 for tag 0 (R53, R382). -/
def Die.insertTurn (d : Die) (x : Insertion) : Nat :=
  if x.byCore.isSome || 0 < x.sent then x.turn
  else
    let base := match x.first, d.ring.lastSent with
      | false, some (_, t, _) => t
      | _, _ => bits (d.reg 0x0208) 63 32
    (base + (if x.tag = 0 then 1 else 0)) % 2 ^ 32

/-- One beat of the insertion at the head of a die's list is sent (R53, R382). -/
def State.sendInsert (s : State) (g : Nat) (x : Insertion) : State :=
  let turn := (s.die g).insertTurn x
  let s := s.sendBeat g (s.insertBeat g x turn)
  let x' := { x with sent := x.sent + 1, turn := turn }
  let done := decide (x.beats < x'.sent)
  let s := s.onDie g (fun d => d.onRing (fun r =>
    { r with
      inserts := if done then r.inserts.tail else x' :: r.inserts.tail
      lastSent := some (x.tag, turn, x.beats - x.sent)
      usedBytes := if x.far && 0 < x.sent then r.usedBytes + 2048 else r.usedBytes }))
  if !done then s
  else
    match x.byCore with
    | none => s.insertsEnd
    | some (c, id) =>
      s.onCore c (fun k => { k with jobs := k.jobs.map (fun (j : Job) =>
        if j.id = id ∧ j.eng = 6 then { j with aux := [1] } else j) })

/-- The ring goes to DOWN: the weight lanes stop and the launches that use it end (R50, R93). DESIGN CHOICE (log 13): an INJECT in
progress completes RINGSTATE, which R71 and R72 leave open. -/
def State.ringDown (s : State) : State :=
  let s := s.setRingState 7
  let s := s.m.ringOrder.foldl (fun s g => s.onDie g (fun d =>
    (d.setField 0x0200 15 14 0).onRing (fun r => { r with link := [], inserts := [], holdIn := [] }))) s
  let s := { s with m := { s.m with failing := [] } }
  let s : State := match s.m.lead.inject with
    | none => s
    | some b => ({ s with m := { s.m with lead := { s.m.lead with inject := none } } }).conclude b 9 false 0 0
  let s := (s.m.lead.busy.filter (fun b => pktOpc b.packet = 8)).foldl (fun s b => s.conclude b 9 false 0 0) s
  let uses (l : Launch) : Bool := match s.image? l.image with
    | none => false
    | some i => i.hasSlots || !(i.entries 7 16).isEmpty
  (s.m.launches.filter (fun e => e.2.active && uses e.2)).foldl (fun s e => s.tearLaunch e.1) s

/-- The insertion at the head of a die's list meets a word or a page that it cannot read. A segi stops with the fault, and the beats
it has not sent are lost (R259). For what a home has staged, an uncorrectable word is reported and sent as it is stored, for
PCRC to find (R259); the answer is the state and whether the beat is sent. A staging page that is gone is as a page of IMG:
DEDUCED (log 41) the ring goes to DOWN. -/
def State.failInsert (s : State) (g : Nat) (x : Insertion) (f : FaultInfo) : State × Bool :=
  match x.byCore with
  | none =>
    if f.code = .eccUncorrectable then (s.raiseFor g (g * 64) none { f with kind := 4 } none none 0, true) else (s.ringDown.settle, false)
  | some (c, id) =>
    let s := s.onDie g (fun d => (d.dropCards (.viaduct g) id).onRing (fun r => { r with inserts := r.inserts.tail }))
    match ((s.core c).jobsOf 6).find? (·.id = id) with
    | none => (s, false)
    | some j => ((s.jobFault c 6 j f).insertsEnd, false)

/-- The oldest unsent beat of a die as its pier holds it, with its segment if it belongs to one: an uncorrectable word goes on, for
PCRC or HCRC to find (R32, R259). -/
def State.oldestBeat (s : State) (g : Nat) : Beat × Option Inst :=
  let d := s.die g
  let b := d.ring.sent
  let data : BitVec 16384 := BitVec.ofNat 16384 (readNat d.dome (d.ring.pierPa + b % d.cap * 2048) 2048)
  match d.ring.insts.find? (fun i => decide (i.first ≤ b) && decide (b < i.first + i.written)) with
  | none => ({ kind := 2, tag := 0, turn := 0, data := data }, none)
  | some i => ({ kind := if b = i.first then 1 else 2, tag := i.tag, turn := i.turn, data := data, old := i.old }, some i)

/-- A beat as a die sends it: the origin adds 1 to TURN in a header and recomputes HCRC (R31). DESIGN CHOICE (log 41): also in
a header that failed its check, which R32 forwards unchanged while R31 names every header beat. -/
def Die.asSent (d : Die) (b : Beat) : Beat :=
  if b.kind = 1 ∧ d.vctl 11 then
    let turn := (b.turn + 1) % 2 ^ 32
    let h := sealHeader d.ver (setBits b.head 63 32 (hTurn b.head + 1))
    { b with turn := turn, data := h.setWidth 16384 }
  else if d.vctl 11 then { b with turn := (b.turn + 1) % 2 ^ 32 }
  else b

/-- Whether a segment that is sent shows that the hole has passed: it comes after the range of VDROP (R52). -/
def Die.holePassed (d : Die) (i : Option Inst) : Bool := i.any (fun i => d.pastDrop i.tag i.turn)

/-- The oldest beat leaves the pier: it is sent, or under DROP replaced by an idle beat where its segment is one of the VDROP
range that was in the ring when DROP was set. DEDUCED (log 41): a segment that a home has inserted in place of one has its tag and
turn, and is sent. (R34, R52.) -/
def State.sendOldest (s : State) (g : Nat) : State :=
  let d := s.die g
  let x := s.oldestBeat g
  let drop := d.vctl 8 && (match x.2 with | some i => i.old && d.inDrop i.tag i.turn | none => false)
  let out := d.asSent x.1
  let s := if drop then s else s.sendBeat g out
  s.onDie g (fun d =>
    let d := d.reserveSlices (d.ring.pierPa + d.ring.sent % d.cap * 2048) 2048
    -- DROP ends once the hole has passed: a segment after it goes by
    let d := if d.vctl 8 && !drop && d.holePassed x.2 then d.setField 0x0200 8 8 0 else d
    let d := d.onRing (fun r =>
      { r with
        sent := r.sent + 1
        lastSent := match x.2 with
          | some i => if drop then r.lastSent else some (i.tag, out.turn, i.first + i.beats - 1 - r.sent)
          | none => r.lastSent })
    match x.2 with
    | none => d
    | some i => d.onSeg i.first (fun i => { i with sent := i.sent + 1, dropped := i.dropped || drop }))

/-- Whether a die's beat slot is due (R33). -/
def Die.slotDue (d : Die) : Bool := d.mode != 0 && decide (d.ring.slotAt ≤ d.keyc)

/-- BEAT_SLOT_EGRESS: an insertion's beat, or the oldest unsent beat if occupancy is at least DWELL; an idle beat where hold
has been received or nothing is to be sent (R33, R34, R43, R52, R53). -/
def execBeatSlotEgress (g : Nat) (s : State) : Out :=
  let d := s.die g
  if !d.slotDue then .fault .notEnabled
  else
    let s := s.onDie g (fun d => d.onRing (fun r => { r with slotAt := d.keyc + d.mode }))
    if d.ring.held then .next s
    else
      match d.ring.inserts with
      | x :: _ =>
        if d.mayInsert x && s.insertReady g x then
          match s.insertFault g x with
          | none => .next (s.sendInsert g x)
          | some f => let r := s.failInsert g x f; .next (if r.2 then r.1.sendInsert g x else r.1)
        else if d.mayInsert x then .next s
        else if d.dwell ≤ d.ring.occupancy then .next (s.sendOldest g) else .next s
      | [] => if d.dwell ≤ d.ring.occupancy then .next (s.sendOldest g) else .next s

/-- The beat that has arrived at a die and is to be written (R35, R39); it waits where the pier has no room. -/
def Die.arrived (d : Die) : Option Beat :=
  match d.ring.link with
  | [] => none
  | (t, b) :: _ => if d.mode != 0 && decide (t ≤ d.keyc) && decide (0 < d.freeCap) then some b else none

/-- Writes an arrived beat into the pier. -/
def Die.writeBeat (d : Die) (b : Beat) : Die :=
  let pa := d.ring.pierPa + d.ring.written % d.cap * 2048
  ((d.putNat pa 2048 b.data.toNat).reserveSlices pa 2048).onRing
    (fun r => { r with link := r.link.tail, written := r.written + 1 })

/-- The expectation after the expected header (R32). -/
def Die.advance (d : Die) (e : Nat × Nat) : Nat × Nat :=
  let t := d.nextTagOf e.1
  (t, if t = 0 then (e.2 + 1) % 2 ^ 32 else e.2)

/-- The uncorrectable error in a 16-byte entry of a table of die g at a physical address (R21). -/
def Die.entryEcc (d : Die) (g pa : Nat) : Option Nat := (d.eccAt g pa).or (d.eccAt g (pa + 8))

/-- The uncorrectable error in the segment table entry of a tag (R21, R30). -/
def Die.segEcc (d : Die) (g tag : Nat) : Option Nat :=
  if d.lastTag < tag then none else d.entryEcc g (d.ring.segtPa + 16 * tag)

/-- The checks of a header: HCRC failed, and any other check failed (R32). -/
def Die.headerChecks (d : Die) (h : BitVec 256) : Bool × Bool :=
  let hcrc := decide (2 ≤ d.ver) && hCrc h != crc32c (bytesOfNat 28 h.toNat)
  let e := d.segEntry (hTag h)
  let seq := decide (d.lastTag < hTag h)
    || (match d.ring.expect with | none => false | some x => x != (hTag h, hTurn h))
    || hLen h != segLen e || hFmt h != segFmt e
  (hcrc, seq)

/-- HEADER_BEAT_WRITE: the header beat is written and checked, the expectation and the locator entry updated; a checked
header of tag 0 is the turn marker (R28, R29, R32, R37, R94). A header whose segment table entry is uncorrectable is reported and
not dispatched on (R5, R21; log 27). -/
def execHeaderBeatWrite (g : Nat) (s : State) : Out :=
  let d := s.die g
  match d.arrived with
  | none => .fault .notEnabled
  | some b =>
    if b.kind != 1 then .fault .notEnabled
    else
      let h := b.head
      let chk := d.headerChecks h
      let trust := !chk.1 && decide (hTag h ≤ d.lastTag)
      let who := if trust then (hTag h, hTurn h) else d.ring.expect.getD (hTag h % (d.lastTag + 1), hTurn h)
      let len := if trust then hLen h else segLen (d.segEntry who.1)
      let bad := if chk.1 then none else d.segEcc g (hTag h)
      let good := !chk.1 && !chk.2 && bad.isNone
      let i : Inst :=
        { tag := who.1, turn := who.2, first := d.ring.written, beats := 1 + len / 2048, written := 1, sent := 0,
          headerAt := d.keyc, pcrc := hPcrc h, good := good, reinj := h.getLsbD 17, dropped := false, batches := 0, kept := [],
          old := b.old }
      let expect := if trust then some (d.advance (hTag h, hTurn h)) else d.ring.expect.map d.advance
      let s := s.onDie g (fun d =>
        let d := (d.writeBeat b).onRing (fun r =>
          { r with
            insts := r.insts.map (fun x => if x.written < x.beats then { x with beats := x.written, cut := true } else x) ++ [i]
            expect := expect
            crc := 0xFFFFFFFF })
        let d := d.touch i.first
        let d := d.setField 0x0208 31 16 ((expect.map (·.1)).getD 0)
        let d := if trust && hTag h = 0 then d.setField 0x0208 63 32 (hTurn h) else d
        if chk.1 then d.count 0x0240 31 16 1 else if chk.2 then d.count 0x0240 15 0 1 else d)
      let s : State := match bad with
        | none => s
        | some e => s.raiseFor g (g * 64) none { code := .eccUncorrectable, cause := e, kind := 4 } none none 0
      if good then .next (if who.1 = 0 then s.turnMarker g else s)
      else if !chk.1 && !chk.2 then .next s
      else .next (s.raiseFor g (g * 64) none { code := .ring, cause := if chk.1 then 2 else 3, kind := 4 } none none 0)

/-- The records dispatched on a segment of a die that have not ended (R32). -/
def State.recsOn (s : State) (g : Nat) (i : Inst) : List (Nat × Rec) :=
  s.m.recs.filter (fun e => e.2.batch.isSome && dieOf e.2.core = g && e.2.tag = i.tag && e.2.turn.toNat = i.turn && !e.2.final)

/-- The die that inserts a tag: its home, or if that is not in the ring the next spoke die of the module in ring order that is
(R26, R53). -/
def State.standIn (s : State) (home : Nat) : Option Nat :=
  (s.localDie home).bind (fun h =>
    ((List.range s.rom.variant.ndie).map (fun i => (h + i) % s.rom.variant.ndie)).find?
      (fun g => g % 4 = 0 && s.m.ringOrder.contains g))

/-- Orders the insertion of a tag from the host's image at its home (R53). -/
def State.orderInsert (s : State) (tag : Nat) (first : Bool) : State :=
  match s.m.ringOrder with
  | [] => s
  | o :: _ =>
    let e := (s.die o).segEntry tag
    match s.standIn (segHome e) with
    | none => s
    | some h =>
      s.onDie h (fun d => d.onRing (fun r =>
        { r with inserts := r.inserts ++ [{ tag := tag, turn := 0, beats := segLen e / 2048, fmt := segFmt e, va := 0,
                                            staged := 0, sent := 0, far := true, byCore := none, first := first }] }))

/-- The segments that are in the ring now, in piers or on links, are those that DROP replaces where they lie in the range (R52;
log 41). -/
def State.markOld (s : State) : State :=
  s.allDies.foldl (fun s g => s.onDie g (fun d => d.onRing (fun r => { r with
    insts := r.insts.map (fun i => { i with old := true })
    link := r.link.map (fun e => (e.1, { e.2 with old := true })) }))) s

/-- VDROP and DROP are set on every die of the ring: of the segments that are in the ring now, those of the range are dropped (R50,
R52). -/
def State.setDrop (s : State) (v : Word) : State :=
  (s.m.ringOrder.foldl (fun s g => s.onDie g (fun d =>
    ((d.setReg 0x0230 v).setField 0x0200 8 8 1).onRing (fun r => { r with holed := true }))) s).markOld

/-- Replaces one corrupt segment by drop and insert, without a switch or re-balance; a segment whose home is in another module is
inserted there. While another range is dropped or inserted, nothing is done: the corrupt segment goes on and the next die's check
of PCRC finds it again (R32, R52, R53; log 41). -/
def State.replaceSegment (s : State) (tag turn : Nat) : State :=
  match s.m.ringOrder with
  | [] => s
  | o :: _ =>
    if s.m.ringOrder.any (fun g => (s.die g).vctl 8) || !((s.die o).ringState = 1 || (s.die o).ringState = 6) then s
    else
      let v : Word := BitVec.ofNat 64 (turn * 2 ^ 32 + tag * 2 ^ 16 + tag)
      (((s.setDrop v).setRingState 5).orderInsert tag false).insertsEnd

/-- PAYLOAD_BEAT_WRITE: the beat is written and present; PCRC is checked on the last (R29, R32, R37, R38). -/
def execPayloadBeatWrite (g : Nat) (s : State) : Out :=
  let d := s.die g
  match d.arrived with
  | none => .fault .notEnabled
  | some b =>
    if b.kind != 2 then .fault .notEnabled
    else
      match d.ring.insts.reverse with
      | [] => .next (s.onDie g (·.writeBeat b))
      | i :: _ =>
        if i.beats ≤ i.written then .next (s.onDie g (·.writeBeat b))
        else
          let crc := crcRun (BitVec.ofNat 32 d.ring.crc) (bytesOfNat 2048 b.data.toNat)
          let s := s.onDie g (fun d =>
            ((d.writeBeat b).onRing (fun r => { r with crc := crc.toNat })).onSeg i.first
              (fun i => { i with written := i.written + 1 }))
          if i.written + 1 < i.beats ∨ (~~~ crc).toNat = i.pcrc then .next s
          else
            let s := s.onDie g (·.count 0x0240 47 32 1)
            let s := (s.recsOn g i).foldl (fun s e =>
              s.raiseFor g e.2.core (some e.1) { code := .ring, cause := 1, kind := 4 } none none 0) s
            .next (s.replaceSegment i.tag i.turn)

/-- Sends a hold value upstream: it arrives after the link's hold latency, 1 cycle on spans and chords; one that crosses the
bridge leaves the module (R43; log 29). -/
def State.sendHold (s : State) (g v : Nat) : State :=
  if v = 0 then s
  else
    match s.upstream g with
    | none => s
    | some u => s.onDie u (fun d => d.onRing (fun r => { r with holdIn := r.holdIn ++ [(d.keyc + 1, v)] }))

/-- HOLD_VALUE_RECEIVE: the die sends an idle beat in this slot and forwards max(h − 1, its own assertion) (R43). -/
def execHoldValueReceive (g h : Nat) (s : State) : Out :=
  let d := s.die g
  match d.ring.holdIn with
  | [] => .fault .notEnabled
  | (t, v) :: _ =>
    if v != h || decide (d.keyc < t) then .fault .notEnabled
    else
      let own := if d.asserts then s.m.ringN else 0
      let s := s.onDie g (fun d =>
        (d.onRing (fun r => { r with holdIn := r.holdIn.tail, held := true })).setField 0x0208 3 3 1)
      .next (s.sendHold g (max (h - 1) own))

/-- The hold work of one die at the end of a cycle: an assertion not yet sent goes upstream, VHOLD counts, and VSTAT tells of the
cycle whether the die received a hold and whether it asserted one (R42 to R45, R57). -/
def State.holdCycle (s : State) (g : Nat) : State :=
  let d := s.die g
  let own := d.asserts
  let s := if own && !d.ring.held then s.sendHold g s.m.ringN else s
  s.onDie g (fun d =>
    let was := (d.reg 0x0208).getLsbD 2
    let d := if own then d.count 0x0238 63 32 1 else d
    let d := if own && !was then d.count 0x0238 31 0 1 else d
    let d := d.setField 0x0208 3 2 ((if d.ring.held then 2 else 0) + (if own then 1 else 0))
    let d := d.onRing (fun r =>
      { r with
        held := false
        holdRun := if d.holdTimed then r.holdRun + 1 else 0
        limited := r.limited && d.holdTimed })
    d.flushLoc)

/-- HLIM as it acts (R57). -/
def Die.hlim (d : Die) : Nat := max 4096 (bits (d.reg 0x0200) 63 32)

/-- The oldest retained segment of a die. -/
def Ring.oldestKept (r : Ring) : Option Inst := r.insts.find? (·.retained)

/-- Whether HOLD_LIMIT is due on a die (R45). DESIGN CHOICE (log 41): after one, no further one until the hold because of
retention has ended, whichever segment is then the oldest retained one. -/
def Die.holdDue (d : Die) : Bool :=
  decide (d.hlim < d.ring.holdRun) && d.holdTimed && !d.ring.limited && d.ring.oldestKept.isSome

/-- HOLD_LIMIT: every record that holds retention on the oldest retained segment is stopped; one already stopped gets a
second record, after which only the kills are accepted (R45, R253). -/
def execHoldLimit (g : Nat) (s : State) : Out :=
  let d := s.die g
  match d.ring.oldestKept with
  | none => .fault .notEnabled
  | some i =>
    if !d.holdDue then .fault .notEnabled
    else
      let recs := (i.kept ++ (s.recsOn g i).map (·.1)).eraseDups
      let s := recs.foldl (fun s n =>
        match s.record? n with
        | none => s
        | some r =>
          let second := s.hasStopped r.core (some n)
          let s := s.raiseFor g r.core (some n) { code := .ring, cause := 4, kind := 4, second := second } none none 0
          if !second then s
          else if (s.core r.core).running = some n then s.onCore r.core (fun k => { k with unresumable := true })
          else match s.record? n with
            | none => s
            | some r => s.setRecord n { r with killOnly := true }) s
      .next (s.onDie g (fun d => d.onRing (fun r => { r with limited := true })))

/-- What a segw finds of a reference: it holds, it waits, or a fault (R38, R52, R380). -/
inductive SegAnswer where
  | holds
  | waits
  | stops (f : FaultInfo)
deriving DecidableEq, Repr

/-- The answer of a segment reference on die g: a beat that repair has removed, then an entry in STATE 4, then a beat that has come,
then a later turn (R52, R380); an uncorrectable table word is a fault of the record that waits for it (R21). -/
def Die.segAnswer (d : Die) (g : Nat) (v : Word) : SegAnswer :=
  let tag := bits v 15 0
  let turn := bits v 47 16
  let beat := bits v 62 48
  let e := d.locEntry tag
  let eng : FaultInfo := { code := .engine }
  let same := locTurn e == turn
  let here := same && (decide ((beat + 1) * 2048 ≤ locPresent e) || locState e == 2 || locState e == 3)
  match (d.segEcc g tag).or (if d.lastTag < tag then none else d.entryEcc g (d.ring.locPa + 16 * tag)) with
  | some x => .stops { code := .eccUncorrectable, cause := x }
  | none =>
  if v.getLsbD 63 || decide (d.lastTag < tag) || decide (segLen (d.segEntry tag) / 2048 ≤ beat) then .stops eng
  else if !here && d.ring.holed && d.inDrop tag turn && (d.vctl 8 || d.ring.passed tag turn) then .stops { code := .ring, cause := 5 }
  else if locState e == 4 then .stops eng
  else if here then .holds
  else if decide (0 < (locTurn e + 2 ^ 32 - turn) % 2 ^ 32) && decide ((locTurn e + 2 ^ 32 - turn) % 2 ^ 32 < 2 ^ 31) then .stops eng
  else .waits

/-- segw: the explicit wait on a payload beat (R38, R380). -/
def execSegw (g : BitVec 4) (sv : BitVec 5) : State → Out :=
  issue (.segw g sv) { srcs := [sv] }
    (fun q v s =>
      match (s.die (dieOf q.core)).segAnswer (dieOf q.core) (v.x 0) with
      | .holds => .done (s.leaveGroup q) .next
      | .waits => .wait (.segment (v.x 0))
      | .stops f => .fault f)

/-- segk (R381). -/
def execSegk (g : BitVec 4) (sv : BitVec 5) : State → Out :=
  issueEngine (.segk g sv) 6 [sv] (fun _ _ v => .ok ([v.x 0], []))
/-- segr (R381). -/
def execSegr (g : BitVec 4) (sv : BitVec 5) : State → Out :=
  issueEngine (.segr g sv) 6 [sv] (fun _ _ v => .ok ([v.x 0], []))
/-- Whether a descriptor may not be segi's: it must name the Dome, and it and its parameter record hold no reserved value and fit
its format, where FMT tells it (R231, R233, R234, R325, R382). -/
def segiBad (d prm : Rec512) : Bool :=
  dSpace d != 3 || descBad d false false
    || (if dFmt d = 0xFF then dPrec d != 0 && recordReserved prm else portBad d prm (dFmt d))

/-- segi (R382). -/
def execSegi (g d : BitVec 4) (sv : BitVec 5) : State → Out :=
  issueEngine (.segi g d sv) 6 [sv] (fun s c v =>
    let k := (s.core c).descr d
    let prm := (readRecord (s.core c) k).getD 0 0
    match (s.core c).recordEcc c k (dFmt k) with
    | some e => .error e
    | none => if segiBad k prm then .error { code := .descriptor } else .ok ([v.x 0], [k]))

/-- segt: TURN, NEXTTAG and STATE of VSTAT, with latency 2 (R383). -/
def execSegt (g : BitVec 4) (d : BitVec 5) : State → Out :=
  issue (.segt g d) { dst := some d, lat := 2 }
    (fun q _ s =>
      let v := (s.die (dieOf q.core)).reg 0x0208
      .done (s.writeS q d 2 (setBits v 11 0 0)) .next)

/-- The segi of a job refused with ENGINE: not the tag's home or stand-in, the wrong ring state, or a non-secure launch
(R382). -/
def State.segiBad (s : State) (c : Nat) (cmd : Cmd) (v : Word) : Bool :=
  let g := dieOf c
  let d := s.die g
  let tag := bits v 15 0
  let st := d.ringState
  decide (d.lastTag < tag) || bits v 62 48 != 0 || v.getLsbD 63
    || s.standIn (segHome (d.segEntry tag)) != some g
    || !(st == 5 || ((st == 1 || st == 6) && s.m.lead.inject.isSome))
    || !(((s.record? cmd.ofRec).bind (fun r => s.launch? r.launch)).map (·.secure)).getD false

/-- VIADUCT_ITEM_START: a segk or segr applies its change one cycle after acceptance, and completes at start + 2; a segi
begins its insertion (R381, R382). -/
def execViaductItemStart (c : Nat) (s : State) : Out :=
  if s.frozen (clusterOf c) then .fault .notEnabled else
  let now := s.ccyc c
  let g := dieOf c
  match (s.core c).nextItem 6 now with
  | none => .fault .notEnabled
  | some cmd =>
    let r := s.takeItem c 6 cmd 0
    let s := r.1
    let j := r.2
    let v := cmd.vals.getD 0 0
    let d := s.die g
    let seg := if bits v 62 48 = 0 ∧ v.getLsbD 63 = false then d.ring.seg? (bits v 15 0) (bits v 47 16) else none
    if s.rom.secureUnit g 409 && !s.rom.secureCore c then .next (s.jobFault c 6 j { code := .security })
    else
      match cmd.ins, seg with
      | .segk .., some i =>
        if 1 ≤ i.state ∧ i.state ≤ 3 then
          .next ((s.onDie g (·.keep i.first cmd.ofRec)).onCore c (·.putJob { j with done := now + 2 }))
        else .next (s.jobFault c 6 j { code := .engine })
      | .segr .., some i =>
        if i.kept.contains cmd.ofRec then
          .next ((s.onDie g (·.unkeep i.first cmd.ofRec)).onCore c (·.putJob { j with done := now + 2 }))
        else .next (s.jobFault c 6 j { code := .engine })
      | .segi .., _ =>
        match d.segEcc g (bits v 15 0) with
        | some e => .next (s.jobFault c 6 j { code := .eccUncorrectable, cause := e })
        | none =>
        if s.segiBad c cmd v then .next (s.jobFault c 6 j { code := .engine })
        else
          let tag := bits v 15 0
          let e := d.segEntry tag
          let va := dBase (cmd.descs.getD 0 0)
          let card := [(va, va + segLen e - 1, false)]
          let chk := s.checkCards g (.viaduct g) card
          if !d.cardRoom then .fault .notEnabled
          else if !chk.2 then .next (chk.1.jobFault c 6 j { code := .footprint })
          else
            match s.readDome g (s.rom.secureUnit g 409) va (segLen e) with
            | .error f => .next (s.jobFault c 6 j { code := f.1, cause := f.2, va := va, acc := 1 })
            | .ok _ =>
              let x : Insertion :=
                { tag := tag, turn := bits v 47 16, beats := segLen e / 2048, fmt := segFmt e, va := va,
                  staged := segLen e / 2048, sent := 0, far := false, byCore := some (c, j.id), first := false }
              .next (s.onDie g (fun d =>
                (d.addCards (.viaduct g) j.id card).onRing (fun r => { r with inserts := r.inserts ++ [x] })))
      | _, _ => .next (s.jobFault c 6 j { code := .engine })

/-- The Viaduct item of a core. -/
def Core.viaductJob (k : Core) : Option Job := (k.jobsOf 6).head?

/-- Whether a segk or segr of a core completes in this cycle (R381). -/
def Core.segkDone (k : Core) (now : Nat) : Option Job :=
  k.viaductJob.bind (fun j => if j.st = .running && j.done != 0 && decide (j.done ≤ now) then some j else none)

/-- Whether a segi of a core has sent its last payload beat (R382). -/
def Core.segiDone (k : Core) : Option Job := k.viaductJob.bind (fun j => if j.st = .running && j.aux = [1] then some j else none)

/-- SEGMENT_INSERT_COMPLETE (R382). -/
def execSegmentInsertComplete (c : Nat) (s : State) : Out :=
  if s.frozen (clusterOf c) then .fault .notEnabled else
  match (s.core c).segiDone with
  | none => .fault .notEnabled
  | some j => .next (((s.onDie (dieOf c) (·.dropCards (.viaduct (dieOf c)) j.id)).endJob c 6 j).insertsEnd)

/-- The control beat that has arrived at a die (R56). -/
def Die.token (d : Die) : Option Token :=
  match d.ring.tokens with
  | [] => none
  | (t, k) :: _ => if t ≤ d.keyc then some k else none

/-- The die without its oldest control beat. -/
def Die.dropToken (d : Die) : Die := d.onRing (fun r => { r with tokens := r.tokens.tail })

/-- Whether a module of the configured ring, by its position, has dies in the ring. -/
def State.moduleRuns (s : State) (m : Nat) : Bool :=
  s.m.ringAll.any (fun r => r / s.rom.variant.ndie = m % s.m.modules)

/-- Whether the module of this ring before this one is bypassed as a whole, so that weights come over the bridge chord (R13,
R47). -/
def State.chordedIn (s : State) : Bool :=
  s.manyModules && !s.moduleRuns ((s.die 0).modPos.toNat + s.m.modules - 1)

/-- The link through which weights enter a die: the one its upstream die's egress lands on, or the bridge, or the bridge chord
past a bypassed module (R13, R47, R57). -/
def State.inputLink (s : State) (g : Nat) : Link :=
  match s.upstream g with
  | none => if s.chordedIn then .bridgeChordRx else .bridgeIn
  | some u => match s.downstream u with | some (_, l) => l | none => .spanIn

/-- Whether a die is where a token began: the origin of the ring, or die 0 at boot (R56). -/
def State.tokenHome (s : State) (g : Nat) : Bool := if s.m.lead.config.isSome then (s.die g).vctl 11 else g = 0

/-- KEYC_SYNC_TOKEN: KEYC := the token's value plus the latency of the input link, and the token goes on; die 0, which sent it,
takes it off and the version token follows (R18, R25, R56). -/
def execKeycSyncToken (g : Nat) (s : State) : Out :=
  match (s.die g).token with
  | some (.keyc v) =>
    let s := s.onDie g (·.dropToken)
    if g = 0 then .next (({ s with m := { s.m with bootStep := 8 } } : State).sendToken 0 (.version 1 255 none))
    else
      let l := s.inputLink g
      let s := s.onDie g (fun d => { d with keyc := v + d.latOf l })
      .next (s.sendToken g (.keyc (s.die g).keyc))
  | _ => .fault .notEnabled

/-- RING_SYNC_TOKEN: VKOFS := the token's value + the latency of the input link − KEYC (R48). The origin, to which the token
has returned, takes it off. -/
def State.ringSync (s : State) (g v : Nat) (home : Bool) : State :=
  let s := s.onDie g (·.dropToken)
  if home then s
  else
    let t := v + (s.die g).latOf (s.inputLink g)
    let s := s.onDie g (fun d => d.setReg 0x0250 (BitVec.ofNat 64 t - BitVec.ofNat 64 d.keyc))
    s.sendToken g (.ring t)

end Sys2Proof.Machine
end

