-- ==== Sys2Proof/Machine/Repair.lean ====
section
/-! DEFINITION. Forming the ring at the end of RING_CONFIG, version and commit tokens, link and die failures, bypass repair
and re-injection (R46 to R58). -/

namespace Sys2Proof.Machine

/-- The VA of a Dome offset on a die: its own ring die number in OWNER (R58, R140). -/
def Die.ownVa (d : Die) (off : Nat) : Nat := d.rdie.toNat * 2 ^ 52 + off % 2 ^ 52

/-- The geometry entry of a ring block for a die, by ring die number (R73): VGEOM and flags. -/
def RingCfg.entry (c : RingCfg) (rdie : Nat) : Option (Nat × Nat) :=
  (c.geom.find? (fun e => e / 2 ^ 64 % 2 ^ 16 = rdie)).map (fun e => (e % 2 ^ 64, e / 2 ^ 80 % 256))
/-- Whether a die takes part in a configured ring: listed and not configured as bypassed (R56, R73, log 24). -/
def RingCfg.member (c : RingCfg) (rdie : Nat) : Bool :=
  match c.entry rdie with
  | none => false
  | some e => e.2 / 4 % 2 = 0

/-- Pages of a table of 16-byte entries for every tag (R58). -/
def RingCfg.tablePages (c : RingCfg) : Nat := ceilDiv (16 * (c.lastTag + 1)) (2 ^ 16)
/-- CAP of a VGEOM value. -/
def geomCap (v : Nat) : Nat := v / 2 ^ 19 % 2 ^ 19
/-- DWELL of a VGEOM value. -/
def geomDwell (v : Nat) : Nat := v % 2 ^ 19
/-- MARGIN of a VGEOM value. -/
def geomMargin (v : Nat) : Nat := v / 2 ^ 38 % 2 ^ 12

/-- The pages of a die's ring regions: virtual page, physical page (R36, R58). -/
def RingCfg.pages (c : RingCfg) (d : Die) (vgeom : Nat) : List (Nat × Nat) :=
  let pp := geomCap vgeom / 32
  let tp := c.tablePages
  let pier := 0x4000 - pp
  let seg := pier - tp
  let loc := seg - tp
  let at_ (off i : Nat) : Nat := d.ownVa off / 2 ^ 16 + i
  (List.range (2 * pp)).map (fun i => (at_ c.pier i, pier + i % pp))
    ++ (List.range tp).map (fun i => (at_ c.segt i, seg + i)) ++ (List.range tp).map (fun i => (at_ c.loc i, loc + i))

/-- The leaf entry of a ring region's page: V, R and PIN (R58). -/
def ringLeaf (ppn : Nat) : Word := BitVec.ofNat 64 (2 ^ 63 + 2 ^ 61 + ppn * 2 ^ 16 + 2 ^ 7)

/-- A die without the TLB entries of Dome space and the reserved pages of its ring regions (R58). -/
def Die.unmapRing (d : Die) : Die :=
  if !d.ring.mapped then d
  else
    let lo := d.ring.locPa / 2 ^ 16
    { d with tlb := d.tlb.filter (fun e => !(e.1 / 2 ^ 46 = 0 && !lA e.2 && decide (lo ≤ lPpn e.2) && decide (lPpn e.2 < 0x4000)))
             reserved := d.reserved.filter (fun e => decide (e.1 < lo)), ring := { d.ring with mapped := false } }

/-- A die formed into the ring: geometry, segment table, ring regions, LASTTAG, MODE and the state NORMAL (R50, R56,
R58). -/
def RingCfg.form (c : RingCfg) (p : Nat) (d : Die) : Die :=
  match c.entry d.rdie.toNat with
  | none => d
  | some (vg, _) =>
    let ps := c.pages d vg
    let pier := 0x4000 - geomCap vg / 32
    let seg := pier - c.tablePages
    let loc := seg - c.tablePages
    let d := c.segs.zipIdx.foldl (fun (d : Die) e => d.putNat (seg * 2 ^ 16 + 16 * e.2) 16 e.1) d
    let d := (List.range (c.lastTag + 1)).foldl (fun (d : Die) i => d.putNat (loc * 2 ^ 16 + 16 * i) 16 0) d
    let d := { d with
      tlb := ps.foldl (fun t (e : Nat × Nat) => tabPut e.1 (ringLeaf e.2) t) d.tlb
      reserved := (loc, 0x4000 - loc) :: d.reserved
      ring := { d.ring with mapped := true, pierPa := pier * 2 ^ 16, segtPa := seg * 2 ^ 16, locPa := loc * 2 ^ 16,
                            staging := d.ownVa c.staging, slotAt := d.keyc } }
    let d := d.setReg 0x0210 (BitVec.ofNat 64 (vg % 2 ^ 50))
    let d := d.setReg 0x0218 (BitVec.ofNat 64 (d.ownVa c.pier))
    let d := d.setReg 0x0220 (BitVec.ofNat 64 (d.ownVa c.segt))
    let d := d.setReg 0x0228 (BitVec.ofNat 64 (d.ownVa c.loc))
    ((d.setField 0x0200 31 16 c.lastTag).setField 0x0200 15 14 p).setField 0x0208 15 12 1

/-- The ring die numbers of a configured ring in ring order from the origin (R31, R73). -/
def RingCfg.order (c : RingCfg) : List Nat :=
  let l := (List.range c.n).filter c.member
  let o := (l.find? (fun r => ((c.entry r).map (·.2)).getD 0 % 2 = 1)).getD 0
  l.filter (fun r => decide (o ≤ r)) ++ l.filter (fun r => decide (r < o))

/-- P of a configured ring: 2 if a die is configured as bypassed (R33, R56). -/
def RingCfg.period (c : RingCfg) : Nat := if c.geom.any (fun e => e / 2 ^ 80 / 4 % 2 = 1) then 2 else 1

/-- RING_CONFIG ends: the old ring regions of every die are unmapped, the ring is formed and its command completes SUCCESS (R56,
R58, R72). -/
def State.finishConfig (s : State) : State :=
  match s.m.lead.config with
  | none => s
  | some (b, c) =>
    let s := s.allDies.foldl (fun s g => s.onDie g (·.unmapRing)) s
    let s := s.m.ringOrder.foldl (fun s g => s.onDie g (c.form c.period)) s
    ({ s with m := { s.m with lead := { s.m.lead with config := none } } }).conclude b 0 false 0 0

/-- Whether training of the bridge ports of dies that run Mepen has ended, well or not (R25 step 9). -/
def State.bridgesTried (s : State) : Bool :=
  s.allDies.all (fun g => !s.rom.up.contains g || [Link.bridgeIn, .bridgeOut, .bridgeChordRx, .bridgeChordTx].all (fun l =>
    !s.hasLink g l || (s.die g).attempted l))

/-- Step 10 of the boot: when step 9 is complete, the lead lantern opens the queues and reports READY (R25). DESIGN CHOICE (log 41):
the heartbeat periods of R49 begin here, and again at RING_CONFIG. -/
def State.openQueues (s : State) : State :=
  if s.m.bootStep = 9 ∧ s.bridgesTried then
    let s := s.allDies.foldl (fun s g => s.onDie g (fun d => d.onRing (fun r => { r with heardAt := d.keyc }))) s
    { s with m := { s.m with bootStep := 10 } }.setQreg 0x0628 (s.qreg 0x0628 ||| 1)
  else s

/-- The range of a version token narrowed to a die's input link (R56). -/
def Die.narrow (d : Die) (l : Link) (lo hi : Nat) (emptied : Option Nat) : Nat × Nat × Option Nat :=
  let r := ((d.linkOf l).map (fun i => (i.vmin, i.vmax))).getD (1, 2)
  let lo' := max lo (max 1 r.1)
  let hi' := min hi (min 2 r.2)
  (lo', hi', if emptied.isNone && decide (hi' < lo') then some d.rdie.toNat else emptied)

/-- RING_CONFIG ends without a ring: the version range came back empty, and the die that emptied it is reported (R56). -/
def State.noRing (s : State) (rdie : Nat) : State :=
  let s' : State := { s with m := { s.m with ringOrder := [], ringAll := [], ringN := 0, lead := { s.m.lead with config := none } } }
  match s.m.lead.config with
  | none => s'
  | some (b, _) => s'.conclude b 9 false rdie 0

/-- VERSION_TOKEN: the range is narrowed to the input link's and goes on; back where it began, it gives the version (R56). -/
def execVersionToken (g : Nat) (s : State) : Out :=
  match (s.die g).token with
  | some (.version lo hi e) =>
    let r := (s.die g).narrow (s.inputLink g) lo hi e
    let s := s.onDie g (·.dropToken)
    if !s.tokenHome g then .next (s.sendToken g (.version r.1 r.2.1 r.2.2))
    else
      match s.m.lead.config with
      | none => .next (s.sendToken g (.commit (if r.1 ≤ r.2.1 then r.2.1 else 0)))
      | some _ => if r.1 ≤ r.2.1 then .next (s.sendToken g (.commit r.2.1)) else .next (s.noRing (r.2.2.getD 0)).settle
  | some (.back (some r)) => .next ((s.onDie g (·.dropToken)).noRing r).settle
  | _ => .fault .notEnabled

/-- COMMIT_TOKEN: VLINK.VER is written and the token goes on; back where it began, the version is negotiated and boot ends with
READY once the bridge ports have trained, or RING_CONFIG goes on with the ring sync token or the geometry (R25, R48, R56). -/
def execCommitToken (g : Nat) (s : State) : Out :=
  match (s.die g).token with
  | some (.commit v) =>
    let s := s.onDie g (fun d => d.dropToken.setField 0x0248 63 56 v)
    if !s.tokenHome g then .next (s.sendToken g (.commit v))
    else
      match s.m.lead.config with
      | none => .next ({ s with m := { s.m with bootStep := 9 } } : State).openQueues
      | some _ =>
        if s.manyModules then .next (s.sendToken g (.ring (s.die g).keyc))
        else .next (s.finishConfig.settle)
  | _ => .fault .notEnabled

/-- RING_SYNC_TOKEN (R48). -/
def execRingSyncToken (g : Nat) (s : State) : Out :=
  match (s.die g).token with
  | some (.ring v) =>
    if s.tokenHome g then .next ((s.ringSync g v true).finishConfig.settle) else .next (s.ringSync g v false)
  | some (.back none) => .next ((s.onDie g (·.dropToken)).finishConfig.settle)
  | _ => .fault .notEnabled

/-- Whether a chord of a die carries the weights of the running ring past a die or a module that is bypassed (R47, R57). -/
def State.carries (s : State) (g : Nat) (l : Link) : Bool :=
  let n := s.rom.variant.ndie
  s.m.ringOrder.contains g
    && (match l with
        | .chordIn | .bridgeChordRx => s.inputLink g == l
        | .chordOut => (s.die g).vctl 13
        | .bridgeChordTx => g + 1 = n && (s.die g).vctl 12
        | _ => false)

/-- The element of the ring that a failed link takes out: a failed span from die e to e + 1 the die e + 1; in a ring of several
modules the bridge out the next module, the bridge in this one. A failed chord excludes no die; one that carries weights stands as
NDIE + 3, which nothing repairs: DEDUCED (log 41). (R47, R49, R50.) -/
def State.linkExcludes (s : State) (g : Nat) (l : Link) : Option Nat :=
  let n := s.rom.variant.ndie
  match l with
  | .spanOut => some ((g + 1) % n)
  | .spanIn => some g
  | .bridgeOut => if s.manyModules then some n else none
  | .bridgeIn => if s.manyModules then some (n + 1) else none
  | l => if s.carries g l then some (n + 3) else none

/-- The element that a bypass takes out for a failed one: in a ring of several modules the end dies stand for the whole module
(R47). -/
def State.bypassed (s : State) (e : Nat) : Nat :=
  let n := s.rom.variant.ndie
  if s.manyModules && (e == 0 || e + 1 == n) then n + 1 else e

/-- A link of a die is out of service: LNKSTS, RPR and the training record no longer show it (R10, R24). -/
def Die.loseLink (d : Die) (l : Link) : Die :=
  ({ d with links := tabPut (linkNo l + 16) ⟨0, 0, 0, 0⟩ (d.links.filter (fun e => e.1 ≠ linkNo l)) }.setField 0x0100
    (linkBit l) (linkBit l) 0).setRpr

/-- Ends the records on an excluded die without fault records, and its engines' work (R50, R260). DESIGN CHOICE (log 42): a record
with the completion flag writes CANCELLED. -/
def State.endDie (s : State) (f : Nat) : State :=
  let s := (s.m.recs.filter (fun e => dieOf e.2.core = f && !e.2.final)).foldl
    (fun s e => match s.record? e.1 with | none => s | some r => s.finalRec e.1 r .cancelled 6 0) s
  let s := (coresOf f).foldl (fun s c =>
    (s.vacate c).onCore c (fun k => { k with engQ := [], jobs := [], engHold := [], sideLog := [], queues := [], fps := [] })) s
  let s := { s with m := { s.m with reqs := s.m.reqs.filter (fun r => r.src ≠ f) } }
  -- SLOT_WRITEs of the die will never be applied (R93)
  (s.m.lead.busy.filter (fun b => pktOpc b.packet = 8 && s.localDie (pkt b.packet 24 2) = some f)).foldl
    (fun s b => s.conclude b 9 false 0 0) s

/-- Accesses in flight to an excluded owner raise RING, cause EXCLUDED, against their records (R50, R55). -/
def State.loseOwner (s : State) (f : Nat) : State :=
  let at_ (r : Req) : Bool := r.owner = f || (match r.at_ with | .forwarded d _ => d = f | _ => false)
  let s := (s.m.reqs.filter at_).foldl (fun s r => s.loseAccess r) s
  let lost := s.m.replies.filter (fun p => p.src = f)
  let s := { s with m := { s.m with
    replies := s.m.replies.filter (fun p => p.src != f)
    beacons := s.m.beacons.filter (fun b => b.src != f && b.dst != f) } }
  lost.foldl (fun s p =>
    s.raiseFor (dieOf p.core) p.core (s.core p.core).running { code := .ring, cause := 6, acc := 1, kind := 4 } none none 0) s

/-- Whether an address lies in far space (R139). -/
def isFar (va : Nat) : Bool := va / 2 ^ 62 == 1

/-- Far accesses of some cores that are in flight through a spoke die that is lost raise RING, cause EXCLUDED: copies with a far
side, and I/O requests (R60). -/
def State.loseFar (s : State) (cores : List Nat) : State :=
  let f (va acc : Nat) : FaultInfo := { code := .ring, cause := 6, va := va, acc := acc }
  cores.foldl (fun s c =>
    let s : State := match (s.core c).copyRunning with
      | none => s
      | some j =>
        let p := s.jobPlan c j
        if p.src.space = 3 ∧ isFar p.src.base = true then faultCopy (releaseCopy s c j) c j (f p.src.base 1)
        else if p.dst.space = 3 ∧ isFar p.dst.base = true then faultCopy (releaseCopy s c j) c j (f p.dst.base 2)
        else s
    (((s.core c).jobsOf 7).filter (fun j => j.cmd.isIorq && j.st = .running && (j.ioStage == 1 || j.ioStage == 3))).foldl
      (fun s j =>
        ((s.dropAll (clusterOf c) (.io (dieOf c)) j.id).onDie (dieOf c) (·.dropCards (.io (dieOf c)) j.id)).jobFault c 7 j
          (f 0 0)) s) s

/-- A die of this module goes out of service: its records end, accesses that it owns and far accesses through it raise EXCLUDED,
and it is in no ring (R49, R50, R60). -/
def State.excludeDie (s : State) (f : Nat) : State :=
  let far := (s.m.cores.map (·.1)).filter (fun c => dieOf c != f && s.farSpoke (dieOf c) == some f)
  -- a die that heard the lost one has a new input neighbour, whose periods begin now
  let s := (s.allDies.filter (fun g => s.upstream g = some f)).foldl
    (fun s g => s.onDie g (fun d => d.onRing (fun r => { r with heardAt := d.keyc }))) s
  let s := { s with m := { s.m with excluded := s.m.excluded ++ [f], ringOrder := s.m.ringOrder.filter (· ≠ f) } }
  let s := s.onDie f (fun d => (d.setField 0x0200 15 14 0).setField 0x0208 15 12 0)
  ((s.endDie f).loseOwner f).loseFar far

/-- An element has failed: it is signalled if it is of the running ring; a die that is not is excluded at once (R49, R50; log 41). -/
def State.failElement (s : State) (e : Nat) : State :=
  let n := s.rom.variant.ndie
  let x := s.bypassed e
  if e < n ∧ s.m.ringOrder.contains e = false then (if s.m.excluded.contains e then s else (s.excludeDie e).settle)
  else if s.m.ringOrder.isEmpty || s.m.failing.contains x then s
  else { s with m := { s.m with failing := s.m.failing ++ [x] } }

/-- A link has failed: it is out of service at both ends, and what it takes out has failed (R10, R49). -/
def State.failLink (s : State) (g : Nat) (l : Link) : State :=
  let out := s.linkExcludes g l
  let s := s.onDie g (·.loseLink l)
  let s : State := match s.farEnd g l with
    | none => s
    | some e => s.onDie e.1 (·.loseLink e.2)
  match out with
  | none => s
  | some e => s.failElement e

/-- LINK_FAILURE (R10, R49). -/
def execLinkFailure (g : Nat) (l : Link) (s : State) : Out :=
  if s.trained g l then .next (s.failLink g l) else .fault .notEnabled

/-- The trained input links of a die, the weight input among them (R49, R57). -/
def State.inputLinks (s : State) (g : Nat) : List Link :=
  [Link.spanIn, .chordIn, .bridgeIn, .bridgeChordRx].filter (s.trained g)

/-- The input link of a die on which a retry has happened: which one is open (R34, R49). -/
def State.retryLink (s : State) (g : Nat) : Option Link :=
  (s.inputLinks g)[s.freeValue.1.toNat % (s.inputLinks g).length]?

/-- LINK_RETRY: counted in VERRC.RETRY; more than 4,096 of one link in a window of 2^20 cycles fail that link (R34, R49, R57).
DESIGN CHOICE (log 41): windows begin at the multiples of 2^20 of KEYC. -/
def execLinkRetry (g : Nat) (s : State) : Out :=
  match s.retryLink g with
  | none => .fault .notEnabled
  | some l =>
    let w := (s.die g).keyc / 2 ^ 20
    let s := s.freeValue.2.onDie g (fun d => (d.count 0x0240 63 48 1).onRing (fun r =>
      let old := if r.windowAt = w then r.retries else []
      { r with retries := tabPut (linkNo l) (tabGet 0 (linkNo l) old + 1) old, windowAt := w }))
    .next (if 4096 < tabGet 0 (linkNo l) (s.die g).ring.retries then s.failLink g l else s)

/-- FEC_CODEWORD_DROP: a bridge port drops and counts an uncorrectable codeword; the framing above recovers (R12). -/
def execFecCodewordDrop (g : Nat) (s : State) : Out :=
  if (bits ((s.die g).reg 0x0100) 23 20) = 0 then .fault .notEnabled
  else .next (s.onDie g (fun d => d.onRing (fun r => { r with fecDrops := r.fecDrops + 1 })))

/-- Whether a die's lantern owes a heartbeat (R49). -/
def State.heartbeatDue (s : State) (g : Nat) : Bool :=
  s.rom.up.contains g && !s.m.excluded.contains g && decide ((s.die g).ring.beatAt + 2 ^ 20 ≤ (s.die g).keyc)

/-- LANTERN_HEARTBEAT: the lantern core tells its downstream neighbour that it runs (R49). -/
def execLanternHeartbeat (g : Nat) (s : State) : Out :=
  if !s.heartbeatDue g then .fault .notEnabled
  else
    let s := s.onDie g (fun d => d.onRing (fun r => { r with beatAt := d.keyc }))
    match s.downstream g with
    | none => .next s
    | some (n, _) =>
      if s.upstream n = some g then .next (s.onDie n (fun d => d.onRing (fun r => { r with heardAt := d.keyc }))) else .next s

/-- Whether a die has heard nothing from its input neighbour for 32 periods: in the ring, or with none formed among the dies that run
Mepen once the module is ready (R49). -/
def State.timeoutDue (s : State) (g : Nat) : Bool :=
  (if s.m.ringOrder.isEmpty then s.rom.up.contains g && s.m.bootStep = 10 else s.m.ringOrder.contains g)
    && !s.m.excluded.contains g
    && decide ((s.die g).ring.heardAt + 32 * 2 ^ 20 ≤ (s.die g).keyc)
    && (match s.upstream g with | none => false | some u => u != g && !s.m.failing.contains (s.bypassed u))

/-- HEARTBEAT_TIMEOUT: the upstream die is failed (R49). -/
def execHeartbeatTimeout (g : Nat) (s : State) : Out :=
  match s.upstream g with
  | none => .fault .notEnabled
  | some u =>
    if s.timeoutDue g then .next (s.failElement u) else .fault .notEnabled

/-- The state of the ring, as its first die reports it. -/
def State.ringState (s : State) : Nat :=
  match s.m.ringOrder with
  | [] => 0
  | g :: _ => (s.die g).ringState

/-- Whether a failed element can be bypassed: a die whose neighbours are in the ring over a trained chord; the next module over
the bridge chord; this module, or one beyond, by another module's bridge chord (R47, R49, R50). -/
def State.repairable (s : State) (f : Nat) : Bool :=
  let n := s.rom.variant.ndie
  if f < n then
    s.m.ringOrder.contains ((f + 1) % n) && s.m.ringOrder.contains ((f + n - 1) % n) && decide (3 ≤ s.m.ringOrder.length)
      && s.trained ((f + n - 1) % n) .chordOut && s.trained ((f + 1) % n) .chordIn
  else if f = n then
    s.trained (n - 1) .bridgeChordTx && s.moduleRuns ((s.die 0).modPos.toNat + 2)
      && decide ((s.m.ringAll.map (· / n)).eraseDups.length ≥ 2)
  else s.manyModules && f != n + 3

/-- RING_FAILURE_DETECT: the lead lantern identifies the failed element; a failure that cannot be repaired takes the ring down
(R49, R50). DESIGN CHOICE (log 41): a failure signalled during a repair waits until the ring is NORMAL or BYPASSED. -/
def execRingFailureDetect (f : Nat) (s : State) : Out :=
  if s.m.failing.head? != some f || !(s.ringState = 1 || s.ringState = 6) then .fault .notEnabled
  else if s.repairable f then .next (s.setRingState 2)
  else .next (s.ringDown.settle)

/-- A failure in another module of the ring, when and where is open: of an end die of the next module, which this one bypasses as a
whole, or of a part that another module's lead lantern repairs (R47, R50; log 29). -/
def failureAbroad (s : State) : Out :=
  if s.manyModules && s.m.failing.isEmpty && (s.ringState = 1 || s.ringState = 6) then
    let f := s.freeValue
    .next { f.2 with m := { f.2.m with failing := [s.rom.variant.ndie + (if f.1.getLsbD 0 then 0 else 2)] } }
  else .fault .notEnabled

/-- The tags and turns of the beats lost with a die, oldest first: on its output span, in its pier, on its input span
(R52). -/
def State.lostBeats (s : State) (f : Nat) : List (Nat × Nat) :=
  let d := s.die f
  let out : List Beat := match s.downstream f with | none => [] | some (n, _) => (s.die n).ring.link.map (·.2)
  let inPier := (d.ring.insts.filter (fun i => decide (i.sent < i.written))).map (fun i => (i.tag, i.turn))
  (out.map (fun b => (b.tag, b.turn)) ++ inPier ++ d.ring.link.map (fun e => (e.2.tag, e.2.turn))).eraseDups

/-- The tags and turns of beats lost with another module: a run that the model leaves free (R52; log 29). -/
def State.lostAbroad (s : State) : List (Nat × Nat) :=
  match s.m.ringOrder with
  | [] => []
  | g :: _ =>
    let v := s.freeValue.1
    let last := (s.die g).lastTag
    let first := bits v 15 0 % (last + 1)
    let turn := bits v 63 32
    (List.range (1 + bits v 31 16 % (last + 1))).map (fun i =>
      ((first + i) % (last + 1), if first + i ≤ last then turn else (turn + 1) % 2 ^ 32))

/-- The ring without an element: the members that stay, and what was lost with it (R47, R50, R52). -/
def State.takeOut (s : State) (f : Nat) : State :=
  let n := s.rom.variant.ndie
  let own := (s.die 0).modPos.toNat
  let lost := if f < n then s.lostBeats f else s.lostAbroad
  let gone (r : Nat) : Bool :=
    if f < n then r == (s.die f).rdie.toNat
    else if f = n then r / n == (own + 1) % s.m.modules
    else if f = n + 1 then r / n == own
    else
      let l := s.m.ringAll.filter (fun r => r / n != own)
      match l[bits s.freeValue.1 127 64 % max 1 l.length]? with
      | none => false
      | some x => if x % n = 0 ∨ x % n + 1 = n then r / n == x / n else r == x
  let all := s.m.ringAll.filter (fun r => !gone r)
  let s : State := if f < n then s else s.freeValue.2
  { s with m := { s.m with ringAll := all, ringN := all.length, broken := lost, repaired := true } }

/-- REPAIR_SWITCH: HOLDF on all dies, the egress before the failed element moves to its chord or to the bridge chord, MODE := 2,
what is bypassed is excluded, its records end and accesses it owns raise EXCLUDED (R47, R50, R60). -/
def execRepairSwitch (s : State) : Out :=
  match s.m.failing with
  | [] => .fault .notEnabled
  | f :: rest =>
    if s.ringState != 2 then .fault .notEnabled
    else
      let n := s.rom.variant.ndie
      let up := s.upstream f
      let after := s.downstream f
      let s := { s with m := { s.m with failing := rest } }.takeOut f
      let s : State := match (if f < n then after else none) with
        | none => s
        | some (d, _) => s.onDie d (fun d => d.onRing (fun r => { r with link := [] }))
      let s := if f < n then s.excludeDie f else if f = n + 1 then s.m.ringOrder.foldl State.excludeDie s else s
      let s := s.m.ringOrder.foldl (fun s g => s.onDie g (fun d => (d.setField 0x0200 9 9 1).setField 0x0200 15 14 2)) s
      let s : State := match (if f < n then up else none) with
        | none => s
        | some u => s.onDie u (·.setField 0x0200 13 13 1)
      let s := (if f = n then s.onDie (n - 1) (·.setField 0x0200 12 12 1) else s).setRingState 3
      if s.allDies.any (fun g => g % 4 = 0 && !s.m.excluded.contains g && !s.rom.failed.contains g) then .next (s.settle)
      else .next (s.ringDown.settle)

/-- B of a die's input link at P = 2 (R35, R51). -/
def State.inBeats (s : State) (g : Nat) : Nat := ceilDiv ((s.die g).latOf (s.inputLink g)) 2

/-- The beats on the links of other modules at P = 2, which the model leaves free: none in a ring of one module (R46, R51;
log 29). -/
def State.farBeats (s : State) : Nat := if s.manyModules then bits s.freeValue.1 31 0 else 0

/-- The turn length T in beats (R31). -/
def State.turnBeats (s : State) : Nat :=
  match s.m.ringOrder with
  | [] => 0
  | g :: _ =>
    let d := s.die g
    ((List.range (d.lastTag + 1)).map (fun t => 1 + segLen (d.segEntry t) / 2048)).foldl (· + ·) 0

/-- The hold latency of a link of a die: BHL across a bridge, else 1 cycle (R43). -/
def Die.holdLat (d : Die) (l : Link) : Nat := if isBridge l then bits (d.reg 0x0248) 39 32 else 1

/-- Whether a die's geometry meets R35 at P = 2 with a new DWELL. -/
def State.geomOk (s : State) (g dwell : Nat) : Bool :=
  let d := s.die g
  let l := s.inputLink g
  let longest := ((List.range (d.lastTag + 1)).map (fun t => 1 + segLen (d.segEntry t) / 2048)).foldl max 0
  decide (dwell + d.margin < d.cap) && decide (64 ≤ dwell) && decide (longest ≤ d.cap - d.margin)
    && decide (ceilDiv (d.latOf l + d.holdLat l) 2 + 1 ≤ d.margin)

/-- DWELL of each surviving die of the module after a switch: X / N, with one beat more on the first X mod N dies in ring order
from the origin (R51). -/
def State.newDwells (s : State) : List (Nat × Nat) :=
  let n := s.m.ringN
  let x := s.turnBeats - ((s.m.ringOrder.map s.inBeats).foldl (· + ·) 0 + s.farBeats)
  s.m.ringOrder.map (fun g =>
    (g, x / n + (if s.m.ringAll.findIdx (fun r => r = (s.die g).rdie.toNat) < x % n then 1 else 0)))

/-- VDROP for a run of broken instances (R52, R57). -/
def dropRange : List (Nat × Nat) → Option Word
  | [] => none
  | e :: l => some (BitVec.ofNat 64 (e.2 * 2 ^ 32 + ((e :: l).getLast?.getD e).1 * 2 ^ 16 + e.1))

/-- REPAIR_REBALANCE: new DWELL on every surviving die, VDROP and DROP, the origin and the lead role moved if need be, HOLDF
cleared (R50 to R52). -/
def execRepairRebalance (s : State) : Out :=
  if s.ringState != 3 then .fault .notEnabled
  else
    let gl4 := s.rom.variant = .gl4 && s.m.excluded.contains 0
    let dwells := s.newDwells
    if gl4 || !(dwells.all (fun e => s.geomOk e.1 e.2)) then .next (s.ringDown.settle)
    else
      let s := dwells.foldl (fun s e => s.onDie e.1 (fun d => (d.setField 0x0210 18 0 e.2).setField 0x0200 9 9 0)) s
      let s : State := match dropRange s.m.broken with
        | none => s
        | some v => s.setDrop v
      let s := s.m.ringOrder.foldl (fun s g =>
        if s.m.ringAll.head? = some (s.die g).rdie.toNat then s.onDie g (·.setField 0x0200 11 11 1) else s) s
      let lead := (s.allDies.find? (fun g => g % 4 = 0 && !s.m.excluded.contains g && !s.rom.failed.contains g)).getD 0
      let s := if s.manyModules then s.freeValue.2 else s
      .next ({ s with m := { s.m with lead := { s.m.lead with die := lead } } }.setRingState 4).settle

/-- Hold is released and REINJECT begins: the homes of this module insert the broken segments (R50, R53); when is open. -/
def reinjectStart (s : State) : Out :=
  if s.ringState = 4 ∧ s.m.ringOrder.all (fun g => !(s.die g).asserts && (s.die g).ring.holdIn.isEmpty) = true then
    let s := s.setRingState 5
    let s := s.m.broken.foldl (fun s e => s.orderInsert e.1 false) s
    .next ({ s with m := { s.m with broken := [] } }.insertsEnd.settle)
  else .fault .notEnabled

/-- The insertion of a home of which a payload beat is to be staged next: the first of its far ones that is not whole, if the
staging buffer has room for it (R53). -/
def Ring.toStage (r : Ring) : Option Insertion :=
  (r.inserts.find? (fun x => x.far && x.staged != x.beats)).bind (fun x =>
    if r.stagedBytes - r.usedBytes + 2048 ≤ 2 ^ 26 then some x else none)

/-- Writes staged bytes into a home's buffer, a circle of 64 MiB (R53). -/
def State.stageBytes (s : State) (g : Nat) (off : Nat) : Nat → List Byte → State
  | _, [] => s
  | i, b :: r =>
    let va := (s.die g).ring.staging + (off + i) % 2 ^ 26
    match s.locate g true false true va with
    | .ok l => (s.putByte l.1 b).stageBytes g off (i + 1) r
    | .error _ => s.stageBytes g off (i + 1) r

/-- REINJECTION: a home stages the next payload beat of what it is to insert, from IMG over the spoke; an IMG page that cannot
be read during repair takes the ring down (R53). -/
def execReinjection (g : Nat) (s : State) : Out :=
  let d := s.die g
  match d.ring.toStage with
  | none => .fault .notEnabled
  | some x =>
    match s.readVa g true (segImg (d.segEntry x.tag) + x.staged * 2048) 2048 with
    | .error _ => .next (s.ringDown.settle)
    | .ok l =>
      let off := d.ring.stagedBytes
      let s := s.stageBytes g off 0 l
      .next (s.onDie g (fun d => d.onRing (fun r =>
        { r with
          stagedBytes := r.stagedBytes + 2048
          inserts := r.inserts.map (fun y =>
            if y.tag = x.tag ∧ y.far then { y with staged := y.staged + 1, va := if y.staged = 0 then off else y.va } else y) })))

end Sys2Proof.Machine
end

