-- ==== Sys2Proof/Machine/Slh.lean ====
section
/-! DEFINITION. SLH-DSA with SHAKE256 at n = 32 and w = 16 (FIPS 205, which R77, R78 and R80 cite): the signature of a boot image is
verified, the identity key pair made and reports signed. The algorithms are PRESUMED: taken from that standard, not from the
spec's words (log 4). -/

namespace Sys2Proof.Machine

/-- A parameter set with n = 32 (FIPS 205 section 11): height of a layer's tree, layers, height of a FORS tree, FORS trees. -/
structure SlhSet where
  hp : Nat
  d : Nat
  a : Nat
  k : Nat
deriving DecidableEq, Repr

/-- SLH-DSA-SHAKE-256s, of boot images (R77). -/
def slh256s : SlhSet := { hp := 8, d := 8, a := 14, k := 22 }
/-- SLH-DSA-SHAKE-256f, of reports (R78, R80). -/
def slh256f : SlhSet := { hp := 4, d := 17, a := 9, k := 35 }

/-- The bytes of a set's signature: the randomizer, FORS, and a WOTS+ signature with its path on every layer. -/
def SlhSet.sigBytes (p : SlhSet) : Nat := 32 * (1 + p.k * (1 + p.a) + p.d * (67 + p.hp))

/-- The address of a hash: layer, tree, type, and the three words that the type gives a meaning. -/
structure SlhAdrs where
  layer : Nat
  tree : Nat
  kind : Nat
  pair : Nat
  second : Nat
  third : Nat
deriving DecidableEq, Repr

/-- n bytes of a number, the most significant first. -/
def bytesBE (n v : Nat) : List Byte := (bytesOfNat n v).reverse
/-- The number that bytes hold, the most significant first. -/
def natBE (l : List Byte) : Nat := natOfBytes l.reverse

/-- The 32 bytes of an address. -/
def SlhAdrs.bytes (x : SlhAdrs) : List Byte :=
  bytesBE 4 x.layer ++ bytesBE 12 x.tree ++ bytesBE 4 x.kind ++ bytesBE 4 x.pair ++ bytesBE 4 x.second ++ bytesBE 4 x.third

/-- The functions F, H, T and PRF, alike for SHAKE: of a public seed, an address and what is hashed. -/
def slhHash (seed : List Byte) (x : SlhAdrs) (m : List Byte) : List Byte := shake256 (seed ++ x.bytes ++ m) 32

/-- The first n digits of b bits of bytes, from the most significant bit on. -/
def digitsBE (l : List Byte) (b n : Nat) : List Nat :=
  (List.range n).map (fun i => natBE l / 2 ^ (8 * l.length - b * (i + 1)) % 2 ^ b)

/-- Piece i of 32 bytes. -/
def piece (l : List Byte) (i : Nat) : List Byte := (l.drop (32 * i)).take 32

/-- n steps of a WOTS+ chain from step i on. -/
def wotsChain (seed : List Byte) (x : SlhAdrs) : Nat → Nat → List Byte → List Byte
  | 0, _, v => v
  | n + 1, i, v => wotsChain seed x n (i + 1) (slhHash seed { x with third := i } v)

/-- The 67 digits a WOTS+ signature covers: 64 of the message and 3 of their checksum. -/
def wotsDigits (m : List Byte) : List Nat :=
  let l := digitsBE m 4 64
  l ++ digitsBE (bytesBE 2 ((l.map (fun d => 15 - d)).sum * 16)) 4 3

/-- The secret of chain i of a WOTS+ key pair. -/
def wotsSecret (sk seed : List Byte) (x : SlhAdrs) (i : Nat) : List Byte :=
  slhHash seed { x with kind := 5, second := i, third := 0 } sk

/-- The public key that the 67 chain ends of a key pair compress to. -/
def wotsEnds (seed : List Byte) (x : SlhAdrs) (l : List (List Byte)) : List Byte :=
  slhHash seed { x with kind := 1, second := 0, third := 0 } l.flatten

/-- The WOTS+ public key at an address. -/
def wotsPublic (sk seed : List Byte) (x : SlhAdrs) : List Byte :=
  wotsEnds seed x ((List.range 67).map (fun i => wotsChain seed { x with second := i } 15 0 (wotsSecret sk seed x i)))

/-- The WOTS+ signature of 32 bytes at an address. -/
def wotsSign (sk seed : List Byte) (x : SlhAdrs) (m : List Byte) : List Byte :=
  (wotsDigits m).zipIdx.flatMap (fun e => wotsChain seed { x with second := e.2 } e.1 0 (wotsSecret sk seed x e.2))

/-- The WOTS+ public key that a signature of 32 bytes leads to. -/
def wotsFrom (seed : List Byte) (x : SlhAdrs) (sig m : List Byte) : List Byte :=
  wotsEnds seed x ((wotsDigits m).zipIdx.map (fun e =>
    wotsChain seed { x with second := e.2 } (15 - e.1) e.1 (piece sig e.2)))

/-- Node i at a height of a hash tree whose leaves are given. -/
def treeNode (seed : List Byte) (x : SlhAdrs) (leaf : Nat → List Byte) : Nat → Nat → List Byte
  | 0, i => leaf i
  | z + 1, i =>
    slhHash seed { x with second := z + 1, third := i }
      (treeNode seed x leaf z (2 * i) ++ treeNode seed x leaf z (2 * i + 1))

/-- The siblings of leaf i of a hash tree, up to a height. -/
def treePath (seed : List Byte) (x : SlhAdrs) (leaf : Nat → List Byte) (h i : Nat) : List Byte :=
  (List.range h).flatMap (fun z => treeNode seed x leaf z ((i / 2 ^ z) ^^^ 1))

/-- The root that node i at height z leads to by its siblings. -/
def treeRoot (seed : List Byte) (x : SlhAdrs) : List (List Byte) → Nat → Nat → List Byte → List Byte
  | [], _, _, v => v
  | a :: r, z, i, v =>
    treeRoot seed x r (z + 1) (i / 2)
      (slhHash seed { x with second := z + 1, third := i / 2 } (if i % 2 = 0 then v ++ a else a ++ v))

/-- Leaf i of a layer's tree. -/
def xmssLeaf (sk seed : List Byte) (layer tree i : Nat) : List Byte := wotsPublic sk seed ⟨layer, tree, 0, i, 0, 0⟩
/-- The address of a layer's tree. -/
def xmssTree (layer tree : Nat) : SlhAdrs := ⟨layer, tree, 2, 0, 0, 0⟩

/-- The signature of 32 bytes by leaf i of a layer's tree, with the leaf's path. -/
def xmssSign (p : SlhSet) (sk seed : List Byte) (layer tree i : Nat) (m : List Byte) : List Byte :=
  wotsSign sk seed ⟨layer, tree, 0, i, 0, 0⟩ m ++ treePath seed (xmssTree layer tree) (xmssLeaf sk seed layer tree) p.hp i

/-- The root of a layer's tree that a signature by its leaf i leads to. -/
def xmssFrom (p : SlhSet) (seed : List Byte) (layer tree i : Nat) (sig m : List Byte) : List Byte :=
  treeRoot seed (xmssTree layer tree) ((List.range p.hp).map (fun z => piece sig (67 + z))) 0 i
    (wotsFrom seed ⟨layer, tree, 0, i, 0, 0⟩ sig m)

/-- The hypertree's signature of 32 bytes from a layer on: each layer signs the root of the one below. -/
def layersSign (p : SlhSet) (sk seed : List Byte) : Nat → Nat → Nat → List Byte → List Byte
  | 0, _, _, _ => []
  | n + 1, tree, leaf, m =>
    let sig := xmssSign p sk seed (p.d - (n + 1)) tree leaf m
    sig ++ layersSign p sk seed n (tree / 2 ^ p.hp) (tree % 2 ^ p.hp) (xmssFrom p seed (p.d - (n + 1)) tree leaf sig m)

/-- The root of the hypertree that such a signature leads to. -/
def layersFrom (p : SlhSet) (seed : List Byte) : Nat → Nat → Nat → List Byte → List Byte → List Byte
  | 0, _, _, _, m => m
  | n + 1, tree, leaf, sig, m =>
    layersFrom p seed n (tree / 2 ^ p.hp) (tree % 2 ^ p.hp) (sig.drop (32 * (67 + p.hp)))
      (xmssFrom p seed (p.d - (n + 1)) tree leaf (sig.take (32 * (67 + p.hp))) m)

/-- The secret of FORS leaf i at an address. -/
def forsSecret (sk seed : List Byte) (x : SlhAdrs) (i : Nat) : List Byte :=
  slhHash seed { x with kind := 6, second := 0, third := i } sk
/-- FORS leaf i of a secret. -/
def forsLeaf (seed : List Byte) (x : SlhAdrs) (i : Nat) (v : List Byte) : List Byte :=
  slhHash seed { x with second := 0, third := i } v

/-- The FORS leaves that a digest selects, numbered over all trees. -/
def SlhSet.picks (p : SlhSet) (md : List Byte) : List Nat :=
  (digitsBE md p.a p.k).zipIdx.map (fun e => e.2 * 2 ^ p.a + e.1)

/-- The FORS signature of a digest. -/
def forsSign (p : SlhSet) (sk seed : List Byte) (x : SlhAdrs) (md : List Byte) : List Byte :=
  (p.picks md).flatMap (fun i =>
    forsSecret sk seed x i ++ treePath seed x (fun j => forsLeaf seed x j (forsSecret sk seed x j)) p.a i)

/-- The FORS public key that a signature of a digest leads to. -/
def forsFrom (p : SlhSet) (seed : List Byte) (x : SlhAdrs) (sig md : List Byte) : List Byte :=
  let root (e : Nat × Nat) : List Byte :=
    let at_ := e.2 * (1 + p.a)
    treeRoot seed x ((List.range p.a).map (fun z => piece sig (at_ + 1 + z))) 0 e.1 (forsLeaf seed x e.1 (piece sig at_))
  slhHash seed { x with kind := 4, second := 0, third := 0 } ((p.picks md).zipIdx.flatMap root)

/-- What the digest of a message selects: the FORS digest, the lowest layer's tree, and its leaf. -/
structure SlhPick where
  md : List Byte
  tree : Nat
  leaf : Nat
deriving DecidableEq, Repr

/-- The digest of a message under a randomizer and a public key; the message is signed in the pure form with an empty context. -/
def SlhSet.pick (p : SlhSet) (r pub m : List Byte) : SlhPick :=
  let nm := (p.k * p.a + 7) / 8
  let nt := (p.hp * (p.d - 1) + 7) / 8
  let nl := (p.hp + 7) / 8
  let g := shake256 (r ++ pub ++ ([0, 0] ++ m)) (nm + nt + nl)
  { md := g.take nm, tree := natBE ((g.drop nm).take nt) % 2 ^ (p.hp * (p.d - 1)),
    leaf := natBE (g.drop (nm + nt)) % 2 ^ p.hp }

/-- The FORS address of a pick. -/
def SlhPick.adrs (x : SlhPick) : SlhAdrs := ⟨0, x.tree, 3, x.leaf, 0, 0⟩

/-- The 64-byte public key of 96 bytes of key material SK.seed, SK.prf, PK.seed (R78): PK.seed and the root of the top layer. -/
def slhPublic (p : SlhSet) (key : List Byte) : List Byte :=
  let sk := piece key 0
  let seed := piece key 2
  seed ++ treeNode seed (xmssTree (p.d - 1) 0) (xmssLeaf sk seed (p.d - 1) 0) p.hp 0

/-- The signature of a message under key material, with the 32 bytes that randomize it. -/
def slhSign (p : SlhSet) (key rand m : List Byte) : List Byte :=
  let sk := piece key 0
  let seed := piece key 2
  let r := shake256 (piece key 1 ++ rand ++ ([0, 0] ++ m)) 32
  let x := p.pick r (slhPublic p key) m
  let f := forsSign p sk seed x.adrs x.md
  r ++ f ++ layersSign p sk seed p.d x.tree x.leaf (forsFrom p seed x.adrs f x.md)

/-- Whether a signature of a message verifies under a public key. -/
def slhVerify (p : SlhSet) (pub m sig : List Byte) : Bool :=
  let seed := piece pub 0
  let x := p.pick (piece sig 0) pub m
  let f := (sig.drop 32).take (32 * (p.k * (1 + p.a)))
  let ht := sig.drop (32 * (1 + p.k * (1 + p.a)))
  sig.length == p.sigBytes && pub.length == 64
    && layersFrom p seed p.d x.tree x.leaf ht (forsFrom p seed x.adrs f x.md) == piece pub 1

end Sys2Proof.Machine
end

