-- ==== Sys2Proof/Machine/Boot.lean ====
section
/-! DEFINITION. Power, reset, SRAM initialisation, link training, boot images, verification, temperature (R18 to R27, R63,
R77 to R79). -/

namespace Sys2Proof.Machine

/-- The module put back into reset: everything on the dies is lost; straps, fuses and host memory stay (R25, R26). -/
def State.resetModule (s : State) (held : Bool) : State :=
  { rom := { Rom.init with variant := s.rom.variant, held := held, keyHash := s.rom.keyHash, seeds := s.rom.seeds }
    m := { Mod.init with host := s.m.host, free := s.m.free, agenda := s.m.agenda, cur := s.m.cur } }

/-- POWER_ON: every compute die is held in reset (R25 step 1). -/
def execPowerOn (s : State) : Out := .next (s.resetModule true)

/-- MODULE_RESET (R26). -/
def execModuleReset (s : State) : Out := .next (s.resetModule true)

/-- COMPUTE_DIE_RESET_RELEASE: the abutment die releases the reset of all dies; KEYC starts at 0 (R18, R25 step 3). -/
def execComputeDieResetRelease (s : State) : Out :=
  if s.rom.held then .next (s.resetModule false) else .fault .notEnabled

/-- Whether a die's SRAM initialisation is still to end (R23). -/
def State.sramDue (s : State) (g : Nat) : Bool := !s.rom.held && decide (g < s.rom.variant.ndie) && !s.rom.sram.contains g

/-- SRAM_INIT_COMPLETE: every SRAM word of the die is zero and its boot ROM starts (R23). -/
def execSramInitComplete (g : Nat) (s : State) : Out :=
  if s.sramDue g then
    let s := { s with rom := { s.rom with sram := g :: s.rom.sram } }
    .next ((coresOf g).foldl (fun s c => s.onCore c (fun k => { k with store := [], acc := [], bad := [] }))
      (s.onDie g (fun d => { d with dome := [], bad := [] })))
  else .fault .notEnabled

/-- Whether training of a link may end so, with so many lanes replaced and such a version range of the far end: step 4 of the
boot has begun on every die; a bridge port trains in step 9 on a die that runs Mepen, and with all of its own lanes; a link
within the module trains on both ends or on neither, and its far end is this part (R10, R12, R25, R56). -/
def State.trainDue (s : State) (g : Nat) (l : Link) (ok : Bool) (repaired vmin vmax : BitVec 8) : Bool :=
  decide (g < s.rom.variant.ndie) && s.allDies.all (fun d => s.rom.sram.contains d) && s.hasLink g l
    && !(s.die g).attempted l
    && (!isBridge l || (s.rom.up.contains g && decide (8 ≤ s.m.bootStep) && (!ok || repaired = 0)))
    && (match s.farEnd g l with
        | none => true
        | some e => (!(s.die e.1).attempted e.2 || s.trained e.1 e.2 == ok) && (!ok || (vmin = 1 && vmax = 2)))

/-- LINK_TRAINING_COMPLETE: the result, the lanes replaced and the measured latencies are recorded (R10, R12, R24, R57). -/
def execLinkTrainingComplete (g : Nat) (l : Link) (ok : Bool) (repaired : BitVec 8) (latency : BitVec 16)
    (holdLatency farMin farMax : BitVec 8) (s : State) : Out :=
  if !s.trainDue g l ok repaired farMin farMax then .fault .notEnabled
  else if !ok then .next (s.onDie g (fun d => { d with links := tabPut (linkNo l + 16) ⟨0, 0, 0, 0⟩ d.links })).openQueues
  else
    .next (s.onDie g (fun d =>
      let d := { d with links := tabPut (linkNo l) ⟨latency.toNat, farMin.toNat, farMax.toNat, repaired.toNat⟩ d.links }
      let d := (d.setField 0x0100 (linkBit l) (linkBit l) 1).setRpr
      match l with
      | .spanIn => d.setField 0x0248 15 0 latency.toNat
      | .chordIn => d.setField 0x0248 31 16 latency.toNat
      | .bridgeIn => d.setField 0x0248 39 32 holdLatency.toNat
      | _ => d)).openQueues

/-- Whether step 4 of the boot is complete on every die (R25). -/
def State.allTrained (s : State) : Bool :=
  s.allDies.all (fun g => [Link.spoke, .spanIn, .spanOut, .chordIn, .chordOut].all (fun l =>
    !s.hasLink g l || (s.die g).attempted l))

/-- Where a die takes its boot image from: its own spoke, else the first trained of the span and the chord from upstream
(R25, R27). -/
def State.bootSource (s : State) (g : Nat) : Option (ImageSource × Nat) :=
  let n := s.rom.variant.ndie
  if s.trained g .spoke then some (.host, g)
  else if s.trained g .spanIn then some (.span, (g + n - 1) % n)
  else if s.trained g .chordIn then some (.chord, (g + n - 2) % n)
  else none

/-- Whether a path of at most n hops brings a boot image to a die (R27). -/
def State.reachable (s : State) : Nat → Nat → Bool
  | 0, _ => false
  | n + 1, g =>
    match s.bootSource g with
    | none => false
    | some (.host, _) => true
    | some (_, u) => s.reachable n u

/-- The boot image a die has received. -/
def State.bootImage (s : State) (g : Nat) : Option (List Byte) := (s.rom.images.find? (fun e => e.1 = g)).map (·.2)

/-- Whether step 5 of the boot is complete: the host has written the image of every die with a trained spoke (R25). -/
def State.hostWrote (s : State) : Bool := s.allDies.all (fun d => !s.trained d .spoke || (s.bootImage d).isSome)

/-- Whether a die may take an image from a source now: steps 5 and 6 of the boot follow each other (R25, R27). -/
def State.relayDue (s : State) (g : Nat) (src : ImageSource) (image : List Byte) : Bool :=
  s.allTrained && decide (g < s.rom.variant.ndie) && (s.bootImage g).isNone && decide (image.length ≤ 2 ^ 30)
    && (match s.bootSource g with
        | none => false
        | some (.host, _) => src == .host
        | some (x, u) => src == x && s.hostWrote && s.bootImage u == some image)

/-- BOOT_IMAGE_RELAY: the image comes into the Dome of the die, at a place the spec does not give, and the boot ROM holds what it
is to verify (R25 steps 5 and 6, R27; log 43). -/
def execBootImageRelay (g : Nat) (src : ImageSource) (image : List Byte) (s : State) : Out :=
  if s.relayDue g src image then
    let f := s.freeValue
    .next (({ f.2 with rom := { f.2.rom with images := tabPut g image f.2.rom.images } } : State).onDie g
      (·.putBytes (bits f.1 31 0 % (2 ^ 30 - image.length + 1)) image))
  else .fault .notEnabled

/-- The length a boot image's header gives (R77). -/
def bootLen (l : List Byte) : Nat := natOfBytes (l.take 4)

/-- Whether a boot ROM accepts an image: the key's hash is the fused one and the signature verifies (R77). -/
def Rom.accepts (r : Rom) (l : List Byte) : Bool :=
  let n := bootLen l
  let body := n - 29792 - 64
  let key := (l.drop body).take 64
  decide (n ≤ l.length) && decide (64 + 64 + 29792 ≤ n)
    && natOfBytes (shake256 key 32) == r.keyHash.toNat
    && slhVerify slh256s key (l.take body) ((l.drop (body + 64)).take 29792)

/-- Whether a die has been through its boot ROM. -/
def Rom.settled (r : Rom) (g : Nat) : Bool := r.up.contains g || r.failed.contains g

/-- Whether the boot ROM of a die may verify now: step 6 is complete (R25, R77). -/
def State.verifyDue (s : State) (g : Nat) : Bool :=
  s.allTrained && decide (g < s.rom.variant.ndie) && !s.rom.settled g
    && s.allDies.all (fun d => !s.reachable s.rom.variant.ndie d || (s.bootImage d).isSome)

/-- The die stays in its boot ROM (R26, R63). -/
def State.bootFail (s : State) (g : Nat) : State :=
  ({ s with rom := { s.rom with failed := g :: s.rom.failed } }).onDie 0 (·.setField 0x0628 (32 + g) (32 + g) 1)

/-- The measurement after an image: SHAKE256(MEAS ‖ SHAKE256(image)), 64 bytes each (R78). -/
def measured (old : Rec512) (image : List Byte) : Rec512 :=
  BitVec.ofNat 512 (natOfBytes (shake256 (bytesOfNat 64 old.toNat ++ shake256 image 64) 64))

/-- Mepen runs on a die: the measurement, the world configuration, its fault queue (whose place and size are its own choice),
and on die 0 the interface versions and queue worlds (R62, R63, R77 to R79, R256). -/
def State.bootDone (s : State) (g : Nat) (image : List Byte) : State :=
  let l := image.take (bootLen image)
  let h : Rec512 := BitVec.ofNat 512 (natOfBytes (l.take 64))
  let s := { s with rom := { s.rom with
    up := g :: s.rom.up, header := tabPut g h s.rom.header
    meas := tabPut g (measured (tabGet 0 g s.rom.meas) l) s.rom.meas } }
  let s := s.onDie 0 (·.setField 0x0628 (16 + g) (16 + g) 1)
  let f := s.freeValue
  let s := f.2.onDie g (fun d =>
    (d.setReg 0x0A00 (BitVec.ofNat 64 (bits f.1 57 0 * 64))).setReg 0x0A08
      (BitVec.ofNat 64 (2 ^ 31 + (4 + bits f.1 71 64 % 9))))
  if g != 0 then s
  else
    let s := s.setQreg 0x0620 (BitVec.ofNat 64 (bits h 63 56 * 256 + bits h 55 48))
    (List.range 16).foldl (fun s q =>
      s.setQreg (0x0408 + 16 * q) (setBits (s.qreg (0x0408 + 16 * q)) 31 31 (if h.getLsbD (416 + q) then 1 else 0))) s

/-- DESIGN CHOICE (log 43): a die fails link training when no image reaches it over the links that trained; a die with some
failed span or chord still runs Mepen.
BOOT_IMAGE_VERIFY: the boot ROM accepts its image and jumps to Mepen, or holds the die; when every die is through, die 0
starts the KEYC synchronisation (R18, R25 steps 7 and 8, R26, R27, R77, R78). -/
def execBootImageVerify (g : Nat) (s : State) : Out :=
  if !s.verifyDue g then .fault .notEnabled
  else
    let s := match s.bootImage g with
      | none => s.bootFail g
      | some image => if s.rom.accepts image then s.bootDone g image else s.bootFail g
    if s.allDies.all s.rom.settled && s.rom.up.contains 0 then .next (s.sendToken 0 (.keyc (s.die 0).keyc)) else .next s

/-- Whether a die's measurement of its temperature is due: every 1,024 cycles (R20; log 43). -/
def State.thermDue (s : State) (g : Nat) : Bool :=
  !s.rom.held && decide (g < s.rom.variant.ndie) && decide ((s.die g).thermAt ≤ (s.die g).keyc)

/-- THERMAL_MEASUREMENT: TJ is written; at 95 °C WARN is set and an event sent to the lantern core; at 110 °C the whole module
enters reset (R19, R20, R24). -/
def execThermalMeasurement (g : Nat) (tj : BitVec 16) (s : State) : Out :=
  if !s.thermDue g then .fault .notEnabled
  else if 110 * 128 ≤ tj.toInt then .next (s.resetModule true)
  else
    .next (s.onDie g (fun d =>
      let d := { d with thermAt := d.keyc + 1024 }.setField 0x0108 15 0 tj.toNat
      if 95 * 128 ≤ tj.toInt then { d with warnings := d.warnings + 1 }.setField 0x0108 17 17 1 else d))

/-- The measurement of a die that is due, of a temperature that the model leaves free (R20; log 43). -/
def measureNow (g : Nat) (s : State) : Out :=
  if s.thermDue g then execThermalMeasurement g (s.freeValue.1.truncate 16) s.freeValue.2 else .fault .notEnabled

end Sys2Proof.Machine
end

