-- ==== Sys2Proof/Machine/Faults.lean ====
section
/-! DEFINITION. Fault queues, handler actions and the scrubber (R22, R154, R254 to R259). -/

namespace Sys2Proof.Machine

/-- LOG2N of a die's fault queue. -/
def Die.fqLog (d : Die) : Nat := bits (d.reg 0x0A08) 4 0
/-- Whether a die's fault queue is enabled and not full (R256). -/
def Die.fqRoom (d : Die) : Bool :=
  (d.reg 0x0A08).getLsbD 31 && ((d.reg 0x0A18).toNat + 1) % 2 ^ d.fqLog != (d.reg 0x0A10).toNat

/-- The fault record a die's queue takes next: the oldest held one, if there is room (R255, R256). -/
def Die.deliverable (d : Die) : Option FaultRec := if d.fqRoom then d.heldFaults.head? else none

/-- The die after a fault record has entered its queue at FQTAIL with the next sequence number (R254, R256); a record without
permitted actions needs no resolution. -/
def Die.deliver (d : Die) (f : FaultRec) : Die :=
  let raw := setBits f.raw 127 96 d.nextFseq
  let tail := (d.reg 0x0A18).toNat
  let d := { d with
    lantern := writeNat d.lantern ((d.reg 0x0A00).toNat + 64 * tail) 64 raw.toNat
    heldFaults := d.heldFaults.tail
    openFaults := if bits raw 143 136 = 0 then d.openFaults else d.openFaults ++ [{ f with raw := raw }]
    nextFseq := (d.nextFseq + 1) % 2 ^ 32 }
  (d.setReg 0x0A18 (BitVec.ofNat 64 ((tail + 1) % 2 ^ d.fqLog))).count 0x0A28 63 32 1

/-- FAULT_RECORD_DELIVERY (R255). -/
def execFaultRecordDelivery (g : Nat) (s : State) : Out :=
  match (s.die g).deliverable with
  | none => .fault .notEnabled
  | some f => .next (s.onDie g (·.deliver f))

/-- The unresolved fault record of a die with a sequence number. -/
def Die.openFault (d : Die) (fseq : Nat) : Option FaultRec := d.openFaults.find? (fun f => bits f.raw 127 96 = fseq)

/-- CODE of a fault record. -/
def FaultRec.code (f : FaultRec) : Nat := bits f.raw 7 0

/-- Whether a handler action is accepted: ACT permits it, and a record that cannot be resumed only takes the kills (R100,
R117, R253, R256). -/
def State.actionOk (s : State) (f : FaultRec) (action : Nat) : Bool :=
  f.raw.getLsbD (136 + action)
    && (decide (2 ≤ action) || !((s.core f.core).running == f.ofRec && f.ofRec.isSome && (s.core f.core).unresumable)
      && !(f.ofRec.bind s.record?).any (·.killOnly))

/-- A handler action on a die: refused ones change nothing and count in BADRES; an accepted one resolves its record (R256,
R257). -/
def handle (g : Nat) (fseq action : Nat) (effect : FaultRec → State → State) (s : State) : Out :=
  match (s.die g).openFault fseq with
  | none => .next (s.onDie g (·.count 0x0A28 15 0 1))
  | some f =>
    if !s.actionOk f action then .next (s.onDie g (·.count 0x0A28 15 0 1))
    else
      let s := s.onDie g (fun d => { d with openFaults := d.openFaults.filter (fun x => bits x.raw 127 96 ≠ fseq) })
      .next (effect f s)

/-- A matrix command without its stamp (R257). -/
def Cmd.unstamped (c : Cmd) : Cmd :=
  match c.ins with
  | .mma g cd a b x _ t u v p i => { c with ins := .mma g cd a b x 0 t u v p i }
  | .mzero g cd _ => { c with ins := .mzero g cd 0 }
  | _ => c

/-- What RESUME does (R257): after TRAP and BREAK both sequencers go on in one cycle and form a group; the record's missed matrix
command loses its stamp and the held ones follow; its faulted copy job restarts from BYTESDONE. -/
def State.resume (s : State) (f : FaultRec) : State :=
  let c := f.core
  if f.code = 0x0B then
    s.onCore c (fun k =>
      match k.engQueue 1 with
      | [] => k
      | x :: r =>
        if some x.ofRec = f.ofRec then
          { k.setEngQueue 1 (x.unstamped :: r) with engHold := k.engHold.filter (· ≠ 1) }
        else k)
  else if f.code = 0x0E then
    s.onCore c (fun k =>
      let own (j : Job) : Bool := j.eng = 0 && some j.id = f.job && j.st = .faulted
      if k.jobs.any own then
        { k with
          engHold := k.engHold.filter (· ≠ 0)
          jobs := k.jobs.map (fun j => if own j then { j with st := .waiting } else j) }
      else k)
  else if (s.core c).running != f.ofRec then s
  else
    let cl := clusterOf c
    let n := (s.cluster cl).nextGroup
    let now := s.ccyc c
    let go (q : Seq) : Seq := { q with nextIssue := now + 1, group := n }
    (s.onCluster cl (fun x => { x with nextGroup := n + 1 })).onCore c
      (fun k => { k with stopAt := none, a := go k.a, x := go k.x })

/-- RESUME (R257). -/
def execResume (g : Nat) (fseq : BitVec 32) : State → Out := handle g fseq.toNat 0 (fun f s => s.resume f)

/-- REPLAY: the named core's log sends its entries for the page one after another (R154, R257). -/
def execReplay (g : Nat) (fseq : BitVec 32) : State → Out :=
  handle g fseq.toNat 1 (fun f s => s.onCore f.core (fun k => { k with sideLog := sendFirst f.page k.sideLog }))

/-- KILL_RECORD (R257). -/
def execKillRecord (g : Nat) (fseq : BitVec 32) : State → Out :=
  handle g fseq.toNat 2 (fun f s =>
    match f.ofRec with
    | none => s
    | some n => (s.killRec n f.code).settle)

/-- KILL_LAUNCH: the record is killed and the others of its launch are stopped (R257). -/
def execKillLaunch (g : Nat) (fseq : BitVec 32) : State → Out :=
  handle g fseq.toNat 3 (fun f s =>
    match f.ofRec with
    | none => s
    | some n =>
      match s.record? n with
      | none => s
      | some r =>
        let s := s.killRec n f.code
        if ((s.launch? r.launch).map (·.active)).getD false then (s.faultLaunch r.launch f.code).settle else s.settle)

/-- The die of a scrubbed word. -/
def scrubDie : ScrubTarget → Nat
  | .dome g => g
  | .store c => dieOf c
  | .acc c => dieOf c

/-- The bytes of a scrubbed store. -/
def scrubSize : ScrubTarget → Nat
  | .dome _ => 2 ^ 30
  | .store _ => 2 ^ 21
  | .acc _ => 1536 * 1024

/-- Whether the bank or slice of a word has no program or engine access in this cycle, at whose end it is asked: no use of the
core-store bank or of the slice, nor one that a frozen cycle serves, and no footprint on the accumulator rows (R22, R115, R126,
R137). -/
def State.scrubIdle (s : State) (t : ScrubTarget) (addr : Nat) : Bool :=
  let idle (cl key cause : Nat) : Bool :=
    !(s.usesNow cl).any (fun u => u.key = key) && !(s.cluster cl).causes.any (fun f => f.served && f.cause = cause)
  match t with
  | .store c => idle (clusterOf c) (c * 32 + addr / 2 ^ 17) 3
  | .acc c => !(s.core c).fps.any (fun f => f.range.acc && f.active (s.ccyc c))
  | .dome g =>
    let k := addr / 256 % 64
    !(s.die g).slices.any (fun e => e.1 = k) && (List.range 8).all (fun i => idle (8 * g + i) (sliceKey + k) 4)

/-- A word of a store that an uncorrectable error has changed to an unknown value; matrix jobs that have fetched the word keep what
they read (R21; log 27). -/
def State.spoil (s : State) (t : ScrubTarget) (addr : Nat) (v : Word) : State :=
  let w := addr / 8
  match t with
  | .dome g => s.onDie g (fun d => { d with dome := writeNat d.dome (8 * w) 8 v.toNat, bad := List.insert w d.bad })
  | .store c =>
    let old := readNat (s.core c).store (8 * w) 8
    let keep (j : Job) : Job := if j.eng = 1 && !j.released then { j with hadRead := j.hadRead ++ [(c, w, old)] } else j
    let s := (List.range 8).foldl (fun s i =>
      s.onCore (clusterOf c * 8 + i) (fun k => { k with jobs := k.jobs.map keep })) s
    s.onCore c (fun k => { k with store := writeNat k.store (8 * w) 8 v.toNat, bad := List.insert w k.bad })
  | .acc c => s.onCore c (fun k =>
      { k with acc := memSet 0 (w / 128) (setBits (k.row (w / 128)) (64 * (w % 128) + 63) (64 * (w % 128)) v.toNat) k.acc
               bad := List.insert (2 ^ 18 + w) k.bad })

/-- Whether a word has an uncorrectable error (R21). -/
def State.wordBad (s : State) (t : ScrubTarget) (addr : Nat) : Bool :=
  match t with
  | .dome g => (s.die g).bad.contains (addr / 8)
  | .store c => (s.core c).bad.contains (addr / 8)
  | .acc c => (s.core c).bad.contains (2 ^ 18 + addr / 8)

/-- SCRUB_READ: a word that is uncorrectable is found so; else the word is sound, or a single-bit error of it is corrected and
counted, or its error is uncorrectable, or an error strikes it after the read and waits for the next read, or a single-bit
error of another access on the die is corrected and counted; which of them is a free value. An uncorrectable error goes to the
lantern core with no requester (R21, R22, R24, R259; log 27). No word is read before its initialisation (R23). -/
def execScrubRead (t : ScrubTarget) (addr : Nat) (s : State) : Out :=
  let g := scrubDie t
  if s.rom.variant.ndie ≤ g ∨ scrubSize t ≤ addr then .fault .noSuchUnit
  else if s.rom.held || !s.rom.sram.contains g || !s.scrubIdle t addr then .fault .notEnabled
  else
    let w := addr / 8 + (match t with | .acc _ => 2 ^ 18 | _ => 0)
    let report (s : State) : State :=
      s.raiseFor g (g * 64) none { code := .eccUncorrectable, cause := g * 2 ^ 32 + 8 * w, kind := 4 } none none 0
    if s.wordBad t addr then .next (report s)
    else
      let f := s.freeValue
      let s := f.2
      match bits f.1 1 0 with
      | 1 => .next (s.onDie g (·.count 0x0110 63 32 1))
      | 3 => .next (s.spoil t addr ((f.1 >>> 64).truncate 64))
      | 2 => .next (report (s.spoil t addr ((f.1 >>> 64).truncate 64)))
      | _ => .next s

end Sys2Proof.Machine
end

