-- ==== Sys2Proof/Machine/Host.lean ====
section
/-! DEFINITION. Register windows, queue registers, spoke messages and rewrites of the TLB (R24, R57, R59 to R64, R105, R118,
R149, R150, R209, R256, R387). -/

namespace Sys2Proof.Machine

/-- A field [hi:lo] of a register takes the bits of a written value. -/
def Die.rw (d : Die) (off : Nat) (v : Word) (hi lo : Nat) : Die := d.setField off hi lo (bits v hi lo)
/-- A counter field is cleared by a 1 written to any of its bits. -/
def Die.w1c (d : Die) (off : Nat) (v : Word) (hi lo : Nat) : Die := if bits v hi lo = 0 then d else d.setField off hi lo 0

/-- A write of VCTL (R57). -/
def Die.writeVctl (d : Die) (v : Word) (last : Bool) : Die :=
  let d := (d.rw 0x0200 v 63 32).rw 0x0200 v 31 16
  let d := if bits v 15 14 = 3 then d else d.rw 0x0200 v 15 14
  let d := (d.rw 0x0200 v 13 13).rw 0x0200 v 11 8
  if last then d.rw 0x0200 v 12 12 else d

/-- A write of a queue's configuration: LOG2N holds while the queue is enabled, and EN is set only at a size in range; keep:
a size out of range leaves LOG2N (R63, R256). DESIGN CHOICE (log 42): a write of EN = 1 is judged by the LOG2N that the same
write leaves. -/
def Die.writeQcfg (d : Die) (off en : Nat) (v : Word) (top : Nat) (keep : Bool) : Die :=
  let ok (n : Nat) : Bool := decide (4 ≤ n) && decide (n ≤ top)
  let d := if (d.reg off).getLsbD en || (keep && !ok (bits v 4 0)) then d else d.rw off v 4 0
  if v.getLsbD en && !ok (bits (d.reg off) 4 0) then d else d.rw off v en en

/-- A write of a queue register of die 0's window (R63, R64); tails, heads and their counters have events of their own. -/
def Die.writeQueue (d : Die) (off : Nat) (v : Word) : Die :=
  if 0x0400 ≤ off ∧ off < 0x0500 then
    let cfg := off / 16 * 16 + 8
    if off % 16 = 0 then (if (d.reg cfg).getLsbD 30 then d else d.rw off v 63 12)
    else d.writeQcfg cfg 30 v 16 false
  else
    match off with
    | 0x0600 => if (d.reg 0x0608).getLsbD 31 then d else d.rw off v 63 12
    | 0x0608 => (d.writeQcfg off 31 v 16 true).rw off v 15 8
    | 0x0628 => d.w1c off v 63 48
    | _ => d

/-- A write by the die's lantern core of a register that only it may write (R57, R105, R118, R209, R256, R387). -/
def Die.writeLantern (d : Die) (off : Nat) (v : Word) (last : Bool) : Die :=
  if 0x0800 ≤ off ∧ off < 0x0880 then
    if off % 16 = 0 then d.rw off v 24 0 else ((d.w1c off v 63 32).w1c off v 31 16).w1c off v 15 0
  else
    match off with
    | 0x0200 => d.writeVctl v last
    | 0x0210 => ((d.rw off v 49 38).rw off v 37 24).rw off v 18 0
    | 0x0218 | 0x0220 | 0x0228 | 0x0230 => d.setReg off v
    | 0x0238 => (d.w1c off v 63 32).w1c off v 31 0
    | 0x0240 => (((d.w1c off v 63 48).w1c off v 47 32).w1c off v 31 16).w1c off v 15 0
    | 0x0700 => (d.rw off v 63 32).rw off v 0 0
    | 0x0900 | 0x0908 | 0x0910 | 0x0918 => if d.kvEn then d else d.setReg off v
    | 0x0920 =>
      if !d.kvEn then ((d.rw off v 63 48).rw off v 47 40).rw off v 0 0
      else if v.getLsbD 0 then d else d.setField off 0 0 0
    | 0x0A00 => if (d.reg 0x0A08).getLsbD 31 then d else d.rw off v 63 6
    | 0x0A08 => d.writeQcfg off 31 v 12 true
    | 0x0A28 => ((d.w1c off v 63 32).w1c off v 31 16).w1c off v 15 0
    | 0x0B00 | 0x0B08 => if d.ioEn then d else (d.rw off v 63 12).rw off v 4 0
    | 0x0B10 => (d.rw off v 31 16).rw off v 0 0
    | 0x0B18 => ((d.w1c off v 63 32).w1c off v 31 16).w1c off v 15 0
    | _ => d

/-- A write of a register that the host and the lantern core may both write (R24, R105). -/
def Die.writeShared (d : Die) (off : Nat) (v : Word) : Die :=
  match off with
  | 0x0108 => if v.getLsbD 17 then d.setField off 17 17 0 else d
  | 0x0110 => (d.w1c off v 63 32).w1c off v 31 16
  | 0x0708 => (((d.w1c off v 63 48).w1c off v 47 32).w1c off v 31 16).w1c off v 15 0
  | _ => d

/-- The tail write of a queue (R61 to R63): to a secure queue one that is no secure spoke-protocol write is rejected and
counted. -/
def State.writeTail (s : State) (q : Nat) (v : Word) (secure : Bool) : State :=
  let t := bits v 15 0
  if (s.qreg (0x0408 + 16 * q)).getLsbD 31 && !secure then s.onDie 0 (·.count 0x0628 63 48 1)
  else if s.sqEn q && decide (t < 2 ^ s.sqLog q) then s.setQreg (0x0500 + 8 * q) (BitVec.ofNat 64 t)
  else s

/-- SQ_TAIL_WRITE (R62, R63). -/
def execSqTailWrite (q : BitVec 4) (value : Word) (secure : Bool) (s : State) : Out := .next (s.writeTail q.toNat value secure)

/-- The host's write of CQHEAD: entries are freed and waiting records are written; a value of 2^LOG2N or more is ignored (R63,
R64). -/
def State.writeCqHead (s : State) (v : Word) : State :=
  if v.toNat < 2 ^ bits (s.qreg 0x0608) 4 0 then (s.setQreg 0x0610 v).flushOut s.m.lead.out.length
  else s

/-- CQ_HEAD_WRITE (R64). -/
def execCqHeadWrite (value : Word) (s : State) : Out := .next (s.writeCqHead value)

/-- Whether MSI-X vector 0 is due for records that have waited 2^16 cycles (R63). -/
def State.msiDue (s : State) : Bool :=
  decide (0 < s.m.lead.unsignalled) && decide (s.m.lead.firstAt + 2 ^ 16 ≤ (s.die s.m.lead.die).keyc)

/-- CQ_INTERRUPT_TIMER (R63). -/
def execCqInterruptTimer (s : State) : Out :=
  if s.msiDue then .next { s with m := { s.m with lead := { s.m.lead with unsignalled := 0, msi := s.m.lead.msi + 1 } } }
  else .fault .notEnabled

/-- The die after a write of FQHEAD; a value of 2^LOG2N or more is ignored (R256). -/
def Die.writeFqHead (d : Die) (v : Word) : Die :=
  if v.toNat < 2 ^ d.fqLog then d.setReg 0x0A10 v else d

/-- FQ_HEAD_WRITE (R256). -/
def execFqHeadWrite (g : Nat) (value : Word) (s : State) : Out :=
  if s.rom.variant.ndie ≤ g then .fault .noSuchUnit else .next (s.onDie g (·.writeFqHead value))

/-- A write of FRES takes a handler action (R256, R257). -/
def writeFres (g : Nat) (v : Word) (s : State) : Out :=
  let n : BitVec 32 := BitVec.ofNat 32 (bits v 63 32)
  match bits v 9 8 with
  | 0 => execResume g n s
  | 1 => execReplay g n s
  | 2 => execKillRecord g n s
  | _ => execKillLaunch g n s

/-- Whether a writer reaches a die's window: its lantern core always, the abutment die over a trained spoke (R59, R60). -/
def State.reaches (s : State) (g : Nat) (w : Writer) : Bool :=
  match w with
  | .lantern => true
  | .host | .hostSecure => g % 4 = 0 && s.trained g .spoke
  | .other => false

/-- A write of VCTL or VDROP by the lantern core that leaves DROP set with a new range: what of it is in the ring is dropped
(R52). -/
def State.newDrop (s : State) (g off : Nat) (t : State) : State :=
  if (t.die g).vctl 8 && (off = 0x0230 || (off = 0x0200 && !(s.die g).vctl 8)) then
    (t.onDie g (fun d => d.onRing (fun r => { r with holed := true }))).markOld
  else t

/-- A write of a die's register window by an agent that reaches it; registers the agent may not write, and offsets that hold
none, ignore it; records that waited for the completion queue to be enabled are written (R57, R59, R63, R64, R105, R118, R209, R256,
R387). -/
def State.writeWindow (s : State) (g off : Nat) (v : Word) (w : Writer) : Out :=
  let queue := decide (0x0400 ≤ off) && decide (off < 0x0640)
  if queue && g != 0 then .next s
  else if 0x0500 ≤ off ∧ off < 0x0580 then .next (s.writeTail ((off - 0x0500) / 8) v (w == .hostSecure))
  else if off = 0x0610 then .next (s.writeCqHead v)
  else if off = 0x0608 then .next ((s.onDie 0 (·.writeQueue off v)).flushOut s.m.lead.out.length)
  else if queue then .next (s.onDie 0 (·.writeQueue off v))
  else if w != .lantern then .next (s.onDie g (·.writeShared off v))
  else if off = 0x0A10 then .next (s.onDie g (·.writeFqHead v))
  else if off = 0x0A20 then writeFres g v s
  else
    .next (s.newDrop g off (s.onDie g (fun d => (d.writeShared off v).writeLantern off v (g + 1 = s.rom.variant.ndie))))

/-- REGISTER_WRITE (R57). -/
def execRegisterWrite (g : Nat) (off : BitVec 16) (value : Word) (w : Writer) (s : State) : Out :=
  if s.rom.variant.ndie ≤ g then .fault .noSuchUnit
  else if s.reaches g w && off.toNat % 8 = 0 then s.writeWindow g off.toNat value w else .next s

/-- SPOKE_MESSAGE: a message is taken whole at a spoke die (R60, R62): a secure register access acts on that die's window; far
traffic has acted on host memory when its access was performed. -/
def execSpokeMessage (g : Nat) (msg : Option SpokeIn) (s : State) : Out :=
  if s.rom.variant.ndie ≤ g ∨ g % 4 ≠ 0 then .fault .noSuchUnit
  else if !s.trained g .spoke then .fault .notEnabled
  else
    match msg with
    | none => .next s
    | some (.tail q v) => if g = 0 then .next (s.writeTail q.toNat v true) else .next s
    | some (.reg off v) => if off.toNat % 8 = 0 then s.writeWindow g off.toNat v .hostSecure else .next s

/-- KV_UNIT_DISABLE: EN of KVCFG is cleared; the unit takes no further job (R209). -/
def execKvUnitDisable (g : Nat) (s : State) : Out :=
  if (s.die g).kvEn then .next (s.onDie g (·.setField 0x0920 0 0 0)) else .fault .notEnabled

/-- The bits of a leaf entry that Mepen may not rewrite (R143). -/
def leafFixed (l : Word) : Nat × Nat × Nat := (bits l 63 62, bits l 57 48, bits l 15 0)

/-- The first address a TLB key and entry map. -/
def leafBase (key : Nat) : Nat := key * 2 ^ 16

/-- The Dome pages an entry of die o maps, as die and page numbers; far pages stand at die 2^16 (R145, R147). -/
def State.leafPages (s : State) (o key : Nat) (l : Word) : List (Nat × Nat) :=
  let far := bits (BitVec.ofNat 64 (leafBase key)) 63 62 == 1
  (List.range (if lG l then 32 else 1)).map (fun i => (if far then 2 ^ 16 else s.holder o l, lPpn l + i))

/-- Whether an entry of die o would map a physical page otherwise than another valid entry does (R147); skip: an entry's own
die and key. -/
def State.attrClash (s : State) (o key : Nat) (l : Word) (skip : Option (Nat × Nat)) : Bool :=
  let pages := s.leafPages o key l
  s.allDies.any (fun g => (s.die g).tlb.any (fun e =>
    lV e.2 && some (g, e.1) != skip && (lCmp e.2 != lCmp l || lLay e.2 != lLay l)
      && (s.leafPages g e.1 e.2).any pages.contains))

/-- Whether what an entry of a die's TLB has translated is still to be performed: a forwarded request (R149), or a run of a copy whose
pages have been checked (R179). -/
def State.leafBusy (s : State) (g key : Nat) (l : Word) : Bool :=
  let lo := leafBase key
  let hi := lo + (if lG l then 2 ^ 21 else 2 ^ 16)
  s.m.reqs.any (fun r => r.owner = g && (match r.at_ with | .forwarded .. => true | _ => false)
    && decide (lo ≤ r.va.toNat) && decide (r.va.toNat < hi))
    || s.liveCores.any (fun c => (s.runVas c).any (fun va => decide (lo ≤ va) && decide (va < hi) && s.ownerDie (dieOf c) va == g))

/-- Whether a rewrite of an entry must wait: for requests translated with the old value, or for an earlier rewrite (R150). -/
def State.rewriteBlocked (s : State) (g key : Nat) (old : Word) : Bool :=
  s.leafBusy g key old || (s.die g).rewrites.any (fun e => e.1 = key)

/-- TLB_REWRITE: the RW fields of a valid entry change once requests translated with the old value are performed, for which it waits
while requests that come to the entry wait for the new value; a rewrite that changes an RO field, leaves the Dome or conflicts
with the reverse attributes is refused (R143, R147, R150), and so is one that makes a far entry one that R139 does not allow: DESIGN
CHOICE (log 35). -/
def execTlbRewrite (g : Nat) (va leaf : Word) (s : State) : Out :=
  match (s.die g).leafKey va.toNat with
  | none => .fault .notEnabled
  | some key =>
    let old := tabGet 0 key (s.die g).tlb
    if leafFixed old != leafFixed leaf then .next s
    else
      let far := bits va 63 62 == 1
      if (!far && decide (0x3FFF < lPpn leaf + (if lG leaf then 31 else 0))) || (lG leaf && lPpn leaf % 32 != 0)
          || (far && (lA leaf || lRap leaf)) || (if lA leaf then (s.localDie (lTarget leaf)).isNone else lTarget leaf != 0)
          || s.attrClash g key leaf (some (g, key)) then .next s
      else if s.rewriteBlocked g key old then .next (s.onDie g (fun d => { d with rewrites := d.rewrites ++ [(key, leaf)] }))
      else .next (s.onDie g (fun d => { d with tlb := tabPut key leaf d.tlb }))

/-- A rewrite of a die's entry that has waited is made: the requests translated with the old value are performed. An entry that is
gone stays so, and a rewrite that conflicts with the reverse attributes by now is refused (R147, R149, R150). -/
def applyRewrite (g : Nat) (s : State) : Out :=
  let d := s.die g
  match d.rewrites.find? (fun e => !s.leafBusy g e.1 (tabGet 0 e.1 d.tlb)) with
  | none => .fault .notEnabled
  | some e =>
    let old := tabGet 0 e.1 d.tlb
    let tlb := if lV old && leafFixed old == leafFixed e.2 && !s.attrClash g e.1 e.2 (some (g, e.1)) then tabPut e.1 e.2 d.tlb else d.tlb
    .next (s.onDie g (fun d => { d with tlb := tlb, rewrites := d.rewrites.erase e }))

end Sys2Proof.Machine
end

