-- ==== Sys2Proof/Machine/Command.lean ====
section
/-! DEFINITION. Taking a packet, its checks, dependencies, and the commands PIN, UNPIN and SIGNAL (R61 to R72, R75, R143, R147,
R149). -/

namespace Sys2Proof.Machine

/-- The packet that a queue's head names (R61, R65). -/
def State.headPacket (s : State) (q : Nat) : Rec512 :=
  BitVec.ofNat 512 (readNat s.m.host (bits (s.qreg (0x0400 + 16 * q)) 63 12 * 4096 + 64 * s.sqHead q) 64)

/-- Whether IFV lies between IFMIN and IFMAX (R66). -/
def State.ifvOk (s : State) (p : Rec512) : Bool :=
  decide (bits (s.qreg 0x0620) 7 0 ≤ pktIfv p) && decide (pktIfv p ≤ bits (s.qreg 0x0620) 15 8)

/-- Whether a queue holds its later commands back: a dependent of it waits, or a FENCE is in progress (R67, R71, R72). -/
def State.queueBlocked (s : State) (q : Nat) : Bool :=
  s.m.lead.waiting.any (fun b => b.queue = q) || s.m.lead.busy.any (fun b => b.queue = q && pktOpc b.packet = 0x0B)

/-- What becomes of a command by its dependency (R67). -/
inductive Fate where
  | met | cancelled | waits
deriving DecidableEq, Repr

/-- The command that a packet depends on: the most recent of its DQ and DCID taken before number n, with its final status
(R67). -/
def State.depOf (s : State) (p : Rec512) (n : Nat) : Option (Nat × Option Nat) :=
  (pktDep p).bind (fun d =>
    ((s.past d.1).find? (fun x => x.cid = d.2 && decide (x.order < n))).map (fun x => (x.order, x.status)))

/-- The fate that a dependency decides (R67). -/
def fateOf : Option (Nat × Option Nat) → Fate
  | none => .met
  | some (_, none) => .waits
  | some (_, some 0) => .met
  | some (_, some _) => .cancelled

/-- The fate of a packet that is taken as number n (R67). -/
def State.fate (s : State) (p : Rec512) (n : Nat) : Fate := fateOf (s.depOf p n)

/-- The dies whose TLB holds the entries of a VA: the owner for Dome space, every spoke die for far space (R72, R142). -/
def State.pinDies (s : State) (va : Nat) : List Nat :=
  match va / 2 ^ 62 with
  | 0 => (s.localDie (va / 2 ^ 52 % 1024)).toList
  | 1 => s.allDies.filter (fun g => g % 4 = 0)
  | _ => []

/-- The pages an UNPIN removes in n steps from va, as TLB keys by die, and how many there are (R72). -/
def State.unpinList (s : State) : Nat → Nat → List (Nat × Nat) × Nat
  | _, 0 => ([], 0)
  | va, n + 1 =>
    let hits := (s.pinDies va).filterMap (fun g => ((s.die g).leafKey va).map (fun k => (g, k)))
    match hits with
    | [] => s.unpinList ((va / 2 ^ 16 + 1) * 2 ^ 16) n
    | (g, k) :: _ =>
      let next := if lG (tabGet 0 k (s.die g).tlb) then (va / 2 ^ 21 + 1) * 2 ^ 21 else (va / 2 ^ 16 + 1) * 2 ^ 16
      let r := s.unpinList next n
      (hits ++ r.1, r.2 + 1)

/-- Whether a command must wait to start: an UNPIN for requests translated by its entries; a second INJECT, or a RING_CONFIG, for
an INJECT in progress, which is never interrupted (R53, R71, R149). -/
def State.mustWait (s : State) (p : Rec512) : Bool :=
  match pktOpc p with
  | 2 => (s.unpinList (pkt p 16 8) (pkt p 32 4)).1.any (fun e => s.leafBusy e.1 e.2 (tabGet 0 e.2 (s.die e.1).tlb))
  | 5 | 6 => s.m.lead.inject.isSome
  | _ => false

/-- Whether the lead lantern may take the next packet of a queue (R61, R64, R71); a command that must wait is passed over
until it can start. -/
def State.takable (s : State) (q : Nat) : Bool :=
  s.sqEn q && s.sqHead q != s.sqTail q && !s.queueBlocked q
    && !(s.fate (s.headPacket q) (s.m.lead.order + 1) == .met && s.mustWait (s.headPacket q))

/-- The queue whose turn it is: the first in round-robin order with a packet to take; READY is set, the completion queue has
room, and no RING_CONFIG is under way (R25, R64, R71). -/
def State.nextQueue (s : State) : Option Nat :=
  if (s.qreg 0x0628).getLsbD 0 && s.cqRoom && s.m.lead.out.isEmpty && s.m.lead.config.isNone then
    ((List.range 16).map (fun i => (s.m.lead.rr + i) % 16)).find? s.takable
  else none

/-- A packet is taken: SQHEAD advances and it enters the history of its queue (R61, R67, R71). DESIGN CHOICE (log 42): it counts
itself among the 4,096 commands of its queue's window, so that a dependency on its own queue reaches 4,095 back. -/
def State.takePacket (s : State) (q : Nat) (p : Rec512) : State × Busy :=
  let l := s.m.lead
  let s := { s with m := { s.m with lead := { l with rr := (q + 1) % 16, order := l.order + 1 } } }
  let s := s.setQreg (0x0580 + 8 * q) (BitVec.ofNat 64 ((s.sqHead q + 1) % 2 ^ s.sqLog q))
  let s := s.setPast q ((⟨pktCid p, pktOpc p, l.order, none⟩ :: s.past q).take 4096)
  (s, { queue := q, packet := p, order := l.order, super := false })

/-- The operand bits of bytes 16 to 63 that each command gives a meaning: byte offset, number of bytes, bits used of the last
of them (R72). -/
def operandLayout : Nat → List (Nat × Nat × Nat)
  | 0x01 => [(16, 8, 8), (24, 8, 8), (32, 4, 8)]
  | 0x02 => [(16, 8, 8), (32, 4, 8)]
  | 0x03 => [(16, 8, 8), (24, 8, 8), (32, 1, 1)]
  | 0x04 => [(16, 1, 8), (24, 8, 8), (32, 4, 8)]
  | 0x05 => [(16, 8, 8), (24, 4, 8)]
  | 0x06 => [(16, 4, 8)]
  | 0x07 => [(16, 1, 8), (24, 8, 8), (32, 1, 8), (33, 1, 1), (40, 8, 8)]
  | 0x08 => [(16, 5, 4), (24, 4, 8), (32, 32, 8)]
  | 0x09 => [(16, 5, 4), (24, 4, 8), (32, 8, 8)]
  | 0x0A => [(16, 5, 4), (24, 3, 8), (32, 8, 8)]
  | 0x0C => [(16, 1, 8)]
  | 0x0D => [(16, 5, 4)]
  | 0x0E => [(16, 42, 8)]
  | _ => []

/-- How many low bits of byte i from 16 on a command gives a meaning (R72). -/
def usedBits (opc i : Nat) : Nat :=
  match (operandLayout opc).find? (fun e => decide (e.1 ≤ i) && decide (i < e.1 + e.2.1)) with
  | none => 0
  | some e => if i + 1 = e.1 + e.2.1 then e.2.2 else 8

/-- Whether byte i of a packet has a reserved bit set (R65, R72). -/
def reservedByte (p : Rec512) (i : Nat) : Bool :=
  let b := pkt p i 1
  match i with
  | 4 => b != 0
  | 5 => decide (1 < b)
  | 12 => b / 16 != 0
  | 13 | 14 => b != 0
  | 15 => b % 128 != 0
  | _ => decide (16 ≤ i) && b / 2 ^ usedBits (pktOpc p) i != 0

/-- The byte at which the reserved field that byte i belongs to begins; an operand of one byte ends with that byte, those of its
bits that have no meaning are a field of their own (R65, R66, R72; log 42). -/
def reservedFrom (opc : Nat) : Nat → Nat
  | 0 => 0
  | i + 1 =>
    if i + 1 < 16 then min (i + 1) (if 13 ≤ i + 1 then 12 else 16)
    else if i + 1 = 16 ∨ 0 < usedBits opc (i + 1) ∨ usedBits opc i = 8 ∨ (operandLayout opc).any (fun e => e.1 = i && e.2.1 = 1) then i + 1
    else reservedFrom opc i

/-- Whether a leaf entry has a value that PIN refuses whatever the pages (R139, R143, R148). -/
def State.leafBad (s : State) (far : Bool) (l : Word) : Bool :=
  !lV l || !l.getLsbD 7 || bits l 15 8 != 0 || bits l 5 0 != 0 || decide (2 < lCmp l) || decide (2 < lLay l)
    || decide (12 < lFmt l) || (lCmp l == 2 && lLay l != 2)
    || (lG l && lPpn l % 32 != 0)
    || (!far && decide (0x3FFF < lPpn l + (if lG l then 31 else 0)))
    || (if lA l then (s.localDie (lTarget l)).isNone else lTarget l != 0)
    || (far && (lA l || lRap l || lCmp l != 0))

/-- The launch a command names by CID and queue (R72): it is active, or has ended, or the command is refused; or it has been
taken and still waits. -/
inductive Named where
  | active (l : Nat) (ln : Launch)
  | ended (ln : Launch)
  | waiting (b : Busy)
  | bad
deriving DecidableEq, Repr

/-- The most recently taken active launch of a queue and CID. -/
def State.activeNamed (s : State) (q cid : Nat) : Option (Nat × Launch) :=
  (s.m.launches.filter (fun e => e.2.active && e.2.queue = q && e.2.cid = cid)).foldl
    (fun b e => match b with
      | none => some e
      | some x => if x.1 < e.1 then some e else b) none

/-- The launch that a SLOT_WRITE, SLOT_READ, SIGNAL or TEARDOWN names: the most recent command of that queue and CID taken before
it; of those no longer among the last 4,096, an active launch (R72). -/
def State.named (s : State) (b : Busy) : Named :=
  let q := bits b.packet 163 160
  match (s.past q).find? (fun x => x.cid = pkt b.packet 16 4 && decide (x.order < b.order)) with
  | none =>
    match s.activeNamed q (pkt b.packet 16 4) with
    | some (l, ln) => .active l ln
    | none => .bad
  | some x =>
    if x.opc != 7 then .bad
    else
      match s.launch? x.order with
      | some ln => if ln.active then .active x.order ln else .ended ln
      | none =>
        match s.m.lead.waiting.find? (fun w => w.order = x.order) with
        | some w => .waiting w
        | none => .bad

/-- The die, slot and launch of a SLOT_WRITE or SLOT_READ, or the status and offset it ends with (R72). -/
def State.slotTarget (s : State) (b : Busy) (l : Nat) (ln : Launch) : Except (Nat × Nat) (Nat × Nat × Nat × Launch) :=
  match s.localDie (pkt b.packet 24 2) with
  | none => .error (3, 24)
  | some g =>
    if s.slotCount ln g = 0 then .error (3, 24)
    else if s.slotCount ln g ≤ pkt b.packet 26 2 then .error (3, 26)
    else .ok (g, pkt b.packet 26 2, l, ln)

/-- The first byte of an entry with a field for which it may not be written to a slot, if it has one: STATE, BUCKET and the
reserved bit are in byte 8, STAGE in bytes 10 and 11 (R92, R93). -/
def State.entryBadAt (s : State) (g n : Nat) (ln : Launch) (e : BitVec 256) : Option Nat :=
  if decide (1 < bits e 65 64) || bits e 67 66 != bucketOf (s.buckets ln g) n || e.getLsbD 68 then some 8
  else if bits e 65 64 != 0 && (s.localRecs ln g (bits e 95 80)).isEmpty then some 10
  else none

/-- The operands of a command that a named active launch bounds: die and slot, the slot's entry, the core (R72, R93). -/
def State.launchLimits (s : State) (b : Busy) (l : Nat) (ln : Launch) : List Nat :=
  let opc := pktOpc b.packet
  if opc = 0x0A then (if ln.binding.length ≤ pkt b.packet 24 2 then [24] else [])
  else if opc = 0x0D then []
  else
    match s.slotTarget b l ln with
    | .error e => [e.2]
    | .ok (g, n, _, _) =>
      if opc = 0x08 then ((s.entryBadAt g n ln (BitVec.ofNat 256 (bits b.packet 511 256))).map (32 + ·)).toList else []

/-- Operands outside their limits, as byte offsets in ascending order (R66, R72). -/
def State.limits (s : State) (b : Busy) : List Nat :=
  let p := b.packet
  let at_ (c : Bool) (o : Nat) : List Nat := if c then [o] else []
  let va := pkt p 16 8
  let far := va / 2 ^ 62 == 1
  let vaBad := (s.pinDies va).isEmpty || (far && va / 2 ^ 52 % 1024 != (s.die 0).modPos.toNat * 16)
  let pages := decide (pkt p 32 4 < 1) || decide (65536 < pkt p 32 4)
  let named := match s.named b with | .active l ln => s.launchLimits b l ln | .bad => [16] | _ => []
  match pktOpc p with
  | 0x01 =>
    let l : Word := BitVec.ofNat 64 (pkt p 24 8)
    at_ (vaBad || va % (if lG l then 2 ^ 21 else 2 ^ 16) != 0) 16 ++ at_ (s.leafBad far l) 24 ++ at_ pages 32
  | 0x02 => at_ vaBad 16 ++ at_ pages 32
  | 0x03 => at_ (decide (2 ^ 28 < pkt p 24 8)) 24
  | 0x05 => at_ (decide (pkt p 24 4 < 64)) 24
  | 0x07 => at_ (decide (3 < pkt p 32 1)) 32 ++ at_ (pkt p 40 8 / 2 ^ 62 != 0) 40
  | 0x08 | 0x09 | 0x0D => named
  | 0x0A => named ++ at_ (decide (pkt p 26 1 < 8) || decide (15 < pkt p 26 1)) 26
  | 0x0C => at_ (decide (15 < pkt p 16 1) || pkt p 16 1 == b.queue) 16
  | _ => []

/-- The first offending field of a packet by byte offset (R66). -/
def State.badField (s : State) (b : Busy) : Option Nat :=
  match (((List.range 64).filter (reservedByte b.packet)).map (reservedFrom (pktOpc b.packet)) ++ s.limits b) with
  | [] => none
  | x :: r => some (r.foldl min x)

/-- Whether a command names a secure unit, region, image or launch (R66, R79). -/
def State.namesSecure (s : State) (b : Busy) : Bool :=
  let p := b.packet
  match pktOpc p with
  | 0x01 =>
    let l : Word := BitVec.ofNat 64 (pkt p 24 8)
    let o := (s.pinDies (pkt p 16 8)).headD 0
    lS l || (pkt p 16 8 / 2 ^ 62 == 0
      && (List.range (pkt p 32 4 * (if lG l then 32 else 1))).any (fun i =>
            s.rom.secureGranule (s.holder o l) ((lPpn l + i) * 2 ^ 16)))
  | 0x02 => (s.unpinList (pkt p 16 8) (pkt p 32 4)).1.any (fun e =>
      let l : Word := tabGet 0 e.2 (s.die e.1).tlb
      lS l || (pkt p 16 8 / 2 ^ 62 == 0 && (s.leafPages e.1 e.2 l).any (fun x => s.rom.secureGranule x.1 (x.2 * 2 ^ 16))))
  | 0x03 => p.getLsbD 256
  | 0x04 | 0x07 => ((s.image? (pkt p 16 1)).map (·.secure)).getD false
  | 0x08 | 0x09 | 0x0A | 0x0D =>
    match s.named b with
    | .active _ ln | .ended ln => ln.secure
    | .waiting w => ((s.image? (pkt w.packet 16 1)).map (·.secure)).getD false
    | .bad => false
  | 0x0C => s.sqSecure (pkt p 16 1)
  | _ => false

/-- The status of a command that is refused before it does anything, and RESULT0 (R66, steps 3 and 4). DESIGN CHOICE (log 42):
RESULT0 is 0 but for BADFIELD, and RESULT1 is 0, as in VERSION and BADOPC completions. -/
def State.refused (s : State) (b : Busy) : Option (Nat × Nat) :=
  match s.badField b with
  | some o => some (3, o)
  | none => if !s.sqSecure b.queue && s.namesSecure b then some (8, 0) else none

/-- Whether any valid entry of a die maps an address of the page under a key (R72). -/
def Die.pageTaken (d : Die) (key n : Nat) : Bool :=
  d.tlb.any (fun e => lV e.2 && decide (e.1 < key + n) && decide (key < e.1 + (if lG e.2 then 32 else 1)))

/-- Whether Mepen of a die has taken a physical page (R58, R91). -/
def Die.pageReserved (d : Die) (ppn : Nat) : Bool := d.reserved.any (fun e => decide (e.1 ≤ ppn) && decide (ppn < e.1 + e.2))

/-- The status with which PIN refuses the page under a key, if it does (R58, R72, R91, R143, R147). DESIGN CHOICE (log 42): a page
that would lie under another owner's bits of VA than the first is refused BADFIELD. -/
def State.pinRefuses (s : State) (va : Nat) (dies : List Nat) (key : Nat) (l : Word) (i : Nat) : Option Nat :=
  let n := if lG l then 32 else 1
  let far := va / 2 ^ 62 == 1
  let o := dies.headD 0
  let top := lPpn l + i * n + n - 1
  let l' := setBits l 37 16 (lPpn l + i * n)
  if decide (2 ^ 22 ≤ top) || (!far && decide (0x3FFF < top)) || (key * 2 ^ 16) / 2 ^ 52 != va / 2 ^ 52
      || dies.any (fun g => (s.die g).pageTaken key n)
      || (!far && (List.range n).any (fun j => (s.die (s.holder o l)).pageReserved (lPpn l + i * n + j))) then some 3
  else if s.attrClash o key l' none then some 4
  else if dies.any (fun g => decide (65536 ≤ (s.die g).tlb.length + i)) then some 5
  else none

/-- PIN: all pages are installed, or none (R72). -/
def runPin (b : Busy) (s : State) : State :=
  let p := b.packet
  let va := pkt p 16 8
  let l : Word := BitVec.ofNat 64 (pkt p 24 8)
  let n := if lG l then 32 else 1
  let dies := s.pinDies va
  let key (i : Nat) : Nat := va / 2 ^ 16 + i * n
  let count := pkt p 32 4
  match (List.range count).findSome? (fun i => (s.pinRefuses va dies (key i) l i).map (fun st => (st, key i * 2 ^ 16))) with
  | some (st, at_) => s.conclude b st false at_ 0
  | none =>
    let put (t : Tab Word) : Tab Word :=
      (List.range count).foldl (fun t i => tabPut (key i) (setBits l 37 16 (lPpn l + i * n)) t) t
    (dies.foldl (fun s g => s.onDie g (fun d => { d with tlb := put d.tlb })) s).conclude b 0 false 0 0

/-- UNPIN: the entries go from the TLBs; no request translated with them is left (R72, R149). -/
def runUnpin (b : Busy) (s : State) : State :=
  let r := s.unpinList (pkt b.packet 16 8) (pkt b.packet 32 4)
  (r.1.foldl (fun s e => s.onDie e.1 (fun d => { d with tlb := tabDel e.2 d.tlb })) s).conclude b 0 false r.2 0

/-- SIGNAL: the increment is posted to a shared counter of the bound core, and the command completes when the post is visible; the
counter of a core of another module is not this model's (R72, R75, R76, R112). -/
def runSignal (b : Busy) (s : State) : State :=
  let p := b.packet
  match s.named b with
  | .active _ ln =>
    if ln.tearing.isSome then s.conclude b 6 false 0 0
    else if ln.binding.length ≤ pkt p 24 2 then s.conclude b 3 false 24 0
    else
      match ln.placeOf (pkt p 24 2) with
      | none => s.conclude b 0 false 0 0
      | some c =>
        (s.postOutside c (pkt p 26 1) (BitVec.ofNat 8192 (pkt p 32 8))).keepBusy { b with seen := some (c, s.keyc c + 1) }
  | .ended _ => s.conclude b 6 false 0 0
  | _ => s.conclude b 3 false 16 0

end Sys2Proof.Machine
end

