-- ==== Sys2Proof/Machine/Launch.lean ====
section
/-! DEFINITION. LOAD_IMAGE, BIND and LAUNCH: the checks of an image and of a binding, slot tables, placement of code and data
(R72, R82 to R91, R284, R285). -/

namespace Sys2Proof.Machine

/-- The first offending field of an image's header (R284, R285). -/
def Image.headerBad (i : Image) : Option Nat :=
  if i.len < 64 ∨ i.num 0 4 ≠ 0x474D495A then some 0
  else if i.num 5 1 ≠ 1 ∨ i.num 4 1 ≠ 0 then some 4
  else if i.nsec < 1 ∨ 4096 < i.nsec ∨ i.len < 64 + 32 * i.nsec then some 6
  else ((List.range 50).map (· + 14)).find? (fun a => i.num a 1 ≠ 0)

/-- The bytes of one entry of a kind of section (R284). -/
def entrySize : Nat → Nat
  | 5 => 64
  | 6 => 4
  | 7 => 16
  | 8 => 8
  | 9 => 16
  | _ => 1

/-- The first offending field of a section entry (R284, R285). -/
def Image.sectBad (i : Image) (x : Sect) : Option Nat :=
  if x.kind < 1 ∨ 9 < x.kind then some x.at_
  else if i.num (x.at_ + 2) 2 ≠ 0 then some (x.at_ + (if i.num (x.at_ + 2) 1 ≠ 0 then 2 else 3))
  else if x.kind ≤ 3 ∧ i.nlcn ≤ x.place ∨ (x.kind = 4 ∨ x.kind = 8) ∧ i.nldie ≤ x.place
      ∨ 4 < x.kind ∧ x.kind ≠ 8 ∧ x.place ≠ 0
      ∨ x.kind = 8 ∧ (i.sects.any (fun y => y.kind = 8 && y.place = x.place && decide (y.at_ < x.at_))) = true then
    some (x.at_ + 4)
  else if x.kind ≤ 3 ∧ 0x1FF000 < x.addr + x.len ∨ 4 < x.kind ∧ x.addr ≠ 0 then some (x.at_ + 8)
  else if x.off % 64 ≠ 0 ∨ i.len < x.off + x.len then some (x.at_ + 16)
  else if x.len % entrySize x.kind ≠ 0 ∨ x.kind = 8 ∧ x.len ≠ 8 then some (x.at_ + 24)
  else none

/-- The first offending field of a loop record as a byte offset in it (R84). -/
def recBad (r : Rec512) (nlcn : Nat) : Option Nat :=
  let addr (lo : Nat) (absent : Bool) : Bool :=
    let a := bits r (lo + 31) lo
    a % 4 != 0 || decide (2 ^ 21 ≤ a) || (absent && a != 0)
  let nrow := bits r 303 288
  let fields : List (Nat × Bool) :=
    [(8, addr 64 (!recPro r)), (12, addr 96 false), (16, addr 128 (!recEpi r)), (20, addr 160 (!recPro r)), (24, addr 192 false),
     (28, addr 224 (!recEpi r)), (32, decide (nrow ≤ 1536) && decide (1536 < bits r 271 256 + nrow)), (34, bits r 287 272 != 0),
     (36, decide (1536 < nrow)), (38, bits r 319 304 != 0)]
      ++ [(40, bits r 351 320 == 0), (48, bits r 399 384 != 0), (52, bits r 427 416 != 0), (54, decide (nlcn ≤ bits r 447 432)),
          (56, bits r 511 448 % 4096 != 0)]
  (fields.find? (·.2)).map (·.1)

/-- The first offending field of a tag vector entry as a byte offset in it (R90, R285). -/
def tagBad (v : BitVec 128) (nrecs : Nat) : Option Nat :=
  let n := tvNrec v
  let fields : List (Nat × Bool) :=
    [(0, decide (1024 < n)), (2, if n = 0 then tvBlim v != 0 else decide (tvBlim v < 1) || decide (64 < tvBlim v)),
     (3, bits v 31 24 != 0), (8, decide (nrecs < tvRec0 v + n)), (12, bits v 127 96 != 0)]
  (fields.find? (·.2)).map (·.1)

/-- The first offending field of the contents of an image's sections, in the order records, start list, tag vector, slot counts,
segment requirements (R285). -/
def Image.contentBad (i : Image) : Option Nat :=
  let first (l : List Nat) (f : Nat → Option Nat) : Option Nat := l.findSome? (fun o => (f o).map (· + o))
  let recs := i.entries 5 64
  (first recs (fun o => recBad (BitVec.ofNat 512 (i.num o 64)) i.nlcn)).orElse fun _ =>
  (first (i.entries 6 4) (fun o => if recs.length ≤ i.num o 4 then some 0 else none)).orElse fun _ =>
  (first (i.entries 7 16) (fun o => tagBad (BitVec.ofNat 128 (i.num o 16)) recs.length)).orElse fun _ =>
  (first (i.entries 8 8) (fun o =>
    if 4096 < ((List.range 4).map (fun b => i.num (o + 2 * b) 2)).foldl (· + ·) 0 then some 0 else none)).orElse fun _ =>
  first (i.entries 9 16) (fun o => [2, 3, 9, 10, 11, 12, 13, 14, 15].find? (fun b => i.num (o + b) 1 ≠ 0))

/-- The image byte offset of the first offending field, if LOAD_IMAGE refuses an image (R285). -/
def Image.bad (i : Image) : Option Nat :=
  i.headerBad.orElse fun _ => (i.sects.findSome? i.sectBad).orElse fun _ => i.contentBad

/-- The n bytes of host memory from an address on, as a memory of their own. -/
def State.hostBytes (s : State) (a n : Nat) : Tab Byte :=
  (s.m.host.filter (fun e => decide (a ≤ e.1) && decide (e.1 < a + n))).map (fun e => (e.1 - a, e.2))

/-- LOAD_IMAGE: the image is checked and kept under the smallest free handle (R72, R285). -/
def runLoadImage (b : Busy) (s : State) : State :=
  let p := b.packet
  let n := pkt p 24 8
  let i : Image := { bytes := s.hostBytes (pkt p 16 8) n, len := n, secure := p.getLsbD 256, binding := [] }
  match i.bad with
  | some o => s.conclude b 3 false 0 o
  | none =>
    match findFrom (fun h => (s.image? h).isNone) 1 255 with
    | none => s.conclude b 5 false 0 0
    | some h =>
      ({ s with m := { s.m with lead := { s.m.lead with images := tabPut h i s.m.lead.images } } }).conclude b 0 false h 0

/-- The dies of this module that records may be placed on, in ring order: those of the ring; with no ring, those neither excluded nor
held in their boot ROM (R26, R83). -/
def State.inService (s : State) : List Nat :=
  if s.m.ringOrder.isEmpty then s.allDies.filter (fun g => !s.m.excluded.contains g && !s.rom.failed.contains g)
  else s.m.ringOrder

/-- The ring die numbers of the surviving dies in ring order from the origin, those of all modules; with no ring, the dies of the
module (R83). -/
def State.positions (s : State) : List Nat :=
  if s.m.ringAll.isEmpty then s.inService.map (fun g => (s.die g).rdie.toNat) else s.m.ringAll

/-- The smallest distance rule: entry i of a list is a + i modulo n for every i, or a − i (R83). -/
def steps (n : Nat) (l : List Nat) : Bool :=
  match l with
  | [] => true
  | a :: _ => (l.zipIdx).all (fun e => e.1 = (a + e.2) % n) || (l.zipIdx).all (fun e => (e.1 + e.2) % n = a % n)

/-- The entries of a list at a stride: one for each group of m. -/
def groups (m : Nat) (l : List Nat) : List (List Nat) :=
  (List.range (ceilDiv l.length m)).map (fun i => (l.drop (m * i)).take m)

/-- Whether a binding meets R83: one physical die for each logical one at positions with one step, whole clusters one-to-one,
cores in order round their cluster, none twice. -/
def State.bindOk (s : State) (t : List Nat) : Bool :=
  let pos := s.positions
  let dies := groups 64 t
  let places := dies.map (fun d => pos.findIdx (fun g => g = d.headD 0 / 64))
  let clusters := groups 8 t
  let heads := clusters.map (fun c => c.headD 0 / 8)
  decide (dies.length ≤ pos.length)
    && places.all (fun x => decide (x < pos.length)) && steps pos.length places
    && dies.all (fun d => d.all (fun c => c / 64 = d.headD 0 / 64))
    && clusters.all (fun c => c.all (fun x => x / 8 = c.headD 0 / 8) && steps 8 (c.map (· % 8)))
    && decide (heads.eraseDups.length = heads.length) && decide (t.eraseDups.length = t.length)

/-- The core of this module that a physical core number names; 2^16 stands for a core of another module (R82). -/
def State.boundCore (s : State) (p : Nat) : Nat :=
  match s.localDie (p / 64) with
  | none => 2 ^ 16
  | some g => g * 64 + p % 64

/-- BIND (R72, R83); a non-secure queue may not name a secure core (R66, R79). -/
def runBind (b : Busy) (s : State) : State :=
  let p := b.packet
  match s.image? (pkt p 16 1) with
  | none => s.conclude b 3 false 16 0
  | some i =>
    let n := pkt p 32 4
    if n ≠ i.nlcn then s.conclude b 3 false 32 0
    else
      let t := (List.range n).map (fun k => readNat s.m.host (pkt p 24 8 + 2 * k) 2)
      let cores := t.map s.boundCore
      if !s.bindOk t then s.conclude b 3 false 24 0
      else if !s.sqSecure b.queue && cores.any (fun c => decide (c < 2 ^ 16) && s.rom.secureCore c) then s.conclude b 8 false 0 0
      else
        ({ s with m := { s.m with lead := { s.m.lead with
          images := tabPut (pkt p 16 1) { i with binding := cores } s.m.lead.images } } }).conclude b 0 false 0 0

/-- The parts of a DOME section from va on, page by page; none if a page cannot be written (R285). -/
def State.domeParts (s : State) (g : Nat) (sec : Bool) : Nat → Nat → Nat → Option (List Placed)
  | 0, _, _ => some []
  | fuel + 1, va, len =>
    if len = 0 then some []
    else
      let n := min len (2 ^ 16 - va % 2 ^ 16)
      match s.locate g sec false true va, s.domeParts g sec fuel (va + n) (len - n) with
      | .ok (l, _), some r =>
        match l with
        | .dome d pa => some (⟨false, d, pa / 2 ^ 16, va % 2 ^ 16, va % 2 ^ 16 + n⟩ :: r)
        | _ => some r
      | _, _ => none

/-- The parts of the sections of kinds 1 to 4 of an image under a binding (R285). -/
def State.placedParts (s : State) (i : Image) (ln : Launch) : Option (List Placed) :=
  (i.sects.filter (fun x => x.kind ≤ 4)).foldr (fun x r =>
    r.bind (fun r =>
      if x.kind = 4 then
        if x.addr / 2 ^ 62 ≠ 0 then none
        else (s.domeParts ((ln.placeOf (64 * x.place)).getD 0 / 64) i.secure (x.len / 2 ^ 16 + 2) x.addr x.len).map (· ++ r)
      else
        match ln.placeOf x.place with
        | none => some r
        | some c => some (if x.len = 0 then r else ⟨true, c, 0, x.addr, x.addr + x.len⟩ :: r))) (some [])

/-- Whether two parts share a byte. -/
def Placed.meets (a b : Placed) : Bool :=
  a.core == b.core && a.place == b.place && a.page == b.page && decide (a.lo < b.hi) && decide (b.lo < a.hi)

/-- Whether a launch's sections overlap those of another active launch, where they were placed (R285). -/
def State.placeClash (s : State) (parts : List Placed) : Bool :=
  s.m.launches.any (fun e => e.2.active && e.2.placed.any (fun x => parts.any x.meets))

/-- Whether every SEGREQ entry agrees with the segment table in force (R285). -/
def State.segreqOk (s : State) (i : Image) : Bool :=
  (i.entries 9 16).all (fun o =>
    match s.m.ringOrder with
    | [] => false
    | g :: _ =>
      let d := s.die g
      let e := d.segEntry (i.num o 2)
      d.mode != 0 && decide (i.num o 2 ≤ d.lastTag) && segLen e == i.num (o + 4) 4 && segFmt e == i.num (o + 8) 1)

/-- Writes the contents of kinds 1 to 4 (R285). -/
def State.placeSections (s : State) (i : Image) (ln : Launch) : State :=
  (i.sects.filter (fun x => x.kind ≤ 4)).foldl (fun s x =>
    let data := readBytes i.bytes x.off x.len
    if x.kind = 4 then
      match s.writeVa ((ln.placeOf (64 * x.place)).getD 0 / 64) i.secure x.addr data with
      | .ok t => t
      | .error _ => s
    else
      match ln.placeOf x.place with
      | none => s
      | some c => s.onCore c (·.putBytes x.addr data)) s

/-- The m highest numbers below n for which a test holds, or fewer if there are not so many. -/
def highest (ok : Nat → Bool) : Nat → Nat → List Nat
  | _, 0 | 0, _ => []
  | p + 1, m + 1 => if ok p then p :: highest ok p m else highest ok p (m + 1)

/-- Where the physical pages of a die that Mepen may take end: below its ring regions (R58, R91). -/
def Die.pagesTop (d : Die) : Nat := if d.ring.mapped then d.ring.locPa / 2 ^ 16 else 0x4000

/-- Whether nothing maps a physical page of a die and Mepen has not taken it (R91, R401). -/
def State.pageFree (s : State) (g p : Nat) : Bool :=
  !(s.die g).pageReserved p
    && !s.allDies.any (fun o => (s.die o).tlb.any (fun e => lV e.2 && (s.leafPages o e.1 e.2).contains (g, p)))

/-- The n highest physical pages below the ring regions of a die that nothing maps and Mepen has not taken (R91). -/
def State.freePages (s : State) (g n : Nat) : Option (List Nat) :=
  let l := highest (s.pageFree g) (s.die g).pagesTop n
  if l.length = n then some l else none

/-- The entries of a new slot table: zero but for BUCKET (R91, R92). -/
def slotBytesOf (counts : List Nat) (n : Nat) : List Byte :=
  (List.range n).flatMap (fun j => bytesOfNat 32 (bucketOf counts j * 2 ^ 66))

/-- The slot table of a launch on a die: pages taken, entries made, and the slots empty (R91, R92). The page number Mepen gives it
is open but for the die and its low bits (log 26). -/
def State.openSlots (s : State) (g : Nat) (counts : List Nat) (secure : Bool) : Option (State × Nat) :=
  let n := counts.foldl (· + ·) 0
  let pages := ceilDiv (32 * n) (2 ^ 16)
  let d := s.die g
  match s.freePages g pages with
  | none => none
  | some l =>
    let f := s.freeValue
    let hi := bits f.1 21 0
    let key (i : Nat) : Nat := d.rdie.toNat * 2 ^ 36 + (hi + i) % 2 ^ 22 * 2 ^ 14 + l.headD 0 % 2 ^ 13
    match (List.range (d.tlb.length + 1)).find? (fun i => !d.pageTaken (key i) pages) with
    | none => none
    | some i =>
      if 65536 < d.tlb.length + pages then none
      else
        let leaf (p : Nat) : Word :=
          BitVec.ofNat 64 (2 ^ 63 + (if secure then 2 ^ 62 else 0) + 2 ^ 61 + 2 ^ 60 + p * 2 ^ 16 + 2 ^ 7)
        let data := slotBytesOf counts n
        let data := data ++ List.replicate (pages * 2 ^ 16 - data.length) 0
        some (f.2.onDie g (fun d =>
          let d := l.zipIdx.foldl (fun (d : Die) e => d.putBytes (e.1 * 2 ^ 16) ((data.drop (e.2 * 2 ^ 16)).take (2 ^ 16))) d
          { d with
            tlb := l.zipIdx.foldl (fun t e => tabPut (key i + e.2) (leaf e.1) t) d.tlb
            reserved := l.map (fun p => (p, 1)) ++ d.reserved }), key i * 2 ^ 16)

/-- The slot tables of a launch on every die its binding uses; none if a die lacks the pages (R91). -/
def State.openAll (s : State) (i : Image) (ln : Launch) : Option (State × Tab Word) :=
  (List.range i.nldie).foldl (fun (a : Option (State × Tab Word)) d =>
    a.bind (fun (x : State × Tab Word) =>
      match ln.placeOf (64 * d) with
      | none => some x
      | some c =>
        if i.nslot d = 0 then some x
        else (x.1.openSlots (dieOf c) (i.bucketCounts d) i.secure).map (fun y => (y.1, tabPut (dieOf c) (BitVec.ofNat 64 y.2) x.2))))
    (some (s, []))

/-- A deadline of the host in ring time (R48). -/
def State.toRingTime (s : State) (v : Nat) : Nat :=
  if v = 0 then 0 else (v + ((s.die s.m.lead.die).reg 0x0250).toNat) % 2 ^ 64

/-- LAUNCH: its sections are placed, its slot tables made, and its start records ready; it ends later (R72, R83, R89, R91,
R98, R285). -/
def runLaunch (b : Busy) (s : State) : State :=
  let p := b.packet
  match s.image? (pkt p 16 1) with
  | none => s.conclude b 3 false 16 0
  | some i =>
    let ln : Launch :=
      { queue := b.queue, cid := pktCid p, order := s.m.lead.order, image := pkt p 16 1, binding := i.binding,
        deadline := s.toRingTime (pkt p 24 8), prio := pkt p 32 1, det := p.getLsbD 264, arg := BitVec.ofNat 64 (pkt p 40 8),
        secure := i.secure, nocq := pktNocq p, slotVa := [], active := true, tearing := none, freed := [], fault := none,
        late := false, filled := false }
    let lost := ln.binding.any (fun c => decide (c < 2 ^ 16) && !s.inService.contains (dieOf c))
    match s.placedParts i ln with
    | none => s.conclude b 3 false 16 0
    | some parts =>
      if i.binding.length ≠ i.nlcn ∨ lost then s.conclude b 3 false 16 0
      else if 64 ≤ s.m.launches.countP (fun e => e.2.active) then s.conclude b 5 false 0 0
      else if s.placeClash parts || !s.segreqOk i then s.conclude b 3 false 16 0
      else
        match s.openAll i ln with
        | none => s.conclude b 5 false 0 0
        | some (s, va) =>
          let ln := { ln with slotVa := va, placed := parts }
          let s := (s.setLaunch b.order ln).placeSections i ln
          let s := ({ s with m := { s.m with lead := { s.m.lead with order := s.m.lead.order + 1 } } }).keepBusy b
          let dl := if ln.deadline = 0 then 2 ^ 64 - 1 else ln.deadline
          let recs := i.records
          let s := i.starts.foldl (fun s n =>
            match recs[n]? with
            | none => s
            | some r => match ln.placeOf (bits r 447 432) with
              | none => s
              | some c => s.makeReady b.order n r c dl none 0 0 1) s
          s.checkLaunch b.order false

end Sys2Proof.Machine
end

