-- ==== Sys2Proof/Machine/RingCmd.lean ====
section
/-! DEFINITION. RING_CONFIG and INJECT (R35, R46, R49, R53, R56, R58, R72, R73). -/

namespace Sys2Proof.Machine

/-- The ring block at a host address: N, LASTTAG, segment table, geometry, offsets; none if a reserved field of it is not
zero (R73). -/
def State.ringBlock (s : State) (a : Nat) : Option RingCfg :=
  let w (i : Nat) : Nat := readNat s.m.host (a + 8 * i) 8
  let n := w 0 % 2 ^ 16
  let last := w 0 / 2 ^ 16 % 2 ^ 16
  let c : RingCfg :=
    { n := n, lastTag := last
      segs := (List.range (last + 1)).map (fun t => readNat s.m.host (w 1 + 16 * t) 16)
      geom := (List.range n).map (fun i => readNat s.m.host (w 2 + 16 * i) 16)
      staging := w 3, pier := w 4, segt := w 5, loc := w 6 }
  let offs := [w 3, w 4, w 5, w 6]
  if w 0 / 2 ^ 32 ≠ 0 ∨ w 7 ≠ 0 ∨ offs.any (fun o => o % 2 ^ 16 != 0 || decide (2 ^ 52 ≤ o)) = true
      ∨ c.geom.any (fun e => decide (2 ^ 83 ≤ e) || e / 2 ^ 50 % 2 ^ 14 != 0) = true
      ∨ c.segs.any (fun e => e / 2 ^ 74 % 2 ^ 14 != 0) = true then none
  else some c

/-- The dies of this module that take part, in ring order (R56, R73). -/
def State.ringMembers (s : State) (c : RingCfg) : List Nat :=
  s.allDies.filter (fun g => c.member (s.die g).rdie.toNat)

/-- The number of modules of a configured ring. -/
def RingCfg.modules (c : RingCfg) (ndie : Nat) : Nat := c.n / ndie

/-- Whether a module of a configured ring, by its position, has dies that take part: one that has none is bypassed as a whole
(R47). -/
def RingCfg.moduleIn (c : RingCfg) (ndie m : Nat) : Bool :=
  (List.range ndie).any (fun d => c.member (m % c.modules ndie * ndie + d))

/-- The position of this module in a configured ring, which the ring block does not tell: in a ring of several modules one that
takes part, which is open (log 29). -/
def State.position (s : State) (c : RingCfg) : Nat :=
  let n := s.rom.variant.ndie
  let l := (List.range (c.modules n)).filter (c.moduleIn n)
  (l[s.freeValue.1.toNat % max 1 l.length]?).getD 0

/-- The state in which the dies of the module have the ring die numbers of a position (R73, R273). -/
def State.atPosition (s : State) (m : Nat) : State :=
  s.allDies.foldl (fun s g => s.onDie g (fun d =>
    { d with rdie := BitVec.ofNat 10 (m * s.rom.variant.ndie + g), modPos := BitVec.ofNat 6 m })) s

/-- The link by which weights would enter a die of a configured ring, and none for a die that no link can reach (R13, R56). -/
def State.cfgLink (s : State) (c : RingCfg) (g : Nat) : Option Link :=
  let n := s.rom.variant.ndie
  let mem (x : Nat) : Bool := (s.ringMembers c).contains x
  let before := (s.die g).modPos.toNat + c.modules n - 1
  if g = 0 ∧ n < c.n then some (if c.moduleIn n before then .bridgeIn else .bridgeChordRx)
  else if mem ((g + n - 1) % n) then some .spanIn
  else if mem ((g + n - 2) % n) ∧ ¬ (n < c.n ∧ g = 1) then some .chordIn
  else none

/-- Beats of a segment with its header. -/
def segBeats (e : Nat) : Nat := 1 + segLen e / 2048

/-- Whether a die's geometry meets R35 for its input link. -/
def State.cfgGeomOk (s : State) (c : RingCfg) (g : Nat) : Bool :=
  let d := s.die g
  match c.entry d.rdie.toNat, s.cfgLink c g with
  | some (v, _), some l =>
    let p := c.period
    let cap := geomCap v
    (d.linkOf l).isSome && cap % 32 == 0 && decide (cap ≤ 307200) && decide (64 ≤ geomDwell v)
      && decide (geomDwell v + geomMargin v < cap)
      && decide (ceilDiv (d.latOf l + d.holdLat l) p + 1 ≤ geomMargin v)
      && c.segs.all (fun e => decide (segBeats e + geomMargin v ≤ cap))
  | _, _ => false

/-- Whether the geometry of a die of another module meets what R35 says without its link, which is not measured here. -/
def RingCfg.farGeomOk (c : RingCfg) (r : Nat) : Bool :=
  match c.entry r with
  | none => false
  | some (v, _) =>
    geomCap v % 32 == 0 && decide (geomCap v ≤ 307200) && decide (64 ≤ geomDwell v)
      && decide (geomDwell v + geomMargin v < geomCap v)
      && c.segs.all (fun e => decide (segBeats e + geomMargin v ≤ geomCap v))

/-- Whether the dwells of all dies and the beats on the links in use add up to the turn length, and the other modules' own checks
pass: the beats on their links and what their checks find are free values (R35, R46, R73; log 29). -/
def State.turnOk (s : State) (c : RingCfg) : Bool :=
  let many := decide (s.rom.variant.ndie < c.n)
  let f := s.freeValue.2.freeValue.1
  let dwell (r : Nat) : Nat := ((c.entry r).map (fun e => geomDwell e.1)).getD 0
  let links := ((s.ringMembers c).map (fun g =>
    ((s.cfgLink c g).map (fun l => ceilDiv ((s.die g).latOf l) c.period)).getD 0)).foldl (· + ·) 0
  let far := if many then bits f 31 0 else 0
  ((c.order.map dwell).foldl (· + ·) 0) + links + far == (c.segs.map segBeats).foldl (· + ·) 0
    && (!many || (f.getLsbD 32 && c.order.all (fun r => (s.localDie r).isSome || c.farGeomOk r)))

/-- Whether the segment table is in range: lengths, formats, homes at spoke dies of the ring (R28, R30). -/
def RingCfg.segsOk (c : RingCfg) : Bool :=
  c.segs.all (fun e => segLen e % 2048 == 0 && decide (2048 ≤ segLen e) && decide (segLen e ≤ 2 ^ 26) && fmtOk (segFmt e)
    && segHome e % 4 == 0 && decide (segHome e < c.n))

/-- Whether a module of a configured ring is bypassed as a whole, or has no two bypassed neighbours and, in a ring of several
modules, its end dies (R47, R49). -/
def RingCfg.moduleOk (c : RingCfg) (ndie m : Nat) : Bool :=
  let mem (d : Nat) : Bool := c.member (m * ndie + d)
  if ndie < c.n then
    (!c.moduleIn ndie m && c.moduleIn ndie (m + 1))
      || (mem 0 && mem (ndie - 1) && (List.range (ndie - 1)).all (fun d => mem d || mem (d + 1)))
  else (List.range ndie).all (fun d => mem d || mem ((d + 1) % ndie))

/-- Whether the list of dies is a ring: whole modules, each die once, no two bypassed neighbours, dies out of service
bypassed, one origin, the first die that takes part, and in a multi-module ring the modules' end dies (R13, R26, R31, R46,
R47, R49). -/
def State.diesOk (s : State) (c : RingCfg) : Bool :=
  let n := s.rom.variant.ndie
  let flags (r : Nat) : Nat := ((c.entry r).map (·.2)).getD 0
  let rs := List.range c.n
  decide (0 < c.n) && c.n % n == 0 && decide (c.n ≤ 1024)
    && rs.all (fun r => (c.entry r).isSome)
    && (List.range (c.modules n)).all (c.moduleOk n)
    && s.allDies.all (fun g => !((s.m.excluded.contains g || s.rom.failed.contains g) && c.member (s.die g).rdie.toNat))
    && (rs.filter (fun r => flags r % 2 = 1)) == (rs.filter c.member).take 1
    && rs.all (fun r => decide (flags r / 2 % 2 = 1) == decide (n < c.n))

/-- Whether a spoke die of the ring can stage 64 MiB at its staging address (R53, R73). -/
def State.stagingOk (s : State) (c : RingCfg) (g : Nat) : Bool :=
  let d := s.die g
  (List.range 1024).all (fun i =>
    match d.leaf (d.ownVa c.staging + i * 2 ^ 16) with
    | none => false
    | some l => lR l && lW l)

/-- Whether the ring regions of a die can be mapped: they fit, overlap neither each other nor a valid entry, and their pages
are not mapped (R58). -/
def State.regionsOk (s : State) (c : RingCfg) (g : Nat) : Bool :=
  let d := (s.die g).unmapRing
  match c.entry d.rdie.toNat with
  | none => false
  | some (v, _) =>
    let ps := c.pages d v
    let size := geomCap v / 32 + 2 * c.tablePages
    let low := 0x4000 - size
    let others := (s.onDie g (fun _ => d))
    decide (size ≤ 0x4000) && decide ((ps.map (·.1)).eraseDups.length = ps.length)
      && ps.all (fun e => !d.pageTaken e.1 1)
      && others.allDies.all (fun o => (others.die o).tlb.all (fun e =>
            !lV e.2 || (others.leafPages o e.1 e.2).all (fun x => !(x.1 = g && decide (low ≤ x.2)))))

/-- Whether Mepen forms the ring (R73). -/
def State.cfgOk (s : State) (c : RingCfg) : Bool :=
  let ms := s.ringMembers c
  s.diesOk c && c.segsOk && ms.all (s.cfgGeomOk c) && s.turnOk c && ms.all (fun g => g % 4 != 0 || s.stagingOk c g)
    && ms.all (s.regionsOk c)

/-- A die whose ring is stopped and cleared: MODE, pier, locator entries, VSTAT and the expectation (R56). DESIGN CHOICE (log 41):
VCTL.HOLDF and VCTL.DROP are cleared too, and VKOFS keeps what the last ring sync token left, also where the new ring has one
module. -/
def Die.stopRing (d : Die) : Die :=
  let d := if d.ring.mapped then
      (List.range (d.lastTag + 1)).foldl (fun (d : Die) i => d.putNat (d.ring.locPa + 16 * i) 16 0) d
    else d
  let r := d.ring
  let d := { d with
    ring := { Ring.init with
      mapped := r.mapped, pierPa := r.pierPa, segtPa := r.segtPa, locPa := r.locPa, staging := r.staging,
      retries := r.retries, windowAt := r.windowAt, beatAt := r.beatAt, heardAt := d.keyc, fecDrops := r.fecDrops } }
  ((d.setField 0x0200 15 14 0).setField 0x0200 9 8 0).setReg 0x0208 0

/-- The egress, origin and OPEN bits of a die of a configured ring, and the latency of its weight input, bridge-in or span (R31,
R47, R56, R57). -/
def State.wireRing (s : State) (c : RingCfg) (g : Nat) : State :=
  let n := s.rom.variant.ndie
  let many := decide (n < c.n)
  let fl := ((c.entry (s.die g).rdie.toNat).map (·.2)).getD 0
  let last := many && g + 1 = n
  let chord := !(s.ringMembers c).contains ((g + 1) % n) && !last
  let bridge := last && !c.moduleIn n ((s.die g).modPos.toNat + 1)
  s.onDie g (fun d =>
    let d := d.setField 0x0200 13 10 ((if chord then 8 else 0) + (if bridge then 4 else 0) + fl % 2 * 2 + fl / 2 % 2)
    match d.linkOf (if many && g = 0 then .bridgeIn else .spanIn) with
    | none => d
    | some i => d.setField 0x0248 15 0 i.lat)

/-- RING_CONFIG: the ring is stopped and cleared, its bits are written, and the origin sends the version token; the geometry
follows when the tokens have come round (R50, R56, R72, R73). -/
def runRingConfig (b : Busy) (s : State) : State :=
  let st := s.ringState
  if s.m.launches.any (fun e => e.2.active) || (decide (2 ≤ st) && decide (st ≤ 5)) || st == 7 then s.conclude b 9 false 0 0
  else
    match s.ringBlock (pkt b.packet 16 8) with
    | none => s.conclude b 3 false 16 0
    | some c =>
      if s.rom.variant = .gl4 ∧ (4 < c.n ∨ c.geom.any (fun e => e / 2 ^ 81 % 2 = 1) = true) then s.conclude b 0x0B false 0 0
      else if !(s.atPosition (s.position c)).cfgOk c then s.conclude b 3 false 16 0
      else
        let s := s.atPosition (s.position c)
        let f := s.freeValue.2.freeValue
        let s := if s.rom.variant.ndie < c.n then f.2 else s
        let ms := s.ringMembers c
        let s := s.allDies.foldl (fun s g => s.onDie g (·.stopRing)) s
        let s := ms.foldl (fun s g => s.wireRing c g) s
        let s := { s with m := { s.m with
          ringOrder := ms, ringAll := c.order, ringN := c.order.length, modules := c.modules s.rom.variant.ndie
          failing := [], broken := [], repaired := false
          lead := { s.m.lead with config := some (b, c) } } }
        let s := s.keepBusy b
        match ms.find? (fun g => (s.die g).vctl 11) with
        | some o => s.sendToken o (.version 1 255 none)
        | none =>
          -- the origin is in another module: its token comes by bridge-in after an open time
          s.onDie 0 (fun d => d.onRing (fun r => { r with tokens :=
            [(d.keyc + bits f.1 95 64, Token.abroad f.1 true s.rom.variant.ndie (.version 1 255 none))] }))

/-- Whether the far spoke die of the die that inserts a tag holds a readable entry for every page of the tag's IMG range (R60, R72, R139). -/
def State.imgOk (s : State) (e : Nat) : Bool :=
  let lo := segImg e / 2 ^ 16
  let hi := (segImg e + segLen e - 1) / 2 ^ 16
  match s.standIn (segHome e) with
  | none => true
  | some h =>
    segImg e / 2 ^ 62 == 1
      && (match s.farSpoke h with
          | none => false
          | some f => (List.range (hi + 1 - lo)).all (fun i => (((s.die f).leaf ((lo + i) * 2 ^ 16)).map lR).getD false))

/-- INJECT: every tag from the first to the last, in turn order, is inserted by its home (R53, R72). -/
def runInject (b : Busy) (s : State) : State :=
  let lo := pkt b.packet 16 2
  let hi := pkt b.packet 18 2
  match s.m.ringOrder with
  | [] => s.conclude b 9 false 0 0
  | o :: _ =>
    let d := s.die o
    let n := d.lastTag + 1
    if !(d.ringState = 1 || d.ringState = 6) then s.conclude b 9 false 0 0
    else if n ≤ lo then s.conclude b 3 false 16 0
    else if n ≤ hi then s.conclude b 3 false 18 0
    else
      let tags := (List.range ((hi + n - lo) % n + 1)).map (fun i => (lo + i) % n)
      match tags.find? (fun t => !s.imgOk (d.segEntry t)) with
      | some t => s.conclude b 3 false t 0
      | none =>
        let empty := s.m.ringOrder.all (fun g => (s.die g).ring.insts.isEmpty && (s.die g).ring.link.isEmpty)
        let s := { s with m := { s.m with lead := { s.m.lead with inject := some b } } }.keepBusy b
        (tags.zipIdx.foldl (fun s e => s.orderInsert e.1 (empty && e.2 = 0)) s).insertsEnd

end Sys2Proof.Machine
end

