-- ==== Sys2Proof/Machine/Lantern.lean ====
section
/-! DEFINITION. The commands of the lead lantern on launches and queues, ATTEST, and each command taken from its queue (R65 to
R80, R93). -/

namespace Sys2Proof.Machine

/-- SLOT_WRITE: it waits for the die's next turn marker; its DEADLINE is turned into ring time (R48, R72, R76, R93). -/
def runSlotWrite (b : Busy) (s : State) : State :=
  match s.named b with
  | .active l ln =>
    if ln.tearing.isSome then s.conclude b 6 false 0 0
    else
      match s.slotTarget b l ln with
      | .error e => s.conclude b e.1 false e.2 0
      | .ok (g, _, _, _) =>
        let st := s.ringState
        if st = 0 || st = 7 || s.m.excluded.contains g then s.conclude b 9 false 0 0
        else
          s.keepBusy { b with
            target := some l, packet := setBits b.packet 447 384 (s.toRingTime (bits b.packet 447 384)) }
  | .ended _ => s.conclude b 6 false 0 0
  | _ => s.conclude b 3 false 16 0

/-- SLOT_READ: the entry is written to host memory once no earlier SLOT_WRITE of the slot waits (R72, R74). -/
def runSlotRead (b : Busy) (s : State) : State :=
  match s.named b with
  | .active l ln =>
    match s.slotTarget b l ln with
    | .error e => s.conclude b e.1 false e.2 0
    | .ok _ => (s.keepBusy { b with target := some l }).settle
  | .ended _ => s.conclude b 6 false 0 0
  | _ => s.conclude b 3 false 16 0

/-- FENCE: it ends when every earlier command of its queue has (R72). -/
def runFence (b : Busy) (s : State) : State := (s.keepBusy b).settle

/-- Cancels a LAUNCH that still waits for its dependency (R72). -/
def State.cancelWaiting (s : State) (w : Busy) : State :=
  ({ s with m := { s.m with lead := { s.m.lead with waiting := s.m.lead.waiting.filter (fun x => x.order ≠ w.order) } } }).conclude w 6
    false 0 0

/-- TEARDOWN (R72, R76). -/
def runTeardown (b : Busy) (s : State) : State :=
  match s.named b with
  | .active l _ => ((s.keepBusy { b with target := some l }).tearLaunch l).settle
  | .ended _ => s.conclude b 0 false 0 0
  | .waiting w => (s.cancelWaiting w).conclude b 0 false 0 0
  | .bad => s.conclude b 3 false 16 0

/-- RESET_QUEUE: the queue is disabled and emptied, and its launches are torn down (R72, R76). -/
def runResetQueue (b : Busy) (s : State) : State :=
  let q := pkt b.packet 16 1
  let s := s.setQreg (0x0408 + 16 * q) (setBits (s.qreg (0x0408 + 16 * q)) 30 30 0)
  let s := s.setQreg (0x0580 + 8 * q) (s.qreg (0x0500 + 8 * q))
  let s := (s.m.lead.waiting.filter (fun w => w.queue = q && pktOpc w.packet = 7)).foldl (fun s w => s.cancelWaiting w) s
  let ls := s.m.launches.filter (fun e => e.2.active && e.2.queue = q)
  (ls.foldl (fun s e => s.tearLaunch e.1) (s.keepBusy b)).settle

/-- The 96 bytes of a die's identity key material (R78). -/
def keySeed (seed : BitVec 256) : List Byte := shake256 (bytesOfNat 32 seed.toNat ++ [0x56, 0x58, 0x49, 0x44]) 96

/-- The first 512 bytes of a die's report (R80). -/
def State.reportBody (s : State) (g : Nat) (nonce : Nat) : List Byte :=
  let h : Rec512 := tabGet 0 g s.rom.header
  let seed := keySeed (tabGet 0 g s.rom.seeds)
  bytesOfNat 2 g ++ bytesOfNat 2 (bits h 47 32) ++ bytesOfNat 8 s.rom.variant.caps.toNat ++ bytesOfNat 8 (s.die g).keyc
    ++ bytesOfNat 64 (tabGet (0 : Rec512) g s.rom.meas).toNat ++ bytesOfNat 32 nonce ++ slhPublic slh256f seed
    ++ bytesOfNat 56 (bits h 511 64) ++ List.replicate 276 0

/-- The record of a die in an ATTEST: its report and signature, or zeros where the die does not run Mepen (R80). The 32 bytes that
randomize the signature are a free value (log 4). -/
def State.report (s : State) (g : Nat) (nonce : Nat) : List Byte :=
  if s.rom.up.contains g && decide (g < s.rom.variant.ndie) then
    let r := s.reportBody g nonce
    r ++ slhSign slh256f (keySeed (tabGet 0 g s.rom.seeds)) (bytesOfNat 32 (Config.freeBits (s.m.free + g)).toNat) r
  else List.replicate 50368 0

/-- ATTEST: the reports of the selected dies, in ascending order at the host address (R80). -/
def runAttest (b : Busy) (s : State) : State :=
  let p := b.packet
  let sel := (List.range 16).filter (fun g => (BitVec.ofNat 16 (pkt p 56 2)).getLsbD g)
  let host := sel.zipIdx.foldl (fun m e =>
    writeBytes m (pkt p 48 8 + 50368 * e.2) (s.report e.1 (pkt p 16 32))) s.m.host
  let ok := sel.all (fun g => s.rom.up.contains g && decide (g < s.rom.variant.ndie))
  ({ s with m := { s.m with host := host, free := s.m.free + 16 } }).conclude b (if ok then 0 else 0x0B) false 0 0

/-- Whether a SIGNAL in progress has become visible (R72, R112). -/
def State.signalSeen (s : State) : Bool :=
  s.m.lead.busy.any (fun b => b.seen.any (fun x => decide (x.2 ≤ s.keyc x.1)))

/-- A SIGNAL completes in the cycle in which its post is visible (R72, R75). -/
def signalDone (s : State) : Out := if s.signalSeen then .next s.settle else .fault .notEnabled

/-- A command starts and does what its OPC says (R72). -/
def State.run (s : State) (b : Busy) : State :=
  match pktOpc b.packet with
  | 0x01 => runPin b s
  | 0x02 => runUnpin b s
  | 0x03 => runLoadImage b s
  | 0x04 => runBind b s
  | 0x05 => runRingConfig b s
  | 0x06 => runInject b s
  | 0x07 => runLaunch b s
  | 0x08 => runSlotWrite b s
  | 0x09 => runSlotRead b s
  | 0x0A => runSignal b s
  | 0x0B => runFence b s
  | 0x0C => runResetQueue b s
  | 0x0D => runTeardown b s
  | _ => runAttest b s

/-- A command that starts; what it names is looked up again, since a dependent may name what its dependency made (R66,
R67). -/
def State.start (s : State) (b : Busy) : State :=
  match s.refused b with
  | some (st, o) => s.conclude b st false o 0
  | none => s.run b

/-- Taking a packet of a command from its queue: its fields are checked, then its dependency starts it, holds it or cancels it
(R61, R66, R67, R71). -/
def takeCommand (opc : Nat) (q : BitVec 4) (packet : Rec512) (s : State) : Out :=
  if s.nextQueue = some q.toNat && s.headPacket q.toNat = packet && s.ifvOk packet && pktOpc packet = opc then
    let r := s.takePacket q.toNat packet
    let s := r.1
    let b := r.2
    match s.refused b with
    | some (st, o) => .next (s.conclude b st false o 0)
    | none =>
      match s.fate packet b.order with
      | .met => .next ((s.start b).settle)
      | .cancelled => .next (s.conclude b 6 false 0 0)
      | .waits =>
        let b := { b with dep := s.depOf packet b.order }
        .next { s with m := { s.m with lead := { s.m.lead with waiting := s.m.lead.waiting ++ [b] } } }
  else .fault .notEnabled

/-- PIN (R72). -/
def execPin (q : BitVec 4) (packet : Rec512) (s : State) : Out := takeCommand 0x01 q packet s
/-- UNPIN (R72). -/
def execUnpin (q : BitVec 4) (packet : Rec512) (s : State) : Out := takeCommand 0x02 q packet s
/-- LOAD_IMAGE (R72). -/
def execLoadImage (q : BitVec 4) (packet : Rec512) (s : State) : Out := takeCommand 0x03 q packet s
/-- BIND (R72). -/
def execBind (q : BitVec 4) (packet : Rec512) (s : State) : Out := takeCommand 0x04 q packet s
/-- RING_CONFIG (R72). -/
def execRingConfig (q : BitVec 4) (packet : Rec512) (s : State) : Out := takeCommand 0x05 q packet s
/-- INJECT (R72). -/
def execInject (q : BitVec 4) (packet : Rec512) (s : State) : Out := takeCommand 0x06 q packet s
/-- LAUNCH (R72). -/
def execLaunch (q : BitVec 4) (packet : Rec512) (s : State) : Out := takeCommand 0x07 q packet s
/-- SLOT_WRITE (R72). -/
def execSlotWrite (q : BitVec 4) (packet : Rec512) (s : State) : Out := takeCommand 0x08 q packet s
/-- SLOT_READ (R72). -/
def execSlotRead (q : BitVec 4) (packet : Rec512) (s : State) : Out := takeCommand 0x09 q packet s
/-- SIGNAL (R72). -/
def execSignal (q : BitVec 4) (packet : Rec512) (s : State) : Out := takeCommand 0x0A q packet s
/-- FENCE (R72). -/
def execFence (q : BitVec 4) (packet : Rec512) (s : State) : Out := takeCommand 0x0B q packet s
/-- RESET_QUEUE (R72). -/
def execResetQueue (q : BitVec 4) (packet : Rec512) (s : State) : Out := takeCommand 0x0C q packet s
/-- TEARDOWN (R72). -/
def execTeardown (q : BitVec 4) (packet : Rec512) (s : State) : Out := takeCommand 0x0D q packet s
/-- ATTEST (R72). -/
def execAttest (q : BitVec 4) (packet : Rec512) (s : State) : Out := takeCommand 0x0E q packet s

/-- Whether an OPC is a command (R72). -/
def opcOk (n : Nat) : Bool := decide (1 ≤ n) && decide (n ≤ 0x0E)

/-- UNKNOWN_OPC_PACKET: IFV out of range gives VERSION, an OPC that is no command BADOPC (R66). -/
def execUnknownOpcPacket (q : BitVec 4) (packet : Rec512) (s : State) : Out :=
  if s.nextQueue = some q.toNat && s.headPacket q.toNat = packet && !(s.ifvOk packet && opcOk (pktOpc packet)) then
    let r := s.takePacket q.toNat packet
    .next (r.1.conclude r.2 (if s.ifvOk packet then 2 else 1) false 0 0)
  else .fault .notEnabled

/-- Takes the next packet, whatever it is. -/
def takeNext (q : BitVec 4) (s : State) : Out :=
  let p := s.headPacket q.toNat
  if s.ifvOk p && opcOk (pktOpc p) then takeCommand (pktOpc p) q p s else execUnknownOpcPacket q p s

/-- The dependent of a queue that waits, if its fate is decided and it can start (R67). -/
def State.decided (s : State) (q : Nat) : Option (Busy × Fate) :=
  if s.m.lead.config.isSome then none
  else
    match s.m.lead.waiting.find? (fun b => b.queue = q) with
    | none => none
    | some b =>
      match fateOf b.dep with
      | .waits => none
      | .cancelled => some (b, .cancelled)
      | .met => if s.mustWait b.packet then none else some (b, .met)

/-- DEPENDENCY_RESOLVED: the dependent starts, or completes CANCELLED (R67). -/
def execDependencyResolved (q : BitVec 4) (s : State) : Out :=
  match s.decided q.toNat with
  | none => .fault .notEnabled
  | some (b, f) =>
    let s := { s with m := { s.m with lead := { s.m.lead with waiting := s.m.lead.waiting.filter (fun x => x.order ≠ b.order) } } }
    match f with
    | .cancelled => .next ((s.conclude b 6 false 0 0).settle)
    | _ => .next ((s.start b).settle)

end Sys2Proof.Machine
end

