-- ==== Sys2Proof/Machine/Clusters.lean ====
section
/-! DEFINITION. What a cluster does by itself: results that come due, explicit waits that end, messages that arrive, freezes and the
watchdog (R107 to R119, R258, R321). -/

namespace Sys2Proof.Machine

/-- A system register of a core or sequencer written (R272, R298). -/
def Core.putSys (k : Core) (sd : Side) (r : Nat) (v : Word) : Core :=
  let q := k.seq sd
  let lv (f : LoopLevel → LoopLevel) (one : Bool) : Core :=
    k.setSeq sd (if one then { q with l1 := f q.l1 } else { q with l0 := f q.l0 })
  match r with
  | 0x012 => { k with mstamp := v }
  | 0x020 => lv (fun l => { l with lc := v }) false
  | 0x021 => lv (fun l => { l with ls := v.truncate 21 }) false
  | 0x022 => lv (fun l => { l with le := v.truncate 21 }) false
  | 0x023 => lv (fun l => { l with lc := v }) true
  | 0x024 => lv (fun l => { l with ls := v.truncate 21 }) true
  | 0x025 => lv (fun l => { l with le := v.truncate 21 }) true
  | 0x030 => { k with vwb := v }
  | 0x031 => { k with vtype := v }
  | 0x032 => { k with vrm := v }
  | 0x033 => { k with vclb := v }
  | 0x050 => { k with chainHead := v }
  | 0x051 => { k with chainTail := v }
  | n => if 0x040 ≤ n ∧ n < 0x050 then { k with bfmt := memSet 0 (n - 0x040) v k.bfmt } else k

/-- A result written to its target (R107, R112, R197). -/
def Core.commit (k : Core) (p : Pend) : Core :=
  let w : Word := p.val.truncate 64
  match p.tgt with
  | .sreg sd r => k.setSeq sd { k.seq sd with regs := memSet 0 r w (k.seq sd).regs }
  | .pred sd m => k.setSeq sd { k.seq sd with p := mergeBits (k.seq sd).p m (p.val.truncate 8) }
  | .bt sd t => k.setSeq sd { k.seq sd with bt := memSet 0 t.toNat (p.val.truncate 21) (k.seq sd).bt }
  | .sys sd r => k.putSys sd r w
  | .row r m => k.putRow r m p.val
  | .lmask m => { k with masks := memSet 0 m (p.val.truncate 512) k.masks }
  | .desc d m => { k with desc := memSet 0 d (mergeBits (k.descr (BitVec.ofNat 4 d)) m (p.val.truncate 512)) k.desc }
  | .flagSet => { k with vflags := k.vflags ||| w }
  | .flagClear => { k with vflags := k.vflags &&& ~~~w }
  | .bytes a n => k.putNat a n p.val.toNat
  | .lanes e l => { k with store := applyBytes k.store p, bad := l.foldl (fun b a => heal b a e) k.bad }
  | .kset i _ => { k with k := memSet 0 i w k.k }
  | .kadd i | .post i => { k with k := memSet 0 i (k.counter i + w) k.k }

/-- Whether a result is the post of a counter from outside the cluster (R116). -/
def Pend.isPost (p : Pend) : Bool := match p.tgt with | .post .. => true | _ => false

/-- Whether a result is due in a cycle of CCYC and KEYC: posts from outside by KEYC, in a frozen cluster too, the others by CCYC
while the cluster has its clock (R112, R113, R116). -/
def Pend.isDue (p : Pend) (now keyc : Nat) (frozen : Bool) : Bool :=
  if p.isPost then decide (p.due ≤ keyc) else !frozen && decide (p.due ≤ now)

/-- The place of a result among those that come due together: results, flags cleared at the end of the cycle before, flags set in
this one, kset, adds (R197, R317; log 44). -/
def Pend.rank (p : Pend) : Nat :=
  match p.tgt with
  | .flagClear => 1
  | .flagSet => 2
  | .kset .. => 3
  | .kadd .. | .post .. => 4
  | _ => 0

/-- The posting core of a kset (R317). -/
def Pend.poster (p : Pend) : Nat := match p.tgt with | .kset _ b => b | _ => 0

/-- Inserts a result by rank and poster, after those that go first. -/
def insertPend (p : Pend) : List Pend → List Pend
  | [] => [p]
  | x :: r => if keyLt [p.rank, p.poster] [x.rank, x.poster] then p :: x :: r else x :: insertPend p r

/-- Queue entries whose data have come are written (R109). -/
def Core.fillQueues (k : Core) (now : Nat) : Core :=
  { k with queues := k.queues.map (fun (e : Nat × List QEntry) =>
      (e.1, e.2.map (fun x => match x.st with
        | .pending d => if d ≤ now then { x with st := .written } else x
        | _ => x))) }

/-- Whether a queue entry's data come in this cycle. -/
def Core.queueDue (k : Core) (now : Nat) : Bool :=
  k.queues.any (fun e => e.2.any (fun x => match x.st with | .pending d => decide (d ≤ now) | _ => false))

/-- The results of a core that come due; in a frozen cluster only posts from outside do (R113, R116). -/
def Core.duePends (k : Core) (now keyc : Nat) (frozen : Bool) : List Pend :=
  k.pend.filter (fun p => p.isDue now keyc frozen)

/-- Whether LATENCY_ELAPSED is due on a core. -/
def State.latencyDue (s : State) (c : Nat) : Bool :=
  let k := s.core c
  let now := s.ccyc c
  let fr := s.frozen (clusterOf c)
  !(k.duePends now (s.keyc c) fr).isEmpty
    || (!fr && (k.queueDue now || s.trussCanAdvance c || (s.walkerNext c).isSome || (k.segkDone now).isSome))

/-- The core with its due results and queue entries written. -/
def Core.commitDue (k : Core) (now keyc : Nat) (frozen : Bool) : Core :=
  let l := (k.duePends now keyc frozen).foldl (fun l p => insertPend p l) []
  let k' := { k with pend := k.pend.filter (fun p => !p.isDue now keyc frozen) }
  let k' := l.foldl (fun k p => k.commit p) k'
  if frozen then k' else k'.fillQueues now

/-- LATENCY_ELAPSED: results are written, and what has no event of its own begins or ends: Truss items without a phase, walker
items, segk and segr (R107, R109, R371, R372, R381). -/
def execLatencyElapsed (c : Nat) (s : State) : Out :=
  if !s.latencyDue c then .fault .notEnabled
  else
    let now := s.ccyc c
    let fr := s.frozen (clusterOf c)
    let s := s.onCore c (·.commitDue now (s.keyc c) fr)
    if fr then .next s
    else
      let s := if s.trussCanAdvance c then s.trussAdvance c else s
      let s : State := match s.walkerNext c with
        | none => s
        | some cmd => s.walkerStart c cmd
      match (s.core c).segkDone now with
      | none => .next s
      | some j => .next (s.endJob c 6 j)

/-- Whether the condition of an explicit wait holds (R119, R121). -/
def State.waitHolds (s : State) (q : SeqId) (w : WaitCond) : Bool :=
  let c := q.core
  let k := s.core c
  match w with
  | .qPop n m => k.headWritten n m
  | .qPush n => decide ((k.queue n).length < n.depth)
  | .qFree n m => decide (m ≤ n.depth - (k.queue n).length)
  | .engineRoom 7 => s.ioRoom c
  | .engineRoom 15 => k.engRoom 7
  | .engineRoom e => k.engRoom e
  | .sideLogRoom => decide (k.sideLog.length < 16)
  | .counter n v => decide (v.toNat ≤ (k.counter n).toNat)
  | .engineDone e v => decide (v.toNat ≤ (k.doneNo e).toNat)
  | .fence n => s.fenceDone c (n = 3)
  | .fenceX _ => s.fenceDone c true
  | .segment v => match (s.die (dieOf c)).segAnswer (dieOf c) v with | .waits => false | _ => true
  | .csync _ => false
  | .boundary =>
    let own := k.seq q.side
    let other := k.seq q.side.other
    match s.runningRec c with
    | none => false
    | some (_, r) =>
      k.saving.isNone && r.cond.isNone
        && (decide (own.iter ≤ other.iter) || other.ended.isSome || k.preempt.isNone || r.cancel)

/-- Whether an explicit wait of a sequencer ends now; in a frozen cluster none does (R116, R119). -/
def State.waitEnds (s : State) (q : SeqId) : Bool :=
  match (s.seq q).wait with
  | none => false
  | some w => !s.frozen (clusterOf q.core) && (s.core q.core).running.isSome && !s.isStopped q.core && s.waitHolds q w

/-- EXPLICIT_WAIT_COMPLETE: the sequencer may issue again, its waiting instruction first (R119). -/
def execExplicitWaitComplete (q : SeqId) (s : State) : Out :=
  if s.waitEnds q then .next (s.onSeq q (fun sq => { sq with wait := none })) else .fault .notEnabled

/-- Whether a message is to arrive at a core now (R321). -/
def State.messageDue (s : State) (c : Nat) : Bool :=
  !s.frozen (clusterOf c)
    && (s.cluster (clusterOf c)).msgs.any (fun m => m.dst = c && !m.here && decide (m.arrives ≤ s.ccyc c))

/-- CLUSTER_MESSAGE_ARRIVAL: the messages of this cycle are there to be received (R321). -/
def execClusterMessageArrival (c : Nat) (s : State) : Out :=
  if !s.messageDue c then .fault .notEnabled
  else
    .next (s.onCluster (clusterOf c) (fun n => { n with
      msgs := n.msgs.map (fun (m : CMsg) => if m.dst = c ∧ m.arrives ≤ s.ccyc c then { m with here := true } else m) }))

/-- At the end of a cluster's cycle, the messages that arrived in it and that no crecv took are discarded, each with TIMING against
its receiver (R125, R321). -/
def State.discardMessages (s : State) (cl : Nat) : State :=
  let lost := (s.cluster cl).msgs.filter (·.here)
  let s := s.onCluster cl (fun n => { n with msgs := n.msgs.filter (fun m => !m.here) })
  lost.foldl (fun s m => s.raiseFor (dieOf m.dst) m.dst (s.core m.dst).running { code := .timing, kind := 4 } none none 0) s

/-- The reply-queue entries of a core whose replies are absent at their contract cycle, by request (R114, R116). -/
def State.lateReplies (s : State) (c : Nat) : List Nat :=
  ((s.core c).queue .reply).filterMap (fun e =>
    match e.st with
    | .awaiting due id =>
      if due ≤ s.ccyc c ∧ ¬ (s.m.replies.any (fun p => p.req = id)) = true then some id else none
    | _ => none)

/-- Whether a row of a copy or of the Truss phase of a core is absent at its contract cycle (R114, R138, R247). -/
def State.rowLate (s : State) (c : Nat) : Bool :=
  s.copyLate c || ((s.phaseRunning (clusterOf c)).any (fun p => p.1 = c) && s.trussLate (clusterOf c))

/-- Whether a block of a core's Truss phase waits for its overflow entry (R114, R160). -/
def State.blockLate (s : State) (c : Nat) : Bool :=
  (s.phaseRunning (clusterOf c)).any (fun p => p.1 = c) && s.overflowLate (clusterOf c)

/-- The causes DOMELATE and OVERFLOW that begin in a cluster now (R114). -/
def State.lateCauses (s : State) (cl : Nat) : List Freeze :=
  let cause (n c : Nat) (r : Option Nat) : List Freeze :=
    if (s.cluster cl).causes.any (fun f => f.cause = n && f.core = c && f.req == r && !f.served) then []
    else [{ cause := n, core := c, side := none, req := r, left := 0 }]
  (List.range 8).flatMap (fun i =>
    let c := cl * 8 + i
    if s.isStopped c || (s.core c).running.isNone then []
    else
      (s.lateReplies c).flatMap (fun id => cause 4 c (some id))
        ++ (if s.rowLate c then cause 4 c none else []) ++ (if s.blockLate c then cause 5 c none else []))

/-- DOMELATE, and OVERFLOW: a reply, row or block absent at its cycle freezes the cluster (R114, R160). -/
def execDomelate (cl : Nat) (s : State) : Out :=
  match s.lateCauses cl with
  | [] => .fault .notEnabled
  | l => .next (l.foldl (fun s f => s.freeze cl f) s)

/-- Whether what a cause of a freeze waits for has come (R114). -/
def State.causeOver (s : State) (f : Freeze) : Bool :=
  match f.cause with
  | 4 => match f.req with
    | some id => !(s.lateReplies f.core).contains id
    | none => !s.rowLate f.core
  | 5 => !s.blockLate f.core
  | 7 => !(s.core (f.req.getD f.core)).fpFull (s.ccyc f.core)
  | 8 =>
    match (tabGet [] (f.req.getD 0) (s.core f.core).queues)[f.left]? with
    | none => true
    | some e => match e.st with | .pending d => decide (d ≤ s.ccyc f.core) | _ => true
  | _ => false

/-- Whether a cause of a freeze is of a record that is stopped or gone: it keeps no cluster frozen (R258). -/
def State.causeStopped (s : State) (f : Freeze) : Bool := (s.core f.core).running.isNone || s.isStopped f.core

/-- Whether a cause of a freeze has ended; those of a stopped record are abandoned, and those served in order end by
themselves (R114, R115, R258). -/
def State.causeEnded (s : State) (f : Freeze) : Bool := !f.served && (s.causeStopped f || s.causeOver f)

/-- FLIM as it acts (R118). -/
def State.flim (s : State) (cl : Nat) : Nat :=
  max 64 (min (2 ^ 24) (bits ((s.die (cl / 8)).reg (0x0800 + 16 * (cl % 8))) 24 0))

/-- Whether the freeze of a cluster has lasted too long (R117). -/
def State.watchdogDue (s : State) (cl : Nat) : Bool := s.frozen cl && decide (s.flim cl < (s.cluster cl).frozenFor)

/-- The engine work of a core behind a cause is abandoned: a copy or phase whose row is late stays faulted, without a record of its
own, and a command that found no footprint entry is held (R117, R258). -/
def State.abandonWork (s : State) (f : Freeze) : State :=
  let c := f.core
  let cl := clusterOf c
  let halt (s : State) (j : Job) : State :=
    s.onCore c (fun k => { k.putJob { j with st := .faulted } with engHold := List.insert j.eng k.engHold })
  if f.cause = 7 then s.abandonFull c f.left
  else if (f.cause = 4 ∧ f.req.isNone = true) ∨ f.cause = 5 then
    let s : State := match (s.core c).copyRunning with
      | some j => if s.copyLate c then halt (releaseCopy s c j) j else s
      | none => s
    match s.phaseRunning cl with
    | some (o, j) => if o = c ∧ (s.trussLate cl || s.overflowLate cl) = true then halt (s.closePhase cl j) j else s
    | none => s
  else s

/-- The accesses behind causes of a freeze are abandoned: their requests and replies, and their engine work (R117, R258). -/
def State.abandon (s : State) (l : List Freeze) : State :=
  let gone := l.filterMap (fun f => if f.cause = 4 then f.req else none)
  let s := l.foldl (fun s f => s.abandonWork f) s
  { s with m := { s.m with
    reqs := s.m.reqs.filter (fun r => !gone.contains r.id), replies := s.m.replies.filter (fun r => !gone.contains r.req) } }

/-- FREEZE_END: every cause has ended, and this cycle is enabled; what a stopped record waited for is abandoned (R114, R258). -/
def execFreezeEnd (cl : Nat) (s : State) : Out :=
  if s.frozen cl && (s.cluster cl).causes.all s.causeEnded then
    let s := s.abandon ((s.cluster cl).causes.filter (fun f => s.causeStopped f && !s.causeOver f))
    .next (s.onCluster cl (fun c => { c with causes := [], frozenFor := 0 }))
  else .fault .notEnabled

/-- WATCHDOG: every record behind a cause that was outstanding in the cycle past the limit is stopped, for good, with the lowest
cause code; its accesses are abandoned and the rest of the cluster goes on (R117, R258). -/
def execWatchdog (cl : Nat) (s : State) : Out :=
  if !s.watchdogDue cl then .fault .notEnabled
  else
    let l := (s.cluster cl).causes.filter (fun f => !s.causeStopped f)
    let code := l.foldl (fun m f => min m f.cause) 8
    let cores := (l.map (·.core)).eraseDups
    let s := cores.foldl (fun s c =>
      let s := s.raiseFor (dieOf c) c (s.core c).running { code := .watchdog, cause := code, kind := 4 } none none 0
      let s := s.onDie (cl / 8) (·.count (0x0808 + 16 * (cl % 8)) 15 0 1)
      s.onCore c (fun k =>
        let halt (q : Seq) : Seq := { q with nextIssue := s.ccyc c + 1 }
        { k with unresumable := true, a := halt k.a, x := halt k.x })) s
    let s := s.abandon l
    .next (s.onCluster cl (fun c => { c with
      causes := (c.causes.filter Freeze.served).map (fun f => { f with left := 1 }), frozenFor := 0 }))

/-- Why a word is not an instruction on a side: it decodes to none, belongs to the other stream, or needs an absent unit
(R277). -/
def wordFault (word : BitVec 32) (sd : Side) (sq : Seq) (v : Variant) : Option FaultCode :=
  match decode word with
  | none => some .illegal
  | some i => (checkWord i sd sq v).filter (fun f => f = .illegal || f = .stream || f = .absent)

/-- NON_INSTRUCTION_WORD: the word has no effect and raises ILLEGAL, STREAM or ABSENT (R250, R274, R277). -/
def execNonInstructionWord (word : BitVec 32) (s : State) : Out :=
  let q := s.m.cur
  match wordFault word q.side (s.seq q) s.rom.variant with
  | none => .fault .noSequencer
  | some f => if s.canIssue q then .next (s.raisePrecise q word { code := f }) else .fault .noSequencer

end Sys2Proof.Machine
end

