-- ==== Sys2Proof/Machine/Dispatch.lean ====
section
/-! DEFINITION. One arm per constructor of Instr, each one direct call of its meaning. -/

namespace Sys2Proof.Machine

def exec (i : Instr) (s : State) : Host.Outcome State Fault Refusal :=
  match i with
  | .add g d a b => Sys2Proof.Machine.execAdd g d a b s
  | .sub g d a b => Sys2Proof.Machine.execSub g d a b s
  | .and g d a b => Sys2Proof.Machine.execAnd g d a b s
  | .or g d a b => Sys2Proof.Machine.execOr g d a b s
  | .xor g d a b => Sys2Proof.Machine.execXor g d a b s
  | .andn g d a b => Sys2Proof.Machine.execAndn g d a b s
  | .shl g d a b => Sys2Proof.Machine.execShl g d a b s
  | .shr g d a b => Sys2Proof.Machine.execShr g d a b s
  | .sra g d a b => Sys2Proof.Machine.execSra g d a b s
  | .rot g d a b => Sys2Proof.Machine.execRot g d a b s
  | .mul g d a b => Sys2Proof.Machine.execMul g d a b s
  | .mulh g d a b => Sys2Proof.Machine.execMulh g d a b s
  | .mulhn g d a b => Sys2Proof.Machine.execMulhn g d a b s
  | .min g d a b => Sys2Proof.Machine.execMin g d a b s
  | .max g d a b => Sys2Proof.Machine.execMax g d a b s
  | .minn g d a b => Sys2Proof.Machine.execMinn g d a b s
  | .maxn g d a b => Sys2Proof.Machine.execMaxn g d a b s
  | .div g d a b => Sys2Proof.Machine.execDiv g d a b s
  | .divn g d a b => Sys2Proof.Machine.execDivn g d a b s
  | .rem g d a b => Sys2Proof.Machine.execRem g d a b s
  | .remn g d a b => Sys2Proof.Machine.execRemn g d a b s
  | .clz g d a => Sys2Proof.Machine.execClz g d a s
  | .ctz g d a => Sys2Proof.Machine.execCtz g d a s
  | .popc g d a => Sys2Proof.Machine.execPopc g d a s
  | .mtbt g t a => Sys2Proof.Machine.execMtbt g t a s
  | .mfbt g d t => Sys2Proof.Machine.execMfbt g d t s
  | .addi g d a im => Sys2Proof.Machine.execAddi g d a im s
  | .andi g d a im => Sys2Proof.Machine.execAndi g d a im s
  | .ori g d a im => Sys2Proof.Machine.execOri g d a im s
  | .xori g d a im => Sys2Proof.Machine.execXori g d a im s
  | .shli g d a n => Sys2Proof.Machine.execShli g d a n s
  | .shri g d a n => Sys2Proof.Machine.execShri g d a n s
  | .srai g d a n => Sys2Proof.Machine.execSrai g d a n s
  | .roti g d a n => Sys2Proof.Machine.execRoti g d a n s
  | .sxt g d a w => Sys2Proof.Machine.execSxt g d a w s
  | .zxt g d a w => Sys2Proof.Machine.execZxt g d a w s
  | .ldi g d im => Sys2Proof.Machine.execLdi g d im s
  | .lsi g d im => Sys2Proof.Machine.execLsi g d im s
  | .cmp g p a b c => Sys2Proof.Machine.execCmp g p a b c s
  | .cmpi g p a c im => Sys2Proof.Machine.execCmpi g p a c im s
  | .pand g d a b => Sys2Proof.Machine.execPand g d a b s
  | .por g d a b => Sys2Proof.Machine.execPor g d a b s
  | .pxor g d a b => Sys2Proof.Machine.execPxor g d a b s
  | .pandn g d a b => Sys2Proof.Machine.execPandn g d a b s
  | .pnot g d a => Sys2Proof.Machine.execPnot g d a s
  | .pmov g d a => Sys2Proof.Machine.execPmov g d a s
  | .pget g d => Sys2Proof.Machine.execPget g d s
  | .pput g a => Sys2Proof.Machine.execPput g a s
  | .pbr g t im => Sys2Proof.Machine.execPbr g t im s
  | .br g t => Sys2Proof.Machine.execBr g t s
  | .brl g t => Sys2Proof.Machine.execBrl g t s
  | .loop g l a n => Sys2Proof.Machine.execLoop g l a n s
  | .knext g => Sys2Proof.Machine.execKnext g s
  | .exit g => Sys2Proof.Machine.execExit g s
  | .yieldK g sv k => Sys2Proof.Machine.execYieldK g sv k s
  | .yieldIo g sv => Sys2Proof.Machine.execYieldIo g sv s
  | .bpush g a => Sys2Proof.Machine.execBpush g a s
  | .bpop g d => Sys2Proof.Machine.execBpop g d s
  | .ld g d a z im => Sys2Proof.Machine.execLd g d a z im s
  | .st g d a z im => Sys2Proof.Machine.execSt g d a z im s
  | .lqr g n a b x => Sys2Proof.Machine.execLqr g n a b x s
  | .lqg g n a b e c => Sys2Proof.Machine.execLqg g n a b e c s
  | .sqw g n a b x => Sys2Proof.Machine.execSqw g n a b x s
  | .sqs g n a b e c => Sys2Proof.Machine.execSqs g n a b e c s
  | .lqz g n => Sys2Proof.Machine.execLqz g n s
  | .gld g a b z => Sys2Proof.Machine.execGld g a b z s
  | .gst g d a b z => Sys2Proof.Machine.execGst g d a b z s
  | .gpop g d => Sys2Proof.Machine.execGpop g d s
  | .gcnt g d => Sys2Proof.Machine.execGcnt g d s
  | .amoReturning g a b o t => Sys2Proof.Machine.execAmoReturning g a b o t s
  | .amoXchg g a b t => Sys2Proof.Machine.execAmoXchg g a b t s
  | .amoCas g d a b t => Sys2Proof.Machine.execAmoCas g d a b t s
  | .amoReduction g a b o t => Sys2Proof.Machine.execAmoReduction g a b o t s
  | .amoF32Reduction g a b o => Sys2Proof.Machine.execAmoF32Reduction g a b o s
  | .fenceCore g => Sys2Proof.Machine.execFenceCore g s
  | .fenceCluster g => Sys2Proof.Machine.execFenceCluster g s
  | .fenceDie g => Sys2Proof.Machine.execFenceDie g s
  | .fenceModule g => Sys2Proof.Machine.execFenceModule g s
  | .fenceX g m => Sys2Proof.Machine.execFenceX g m s
  | .kwait g sv k => Sys2Proof.Machine.execKwait g sv k s
  | .ktest g sv k p => Sys2Proof.Machine.execKtest g sv k p s
  | .kget g sv k => Sys2Proof.Machine.execKget g sv k s
  | .kadd g sv k r c => Sys2Proof.Machine.execKadd g sv k r c s
  | .kset g sv k r c => Sys2Proof.Machine.execKset g sv k r c s
  | .ewait g sv e => Sys2Proof.Machine.execEwait g sv e s
  | .eseq g sv e => Sys2Proof.Machine.execEseq g sv e s
  | .qwait g sv q => Sys2Proof.Machine.execQwait g sv q s
  | .rsr g sv r => Sys2Proof.Machine.execRsr g sv r s
  | .wsr g sv r => Sys2Proof.Machine.execWsr g sv r s
  | .xsr g sv r => Sys2Proof.Machine.execXsr g sv r s
  | .nop g => Sys2Proof.Machine.execNop g s
  | .trap g n => Sys2Proof.Machine.execTrap g n s
  | .brk g n => Sys2Proof.Machine.execBrk g n s
  | .csync g m => Sys2Proof.Machine.execCsync g m s
  | .csendS g a p => Sys2Proof.Machine.execCsendS g a p s
  | .crecvS g d p => Sys2Proof.Machine.execCrecvS g d p s
  | .csendRow g a p => Sys2Proof.Machine.execCsendRow g a p s
  | .crecvRow g a p => Sys2Proof.Machine.execCrecvRow g a p s
  | .vadd g d a b m => Sys2Proof.Machine.execVadd g d a b m s
  | .vsub g d a b m => Sys2Proof.Machine.execVsub g d a b m s
  | .vmul g d a b m => Sys2Proof.Machine.execVmul g d a b m s
  | .vfma g d a b m => Sys2Proof.Machine.execVfma g d a b m s
  | .vfms g d a b m => Sys2Proof.Machine.execVfms g d a b m s
  | .vmin g d a b m => Sys2Proof.Machine.execVmin g d a b m s
  | .vmax g d a b m => Sys2Proof.Machine.execVmax g d a b m s
  | .vabs g d a m => Sys2Proof.Machine.execVabs g d a m s
  | .vneg g d a m => Sys2Proof.Machine.execVneg g d a m s
  | .vmov g d a m => Sys2Proof.Machine.execVmov g d a m s
  | .vsel g d a b m => Sys2Proof.Machine.execVsel g d a b m s
  | .viadd g d a b m => Sys2Proof.Machine.execViadd g d a b m s
  | .visub g d a b m => Sys2Proof.Machine.execVisub g d a b m s
  | .vimul g d a b m => Sys2Proof.Machine.execVimul g d a b m s
  | .vimin g d a b m => Sys2Proof.Machine.execVimin g d a b m s
  | .vimax g d a b m => Sys2Proof.Machine.execVimax g d a b m s
  | .vand g d a b m => Sys2Proof.Machine.execVand g d a b m s
  | .vor g d a b m => Sys2Proof.Machine.execVor g d a b m s
  | .vxor g d a b m => Sys2Proof.Machine.execVxor g d a b m s
  | .vshl g d a b m => Sys2Proof.Machine.execVshl g d a b m s
  | .vshr g d a b m => Sys2Proof.Machine.execVshr g d a b m s
  | .vsra g d a b m => Sys2Proof.Machine.execVsra g d a b m s
  | .vexp2 g d a m => Sys2Proof.Machine.execVexp2 g d a m s
  | .vlog2 g d a m => Sys2Proof.Machine.execVlog2 g d a m s
  | .vrcp g d a m => Sys2Proof.Machine.execVrcp g d a m s
  | .vrsqrt g d a m => Sys2Proof.Machine.execVrsqrt g d a m s
  | .vsqrt g d a m => Sys2Proof.Machine.execVsqrt g d a m s
  | .vtanh g d a m => Sys2Proof.Machine.execVtanh g d a m s
  | .vsigm g d a m => Sys2Proof.Machine.execVsigm g d a m s
  | .vcmp g d a b m c => Sys2Proof.Machine.execVcmp g d a b m c s
  | .vicmp g d a b m c => Sys2Proof.Machine.execVicmp g d a b m c s
  | .vsum g a sv m => Sys2Proof.Machine.execVsum g a sv m s
  | .vrmax g a sv m => Sys2Proof.Machine.execVrmax g a sv m s
  | .vrmin g a sv m => Sys2Proof.Machine.execVrmin g a sv m s
  | .vargmax g a sv m => Sys2Proof.Machine.execVargmax g a sv m s
  | .mand g d a b => Sys2Proof.Machine.execMand g d a b s
  | .mor g d a b => Sys2Proof.Machine.execMor g d a b s
  | .mxor g d a b => Sys2Proof.Machine.execMxor g d a b s
  | .mnot g d a => Sys2Proof.Machine.execMnot g d a s
  | .mset g d => Sys2Proof.Machine.execMset g d s
  | .mclr g d => Sys2Proof.Machine.execMclr g d s
  | .mfirst g d a m => Sys2Proof.Machine.execMfirst g d a m s
  | .vany g p a m => Sys2Proof.Machine.execVany g p a m s
  | .vall g p a m => Sys2Proof.Machine.execVall g p a m s
  | .mcnt g sv a m => Sys2Proof.Machine.execMcnt g sv a m s
  | .vadds g d a sv m => Sys2Proof.Machine.execVadds g d a sv m s
  | .vsubs g d a sv m => Sys2Proof.Machine.execVsubs g d a sv m s
  | .vmuls g d a sv m => Sys2Proof.Machine.execVmuls g d a sv m s
  | .vfmas g d a sv m => Sys2Proof.Machine.execVfmas g d a sv m s
  | .vmins g d a sv m => Sys2Proof.Machine.execVmins g d a sv m s
  | .vmaxs g d a sv m => Sys2Proof.Machine.execVmaxs g d a sv m s
  | .vbc g d sv m => Sys2Proof.Machine.execVbc g d sv m s
  | .vext g d a sv => Sys2Proof.Machine.execVext g d a sv s
  | .vrot g d a sv m => Sys2Proof.Machine.execVrot g d a sv m s
  | .vtopk g d a sv m => Sys2Proof.Machine.execVtopk g d a sv m s
  | .vpk g d a f r m => Sys2Proof.Machine.execVpk g d a f r m s
  | .vupk g d a f p m => Sys2Proof.Machine.execVupk g d a f p m s
  | .vcvi g d a r m => Sys2Proof.Machine.execVcvi g d a r m s
  | .vcvf g d a r m => Sys2Proof.Machine.execVcvf g d a r m s
  | .vclp g d a m => Sys2Proof.Machine.execVclp g d a m s
  | .vwset g n => Sys2Proof.Machine.execVwset g n s
  | .vwin g n => Sys2Proof.Machine.execVwin g n s
  | .vperm g d a b m => Sys2Proof.Machine.execVperm g d a b m s
  | .mma g c a b x sv t u v p im => Sys2Proof.Machine.execMma g c a b x sv t u v p im s
  | .mzero g c sv => Sys2Proof.Machine.execMzero g c sv s
  | .dld g d sv => Sys2Proof.Machine.execDld g d sv s
  | .dst g d sv => Sys2Proof.Machine.execDst g d sv s
  | .dmod g d sv f => Sys2Proof.Machine.execDmod g d sv f s
  | .cpy g d k p q => Sys2Proof.Machine.execCpy g d k p q s
  | .cht g sv => Sys2Proof.Machine.execCht g sv s
  | .chs g sv => Sys2Proof.Machine.execChs g sv s
  | .tload g sv => Sys2Proof.Machine.execTload g sv s
  | .tbind g d p => Sys2Proof.Machine.execTbind g d p s
  | .tgo g => Sys2Proof.Machine.execTgo g s
  | .tbar g => Sys2Proof.Machine.execTbar g s
  | .kvres g sv => Sys2Proof.Machine.execKvres g sv s
  | .kvapp g sv => Sys2Proof.Machine.execKvapp g sv s
  | .kvret g sv => Sys2Proof.Machine.execKvret g sv s
  | .kvfork g sv => Sys2Proof.Machine.execKvfork g sv s
  | .kvsel g sv => Sys2Proof.Machine.execKvsel g sv s
  | .kvgat g sv => Sys2Proof.Machine.execKvgat g sv s
  | .dattn g sv => Sys2Proof.Machine.execDattn g sv s
  | .dattnRot g sv => Sys2Proof.Machine.execDattnRot g sv s
  | .dbnd g sv => Sys2Proof.Machine.execDbnd g sv s
  | .dsum g sv => Sys2Proof.Machine.execDsum g sv s
  | .segw g sv => Sys2Proof.Machine.execSegw g sv s
  | .segk g sv => Sys2Proof.Machine.execSegk g sv s
  | .segr g sv => Sys2Proof.Machine.execSegr g sv s
  | .segi g d sv => Sys2Proof.Machine.execSegi g d sv s
  | .segt g sv => Sys2Proof.Machine.execSegt g sv s
  | .tcenc g sv => Sys2Proof.Machine.execTcenc g sv s
  | .iorq g sv => Sys2Proof.Machine.execIorq g sv s
  | .iocan g sv => Sys2Proof.Machine.execIocan g sv s
  | .keycSyncToken die => Sys2Proof.Machine.execKeycSyncToken die s
  | .versionToken die => Sys2Proof.Machine.execVersionToken die s
  | .commitToken die => Sys2Proof.Machine.execCommitToken die s
  | .ringSyncToken die => Sys2Proof.Machine.execRingSyncToken die s
  | .lanternHeartbeat die => Sys2Proof.Machine.execLanternHeartbeat die s
  | .heartbeatTimeout die => Sys2Proof.Machine.execHeartbeatTimeout die s
  | .beatSlotEgress die => Sys2Proof.Machine.execBeatSlotEgress die s
  | .headerBeatWrite die => Sys2Proof.Machine.execHeaderBeatWrite die s
  | .payloadBeatWrite die => Sys2Proof.Machine.execPayloadBeatWrite die s
  | .holdValueReceive die h => Sys2Proof.Machine.execHoldValueReceive die h s
  | .holdLimit die => Sys2Proof.Machine.execHoldLimit die s
  | .ringFailureDetect die => Sys2Proof.Machine.execRingFailureDetect die s
  | .spokeMessage die msg => Sys2Proof.Machine.execSpokeMessage die msg s
  | .dependencyResolved q => Sys2Proof.Machine.execDependencyResolved q s
  | .cqInterruptTimer => Sys2Proof.Machine.execCqInterruptTimer s
  | .tileDispatch die => Sys2Proof.Machine.execTileDispatch die s
  | .recordStart core => Sys2Proof.Machine.execRecordStart core s
  | .contextSave core => Sys2Proof.Machine.execContextSave core s
  | .preemptLimit core => Sys2Proof.Machine.execPreemptLimit core s
  | .yieldConditionMet record => Sys2Proof.Machine.execYieldConditionMet record s
  | .recordRetire core => Sys2Proof.Machine.execRecordRetire core s
  | .domelate cluster => Sys2Proof.Machine.execDomelate cluster s
  | .freezeEnd cluster => Sys2Proof.Machine.execFreezeEnd cluster s
  | .watchdog cluster => Sys2Proof.Machine.execWatchdog cluster s
  | .explicitWaitComplete q => Sys2Proof.Machine.execExplicitWaitComplete q s
  | .replyWrite core => Sys2Proof.Machine.execReplyWrite core s
  | .clusterMessageArrival core => Sys2Proof.Machine.execClusterMessageArrival core s
  | .matrixCommandStart core => Sys2Proof.Machine.execMatrixCommandStart core s
  | .matrixOperandRelease core => Sys2Proof.Machine.execMatrixOperandRelease core s
  | .matrixCompletion core => Sys2Proof.Machine.execMatrixCompletion core s
  | .copyItemStart core => Sys2Proof.Machine.execCopyItemStart core s
  | .copyCompletion core => Sys2Proof.Machine.execCopyCompletion core s
  | .trussPhaseStart cluster => Sys2Proof.Machine.execTrussPhaseStart cluster s
  | .trussPhaseEnd cluster => Sys2Proof.Machine.execTrussPhaseEnd cluster s
  | .walkerJob core => Sys2Proof.Machine.execWalkerJob core s
  | .decodeItemStart cluster => Sys2Proof.Machine.execDecodeItemStart cluster s
  | .decodeItemComplete cluster => Sys2Proof.Machine.execDecodeItemComplete cluster s
  | .encoderJobStart die => Sys2Proof.Machine.execEncoderJobStart die s
  | .encoderBlockComplete die => Sys2Proof.Machine.execEncoderBlockComplete die s
  | .viaductItemStart core => Sys2Proof.Machine.execViaductItemStart core s
  | .segmentInsertComplete core => Sys2Proof.Machine.execSegmentInsertComplete core s
  | .ioRequestSend core => Sys2Proof.Machine.execIoRequestSend core s
  | .ioResponsePoll die => Sys2Proof.Machine.execIoResponsePoll die s
  | .ioCompletion core => Sys2Proof.Machine.execIoCompletion core s
  | .ownerAccess src dst => Sys2Proof.Machine.execOwnerAccess src dst s
  | .apertureRequest src dst => Sys2Proof.Machine.execApertureRequest src dst s
  | .clockBeaconSend die => Sys2Proof.Machine.execClockBeaconSend die s
  | .clockBeaconReceive src dst => Sys2Proof.Machine.execClockBeaconReceive src dst s
  | .heldAccessRelease src dst => Sys2Proof.Machine.execHeldAccessRelease src dst s
  | .sideLogReplayStep core => Sys2Proof.Machine.execSideLogReplayStep core s
  | .faultRecordDelivery die => Sys2Proof.Machine.execFaultRecordDelivery die s
  | .recordLate record => Sys2Proof.Machine.execRecordLate record s
  | .latencyElapsed core => Sys2Proof.Machine.execLatencyElapsed core s
  | .nonInstructionWord word => Sys2Proof.Machine.execNonInstructionWord word s
  | .powerOn => Sys2Proof.Machine.execPowerOn s
  | .computeDieResetRelease => Sys2Proof.Machine.execComputeDieResetRelease s
  | .sramInitComplete die => Sys2Proof.Machine.execSramInitComplete die s
  | .linkTrainingComplete die link ok repaired latency holdLatency farMin farMax => Sys2Proof.Machine.execLinkTrainingComplete die link ok repaired latency holdLatency farMin farMax s
  | .bootImageRelay die src image => Sys2Proof.Machine.execBootImageRelay die src image s
  | .bootImageVerify die => Sys2Proof.Machine.execBootImageVerify die s
  | .thermalMeasurement die tj => Sys2Proof.Machine.execThermalMeasurement die tj s
  | .linkFailure die link => Sys2Proof.Machine.execLinkFailure die link s
  | .linkRetry die => Sys2Proof.Machine.execLinkRetry die s
  | .fecCodewordDrop die => Sys2Proof.Machine.execFecCodewordDrop die s
  | .repairSwitch => Sys2Proof.Machine.execRepairSwitch s
  | .repairRebalance => Sys2Proof.Machine.execRepairRebalance s
  | .reinjection die => Sys2Proof.Machine.execReinjection die s
  | .sqTailWrite q value secure => Sys2Proof.Machine.execSqTailWrite q value secure s
  | .cqHeadWrite value => Sys2Proof.Machine.execCqHeadWrite value s
  | .fqHeadWrite die value => Sys2Proof.Machine.execFqHeadWrite die value s
  | .registerWrite die off value by_ => Sys2Proof.Machine.execRegisterWrite die off value by_ s
  | .kvUnitDisable die => Sys2Proof.Machine.execKvUnitDisable die s
  | .tlbRewrite die va leaf => Sys2Proof.Machine.execTlbRewrite die va leaf s
  | .pin q packet => Sys2Proof.Machine.execPin q packet s
  | .unpin q packet => Sys2Proof.Machine.execUnpin q packet s
  | .loadImage q packet => Sys2Proof.Machine.execLoadImage q packet s
  | .bind q packet => Sys2Proof.Machine.execBind q packet s
  | .ringConfig q packet => Sys2Proof.Machine.execRingConfig q packet s
  | .inject q packet => Sys2Proof.Machine.execInject q packet s
  | .launch q packet => Sys2Proof.Machine.execLaunch q packet s
  | .slotWrite q packet => Sys2Proof.Machine.execSlotWrite q packet s
  | .slotRead q packet => Sys2Proof.Machine.execSlotRead q packet s
  | .signal q packet => Sys2Proof.Machine.execSignal q packet s
  | .fence q packet => Sys2Proof.Machine.execFence q packet s
  | .resetQueue q packet => Sys2Proof.Machine.execResetQueue q packet s
  | .teardown q packet => Sys2Proof.Machine.execTeardown q packet s
  | .attest q packet => Sys2Proof.Machine.execAttest q packet s
  | .resume die fseq => Sys2Proof.Machine.execResume die fseq s
  | .replay die fseq => Sys2Proof.Machine.execReplay die fseq s
  | .killRecord die fseq => Sys2Proof.Machine.execKillRecord die fseq s
  | .killLaunch die fseq => Sys2Proof.Machine.execKillLaunch die fseq s
  | .scrubRead target addr => Sys2Proof.Machine.execScrubRead target addr s
  | .moduleReset => Sys2Proof.Machine.execModuleReset s
  | .unknownOpcPacket q packet => Sys2Proof.Machine.execUnknownOpcPacket q packet s

end Sys2Proof.Machine
end

