-- ==== Sys2Proof/Machine/Mepen.lean ====
section
/-! DEFINITION. Mepen's handler of permission-class faults on aperture pages: remapping, migration, replay and kill (R401). -/

namespace Sys2Proof.Machine

/-- What the handler does next about a fault: the leaf entry takes RAP, its page moves to physical page ppn of the owner, the fault is
resolved with REPLAY, or its record is killed. -/
inductive MepenAct where
  | remap (key : Nat)
  | migrate (key ppn : Nat)
  | replay
  | kill
deriving DecidableEq, Repr

/-- VA of a fault record (R254). -/
def FaultRec.va (f : FaultRec) : Nat := bits f.raw 511 448

/-- The size of the page of a leaf entry (R142). -/
def leafBytes (l : Word) : Nat := if lG l then 2 ^ 21 else 2 ^ 16

/-- N: the permission-class faults on the page of a TLB entry in the last 2^20 cycles, the current one included (R401). -/
def Die.permCount (d : Die) (key : Nat) : Nat :=
  max 1 (d.perms.countP (fun e => d.leafKey (e.1 * 2 ^ 16) == some key && decide (d.keyc < e.2 + 2 ^ 20)))

/-- The first of the physical pages that a page may move to on its owner, aligned as its size asks: the highest that is free (R143,
R401). -/
def State.pageFor (s : State) (g : Nat) (l : Word) : Option Nat :=
  let n := leafBytes l / 2 ^ 16
  ((highest (fun b => (List.range n).all (fun i => s.pageFree g (b * n + i))) ((s.die g).pagesTop / n) 1).map (· * n)).head?

/-- Whether the handler has mended the page of a TLB entry since a fault on it was raised: by remapping, for the core it was remapped
for, or by migration, for every core (R401; log 45). -/
def Die.isMended (d : Die) (key : Nat) (f : FaultRec) : Bool :=
  d.mended.any (fun e => e.1 = key && (e.2.1.isNone || e.2.1 == some f.core) && decide (f.raised ≤ e.2.2))

/-- Notes that the handler has mended the page of a TLB entry for a core, or for every core. -/
def Die.noteMended (d : Die) (key : Nat) (core : Option Nat) : Die :=
  { d with mended := d.mended.filter (fun e => !(e.1 = key && e.2.1 = core)) ++ [(key, core, d.keyc)] }

/-- The decision table of R401 for an unresolved fault record of a die; none where the rule says nothing, or the handler waits for the
end of a migration or for a rewrite. -/
def State.mepenAct (s : State) (g : Nat) (f : FaultRec) : Option MepenAct :=
  let d := s.die g
  if f.code != FaultCode.permission.num && f.code != FaultCode.atomicPermit.num then none
  else
    match d.leafKey f.va with
    | none => none
    | some key =>
      let l := tabGet 0 key d.tlb
      if d.rewrites.any (fun e => e.1 = key) || d.migrations.any (fun m => m.key = key) then none
      else if d.isMended key f then some .replay
      else if !lA l then none
      else if f.code = FaultCode.atomicPermit.num then
        if d.permCount key < Config.migLim then some (.remap key)
        else
          match s.pageFor g l with
          | none => some (.remap key)
          | some p => some (.migrate key p)
      else some .kill

/-- Mepen resolves a fault record on a page whose leaf has A = 1, the oldest that it need not wait for: the leaf is rewritten before its
faults are resolved (R150, R401). A copy's fault, to which R257 permits no REPLAY, is resolved with RESUME (log 45). -/
def mepenHandle (g : Nat) (s : State) : Out :=
  match (s.die g).openFaults.findSome? (fun f => (s.mepenAct g f).map (fun a => (f, a))) with
  | none => .fault .notEnabled
  | some (f, a) =>
    let n : BitVec 32 := BitVec.ofNat 32 (bits f.raw 127 96)
    let leaf (key : Nat) : Word := tabGet 0 key (s.die g).tlb
    let at_ (key : Nat) : Word := BitVec.ofNat 64 (leafBase key)
    match a with
    | .replay => if f.raw.getLsbD 137 then execReplay g n s else execResume g n s
    | .kill => execKillRecord g n s
    | .remap key => execTlbRewrite g (at_ key) (setBits (leaf key) 58 58 1) (s.onDie g (·.noteMended key (some f.core)))
    | .migrate key p =>
      let s := s.onDie g (fun d => { d with
        migrations := d.migrations ++ [⟨key, p, 0⟩], reserved := (p, leafBytes (leaf key) / 2 ^ 16) :: d.reserved })
      execTlbRewrite g (at_ key) (setBits (leaf key) 60 60 0) s

/-- A migration is over: its page is Mepen's no more. -/
def Die.endMigration (d : Die) (m : Migration) : Die :=
  { d with migrations := d.migrations.filter (· != m), reserved := d.reserved.filter (fun r => r.1 != m.ppn) }

/-- The leaf entry of a page after its migration to physical page p of its owner: A and TARGET 0, W and RAP 1 (R401). -/
def migratedLeaf (l : Word) (p : Nat) : Word :=
  setBits (setBits (setBits (setBits (setBits l 59 59 0) 47 38 0) 37 16 p) 60 60 1) 58 58 1

/-- 1 KiB of a page moves from the die that holds it to its owner. A word of it with an uncorrectable error is reported and stays
one (R21, R401; log 45). -/
def State.moveRow (s : State) (g h src dst : Nat) : State :=
  let l := readBytes (s.die h).dome src 1024
  let bad := (s.die h).bad.filter (fun w => decide (src / 8 ≤ w) && decide (w < src / 8 + 128))
  let s := s.onDie g (·.putBytes dst l)
  bad.foldl (fun s w =>
    (s.onDie g (fun d => { d with bad := List.insert (w - src / 8 + dst / 8) d.bad })).raiseFor h (h * 64) none
      { code := .eccUncorrectable, cause := h * 2 ^ 32 + 8 * w, kind := 4 } none none 0) s

/-- The slices that a 1 KiB row of a die's Dome lies in (R136). -/
def rowOfSlices (g pa : Nat) : List (Nat × Nat × Nat) := (List.range 4).map (fun i => (g, (pa / 256 + i) % 64, 256))

/-- Whether a migration of a die can go on: no rewrite of its entry waits, and its next row has a way and slices with room (R15,
R136). -/
def State.canMigrate (s : State) (g : Nat) (m : Migration) : Bool :=
  let d := s.die g
  let l := tabGet 0 m.key d.tlb
  let h := s.holder g l
  !d.rewrites.any (fun e => e.1 = m.key)
    && (!lV l || !lA l || decide (leafBytes l ≤ m.moved)
      || ((s.route h g).isSome
        && s.slicesRoom (rowOfSlices h (lPpn l * 2 ^ 16 + m.moved) ++ rowOfSlices g (m.ppn * 2 ^ 16 + m.moved))))

/-- A migration goes on: a row of the page moves; after the last one the leaf entry names the page's new place, and the faults of every
core on it are mended. The migration of a page that is mapped no more, or no more by an aperture, is over (R401). -/
def mepenMove (g : Nat) (s : State) : Out :=
  match (s.die g).migrations.find? (s.canMigrate g) with
  | none => .fault .notEnabled
  | some m =>
    let l := tabGet 0 m.key (s.die g).tlb
    let h := s.holder g l
    if !lV l || !lA l then .next (s.onDie g (·.endMigration m))
    else if leafBytes l ≤ m.moved then
      execTlbRewrite g (BitVec.ofNat 64 (leafBase m.key)) (migratedLeaf l m.ppn)
        (s.onDie g (·.noteMended m.key none))
    else
      let src := lPpn l * 2 ^ 16 + m.moved
      let dst := m.ppn * 2 ^ 16 + m.moved
      let s := s.touchSlices (rowOfSlices h src ++ rowOfSlices g dst)
      .next ((s.moveRow g h src dst).onDie g (fun d => { d with
        migrations := d.migrations.map (fun x => if x = m then { m with moved := m.moved + 1024 } else x) }))

end Sys2Proof.Machine
end

