-- ==== Sys2Proof/Machine/Next.lean ====
section
/-! DEFINITION. The order of a cycle: events whose time the spec leaves open, events that fall due, the fetch of words, and the
end of the cycle (R18, R107, R113 to R117). -/

namespace Sys2Proof.Machine

/-- The clusters with a touched core. -/
def State.liveClusters (s : State) : List Nat := (s.liveCores.map clusterOf).eraseDups

/-- The pairs of issuing die and owner with a request. -/
def State.reqPairs (s : State) : List (Nat × Nat) := (s.m.reqs.map (fun r => (r.src, r.owner))).eraseDups
/-- The pairs of owner and target die with a forwarded request. -/
def State.fwdPairs (s : State) : List (Nat × Nat) :=
  (s.m.reqs.filterMap (fun r => match r.at_ with | .forwarded d _ => some (r.owner, d) | _ => none)).eraseDups
/-- The pairs of dies with a beacon in flight. -/
def State.beaconPairs (s : State) : List (Nat × Nat) := (s.m.beacons.map (fun b => (b.src, b.dst))).eraseDups

/-- The events whose time the spec leaves open, as far as they could happen now: boot, repair, messages between dies, the lead
lantern, schedulers, engines without a contract (log 1). -/
def State.openEvents (s : State) : List (State → Out) :=
  let cs := s.liveCores
  let cls := s.liveClusters
  s.allDies.map execSramInitComplete
    ++ s.allDies.map execBootImageVerify
    ++ s.reqPairs.map (fun p => execOwnerAccess p.1 p.2)
    ++ s.reqPairs.map (fun p => execHeldAccessRelease p.1 p.2)
    ++ s.fwdPairs.map (fun p => execApertureRequest p.1 p.2)
    ++ s.allDies.map execClockBeaconSend
    ++ s.beaconPairs.map (fun p => execClockBeaconReceive p.1 p.2)
    ++ cs.map execSideLogReplayStep
    ++ s.allDies.map execFaultRecordDelivery
    ++ s.allDies.map execTileDispatch
    ++ ((s.m.recs.map (fun e => e.2.core)).eraseDups).map execRecordStart
    ++ cs.map execRecordRetire
    ++ cs.map execContextSave
    ++ (cs.filter (fun c => !s.copyTimed c false)).map copyFetch
    ++ (cs.filter (fun c => !s.copyTimed c true)).map copyWrite
    ++ cls.flatMap (fun cl => (List.range 4).map (trussFetch cl)) ++ cls.map trussOverflow
    ++ (cls.filter (fun cl => s.decodeUntimed cl)).map execDecodeItemComplete
    ++ cs.map execWalkerJob ++ cs.map ioCopy
    ++ [bridgeBeat, bridgeHold, failureAbroad, reinjectStart]
    ++ s.nextQueue.toList.map (fun q => takeNext (BitVec.ofNat 4 q))
    ++ (List.range 16).map (fun q => execDependencyResolved (BitVec.ofNat 4 q))
    ++ s.allDies.map execLanternHeartbeat
    ++ s.m.failing.map execRingFailureDetect
    ++ [execRepairSwitch, execRepairRebalance]
    ++ s.allDies.map execReinjection ++ s.allDies.map mepenHandle ++ s.allDies.map mepenMove

/-- The slots that may be candidates for a header on a die: those of the active launches whose STAGE is its tag (R95). -/
def State.candidates (s : State) (g tag : Nat) : Nat :=
  s.m.slots.countP (fun e => e.1 / 2 ^ 12 % 16 = g && e.2.stage = tag && (e.2.state = 1 || e.2.state = 2)
    && ((s.launch? (e.1 / 2 ^ 16)).map (·.active)).getD false)

/-- What has to happen by now though its time is open: a fault record 256 cycles after its fault, a dispatch 256 cycles and 4 for
each candidate after its header, a clock beacon every 256 cycles (R95, R170, R255). -/
def State.overdue (s : State) : List (State → Out) :=
  let late (g : Nat) : Bool := (s.die g).heldFaults.any (fun f => decide (f.raised + 256 ≤ (s.die g).keyc))
  let head (g : Nat) : Bool := (s.die g).ring.undispatched.any (fun i =>
    decide (i.headerAt + 256 + 4 * s.candidates g i.tag ≤ (s.die g).keyc))
  (s.allDies.filter late).map execFaultRecordDelivery
    ++ (s.allDies.filter head).map execTileDispatch
    ++ (s.allDies.filter (fun g => (s.die g).keyc % 256 = 0)).map execClockBeaconSend

/-- The events that fall due in a cycle, in the order in which a cycle has them: freezes begin and end, results and messages come,
engine work ends, replies are written, the Viaduct moves, engine work starts, limits are met, waits end (R107 to R119; log 1). -/
def State.dueEvents (s : State) : List (State → Out) :=
  let cs := s.liveCores
  let cls := s.liveClusters
  s.allDies.map measureNow ++ s.allDies.map applyRewrite ++ cs.map reportRefused
    ++ cls.map execDomelate ++ cls.map execWatchdog ++ cls.map execFreezeEnd
    ++ cs.map execLatencyElapsed ++ cs.map execClusterMessageArrival
    ++ cs.map matrixEcc ++ cs.map execMatrixOperandRelease ++ cs.map execMatrixCompletion
    ++ cs.map copyCard ++ (cs.filter (fun c => s.copyTimed c false)).map copyFetch
    ++ (cs.filter (fun c => s.copyTimed c true)).map copyWrite ++ cs.map execCopyCompletion
    ++ cls.map trussEcc ++ cls.map trussEnter ++ cls.map decodeRow ++ cls.map trussLeave ++ cls.map execTrussPhaseEnd
    ++ (cls.filter (fun cl => !s.decodeUntimed cl)).map execDecodeItemComplete ++ s.allDies.map execEncoderBlockComplete
    ++ cs.map execIoCompletion ++ cs.map execSegmentInsertComplete
    ++ cs.map execReplyWrite
    ++ s.allDies.filterMap (fun g => (s.die g).ring.holdIn.head?.map (fun h => execHoldValueReceive g h.2))
    ++ s.allDies.map execBeatSlotEgress ++ s.allDies.map execHeaderBeatWrite ++ s.allDies.map execPayloadBeatWrite
    ++ s.allDies.map execKeycSyncToken ++ s.allDies.map execVersionToken ++ s.allDies.map execCommitToken
    ++ s.allDies.map execRingSyncToken
    ++ cs.map execMatrixCommandStart ++ cs.map execCopyItemStart ++ cls.map execTrussPhaseStart
    ++ cls.map execDecodeItemStart ++ s.allDies.map execEncoderJobStart ++ cs.map execViaductItemStart
    ++ cs.map execIoRequestSend ++ s.allDies.map execIoResponsePoll
    ++ (s.m.recs.map (·.1)).map execRecordLate ++ (s.m.recs.map (·.1)).map execYieldConditionMet
    ++ cs.map execPreemptLimit ++ s.allDies.map execHoldLimit ++ s.allDies.map execHeartbeatTimeout
    ++ [execCqInterruptTimer, signalDone] ++ s.overdue
    ++ cs.flatMap (fun c => [execExplicitWaitComplete ⟨c, .a⟩, execExplicitWaitComplete ⟨c, .x⟩])

/-- The state after an event, if it may happen. -/
def nextOf (s : State) (e : State → Out) : Option State :=
  match e s with
  | .next t => some t
  | _ => none

/-- The sequencers that may issue in a cycle, by core and A first (R107). -/
def State.issuers (s : State) : List SeqId :=
  (s.liveCores.filter (fun c => (s.core c).running.isSome)).flatMap (fun c => [⟨c, .a⟩, ⟨c, .x⟩])

/-- The state in a phase of its cycle. -/
def State.inPhase (s : State) (p : Phase) : State := { s with m := { s.m with phase := p } }

/-- One of the events whose time is open, or the end of their phase, as a free value says (log 1, log 9). -/
def State.pickOpen (s : State) : State :=
  let l := s.openEvents.filterMap (nextOf s)
  match l with
  | [] => s.inPhase .due
  | _ =>
    match l[s.freeValue.1.toNat % (l.length + 1)]? with
    | none => s.freeValue.2.inPhase .due
    | some t => { t with m := { t.m with free := t.m.free + 1 } }

/-- The word at a sequencer's program counter, or the fault of fetching it (R107, R254). -/
def State.fetch (s : State) (q : SeqId) : Except FaultInfo (BitVec 32) :=
  let k := s.core q.core
  let pc := (k.seq q.side).pc.toNat
  if 0x1FFFFC < pc then .error { code := .addr, va := pc, acc := 5 }
  else
    match k.eccIn q.core false pc (pc + 3) with
    | some e => .error { code := .eccUncorrectable, cause := e, va := pc, acc := 5 }
    | none => .ok (BitVec.ofNat 32 (readNat k.store pc 4))

/-- The state in which a sequencer is the one that issues. -/
def State.withCur (s : State) (q : SeqId) : State := { s with m := { s.m with cur := q } }

/-- A sequencer's turn in a cycle: its word is fetched, decoded and executed, if it may issue (R107, R277). -/
def stepIssue (q : SeqId) (s : State) : Out :=
  if !s.canIssue q then .next s
  else
    match s.fetch q with
    | .error f => .next (s.raisePrecise q 0 f)
    | .ok w =>
      match decode w with
      | some i => exec i s
      | none => execNonInstructionWord w s

/-- The causes of a freeze that a sequencer's turn would begin in its cluster, the others set aside, and the state after it. -/
def State.tryTurn (s : State) (q : SeqId) : List Freeze × State :=
  let cl := clusterOf q.core
  match nextOf (s.withCur q) (stepIssue q) with
  | none => ([], s)
  | some t => ((t.cluster cl).causes, t.onCluster cl (fun c => { c with causes := [] }))

/-- A cluster with its clock, as its cycle would find it (R114). -/
def State.enabled (s : State) (cl : Nat) : State :=
  let s := s.onCluster cl (fun c => { c with causes := [] })
  (List.range 8).foldl (fun s i =>
    let c := cl * 8 + i
    s.onCore c (fun k => k.commitDue (s.ccyc c) (s.keyc c) false)) s

/-- The implicit stalls of a cluster's cycle that arise whether or not its other sequencers have issued: they begin before any of
them does, since no part of a frozen cluster changes state (R113, R114). -/
def State.stalls (s : State) (cl : Nat) : List Freeze :=
  let s := s.enabled cl
  let qs := s.issuers.filter (fun q => clusterOf q.core = cl && !s.isStopped q.core)
  let alone := qs.flatMap (fun q => (s.tryTurn q).1)
  let inTurn := (qs.foldl (fun (a : List Freeze × State) q =>
    let r := a.2.tryTurn q
    (a.1 ++ r.1, r.2)) ([], s)).1
  inTurn.filter alone.contains

/-- Begins the implicit stalls of the cycle in every cluster that has its clock or has lost it in this very cycle (R114). -/
def State.beginStalls (s : State) : State :=
  s.liveClusters.foldl (fun s cl =>
    if s.frozen cl && (decide (0 < (s.cluster cl).frozenFor) || (s.cluster cl).causes.any Freeze.served) then s
    else (s.stalls cl).foldl (fun s f => if (s.cluster cl).causes.contains f then s else s.freeze cl f) s) s

/-- The first event that falls due, or the end of their phase. -/
def State.pickDue (s : State) : State :=
  match s.dueEvents.findSome? (nextOf s) with
  | some t => t
  | none => let s := s.beginStalls; s.inPhase (.issue s.issuers)

/-- The freeze cause of a key of uses: bank, link, Dome port or slice (R114, R115, R137). -/
def useCause (key : Nat) : Nat :=
  if key < 2 ^ 20 then 3 else if key < 2 ^ 21 then 6 else 4

/-- Inserts a use by its place in the order of R115. -/
def insertUse (u : Nat × Use) : List (Nat × Use) → List (Nat × Use)
  | [] => [u]
  | x :: r => if u.2.prio < x.2.prio then u :: x :: r else x :: insertUse u r

/-- The cycles by which the rows of a slice of a die take longest, by cluster: a slice gives 256 bytes a cycle in the order of
R115 (R136, R137). -/
def sliceCycles (l : List (Nat × Use)) : List (Nat × Nat × Nat) :=
  ((l.foldr insertUse []).foldl (fun (a : Nat × List (Nat × Nat × Nat)) u =>
    let n := a.1 + u.2.size
    (n, a.2 ++ [(u.1, u.2.prio % 2 ^ 17, ceilDiv n sliceRate)])) (0, [])).2

/-- The clusters of a die whose rows a slice defers in this cycle, with the core and the cycles they take (R137; log 41). -/
def State.sliceLate (s : State) (g : Nat) : List (Nat × Nat × Nat) :=
  let us := (List.range 8).flatMap (fun i =>
    ((s.usesNow (8 * g + i)).filter (fun u => decide (sliceKey ≤ u.key))).map (fun u => (8 * g + i, u)))
  (((us.map (·.2.key)).eraseDups).flatMap (fun k => sliceCycles (us.filter (fun u => u.2.key = k)))).filter
    (fun e => decide (1 < e.2.2))

/-- The freezes that the uses of a cluster's cycle begin in that cycle, its uses forgotten (R115); slices: what the slices of its
die defer. A soft use, of a row without a contract, begins none (R138, R369). -/
def State.serveLate (s : State) (slices : List (Nat × Nat × Nat)) (cl : Nat) : State :=
  let now := (s.usesNow cl).filter (fun u => decide (u.key < sliceKey) && !u.soft)
  let t := (s.cluster cl).ccyc
  let s := s.onCluster cl (fun c => { c with uses := c.uses.filter (fun u => decide (t < u.at_)) })
  let s := ((now.map (·.key)).eraseDups).foldl (fun s key =>
    let l := now.filter (fun u => u.key = key)
    (((l.map (fun u => (cl, u))).foldr insertUse []).zipIdx.drop 1).foldl (fun s (u : (Nat × Use) × Nat) =>
      s.freeze cl { cause := useCause key, core := u.1.2.prio % 2 ^ 17, side := none, req := none, left := u.2 + 1 }) s) s
  (slices.filter (fun e => e.1 = cl)).foldl (fun s e =>
    s.freeze cl { cause := 4, core := e.2.1, side := none, req := none, left := e.2.2 }) s

/-- A frozen cycle of a cluster: it counts, what is served in frozen cycles is, and the data of a pending head entry come on
(R109, R114, R115, R118). -/
def State.frozenCycle (s : State) (cl : Nat) : State :=
  let s := s.onDie (cl / 8) (·.count (0x0808 + 16 * (cl % 8)) 63 32 1)
  let pend := (s.cluster cl).causes.filter (fun f => f.cause = 8)
  let going := (s.cluster cl).causes.filter (fun f =>
    if f.served then decide (1 < f.left) else !s.causeOver f || s.causeStopped f)
  let s := s.onCluster cl (fun c => { c with
    frozenFor := c.frozenFor + 1
    causes := going.map (fun f => if f.served then { f with left := f.left - 1 } else f) })
  -- a record that is stopped issues no more, though the cycle of its stop is not over (R251, R258)
  let s := (List.range 8).foldl (fun s i =>
    let c := cl * 8 + i
    if !s.isStopped c then s
    else
      s.onCore c (fun k =>
        let halt (q : Seq) : Seq := { q with nextIssue := max q.nextIssue (s.ccyc c + 1) }
        { k with a := halt k.a, x := halt k.x })) s
  pend.foldl (fun s f => s.onCore f.core (fun k =>
    let q := f.req.getD 0
    let l := (tabGet [] q k.queues).zipIdx.map (fun (e : QEntry × Nat) =>
      if e.2 = f.left then
        match e.1.st with
        | .pending d => { e.1 with st := .pending (d - 1) }
        | _ => e.1
      else e.1)
    { k with queues := tabPut q l k.queues })) s

/-- An enabled cycle of a cluster ends (R113). -/
def Cluster.count (c : Cluster) : Cluster := { c with ccyc := c.ccyc + 1 }

/-- The end of a cycle of one cluster. A cycle whose uses are more than it can serve is frozen, and so are those after it up to
the one that serves the last of them (R113, R115). -/
def State.clusterTick (s : State) (slices : List (Nat × Nat × Nat)) (cl : Nat) : State :=
  if s.frozen cl then
    if (s.cluster cl).causes.all (fun f => f.served && decide (f.left ≤ 1)) then
      s.onCluster cl (fun c => { c.count with causes := [], frozenFor := 0 })
    else s.frozenCycle cl
  else
    let s := s.serveLate slices cl
    if s.frozen cl then s.frozenCycle cl else s.onCluster cl Cluster.count

/-- Launches whose translation miss was fatal are torn down (R142). -/
def State.sweep (s : State) : State :=
  let l := s.m.launches.filter (fun e => e.2.active && e.2.tearing == some 0)
  if l.isEmpty then s else (l.foldl (fun s e => s.faultLaunch e.1 0x0D) s).settle

/-- Bytes that the host writes to its own memory (log 6). -/
def State.hostWrite (s : State) (a : Nat) (l : List Byte) : State :=
  { s with m := { s.m with host := writeBytes s.m.host a l } }

/-- The next input comes one cycle nearer (R25). -/
def Mod.approach (m : Mod) : Mod :=
  match m.agenda with
  | (n + 1, i) :: r => { m with agenda := (n, i) :: r }
  | _ => m

/-- The end of a cycle: the Viaduct's hold work, messages that nothing received, KEYC of every die, the clusters' clocks (R18, R42, R113). -/
def State.tick (s : State) : State :=
  let s := { s with m := { s.m.approach with phase := .events } }
  if s.rom.held then s
  else
    let s := s.allDies.foldl (fun s g => s.holdCycle g) s
    let s := (s.liveClusters.filter (fun cl => !s.frozen cl)).foldl (fun s cl => s.discardMessages cl) s
    let slices := s.allDies.flatMap s.sliceLate
    let s := s.allDies.foldl (fun s g => s.onDie g (fun d => { d with keyc := d.keyc + 1, slices := d.nextSlices })) s
    ((List.range (s.rom.variant.ndie * 8)).foldl (fun s cl => s.clusterTick slices cl) s).sweep

/-- The state with a word in the core store of a core. -/
def State.putWord (s : State) (c a n v : Nat) : State := s.onCore c (·.putNat a n v)

/-- The sequencer that a word is placed for: X for X-only majors, else A (R274). -/
def wordSide (w : Nat) : Side := if 0x20 ≤ w / 2 ^ 22 % 64 ∧ w / 2 ^ 22 % 64 ≤ 0x2B then .x else .a

/-- A record running on core 0, for a word placed there: as RECORD_START leaves it for a start record without prologue or
epilogue whose code is at 0. -/
def State.withRunning (s : State) (q : SeqId) : State :=
  let k := s.core q.core
  if k.running.isSome && s.canIssue q then s
  else
    let l : Launch :=
      { queue := 0, cid := 0, order := 0, image := 0, binding := List.range 64, deadline := 0, prio := 0, det := false, arg := 0,
        secure := true, nocq := true, slotVa := [], active := true, tearing := none, freed := [], fault := none, late := false,
        filled := false }
    let r : Rec :=
      { launch := 0, index := 0, raw := BitVec.ofNat 512 (2 ^ 428 + 2 ^ 352 * 2 + 2 ^ 320), core := q.core, state := .running,
        deadline := 2 ^ 64 - 1, batch := none, tag := 0, turn := 0, trip := 2, iters := 0, fresh := true, late := false,
        cond := none, ioDone := 0, cancel := false, faulted := false }
    let now := s.ccyc q.core
    let go (x : Seq) : Seq := { x with wait := none, ended := none, nextIssue := now, slots := 0, target := none }
    let s := { s with m := { s.m with launches := tabPut 0 l s.m.launches, recs := tabPut 0 r s.m.recs } }
    let s := s.onCluster (clusterOf q.core) (fun c => { c with causes := [] })
    s.onCore q.core (fun k => { k with running := some 0, saving := none, stopAt := none, a := go k.a, x := go k.x })

end Sys2Proof.Machine
end

