-- ==== Sys2Proof/Machine/Step.lean ====
section
/-! DEFINITION. One step of the machine, and placing a word where the next step fetches it. -/

namespace Sys2Proof.Machine

/-- The input of the agenda that is due in this part of the cycle, at its end or before it, with the state that no longer holds
it (log 1). -/
def State.inputDue (s : State) (atEnd : Bool) : Option (Input × State) :=
  match s.m.agenda with
  | (0, i) :: r => if i.atEnd = atEnd then some (i, { s with m := { s.m with agenda := r } }) else none
  | _ => none

/-- An input: a row of the table that a unit outside the cores does, or a write of the host to its own memory (log 6). -/
def takeInput (i : Input) (s : State) : Out :=
  match i with
  | .act i => exec i s
  | .hostWrite a l => .next (s.hostWrite a l)

/-- One step (log 1): in the phase of events an input that is due, or an event whose time is open; then what falls due in the
cycle; then each sequencer's word; then an input that comes at the end of the cycle, and its end. -/
def step (s : State) : Host.Outcome State Fault Refusal :=
  match s.m.phase with
  | .events =>
    match s.inputDue false with
    | some x => takeInput x.1 x.2
    | none => .next s.pickOpen
  | .due => .next s.pickDue
  | .issue [] =>
    match s.inputDue true with
    | some x => takeInput x.1 x.2
    | none => .next s.tick
  | .issue (q :: r) => stepIssue q ((s.inPhase (.issue r)).withCur q)

/-- The state with an instruction's word placed where the next step fetches: at the program counter of core 0's sequencer of the
word's stream, whose turn it is, with a record running there (log 30). -/
def State.withFetchWord (s : State) (nbits w : Nat) : State :=
  let q : SeqId := ⟨0, wordSide (w % 2 ^ nbits)⟩
  let s := s.withRunning q
  let s := s.putWord 0 ((s.core 0).seq q.side).pc.toNat 4 (w % 2 ^ nbits)
  { s with m := { s.m with agenda := [], phase := .issue [q] } }

end Sys2Proof.Machine
end

