-- ==== Sys2Proof/Safety.lean ====
section
/-! DEFINITION. What claims speak of: a word that gets to its own effect, what it reads and how its result is put on its way, one
byte of any memory, what stays alone, and invariants. -/

namespace Sys2Proof.Machine

/-- What an instruction word of the current sequencer reads (R269, R270); a word that has waited keeps what it read (R119). -/
def State.reads (s : State) (o : Operands) : Vals :=
  let k := s.core s.m.cur.core
  let sq := k.seq s.m.cur.side
  { s := (sq.captured.map (·.2)).getD (readSrcs sq (k.queue s.m.cur.side.qin) o.srcs), v := readVsrcs k [] o.vsrcs }

/-- The guard of a word of the current sequencer (R264), as it was when the word first came up. -/
def State.guarded (s : State) (i : Instr) : Bool :=
  let sq := s.seq s.m.cur
  (sq.captured.map (·.1)).getD (sq.guardTrue i.guard)

/-- The state in which the word's pops have been made. -/
def State.popped (s : State) (o : Operands) : State :=
  (s.popAll s.m.cur.core (o.popsNow (s.seq s.m.cur) s.m.cur.side)).onSeq s.m.cur Seq.begin

/-- The current sequencer issues the word in this cycle: it may issue, the word passes the checks of its place, and its queue
traffic is not blocked (R107, R121, R250). -/
def State.issues (s : State) (i : Instr) (o : Operands) : Bool :=
  s.canIssue s.m.cur && (s.wordCheck s.m.cur i).isNone
    && (o.block (s.core s.m.cur.core) s.m.cur.side).isNone

/-- The word issues with a true guard: it gets to its own effect. -/
def State.runs (s : State) (i : Instr) (o : Operands) : Bool := s.issues i o && s.guarded i

/-- The word issues with a false guard. -/
def State.skips (s : State) (i : Instr) (o : Operands) : Bool := s.issues i o && !s.guarded i

/-- The state that a word leaves which reads o and writes v to scalar register d after lat cycles. -/
def State.gives (s : State) (o : Operands) (d : BitVec 5) (lat : Nat) (v : Word) : State :=
  ((s.popped o).writeS s.m.cur d lat v).finish s.m.cur .next

/-- The state that a word leaves which reads o and writes v to predicate d in the next cycle. -/
def State.givesP (s : State) (o : Operands) (d : BitVec 3) (v : Bool) : State :=
  ((s.popped o).writeP s.m.cur d 1 v).finish s.m.cur .next

/-- Lane i of a row of lanes of w bits. -/
def laneOf (w i : Nat) (r : Row) : Nat := r.toNat / 2 ^ (w * i) % 2 ^ w

/-- The state in which a vector word that reads o and whose result comes after lat cycles has made its pops and holds its
accumulator rows. -/
def State.rowsHeld (s : State) (o : Operands) (lat : Nat) : State :=
  let c := s.m.cur.core
  let p := s.popped o
  p.onCore c (·.addFps .vector 0 (vRanges (p.core c) o.vsrcs o.vdst) (p.ccyc c) (some (p.ccyc c + lat - 1)))

/-- No other issuer's footprint conflicts with the accumulator rows that a vector word reads and writes, and no word of the core
has an uncorrectable error. -/
def State.rowsFree (s : State) (o : Operands) : Prop :=
  let k := s.core s.m.cur.core
  k.conflicts .vector (vRanges k o.vsrcs o.vdst) (s.ccyc s.m.cur.core) = [] ∧ k.bad = []

/-- The state that a vector word leaves whose result is the row r.1 under the bits r.2.1 with the flags r.2.2. -/
def State.givesV (s : State) (o : Operands) (d : BitVec 5) (lat : Nat) (r : Row × Row × Word) : State :=
  (((s.rowsHeld o lat).writeV s.m.cur.core d lat r.1 r.2.1).raiseFlags s.m.cur.core lat r.2.2).finish s.m.cur .next

/-- The state that a vector word leaves whose result is the scalar r.1 with the flags r.2. -/
def State.givesVS (s : State) (o : Operands) (d : BitVec 5) (lat : Nat) (r : Word × Word) : State :=
  (((s.rowsHeld o lat).writeS s.m.cur d lat r.1).raiseFlags s.m.cur.core lat r.2).finish s.m.cur .next

/-- The state that a vector word leaves whose result is a mask. -/
def State.givesM (s : State) (o : Operands) (d : BitVec 3) (lat : Nat) (m : Mask) : State :=
  ((s.rowsHeld o lat).later s.m.cur.core lat (.lmask d.toNat) (m.setWidth 8192)).finish s.m.cur .next

/-- A result of n lanes of w bits under a mask: lane i holds f i, the bits written are those of lanes with their mask bit set,
and the flags are those of the lanes that take part. -/
def lanesAre (w n : Nat) (m : Mask) (t : Row × Row × Word) (f : Nat → Nat × Word) : Prop :=
  (∀ i < n, laneOf w i t.1 = (f i).1 % 2 ^ w) ∧ (∀ j < 8192, t.2.1.getLsbD j = m.getLsbD (j / w))
    ∧ t.2.2 = (List.range n).foldl (fun a i => if m.getLsbD i then a ||| (f i).2 else a) 0

/-- The memories of the machine: the core store of a core, the Dome and the lantern memory of a die, host memory. -/
inductive Place where
  | store (core : Nat)
  | dome (die : Nat)
  | lantern (die : Nat)
  | host
deriving DecidableEq, Repr

/-- One byte of a memory. -/
def State.byteIn (s : State) (p : Place) (a : Nat) : Byte :=
  match p with
  | .store c => readByte (s.core c).store a
  | .dome g => readByte (s.die g).dome a
  | .lantern g => readByte (s.die g).lantern a
  | .host => readByte s.m.host a

/-- The states differ in one core only, and there not in its stores, descriptors, masks, counters, system registers, engines and
footprints: only in its queues, in results on their way and in the sequencers. -/
def State.onlyIssued (s t : State) (c : Nat) : Prop :=
  t.rom = s.rom ∧ t.m = { s.m with cores := t.m.cores } ∧ (∀ x, x ≠ c → t.core x = s.core x)
    ∧ t.core c = { s.core c with queues := (t.core c).queues, pend := (t.core c).pend, a := (t.core c).a, x := (t.core c).x }

/-- The sequencers agree in every register, in the group and in their place in the record. -/
def Seq.sameRegs (q r : Seq) : Prop :=
  r.regs = q.regs ∧ r.p = q.p ∧ r.bt = q.bt ∧ r.sect = q.sect ∧ r.iter = q.iter ∧ r.ended = q.ended ∧ r.wait = q.wait

/-- Every memory of the machine is in its canonical form. -/
def State.memOk (s : State) : Prop :=
  (∀ c, Memory.wf 0 (s.core c).store = true) ∧ (∀ c, Memory.wf 0 (s.core c).acc = true)
    ∧ (∀ g, Memory.wf 0 (s.die g).dome = true) ∧ (∀ g, Memory.wf 0 (s.die g).lantern = true) ∧ Memory.wf 0 s.m.host = true

end Sys2Proof.Machine

namespace Sys2Proof

/-- The events of boot and reset, which alone touch what straps, fuses and the boot ROMs fix. -/
def Instr.boots : Instr → Bool
  | .powerOn | .moduleReset | .computeDieResetRelease | .sramInitComplete .. | .bootImageRelay .. | .bootImageVerify ..
  | .thermalMeasurement .. => true
  | _ => false

end Sys2Proof
end

