-- ==== Sys2Proof/Certificates/Slice0/Obligations.lean ====
section
/-! DEFINITION. The statements about the model. -/

open Sys2Proof Sys2Proof.Machine

/-- R286: each integer operation of two registers runs to the next word with the value of its table row on its way to sd, after 1 cycle, 3 for the products and 34 for the divisions (R278); division by zero and the overflow of division give values, never a fault. -/
def Obligations.IntegerRegisterResults : Prop :=
  ∀ s : State,
    (∀ (g : BitVec 4) (d a b : BitVec 5),
      let o : Operands := { srcs := [a, b], dst := some d };
      let v := s.reads o;
      s.runs (.add g d a b) o → exec (.add g d a b) s = .next (s.gives o d 1 (v.x 0 + v.x 1)))
    ∧ (∀ (g : BitVec 4) (d a b : BitVec 5),
      let o : Operands := { srcs := [a, b], dst := some d };
      let v := s.reads o;
      s.runs (.sub g d a b) o → exec (.sub g d a b) s = .next (s.gives o d 1 (v.x 0 - v.x 1)))
    ∧ (∀ (g : BitVec 4) (d a b : BitVec 5),
      let o : Operands := { srcs := [a, b], dst := some d };
      let v := s.reads o;
      s.runs (.and g d a b) o → exec (.and g d a b) s = .next (s.gives o d 1 (v.x 0 &&& v.x 1)))
    ∧ (∀ (g : BitVec 4) (d a b : BitVec 5),
      let o : Operands := { srcs := [a, b], dst := some d };
      let v := s.reads o;
      s.runs (.or g d a b) o → exec (.or g d a b) s = .next (s.gives o d 1 (v.x 0 ||| v.x 1)))
    ∧ (∀ (g : BitVec 4) (d a b : BitVec 5),
      let o : Operands := { srcs := [a, b], dst := some d };
      let v := s.reads o;
      s.runs (.xor g d a b) o → exec (.xor g d a b) s = .next (s.gives o d 1 (v.x 0 ^^^ v.x 1)))
    ∧ (∀ (g : BitVec 4) (d a b : BitVec 5),
      let o : Operands := { srcs := [a, b], dst := some d };
      let v := s.reads o;
      s.runs (.andn g d a b) o → exec (.andn g d a b) s = .next (s.gives o d 1 (v.x 0 &&& ~~~v.x 1)))
    ∧ (∀ (g : BitVec 4) (d a b : BitVec 5),
      let o : Operands := { srcs := [a, b], dst := some d };
      let v := s.reads o;
      s.runs (.shl g d a b) o → exec (.shl g d a b) s = .next (s.gives o d 1 (v.x 0 <<< ((v.x 1).toNat % 64))))
    ∧ (∀ (g : BitVec 4) (d a b : BitVec 5),
      let o : Operands := { srcs := [a, b], dst := some d };
      let v := s.reads o;
      s.runs (.shr g d a b) o → exec (.shr g d a b) s = .next (s.gives o d 1 (v.x 0 >>> ((v.x 1).toNat % 64))))
    ∧ (∀ (g : BitVec 4) (d a b : BitVec 5),
      let o : Operands := { srcs := [a, b], dst := some d };
      let v := s.reads o;
      s.runs (.sra g d a b) o → exec (.sra g d a b) s = .next (s.gives o d 1 ((v.x 0).sshiftRight ((v.x 1).toNat % 64))))
    ∧ (∀ (g : BitVec 4) (d a b : BitVec 5),
      let o : Operands := { srcs := [a, b], dst := some d };
      let v := s.reads o;
      s.runs (.rot g d a b) o → exec (.rot g d a b) s = .next (s.gives o d 1 ((v.x 0).rotateRight ((v.x 1).toNat % 64))))
    ∧ (∀ (g : BitVec 4) (d a b : BitVec 5),
      let o : Operands := { srcs := [a, b], dst := some d, lat := 3 };
      let v := s.reads o;
      s.runs (.mul g d a b) o → exec (.mul g d a b) s = .next (s.gives o d 3 (v.x 0 * v.x 1)))
    ∧ (∀ (g : BitVec 4) (d a b : BitVec 5),
      let o : Operands := { srcs := [a, b], dst := some d, lat := 3 };
      let v := s.reads o;
      s.runs (.mulh g d a b) o → exec (.mulh g d a b) s = .next (s.gives o d 3 (BitVec.ofInt 64 ((v.x 0).toInt * (v.x 1).toInt / 2 ^ 64))))
    ∧ (∀ (g : BitVec 4) (d a b : BitVec 5),
      let o : Operands := { srcs := [a, b], dst := some d, lat := 3 };
      let v := s.reads o;
      s.runs (.mulhn g d a b) o → exec (.mulhn g d a b) s = .next (s.gives o d 3 (BitVec.ofNat 64 ((v.x 0).toNat * (v.x 1).toNat / 2 ^ 64))))
    ∧ (∀ (g : BitVec 4) (d a b : BitVec 5),
      let o : Operands := { srcs := [a, b], dst := some d };
      let v := s.reads o;
      s.runs (.min g d a b) o → exec (.min g d a b) s = .next (s.gives o d 1 (if (v.x 0).slt (v.x 1) then v.x 0 else v.x 1)))
    ∧ (∀ (g : BitVec 4) (d a b : BitVec 5),
      let o : Operands := { srcs := [a, b], dst := some d };
      let v := s.reads o;
      s.runs (.max g d a b) o → exec (.max g d a b) s = .next (s.gives o d 1 (if (v.x 1).slt (v.x 0) then v.x 0 else v.x 1)))
    ∧ (∀ (g : BitVec 4) (d a b : BitVec 5),
      let o : Operands := { srcs := [a, b], dst := some d };
      let v := s.reads o;
      s.runs (.minn g d a b) o → exec (.minn g d a b) s = .next (s.gives o d 1 (if (v.x 0).ult (v.x 1) then v.x 0 else v.x 1)))
    ∧ (∀ (g : BitVec 4) (d a b : BitVec 5),
      let o : Operands := { srcs := [a, b], dst := some d };
      let v := s.reads o;
      s.runs (.maxn g d a b) o → exec (.maxn g d a b) s = .next (s.gives o d 1 (if (v.x 1).ult (v.x 0) then v.x 0 else v.x 1)))
    ∧ (∀ (g : BitVec 4) (d a b : BitVec 5),
      let o : Operands := { srcs := [a, b], dst := some d, lat := 34 };
      let v := s.reads o;
      s.runs (.div g d a b) o → exec (.div g d a b) s = .next (s.gives o d 34 (if v.x 1 = 0 then BitVec.allOnes 64 else BitVec.ofInt 64 ((v.x 0).toInt.tdiv (v.x 1).toInt))))
    ∧ (∀ (g : BitVec 4) (d a b : BitVec 5),
      let o : Operands := { srcs := [a, b], dst := some d, lat := 34 };
      let v := s.reads o;
      s.runs (.divn g d a b) o → exec (.divn g d a b) s = .next (s.gives o d 34 (if v.x 1 = 0 then BitVec.allOnes 64 else BitVec.ofNat 64 ((v.x 0).toNat / (v.x 1).toNat))))
    ∧ (∀ (g : BitVec 4) (d a b : BitVec 5),
      let o : Operands := { srcs := [a, b], dst := some d, lat := 34 };
      let v := s.reads o;
      s.runs (.rem g d a b) o → exec (.rem g d a b) s = .next (s.gives o d 34 (if v.x 1 = 0 then v.x 0 else BitVec.ofInt 64 ((v.x 0).toInt.tmod (v.x 1).toInt))))
    ∧ (∀ (g : BitVec 4) (d a b : BitVec 5),
      let o : Operands := { srcs := [a, b], dst := some d, lat := 34 };
      let v := s.reads o;
      s.runs (.remn g d a b) o → exec (.remn g d a b) s = .next (s.gives o d 34 (if v.x 1 = 0 then v.x 0 else BitVec.ofNat 64 ((v.x 0).toNat % (v.x 1).toNat))))
    ∧ (∀ (g : BitVec 4) (d a : BitVec 5),
      let o : Operands := { srcs := [a], dst := some d };
      let v := s.reads o;
      s.runs (.clz g d a) o → exec (.clz g d a) s = .next (s.gives o d 1 (BitVec.ofNat 64 (leadingZeros (v.x 0).toNat 64))))
    ∧ (∀ (g : BitVec 4) (d a : BitVec 5),
      let o : Operands := { srcs := [a], dst := some d };
      let v := s.reads o;
      s.runs (.ctz g d a) o → exec (.ctz g d a) s = .next (s.gives o d 1 (BitVec.ofNat 64 (trailingZeros 64 (v.x 0).toNat))))
    ∧ (∀ (g : BitVec 4) (d a : BitVec 5),
      let o : Operands := { srcs := [a], dst := some d };
      let v := s.reads o;
      s.runs (.popc g d a) o → exec (.popc g d a) s = .next (s.gives o d 1 (BitVec.ofNat 64 (onesCount 64 (v.x 0).toNat))))

/-- R287 to R289: immediates are sign-extended, shifts and extensions take their count from the field (sxt and zxt hold w - 1), ldi and lsi build constants; each lands in sd in the next cycle. -/
def Obligations.ImmediateResults : Prop :=
  ∀ s : State,
    (∀ (g : BitVec 4) (d a : BitVec 5) (i : BitVec 12),
      let o : Operands := { srcs := [a], dst := some d };
      let v := s.reads o;
      s.runs (.addi g d a i) o → exec (.addi g d a i) s = .next (s.gives o d 1 (v.x 0 + i.signExtend 64)))
    ∧ (∀ (g : BitVec 4) (d a : BitVec 5) (i : BitVec 12),
      let o : Operands := { srcs := [a], dst := some d };
      let v := s.reads o;
      s.runs (.andi g d a i) o → exec (.andi g d a i) s = .next (s.gives o d 1 (v.x 0 &&& i.signExtend 64)))
    ∧ (∀ (g : BitVec 4) (d a : BitVec 5) (i : BitVec 12),
      let o : Operands := { srcs := [a], dst := some d };
      let v := s.reads o;
      s.runs (.ori g d a i) o → exec (.ori g d a i) s = .next (s.gives o d 1 (v.x 0 ||| i.signExtend 64)))
    ∧ (∀ (g : BitVec 4) (d a : BitVec 5) (i : BitVec 12),
      let o : Operands := { srcs := [a], dst := some d };
      let v := s.reads o;
      s.runs (.xori g d a i) o → exec (.xori g d a i) s = .next (s.gives o d 1 (v.x 0 ^^^ i.signExtend 64)))
    ∧ (∀ (g : BitVec 4) (d a : BitVec 5) (n : BitVec 6),
      let o : Operands := { srcs := [a], dst := some d };
      let v := s.reads o;
      s.runs (.shli g d a n) o → exec (.shli g d a n) s = .next (s.gives o d 1 (v.x 0 <<< n.toNat)))
    ∧ (∀ (g : BitVec 4) (d a : BitVec 5) (n : BitVec 6),
      let o : Operands := { srcs := [a], dst := some d };
      let v := s.reads o;
      s.runs (.shri g d a n) o → exec (.shri g d a n) s = .next (s.gives o d 1 (v.x 0 >>> n.toNat)))
    ∧ (∀ (g : BitVec 4) (d a : BitVec 5) (n : BitVec 6),
      let o : Operands := { srcs := [a], dst := some d };
      let v := s.reads o;
      s.runs (.srai g d a n) o → exec (.srai g d a n) s = .next (s.gives o d 1 ((v.x 0).sshiftRight n.toNat)))
    ∧ (∀ (g : BitVec 4) (d a : BitVec 5) (n : BitVec 6),
      let o : Operands := { srcs := [a], dst := some d };
      let v := s.reads o;
      s.runs (.roti g d a n) o → exec (.roti g d a n) s = .next (s.gives o d 1 ((v.x 0).rotateRight n.toNat)))
    ∧ (∀ (g : BitVec 4) (d a : BitVec 5) (w : BitVec 6),
      let o : Operands := { srcs := [a], dst := some d };
      let v := s.reads o;
      s.runs (.sxt g d a w) o → exec (.sxt g d a w) s = .next (s.gives o d 1 (BitVec.ofInt 64 (signed (w.toNat + 1) (v.x 0).toNat))))
    ∧ (∀ (g : BitVec 4) (d a : BitVec 5) (w : BitVec 6),
      let o : Operands := { srcs := [a], dst := some d };
      let v := s.reads o;
      s.runs (.zxt g d a w) o → exec (.zxt g d a w) s = .next (s.gives o d 1 (BitVec.ofNat 64 ((v.x 0).toNat % 2 ^ (w.toNat + 1)))))
    ∧ (∀ (g : BitVec 4) (d : BitVec 5) (i : BitVec 17),
      let o : Operands := { dst := some d };
      s.runs (.ldi g d i) o → exec (.ldi g d i) s = .next (s.gives o d 1 (i.signExtend 64)))
    ∧ (∀ (g : BitVec 4) (d : BitVec 5) (i : BitVec 16),
      let o : Operands := { srcs := [d], dst := some d };
      let v := s.reads o;
      s.runs (.lsi g d i) o → exec (.lsi g d i) s = .next (s.gives o d 1 (v.x 0 <<< 16 ||| i.setWidth 64)))

/-- R290 to R292: compares and predicate operations write a predicate for the next cycle; pget packs the predicates with bit 0 reading 1, pput writes p1 to p7; bpush and bpop move a predicate through the branch-outcome queue. -/
def Obligations.PredicateResults : Prop :=
  ∀ s : State,
    let q := s.m.cur
    let c := q.core
    (∀ (g : BitVec 4) (pd : BitVec 3) (a b : BitVec 5) (cc : BitVec 4),
      let o : Operands := { srcs := [a, b] };
      let v := s.reads o;
      s.runs (.cmp g pd a b cc) o → exec (.cmp g pd a b cc) s = .next (s.givesP o pd (condHolds cc (v.x 0) (v.x 1))))
    ∧ (∀ (g : BitVec 4) (pd : BitVec 3) (a : BitVec 5) (cc : BitVec 4) (i : BitVec 10),
      let o : Operands := { srcs := [a] };
      let v := s.reads o;
      s.runs (.cmpi g pd a cc i) o → exec (.cmpi g pd a cc i) s = .next (s.givesP o pd (condHolds cc (v.x 0) (i.signExtend 64))))
    ∧ (∀ (g : BitVec 4) (d a b : BitVec 3),
      let o : Operands := {};
      let p := s.popped o;
      s.runs (.pand g d a b) o → exec (.pand g d a b) s = .next (s.givesP o d (((p.seq q).pred a && (p.seq q).pred b))))
    ∧ (∀ (g : BitVec 4) (d a b : BitVec 3),
      let o : Operands := {};
      let p := s.popped o;
      s.runs (.por g d a b) o → exec (.por g d a b) s = .next (s.givesP o d (((p.seq q).pred a || (p.seq q).pred b))))
    ∧ (∀ (g : BitVec 4) (d a b : BitVec 3),
      let o : Operands := {};
      let p := s.popped o;
      s.runs (.pxor g d a b) o → exec (.pxor g d a b) s = .next (s.givesP o d (((p.seq q).pred a != (p.seq q).pred b))))
    ∧ (∀ (g : BitVec 4) (d a b : BitVec 3),
      let o : Operands := {};
      let p := s.popped o;
      s.runs (.pandn g d a b) o → exec (.pandn g d a b) s = .next (s.givesP o d (((p.seq q).pred a && !(p.seq q).pred b))))
    ∧ (∀ (g : BitVec 4) (d a : BitVec 3),
      let o : Operands := {};
      let p := s.popped o;
      s.runs (.pnot g d a) o → exec (.pnot g d a) s = .next (s.givesP o d (!(p.seq q).pred a)))
    ∧ (∀ (g : BitVec 4) (d a : BitVec 3),
      let o : Operands := {};
      let p := s.popped o;
      s.runs (.pmov g d a) o → exec (.pmov g d a) s = .next (s.givesP o d ((p.seq q).pred a)))
    ∧ (∀ (g : BitVec 4) (d : BitVec 5),
      let o : Operands := { dst := some d };
      let p := s.popped o;
      s.runs (.pget g d) o → exec (.pget g d) s = .next (s.gives o d 1 (((p.seq q).p ||| 1).setWidth 64)))
    ∧ (∀ (g : BitVec 4) (a : BitVec 5),
      let o : Operands := { srcs := [a] };
      let v := s.reads o;
      let p := s.popped o;
      s.runs (.pput g a) o → exec (.pput g a) s = .next ((p.later c 1 (.pred q.side 0xFE) ((v.x 0).setWidth 8192)).finish q .next))
    ∧ (∀ (g : BitVec 4) (a : BitVec 3),
      let o : Operands := { pushes := [q.side.bout] };
      let p := s.popped o;
      s.runs (.bpush g a) o → exec (.bpush g a) s = .next ((p.pushLater c q.side.bout 1 (if (p.seq q).pred a then 1 else 0)).finish q .next))
    ∧ (∀ (g : BitVec 4) (d : BitVec 3),
      let o : Operands := { pops := [q.side.bin] };
      s.runs (.bpop g d) o → exec (.bpop g d) s = .next (s.givesP o d (((s.core c).head q.side.bin).getLsbD 0)))

/-- R293 to R295, R303: branch target registers are written for the next cycle; br and brl, unless they stand in the last three words of an active loop body, go to the target they read after two delay slots, and brl links to PC + 12. -/
def Obligations.BranchResults : Prop :=
  ∀ s : State,
    let q := s.m.cur
    let c := q.core
    (∀ (g : BitVec 4) (t : BitVec 2) (a : BitVec 5),
      let o : Operands := { srcs := [a] };
      let v := s.reads o;
      let p := s.popped o;
      s.runs (.mtbt g t a) o → exec (.mtbt g t a) s = .next (((p.later c 1 (.bt q.side t) (BitVec.ofNat 8192 (bits (v.x 0) 20 2 * 4))).onSeq q (fun sq => { sq with btOld := some (t, sq.btv t) })).finish q .next))
    ∧ (∀ (g : BitVec 4) (d : BitVec 5) (t : BitVec 2),
      let o : Operands := { dst := some d };
      let p := s.popped o;
      s.runs (.mfbt g d t) o → exec (.mfbt g d t) s = .next (s.gives o d 1 (((p.seq q).btv t).setWidth 64)))
    ∧ (∀ (g : BitVec 4) (t : BitVec 2) (i : BitVec 20),
      let o : Operands := {};
      let p := s.popped o;
      s.runs (.pbr g t i) o → exec (.pbr g t i) s = .next (((p.later c 1 (.bt q.side t) (((((p.seq q).pc + i.signExtend 32 * 4).truncate 21 : BitVec 21)).setWidth 8192)).onSeq q (fun sq => { sq with btOld := some (t, sq.btv t) })).finish q .next))
    ∧ (∀ (g : BitVec 4) (t : BitVec 2),
      let o : Operands := {};
      let p := s.popped o;
      s.runs (.br g t) o → (p.seq q).l0.nearEnd (p.seq q).pc = false → (p.seq q).l1.nearEnd (p.seq q).pc = false → exec (.br g t) s = .next (p.finish q (.branch (some ((s.seq q).branchTarget t)))))
    ∧ (∀ (g : BitVec 4) (t : BitVec 2),
      let o : Operands := {};
      let p := s.popped o;
      s.runs (.brl g t) o → (p.seq q).l0.nearEnd (p.seq q).pc = false → (p.seq q).l1.nearEnd (p.seq q).pc = false → exec (.brl g t) s = .next ((p.writeS q 28 1 (((s.seq q).pc + 12).setWidth 64)).finish q (.branch (some ((s.seq q).branchTarget t)))))
    ∧ (∀ (g : BitVec 4),
      let o : Operands := {};
      let p := s.popped o;
      s.runs (.nop g) o → exec (.nop g) s = .next (p.finish q .next))

/-- R296: a loop of count 0 skips its body; any other sets LS, LE and LC of its level, makes it active and goes on into the body; the level may not be active, an active other level must contain the body, and the body must end by 0x1F_FFFC. -/
def Obligations.LoopStarts : Prop :=
  ∀ s : State,
    let q := s.m.cur
    (∀ (g : BitVec 4) (l : BitVec 1) (a : BitVec 5) (n : BitVec 12),
      let o : Operands := { srcs := [a] };
      let v := s.reads o;
      let p := s.popped o;
      let sq := p.seq q;
      let first := sq.pc.toNat + 4;
      let last := sq.pc.toNat + 4 * n.toNat;
      let other := sq.level (l ^^^ 1);
      s.runs (.loop g l a n) o → (sq.level l).active = false → (other.active = true → other.ls.toNat ≤ first ∧ last ≤ other.le.toNat) → last ≤ 0x1FFFFC → v.x 0 = 0 → exec (.loop g l a n) s = .next (p.finish q (.goto (BitVec.ofNat 32 (last + 4)))))
    ∧ (∀ (g : BitVec 4) (l : BitVec 1) (a : BitVec 5) (n : BitVec 12),
      let o : Operands := { srcs := [a] };
      let v := s.reads o;
      let p := s.popped o;
      let sq := p.seq q;
      let first := sq.pc.toNat + 4;
      let last := sq.pc.toNat + 4 * n.toNat;
      let other := sq.level (l ^^^ 1);
      s.runs (.loop g l a n) o → (sq.level l).active = false → (other.active = true → other.ls.toNat ≤ first ∧ last ≤ other.le.toNat) → last ≤ 0x1FFFFC → v.x 0 ≠ 0 → exec (.loop g l a n) s = .next ((p.onSeq q (fun sq => { sq.setLevel l { lc := v.x 0, ls := BitVec.ofNat 21 first, le := BitVec.ofNat 21 last, active := true } with lastLoop := l })).finish q .next))

/-- R85, R300, R301: knext ends the prologue or a kernel iteration, exit ends a sequencer, and the yields end an iteration and name what the record waits for; the sequencer that completes a kernel iteration finds every queue empty (R86). -/
def Obligations.SectionEnds : Prop :=
  ∀ s : State,
    let q := s.m.cur
    let c := q.core
    (∀ (g : BitVec 4) (rn : Nat) (r : Rec),
      let o : Operands := {};
      let p := s.popped o;
      s.runs (.knext g) o → p.runningRec c = some (rn, r) → (p.seq q).looping = false → (p.seq q).sect = .prologue → ¬(((p.core c).seq q.side.other).ended = some .byExit ∧ ((p.core c).seq q.side.other).sectNo = (p.seq q).sectNo) → exec (.knext g) s = .next ((p.onSeq q (fun sq => { sq with sect := .kernel, pc := sectAddr r.raw q.side .kernel })).finish q .stay))
    ∧ (∀ (g : BitVec 4) (rn : Nat) (r : Rec),
      let o : Operands := {};
      let p := s.popped o;
      s.runs (.knext g) o → p.runningRec c = some (rn, r) → (p.seq q).looping = false → (p.seq q).sect = .kernel → ¬(((p.core c).seq q.side.other).ended = some .byExit ∧ ((p.core c).seq q.side.other).sectNo = (p.seq q).sectNo) → ((p.seq q).iter + 1 ≤ ((p.core c).seq q.side.other).iter → (p.core c).queuesEmpty = true) → ∃ t, exec (.knext g) s = .next t ∧ (t.seq q).iter = (s.seq q).iter + 1 ∧ (if (s.seq q).iter + 1 ≠ r.trip then (t.seq q).pc = sectAddr r.raw q.side .kernel ∧ (t.seq q).sect = .kernel else if recEpi r.raw then (t.seq q).pc = sectAddr r.raw q.side .epilogue ∧ (t.seq q).sect = .epilogue else (t.seq q).ended = some .retired))
    ∧ (∀ (g : BitVec 4),
      let o : Operands := {};
      let p := s.popped o;
      s.runs (.exit g) o → (p.seq q).looping = false → ((p.core c).seq q.side.other).sectNo ≤ (p.seq q).sectNo → ¬(((p.core c).seq q.side.other).ended = some .retired ∧ ((p.core c).seq q.side.other).sectNo = (p.seq q).sectNo) → exec (.exit g) s = .next (((p.onSeq q (fun sq => { sq with ended := some .byExit })).retiring c).finish q .stay))
    ∧ (∀ (g : BitVec 4) (sv : BitVec 5) (k : BitVec 4) (rn : Nat) (r : Rec),
      let o : Operands := { srcs := [sv] };
      let v := s.reads o;
      let p := s.popped o;
      s.runs (.yieldK g sv k) o → p.runningRec c = some (rn, r) → (p.seq q).looping = false → (p.seq q).sect = .kernel → recYld r.raw = true → 8 ≤ k.toNat → ¬(((p.core c).seq q.side.other).ended = some .byExit ∧ ((p.core c).seq q.side.other).sectNo = (p.seq q).sectNo) → ((p.seq q).iter + 1 ≤ ((p.core c).seq q.side.other).iter → (p.core c).queuesEmpty = true) → ∃ t r', exec (.yieldK g sv k) s = .next t ∧ (t.seq q).iter = (s.seq q).iter + 1 ∧ (t.seq q).wait = some .boundary ∧ t.runningRec c = some (rn, r') ∧ r'.cond = some (.counter k.toNat (v.x 0)))
    ∧ (∀ (g : BitVec 4) (sv : BitVec 5) (rn : Nat) (r : Rec),
      let o : Operands := { srcs := [sv] };
      let v := s.reads o;
      let p := s.popped o;
      s.runs (.yieldIo g sv) o → p.runningRec c = some (rn, r) → (p.seq q).looping = false → (p.seq q).sect = .kernel → recYld r.raw = true → ¬(((p.core c).seq q.side.other).ended = some .byExit ∧ ((p.core c).seq q.side.other).sectNo = (p.seq q).sectNo) → ((p.seq q).iter + 1 ≤ ((p.core c).seq q.side.other).iter → (p.core c).queuesEmpty = true) → ∃ t r', exec (.yieldIo g sv) s = .next t ∧ (t.seq q).iter = (s.seq q).iter + 1 ∧ (t.seq q).wait = some .boundary ∧ t.runningRec c = some (rn, r') ∧ r'.cond = some (.engineDone 7 (v.x 0)))

/-- R302: rsr reads a system register as of its issue cycle; wsr and xsr write it when the register's own rules accept the value, and otherwise raise the fault the rules name and change nothing; xsr returns the old value. -/
def Obligations.SystemRegisterAccess : Prop :=
  ∀ s : State,
    let q := s.m.cur
    let c := q.core
    (∀ (g : BitVec 4) (sv : BitVec 5) (r : BitVec 12),
      let o : Operands := { dst := some sv };
      let p := s.popped o;
      s.runs (.rsr g sv r) o → exec (.rsr g sv r) s = .next (s.gives o sv 1 (p.sysRead q r)))
    ∧ (∀ (g : BitVec 4) (sv : BitVec 5) (r : BitVec 12),
      let o : Operands := { srcs := [sv] };
      let v := s.reads o;
      let p := s.popped o;
      s.runs (.wsr g sv r) o → sysRefused (p.core c) (p.seq q) r (v.x 0) = none → exec (.wsr g sv r) s = .next ((p.sysWrite q r (v.x 0)).finish q .next))
    ∧ (∀ (g : BitVec 4) (sv : BitVec 5) (r : BitVec 12) (f : FaultCode),
      let o : Operands := { srcs := [sv] };
      let v := s.reads o;
      let p := s.popped o;
      s.runs (.wsr g sv r) o → sysRefused (p.core c) (p.seq q) r (v.x 0) = some f → exec (.wsr g sv r) s = .next (s.raisePrecise q ((encode (.wsr g sv r)).getD 0) { code := f }))
    ∧ (∀ (g : BitVec 4) (sv : BitVec 5) (r : BitVec 12),
      let o : Operands := { srcs := [sv], dst := some sv };
      let v := s.reads o;
      let p := s.popped o;
      s.runs (.xsr g sv r) o → sysRefused (p.core c) (p.seq q) r (v.x 0) = none → exec (.xsr g sv r) s = .next (((p.sysWrite q r (v.x 0)).writeS q sv 1 (p.sysRead q r)).finish q .next))

/-- R303: trap and brk complete, control moving past them, and raise TRAP or BREAK against their record. -/
def Obligations.TrapAndBreak : Prop :=
  ∀ s : State,
    let q := s.m.cur
    (∀ (g : BitVec 4) (n : BitVec 16),
      let o : Operands := {};
      let p := s.popped o;
      s.runs (.trap g n) o → exec (.trap g n) s = .next ((p.raisePrecise q ((encode (.trap g n)).getD 0) { code := .trap }).finish q .next))
    ∧ (∀ (g : BitVec 4) (n : BitVec 16),
      let o : Operands := {};
      let p := s.popped o;
      s.runs (.brk g n) o → exec (.brk g n) s = .next ((p.raisePrecise q ((encode (.brk g n)).getD 0) { code := .brk }).finish q .next))

/-- R304, R305: ld reads 1, 2, 4 or 8 bytes at an aligned address below 2^21 and extends them as its code says, after 4 cycles; st writes them at the end of its issue cycle. The access has no conflicting footprint (R127), st no TWC bank (R133), and its bank use counts in this cycle (R115). -/
def Obligations.CoreStoreAccess : Prop :=
  ∀ s : State,
    let q := s.m.cur
    let c := q.core
    (∀ (g : BitVec 4) (d a : BitVec 5) (z : BitVec 3) (i : BitVec 9),
      let o : Operands := { srcs := [a], dst := some d, lat := 4 };
      let v := s.reads o;
      let p := s.popped o;
      let n := 2 ^ (z.toNat % 4);
      let addr := v.x 0 + i.signExtend 64 * BitVec.ofNat 64 n;
      s.runs (.ld g d a z i) o → storeFault addr n = none → (s.core c).conflicts .seqA [bytesAt addr.toNat n false] (s.ccyc c) = [] → (s.core c).bad = [] → exec (.ld g d a z i) s = .next ((((p.onCore c (·.addFps .seqA 0 [bytesAt addr.toNat n false] (p.ccyc c) (some (p.ccyc c + 3)))).useBanks c (p.ccyc c) 6 [addr.toNat / 2 ^ 17]).writeS q d 4 (if z.toNat < 4 then BitVec.ofInt 64 (signed (8 * n) (readNat (s.core c).store addr.toNat n)) else BitVec.ofNat 64 (readNat (s.core c).store addr.toNat n))).finish q .next))
    ∧ (∀ (g : BitVec 4) (d a : BitVec 5) (z : BitVec 3) (i : BitVec 9),
      let o : Operands := { srcs := [d, a] };
      let v := s.reads o;
      let p := s.popped o;
      let n := 2 ^ (z.toNat % 4);
      let addr := v.x 1 + i.signExtend 64 * BitVec.ofNat 64 n;
      s.runs (.st g d a z i) o → storeFault addr n = none → (s.core c).conflicts .seqA [bytesAt addr.toNat n true] (s.ccyc c) = [] → (s.core c).twcAt addr.toNat = false → exec (.st g d a z i) s = .next ((((p.onCore c (·.addFps .seqA 0 [bytesAt addr.toNat n true] (p.ccyc c) (some (p.ccyc c)))).useBanks c (p.ccyc c) 6 [addr.toNat / 2 ^ 17]).onCore c (·.putNat addr.toNat n (v.x 0).toNat)).finish q .next))

/-- R307 to R309: lqr reads 1,024 bytes at a multiple of 64 within one bank into a load queue after 6 cycles; lqz pushes a zero row after 1; sqw writes the head of a store queue 2 cycles later; lqg gathers and sqs scatters lanes at indexed addresses after 10 and 2 cycles. -/
def Obligations.RowQueueAccess : Prop :=
  ∀ s : State,
    let q := s.m.cur
    let c := q.core
    (∀ (g : BitVec 4) (n : BitVec 2) (a b : BitVec 5) (x : BitVec 1),
      let o : Operands := { srcs := (rowSrcs a b x), pushes := [.lq n], lat := 6 };
      let v := s.reads o;
      let p := s.popped o;
      let ad := if x = 1 then v.x 0 + b.setWidth 64 * 64 else v.x 0 + v.x 1;
      s.runs (.lqr g n a b x) o → rowFault ad = none → (s.core c).conflicts .seqA [bytesAt ad.toNat 1024 false] (s.ccyc c) = [] → (s.core c).bad = [] → exec (.lqr g n a b x) s = .next ((((p.onCore c (·.addFps .seqA 0 [bytesAt ad.toNat 1024 false] (p.ccyc c) (some (p.ccyc c + 6)))).useBanks c (p.ccyc c) 5 [ad.toNat / 2 ^ 17]).pushLater c (.lq n) 6 (readRow (s.core c).store ad.toNat)).finish q .next))
    ∧ (∀ (g : BitVec 4) (n : BitVec 2),
      let o : Operands := { pushes := [.lq n] };
      let p := s.popped o;
      s.runs (.lqz g n) o → exec (.lqz g n) s = .next ((p.pushLater c (.lq n) 1 0).finish q .next))
    ∧ (∀ (g : BitVec 4) (n : BitVec 1) (a b : BitVec 5) (x : BitVec 1),
      let o : Operands := { srcs := (rowSrcs a b x), pops := [.sq n] };
      let v := s.reads o;
      let p := s.popped o;
      let ad := if x = 1 then v.x 0 + b.setWidth 64 * 64 else v.x 0 + v.x 1;
      s.runs (.sqw g n a b x) o → rowFault ad = none → (s.core c).conflicts .seqA [bytesAt ad.toNat 1024 true] (s.ccyc c) = [] → (s.core c).twcAt ad.toNat = false → exec (.sqw g n a b x) s = .next ((((p.onCore c (·.addFps .seqA 0 [bytesAt ad.toNat 1024 true] (p.ccyc c) (some (p.ccyc c + 2)))).useBanks c (p.ccyc c + 2) 5 [ad.toNat / 2 ^ 17]).later c 3 (.bytes ad.toNat 1024) ((s.core c).head (.sq n))).finish q .next))
    ∧ (∀ (g : BitVec 4) (n : BitVec 2) (a b : BitVec 5) (e : BitVec 1) (cc : BitVec 2) (l : List Nat),
      let o : Operands := { srcs := [a, b], pushes := [.lq n], lat := 10 };
      let v := s.reads o;
      let p := s.popped o;
      s.runs (.lqg g n a b e cc) o → laneCheck (p.core c) v e cc 1 = .ok l → (s.core c).conflicts .seqA [bytesAt (v.x 1).toNat 1024 false, laneRange l (laneBytes e) false] (s.ccyc c) = [] → (s.core c).bad = [] → ∃ t, exec (.lqg g n a b e cc) s = .next t ∧ (t.core c).queue (.lq n) = (p.core c).queue (.lq n) ++ [⟨BitVec.ofNat 8192 (joinLanes (laneBytes e) (l.map (fun a => readNat ((p.core c).storeBy (p.ccyc c + 1)) a (laneBytes e)))), .pending (s.ccyc c + 10)⟩])
    ∧ (∀ (g : BitVec 4) (n : BitVec 1) (a b : BitVec 5) (e : BitVec 1) (cc : BitVec 2) (l : List Nat),
      let o : Operands := { srcs := [a, b], pops := [.sq n] };
      let v := s.reads o;
      let p := s.popped o;
      s.runs (.sqs g n a b e cc) o → laneCheck (p.core c) v e cc 2 = .ok l → (s.core c).conflicts .seqA [bytesAt (v.x 1).toNat 1024 false, laneRange l (laneBytes e) true] (s.ccyc c) = [] → (s.core c).bad = [] → l.any (s.core c).twcAt = false → ∃ t, exec (.sqs g n a b e cc) s = .next t ∧ (t.core c).pend = (s.core c).pend ++ [⟨s.ccyc c + 3, .lanes (laneBytes e) l, (s.core c).head (.sq n)⟩])

/-- R329 to R333, R339: lane-wise floating-point operations; lane i of the result is the operation on lane i of the operands (a scalar counts as the same value in every lane) with one rounding in VRM's mode, only lanes whose mask bit is set are written, and only they set flags. -/
def Obligations.VectorFloatResults : Prop :=
  ∀ s : State,
    let q := s.m.cur
    let c := q.core
    (∀ (g : BitVec 4) (d a b : BitVec 5) (m : BitVec 3),
      let o : Operands := { srcs := [], vsrcs := [a, b], vdst := some d, lat := 4 };
      let v := s.reads o;
      let p := s.popped o;
      let x := vctx (p.core c);
      let A := fun i => laneOf x.w i (v.r 0);
      let B := fun i => laneOf x.w i (v.r 1);
      s.runs (.vadd g d a b m) o → s.rowsFree o → ∃ t, exec (.vadd g d a b m) s = .next (s.givesV o d 4 t) ∧ lanesAre x.w x.n (x.k.mask m) t (fun i => withInv (x.f.addR x.mode (A i) (B i))))
    ∧ (∀ (g : BitVec 4) (d a b : BitVec 5) (m : BitVec 3),
      let o : Operands := { srcs := [], vsrcs := [a, b], vdst := some d, lat := 4 };
      let v := s.reads o;
      let p := s.popped o;
      let x := vctx (p.core c);
      let A := fun i => laneOf x.w i (v.r 0);
      let B := fun i => laneOf x.w i (v.r 1);
      s.runs (.vsub g d a b m) o → s.rowsFree o → ∃ t, exec (.vsub g d a b m) s = .next (s.givesV o d 4 t) ∧ lanesAre x.w x.n (x.k.mask m) t (fun i => withInv (x.f.subR x.mode (A i) (B i))))
    ∧ (∀ (g : BitVec 4) (d a b : BitVec 5) (m : BitVec 3),
      let o : Operands := { srcs := [], vsrcs := [a, b], vdst := some d, lat := 4 };
      let v := s.reads o;
      let p := s.popped o;
      let x := vctx (p.core c);
      let A := fun i => laneOf x.w i (v.r 0);
      let B := fun i => laneOf x.w i (v.r 1);
      s.runs (.vmul g d a b m) o → s.rowsFree o → ∃ t, exec (.vmul g d a b m) s = .next (s.givesV o d 4 t) ∧ lanesAre x.w x.n (x.k.mask m) t (fun i => withInv (x.f.mulR x.mode (A i) (B i))))
    ∧ (∀ (g : BitVec 4) (d a b : BitVec 5) (m : BitVec 3),
      let o : Operands := { srcs := [], vsrcs := [a, b], vdst := some d, lat := 4 };
      let v := s.reads o;
      let p := s.popped o;
      let x := vctx (p.core c);
      let A := fun i => laneOf x.w i (v.r 0);
      let B := fun i => laneOf x.w i (v.r 1);
      let D := fun i => laneOf x.w i ((s.core c).row ((s.core c).vrow d));
      s.runs (.vfma g d a b m) o → s.rowsFree o → ∃ t, exec (.vfma g d a b m) s = .next (s.givesV o d 4 t) ∧ lanesAre x.w x.n (x.k.mask m) t (fun i => withInv (x.f.fmaR x.mode false (A i) (B i) (D i))))
    ∧ (∀ (g : BitVec 4) (d a b : BitVec 5) (m : BitVec 3),
      let o : Operands := { srcs := [], vsrcs := [a, b], vdst := some d, lat := 4 };
      let v := s.reads o;
      let p := s.popped o;
      let x := vctx (p.core c);
      let A := fun i => laneOf x.w i (v.r 0);
      let B := fun i => laneOf x.w i (v.r 1);
      let D := fun i => laneOf x.w i ((s.core c).row ((s.core c).vrow d));
      s.runs (.vfms g d a b m) o → s.rowsFree o → ∃ t, exec (.vfms g d a b m) s = .next (s.givesV o d 4 t) ∧ lanesAre x.w x.n (x.k.mask m) t (fun i => withInv (x.f.fmaR x.mode true (A i) (B i) (D i))))
    ∧ (∀ (g : BitVec 4) (d a b : BitVec 5) (m : BitVec 3),
      let o : Operands := { srcs := [], vsrcs := [a, b], vdst := some d, lat := 2 };
      let v := s.reads o;
      let p := s.popped o;
      let x := vctx (p.core c);
      let A := fun i => laneOf x.w i (v.r 0);
      let B := fun i => laneOf x.w i (v.r 1);
      s.runs (.vmin g d a b m) o → s.rowsFree o → ∃ t, exec (.vmin g d a b m) s = .next (s.givesV o d 2 t) ∧ lanesAre x.w x.n (x.k.mask m) t (fun i => (x.f.minmax false (A i) (B i), 0)))
    ∧ (∀ (g : BitVec 4) (d a b : BitVec 5) (m : BitVec 3),
      let o : Operands := { srcs := [], vsrcs := [a, b], vdst := some d, lat := 2 };
      let v := s.reads o;
      let p := s.popped o;
      let x := vctx (p.core c);
      let A := fun i => laneOf x.w i (v.r 0);
      let B := fun i => laneOf x.w i (v.r 1);
      s.runs (.vmax g d a b m) o → s.rowsFree o → ∃ t, exec (.vmax g d a b m) s = .next (s.givesV o d 2 t) ∧ lanesAre x.w x.n (x.k.mask m) t (fun i => (x.f.minmax true (A i) (B i), 0)))
    ∧ (∀ (g : BitVec 4) (d a : BitVec 5) (m : BitVec 3),
      let o : Operands := { srcs := [], vsrcs := [a], vdst := some d, lat := 2 };
      let v := s.reads o;
      let p := s.popped o;
      let x := vctx (p.core c);
      let A := fun i => laneOf x.w i (v.r 0);
      s.runs (.vabs g d a m) o → s.rowsFree o → ∃ t, exec (.vabs g d a m) s = .next (s.givesV o d 2 t) ∧ lanesAre x.w x.n (x.k.mask m) t (fun i => (signOp x.f false (A i), 0)))
    ∧ (∀ (g : BitVec 4) (d a : BitVec 5) (m : BitVec 3),
      let o : Operands := { srcs := [], vsrcs := [a], vdst := some d, lat := 2 };
      let v := s.reads o;
      let p := s.popped o;
      let x := vctx (p.core c);
      let A := fun i => laneOf x.w i (v.r 0);
      s.runs (.vneg g d a m) o → s.rowsFree o → ∃ t, exec (.vneg g d a m) s = .next (s.givesV o d 2 t) ∧ lanesAre x.w x.n (x.k.mask m) t (fun i => (signOp x.f true (A i), 0)))
    ∧ (∀ (g : BitVec 4) (d a : BitVec 5) (m : BitVec 3),
      let o : Operands := { srcs := [], vsrcs := [a], vdst := some d, lat := 2 };
      let v := s.reads o;
      let p := s.popped o;
      let x := vctx (p.core c);
      let A := fun i => laneOf x.w i (v.r 0);
      s.runs (.vmov g d a m) o → s.rowsFree o → ∃ t, exec (.vmov g d a m) s = .next (s.givesV o d 2 t) ∧ lanesAre x.w x.n (x.k.mask m) t (fun i => (A i, 0)))
    ∧ (∀ (g : BitVec 4) (d a sv : BitVec 5) (m : BitVec 3),
      let o : Operands := { srcs := [sv], vsrcs := [a], vdst := some d, lat := 4 };
      let v := s.reads o;
      let p := s.popped o;
      let x := vctx (p.core c);
      let A := fun i => laneOf x.w i (v.r 0);
      let S := (v.x 0).toNat % 2 ^ x.w;
      s.runs (.vadds g d a sv m) o → s.rowsFree o → ∃ t, exec (.vadds g d a sv m) s = .next (s.givesV o d 4 t) ∧ lanesAre x.w x.n (x.k.mask m) t (fun i => withInv (x.f.addR x.mode (A i) S)))
    ∧ (∀ (g : BitVec 4) (d a sv : BitVec 5) (m : BitVec 3),
      let o : Operands := { srcs := [sv], vsrcs := [a], vdst := some d, lat := 4 };
      let v := s.reads o;
      let p := s.popped o;
      let x := vctx (p.core c);
      let A := fun i => laneOf x.w i (v.r 0);
      let S := (v.x 0).toNat % 2 ^ x.w;
      s.runs (.vsubs g d a sv m) o → s.rowsFree o → ∃ t, exec (.vsubs g d a sv m) s = .next (s.givesV o d 4 t) ∧ lanesAre x.w x.n (x.k.mask m) t (fun i => withInv (x.f.subR x.mode (A i) S)))
    ∧ (∀ (g : BitVec 4) (d a sv : BitVec 5) (m : BitVec 3),
      let o : Operands := { srcs := [sv], vsrcs := [a], vdst := some d, lat := 4 };
      let v := s.reads o;
      let p := s.popped o;
      let x := vctx (p.core c);
      let A := fun i => laneOf x.w i (v.r 0);
      let S := (v.x 0).toNat % 2 ^ x.w;
      s.runs (.vmuls g d a sv m) o → s.rowsFree o → ∃ t, exec (.vmuls g d a sv m) s = .next (s.givesV o d 4 t) ∧ lanesAre x.w x.n (x.k.mask m) t (fun i => withInv (x.f.mulR x.mode (A i) S)))
    ∧ (∀ (g : BitVec 4) (d a sv : BitVec 5) (m : BitVec 3),
      let o : Operands := { srcs := [sv], vsrcs := [a], vdst := some d, lat := 4 };
      let v := s.reads o;
      let p := s.popped o;
      let x := vctx (p.core c);
      let A := fun i => laneOf x.w i (v.r 0);
      let D := fun i => laneOf x.w i ((s.core c).row ((s.core c).vrow d));
      let S := (v.x 0).toNat % 2 ^ x.w;
      s.runs (.vfmas g d a sv m) o → s.rowsFree o → ∃ t, exec (.vfmas g d a sv m) s = .next (s.givesV o d 4 t) ∧ lanesAre x.w x.n (x.k.mask m) t (fun i => withInv (x.f.fmaR x.mode false (A i) S (D i))))
    ∧ (∀ (g : BitVec 4) (d a sv : BitVec 5) (m : BitVec 3),
      let o : Operands := { srcs := [sv], vsrcs := [a], vdst := some d, lat := 2 };
      let v := s.reads o;
      let p := s.popped o;
      let x := vctx (p.core c);
      let A := fun i => laneOf x.w i (v.r 0);
      let S := (v.x 0).toNat % 2 ^ x.w;
      s.runs (.vmins g d a sv m) o → s.rowsFree o → ∃ t, exec (.vmins g d a sv m) s = .next (s.givesV o d 2 t) ∧ lanesAre x.w x.n (x.k.mask m) t (fun i => (x.f.minmax false (A i) S, 0)))
    ∧ (∀ (g : BitVec 4) (d a sv : BitVec 5) (m : BitVec 3),
      let o : Operands := { srcs := [sv], vsrcs := [a], vdst := some d, lat := 2 };
      let v := s.reads o;
      let p := s.popped o;
      let x := vctx (p.core c);
      let A := fun i => laneOf x.w i (v.r 0);
      let S := (v.x 0).toNat % 2 ^ x.w;
      s.runs (.vmaxs g d a sv m) o → s.rowsFree o → ∃ t, exec (.vmaxs g d a sv m) s = .next (s.givesV o d 2 t) ∧ lanesAre x.w x.n (x.k.mask m) t (fun i => (x.f.minmax true (A i) S, 0)))

/-- R330, R333, R334, R339, R340, R342: lane-wise integer operations modulo 2^w with shift counts modulo w, vbc, vrot and vperm, which move lanes, and vsel, which writes every lane. -/
def Obligations.VectorIntegerResults : Prop :=
  ∀ s : State,
    let q := s.m.cur
    let c := q.core
    (∀ (g : BitVec 4) (d a b : BitVec 5) (m : BitVec 3),
      let o : Operands := { srcs := [], vsrcs := [a, b], vdst := some d, lat := 2 };
      let v := s.reads o;
      let p := s.popped o;
      let x := vctx (p.core c);
      let A := fun i => laneOf x.w i (v.r 0);
      let B := fun i => laneOf x.w i (v.r 1);
      s.runs (.viadd g d a b m) o → s.rowsFree o → ∃ t, exec (.viadd g d a b m) s = .next (s.givesV o d 2 t) ∧ lanesAre x.w x.n (x.k.mask m) t (fun i => (A i + B i, 0)))
    ∧ (∀ (g : BitVec 4) (d a b : BitVec 5) (m : BitVec 3),
      let o : Operands := { srcs := [], vsrcs := [a, b], vdst := some d, lat := 2 };
      let v := s.reads o;
      let p := s.popped o;
      let x := vctx (p.core c);
      let A := fun i => laneOf x.w i (v.r 0);
      let B := fun i => laneOf x.w i (v.r 1);
      s.runs (.visub g d a b m) o → s.rowsFree o → ∃ t, exec (.visub g d a b m) s = .next (s.givesV o d 2 t) ∧ lanesAre x.w x.n (x.k.mask m) t (fun i => (A i + 2 ^ x.w - B i, 0)))
    ∧ (∀ (g : BitVec 4) (d a b : BitVec 5) (m : BitVec 3),
      let o : Operands := { srcs := [], vsrcs := [a, b], vdst := some d, lat := 2 };
      let v := s.reads o;
      let p := s.popped o;
      let x := vctx (p.core c);
      let A := fun i => laneOf x.w i (v.r 0);
      let B := fun i => laneOf x.w i (v.r 1);
      s.runs (.vimul g d a b m) o → s.rowsFree o → ∃ t, exec (.vimul g d a b m) s = .next (s.givesV o d 2 t) ∧ lanesAre x.w x.n (x.k.mask m) t (fun i => (A i * B i, 0)))
    ∧ (∀ (g : BitVec 4) (d a b : BitVec 5) (m : BitVec 3),
      let o : Operands := { srcs := [], vsrcs := [a, b], vdst := some d, lat := 2 };
      let v := s.reads o;
      let p := s.popped o;
      let x := vctx (p.core c);
      let A := fun i => laneOf x.w i (v.r 0);
      let B := fun i => laneOf x.w i (v.r 1);
      s.runs (.vimin g d a b m) o → s.rowsFree o → ∃ t, exec (.vimin g d a b m) s = .next (s.givesV o d 2 t) ∧ lanesAre x.w x.n (x.k.mask m) t (fun i => (if signed x.w (A i) < signed x.w (B i) then A i else B i, 0)))
    ∧ (∀ (g : BitVec 4) (d a b : BitVec 5) (m : BitVec 3),
      let o : Operands := { srcs := [], vsrcs := [a, b], vdst := some d, lat := 2 };
      let v := s.reads o;
      let p := s.popped o;
      let x := vctx (p.core c);
      let A := fun i => laneOf x.w i (v.r 0);
      let B := fun i => laneOf x.w i (v.r 1);
      s.runs (.vimax g d a b m) o → s.rowsFree o → ∃ t, exec (.vimax g d a b m) s = .next (s.givesV o d 2 t) ∧ lanesAre x.w x.n (x.k.mask m) t (fun i => (if signed x.w (B i) < signed x.w (A i) then A i else B i, 0)))
    ∧ (∀ (g : BitVec 4) (d a b : BitVec 5) (m : BitVec 3),
      let o : Operands := { srcs := [], vsrcs := [a, b], vdst := some d, lat := 2 };
      let v := s.reads o;
      let p := s.popped o;
      let x := vctx (p.core c);
      let A := fun i => laneOf x.w i (v.r 0);
      let B := fun i => laneOf x.w i (v.r 1);
      s.runs (.vand g d a b m) o → s.rowsFree o → ∃ t, exec (.vand g d a b m) s = .next (s.givesV o d 2 t) ∧ lanesAre x.w x.n (x.k.mask m) t (fun i => (A i &&& B i, 0)))
    ∧ (∀ (g : BitVec 4) (d a b : BitVec 5) (m : BitVec 3),
      let o : Operands := { srcs := [], vsrcs := [a, b], vdst := some d, lat := 2 };
      let v := s.reads o;
      let p := s.popped o;
      let x := vctx (p.core c);
      let A := fun i => laneOf x.w i (v.r 0);
      let B := fun i => laneOf x.w i (v.r 1);
      s.runs (.vor g d a b m) o → s.rowsFree o → ∃ t, exec (.vor g d a b m) s = .next (s.givesV o d 2 t) ∧ lanesAre x.w x.n (x.k.mask m) t (fun i => (A i ||| B i, 0)))
    ∧ (∀ (g : BitVec 4) (d a b : BitVec 5) (m : BitVec 3),
      let o : Operands := { srcs := [], vsrcs := [a, b], vdst := some d, lat := 2 };
      let v := s.reads o;
      let p := s.popped o;
      let x := vctx (p.core c);
      let A := fun i => laneOf x.w i (v.r 0);
      let B := fun i => laneOf x.w i (v.r 1);
      s.runs (.vxor g d a b m) o → s.rowsFree o → ∃ t, exec (.vxor g d a b m) s = .next (s.givesV o d 2 t) ∧ lanesAre x.w x.n (x.k.mask m) t (fun i => (A i ^^^ B i, 0)))
    ∧ (∀ (g : BitVec 4) (d a b : BitVec 5) (m : BitVec 3),
      let o : Operands := { srcs := [], vsrcs := [a, b], vdst := some d, lat := 2 };
      let v := s.reads o;
      let p := s.popped o;
      let x := vctx (p.core c);
      let A := fun i => laneOf x.w i (v.r 0);
      let B := fun i => laneOf x.w i (v.r 1);
      s.runs (.vshl g d a b m) o → s.rowsFree o → ∃ t, exec (.vshl g d a b m) s = .next (s.givesV o d 2 t) ∧ lanesAre x.w x.n (x.k.mask m) t (fun i => (A i * 2 ^ (B i % x.w), 0)))
    ∧ (∀ (g : BitVec 4) (d a b : BitVec 5) (m : BitVec 3),
      let o : Operands := { srcs := [], vsrcs := [a, b], vdst := some d, lat := 2 };
      let v := s.reads o;
      let p := s.popped o;
      let x := vctx (p.core c);
      let A := fun i => laneOf x.w i (v.r 0);
      let B := fun i => laneOf x.w i (v.r 1);
      s.runs (.vshr g d a b m) o → s.rowsFree o → ∃ t, exec (.vshr g d a b m) s = .next (s.givesV o d 2 t) ∧ lanesAre x.w x.n (x.k.mask m) t (fun i => (A i / 2 ^ (B i % x.w), 0)))
    ∧ (∀ (g : BitVec 4) (d a b : BitVec 5) (m : BitVec 3),
      let o : Operands := { srcs := [], vsrcs := [a, b], vdst := some d, lat := 2 };
      let v := s.reads o;
      let p := s.popped o;
      let x := vctx (p.core c);
      let A := fun i => laneOf x.w i (v.r 0);
      let B := fun i => laneOf x.w i (v.r 1);
      s.runs (.vsra g d a b m) o → s.rowsFree o → ∃ t, exec (.vsra g d a b m) s = .next (s.givesV o d 2 t) ∧ lanesAre x.w x.n (x.k.mask m) t (fun i => (codeOf x.w (signed x.w (A i) / 2 ^ (B i % x.w)), 0)))
    ∧ (∀ (g : BitVec 4) (d sv : BitVec 5) (m : BitVec 3),
      let o : Operands := { srcs := [sv], vsrcs := [], vdst := some d, lat := 2 };
      let v := s.reads o;
      let p := s.popped o;
      let x := vctx (p.core c);
      let S := (v.x 0).toNat % 2 ^ x.w;
      s.runs (.vbc g d sv m) o → s.rowsFree o → ∃ t, exec (.vbc g d sv m) s = .next (s.givesV o d 2 t) ∧ lanesAre x.w x.n (x.k.mask m) t (fun _ => (S, 0)))
    ∧ (∀ (g : BitVec 4) (d a sv : BitVec 5) (m : BitVec 3),
      let o : Operands := { srcs := [sv], vsrcs := [a], vdst := some d, lat := 2 };
      let v := s.reads o;
      let p := s.popped o;
      let x := vctx (p.core c);
      let A := fun i => laneOf x.w i (v.r 0);
      s.runs (.vrot g d a sv m) o → s.rowsFree o → ∃ t, exec (.vrot g d a sv m) s = .next (s.givesV o d 2 t) ∧ lanesAre x.w x.n (x.k.mask m) t (fun i => (A ((i + (v.x 0).toNat) % x.n), 0)))
    ∧ (∀ (g : BitVec 4) (d a b : BitVec 5) (m : BitVec 3),
      let o : Operands := { srcs := [], vsrcs := [a, b], vdst := some d, lat := 4 };
      let v := s.reads o;
      let p := s.popped o;
      let x := vctx (p.core c);
      let A := fun i => laneOf x.w i (v.r 0);
      let B := fun i => laneOf x.w i (v.r 1);
      s.runs (.vperm g d a b m) o → s.rowsFree o → ∃ t, exec (.vperm g d a b m) s = .next (s.givesV o d 4 t) ∧ lanesAre x.w x.n (x.k.mask m) t (fun i => (if B i < x.n then A (B i) else 0, 0)))
    ∧ (∀ (g : BitVec 4) (d a b : BitVec 5) (m : BitVec 3),
      let o : Operands := { vsrcs := [a, b], vdst := some d, lat := 2 };
      let v := s.reads o;
      let p := s.popped o;
      let x := vctx (p.core c);
      s.runs (.vsel g d a b m) o → s.rowsFree o → ∃ r, exec (.vsel g d a b m) s = .next (s.givesV o d 2 (r, BitVec.allOnes 8192, 0)) ∧ ∀ j < 8192, r.getLsbD j = if (x.k.mask m).getLsbD (j / x.w) then (v.r 0).getLsbD j else (v.r 1).getLsbD j)

/-- R201, R335, R343 to R346: the special functions take 12 cycles; vpk converts 256 lanes of each source row into consecutive elements of the narrow format, vupk widens 256 elements, vcvi and vcvf convert between FP32 and INT32, vclp clamps. -/
def Obligations.VectorConversions : Prop :=
  ∀ s : State,
    let q := s.m.cur
    let c := q.core
    (∀ (g : BitVec 4) (d a : BitVec 5) (m : BitVec 3),
      let o : Operands := { srcs := [], vsrcs := [a], vdst := some d, lat := 12 };
      let v := s.reads o;
      let p := s.popped o;
      let x := vctx (p.core c);
      let A := fun i => laneOf x.w i (v.r 0);
      s.runs (.vexp2 g d a m) o → s.rowsFree o → ∃ t, exec (.vexp2 g d a m) s = .next (s.givesV o d 12 t) ∧ lanesAre x.w x.n (x.k.mask m) t (fun i => withInv (special x.f .exp2 (A i))))
    ∧ (∀ (g : BitVec 4) (d a : BitVec 5) (m : BitVec 3),
      let o : Operands := { srcs := [], vsrcs := [a], vdst := some d, lat := 12 };
      let v := s.reads o;
      let p := s.popped o;
      let x := vctx (p.core c);
      let A := fun i => laneOf x.w i (v.r 0);
      s.runs (.vlog2 g d a m) o → s.rowsFree o → ∃ t, exec (.vlog2 g d a m) s = .next (s.givesV o d 12 t) ∧ lanesAre x.w x.n (x.k.mask m) t (fun i => withInv (special x.f .log2 (A i))))
    ∧ (∀ (g : BitVec 4) (d a : BitVec 5) (m : BitVec 3),
      let o : Operands := { srcs := [], vsrcs := [a], vdst := some d, lat := 12 };
      let v := s.reads o;
      let p := s.popped o;
      let x := vctx (p.core c);
      let A := fun i => laneOf x.w i (v.r 0);
      s.runs (.vrcp g d a m) o → s.rowsFree o → ∃ t, exec (.vrcp g d a m) s = .next (s.givesV o d 12 t) ∧ lanesAre x.w x.n (x.k.mask m) t (fun i => withInv (special x.f .rcp (A i))))
    ∧ (∀ (g : BitVec 4) (d a : BitVec 5) (m : BitVec 3),
      let o : Operands := { srcs := [], vsrcs := [a], vdst := some d, lat := 12 };
      let v := s.reads o;
      let p := s.popped o;
      let x := vctx (p.core c);
      let A := fun i => laneOf x.w i (v.r 0);
      s.runs (.vrsqrt g d a m) o → s.rowsFree o → ∃ t, exec (.vrsqrt g d a m) s = .next (s.givesV o d 12 t) ∧ lanesAre x.w x.n (x.k.mask m) t (fun i => withInv (special x.f .rsqrt (A i))))
    ∧ (∀ (g : BitVec 4) (d a : BitVec 5) (m : BitVec 3),
      let o : Operands := { srcs := [], vsrcs := [a], vdst := some d, lat := 12 };
      let v := s.reads o;
      let p := s.popped o;
      let x := vctx (p.core c);
      let A := fun i => laneOf x.w i (v.r 0);
      s.runs (.vsqrt g d a m) o → s.rowsFree o → ∃ t, exec (.vsqrt g d a m) s = .next (s.givesV o d 12 t) ∧ lanesAre x.w x.n (x.k.mask m) t (fun i => withInv (special x.f .sqrt (A i))))
    ∧ (∀ (g : BitVec 4) (d a : BitVec 5) (m : BitVec 3),
      let o : Operands := { srcs := [], vsrcs := [a], vdst := some d, lat := 12 };
      let v := s.reads o;
      let p := s.popped o;
      let x := vctx (p.core c);
      let A := fun i => laneOf x.w i (v.r 0);
      s.runs (.vtanh g d a m) o → s.rowsFree o → ∃ t, exec (.vtanh g d a m) s = .next (s.givesV o d 12 t) ∧ lanesAre x.w x.n (x.k.mask m) t (fun i => withInv (special x.f .tanh (A i))))
    ∧ (∀ (g : BitVec 4) (d a : BitVec 5) (m : BitVec 3),
      let o : Operands := { srcs := [], vsrcs := [a], vdst := some d, lat := 12 };
      let v := s.reads o;
      let p := s.popped o;
      let x := vctx (p.core c);
      let A := fun i => laneOf x.w i (v.r 0);
      s.runs (.vsigm g d a m) o → s.rowsFree o → ∃ t, exec (.vsigm g d a m) s = .next (s.givesV o d 12 t) ∧ lanesAre x.w x.n (x.k.mask m) t (fun i => withInv (special x.f .sigm (A i))))
    ∧ (∀ (g : BitVec 4) (d a : BitVec 5) (m : BitVec 3),
      let o : Operands := { srcs := [], vsrcs := [a], vdst := some d, lat := 2 };
      let v := s.reads o;
      let p := s.popped o;
      let x := vctx (p.core c);
      let A := fun i => laneOf x.w i (v.r 0);
      s.runs (.vclp g d a m) o → s.rowsFree o → ∃ t, exec (.vclp g d a m) s = .next (s.givesV o d 2 t) ∧ lanesAre x.w x.n (x.k.mask m) t (fun i => clampLane x (A i)))
    ∧ (∀ (g : BitVec 4) (d a : BitVec 5) (f : BitVec 4) (pt : BitVec 2) (m : BitVec 3),
      let o : Operands := { srcs := [], vsrcs := [a], vdst := some d, lat := 4 };
      let v := s.reads o;
      let p := s.popped o;
      let x := vctx (p.core c);
      let w := (packFmt f.toNat).width;
      let base := (if f = 8 then 1024 else 0) + 256 * pt.toNat;
      s.runs (.vupk g d a f pt m) o → s.rowsFree o → ∃ t, exec (.vupk g d a f pt m) s = .next (s.givesV o d 4 t) ∧ lanesAre (32) (256) (x.k.mask m) t (fun i => (unpackElem f.toNat (laneOf w (base + i) (v.r 0)), 0)))
    ∧ (∀ (g : BitVec 4) (d a : BitVec 5) (r : BitVec 2) (m : BitVec 3),
      let o : Operands := { srcs := [], vsrcs := [a], vdst := some d, lat := 4 };
      let v := s.reads o;
      let p := s.popped o;
      let x := vctx (p.core c);
      s.runs (.vcvi g d a r m) o → s.rowsFree o → ∃ t, exec (.vcvi g d a r m) s = .next (s.givesV o d 4 t) ∧ lanesAre (32) (256) (x.k.mask m) t (fun i => (let y := convert .i32 (rmMode x r.toNat (x.ditherRow a) i) x.k.vclb.toNat (fp32.decode (laneOf 32 i (v.r 0))); (y.1, convFlags y))))
    ∧ (∀ (g : BitVec 4) (d a : BitVec 5) (r : BitVec 2) (m : BitVec 3),
      let o : Operands := { srcs := [], vsrcs := [a], vdst := some d, lat := 4 };
      let v := s.reads o;
      let p := s.popped o;
      let x := vctx (p.core c);
      s.runs (.vcvf g d a r m) o → s.rowsFree o → ∃ t, exec (.vcvf g d a r m) s = .next (s.givesV o d 4 t) ∧ lanesAre (32) (256) (x.k.mask m) t (fun i => (toFp32 (rmMode x r.toNat (x.ditherRow a) i) (EFmt.value .i32 (laneOf 32 i (v.r 0))), 0)))
    ∧ (∀ (g : BitVec 4) (d a : BitVec 5) (f : BitVec 4) (r : BitVec 2) (m : BitVec 3),
      let o : Operands := { vsrcs := packSrcs a (packRows f), vdst := some d, lat := 4 };
      let v := s.reads o;
      let p := s.popped o;
      let x := vctx (p.core c);
      let w := (packFmt f.toNat).width;
      let base := if f = 8 then 1024 else 0;
      let y := fun e => convert (packFmt f.toNat) (rmMode x r.toNat (x.ditherRow (if a.toNat < 28 then a + BitVec.ofNat 5 (e / 256) else a)) (e % 256)) x.k.vclb.toNat (if x.isInt then EFmt.value .i32 (laneOf 32 (e % 256) (v.r (e / 256))) else fp32.decode (laneOf 32 (e % 256) (v.r (e / 256))));
      s.runs (.vpk g d a f r m) o → s.rowsFree o → ∃ t, exec (.vpk g d a f r m) s = .next (s.givesV o d 4 t) ∧ (∀ e < 256 * packRows f, laneOf w (base + e) t.1 = (y e).1 % 2 ^ w) ∧ (∀ j < 8192, t.2.1.getLsbD j = (decide (base ≤ j / w ∧ j / w < base + 256 * packRows f) && (x.k.mask m).getLsbD ((j / w - base) % 256))))

/-- R336, R337, R341: compares and vtopk give a mask whose bits are 0 for lanes that do not take part; the mask operations work on all 512 bits, mfirst, vany, vall and mcnt on the lanes below n that their mask selects. -/
def Obligations.MaskResults : Prop :=
  ∀ s : State,
    let q := s.m.cur
    let c := q.core
    (∀ (g : BitVec 4) (d : BitVec 3) (a b : BitVec 5) (m cc : BitVec 3),
      let o : Operands := { srcs := [], vsrcs := [a, b] };
      let v := s.reads o;
      let p := s.popped o;
      let x := vctx (p.core c);
      let A := fun i => laneOf x.w i (v.r 0);
      let B := fun i => laneOf x.w i (v.r 1);
      s.runs (.vcmp g d a b m cc) o → s.rowsFree o → ∃ M : Mask, exec (.vcmp g d a b m cc) s = .next (s.givesM o d 2 M) ∧ ∀ i < 512, M.getLsbD i = (decide (i < x.n) && (x.k.mask m).getLsbD i && fpTest x.f cc.toNat (A i) (B i)))
    ∧ (∀ (g : BitVec 4) (d : BitVec 3) (a b : BitVec 5) (m cc : BitVec 3),
      let o : Operands := { srcs := [], vsrcs := [a, b] };
      let v := s.reads o;
      let p := s.popped o;
      let x := vctx (p.core c);
      let A := fun i => laneOf x.w i (v.r 0);
      let B := fun i => laneOf x.w i (v.r 1);
      s.runs (.vicmp g d a b m cc) o → s.rowsFree o → ∃ M : Mask, exec (.vicmp g d a b m cc) s = .next (s.givesM o d 2 M) ∧ ∀ i < 512, M.getLsbD i = (decide (i < x.n) && (x.k.mask m).getLsbD i && intTest x.w cc.toNat (A i) (B i)))
    ∧ (∀ (g : BitVec 4) (d : BitVec 3) (a sv : BitVec 5) (m : BitVec 3),
      let o : Operands := { srcs := [sv], vsrcs := [a] };
      let v := s.reads o;
      let p := s.popped o;
      let x := vctx (p.core c);
      let A := fun i => laneOf x.w i (v.r 0);
      let key := fun i => laneKey x.f x.isInt x.w (A i);
      s.runs (.vtopk g d a sv m) o → s.rowsFree o → ∃ M : Mask, exec (.vtopk g d a sv m) s = .next (s.givesM o d 24 M) ∧ ∀ i < 512, M.getLsbD i = (decide (i < x.n) && (x.k.mask m).getLsbD i && decide (((List.range x.n).filter (fun j => (x.k.mask m).getLsbD j && (decide (key i < key j) || (key j == key i && decide (j < i))))).length < (v.x 0).toNat)))
    ∧ (∀ (g : BitVec 4) (d a b : BitVec 3),
      let o : Operands := {};
      let p := s.popped o;
      s.runs (.mand g d a b) o → exec (.mand g d a b) s = .next ((p.later c 1 (.lmask d.toNat) (BitVec.setWidth 8192 ((p.core c).mask a &&& (p.core c).mask b : Mask))).finish q .next))
    ∧ (∀ (g : BitVec 4) (d a b : BitVec 3),
      let o : Operands := {};
      let p := s.popped o;
      s.runs (.mor g d a b) o → exec (.mor g d a b) s = .next ((p.later c 1 (.lmask d.toNat) (BitVec.setWidth 8192 ((p.core c).mask a ||| (p.core c).mask b : Mask))).finish q .next))
    ∧ (∀ (g : BitVec 4) (d a b : BitVec 3),
      let o : Operands := {};
      let p := s.popped o;
      s.runs (.mxor g d a b) o → exec (.mxor g d a b) s = .next ((p.later c 1 (.lmask d.toNat) (BitVec.setWidth 8192 ((p.core c).mask a ^^^ (p.core c).mask b : Mask))).finish q .next))
    ∧ (∀ (g : BitVec 4) (d a : BitVec 3),
      let o : Operands := {};
      let p := s.popped o;
      s.runs (.mnot g d a) o → exec (.mnot g d a) s = .next ((p.later c 1 (.lmask d.toNat) (BitVec.setWidth 8192 (~~~(p.core c).mask a : Mask))).finish q .next))
    ∧ (∀ (g : BitVec 4) (d : BitVec 3),
      let o : Operands := {};
      let p := s.popped o;
      s.runs (.mset g d) o → exec (.mset g d) s = .next ((p.later c 1 (.lmask d.toNat) (BitVec.setWidth 8192 (BitVec.allOnes 512 : Mask))).finish q .next))
    ∧ (∀ (g : BitVec 4) (d : BitVec 3),
      let o : Operands := {};
      let p := s.popped o;
      s.runs (.mclr g d) o → exec (.mclr g d) s = .next ((p.later c 1 (.lmask d.toNat) (BitVec.setWidth 8192 (0 : Mask))).finish q .next))
    ∧ (∀ (g : BitVec 4) (d a m : BitVec 3),
      let o : Operands := {};
      let p := s.popped o;
      let x := vctx (p.core c);
      let sel := fun i => decide (i < x.n) && (x.k.mask m).getLsbD i && (x.k.mask a).getLsbD i;
      s.runs (.mfirst g d a m) o → ∃ M : Mask, exec (.mfirst g d a m) s = .next ((p.later c 1 (.lmask d.toNat) (M.setWidth 8192)).finish q .next) ∧ ∀ i < 512, M.getLsbD i = (sel i && (List.range i).all (fun j => !sel j)))
    ∧ (∀ (g : BitVec 4) (pd a m : BitVec 3),
      let o : Operands := {};
      let p := s.popped o;
      let x := vctx (p.core c);
      let sel := fun i => decide (i < x.n) && (x.k.mask m).getLsbD i && (x.k.mask a).getLsbD i;
      s.runs (.vany g pd a m) o → exec (.vany g pd a m) s = .next (s.givesP o pd ((List.range x.n).any sel)))
    ∧ (∀ (g : BitVec 4) (pd a m : BitVec 3),
      let o : Operands := {};
      let p := s.popped o;
      let x := vctx (p.core c);
      s.runs (.vall g pd a m) o → exec (.vall g pd a m) s = .next (s.givesP o pd ((List.range x.n).all (fun i => !(x.k.mask m).getLsbD i || (x.k.mask a).getLsbD i))))
    ∧ (∀ (g : BitVec 4) (sv : BitVec 5) (a m : BitVec 3),
      let o : Operands := { dst := some sv };
      let p := s.popped o;
      let x := vctx (p.core c);
      let sel := fun i => decide (i < x.n) && (x.k.mask m).getLsbD i && (x.k.mask a).getLsbD i;
      s.runs (.mcnt g sv a m) o → exec (.mcnt g sv a m) s = .next (s.gives o sv 1 (BitVec.ofNat 64 ((List.range x.n).filter sel).length)))

/-- R204, R332, R338, R340: reductions of a row take 10 cycles and give a scalar, integer vsum the exact sum of the lanes that take part, vargmax value and lane of the greatest, the lower lane on a tie; vext takes one lane; vwset and vwin move the window base. -/
def Obligations.VectorReductions : Prop :=
  ∀ s : State,
    let q := s.m.cur
    let c := q.core
    (∀ (g : BitVec 4) (a sv : BitVec 5) (m : BitVec 3),
      let o : Operands := { srcs := [], vsrcs := [a], dst := some sv, lat := 10 };
      let v := s.reads o;
      let p := s.popped o;
      let x := vctx (p.core c);
      s.runs (.vsum g a sv m) o → s.rowsFree o → exec (.vsum g a sv m) s = .next (s.givesVS o sv 10 (sumRow x (x.k.mask m) (v.r 0))))
    ∧ (∀ (g : BitVec 4) (a sv : BitVec 5) (m : BitVec 3),
      let o : Operands := { srcs := [], vsrcs := [a], dst := some sv, lat := 10 };
      let v := s.reads o;
      let p := s.popped o;
      let x := vctx (p.core c);
      let part := fun i => (x.k.mask m).getLsbD i;
      s.runs (.vsum g a sv m) o → s.rowsFree o → x.isInt = true → exec (.vsum g a sv m) s = .next (s.givesVS o sv 10 (BitVec.ofInt 64 ((List.range x.n).foldl (fun y i => if part i then y + signed 32 (laneOf 32 i (v.r 0)) else y) 0), 0)))
    ∧ (∀ (g : BitVec 4) (a sv : BitVec 5) (m : BitVec 3),
      let o : Operands := { srcs := [], vsrcs := [a], dst := some sv, lat := 10 };
      let v := s.reads o;
      let p := s.popped o;
      let x := vctx (p.core c);
      s.runs (.vrmax g a sv m) o → s.rowsFree o → exec (.vrmax g a sv m) s = .next (s.givesVS o sv 10 (extremeRow x true (x.k.mask m) (v.r 0))))
    ∧ (∀ (g : BitVec 4) (a sv : BitVec 5) (m : BitVec 3),
      let o : Operands := { srcs := [], vsrcs := [a], dst := some sv, lat := 10 };
      let v := s.reads o;
      let p := s.popped o;
      let x := vctx (p.core c);
      s.runs (.vrmin g a sv m) o → s.rowsFree o → exec (.vrmin g a sv m) s = .next (s.givesVS o sv 10 (extremeRow x false (x.k.mask m) (v.r 0))))
    ∧ (∀ (g : BitVec 4) (a sv : BitVec 5) (m : BitVec 3),
      let o : Operands := { srcs := [], vsrcs := [a], dst := some sv, lat := 10 };
      let v := s.reads o;
      let p := s.popped o;
      let x := vctx (p.core c);
      let part := fun i => decide (i < x.n) && (x.k.mask m).getLsbD i;
      let A := fun i => laneOf x.w i (v.r 0);
      let key := fun i => laneKey x.f x.isInt x.w (A i);
      s.runs (.vargmax g a sv m) o → s.rowsFree o → ∃ r, exec (.vargmax g a sv m) s = .next (s.givesVS o sv 10 (r, 0)) ∧ ((∀ i, part i = false) → r = if x.isInt then 0x80000000FFFFFFFF else 0xFF800000FFFFFFFF) ∧ (∀ i, part i = true → (∀ j, part j = true → key j ≤ key i ∧ (key j = key i → i ≤ j)) → r.toNat % 2 ^ 32 = i))
    ∧ (∀ (g : BitVec 4) (d a sv : BitVec 5),
      let o : Operands := { srcs := [sv], vsrcs := [a], dst := some d, lat := 2 };
      let v := s.reads o;
      let p := s.popped o;
      let x := vctx (p.core c);
      s.runs (.vext g d a sv) o → s.rowsFree o → exec (.vext g d a sv) s = .next (s.givesVS o d 2 (BitVec.ofNat 64 (laneOf x.w ((v.x 0).toNat % x.n) (v.r 0)), 0)))
    ∧ (∀ (g : BitVec 4) (n : BitVec 16),
      let o : Operands := {};
      let p := s.popped o;
      s.runs (.vwset g n) o → exec (.vwset g n) s = .next ((p.later c 1 (.sys q.side 0x030) (n.setWidth 8192)).finish q .next))
    ∧ (∀ (g : BitVec 4) (n : BitVec 16),
      let o : Operands := {};
      let p := s.popped o;
      s.runs (.vwin g n) o → exec (.vwin g n) s = .next ((p.later c 1 (.sys q.side 0x030) (BitVec.ofNat 8192 ((((p.core c).vwb.toNat : Int) + n.toInt) % 1536).toNat)).finish q .next))

/-- R138, R170, R311 to R314: gld, gst and the atomics check owner and alignment and put one request on its way to the owner die; a returning access reserves a reply entry whose contract is 80 cycles on its own die (96 for an atomic) and 528 elsewhere; a write or atomic to another die raises the sender's own clock count first and carries the clock; gpop takes the written head of the reply queue and gcnt counts the reserved entries. -/
def Obligations.DomeAccess : Prop :=
  ∀ s : State,
    let q := s.m.cur
    let c := q.core
    (∀ (g : BitVec 4) (a b : BitVec 5) (z : BitVec 3) (og : Nat),
      let o : Operands := { srcs := [a], pushes := [.reply] };
      let v := s.reads o;
      let p := s.popped o;
      let n := 2 ^ (z.toNat % 4);
      let va := v.x 0 + BitVec.ofNat 64 (n * b.toNat);
      s.runs (.gld g a b z) o → p.domeOwner va = .ok og → va.toNat % n = 0 → (p.core c).sideLog.any (·.holds (pageOf va)) = false → p.m.excluded.contains og = false → exec (.gld g a b z) s = .next (((p.addReq c og (.read n (decide (z.toNat < 4))) va 0 0 (if og = dieOf c then [] else (p.die (dieOf c)).vc) .sent).onCore c (·.push .reply ⟨0, .awaiting (p.ccyc c + (if og = dieOf c then 80 else 528)) p.m.nextReq⟩)).finish q .next))
    ∧ (∀ (g : BitVec 4) (d a b : BitVec 5) (z : BitVec 2) (og : Nat),
      let o : Operands := { srcs := [d, a] };
      let v := s.reads o;
      let p := s.popped o;
      let n := 2 ^ z.toNat;
      let va := v.x 1 + BitVec.ofNat 64 (n * b.toNat);
      let pw := if og = dieOf c then p else p.onDie (dieOf c) (·.tickClock (dieOf c));
      s.runs (.gst g d a b z) o → p.domeOwner va = .ok og → va.toNat % n = 0 → (p.core c).sideLog.any (·.holds (pageOf va)) = false → p.m.excluded.contains og = false → exec (.gst g d a b z) s = .next ((pw.addReq c og (.write n) va (v.x 0) 0 (if og = dieOf c then [] else (pw.die (dieOf c)).vc) .sent).finish q .next))
    ∧ (∀ (g : BitVec 4) (d : BitVec 5),
      let o : Operands := { dst := some d, pops := [.reply] };
      let p := s.popped o;
      s.runs (.gpop g d) o → exec (.gpop g d) s = .next (((p.leaveGroup q).writeS q d 1 (((s.core c).head .reply).truncate 64)).finish q .next))
    ∧ (∀ (g : BitVec 4) (d : BitVec 5),
      let o : Operands := { dst := some d };
      let p := s.popped o;
      s.runs (.gcnt g d) o → exec (.gcnt g d) s = .next (s.gives o d 1 (BitVec.ofNat 64 ((p.core c).queue .reply).length)))
    ∧ (∀ (g : BitVec 4) (a b : BitVec 5) (ao : BitVec 3) (t : BitVec 2) (og : Nat),
      let o : Operands := { srcs := [a, b], pushes := [.reply] };
      let v := s.reads o;
      let p := s.popped o;
      let va := v.x 0;
      let pw := if og = dieOf c then p else p.onDie (dieOf c) (·.tickClock (dieOf c));
      s.runs (.amoReturning g a b ao t) o → p.domeOwner va = .ok og → va.toNat % (if t.toNat = 1 ∨ t.toNat = 3 then 8 else 4) = 0 → (p.core c).sideLog.any (·.holds (pageOf va)) = false → p.m.excluded.contains og = false → (p.core c).detmode.getLsbD 0 = false → exec (.amoReturning g a b ao t) s = .next (((pw.addReq c og (.amo true ao.toNat t.toNat) va (v.x 1) 0 (if og = dieOf c then [] else (pw.die (dieOf c)).vc) .sent).onCore c (·.push .reply ⟨0, .awaiting (p.ccyc c + (if og = dieOf c then 96 else 528)) p.m.nextReq⟩)).finish q .next))
    ∧ (∀ (g : BitVec 4) (a b : BitVec 5) (t : BitVec 2) (og : Nat),
      let o : Operands := { srcs := [a, b], pushes := [.reply] };
      let v := s.reads o;
      let p := s.popped o;
      let va := v.x 0;
      let pw := if og = dieOf c then p else p.onDie (dieOf c) (·.tickClock (dieOf c));
      s.runs (.amoXchg g a b t) o → p.domeOwner va = .ok og → va.toNat % (if t.toNat = 1 ∨ t.toNat = 3 then 8 else 4) = 0 → (p.core c).sideLog.any (·.holds (pageOf va)) = false → p.m.excluded.contains og = false → (p.core c).detmode.getLsbD 0 = false → exec (.amoXchg g a b t) s = .next (((pw.addReq c og (.amo true 6 t.toNat) va (v.x 1) 0 (if og = dieOf c then [] else (pw.die (dieOf c)).vc) .sent).onCore c (·.push .reply ⟨0, .awaiting (p.ccyc c + (if og = dieOf c then 96 else 528)) p.m.nextReq⟩)).finish q .next))
    ∧ (∀ (g : BitVec 4) (d a b : BitVec 5) (t : BitVec 2) (og : Nat),
      let o : Operands := { srcs := [d, a, b], pushes := [.reply] };
      let v := s.reads o;
      let p := s.popped o;
      let va := v.x 1;
      let pw := if og = dieOf c then p else p.onDie (dieOf c) (·.tickClock (dieOf c));
      s.runs (.amoCas g d a b t) o → p.domeOwner va = .ok og → va.toNat % (if t.toNat = 1 ∨ t.toNat = 3 then 8 else 4) = 0 → (p.core c).sideLog.any (·.holds (pageOf va)) = false → p.m.excluded.contains og = false → (p.core c).detmode.getLsbD 0 = false → exec (.amoCas g d a b t) s = .next (((pw.addReq c og (.amo true 7 t.toNat) va (v.x 2) (v.x 0) (if og = dieOf c then [] else (pw.die (dieOf c)).vc) .sent).onCore c (·.push .reply ⟨0, .awaiting (p.ccyc c + (if og = dieOf c then 96 else 528)) p.m.nextReq⟩)).finish q .next))
    ∧ (∀ (g : BitVec 4) (a b : BitVec 5) (ao : BitVec 3) (t : BitVec 2) (og : Nat),
      let o : Operands := { srcs := [a, b] };
      let v := s.reads o;
      let p := s.popped o;
      let va := v.x 0;
      let pw := if og = dieOf c then p else p.onDie (dieOf c) (·.tickClock (dieOf c));
      s.runs (.amoReduction g a b ao t) o → p.domeOwner va = .ok og → va.toNat % (if t.toNat = 1 ∨ t.toNat = 3 then 8 else 4) = 0 → (p.core c).sideLog.any (·.holds (pageOf va)) = false → p.m.excluded.contains og = false → exec (.amoReduction g a b ao t) s = .next ((pw.addReq c og (.amo false ao.toNat t.toNat) va (v.x 1) 0 (if og = dieOf c then [] else (pw.die (dieOf c)).vc) .sent).finish q .next))
    ∧ (∀ (g : BitVec 4) (a b : BitVec 5) (ao : BitVec 3) (og : Nat),
      let o : Operands := { srcs := [a, b] };
      let v := s.reads o;
      let p := s.popped o;
      let va := v.x 0;
      let pw := if og = dieOf c then p else p.onDie (dieOf c) (·.tickClock (dieOf c));
      s.runs (.amoF32Reduction g a b ao) o → p.domeOwner va = .ok og → va.toNat % (if 4 = 1 ∨ 4 = 3 then 8 else 4) = 0 → (p.core c).sideLog.any (·.holds (pageOf va)) = false → p.m.excluded.contains og = false → (p.core c).detmode.getLsbD 0 = false → exec (.amoF32Reduction g a b ao) s = .next ((pw.addReq c og (.amo false ao.toNat 4) va (v.x 1) 0 (if og = dieOf c then [] else (pw.die (dieOf c)).vc) .sent).finish q .next))

/-- R326: dld puts 64 bytes of core store on their way to a descriptor register, read from issue + 4 on; dst stores one; dmod changes one field, BASEADD adding to BASE, and raises DESCRIPTOR for a value its field cannot hold. -/
def Obligations.DescriptorAccess : Prop :=
  ∀ s : State,
    let q := s.m.cur
    let c := q.core
    (∀ (g d : BitVec 4) (sv : BitVec 5),
      let o : Operands := { srcs := [sv] };
      let v := s.reads o;
      let p := s.popped o;
      let ad := v.x 0;
      s.runs (.dld g d sv) o → ad.toNat < 2 ^ 21 → ad.toNat % 64 = 0 → (s.core c).bad = [] → (s.core c).conflicts .seqA [bytesAt ad.toNat 64 false] (s.ccyc c) = [] → exec (.dld g d sv) s = .next ((((p.onCore c (·.addFps .seqA 0 [bytesAt ad.toNat 64 false] (p.ccyc c) (some (p.ccyc c + 3)))).useBanks c (p.ccyc c) 6 [ad.toNat / 2 ^ 17]).later c 4 (.desc d.toNat (BitVec.allOnes 512)) (BitVec.ofNat 8192 (readNat (s.core c).store ad.toNat 64))).finish q .next))
    ∧ (∀ (g d : BitVec 4) (sv : BitVec 5),
      let o : Operands := { srcs := [sv] };
      let v := s.reads o;
      let p := s.popped o;
      let ad := v.x 0;
      s.runs (.dst g d sv) o → ad.toNat < 2 ^ 21 → ad.toNat % 64 = 0 → (s.core c).conflicts .seqA [bytesAt ad.toNat 64 true] (s.ccyc c) = [] → (s.core c).twcAt ad.toNat = false → exec (.dst g d sv) s = .next ((((p.onCore c (·.addFps .seqA 0 [bytesAt ad.toNat 64 true] (p.ccyc c) (some (p.ccyc c)))).useBanks c (p.ccyc c) 6 [ad.toNat / 2 ^ 17]).onCore c (fun k => k.putNat ad.toNat 64 (k.descr d).toNat)).finish q .next))
    ∧ (∀ (g d : BitVec 4) (sv : BitVec 5) (f : BitVec 6),
      let o : Operands := { srcs := [sv] };
      let v := s.reads o;
      let p := s.popped o;
      let lo := (descField f.toNat).1;
      let w := (descField f.toNat).2.1;
      let x := if f = 18 then v.x 0 + BitVec.ofNat 64 (bits ((p.core c).descr d) 127 64) else v.x 0;
      s.runs (.dmod g d sv f) o → (if (descField f.toNat).2.2 = true then -(2 ^ (w - 1) : Int) ≤ (v.x 0).toInt ∧ (v.x 0).toInt < 2 ^ (w - 1) else (v.x 0).toNat < 2 ^ w) → exec (.dmod g d sv f) s = .next ((p.later c 1 (.desc d.toNat (BitVec.ofNat 512 ((2 ^ w - 1) * 2 ^ lo))) (BitVec.ofNat 8192 (x.toNat * 2 ^ lo))).finish q .next))
    ∧ (∀ (g d : BitVec 4) (sv : BitVec 5) (f : BitVec 6),
      let o : Operands := { srcs := [sv] };
      let v := s.reads o;
      let w := (descField f.toNat).2.1;
      s.runs (.dmod g d sv f) o → ¬(if (descField f.toNat).2.2 = true then -(2 ^ (w - 1) : Int) ≤ (v.x 0).toInt ∧ (v.x 0).toInt < 2 ^ (w - 1) else (v.x 0).toNat < 2 ^ w) → exec (.dmod g d sv f) s = .next (s.raisePrecise q ((encode (.dmod g d sv f)).getD 0) { code := .descriptor }))

/-- R120, R164, R174, R315 to R319, R79: an explicit wait whose condition holds leaves the anchor group and goes on; otherwise it starts to wait with its pops made and keeps what it read; kadd and kset post for the next cycle, or to another core of the logical cluster for issue + 4, which raises SECURITY where a core that is not secure posts to one that is; kget, ktest and eseq read. -/
def Obligations.WaitsAndCounters : Prop :=
  ∀ s : State,
    let q := s.m.cur
    let c := q.core
    (∀ (g : BitVec 4),
      let o : Operands := {};
      let p := s.popped o;
      s.runs (.fenceCore g) o → (q.side = .x ∨ p.fenceDone c false = true) → exec (.fenceCore g) s = .next ((if q.side = .x then p else p.leaveGroup q).finish q .next))
    ∧ (∀ (g : BitVec 4),
      let o : Operands := {};
      let p := s.popped o;
      s.runs (.fenceCluster g) o → (q.side = .x ∨ p.fenceDone c false = true) → exec (.fenceCluster g) s = .next ((if q.side = .x then p else p.leaveGroup q).finish q .next))
    ∧ (∀ (g : BitVec 4),
      let o : Operands := {};
      let p := s.popped o;
      s.runs (.fenceDie g) o → (q.side = .x ∨ p.fenceDone c false = true) → exec (.fenceDie g) s = .next ((if q.side = .x then p else p.leaveGroup q).finish q .next))
    ∧ (∀ (g : BitVec 4),
      let o : Operands := {};
      let p := s.popped o;
      s.runs (.fenceModule g) o → (q.side = .x ∨ p.fenceDone c true = true) → exec (.fenceModule g) s = .next ((if q.side = .x then p else p.leaveGroup q).finish q .next))
    ∧ (∀ (g : BitVec 4) (m : BitVec 8),
      let o : Operands := {};
      let p := s.popped o;
      s.runs (.fenceX g m) o → (q.side = .x ∨ p.fenceDone c true = true) → exec (.fenceX g m) s = .next ((if q.side = .x then p else p.leaveGroup q).finish q .next))
    ∧ (∀ (g : BitVec 4) (sv : BitVec 5) (k : BitVec 4),
      let o : Operands := { srcs := [sv] };
      let v := s.reads o;
      let p := s.popped o;
      s.runs (.kwait g sv k) o → (v.x 0).toNat ≤ ((p.core c).counter k.toNat).toNat → exec (.kwait g sv k) s = .next ((p.leaveGroup q).finish q .next))
    ∧ (∀ (g : BitVec 4) (sv : BitVec 5) (k : BitVec 4),
      let o : Operands := { srcs := [sv] };
      let v := s.reads o;
      let p := s.popped o;
      s.runs (.kwait g sv k) o → ¬((v.x 0).toNat ≤ ((p.core c).counter k.toNat).toNat) → exec (.kwait g sv k) s = .next (p.startWait q (.counter k.toNat (v.x 0)) (some (true, v.s))))
    ∧ (∀ (g : BitVec 4) (sv : BitVec 5) (k : BitVec 4) (pd : BitVec 3),
      let o : Operands := { srcs := [sv] };
      let v := s.reads o;
      let p := s.popped o;
      s.runs (.ktest g sv k pd) o → exec (.ktest g sv k pd) s = .next (s.givesP o pd (decide ((v.x 0).toNat ≤ ((p.core c).counter k.toNat).toNat))))
    ∧ (∀ (g : BitVec 4) (sv : BitVec 5) (k : BitVec 4),
      let o : Operands := { dst := some sv };
      let p := s.popped o;
      s.runs (.kget g sv k) o → exec (.kget g sv k) s = .next (s.gives o sv 1 ((p.core c).counter k.toNat)))
    ∧ (∀ (g : BitVec 4) (sv : BitVec 5) (k : BitVec 4) (r : BitVec 1) (cc : BitVec 3),
      let o : Operands := { srcs := [sv] };
      let v := s.reads o;
      let p := s.popped o;
      s.runs (.kadd g sv k r cc) o → r = 0 → exec (.kadd g sv k r cc) s = .next ((p.later c 1 (.kadd k.toNat) ((v.x 0).setWidth 8192)).finish q .next))
    ∧ (∀ (g : BitVec 4) (sv : BitVec 5) (k : BitVec 4) (r : BitVec 1) (cc : BitVec 3) (pe : Nat),
      let o : Operands := { srcs := [sv] };
      let v := s.reads o;
      let p := s.popped o;
      s.runs (.kadd g sv k r cc) o → r ≠ 0 → p.ownLogical c ≠ some cc.toNat → p.peerCore c cc.toNat = some pe → s.rom.coreSecret c pe = false → exec (.kadd g sv k r cc) s = .next ((p.later pe 4 (.kadd k.toNat) ((v.x 0).setWidth 8192)).finish q .next))
    ∧ (∀ (g : BitVec 4) (sv : BitVec 5) (k : BitVec 4) (r : BitVec 1) (cc : BitVec 3) (pe : Nat),
      let o : Operands := { srcs := [sv] };
      let p := s.popped o;
      s.runs (.kadd g sv k r cc) o → r ≠ 0 → p.ownLogical c ≠ some cc.toNat → p.peerCore c cc.toNat = some pe → s.rom.coreSecret c pe = true → exec (.kadd g sv k r cc) s = .next (s.raisePrecise q ((encode (.kadd g sv k r cc)).getD 0) { code := .security }))
    ∧ (∀ (g : BitVec 4) (sv : BitVec 5) (k : BitVec 4) (r : BitVec 1) (cc : BitVec 3),
      let o : Operands := { srcs := [sv] };
      let v := s.reads o;
      let p := s.popped o;
      s.runs (.kset g sv k r cc) o → r = 0 → exec (.kset g sv k r cc) s = .next ((p.later c 1 (.kset k.toNat (p.pcore c)) ((v.x 0).setWidth 8192)).finish q .next))
    ∧ (∀ (g : BitVec 4) (sv : BitVec 5) (k : BitVec 4) (r : BitVec 1) (cc : BitVec 3) (pe : Nat),
      let o : Operands := { srcs := [sv] };
      let v := s.reads o;
      let p := s.popped o;
      s.runs (.kset g sv k r cc) o → r ≠ 0 → p.ownLogical c ≠ some cc.toNat → p.peerCore c cc.toNat = some pe → s.rom.coreSecret c pe = false → exec (.kset g sv k r cc) s = .next ((p.later pe 4 (.kset k.toNat (p.pcore c)) ((v.x 0).setWidth 8192)).finish q .next))
    ∧ (∀ (g : BitVec 4) (sv : BitVec 5) (k : BitVec 4) (r : BitVec 1) (cc : BitVec 3) (pe : Nat),
      let o : Operands := { srcs := [sv] };
      let p := s.popped o;
      s.runs (.kset g sv k r cc) o → r ≠ 0 → p.ownLogical c ≠ some cc.toNat → p.peerCore c cc.toNat = some pe → s.rom.coreSecret c pe = true → exec (.kset g sv k r cc) s = .next (s.raisePrecise q ((encode (.kset g sv k r cc)).getD 0) { code := .security }))
    ∧ (∀ (g : BitVec 4) (sv : BitVec 5) (e : BitVec 3),
      let o : Operands := { srcs := [sv] };
      let v := s.reads o;
      let p := s.popped o;
      s.runs (.ewait g sv e) o → (v.x 0).toNat ≤ ((p.core c).doneNo e.toNat).toNat → exec (.ewait g sv e) s = .next ((p.leaveGroup q).finish q .next))
    ∧ (∀ (g : BitVec 4) (sv : BitVec 5) (e : BitVec 3),
      let o : Operands := { srcs := [sv] };
      let v := s.reads o;
      let p := s.popped o;
      s.runs (.ewait g sv e) o → ¬((v.x 0).toNat ≤ ((p.core c).doneNo e.toNat).toNat) → exec (.ewait g sv e) s = .next (p.startWait q (.engineDone e.toNat (v.x 0)) (some (true, v.s))))
    ∧ (∀ (g : BitVec 4) (sv : BitVec 5) (e : BitVec 3),
      let o : Operands := { dst := some sv };
      let p := s.popped o;
      s.runs (.eseq g sv e) o → exec (.eseq g sv e) s = .next (s.gives o sv 1 ((p.core c).issueNo e.toNat)))
    ∧ (∀ (g : BitVec 4) (sv : BitVec 5) (qc : BitVec 4),
      let o : Operands := { srcs := [sv] };
      let v := s.reads o;
      let p := s.popped o;
      let qw := qwaitQueue q.side qc.toNat;
      let n := Min.min (v.x 0).toNat qw.1.depth;
      s.runs (.qwait g sv qc) o → (if qw.2 = true then (p.core c).headWritten qw.1 n = true else n ≤ qw.1.depth - ((p.core c).queue qw.1).length) → exec (.qwait g sv qc) s = .next ((p.leaveGroup q).finish q .next))
    ∧ (∀ (g : BitVec 4) (sv : BitVec 5) (qc : BitVec 4),
      let o : Operands := { srcs := [sv] };
      let v := s.reads o;
      let p := s.popped o;
      let qw := qwaitQueue q.side qc.toNat;
      let n := Min.min (v.x 0).toNat qw.1.depth;
      s.runs (.qwait g sv qc) o → ¬(if qw.2 = true then (p.core c).headWritten qw.1 n = true else n ≤ qw.1.depth - ((p.core c).queue qw.1).length) → exec (.qwait g sv qc) s = .next (p.startWait q (if qw.2 then .qPop qw.1 n else .qFree qw.1 n) (some (true, v.s))))

/-- R122, R125, R303, R320, R321: csync completes when every participant waits at a csync of the same set; a message to an anchored peer arrives 2 cycles plus 2 for each hop of the shorter way round later; crecv takes the one message of its peer and kind that arrives in its issue cycle, crecv.row writing its bytes in that cycle. A message of a core that is not secure to one that is raises SECURITY (R79). -/
def Obligations.ClusterMessages : Prop :=
  ∀ s : State,
    let q := s.m.cur
    let c := q.core
    (∀ (g : BitVec 4) (m : BitVec 16) (l : List SeqId),
      let o : Operands := {};
      let p := s.popped o;
      s.runs (.csync g m) o → p.csyncSet c m = some l → l.contains q = true → (∀ r ∈ l, clusterOf r.core = clusterOf c) → (∀ r ∈ l, r ≠ q → ∃ m' l', (p.seq r).wait = some (.csync m') ∧ p.csyncSet r.core m' = some l' ∧ ∀ z, l'.contains z = l.contains z) → (∀ r m' l', clusterOf r.core = clusterOf c → (p.seq r).wait = some (.csync m') → p.csyncSet r.core m' = some l' → l'.contains q = true → ∀ z, l'.contains z = l.contains z) → exec (.csync g m) s = .next ((l.foldl (fun t r => t.onSeq r (·.synced (p.ccyc c) (p.cluster (clusterOf c)).nextGroup)) (p.onCluster (clusterOf c) (fun k => { k with nextGroup := k.nextGroup + 1 }))).finish q .keep))
    ∧ (∀ (g : BitVec 4) (a : BitVec 5) (pe : BitVec 3) (o2 : Nat),
      let o : Operands := { srcs := [a] };
      let v := s.reads o;
      let p := s.popped o;
      s.runs (.csendS g a pe) o → p.ownLogical c ≠ some pe.toNat → p.peerCore c pe.toNat = some o2 → p.anchored c o2 = true → s.rom.coreSecret c o2 = false → exec (.csendS g a pe) s = .next ((sendMsg p c o2 false ((v.x 0).setWidth 8192)).finish q .next))
    ∧ (∀ (g : BitVec 4) (a : BitVec 5) (pe : BitVec 3) (o2 : Nat),
      let o : Operands := { srcs := [a] };
      let v := s.reads o;
      let p := s.popped o;
      s.runs (.csendRow g a pe) o → p.ownLogical c ≠ some pe.toNat → p.peerCore c pe.toNat = some o2 → p.anchored c o2 = true → s.rom.coreSecret c o2 = false → rowFault (v.x 0) = none → (s.core c).conflicts .seqA [bytesAt (v.x 0).toNat 1024 false] (s.ccyc c) = [] → (s.core c).bad = [] → exec (.csendRow g a pe) s = .next ((sendMsg ((p.onCore c (·.addFps .seqA 0 [bytesAt (v.x 0).toNat 1024 false] (p.ccyc c) (some (p.ccyc c)))).useBanks c (p.ccyc c) 5 [(v.x 0).toNat / 2 ^ 17]) c o2 true (readRow (s.core c).store (v.x 0).toNat)).finish q .next))
    ∧ (∀ (g : BitVec 4) (a : BitVec 5) (pe : BitVec 3) (o2 : Nat),
      let o : Operands := { srcs := [a] };
      let p := s.popped o;
      s.runs (.csendS g a pe) o → p.ownLogical c ≠ some pe.toNat → p.peerCore c pe.toNat = some o2 → p.anchored c o2 = true → s.rom.coreSecret c o2 = true → exec (.csendS g a pe) s = .next (s.raisePrecise q ((encode (.csendS g a pe)).getD 0) { code := .security }))
    ∧ (∀ (g : BitVec 4) (a : BitVec 5) (pe : BitVec 3) (o2 : Nat),
      let o : Operands := { srcs := [a] };
      let v := s.reads o;
      let p := s.popped o;
      s.runs (.csendRow g a pe) o → p.ownLogical c ≠ some pe.toNat → p.peerCore c pe.toNat = some o2 → p.anchored c o2 = true → s.rom.coreSecret c o2 = true → rowFault (v.x 0) = none → exec (.csendRow g a pe) s = .next (s.raisePrecise q ((encode (.csendRow g a pe)).getD 0) { code := .security }))
    ∧ (∀ (c o2 : Nat) (w : Bool) (x : Row),
      ((sendMsg s c o2 w x).cluster (clusterOf c)).msgs = (s.cluster (clusterOf c)).msgs ++ [⟨c, o2, s.ccyc c + 2 + 2 * (let d := (o2 % 8 + 8 - c % 8) % 8; if d ≤ 4 then d else 8 - d), w, x, false⟩])
    ∧ (∀ (g : BitVec 4) (d : BitVec 5) (pe : BitVec 3) (o2 : Nat) (x : CMsg),
      let o : Operands := { dst := some d };
      let p := s.popped o;
      s.runs (.crecvS g d pe) o → p.ownLogical c ≠ some pe.toNat → p.peerCore c pe.toNat = some o2 → p.anchored c o2 = true → p.arrivals c = [x] → x.src = o2 → x.isRow = false → exec (.crecvS g d pe) s = .next (((p.clearArrivals c).writeS q d 1 (x.val.truncate 64)).finish q .next))
    ∧ (∀ (g : BitVec 4) (a : BitVec 5) (pe : BitVec 3) (o2 : Nat) (x : CMsg),
      let o : Operands := { srcs := [a] };
      let v := s.reads o;
      let p := s.popped o;
      let ad := (v.x 0).toNat;
      s.runs (.crecvRow g a pe) o → p.ownLogical c ≠ some pe.toNat → p.peerCore c pe.toNat = some o2 → p.anchored c o2 = true → p.arrivals c = [x] → x.src = o2 → x.isRow = true → rowFault (v.x 0) = none → (s.core c).twcAt ad = false → (s.core c).conflicts .seqA [bytesAt ad 1024 true] (s.ccyc c) = [] → exec (.crecvRow g a pe) s = .next (((((p.clearArrivals c).onCore c (·.addFps .seqA 0 [bytesAt ad 1024 true] (p.ccyc c) (some (p.ccyc c)))).useBanks c (p.ccyc c) 5 [ad / 2 ^ 17]).onCore c (·.putNat ad 1024 x.val.toNat)).finish q .next))

/-- R110, R364, R367, R371, R373, R377, R381, R384, R385: an engine command whose address passes its checks and whose engine has room is accepted with the next issue number and its scalar operands and snapshots, and control goes on; cht sets the chain tail; iocan marks a queued request, or asks for the cancelling of one that is out (R389), and a core that is not secure may not use a secure I/O engine (R79). DEDUCED (log 18): a sent target ends without awaiting its response, and the host's late answer is counted by the LEN kept for it. -/
def Obligations.EngineBlockAcceptance : Prop :=
  ∀ s : State,
    let q := s.m.cur
    let c := q.core
    (∀ (g : BitVec 4) (sv : BitVec 5),
      let o : Operands := { srcs := [sv] };
      let v := s.reads o;
      let p := s.popped o;
      s.runs (.kvres g sv) o → (v.x 0).toNat + 64 ≤ 2 ^ 21 → (v.x 0).toNat % 64 = 0 → (p.core c).engRoom 5 = true → exec (.kvres g sv) s = .next (((p.accept c 5 (.kvres g sv) [v.x 0] [])).finish q .next))
    ∧ (∀ (g : BitVec 4) (sv : BitVec 5),
      let o : Operands := { srcs := [sv] };
      let v := s.reads o;
      let p := s.popped o;
      s.runs (.kvapp g sv) o → (v.x 0).toNat + 64 ≤ 2 ^ 21 → (v.x 0).toNat % 64 = 0 → (p.core c).engRoom 5 = true → exec (.kvapp g sv) s = .next (((p.accept c 5 (.kvapp g sv) [v.x 0] [])).finish q .next))
    ∧ (∀ (g : BitVec 4) (sv : BitVec 5),
      let o : Operands := { srcs := [sv] };
      let v := s.reads o;
      let p := s.popped o;
      s.runs (.kvret g sv) o → (v.x 0).toNat + 64 ≤ 2 ^ 21 → (v.x 0).toNat % 64 = 0 → (p.core c).engRoom 5 = true → exec (.kvret g sv) s = .next (((p.accept c 5 (.kvret g sv) [v.x 0] [])).finish q .next))
    ∧ (∀ (g : BitVec 4) (sv : BitVec 5),
      let o : Operands := { srcs := [sv] };
      let v := s.reads o;
      let p := s.popped o;
      s.runs (.kvfork g sv) o → (v.x 0).toNat + 64 ≤ 2 ^ 21 → (v.x 0).toNat % 64 = 0 → (p.core c).engRoom 5 = true → exec (.kvfork g sv) s = .next (((p.accept c 5 (.kvfork g sv) [v.x 0] [])).finish q .next))
    ∧ (∀ (g : BitVec 4) (sv : BitVec 5),
      let o : Operands := { srcs := [sv] };
      let v := s.reads o;
      let p := s.popped o;
      s.runs (.kvsel g sv) o → (v.x 0).toNat + 64 ≤ 2 ^ 21 → (v.x 0).toNat % 64 = 0 → (p.core c).engRoom 5 = true → exec (.kvsel g sv) s = .next (((p.accept c 5 (.kvsel g sv) [v.x 0] [])).finish q .next))
    ∧ (∀ (g : BitVec 4) (sv : BitVec 5),
      let o : Operands := { srcs := [sv] };
      let v := s.reads o;
      let p := s.popped o;
      s.runs (.kvgat g sv) o → (v.x 0).toNat + 64 ≤ 2 ^ 21 → (v.x 0).toNat % 64 = 0 → (p.core c).engRoom 5 = true → exec (.kvgat g sv) s = .next (((p.accept c 5 (.kvgat g sv) [v.x 0] [])).finish q .next))
    ∧ (∀ (g : BitVec 4) (sv : BitVec 5),
      let o : Operands := { srcs := [sv] };
      let v := s.reads o;
      let p := s.popped o;
      s.runs (.dattn g sv) o → (v.x 0).toNat + 64 ≤ 2 ^ 21 → (v.x 0).toNat % 64 = 0 → (p.core c).engRoom 4 = true → exec (.dattn g sv) s = .next (((p.accept c 4 (.dattn g sv) [v.x 0] [])).finish q .next))
    ∧ (∀ (g : BitVec 4) (sv : BitVec 5),
      let o : Operands := { srcs := [sv] };
      let v := s.reads o;
      let p := s.popped o;
      s.runs (.dattnRot g sv) o → (v.x 0).toNat + 64 ≤ 2 ^ 21 → (v.x 0).toNat % 64 = 0 → (p.core c).engRoom 4 = true → exec (.dattnRot g sv) s = .next (((p.accept c 4 (.dattnRot g sv) [v.x 0] [])).finish q .next))
    ∧ (∀ (g : BitVec 4) (sv : BitVec 5),
      let o : Operands := { srcs := [sv] };
      let v := s.reads o;
      let p := s.popped o;
      s.runs (.dbnd g sv) o → (v.x 0).toNat + 64 ≤ 2 ^ 21 → (v.x 0).toNat % 64 = 0 → (p.core c).engRoom 4 = true → exec (.dbnd g sv) s = .next (((p.accept c 4 (.dbnd g sv) [v.x 0] [])).finish q .next))
    ∧ (∀ (g : BitVec 4) (sv : BitVec 5),
      let o : Operands := { srcs := [sv] };
      let v := s.reads o;
      let p := s.popped o;
      s.runs (.dsum g sv) o → (v.x 0).toNat + 64 ≤ 2 ^ 21 → (v.x 0).toNat % 64 = 0 → (p.core c).engRoom 4 = true → exec (.dsum g sv) s = .next (((p.accept c 4 (.dsum g sv) [v.x 0] [])).finish q .next))
    ∧ (∀ (g : BitVec 4) (sv : BitVec 5),
      let o : Operands := { srcs := [sv] };
      let v := s.reads o;
      let p := s.popped o;
      s.runs (.tload g sv) o → (v.x 0).toNat + 320 ≤ 2 ^ 21 → (v.x 0).toNat % 64 = 0 → (p.core c).engRoom 3 = true → exec (.tload g sv) s = .next (((p.accept c 3 (.tload g sv) [v.x 0] [])).finish q .next))
    ∧ (∀ (g : BitVec 4) (sv : BitVec 5),
      let o : Operands := { srcs := [sv] };
      let v := s.reads o;
      let p := s.popped o;
      s.runs (.segk g sv) o → (p.core c).engRoom 6 = true → exec (.segk g sv) s = .next (((p.accept c 6 (.segk g sv) [v.x 0] [])).finish q .next))
    ∧ (∀ (g : BitVec 4) (sv : BitVec 5),
      let o : Operands := { srcs := [sv] };
      let v := s.reads o;
      let p := s.popped o;
      s.runs (.segr g sv) o → (p.core c).engRoom 6 = true → exec (.segr g sv) s = .next (((p.accept c 6 (.segr g sv) [v.x 0] [])).finish q .next))
    ∧ (∀ (g : BitVec 4) (sv : BitVec 5),
      let o : Operands := { srcs := [sv] };
      let v := s.reads o;
      let p := s.popped o;
      s.runs (.cht g sv) o → (v.x 0).toNat % 2 ^ 21 % 32 = 0 → (p.core c).engRoom 0 = true → exec (.cht g sv) s = .next (((p.accept c 0 (.cht g sv) [BitVec.ofNat 64 ((v.x 0).toNat % 2 ^ 21)] []).onCore c (fun k => { k with chainTail := BitVec.ofNat 64 ((v.x 0).toNat % 2 ^ 21) })).finish q .next))
    ∧ (∀ (g : BitVec 4) (sv : BitVec 5),
      let o : Operands := { srcs := [sv] };
      let v := s.reads o;
      let p := s.popped o;
      s.runs (.tcenc g sv) o → (v.x 0).toNat % 64 = 0 → (p.core c).engRoom 2 = true → exec (.tcenc g sv) s = .next (((p.accept c 2 (.tcenc g sv) [v.x 0] []).onDie (dieOf c) (fun d => { d with encQ := d.encQ ++ [c] })).finish q .next))
    ∧ (∀ (g : BitVec 4) (sv : BitVec 5),
      let o : Operands := { srcs := [sv] };
      let v := s.reads o;
      let p := s.popped o;
      let r : Rec512 := BitVec.ofNat 512 (readNat (p.core c).store (v.x 0).toNat 64);
      s.runs (.iorq g sv) o → (v.x 0).toNat + 64 ≤ 2 ^ 21 → (v.x 0).toNat % 64 = 0 → p.eccBytes c [((v.x 0).toNat, 64)] = none → ioBad r = false → p.ioRoom c = true → exec (.iorq g sv) s = .next ((p.accept c 7 (.iorq g sv) [v.x 0] [r]).finish q .next))
    ∧ (∀ (g : BitVec 4) (sv : BitVec 5),
      let o : Operands := { srcs := [sv] };
      let v := s.reads o;
      let p := s.popped o;
      s.runs (.iocan g sv) o → (p.ioSecure (dieOf c) = true → p.rom.secureCore c = true) → (p.core c).engRoom 7 = true → ((p.core c).engQueue 7).any (fun x => x.tag == v.x 0 && x.isIorq) = false → ((p.core c).jobsOf 7).find? (fun j => j.cmd.tag == v.x 0 && j.cmd.isIorq && (j.ioStage == 1 || j.ioStage == 4)) = none → exec (.iocan g sv) s = .next ((p.accept c 7 (.iocan g sv) [v.x 0] []).finish q .next))
    ∧ (∀ (g : BitVec 4) (sv : BitVec 5),
      let o : Operands := { srcs := [sv] };
      let v := s.reads o;
      let p := s.popped o;
      s.runs (.iocan g sv) o → (p.ioSecure (dieOf c) = true → p.rom.secureCore c = true) → (p.core c).engRoom 7 = true → ((p.core c).engQueue 7).any (fun x => x.tag == v.x 0 && x.isIorq) = true → exec (.iocan g sv) s = .next (((p.onCore c (fun k => k.setEngQueue 7 ((k.engQueue 7).map (fun x => if x.tag == v.x 0 && x.isIorq && !x.cancelled then { x with vals := x.vals ++ [1] } else x)))).accept c 7 (.iocan g sv) [v.x 0] []).finish q .next))
    ∧ (∀ (g : BitVec 4) (sv : BitVec 5) (j : Job),
      let o : Operands := { srcs := [sv] };
      let v := s.reads o;
      let p := s.popped o;
      s.runs (.iocan g sv) o → (p.ioSecure (dieOf c) = true → p.rom.secureCore c = true) → (p.core c).engRoom 7 = true → ((p.core c).engQueue 7).any (fun x => x.tag == v.x 0 && x.isIorq) = false → ((p.core c).jobsOf 7).find? (fun j => j.cmd.tag == v.x 0 && j.cmd.isIorq && (j.ioStage == 1 || j.ioStage == 4)) = some j → j.ioStage ≠ 4 → exec (.iocan g sv) s = .next (((((p.ioWrite (dieOf c) (p.ioId c (v.x 0)) (j.cmd.descs.getD 0 0) 255).onDie (dieOf c) (fun d => { d with ioLate := d.ioLate ++ [(p.ioId c (v.x 0), bits (j.cmd.descs.getD 0 0) 383 352)] })).onCore c (·.putJob { j with aux := [2, 0, 2] })).accept c 7 (.iocan g sv) [v.x 0] []).finish q .next))
    ∧ (∀ (g : BitVec 4) (sv : BitVec 5) (j : Job),
      let o : Operands := { srcs := [sv] };
      let v := s.reads o;
      let p := s.popped o;
      s.runs (.iocan g sv) o → (p.ioSecure (dieOf c) = true → p.rom.secureCore c = true) → (p.core c).engRoom 7 = true → ((p.core c).engQueue 7).any (fun x => x.tag == v.x 0 && x.isIorq) = false → ((p.core c).jobsOf 7).find? (fun j => j.cmd.tag == v.x 0 && j.cmd.isIorq && (j.ioStage == 1 || j.ioStage == 4)) = some j → j.ioStage = 4 → exec (.iocan g sv) s = .next (((p.onCore c (·.putJob { j with aux := [2, 0, 2] })).accept c 7 (.iocan g sv) [v.x 0] []).finish q .next))
    ∧ (∀ (g : BitVec 4) (sv : BitVec 5),
      let o : Operands := { srcs := [sv] };
      s.runs (.iocan g sv) o → s.ioSecure (dieOf c) = true → s.rom.secureCore c = false → exec (.iocan g sv) s = .next (s.raisePrecise q ((encode (.iocan g sv)).getD 0) { code := .security }))
    ∧ (∀ (c e : Nat) (i : Instr) (vals : List Word) (descs : List Rec512),
      ((s.accept c e i vals descs).core c).issueNo e = (s.core c).issueNo e + 1
      ∧ ((s.accept c e i vals descs).core c).engQueue e = (s.core c).engQueue e ++ [{ tag := (s.core c).issueNo e + 1, ins := i, vals := vals, descs := descs, bfmt := (s.core c).bfmt, stamp := (s.core c).mstamp, ofRec := (s.core c).running.getD 0, at_ := s.ccyc c }])

/-- R111, R246, R247, R349, R353, R354, R363 to R365, R371, R382: mma, mzero, cpy, tbind, tgo, tbar and segi are checked and accepted with their snapshots when their engine has room; a full matrix queue makes the sequencer wait, a failed check is a precise fault. -/
def Obligations.EngineDescriptorAcceptance : Prop :=
  ∀ s : State,
    let q := s.m.cur
    let c := q.core
    (∀ (g cd da db : BitVec 4) (xx sg : BitVec 1) (t : BitVec 2) (u vv : BitVec 1) (pe : BitVec 3) (i : BitVec 1) (r : List Word × List Rec512),
      let o : Operands := {};
      let p := s.popped o;
      s.runs (.mma g cd da db xx sg t u vv pe i) o → mmaRecords p c cd da db = none → mmaCheck p c (.mma g cd da db xx sg t u vv pe i) cd da db pe.toNat = .ok r → (p.core c).engRoom 1 = true → exec (.mma g cd da db xx sg t u vv pe i) s = .next ((p.accept c 1 (.mma g cd da db xx sg t u vv pe i) r.1 r.2).finish q .next))
    ∧ (∀ (g cd da db : BitVec 4) (xx sg : BitVec 1) (t : BitVec 2) (u vv : BitVec 1) (pe : BitVec 3) (i : BitVec 1) (f : FaultCode),
      let o : Operands := {};
      let p := s.popped o;
      s.runs (.mma g cd da db xx sg t u vv pe i) o → mmaRecords p c cd da db = none → mmaCheck p c (.mma g cd da db xx sg t u vv pe i) cd da db pe.toNat = .error f → (p.core c).engRoom 1 = true → exec (.mma g cd da db xx sg t u vv pe i) s = .next (s.raisePrecise q ((encode (.mma g cd da db xx sg t u vv pe i)).getD 0) { code := f }))
    ∧ (∀ (g cd da db : BitVec 4) (xx sg : BitVec 1) (t : BitVec 2) (u vv : BitVec 1) (pe : BitVec 3) (i : BitVec 1),
      let o : Operands := {};
      let v := s.reads o;
      let p := s.popped o;
      s.runs (.mma g cd da db xx sg t u vv pe i) o → (p.core c).engRoom 1 = false → exec (.mma g cd da db xx sg t u vv pe i) s = .next (p.startWait q (.engineRoom 1) (some (true, v.s))))
    ∧ (∀ (g cd : BitVec 4) (sg : BitVec 1),
      let o : Operands := {};
      let p := s.popped o;
      s.runs (.mzero g cd sg) o → (p.core c).recordEcc c ((p.core c).descr cd) 0x08 = none → cBad ((p.core c).descr cd) [0x08, 0xFF, 0x03] ((readRecord (p.core c) ((p.core c).descr cd)).getD 0 0) = false → dBase ((p.core c).descr cd) + dSize ((p.core c).descr cd) 1 ≤ 1536 → (p.core c).engRoom 1 = true → exec (.mzero g cd sg) s = .next (((p.accept c 1 (.mzero g cd sg) [] [(p.core c).descr cd])).finish q .next))
    ∧ (∀ (g d k : BitVec 4) (pe : BitVec 1) (cq : BitVec 4) (r : List Word × List Rec512),
      let o : Operands := {};
      let p := s.popped o;
      s.runs (.cpy g d k pe cq) o → cpyCheck p c d k = .ok r → (p.core c).engRoom 0 = true → exec (.cpy g d k pe cq) s = .next ((p.accept c 0 (.cpy g d k pe cq) r.1 r.2).finish q .next))
    ∧ (∀ (g d : BitVec 4) (pe : BitVec 3) (r : List Word × List Rec512),
      let o : Operands := {};
      let p := s.popped o;
      s.runs (.tbind g d pe) o → tbindCheck p c pe.toNat d = .ok r → (p.core c).engRoom 3 = true → exec (.tbind g d pe) s = .next ((p.accept c 3 (.tbind g d pe) r.1 r.2).finish q .next))
    ∧ (∀ (g : BitVec 4),
      let o : Operands := {};
      let p := s.popped o;
      s.runs (.tgo g) o → (p.core c).engRoom 3 = true → exec (.tgo g) s = .next (((p.accept c 3 (.tgo g) [] []).onCluster (clusterOf c) (fun n => { n with trussQ := n.trussQ ++ [c] })).finish q .next))
    ∧ (∀ (g : BitVec 4),
      let o : Operands := {};
      let p := s.popped o;
      s.runs (.tbar g) o → (p.core c).engRoom 3 = true → exec (.tbar g) s = .next (((p.accept c 3 (.tbar g) [] [])).finish q .next))
    ∧ (∀ (g d : BitVec 4) (sv : BitVec 5),
      let o : Operands := { srcs := [sv] };
      let v := s.reads o;
      let p := s.popped o;
      s.runs (.segi g d sv) o → (p.core c).recordEcc c ((p.core c).descr d) (dFmt ((p.core c).descr d)) = none → segiBad ((p.core c).descr d) ((readRecord (p.core c) ((p.core c).descr d)).getD 0 0) = false → (p.core c).engRoom 6 = true → exec (.segi g d sv) s = .next (((p.accept c 6 (.segi g d sv) [v.x 0] [(p.core c).descr d])).finish q .next))
    ∧ (∀ (g d : BitVec 4) (sv : BitVec 5),
      let o : Operands := { srcs := [sv] };
      let k := (s.core c).descr d;
      let prm := (readRecord (s.core c) k).getD 0 0;
      s.runs (.segi g d sv) o → (s.core c).recordEcc c k (dFmt k) = none → (dSpace k ≠ 3 ∨ dPrec k % 64 ≠ 0 ∨ 2 ^ 21 ≤ dPrec k ∨ (dPrec k ≠ 0 ∧ recordReserved prm = true) ∨ (dFmt k = 0x11 ∧ (dPrec k = 0 ∨ dStride k 0 ≠ 0 ∨ dStride k 1 ≠ 0 ∨ dStride k 2 ≠ 0 ∨ dStride k 3 ≠ 0))) → exec (.segi g d sv) s = .next (s.raisePrecise q ((encode (.segi g d sv)).getD 0) { code := .descriptor }))
    ∧ (∀ (g d : BitVec 4) (pe : BitVec 3),
      let o : Operands := {};
      let k := (s.core c).descr d;
      let prm := (readRecord (s.core c) k).getD 0 0;
      s.runs (.tbind g d pe) o → (s.core c).recordEcc c k (((s.popped o).copyFmt c k none).getD 0xFF) = none → (dSpace k = 2 ∨ (dPrec k ≠ 0 ∧ recordReserved prm = true)) → exec (.tbind g d pe) s = .next (s.raisePrecise q ((encode (.tbind g d pe)).getD 0) { code := .descriptor }))

/-- R368, R380, R383: chs and segt read the copy engine's and the Viaduct's state with latency 2; segw goes on when its payload beat is present, waits while it may come, and faults when it cannot. -/
def Obligations.CopyAndSegmentStatus : Prop :=
  ∀ s : State,
    let q := s.m.cur
    let c := q.core
    (∀ (g : BitVec 4) (sv : BitVec 5),
      let o : Operands := { dst := some sv, lat := 2 };
      let p := s.popped o;
      s.runs (.chs g sv) o → exec (.chs g sv) s = .next (s.gives o sv 2 (BitVec.ofNat 64 (bits (p.core c).chainHead 20 0 * 2 ^ 43 + (p.core c).copyState * 2 ^ 40 + p.copyBytes c % 2 ^ 32))))
    ∧ (∀ (g : BitVec 4) (sv : BitVec 5),
      let o : Operands := { dst := some sv, lat := 2 };
      let p := s.popped o;
      s.runs (.segt g sv) o → exec (.segt g sv) s = .next (s.gives o sv 2 (setBits ((p.die (dieOf c)).reg 0x0208) 11 0 0)))
    ∧ (∀ (g : BitVec 4) (sv : BitVec 5),
      let o : Operands := { srcs := [sv] };
      let v := s.reads o;
      let p := s.popped o;
      s.runs (.segw g sv) o → (p.die (dieOf c)).segAnswer (dieOf c) (v.x 0) = .holds → exec (.segw g sv) s = .next ((p.leaveGroup q).finish q .next))
    ∧ (∀ (g : BitVec 4) (sv : BitVec 5),
      let o : Operands := { srcs := [sv] };
      let v := s.reads o;
      let p := s.popped o;
      s.runs (.segw g sv) o → (p.die (dieOf c)).segAnswer (dieOf c) (v.x 0) = .waits → exec (.segw g sv) s = .next (p.startWait q (.segment (v.x 0)) (some (true, v.s))))
    ∧ (∀ (g : BitVec 4) (sv : BitVec 5) (f : FaultInfo),
      let o : Operands := { srcs := [sv] };
      let v := s.reads o;
      let p := s.popped o;
      s.runs (.segw g sv) o → (p.die (dieOf c)).segAnswer (dieOf c) (v.x 0) = .stops f → exec (.segw g sv) s = .next (s.raisePrecise q ((encode (.segw g sv)).getD 0) f))

/-- R10, R18 to R20, R23 to R27, R57, R77, R78: what the events of reset, boot and the thermal sensor leave. The model's choices in it: what POWER_ON and MODULE_RESET leave and the source and length of an image (log 34), the free place of the image in the Dome (log 43), that 110 °C resets the module at once and that each measurement at 95 °C or more counts a warning (log 31, log 43), and that the heartbeat periods begin with READY (log 41). -/
def Obligations.ResetAndBoot : Prop :=
  ∀ s : State,
    (∃ t, exec .powerOn s = .next t ∧ t.rom = { s.rom with held := true, sram := [], images := [], failed := [], up := [], meas := [], header := [] } ∧ t.m = { Mod.init with host := s.m.host, free := s.m.free, agenda := s.m.agenda, cur := s.m.cur })
    ∧ (∃ t, exec .moduleReset s = .next t ∧ t.rom = { s.rom with held := true, sram := [], images := [], failed := [], up := [], meas := [], header := [] } ∧ t.m = { Mod.init with host := s.m.host, free := s.m.free, agenda := s.m.agenda, cur := s.m.cur })
    ∧ (s.rom.held = true → ∃ t, exec .computeDieResetRelease s = .next t ∧ t.rom = { s.rom with held := false, sram := [], images := [], failed := [], up := [], meas := [], header := [] } ∧ t.m = { Mod.init with host := s.m.host, free := s.m.free, agenda := s.m.agenda, cur := s.m.cur } ∧ ∀ g, (t.die g).keyc = 0)
    ∧ (s.rom.held = false → exec .computeDieResetRelease s = .fault .notEnabled)
    ∧ (∀ (g : Nat),
      s.rom.held = false → g < s.rom.variant.ndie → g ∉ s.rom.sram → ∃ t, exec (.sramInitComplete g) s = .next t ∧ t.rom = { s.rom with sram := g :: s.rom.sram } ∧ (t.die g).dome = [] ∧ (t.die g).keyc = (s.die g).keyc ∧ (∀ c ∈ coresOf g, (t.core c).store = [] ∧ (t.core c).acc = []) ∧ (∀ c, c ∉ coresOf g → t.core c = s.core c) ∧ ∀ x, x ≠ g → t.die x = s.die x)
    ∧ (∀ (g : Nat) (link : Link) (ok : Bool) (repaired : BitVec 8) (latency : BitVec 16) (holdLatency farMin farMax : BitVec 8),
      s.trainDue g link true repaired farMin farMax = true → ok = true → ∃ t, exec (.linkTrainingComplete g link ok repaired latency holdLatency farMin farMax) s = .next t ∧ t.trained g link = true ∧ (t.die g).linkOf link = some { lat := latency.toNat, vmin := farMin.toNat, vmax := farMax.toNat, lanes := repaired.toNat } ∧ (link = .spanIn → bits ((t.die g).reg 0x0248) 15 0 = latency.toNat) ∧ (link = .chordIn → bits ((t.die g).reg 0x0248) 31 16 = latency.toNat) ∧ (link = .bridgeIn → bits ((t.die g).reg 0x0248) 39 32 = holdLatency.toNat) ∧ (s.m.bootStep ≠ 9 → ∀ x, x ≠ g → t.die x = s.die x) ∧ (∀ x, x ≠ g → x ≠ 0 → ∃ n, t.die x = (s.die x).onRing (fun r => { r with heardAt := n })) ∧ t.rom = s.rom)
    ∧ (∀ (g : Nat) (link : Link) (ok : Bool) (repaired : BitVec 8) (latency : BitVec 16) (holdLatency farMin farMax : BitVec 8),
      s.trainDue g link false repaired farMin farMax = true → ok = false → ∃ t, exec (.linkTrainingComplete g link ok repaired latency holdLatency farMin farMax) s = .next t ∧ t.trained g link = s.trained g link ∧ (t.die g).attempted link = true ∧ (s.m.bootStep ≠ 9 → (t.die g).win = (s.die g).win) ∧ (s.m.bootStep ≠ 9 → ∀ x, x ≠ g → t.die x = s.die x) ∧ (∀ x, x ≠ g → x ≠ 0 → ∃ n, t.die x = (s.die x).onRing (fun r => { r with heardAt := n })) ∧ t.rom = s.rom)
    ∧ (∀ (g : Nat) (src : ImageSource) (image : List Byte),
      let a := bits (Config.freeBits s.m.free) 31 0 % (2 ^ 30 - image.length + 1);
      s.relayDue g src image = true → ∃ t, exec (.bootImageRelay g src image) s = .next t ∧ t.rom = { s.rom with images := tabPut g image s.rom.images } ∧ (∀ x, t.byteIn (.dome g) x = if a ≤ x ∧ x < a + image.length then image.getD (x - a) 0 else s.byteIn (.dome g) x) ∧ (∀ x, x ≠ g → t.die x = s.die x) ∧ t.m.cores = s.m.cores)
    ∧ (∀ (g : Nat) (image : List Byte),
      s.verifyDue g = true → s.bootImage g = some image → s.rom.accepts image = true → 64 ≤ bootLen image → ∃ t, exec (.bootImageVerify g) s = .next t ∧ t.rom = { s.rom with up := g :: s.rom.up, header := tabPut g (BitVec.ofNat 512 (natOfBytes (image.take 64))) s.rom.header, meas := tabPut g (measured (tabGet 0 g s.rom.meas) (image.take (bootLen image))) s.rom.meas } ∧ ((t.die 0).reg 0x0628).getLsbD (16 + g) = true)
    ∧ (∀ (g : Nat),
      s.verifyDue g = true → (s.bootImage g).all (fun l => !s.rom.accepts l) = true → ∃ t, exec (.bootImageVerify g) s = .next t ∧ t.rom = { s.rom with failed := g :: s.rom.failed } ∧ ((t.die 0).reg 0x0628).getLsbD (32 + g) = true)
    ∧ (∀ (g : Nat) (tj : BitVec 16),
      s.rom.held = false → g < s.rom.variant.ndie → (s.die g).thermAt ≤ (s.die g).keyc → 110 * 128 ≤ tj.toInt → ∃ t, exec (.thermalMeasurement g tj) s = .next t ∧ t.rom = { s.rom with held := true, sram := [], images := [], failed := [], up := [], meas := [], header := [] } ∧ t.m = { Mod.init with host := s.m.host, free := s.m.free, agenda := s.m.agenda, cur := s.m.cur })
    ∧ (∀ (g : Nat) (tj : BitVec 16),
      s.rom.held = false → g < s.rom.variant.ndie → (s.die g).thermAt ≤ (s.die g).keyc → tj.toInt < 110 * 128 → ∃ t, exec (.thermalMeasurement g tj) s = .next t ∧ bits ((t.die g).reg 0x0108) 15 0 = tj.toNat ∧ ((t.die g).reg 0x0108).getLsbD 17 = (decide (95 * 128 ≤ tj.toInt) || ((s.die g).reg 0x0108).getLsbD 17) ∧ (t.die g).warnings = (s.die g).warnings + (if 95 * 128 ≤ tj.toInt then 1 else 0) ∧ (t.die g).thermAt = (s.die g).keyc + 1024 ∧ t.rom = s.rom ∧ t.m.cores = s.m.cores ∧ ∀ x, x ≠ g → t.die x = s.die x)

/-- R24, R57, R59 to R64, R105, R118, R143, R147, R149, R150, R209, R256, R387: the writes that reach the register windows, the queues and the TLB from outside the cores. DESIGN CHOICE (log 35): a rewrite that would make a far entry one that R139 does not allow is refused. -/
def Obligations.RegisterAndQueueWrites : Prop :=
  ∀ s : State,
    (∀ (q : BitVec 4) (value : Word) (secure : Bool),
      (s.qreg (0x0408 + 16 * q.toNat)).getLsbD 31 = true → secure = false → exec (.sqTailWrite q value secure) s = .next (s.onDie 0 (·.count 0x0628 63 48 1)))
    ∧ (∀ (q : BitVec 4) (value : Word) (secure : Bool),
      ((s.qreg (0x0408 + 16 * q.toNat)).getLsbD 31 = true → secure = true) → s.sqEn q.toNat = true → bits value 15 0 < 2 ^ s.sqLog q.toNat → exec (.sqTailWrite q value secure) s = .next (s.setQreg (0x0500 + 8 * q.toNat) (BitVec.ofNat 64 (bits value 15 0))))
    ∧ (∀ (q : BitVec 4) (value : Word) (secure : Bool),
      ((s.qreg (0x0408 + 16 * q.toNat)).getLsbD 31 = true → secure = true) → ¬(s.sqEn q.toNat = true ∧ bits value 15 0 < 2 ^ s.sqLog q.toNat) → exec (.sqTailWrite q value secure) s = .next s)
    ∧ (∀ (value : Word),
      2 ^ bits (s.qreg 0x0608) 4 0 ≤ value.toNat → exec (.cqHeadWrite value) s = .next s)
    ∧ (∀ (value : Word),
      value.toNat < 2 ^ bits (s.qreg 0x0608) 4 0 → ∃ t, exec (.cqHeadWrite value) s = .next t ∧ t.qreg 0x0610 = value ∧ t.rom = s.rom ∧ t.m.cores = s.m.cores ∧ t.m.recs = s.m.recs)
    ∧ (∀ (g : Nat) (value : Word),
      g < s.rom.variant.ndie → value.toNat < 2 ^ (s.die g).fqLog → exec (.fqHeadWrite g value) s = .next (s.onDie g (·.setReg 0x0A10 value)))
    ∧ (∀ (g : Nat) (value : Word),
      g < s.rom.variant.ndie → 2 ^ (s.die g).fqLog ≤ value.toNat → exec (.fqHeadWrite g value) s = .next s)
    ∧ (∀ (g : Nat) (value : Word),
      s.rom.variant.ndie ≤ g → exec (.fqHeadWrite g value) s = .fault .noSuchUnit)
    ∧ (∀ (g : Nat) (off : BitVec 16) (value : Word) (wr : Writer),
      g < s.rom.variant.ndie → s.reaches g wr = true → off.toNat % 8 = 0 → exec (.registerWrite g off value wr) s = s.writeWindow g off.toNat value wr)
    ∧ (∀ (g : Nat) (off : BitVec 16) (value : Word) (wr : Writer),
      g < s.rom.variant.ndie → (s.reaches g wr = false ∨ off.toNat % 8 ≠ 0) → exec (.registerWrite g off value wr) s = .next s)
    ∧ (∀ (g : Nat) (off : BitVec 16) (value : Word) (wr : Writer),
      g < s.rom.variant.ndie → ∃ t, exec (.registerWrite g off value wr) s = .next t ∧ (s.reaches g wr = true → off.toNat % 8 = 0 → off = 0x0108 → value.getLsbD 17 = true → ((t.die g).reg 0x0108).getLsbD 17 = false) ∧ (s.reaches g wr = true → wr = .lantern → off = 0x0900 → (s.die g).kvEn = false → (t.die g).reg 0x0900 = value))
    ∧ (∀ (g : Nat) (msg : Option SpokeIn),
      g < s.rom.variant.ndie → g % 4 = 0 → s.trained g .spoke = true → msg = none → exec (.spokeMessage g msg) s = .next s)
    ∧ (∀ (g : Nat) (msg : Option SpokeIn) (sq : BitVec 4) (v : Word),
      0 < s.rom.variant.ndie → s.trained 0 .spoke = true → g = 0 → msg = some (.tail sq v) → exec (.spokeMessage g msg) s = exec (.sqTailWrite sq v true) s)
    ∧ (∀ (g : Nat) (msg : Option SpokeIn) (off : BitVec 16) (v : Word),
      g < s.rom.variant.ndie → g % 4 = 0 → s.trained g .spoke = true → msg = some (.reg off v) → exec (.spokeMessage g msg) s = exec (.registerWrite g off v .hostSecure) s)
    ∧ (0 < s.m.lead.unsignalled → s.m.lead.firstAt + 2 ^ 16 ≤ (s.die s.m.lead.die).keyc → exec .cqInterruptTimer s = .next { s with m := { s.m with lead := { s.m.lead with unsignalled := 0, msi := s.m.lead.msi + 1 } } })
    ∧ (∀ (g : Nat),
      (s.die g).kvEn = true → exec (.kvUnitDisable g) s = .next (s.onDie g (·.setField 0x0920 0 0 0)))
    ∧ (∀ (g : Nat) (va leaf : Word) (key : Nat),
      (s.die g).leafKey va.toNat = some key → leafFixed (tabGet 0 key (s.die g).tlb) ≠ leafFixed leaf → exec (.tlbRewrite g va leaf) s = .next s)
    ∧ (∀ (g : Nat) (va leaf : Word) (key : Nat),
      (s.die g).leafKey va.toNat = some key → leafFixed (tabGet 0 key (s.die g).tlb) = leafFixed leaf → (bits va 63 62 ≠ 1 → lPpn leaf + (if lG leaf then 31 else 0) ≤ 0x3FFF) → (lG leaf = true → lPpn leaf % 32 = 0) → (bits va 63 62 = 1 → lA leaf = false ∧ lRap leaf = false) → (if lA leaf then (s.localDie (lTarget leaf)).isSome = true else lTarget leaf = 0) → s.attrClash g key leaf (some (g, key)) = false → exec (.tlbRewrite g va leaf) s = .next (s.onDie g (fun d => if s.leafBusy g key (tabGet 0 key d.tlb) = true ∨ d.rewrites.any (fun e => e.1 = key) = true then { d with rewrites := d.rewrites ++ [(key, leaf)] } else { d with tlb := tabPut key leaf d.tlb })))
    ∧ (∀ (g : Nat) (va leaf : Word) (key : Nat),
      (s.die g).leafKey va.toNat = some key → bits va 63 62 = 1 → (lA leaf = true ∨ lRap leaf = true) → exec (.tlbRewrite g va leaf) s = .next s)

/-- R21, R22, R154, R250, R254 to R257, R277: fault records enter their queue, handler actions act or are counted, the scrubber reads, and words that are no instructions raise their fault. The model's choices in it: what a scrub read finds is a free value (log 9), and so is what an uncorrectable word then holds; accumulator words are numbered above the core store (log 27). -/
def Obligations.FaultHandling : Prop :=
  ∀ s : State,
    (∀ (g : Nat) (f : FaultRec),
      (s.die g).fqRoom = true → (s.die g).heldFaults.head? = some f → exec (.faultRecordDelivery g) s = .next (s.onDie g (·.deliver f)))
    ∧ (∀ (g : Nat),
      ((s.die g).fqRoom = false ∨ (s.die g).heldFaults = []) → exec (.faultRecordDelivery g) s = .fault .notEnabled)
    ∧ (∀ (g : Nat) (fseq : BitVec 32),
      ((s.die g).openFault fseq.toNat).all (fun f => !s.actionOk f 0) = true → exec (.resume g fseq) s = .next (s.onDie g (·.count 0x0A28 15 0 1)))
    ∧ (∀ (g : Nat) (fseq : BitVec 32),
      ((s.die g).openFault fseq.toNat).all (fun f => !s.actionOk f 1) = true → exec (.replay g fseq) s = .next (s.onDie g (·.count 0x0A28 15 0 1)))
    ∧ (∀ (g : Nat) (fseq : BitVec 32),
      ((s.die g).openFault fseq.toNat).all (fun f => !s.actionOk f 2) = true → exec (.killRecord g fseq) s = .next (s.onDie g (·.count 0x0A28 15 0 1)))
    ∧ (∀ (g : Nat) (fseq : BitVec 32),
      ((s.die g).openFault fseq.toNat).all (fun f => !s.actionOk f 3) = true → exec (.killLaunch g fseq) s = .next (s.onDie g (·.count 0x0A28 15 0 1)))
    ∧ (∀ (g : Nat) (fseq : BitVec 32) (f : FaultRec),
      (s.die g).openFault fseq.toNat = some f → s.actionOk f 0 = true → f.code ≠ 0x0B → f.code ≠ 0x0E → (s.core f.core).running = f.ofRec → ∃ t, exec (.resume g fseq) s = .next t ∧ ((t.core f.core).stopAt = none ∧ ((t.core f.core).a.nextIssue = s.ccyc f.core + 1 ∧ (t.core f.core).x.nextIssue = s.ccyc f.core + 1) ∧ (t.core f.core).a.group = (t.core f.core).x.group ∧ (t.core f.core).a.regs = (s.core f.core).a.regs ∧ (t.core f.core).x.regs = (s.core f.core).x.regs ∧ (t.core f.core).store = (s.core f.core).store) ∧ ∀ c, c ≠ f.core → t.core c = s.core c)
    ∧ (∀ (g : Nat) (fseq : BitVec 32) (f : FaultRec) (x : Cmd) (l : List Cmd),
      let p : State := s.onDie g (fun d => { d with openFaults := d.openFaults.filter (fun x => bits x.raw 127 96 ≠ fseq.toNat) });
      (s.die g).openFault fseq.toNat = some f → s.actionOk f 0 = true → f.code = 0x0B → (s.core f.core).engQueue 1 = x :: l → f.ofRec = some x.ofRec → exec (.resume g fseq) s = .next (p.onCore f.core (fun k => { k.setEngQueue 1 (x.unstamped :: l) with engHold := k.engHold.filter (· ≠ 1) })))
    ∧ (∀ (x : Cmd) (g cd a b : BitVec 4) (xx sg : BitVec 1) (t : BitVec 2) (u v : BitVec 1) (pl : BitVec 3) (i : BitVec 1),
      (x.ins = .mma g cd a b xx sg t u v pl i → x.unstamped = { x with ins := .mma g cd a b xx 0 t u v pl i }) ∧ (x.ins = .mzero g cd sg → x.unstamped = { x with ins := .mzero g cd 0 }))
    ∧ (∀ (g : Nat) (fseq : BitVec 32) (f : FaultRec),
      let p : State := s.onDie g (fun d => { d with openFaults := d.openFaults.filter (fun x => bits x.raw 127 96 ≠ fseq.toNat) });
      (s.die g).openFault fseq.toNat = some f → s.actionOk f 0 = true → f.code = 0x0E → (s.core f.core).jobs.any (fun j => j.eng = 0 && some j.id = f.job && j.st = .faulted) = true → exec (.resume g fseq) s = .next (p.onCore f.core (fun k => { k with engHold := k.engHold.filter (· ≠ 0), jobs := k.jobs.map (fun j => if j.eng = 0 ∧ some j.id = f.job ∧ j.st = .faulted then { j with st := .waiting } else j) })))
    ∧ (∀ (g : Nat) (fseq : BitVec 32) (f : FaultRec),
      let p : State := s.onDie g (fun d => { d with openFaults := d.openFaults.filter (fun x => bits x.raw 127 96 ≠ fseq.toNat) });
      (s.die g).openFault fseq.toNat = some f → s.actionOk f 1 = true → exec (.replay g fseq) s = .next (p.onCore f.core (fun k => { k with sideLog := sendFirst f.page k.sideLog })))
    ∧ (∀ (g : Nat) (fseq : BitVec 32) (f : FaultRec),
      (s.die g).openFault fseq.toNat = some f → s.actionOk f 2 = true → ∃ t, exec (.killRecord g fseq) s = .next t ∧ (t.die g).openFault fseq.toNat = none)
    ∧ (∀ (g : Nat) (fseq : BitVec 32) (f : FaultRec) (n : Nat),
      let p : State := s.onDie g (fun d => { d with openFaults := d.openFaults.filter (fun x => bits x.raw 127 96 ≠ fseq.toNat) });
      (s.die g).openFault fseq.toNat = some f → s.actionOk f 2 = true → f.ofRec = some n → exec (.killRecord g fseq) s = .next ((p.killRec n f.code).settle))
    ∧ (∀ (g : Nat) (fseq : BitVec 32) (f : FaultRec) (n : Nat) (r : Rec),
      let p : State := s.onDie g (fun d => { d with openFaults := d.openFaults.filter (fun x => bits x.raw 127 96 ≠ fseq.toNat) });
      (s.die g).openFault fseq.toNat = some f → s.actionOk f 3 = true → f.ofRec = some n → p.record? n = some r → ((p.killRec n f.code).launch? r.launch).map (·.active) = some true → exec (.killLaunch g fseq) s = .next ((p.killRec n f.code).faultLaunch r.launch f.code).settle)
    ∧ (∀ (tg : ScrubTarget) (addr : Nat),
      scrubDie tg < s.rom.variant.ndie → addr < scrubSize tg → s.rom.held = false → s.rom.sram.contains (scrubDie tg) = true → s.scrubIdle tg addr = true → s.wordBad tg addr = false → ∃ t, exec (.scrubRead tg addr) s = .next t ∧ t.m.free = s.m.free + 1 ∧ t.rom = s.rom ∧ t.m.host = s.m.host ∧ (∀ x, ¬(tg = .dome x) → (t.die x).dome = (s.die x).dome) ∧ (∀ x, ¬(tg = .store x) → (t.core x).store = (s.core x).store) ∧ (∀ x, ¬(tg = .acc x) → (t.core x).acc = (s.core x).acc))
    ∧ (∀ (tg : ScrubTarget) (addr : Nat),
      scrubDie tg < s.rom.variant.ndie → addr < scrubSize tg → s.rom.held = false → s.rom.sram.contains (scrubDie tg) = true → s.scrubIdle tg addr = true → s.wordBad tg addr = true → exec (.scrubRead tg addr) s = .next (s.raiseFor (scrubDie tg) (scrubDie tg * 64) none { code := .eccUncorrectable, cause := scrubDie tg * 2 ^ 32 + 8 * (addr / 8 + match tg with | .acc _ => 2 ^ 18 | _ => 0), kind := 4 } none none 0))
    ∧ (∀ (word : BitVec 32) (f : FaultCode),
      wordFault word s.m.cur.side (s.seq s.m.cur) s.rom.variant = some f → s.canIssue s.m.cur = true → exec (.nonInstructionWord word) s = .next (s.raisePrecise s.m.cur word { code := f }))
    ∧ (∀ (word : BitVec 32),
      wordFault word s.m.cur.side (s.seq s.m.cur) s.rom.variant = none → exec (.nonInstructionWord word) s = .fault .noSequencer)

/-- R107, R112 to R117, R119, R138, R321: when results, waits, replies, messages and freezes of a cluster take effect. -/
def Obligations.ClusterEvents : Prop :=
  ∀ s : State,
    (∀ (c : Nat),
      s.latencyDue c = true → s.frozen (clusterOf c) = true → exec (.latencyElapsed c) s = .next (s.onCore c (·.commitDue (s.ccyc c) (s.keyc c) true)))
    ∧ (∀ (c : Nat),
      let p : State := s.onCore c (·.commitDue (s.ccyc c) (s.keyc c) false);
      s.latencyDue c = true → s.frozen (clusterOf c) = false → p.trussCanAdvance c = false → p.walkerNext c = none → (p.core c).segkDone (s.ccyc c) = none → exec (.latencyElapsed c) s = .next p)
    ∧ (∀ (c : Nat) (due r : Nat) (sd : Side) (v : Row),
      (s.core c).duePends (s.ccyc c) (s.keyc c) false = [⟨due, .sreg sd r, v⟩] → s.frozen (clusterOf c) = false → ∃ t, exec (.latencyElapsed c) s = .next t ∧ ((t.core c).seq sd).regs = memSet 0 r (v.truncate 64) ((s.core c).seq sd).regs)
    ∧ (∀ (q : SeqId),
      s.waitEnds q = true → exec (.explicitWaitComplete q) s = .next (s.onSeq q (fun sq => { sq with wait := none })))
    ∧ (∀ (q : SeqId) (k : Nat) (v : Word),
      (s.seq q).wait = some (.counter k v) → v.toNat ≤ ((s.core q.core).counter k).toNat → s.frozen (clusterOf q.core) = false → (s.core q.core).running.isSome = true → (s.core q.core).stopAt = none → exec (.explicitWaitComplete q) s = .next (s.onSeq q (fun sq => { sq with wait := none })))
    ∧ (∀ (q : SeqId) (k : Nat) (v : Word),
      (s.seq q).wait = some (.counter k v) → ((s.core q.core).counter k).toNat < v.toNat → exec (.explicitWaitComplete q) s = .fault .notEnabled)
    ∧ (∀ (c : Nat) (p : Reply),
      s.frozen (clusterOf c) = false → s.replyDue c = some p → exec (.replyWrite c) s = .next ((({ s with m := { s.m with replies := s.m.replies.erase p } }).onCore c (·.fillReply p.req p.val)).onDie (dieOf c) (·.mergeClock p.clock)))
    ∧ (∀ (c : Nat),
      s.messageDue c = true → exec (.clusterMessageArrival c) s = .next (s.onCluster (clusterOf c) (fun n => { n with msgs := n.msgs.map (fun (m : CMsg) => if m.dst = c ∧ m.arrives ≤ s.ccyc c then { m with here := true } else m) })))
    ∧ (∀ (cl : Nat),
      s.lateCauses cl ≠ [] → ∃ t, exec (.domelate cl) s = .next t ∧ t.frozen cl = true ∧ t.m.cores = s.m.cores ∧ t.rom = s.rom ∧ (t.cluster cl).ccyc = (s.cluster cl).ccyc)
    ∧ (∀ (cl : Nat),
      s.lateCauses cl = [] → exec (.domelate cl) s = .fault .notEnabled)
    ∧ (∀ (cl : Nat),
      s.frozen cl = true → (∀ f ∈ (s.cluster cl).causes, f.served = false ∧ s.causeOver f = true) → exec (.freezeEnd cl) s = .next (s.onCluster cl (fun c => { c with causes := [], frozenFor := 0 })))
    ∧ (∀ (cl : Nat),
      s.frozen cl = true → (s.cluster cl).causes.all s.causeEnded = true → exec (.freezeEnd cl) s = .next ((s.abandon ((s.cluster cl).causes.filter (fun f => s.causeStopped f && !s.causeOver f))).onCluster cl (fun c => { c with causes := [], frozenFor := 0 })))
    ∧ (∀ (l : List Freeze) (f : Freeze) (n : Nat),
      f ∈ l → f.cause = 4 → f.req = some n → (∀ r ∈ (s.abandon l).m.reqs, r.id ≠ n) ∧ (∀ r ∈ (s.abandon l).m.replies, r.req ≠ n))
    ∧ (∀ (cl : Nat),
      s.frozen cl = true → s.flim cl < (s.cluster cl).frozenFor → ∃ t, exec (.watchdog cl) s = .next t ∧ (∀ f ∈ (s.cluster cl).causes, s.causeStopped f = false → (t.core f.core).unresumable = true) ∧ (t.cluster cl).frozenFor = 0 ∧ t.rom = s.rom ∧ t.m.host = s.m.host)

/-- R15, R138, R144, R145, R154, R170: accesses at their owner, held and forwarded requests, clock beacons and side-log replay at the own die and at a remote owner. The model's choices in it: an access behind one that is held is held too, and one that passes its checks joins its core's side log behind an older access to its page (log 32); effects at the owner are one step (log 7), and a replayed access is translated afresh and performed by its owner as any other (log 11). -/
def Obligations.OwnerEvents : Prop :=
  ∀ s : State,
    (∀ (src dst : Nat) (r : Req),
      s.m.reqs.find? (fun r => r.src = src && r.owner = dst && r.at_ = .sent) = some r → s.m.excluded.contains dst = true → exec (.ownerAccess src dst) s = .next (s.dropReq r.id))
    ∧ (∀ (src dst : Nat) (r : Req),
      let p : State := if src ≠ dst ∧ r.op.writes = true then s.onDie dst (·.heard src (tabGet 0 src r.clock)) else s;
      s.m.reqs.find? (fun r => r.src = src && r.owner = dst && r.at_ = .sent) = some r → s.m.excluded.contains dst = false → (s.route src dst).isSome = true → p.covered dst src r.clock = true → p.behindHeld r = false → p.takeWaits r = false → exec (.ownerAccess src dst) s = .next (p.take r))
    ∧ (∀ (src dst : Nat) (r : Req),
      let p : State := if src ≠ dst ∧ r.op.writes = true then s.onDie dst (·.heard src (tabGet 0 src r.clock)) else s;
      s.m.reqs.find? (fun r => r.src = src && r.owner = dst && r.at_ = .sent) = some r → s.m.excluded.contains dst = false → (s.route src dst).isSome = true → (p.covered dst src r.clock = false ∨ p.behindHeld r = true ∨ p.logWaits r = true) → exec (.ownerAccess src dst) s = .next (p.putReq { r with at_ := .clockHeld }))
    ∧ (∀ (src dst : Nat) (r : Req),
      s.m.reqs.find? (fun r => r.src = src && r.owner = dst && r.at_ = .sent) = some r → s.m.excluded.contains dst = false → s.route src dst = none → exec (.ownerAccess src dst) s = .fault .notEnabled)
    ∧ (∀ (r : Req) (l : Word),
      s.joinsLog r = false → s.ownerCheck r.owner r.src (s.rom.secureCore r.core) r.op.needs.1 r.op.needs.2.1 r.op.needs.2.2 r.va.toNat = .ok l → (s.die r.owner).pierPending r.va.toNat = false → lA l = false → s.take r = s.perform r r.owner (physOf l r.va.toNat))
    ∧ (∀ (r : Req) (f : FaultCode),
      s.ownerCheck r.owner r.src (s.rom.secureCore r.core) r.op.needs.1 r.op.needs.2.1 r.op.needs.2.2 r.va.toNat = .error f → s.take r = s.ownerFault r f)
    ∧ (∀ (r : Req) (l : Word),
      s.ownerCheck r.owner r.src (s.rom.secureCore r.core) r.op.needs.1 r.op.needs.2.1 r.op.needs.2.2 r.va.toNat = .ok l → s.joinsLog r = true → s.take r = s.enterLog r 0)
    ∧ (∀ (src dst : Nat) (r : Req),
      s.m.reqs.find? (fun r => r.src = src && r.owner = dst && r.at_ = .clockHeld) = some r → s.covered dst src r.clock = true → s.takeWaits r = false → exec (.heldAccessRelease src dst) s = .next (s.take r))
    ∧ (∀ (src dst : Nat) (r : Req),
      s.m.reqs.find? (fun r => r.src = src && r.owner = dst && r.at_ = .clockHeld) = some r → (s.covered dst src r.clock = false ∨ s.takeWaits r = true) → exec (.heldAccessRelease src dst) s = .fault .notEnabled)
    ∧ (∀ (src dst : Nat) (r : Req) (pa : Nat),
      s.m.reqs.find? (fun r => r.owner = src && (match r.at_ with | .forwarded d _ => d = dst | _ => false)) = some r → r.at_ = .forwarded dst pa → (s.route src dst).isSome = true → exec (.apertureRequest src dst) s = .next (s.perform r dst pa))
    ∧ (∀ (g : Nat),
      tabGet 0 g (s.die g).vc ≠ (s.die g).beaconed → ∃ t, exec (.clockBeaconSend g) s = .next t ∧ (t.die g).beaconed = tabGet 0 g (s.die g).vc ∧ t.m.beacons = s.m.beacons ++ ((List.range s.rom.variant.ndie).filter (· != g)).map (fun d => (⟨g, d, tabGet 0 g (s.die g).vc⟩ : Beacon)) ∧ t.rom = s.rom ∧ t.m.cores = s.m.cores)
    ∧ (∀ (src dst : Nat) (b : Beacon),
      let p : State := s.onDie dst (·.heard src b.count);
      s.beaconReady src dst = some b → exec (.clockBeaconReceive src dst) s = .next { p with m := { p.m with beacons := p.m.beacons.erase b } })
    ∧ (∀ (c : Nat) (e : SideEntry) (r : Req),
      (s.core c).replaying = some e → s.m.reqs.find? (fun r => r.id = e.req && r.at_ = .logged) = some r → s.m.excluded.contains r.owner = true → exec (.sideLogReplayStep c) s = .next (s.loseAccess r))
    ∧ (∀ (c : Nat) (e : SideEntry) (r : Req),
      (s.core c).replaying = some e → s.m.reqs.find? (fun r => r.id = e.req && r.at_ = .logged) = some r → s.m.excluded.contains r.owner = false → r.owner = dieOf c → s.behindSent r = false → s.rewriteWaits r.owner r.va.toNat = false → exec (.sideLogReplayStep c) s = .next (s.take { r with clock := [] }))
    ∧ (∀ (c : Nat) (e : SideEntry) (r : Req),
      let p : State := if r.op.writes then s.onDie (dieOf c) (·.tickClock (dieOf c)) else s;
      let clock := (p.die (dieOf c)).vc;
      let t : State := if r.op.writes then p.onDie r.owner (·.heard (dieOf c) (tabGet 0 (dieOf c) clock)) else p;
      (s.core c).replaying = some e → s.m.reqs.find? (fun r => r.id = e.req && r.at_ = .logged) = some r → s.m.excluded.contains r.owner = false → r.owner ≠ dieOf c → (s.route (dieOf c) r.owner).isSome = true → s.behindSent r = false → s.rewriteWaits r.owner r.va.toNat = false → s.covered r.owner (dieOf c) clock = true → exec (.sideLogReplayStep c) s = .next (t.take { r with clock := clock }))
    ∧ (∀ (c : Nat) (e : SideEntry) (r : Req),
      (s.core c).replaying = some e → s.m.reqs.find? (fun r => r.id = e.req && r.at_ = .logged) = some r → s.m.excluded.contains r.owner = false → (s.behindSent r = true ∨ s.rewriteWaits r.owner r.va.toNat = true) → exec (.sideLogReplayStep c) s = .fault .notEnabled)

/-- R41, R86 to R88, R95 to R105, R261, R262: starting, retiring, saving and restoring records, pre-emption, lateness and dispatch.
A header is taken once, launch by launch; a launch's candidates are ordered by effective deadline and index, those past the
batch limit miss, the batch is admitted if the retention deadline allows its budget, and then the segment is retained and the
tag's records are ready with the first slot's deadline. That slots of a dispatched batch are no candidates is the model's
reading (log 22). -/
def Obligations.SchedulerEvents : Prop :=
  ∀ s : State,
    (∀ (c : Nat) (n : Nat) (r : Rec),
      s.frozen (clusterOf c) = false → (s.core c).running = none → s.best c = some (n, r) → (s.launch? r.launch).isSome = true → r.fresh = true → ∃ t, exec (.recordStart c) s = .next t ∧ (t.core c).running = some n ∧ ((t.core c).a.pc = sectAddr r.raw .a (if recPro r.raw then .prologue else .kernel) ∧ (t.core c).x.pc = sectAddr r.raw .x (if recPro r.raw then .prologue else .kernel)) ∧ (t.core c).a.group = (t.core c).x.group ∧ (t.core c).vtype = 0 ∧ (t.core c).desc = [] ∧ (t.core c).a.s 4 = BitVec.ofNat 64 (bits r.raw 63 0))
    ∧ (∀ (c : Nat) (n : Nat) (r : Rec) (ctx : List Byte),
      s.frozen (clusterOf c) = false → (s.core c).running = none → s.best c = some (n, r) → (s.launch? r.launch).isSome = true → r.fresh = false → s.readDome (dieOf c) (s.rom.secureCore c) (bits r.raw 511 448) (ctxLen r.raw) = .ok ctx → ∃ t, exec (.recordStart c) s = .next t ∧ (t.core c).running = some n ∧ (t.core c).a.iter = r.iters ∧ (t.core c).a.s 7 = BitVec.ofNat 64 (natOfBytes ((ctx.drop 0x78).take 8)))
    ∧ (∀ (c : Nat) (n : Nat) (r : Rec),
      s.frozen (clusterOf c) = false → s.canRetire c = true → s.runningRec c = some (n, r) → exec (.recordRetire c) s = .next (((s.vacate c).finalRec n r .retired 0 0).settle))
    ∧ (∀ (c : Nat) (n : Nat) (r : Rec),
      s.frozen (clusterOf c) = false → s.canSave c = true → s.runningRec c = some (n, r) → r.cancel = true → exec (.contextSave c) s = .next (((s.vacate c).finalRec n r .cancelled 6 0).settle))
    ∧ (∀ (c : Nat) (n : Nat) (r : Rec) (p : State),
      s.frozen (clusterOf c) = false → s.canSave c = true → s.runningRec c = some (n, r) → r.cancel = false → ((s.launch? r.launch).bind (·.tearing)).isSome = false → s.ctxEcc c r = none → s.writeDome (dieOf c) (s.rom.secureCore c) (bits r.raw 511 448) (s.context c r) = .ok p → ∃ t, exec (.contextSave c) s = .next t ∧ (t.core c).running = none ∧ (t.die (dieOf c)).reg 0x0708 = ((p.die (dieOf c)).count 0x0708 31 16 1).reg 0x0708 ∧ ∃ x, t.record? n = some x ∧ x.fresh = false ∧ x.state = (if r.cond.isSome then .waiting else .ready))
    ∧ (∀ (c : Nat),
      s.limitDue c = true → ∃ t, exec (.preemptLimit c) s = .next t ∧ (t.core c).unresumable = true ∧ (t.core c).a.regs = (s.core c).a.regs ∧ (t.core c).x.regs = (s.core c).x.regs ∧ (t.core c).store = (s.core c).store ∧ t.rom = s.rom)
    ∧ (∀ (n : Nat) (r : Rec) (k : Nat) (v : Word),
      s.record? n = some r → r.state = .waiting → r.cond = some (.counter k v) → v.toNat ≤ ((s.core r.core).counter k).toNat → exec (.yieldConditionMet n) s = .next ((s.setRecord n { r with state := .ready, cond := none }).arbitrate r.core))
    ∧ (∀ (n : Nat) (r : Rec) (k : Nat) (v : Word),
      s.record? n = some r → r.cond = some (.counter k v) → ((s.core r.core).counter k).toNat < v.toNat → exec (.yieldConditionMet n) s = .fault .notEnabled)
    ∧ (∀ (n : Nat) (r : Rec),
      s.record? n = some r → s.turnsLate r = true → exec (.recordLate n) s = .next ((s.setRecord n { r with late := true }).arbitrate r.core))
    ∧ (∀ (g : Nat) (i : Inst),
      (s.die g).ring.undispatched = some i → ((s.die g).reg 0x0700).getLsbD 0 = false → exec (.tileDispatch g) s = .next ((s.onDie g (fun d => d.onRing (fun r => { r with insts := r.insts.map (fun x => if x.first = i.first then { x with good := false } else x) }))).onDie g (·.prune)))
    ∧ (∀ (g : Nat) (i : Inst),
      (s.die g).ring.undispatched = some i → ∃ t, exec (.tileDispatch g) s = .next t
        ∧ (∀ x ∈ (t.die g).ring.insts, x.first = i.first → x.good = false) ∧ t.m.excluded = s.m.excluded ∧ t.rom = s.rom)
    ∧ (∀ (g : Nat) (i : Inst),
      let p : State := s.onDie g (fun d => d.onRing (fun r => { r with insts := r.insts.map (fun x => if x.first = i.first then { x with good := false } else x) }));
      (s.die g).ring.undispatched = some i → ((s.die g).reg 0x0700).getLsbD 0 = true →
        exec (.tileDispatch g) s = .next (((p.activeLaunches.filter (fun e => !e.2.tearing.isSome)).foldl (fun s e => s.dispatchLaunch g i e.1 e.2) p).onDie g (·.prune)))
    ∧ (∀ (g l : Nat) (i : Inst) (ln : Launch) (im : Image),
      let bk : Nat → Nat := bucketOf (s.buckets ln g);
      let recs : List (Nat × Rec512 × Nat) := s.localRecs ln g i.tag;
      let cand : List Nat := (List.range (s.slotCount ln g)).filter (fun n =>
        (s.slot l g n).stage = i.tag && ((s.slot l g n).state = 1 || (s.slot l g n).state = 2) && !(s.heldSlots l g).contains n && (s.slot l g n).skip != some (i.tag, i.turn));
      let p : State := cand.foldl (fun s n => s.onSlot l ln g n (bk n) (slotState · 1)) s;
      let order : List (Nat × Nat) := (cand.map (fun n => (effDeadline ln (p.slotEntry l ln g n (bk n)), n))).foldr insertSlot [];
      let batch : List Nat := (order.take (tvBlim (im.tagVec i.tag))).map (·.2);
      let rest : List Nat := (order.drop (tvBlim (im.tagVec i.tag))).map (·.2);
      let q : State := rest.foldl (fun s n => s.missSlot l ln g n (bk n)) p;
      let trip : Rec512 → Nat := fun r => if bits r 383 352 = 0 then batch.length else bits r 383 352;
      let need : Nat := tvBudf (im.tagVec i.tag) + (recs.map (fun r => bits r.2.1 351 320 * trip r.2.1 % 2 ^ 64)).foldl max 0;
      let u : State := batch.foldl (fun s n => s.onSlot l ln g n (bk n) (fun e => setBits e 77 77 0)) (q.onDie g (·.retain i.tag i.turn true));
      let t : State := s.dispatchLaunch g i l ln;
      s.image? ln.image = some im →
        (recs = [] → t = s) ∧ (cand = [] → t = s)
        ∧ order.Pairwise (fun x y => keyLt [y.1, y.2] [x.1, x.2] = false) ∧ (∀ n, n ∈ order.map (·.2) ↔ n ∈ cand)
        ∧ (recs ≠ [] → cand.findSome? (s.slotBad ln g) = none → (batch = [] ∨ (q.die g).retDeadline i < (q.die g).keyc + need) →
            (∀ n ∈ cand, (t.slot l g n).state = 2 ∧ (t.slot l g n).missed = true) ∧ t.m.recs = s.m.recs ∧ t.m.batches = s.m.batches
              ∧ bits (tabGet 0 0x0708 (t.die g).win) 63 48 = min (bits (tabGet 0 0x0708 (s.die g).win) 63 48 + cand.length) 0xFFFF)
        ∧ (recs ≠ [] → cand.findSome? (s.slotBad ln g) = none → batch ≠ [] → (q.die g).keyc + need ≤ (q.die g).retDeadline i →
            (∀ n ∈ batch, (t.slot l g n).state = 1 ∧ (t.slot l g n).missed = false)
              ∧ (∀ n ∈ rest, (t.slot l g n).state = 2 ∧ (t.slot l g n).missed = true)
              ∧ bits (tabGet 0 0x0708 (t.die g).win) 63 48 = min (bits (tabGet 0 0x0708 (s.die g).win) 63 48 + rest.length) 0xFFFF
              ∧ (∃ b, t.m.batches = tabPut s.m.nextBatch b s.m.batches ∧ b.launch = l ∧ b.die = g ∧ b.tag = i.tag ∧ b.turn = i.turn ∧ b.slots = batch)
              ∧ (∀ (x : Inst), (s.die g).ring.seg? i.tag i.turn = some x → (t.die g).ring = ((s.die g).onSeg x.first (fun y => { y with batches := y.batches + 1 })).ring)
              ∧ (∀ (j : Nat) (e : Nat × Rec512 × Nat), recs[j]? = some e → ∃ r, t.record? (s.m.nextRec + j) = some r ∧ r.state = .ready ∧ r.fresh = true
                  ∧ r.launch = l ∧ r.index = e.1 ∧ r.raw = e.2.1 ∧ r.core = e.2.2 ∧ r.batch = some s.m.nextBatch ∧ r.tag = i.tag ∧ r.turn = BitVec.ofNat 64 i.turn ∧ r.trip = trip e.2.1
                  ∧ some r.deadline = (batch.head?).map (fun n => effDeadline ln (u.slotEntry l ln g n (bk n))))))

/-- R28, R29, R32 to R45, R52, R53, R79, R381, R382: beats leave and arrive, hold, and the Viaduct items. That one hold raises one
HOLD_LIMIT, and what the origin does to a header that failed its check, are the model's choice (log 41); what an uncorrectable
word of the segment table does is its reading (log 27). -/
def Obligations.ViaductEvents : Prop :=
  ∀ s : State,
    (∀ (g : Nat),
      let p : State := s.onDie g (fun d => d.onRing (fun r => { r with slotAt := d.keyc + d.mode }));
      (s.die g).slotDue = true →
        ((s.die g).ring.held = true → exec (.beatSlotEgress g) s = .next p)
        ∧ ((s.die g).ring.held = false → (s.die g).ring.inserts = [] → (s.die g).ring.occupancy < (s.die g).dwell → exec (.beatSlotEgress g) s = .next p)
        ∧ ((s.die g).ring.held = false → (s.die g).ring.inserts = [] → (s.die g).dwell ≤ (s.die g).ring.occupancy → exec (.beatSlotEgress g) s = .next (p.sendOldest g))
        ∧ (∀ (x : Insertion) (l : List Insertion), (s.die g).ring.held = false → (s.die g).ring.inserts = x :: l → (s.die g).mayInsert x = true →
            (p.insertReady g x = false → exec (.beatSlotEgress g) s = .next p)
            ∧ (p.insertReady g x = true → p.insertFault g x = none → exec (.beatSlotEgress g) s = .next (p.sendInsert g x))
            ∧ (∀ f, p.insertReady g x = true → p.insertFault g x = some f →
                exec (.beatSlotEgress g) s = .next (if (p.failInsert g x f).2 then (p.failInsert g x f).1.sendInsert g x else (p.failInsert g x f).1)))
        ∧ (∀ (x : Insertion) (l : List Insertion), (s.die g).ring.held = false → (s.die g).ring.inserts = x :: l → (s.die g).mayInsert x = false →
            exec (.beatSlotEgress g) s = .next (if (s.die g).dwell ≤ (s.die g).ring.occupancy then p.sendOldest g else p)))
    ∧ (∀ (g n : Nat) (l : Link),
      (s.die g).slotDue = true → (s.die g).ring.held = false → (s.die g).ring.inserts = [] → (s.die g).dwell ≤ (s.die g).ring.occupancy →
      (s.die g).vctl 8 = false → s.downstream g = some (n, l) → n ≠ g →
      ∃ t, exec (.beatSlotEgress g) s = .next t ∧ (t.die g).ring.sent = (s.die g).ring.sent + 1
        ∧ (t.die n).ring.link = (s.die n).ring.link ++ [((s.die n).keyc + (s.die n).latOf l, (s.die g).asSent (s.oldestBeat g).1)]
        ∧ (t.die g).dome = (s.die g).dome ∧ t.rom = s.rom ∧ t.m.cores = s.m.cores)
    ∧ (∀ (g : Nat), (s.die g).slotDue = false → exec (.beatSlotEgress g) s = .fault .notEnabled)
    ∧ (∀ (g : Nat) (b : Beat),
      (s.die g).arrived = some b → b.kind = 1 → ((s.die g).headerChecks b.head ≠ (false, false) ∨ hTag b.head ≠ 0) →
      ∃ t, exec (.headerBeatWrite g) s = .next t ∧ (t.die g).ring.link = (s.die g).ring.link.tail ∧ (t.die g).ring.written = (s.die g).ring.written + 1
        ∧ (t.die g).ring.crc = 0xFFFFFFFF
        ∧ ((s.die g).headerChecks b.head = (false, false) → (t.die g).ring.expect = some ((s.die g).advance (hTag b.head, hTurn b.head)))
        ∧ (∃ l i, (t.die g).ring.insts = l ++ [i] ∧ i.first = (s.die g).ring.written ∧ i.written = 1 ∧ i.pcrc = hPcrc b.head
            ∧ i.good = (!((s.die g).headerChecks b.head).1 && !((s.die g).headerChecks b.head).2 && ((s.die g).segEcc g (hTag b.head)).isNone)
            ∧ ((s.die g).headerChecks b.head = (false, false) → i.tag = hTag b.head ∧ i.turn = hTurn b.head ∧ i.beats = 1 + hLen b.head / 2048))
        ∧ t.rom = s.rom)
    ∧ (∀ (g : Nat) (b : Beat),
      (s.die g).arrived = some b → b.kind = 1 → ∃ t, exec (.headerBeatWrite g) s = .next t)
    ∧ (∀ (g : Nat) (b : Beat),
      (s.die g).arrived = some b → b.kind = 2 → (s.die g).ring.insts.getLast?.all (fun i => decide (i.written + 1 < i.beats) || decide (i.beats ≤ i.written)) = true →
      ∃ t, exec (.payloadBeatWrite g) s = .next t ∧ (t.die g).ring.link = (s.die g).ring.link.tail ∧ (t.die g).ring.written = (s.die g).ring.written + 1
        ∧ readNat (t.die g).dome ((s.die g).ring.pierPa + (s.die g).ring.written % (s.die g).cap * 2048) 2048 = b.data.toNat ∧ t.rom = s.rom ∧ t.m.cores = s.m.cores)
    ∧ (∀ (g : Nat) (b : Beat),
      (s.die g).arrived = some b → b.kind = 2 → ∃ t, exec (.payloadBeatWrite g) s = .next t)
    ∧ (∀ (g h : Nat) (t : Nat) (l : List (Nat × Nat)),
      (s.die g).ring.holdIn = (t, h) :: l → t ≤ (s.die g).keyc →
      exec (.holdValueReceive g h) s = .next ((s.onDie g (fun d => (d.onRing (fun r => { r with holdIn := r.holdIn.tail, held := true })).setField 0x0208 3 3 1)).sendHold g (max (h - 1) (if (s.die g).asserts then s.m.ringN else 0))))
    ∧ (∀ (g : Nat),
      (s.die g).holdDue = true → ∃ t, exec (.holdLimit g) s = .next t ∧ (t.die g).ring.limited = true ∧ exec (.holdLimit g) t = .fault .notEnabled ∧ t.rom = s.rom ∧ t.m.host = s.m.host)
    ∧ (∀ (c : Nat) (cmd : Cmd),
      s.frozen (clusterOf c) = false → (s.core c).nextItem 6 (s.ccyc c) = some cmd → (s.die (dieOf c)).cardRoom = true → ∃ t, exec (.viaductItemStart c) s = .next t)
    ∧ (∀ (c : Nat) (cmd : Cmd),
      let r : State × Job := s.takeItem c 6 cmd 0;
      s.frozen (clusterOf c) = false → (s.core c).nextItem 6 (s.ccyc c) = some cmd → s.rom.secureUnit (dieOf c) 409 = true → s.rom.secureCore c = false →
        exec (.viaductItemStart c) s = .next (r.1.jobFault c 6 r.2 { code := .security }))
    ∧ (∀ (c : Nat) (cmd : Cmd) (gd : BitVec 4) (sv : BitVec 5) (i : Inst),
      let r : State × Job := s.takeItem c 6 cmd 0;
      s.frozen (clusterOf c) = false → (s.core c).nextItem 6 (s.ccyc c) = some cmd → (s.rom.secureUnit (dieOf c) 409 = true → s.rom.secureCore c = true) →
      bits (cmd.vals.getD 0 0) 62 48 = 0 → (cmd.vals.getD 0 0).getLsbD 63 = false →
      (s.die (dieOf c)).ring.seg? (bits (cmd.vals.getD 0 0) 15 0) (bits (cmd.vals.getD 0 0) 47 16) = some i →
        (cmd.ins = .segk gd sv → exec (.viaductItemStart c) s = .next (
          if 1 ≤ i.state ∧ i.state ≤ 3 then (r.1.onDie (dieOf c) (·.keep i.first cmd.ofRec)).onCore c (·.putJob { r.2 with done := s.ccyc c + 2 })
          else r.1.jobFault c 6 r.2 { code := .engine }))
        ∧ (cmd.ins = .segr gd sv → exec (.viaductItemStart c) s = .next (
          if i.kept.contains cmd.ofRec then (r.1.onDie (dieOf c) (·.unkeep i.first cmd.ofRec)).onCore c (·.putJob { r.2 with done := s.ccyc c + 2 })
          else r.1.jobFault c 6 r.2 { code := .engine })))
    ∧ (∀ (c : Nat) (cmd : Cmd) (gd d : BitVec 4) (sv : BitVec 5),
      let r : State × Job := s.takeItem c 6 cmd 0;
      let v : Word := cmd.vals.getD 0 0;
      let e : Nat := (s.die (dieOf c)).segEntry (bits v 15 0);
      let va : Nat := dBase (cmd.descs.getD 0 0);
      let card : List (Nat × Nat × Bool) := [(va, va + segLen e - 1, false)];
      s.frozen (clusterOf c) = false → (s.core c).nextItem 6 (s.ccyc c) = some cmd → (s.rom.secureUnit (dieOf c) 409 = true → s.rom.secureCore c = true) → cmd.ins = .segi gd d sv →
        (∀ x, (s.die (dieOf c)).segEcc (dieOf c) (bits v 15 0) = some x → exec (.viaductItemStart c) s = .next (r.1.jobFault c 6 r.2 { code := .eccUncorrectable, cause := x }))
        ∧ ((s.die (dieOf c)).segEcc (dieOf c) (bits v 15 0) = none → r.1.segiBad c cmd v = true → exec (.viaductItemStart c) s = .next (r.1.jobFault c 6 r.2 { code := .engine }))
        ∧ (∀ l, (s.die (dieOf c)).segEcc (dieOf c) (bits v 15 0) = none → r.1.segiBad c cmd v = false → (s.die (dieOf c)).cardRoom = true → (r.1.checkCards (dieOf c) (.viaduct (dieOf c)) card).2 = true →
          r.1.readDome (dieOf c) (s.rom.secureUnit (dieOf c) 409) va (segLen e) = .ok l →
          exec (.viaductItemStart c) s = .next (r.1.onDie (dieOf c) (fun d => (d.addCards (.viaduct (dieOf c)) r.2.id card).onRing (fun q => { q with inserts := q.inserts ++
            [{ tag := bits v 15 0, turn := bits v 47 16, beats := segLen e / 2048, fmt := segFmt e, va := va, staged := segLen e / 2048, sent := 0,
               far := false, byCore := some (c, r.2.id), first := false }] })))))
    ∧ (∀ (c : Nat) (j : Job),
      s.frozen (clusterOf c) = false → (s.core c).segiDone = some j → exec (.segmentInsertComplete c) s = .next (((s.onDie (dieOf c) (·.dropCards (.viaduct (dieOf c)) j.id)).endJob c 6 j).insertsEnd))

/-- R10, R12, R18, R25, R34, R48 to R53, R56, R57: link and die failures, bypass repair, re-injection and the control tokens. Where a window of retries and the heartbeat periods begin, that a failure signalled during a repair waits, and that a chord which
carries weights takes the ring down, are the model's choice, and which input link a retry is on a free value (log 41). That a link
fails at both of its ends in one step, and one beat is staged a step, are its reading (log 19), as READY once every bridge port
was tried (log 25); what passes through other modules is free (log 29). -/
def Obligations.RepairAndTokens : Prop :=
  ∀ s : State,
    (∀ (g : Nat) (link : Link), s.trained g link = true → exec (.linkFailure g link) s = .next (s.failLink g link))
    ∧ (∀ (g : Nat) (link : Link),
      s.trained g link = true → (∀ e, s.linkExcludes g link = some e → s.rom.variant.ndie ≤ e ∨ s.m.ringOrder.contains e = true ∨ s.m.excluded.contains e = true) →
        ∃ t, exec (.linkFailure g link) s = .next t ∧ t.trained g link = false
        ∧ (∀ e, s.farEnd g link = some e → t.trained e.1 e.2 = false) ∧ t.rom = s.rom ∧ t.m.cores = s.m.cores ∧ t.m.host = s.m.host)
    ∧ (∀ (g : Nat) (link : Link) (e : Nat),
      s.trained g link = true → s.linkExcludes g link = some e → e < s.rom.variant.ndie → s.m.ringOrder.contains e = false →
        ∃ t, exec (.linkFailure g link) s = .next t ∧ t.m.excluded.contains e = true ∧ t.rom = s.rom)
    ∧ (∀ (g : Nat),
      s.inputLinks g ≠ [] → ∃ l ∈ s.inputLinks g,
        let p : State := s.freeValue.2.onDie g (fun d => (d.count 0x0240 63 48 1).onRing (fun r =>
          let old := if r.windowAt = (s.die g).keyc / 2 ^ 20 then r.retries else []
          { r with retries := tabPut (linkNo l) (tabGet 0 (linkNo l) old + 1) old, windowAt := (s.die g).keyc / 2 ^ 20 }));
        exec (.linkRetry g) s = .next (if 4096 < tabGet 0 (linkNo l) (p.die g).ring.retries then p.failLink g l else p))
    ∧ (∀ (g : Nat),
      bits ((s.die g).reg 0x0100) 23 20 ≠ 0 → exec (.fecCodewordDrop g) s = .next (s.onDie g (fun d => d.onRing (fun r => { r with fecDrops := r.fecDrops + 1 }))))
    ∧ (∀ (g : Nat),
      s.heartbeatDue g = true → ∃ t, exec (.lanternHeartbeat g) s = .next t ∧ (t.die g).ring.beatAt = (s.die g).keyc
        ∧ (∀ n l, s.downstream g = some (n, l) → s.upstream n = some g → (t.die n).ring.heardAt = (s.die n).keyc) ∧ t.rom = s.rom ∧ t.m.cores = s.m.cores)
    ∧ (∀ (g : Nat) (u : Nat),
      s.upstream g = some u → s.timeoutDue g = true →
        (s.m.ringOrder.contains u = true → exec (.heartbeatTimeout g) s = .next { s with m := { s.m with failing := s.m.failing ++ [s.bypassed u] } })
        ∧ (s.m.ringOrder.contains u = false → s.m.excluded.contains u = false → exec (.heartbeatTimeout g) s = .next (s.excludeDie u).settle))
    ∧ (∀ (f : Nat),
      s.m.failing.head? = some f → (s.ringState = 1 ∨ s.ringState = 6) →
        exec (.ringFailureDetect f) s = .next (if s.repairable f then s.setRingState 2 else s.ringDown.settle))
    ∧ (∀ (f : Nat) (l : List Nat),
      s.m.failing = f :: l → s.ringState = 2 → f < s.rom.variant.ndie →
        ∃ t, exec .repairSwitch s = .next t ∧ t.m.excluded = s.m.excluded ++ [f] ∧ f ∉ t.m.ringOrder ∧ t.rom = s.rom)
    ∧ (∀ (f : Nat) (l : List Nat), s.m.failing = f :: l → s.ringState = 2 → ∃ t, exec .repairSwitch s = .next t)
    ∧ (s.ringState = 3 → ((s.rom.variant = .gl4 ∧ s.m.excluded.contains 0 = true) ∨ s.newDwells.all (fun e => s.geomOk e.1 e.2) = false) →
        exec .repairRebalance s = .next (s.ringDown.settle))
    ∧ (s.ringState = 3 → ∃ t, exec .repairRebalance s = .next t ∧ t.m.excluded = s.m.excluded ∧ t.m.ringOrder = s.m.ringOrder ∧ t.rom = s.rom)
    ∧ (∀ (g : Nat) (x : Insertion) (l : List Byte),
      (s.die g).ring.toStage = some x → s.readVa g true (segImg ((s.die g).segEntry x.tag) + x.staged * 2048) 2048 = .ok l →
        ∃ t, exec (.reinjection g) s = .next t ∧ (t.die g).ring.stagedBytes = (s.die g).ring.stagedBytes + 2048 ∧ t.rom = s.rom)
    ∧ (∀ (g : Nat) (x : Insertion) (e : FaultCode × Nat),
      (s.die g).ring.toStage = some x → s.readVa g true (segImg ((s.die g).segEntry x.tag) + x.staged * 2048) 2048 = .error e →
        exec (.reinjection g) s = .next s.ringDown.settle)
    ∧ (∀ (g : Nat) (v : Nat),
      let p : State := s.onDie g (·.dropToken);
      (s.die g).token = some (.keyc v) → g ≠ 0 →
        exec (.keycSyncToken g) s = .next ((p.onDie g (fun d => { d with keyc := v + d.latOf (p.inputLink g) })).sendToken g (.keyc (v + (p.die g).latOf (p.inputLink g)))))
    ∧ (∀ (v : Nat),
      let p : State := s.onDie 0 (·.dropToken);
      (s.die 0).token = some (.keyc v) →
        exec (.keycSyncToken 0) s = .next (({ p with m := { p.m with bootStep := 8 } } : State).sendToken 0 (.version 1 255 none)))
    ∧ (∀ (g : Nat) (lo hi : Nat) (e : Option Nat),
      let r : Nat × Nat × Option Nat := (s.die g).narrow (s.inputLink g) lo hi e;
      let p : State := s.onDie g (·.dropToken);
      (s.die g).token = some (.version lo hi e) →
        (p.tokenHome g = false → exec (.versionToken g) s = .next (p.sendToken g (.version r.1 r.2.1 r.2.2)))
        ∧ (p.tokenHome g = true → s.m.lead.config = none → exec (.versionToken g) s = .next (p.sendToken g (.commit (if r.1 ≤ r.2.1 then r.2.1 else 0))))
        ∧ (p.tokenHome g = true → s.m.lead.config ≠ none → r.1 ≤ r.2.1 → exec (.versionToken g) s = .next (p.sendToken g (.commit r.2.1)))
        ∧ (p.tokenHome g = true → s.m.lead.config ≠ none → r.2.1 < r.1 → exec (.versionToken g) s = .next (p.noRing (r.2.2.getD 0)).settle))
    ∧ (∀ (g r : Nat),
      (s.die g).token = some (.back (some r)) → exec (.versionToken g) s = .next ((s.onDie g (·.dropToken)).noRing r).settle)
    ∧ (∀ (g : Nat) (v : Nat),
      let p : State := s.onDie g (fun d => d.dropToken.setField 0x0248 63 56 v);
      (s.die g).token = some (.commit v) →
        bits ((p.die g).reg 0x0248) 63 56 = v % 256
        ∧ (p.tokenHome g = false → exec (.commitToken g) s = .next (p.sendToken g (.commit v)))
        ∧ (p.tokenHome g = true → s.m.lead.config = none →
            exec (.commitToken g) s = .next ({ p with m := { p.m with bootStep := 9 } } : State).openQueues)
        ∧ (p.tokenHome g = true → s.m.lead.config ≠ none → p.manyModules = true →
            exec (.commitToken g) s = .next (p.sendToken g (.ring (s.die g).keyc)))
        ∧ (p.tokenHome g = true → s.m.lead.config ≠ none → p.manyModules = false → exec (.commitToken g) s = .next (p.finishConfig.settle)))
    ∧ (∀ (p : State), p.m.bootStep = 9 → p.bridgesTried = true → (p.openQueues.qreg 0x0628).getLsbD 0 = true)
    ∧ (∀ (g : Nat) (v : Nat),
      (s.die g).token = some (.ring v) → s.tokenHome g = false → exec (.ringSyncToken g) s = .next (s.ringSync g v false))
    ∧ (∀ (g : Nat) (v : Nat),
      (s.die g).token = some (.ring v) → s.tokenHome g = true → exec (.ringSyncToken g) s = .next ((s.ringSync g v true).finishConfig.settle))
    ∧ (∀ (g : Nat),
      (s.die g).token = some (.back none) → exec (.ringSyncToken g) s = .next ((s.onDie g (·.dropToken)).finishConfig.settle))

/-- R79, R110, R112, R126 to R129, R175, R247, R248, R252, R301, R357 to R360, R365 to R372, R378, R384, R386 to R389: engine commands
start, release their operands and complete. What the encoder leaves in its scratch is free values (log 9). That an I/O request
starts in one step and is sent in a later one (log 18), that a walker command, a block of the encoder and a decode result are
written in one step (logs 7, 9), and how a chain goes from entry to entry (log 8) are the model's readings. -/
def Obligations.EngineEvents : Prop :=
  ∀ s : State,
    (∀ (c : Nat) (cmd : Cmd),
      let fault (cause : Nat) : State := s.engFault c 1 cmd none { code := .scheduleMiss, cause := cause, aux := cmd.stamp.toNat };
      s.frozen (clusterOf c) = false → (s.core c).matHead (s.ccyc c) = some cmd → cmd.stamped = true →
        (cmd.stamp.toNat < s.ccyc c → exec (.matrixCommandStart c) s = .next (fault 1))
        ∧ (s.ccyc c < cmd.stamp.toNat → exec (.matrixCommandStart c) s = .fault .notEnabled)
        ∧ (cmd.stamp.toNat = s.ccyc c → (s.core c).matReady (s.ccyc c) cmd.mat = false → exec (.matrixCommandStart c) s = .next (fault 2)))
    ∧ (∀ (c : Nat) (cmd : Cmd),
      let x : MCmd := cmd.mat;
      let ops : List (Nat × Range) := (if x.zero then [] else x.a.ranges c x.planes x.k) ++ (if x.zero then [] else x.b.ranges c x.planes x.k);
      let sec : Bool := !x.zero && (x.a.src.toList ++ x.b.src.toList).any (s.rom.coreSecret c);
      s.frozen (clusterOf c) = false → (s.core c).matHead (s.ccyc c) = some cmd → (cmd.stamped = true → cmd.stamp.toNat = s.ccyc c) →
      (s.core c).matReady (s.ccyc c) x = true →
        (sec = true → exec (.matrixCommandStart c) s = .next (s.engFault c 1 cmd none { code := .security })) ∧ (sec = false →
        (∀ o, s.fullChecker (s.ccyc c) ((c, x.cRange) :: ops) = some o → exec (.matrixCommandStart c) s = .next (s.freezeFull c 1 o))
        ∧ (s.fullChecker (s.ccyc c) ((c, x.cRange) :: ops) = none →
            ((s.checkAll (.matrix c) ((c, x.cRange) :: ops)).2 = false →
              exec (.matrixCommandStart c) s = .next ((s.checkAll (.matrix c) ((c, x.cRange) :: ops)).1.engFault c 1 cmd none { code := .footprint }))
            ∧ ((s.checkAll (.matrix c) ((c, x.cRange) :: ops)).2 = true →
              ∃ t, exec (.matrixCommandStart c) s = .next t ∧ (t.core c).engQueue 1 = ((s.core c).engQueue 1).tail
                ∧ (t.core c).nextJob = (s.core c).nextJob + 1 ∧ (t.core c).matrixFree = s.ccyc c + x.steps ∧ (t.core c).acc = (s.core c).acc
                ∧ ∃ j ∈ (t.core c).jobs, j.id = (s.core c).jobId c ∧ j.eng = 1 ∧ j.cmd = cmd ∧ j.st = .running ∧ j.start = s.ccyc c
                    ∧ j.release = (if x.zero || x.masked then s.ccyc c + 1 else s.ccyc c + x.relAfter) ∧ j.done = s.ccyc c + x.doneAfter))))
    ∧ (∀ (c : Nat) (j : Job),
      s.frozen (clusterOf c) = false → (s.core c).matRelease (s.ccyc c) = some j →
        ∃ t, exec (.matrixOperandRelease c) s = .next t ∧ (∀ j' ∈ (t.core c).jobs, j'.id = j.id → j'.eng = 1 → j'.released = true)
          ∧ (t.core c).acc = (s.core c).acc ∧ (t.core c).store = (s.core c).store)
    ∧ (∀ (c : Nat) (j : Job),
      s.frozen (clusterOf c) = false → (s.core c).matDone (s.ccyc c) = some j → (s.core c).running.getD j.cmd.ofRec = j.cmd.ofRec →
        ∃ t, exec (.matrixCompletion c) s = .next t ∧ (t.core c).doneNo 1 = j.cmd.tag ∧ (∀ x ∈ (t.core c).jobs, ¬(x.id = j.id ∧ x.eng = j.eng))
          ∧ (t.core c).acc = (s.core c).acc)
    ∧ (∀ (c : Nat) (cmd : Cmd) (old : Option Job) (tail : Nat) (st : Option Nat),
      s.frozen (clusterOf c) = false → (s.core c).copyCanStart (s.ccyc c) = true → (s.core c).copyItem (s.ccyc c) = some (cmd, old) →
      cmd.chain = some (tail, st) → (s.core c).chainAt st old = tail →
        exec (.copyItemStart c) s = .next (finishCopy (copyJob s c cmd old).1 c (copyJob s c cmd old).2))
    ∧ (∀ (c : Nat) (cmd : Cmd),
      let u : State := (copyJob s c cmd none).1;
      let j : Job := (copyJob s c cmd none).2;
      s.frozen (clusterOf c) = false → (s.core c).copyCanStart (s.ccyc c) = true → (s.core c).copyItem (s.ccyc c) = some (cmd, none) → cmd.chain = none →
        (∀ f, u.copySnap c cmd 0 = .error f → exec (.copyItemStart c) s = .next (faultCopy u c j f))
        ∧ (∀ v, u.copySnap c cmd 0 = .ok v →
            let k : Job := { j with descs := v.1, vals := v.2 }
            let p : CPlan := u.jobPlan c k
            (u.copySecret c p = true → exec (.copyItemStart c) s = .next (faultCopy u c k { code := .security }))
            ∧ (∀ f, u.copySecret c p = false → u.unitsFault c p false (((u.copyPlaces c p).filter (fun q => q.run = j.pos)).map (·.unit)) = some f →
              exec (.copyItemStart c) s = .next (faultCopy u c k f))
            ∧ (u.copySecret c p = false → u.unitsFault c p false (((u.copyPlaces c p).filter (fun q => q.run = j.pos)).map (·.unit)) = none →
                ((u.copyPlaces c p).find? (fun q => q.at_ = j.pos)).any (u.runWaits c p (u.copyPlaces c p)) = false →
                u.fullChecker (s.ccyc c) (p.fpRanges c) = none → (u.die (dieOf c)).cardRoom = true → (u.checkAll (.copy c) (p.fpRanges c)).2 = true →
                ((u.checkAll (.copy c) (p.fpRanges c)).1.checkCards (dieOf c) (.copy c) p.cardRanges).2 = true →
                ∃ t, exec (.copyItemStart c) s = .next t ∧ (t.core c).store = (s.core c).store ∧ (t.core c).engQueue 0 = ((s.core c).engQueue 0).tail
                  ∧ ∃ x ∈ (t.core c).jobs, x.id = (s.core c).jobId c ∧ x.eng = 0 ∧ x.cmd = cmd ∧ x.st = .running ∧ x.start = s.ccyc c)))
    ∧ (∀ (c : Nat) (j : Job),
      s.frozen (clusterOf c) = false → s.copyCanEnd c = true → (s.core c).copyRunning = some j →
        (∀ (gd d k cq : BitVec 4) (p : BitVec 1), j.cmd.chain = none → j.cmd.ins = .cpy gd d k p cq →
          exec (.copyCompletion c) s = .next (finishCopy (if p = 1 then (releaseCopy s c j).later c 1 (.kadd cq.toNat) 1 else releaseCopy s c j) c j))
        ∧ (∀ (tail : Nat) (st : Option Nat), j.cmd.chain = some (tail, st) →
          let a : State := if j.entry.getLsbD 22 then (releaseCopy s c j).later c 1 (.kadd (bits j.entry 27 24)) (BitVec.ofNat 8192 (bits j.entry 39 32)) else releaseCopy s c j
          let b : State := if st.isNone then a.onCore c (fun k => { k with chainHead := BitVec.ofNat 64 (entryNext j.entry) }) else a
          exec (.copyCompletion c) s = .next (if entryNext j.entry = tail then finishCopy b c j else
            b.onCore c (fun k => { k.putJob { j with st := .waiting, entry := 0, aux := [0, BitVec.ofNat 64 (entryNext j.entry)], descs := [], vals := [] } with
              copyFree := b.ccyc c + 1 })))
        ∧ ∃ t, exec (.copyCompletion c) s = .next t)
    ∧ (∀ (cl : Nat) (c : Nat) (j : Job),
      s.frozen cl = false → s.phaseReady cl = some (c, j) → (s.core c).running.getD j.cmd.ofRec = j.cmd.ofRec →
        ∃ t, exec (.trussPhaseStart cl) s = .next t ∧ (t.core c).doneNo 3 = j.cmd.tag ∧ (t.cluster cl).trussQ = (s.cluster cl).trussQ.erase c
          ∧ tabGet 0 3 (t.core c).engFree = s.ccyc c + 1 ∧ (t.core c).store = (s.core c).store)
    ∧ (∀ (cl : Nat) (c : Nat) (j : Job), s.frozen cl = false → s.phaseReady cl = some (c, j) → ∃ t, exec (.trussPhaseStart cl) s = .next t)
    ∧ (∀ (cl : Nat) (c : Nat) (j : Job),
      s.frozen cl = false → s.phaseRunning cl = some (c, j) → s.phaseOver c j = true →
        exec (.trussPhaseEnd cl) s = .next (if s.phaseShort c j then s.stopPhase cl c j { code := .engine } else (s.closePhase cl j).onCore c (·.dropJob j)))
    ∧ (∀ (c : Nat) (j : Job),
      let u : State := (s.touchVas (dieOf c) (s.walkerVas c j)).engineDid (dieOf c) (s.walkerVas c j) [];
      let r : KRes KDone := u.walkerDo (u.walkerEnv c j.kctx) c j;
      let a : Nat := (j.cmd.vals.getD 0 0).toNat;
      let drop (t : State) : State := t.dropAll (clusterOf c) (.walker (clusterOf c)) j.id;
      let finish (t : State) (st res : Nat) (area : Option Nat) : State :=
        (drop (t.onCore c (·.putNat a 64 (setBits (setBits j.entry 63 0 (res % 2 ^ 32 * 2 ^ 32 + st)) 383 320 (area.getD (bits j.entry 383 320))).toNat))).endJob c 5 j;
      s.frozen (clusterOf c) = false → s.walkerReady c = true → (s.core c).walkerRunning = some j →
        (∀ d, r = .ok d → exec (.walkerJob c) s = .next (finish d.s 0 d.result d.area))
        ∧ (∀ n, r = .error (.status n) → exec (.walkerJob c) s = .next (finish u n 0 none))
        ∧ (∀ f, r = .error (.fault f) → exec (.walkerJob c) s = .next ((drop u).jobFault c 5 j f)))
    ∧ (∀ (cl : Nat) (c : Nat) (cmd : Cmd),
      let b : Rec512 := BitVec.ofNat 512 (readNat (s.core c).store (cmd.vals.getD 0 0).toNat 64);
      s.frozen cl = false → s.decodeNext cl = some (c, cmd) → (s.takeItem c 4 cmd b).1.vasClear (dieOf c) [(dblkOf b).ctx] = true →
      (s.die (dieOf c)).cardRoom = true → ∃ t, exec (.decodeItemStart cl) s = .next t)
    ∧ (∀ (cl : Nat) (c : Nat) (cmd : Cmd) (x : KCtx),
      let b : Rec512 := BitVec.ofNat 512 (readNat (s.core c).store (cmd.vals.getD 0 0).toNat 64);
      let d : DBlk := dblkOf b;
      let fn : Nat := decodeFn cmd.ins;
      let u : State := (s.takeItem c 4 cmd b).1;
      let sec : Bool := s.rom.secureUnit (dieOf c) (392 + cl % 8);
      let l : List PEnt := if fn = 3 then [] else (s.core c).pents d.list (min d.count 4096);
      let parts : List Nat := if fn = 3 then (s.core c).nat32s d.list (min d.count 64) else [];
      let rs : List (Nat × Nat × Nat × Bool) := decodeRanges fn d x (l.foldl (fun a e => a + e.nval) 0) parts;
      let fps : List (Nat × Range) := (rs.filter (fun r => r.2.1 != 0)).map (fun r => (c, bytesAt r.1 r.2.1 r.2.2.2));
      s.frozen cl = false → s.decodeNext cl = some (c, cmd) → u.vasClear (dieOf c) [d.ctx] = true → (sec = true → s.rom.secureCore c = true) →
      u.eccBytes c [((cmd.vals.getD 0 0).toNat, 64)] = none → u.kContext (dieOf c) sec d.ctx = .ok x → decodeBad fn b d x l = false →
      rs.all (fun r => decide (r.1 + r.2.1 ≤ 2 ^ 21) && decide (r.1 % r.2.2.1 = 0)) = true →
      u.decodeReadBad (u.decodeEnv c x) fn (decodeReads fn x l) = none → u.fullChecker (s.ccyc c) fps = none → (s.die (dieOf c)).cardRoom = true →
      (u.checkAll (.decode cl) fps).2 = true → ((u.checkAll (.decode cl) fps).1.checkCards (dieOf c) (.decode cl) (decodeReads fn x l)).2 = true →
      u.eccBytes c ((rs.filter (fun r => !r.2.2.2)).map (fun r => (r.1, r.2.1))) = none →
        ∃ t, exec (.decodeItemStart cl) s = .next t ∧ (t.core c).engQueue 4 = ((s.core c).engQueue 4).tail ∧ (t.core c).nextJob = (s.core c).nextJob + 1
          ∧ (t.core c).store = (s.core c).store ∧ ∃ j ∈ (t.core c).jobs, j.id = (s.core c).jobId c ∧ j.eng = 4 ∧ j.cmd = cmd ∧ j.st = .running ∧ j.entry = b)
    ∧ (∀ (cl : Nat) (c : Nat) (j : Job),
      s.frozen cl = false → s.decodeRunning cl = some (c, j) → s.decodeCanEnd c j j.kctx = true → ∃ t, exec (.decodeItemComplete cl) s = .next t)
    ∧ (∀ (cl : Nat) (c : Nat) (j : Job) (l : List Nat),
      s.frozen cl = false → s.decodeRunning cl = some (c, j) → s.decodeCanEnd c j j.kctx = true → (s.core c).running.getD j.cmd.ofRec = j.cmd.ofRec →
      s.eccBytes c (s.decodeIns c j) = none → s.decodeOut c (decodeFn j.cmd.ins) (dblkOf j.entry) j.kctx = .ok l →
        ∃ t, exec (.decodeItemComplete cl) s = .next t ∧ (t.core c).doneNo 4 = j.cmd.tag
          ∧ (t.core c).store = writeBytes (s.core c).store (dblkOf j.entry).out (l.flatMap (bytesOfNat 4))
          ∧ (t.cluster cl).decodeFree = (s.cluster cl).ccyc + 1 ∧ t.rom = s.rom)
    ∧ (∀ (g : Nat) (c : Nat) (cmd : Cmd),
      let u : State := s.onDie g (fun d => { d with encQ := d.encQ.erase c });
      s.encNext g = some (c, cmd) → s.frozen (clusterOf c) = false → s.vasClear g [(cmd.vals.getD 0 0).toNat] = true →
      (∀ l, u.encWords g (cmd.vals.getD 0 0).toNat 64 1 = .ok l → u.vasClear g [(ejobOf (BitVec.ofNat 512 (l.headD 0))).prec] = true) →
      (s.die g).cardRoom = true → ∃ t, exec (.encoderJobStart g) s = .next t)
    ∧ (∀ (g : Nat) (c : Nat) (cmd : Cmd) (v w : Nat) (q : List Nat) (r0 : List Nat),
      let u : State := s.onDie g (fun d => { d with encQ := d.encQ.erase c });
      let x : EJob := ejobOf (BitVec.ofNat 512 v);
      let p : Rec512 := BitVec.ofNat 512 w;
      let r : State × Job := u.takeItem c 2 cmd (BitVec.ofNat 512 v);
      s.encNext g = some (c, cmd) → s.frozen (clusterOf c) = false → s.vasClear g [(cmd.vals.getD 0 0).toNat] = true →
      (s.encSecure g = true → s.rom.secureCore c = true) → x.prec ≠ 0 → u.vasClear g [x.prec] = true → u.encWords g (cmd.vals.getD 0 0).toNat 64 1 = .ok (v :: r0) →
      x.prec % 64 = 0 → u.encWords g x.prec 64 5 = .ok (w :: q) → ejobBad (BitVec.ofNat 512 v) x p = false → (s.die g).cardRoom = true →
      (r.1.checkCards g (.encoder g) (ejobCards x p)).2 = true →
        ∃ t, exec (.encoderJobStart g) s = .next t ∧ (t.die g).encQ = (s.die g).encQ.erase c ∧ (t.core c).engQueue 2 = ((s.core c).engQueue 2).tail
          ∧ t.rom = s.rom ∧ ∃ j ∈ (t.core c).jobs, j.id = (s.core c).jobId c ∧ j.eng = 2 ∧ j.st = .running
              ∧ j.done = (s.die g).keyc + 66 * blockBits p + 64)
    ∧ (∀ (g : Nat) (c : Nat) (j : Job) (f : FaultInfo),
      s.encRunning g = some (c, j) → j.done ≤ (s.die g).keyc → s.vasClear g ((ejobOf j.entry).vas j.cmd.descs) = true → s.frozen (clusterOf c) = false →
      s.encSearch g (ejobOf j.entry) j.cmd.descs (j.aux.headD 0).toNat = .error f →
        exec (.encoderBlockComplete g) s = .next ((s.onDie g (fun d => { d.dropCards (.encoder g) j.id with encFree := d.keyc + 1 })).jobFault c 2 j
          { f with aux := (j.aux.headD 0).toNat }))
    ∧ (∀ (g : Nat) (c : Nat) (j : Job) (e : ESearch) (t1 t2 : State),
      let x : EJob := ejobOf j.entry;
      let b : Nat := (j.aux.headD 0).toNat;
      let n : Nat := blockBits e.prm * 4096;
      let t3 : State := (t2.touchVas g (x.blockVas e.prm b)).engineDid g [x.tgt, pScale e.prm] [x.out, x.scr];
      let t4 : State := { t3 with m := { t3.m with free := t3.m.free + n } };
      let close : State := t4.onDie g (fun d => { d.dropCards (.encoder g) j.id with encFree := d.keyc + 1 });
      s.encRunning g = some (c, j) → j.done ≤ (s.die g).keyc → s.vasClear g (x.vas j.cmd.descs) = true → s.frozen (clusterOf c) = false →
      s.encSearch g x j.cmd.descs b = .ok e →
      s.writeDome g (s.encSecure g) x.scr ((List.range n).map (fun i => (Config.freeBits (s.m.free + i)).truncate 8)) = .ok t1 →
      t1.writeDome g (s.encSecure g) (x.out + b * twcBlock e.prm) (bytesOfBits e.encode) = .ok t2 →
        exec (.encoderBlockComplete g) s = .next (
          if ((t4.record? j.cmd.ofRec).map (·.state)) = some .killed then close.onCore c (·.dropJob j)
          else if b + 1 = x.nblk then close.endJob c 2 j
          else t4.onCore c (·.putJob { j with aux := [BitVec.ofNat 64 (b + 1)], done := (s.die g).keyc + 66 * blockBits e.prm + 64 })))
    ∧ (∀ (c : Nat) (j : Job),
      let g : Nat := dieOf c;
      let v : Rec512 := j.cmd.descs.getD 0 0;
      let u : State := s.ioWrite g (s.ioId c j.cmd.tag) v (bits v 351 344);
      s.ioStarted c = some j →
        exec (.ioRequestSend c) s = .next ((u.onDie g (fun d =>
          { d.count 0x0B18 63 32 1 with ioPolled := if u.ioOutstanding g ≤ 1 then d.keyc else d.ioPolled })).onCore c (·.putJob { j with aux := [1, 0, 0] })))
    ∧ (∀ (c : Nat) (cmd : Cmd),
      let g : Nat := dieOf c;
      let v : Rec512 := cmd.descs.getD 0 0;
      let t : State := (s.takeItem c 7 cmd v).1;
      let j : Job := (s.takeItem c 7 cmd v).2;
      let cards : List (Nat × Nat × Bool) := [(bits v 511 448, bits v 511 448 + bits v 383 352 - 1, true)];
      let fps : List (Nat × Range) := [(c, bytesAt ((cmd.vals.getD 0 0).toNat) 8 true)];
      s.ioStarted c = none → s.frozen (clusterOf c) = false → (s.core c).ioNext (s.ccyc c) = some cmd →
        (cmd.isIorq = false → exec (.ioRequestSend c) s = .next (t.onCore c (·.putJob { j with aux := [2, 0, 0] })))
        ∧ (cmd.isIorq = true → cmd.cancelled = true → exec (.ioRequestSend c) s = .next (t.onCore c (·.putJob { j with aux := [2, 0, 2] })))
        ∧ (cmd.isIorq = true → cmd.cancelled = false → (s.die g).ioEn = false → exec (.ioRequestSend c) s = .next (t.jobFault c 7 j { code := .engine }))
        ∧ (cmd.isIorq = true → cmd.cancelled = false → (s.die g).ioEn = true → (s.ioSecure g = true → s.rom.secureCore c = true) →
            s.fullChecker (s.ccyc c) fps = none → (s.die g).cardRoom = true → (t.checkAll (.io g) fps).2 = true →
            ((t.checkAll (.io g) fps).1.checkCards g (.io g) cards).2 = true →
            exec (.ioRequestSend c) s = .next (((t.addAll (.io g) j.id fps (s.ccyc c) none).onDie g (·.addCards (.io g) j.id cards)).onCore c
              (·.putJob { j with aux := [4, 0, 0], release := s.keyc c }))))
    ∧ (∀ (g : Nat),
      s.ioPollDue g = true → exec (.ioResponsePoll g) s = .next ((s.onDie g (fun d => { d with ioPolled := d.keyc })).ioRead g 16))
    ∧ (∀ (c : Nat) (j : Job),
      s.frozen (clusterOf c) = false → (s.core c).ioDone = some j → s.vasClear (dieOf c) (s.ioSaved c j).toList = true → j.cmd.isIorq = false → exec (.ioCompletion c) s = .next (s.ioEnd c j))
    ∧ (∀ (c : Nat) (j : Job),
      s.frozen (clusterOf c) = false → (s.core c).ioDone = some j → s.vasClear (dieOf c) (s.ioSaved c j).toList = true → j.cmd.isIorq = true →
        ∃ t, exec (.ioCompletion c) s = .next t ∧ readNat (t.core c).store (j.cmd.vals.getD 0 0).toNat 8 = j.ioLen % 2 ^ 32 * 2 ^ 32 + j.ioStatus % 256)

/-- R61, R65 to R67, R71, R72, R74 to R76, R80, R93: the lead lantern takes a packet, refuses it, holds it for its dependency, or runs
its command, and what PIN, UNPIN, BIND, SIGNAL, FENCE, SLOT_WRITE, SLOT_READ and TEARDOWN do. The results of refused commands and
the window of a dependency are the model's choice (log 42), as the order of the checks that R66 leaves open (log 13). -/
def Obligations.LanternCommands : Prop :=
  ∀ s : State,
    (∀ (q : BitVec 4) (packet : Rec512),
      let r : State × Busy := s.takePacket q.toNat packet;
      s.nextQueue = some q.toNat → s.headPacket q.toNat = packet → s.ifvOk packet = true → pktOpc packet = 1 → r.1.refused r.2 = none → r.1.fate packet r.2.order = .met → exec (.pin q packet) s = .next ((runPin r.2 r.1).settle))
    ∧ (∀ (q : BitVec 4) (packet : Rec512),
      let r : State × Busy := s.takePacket q.toNat packet;
      s.nextQueue = some q.toNat → s.headPacket q.toNat = packet → s.ifvOk packet = true → pktOpc packet = 2 → r.1.refused r.2 = none → r.1.fate packet r.2.order = .met → exec (.unpin q packet) s = .next ((runUnpin r.2 r.1).settle))
    ∧ (∀ (q : BitVec 4) (packet : Rec512),
      let r : State × Busy := s.takePacket q.toNat packet;
      s.nextQueue = some q.toNat → s.headPacket q.toNat = packet → s.ifvOk packet = true → pktOpc packet = 3 → r.1.refused r.2 = none → r.1.fate packet r.2.order = .met → exec (.loadImage q packet) s = .next ((runLoadImage r.2 r.1).settle))
    ∧ (∀ (q : BitVec 4) (packet : Rec512),
      let r : State × Busy := s.takePacket q.toNat packet;
      s.nextQueue = some q.toNat → s.headPacket q.toNat = packet → s.ifvOk packet = true → pktOpc packet = 4 → r.1.refused r.2 = none → r.1.fate packet r.2.order = .met → exec (.bind q packet) s = .next ((runBind r.2 r.1).settle))
    ∧ (∀ (q : BitVec 4) (packet : Rec512),
      let r : State × Busy := s.takePacket q.toNat packet;
      s.nextQueue = some q.toNat → s.headPacket q.toNat = packet → s.ifvOk packet = true → pktOpc packet = 5 → r.1.refused r.2 = none → r.1.fate packet r.2.order = .met → exec (.ringConfig q packet) s = .next ((runRingConfig r.2 r.1).settle))
    ∧ (∀ (q : BitVec 4) (packet : Rec512),
      let r : State × Busy := s.takePacket q.toNat packet;
      s.nextQueue = some q.toNat → s.headPacket q.toNat = packet → s.ifvOk packet = true → pktOpc packet = 6 → r.1.refused r.2 = none → r.1.fate packet r.2.order = .met → exec (.inject q packet) s = .next ((runInject r.2 r.1).settle))
    ∧ (∀ (q : BitVec 4) (packet : Rec512),
      let r : State × Busy := s.takePacket q.toNat packet;
      s.nextQueue = some q.toNat → s.headPacket q.toNat = packet → s.ifvOk packet = true → pktOpc packet = 7 → r.1.refused r.2 = none → r.1.fate packet r.2.order = .met → exec (.launch q packet) s = .next ((runLaunch r.2 r.1).settle))
    ∧ (∀ (q : BitVec 4) (packet : Rec512),
      let r : State × Busy := s.takePacket q.toNat packet;
      s.nextQueue = some q.toNat → s.headPacket q.toNat = packet → s.ifvOk packet = true → pktOpc packet = 8 → r.1.refused r.2 = none → r.1.fate packet r.2.order = .met → exec (.slotWrite q packet) s = .next ((runSlotWrite r.2 r.1).settle))
    ∧ (∀ (q : BitVec 4) (packet : Rec512),
      let r : State × Busy := s.takePacket q.toNat packet;
      s.nextQueue = some q.toNat → s.headPacket q.toNat = packet → s.ifvOk packet = true → pktOpc packet = 9 → r.1.refused r.2 = none → r.1.fate packet r.2.order = .met → exec (.slotRead q packet) s = .next ((runSlotRead r.2 r.1).settle))
    ∧ (∀ (q : BitVec 4) (packet : Rec512),
      let r : State × Busy := s.takePacket q.toNat packet;
      s.nextQueue = some q.toNat → s.headPacket q.toNat = packet → s.ifvOk packet = true → pktOpc packet = 10 → r.1.refused r.2 = none → r.1.fate packet r.2.order = .met → exec (.signal q packet) s = .next ((runSignal r.2 r.1).settle))
    ∧ (∀ (q : BitVec 4) (packet : Rec512),
      let r : State × Busy := s.takePacket q.toNat packet;
      s.nextQueue = some q.toNat → s.headPacket q.toNat = packet → s.ifvOk packet = true → pktOpc packet = 11 → r.1.refused r.2 = none → r.1.fate packet r.2.order = .met → exec (.fence q packet) s = .next ((runFence r.2 r.1).settle))
    ∧ (∀ (q : BitVec 4) (packet : Rec512),
      let r : State × Busy := s.takePacket q.toNat packet;
      s.nextQueue = some q.toNat → s.headPacket q.toNat = packet → s.ifvOk packet = true → pktOpc packet = 12 → r.1.refused r.2 = none → r.1.fate packet r.2.order = .met → exec (.resetQueue q packet) s = .next ((runResetQueue r.2 r.1).settle))
    ∧ (∀ (q : BitVec 4) (packet : Rec512),
      let r : State × Busy := s.takePacket q.toNat packet;
      s.nextQueue = some q.toNat → s.headPacket q.toNat = packet → s.ifvOk packet = true → pktOpc packet = 13 → r.1.refused r.2 = none → r.1.fate packet r.2.order = .met → exec (.teardown q packet) s = .next ((runTeardown r.2 r.1).settle))
    ∧ (∀ (q : BitVec 4) (packet : Rec512),
      let r : State × Busy := s.takePacket q.toNat packet;
      s.nextQueue = some q.toNat → s.headPacket q.toNat = packet → s.ifvOk packet = true → pktOpc packet = 14 → r.1.refused r.2 = none → r.1.fate packet r.2.order = .met → exec (.attest q packet) s = .next ((runAttest r.2 r.1).settle))
    ∧ (∀ (q : BitVec 4) (packet : Rec512) (x : Nat × Instr),
      let r : State × Busy := s.takePacket q.toNat packet;
      x ∈ ([(1, .pin q packet), (2, .unpin q packet), (3, .loadImage q packet), (4, .bind q packet), (5, .ringConfig q packet), (6, .inject q packet), (7, .launch q packet), (8, .slotWrite q packet), (9, .slotRead q packet), (10, .signal q packet), (11, .fence q packet), (12, .resetQueue q packet), (13, .teardown q packet), (14, .attest q packet)] : List (Nat × Instr)) →
        (s.nextQueue = some q.toNat → s.headPacket q.toNat = packet → s.ifvOk packet = true → pktOpc packet = x.1 →
          (∀ st o, r.1.refused r.2 = some (st, o) → exec x.2 s = .next (r.1.conclude r.2 st false o 0))
          ∧ (r.1.refused r.2 = none → r.1.fate packet r.2.order = .cancelled → exec x.2 s = .next (r.1.conclude r.2 6 false 0 0))
          ∧ (r.1.refused r.2 = none → r.1.fate packet r.2.order = .waits → exec x.2 s = .next { r.1 with m := { r.1.m with lead := { r.1.m.lead with waiting := r.1.m.lead.waiting ++ [{ r.2 with dep := r.1.depOf packet r.2.order }] } } }))
        ∧ (s.nextQueue ≠ some q.toNat ∨ s.headPacket q.toNat ≠ packet → exec x.2 s = .fault .notEnabled))
    ∧ (∀ (q : BitVec 4) (packet : Rec512),
      let r : State × Busy := s.takePacket q.toNat packet;
      s.nextQueue = some q.toNat → s.headPacket q.toNat = packet → (s.ifvOk packet && opcOk (pktOpc packet)) = false → exec (.unknownOpcPacket q packet) s = .next (r.1.conclude r.2 (if s.ifvOk packet then 2 else 1) false 0 0))
    ∧ (∀ (q : BitVec 4) (b : Busy),
      let p : State := { s with m := { s.m with lead := { s.m.lead with waiting := s.m.lead.waiting.filter (fun x => x.order ≠ b.order) } } };
      (s.decided q.toNat = some (b, .met) → exec (.dependencyResolved q) s = .next ((p.start b).settle))
        ∧ (s.decided q.toNat = some (b, .cancelled) → exec (.dependencyResolved q) s = .next ((p.conclude b 6 false 0 0).settle)))
    ∧ (∀ (q : Nat) (p : Rec512), q < 16 →
      (s.takePacket q p).1.sqHead q = (s.sqHead q + 1) % 2 ^ s.sqLog q % 2 ^ 64 ∧ (s.takePacket q p).1.m.lead.rr = (q + 1) % 16
      ∧ (s.takePacket q p).2.packet = p ∧ (s.takePacket q p).2.queue = q)
    ∧ (∀ b : Busy,
      let va := pkt b.packet 16 8;
      let l : Word := BitVec.ofNat 64 (pkt b.packet 24 8);
      let n := if lG l then 32 else 1;
      (∀ i, i < pkt b.packet 32 4 → s.pinRefuses va (s.pinDies va) (va / 2 ^ 16 + i * n) l i = none) →
      ∀ i, i < pkt b.packet 32 4 → ∀ g ∈ s.pinDies va,
        tabGet 0 (va / 2 ^ 16 + i * n) ((runPin b s).die g).tlb = setBits l 37 16 (lPpn l + i * n))
    ∧ (∀ b : Busy,
      let va := pkt b.packet 16 8;
      let r : List (Nat × Nat) × Nat := s.unpinList va (pkt b.packet 32 4);
      (∀ g k, tabGet 0 k ((runUnpin b s).die g).tlb = if (g, k) ∈ r.1 then 0 else tabGet 0 k (s.die g).tlb)
      ∧ (∀ g k, 0 < pkt b.packet 32 4 → g ∈ s.pinDies va → (s.die g).leafKey va = some k → (g, k) ∈ r.1)
      ∧ ∃ p : State, runUnpin b s = p.conclude b 0 false r.2 0)
    ∧ (∀ b : Busy,
      let h := pkt b.packet 16 1;
      (s.image? h = none → runBind b s = s.conclude b 3 false 16 0)
      ∧ (∀ i, s.image? h = some i →
          let t := (List.range (pkt b.packet 32 4)).map (fun k => readNat s.m.host (pkt b.packet 24 8 + 2 * k) 2);
          let secret := !s.sqSecure b.queue && (t.map s.boundCore).any (fun c => decide (c < 2 ^ 16) && s.rom.secureCore c);
          (pkt b.packet 32 4 ≠ i.nlcn → runBind b s = s.conclude b 3 false 32 0)
          ∧ (pkt b.packet 32 4 = i.nlcn → s.bindOk t = false → runBind b s = s.conclude b 3 false 24 0)
          ∧ (s.bindOk t = true → t.Nodup)
          ∧ (pkt b.packet 32 4 = i.nlcn → s.bindOk t = true → secret = true → runBind b s = s.conclude b 8 false 0 0)
          ∧ (pkt b.packet 32 4 = i.nlcn → s.bindOk t = true → secret = false →
              (∀ k, (runBind b s).image? k = if k = h then some { i with binding := t.map s.boundCore } else s.image? k)
              ∧ ∃ p : State, runBind b s = p.conclude b 0 false 0 0)))
    ∧ (∀ b : Busy,
      (∀ l ln c, s.named b = .active l ln → ln.tearing = none → ln.placeOf (pkt b.packet 24 2) = some c →
        ((runSignal b s).core c).pend = (s.core c).pend ++ [(⟨s.keyc c + 1, .post (pkt b.packet 26 1), BitVec.ofNat 8192 (pkt b.packet 32 8)⟩ : Pend)]
        ∧ (runSignal b s).m.lead.busy = s.m.lead.busy ++ [{ b with seen := some (c, s.keyc c + 1) }])
      ∧ (∀ l ln, s.named b = .active l ln → ln.tearing ≠ none → runSignal b s = s.conclude b 6 false 0 0)
      ∧ (∀ l ln, s.named b = .active l ln → ln.tearing = none → ln.binding.length ≤ pkt b.packet 24 2 → runSignal b s = s.conclude b 3 false 24 0)
      ∧ (∀ ln, s.named b = .ended ln → runSignal b s = s.conclude b 6 false 0 0)
      ∧ (s.named b = .bad → runSignal b s = s.conclude b 3 false 16 0))
    ∧ (∀ b : Busy, pktOpc b.packet = 0x0B →
      ((∃ x ∈ s.m.lead.waiting, x.queue = b.queue ∧ x.order < b.order) → (∀ x ∈ s.m.lead.busy, x.order ≠ b.order) →
        b ∈ (runFence b s).m.lead.busy ∧ (runFence b s).queueBlocked b.queue = true)
      ∧ (s.m.lead.busy = [] → (∀ x ∈ s.m.lead.waiting, x.queue = b.queue → b.order ≤ x.order) →
          runFence b s = (s.keepBusy b).conclude b 0 false 0 0))
    ∧ (∀ b : Busy,
      let v : Busy := { b with packet := setBits b.packet 447 384 (s.toRingTime (bits b.packet 447 384)) };
      (∀ l ln, s.named b = .active l ln → ln.tearing ≠ none → runSlotWrite b s = s.conclude b 6 false 0 0)
      ∧ (∀ l ln e, s.named b = .active l ln → ln.tearing = none → s.slotTarget b l ln = .error e → runSlotWrite b s = s.conclude b e.1 false e.2 0)
      ∧ (∀ l ln g x, s.named b = .active l ln → ln.tearing = none → s.slotTarget b l ln = .ok (g, x) →
          (s.ringState = 0 ∨ s.ringState = 7 ∨ s.m.excluded.contains g = true → runSlotWrite b s = s.conclude b 9 false 0 0)
          ∧ (s.ringState ≠ 0 → s.ringState ≠ 7 → s.m.excluded.contains g = false → runSlotWrite b s = s.keepBusy { v with target := some l }))
      ∧ (∀ ln, s.named b = .ended ln → runSlotWrite b s = s.conclude b 6 false 0 0)
      ∧ (s.named b = .bad → runSlotWrite b s = s.conclude b 3 false 16 0))
    ∧ (∀ (b : Busy) (g l : Nat) (ln : Launch),
      let n := pkt b.packet 26 2;
      let e : BitVec 256 := BitVec.ofNat 256 (bits b.packet 511 256);
      s.targetOf b = some (l, ln) →
        ((s.heldSlots l g).contains n = true → s.applyWrite g b = s)
        ∧ ((s.heldSlots l g).contains n = false →
            ((s.applyWrite g b).slot l g n).state = bits e 65 64 ∧ ((s.applyWrite g b).slot l g n).stage = bits e 95 80
            ∧ ((s.applyWrite g b).slot l g n).seqid = BitVec.ofNat 64 (bits e 63 0)
            ∧ ((s.applyWrite g b).slot l g n).ovr = false ∧ ((s.applyWrite g b).slot l g n).missed = false))
    ∧ (∀ (b : Busy) (l : Nat) (ln : Launch) (y : Nat × Nat × Nat × Launch),
      let x : Busy := { b with target := some l };
      pktOpc b.packet = 9 → s.named b = .active l ln → s.slotTarget b l ln = .ok y → s.m.lead.busy = [] →
        runSlotRead b s = (s.keepBusy x).answerRead x)
    ∧ (∀ (b : Busy) (l g : Nat) (ln : Launch),
      let n := pkt b.packet 26 2;
      let e : Nat := (s.slotEntry l ln g n (bucketOf (s.buckets ln g) n)).toNat;
      s.targetOf b = some (l, ln) → s.localDie (pkt b.packet 24 2) = some g → s.slotBad ln g n = none →
        s.answerRead b = ({ s with m := { s.m with host := writeNat s.m.host (pkt b.packet 32 8) 32 e } } : State).conclude b 0 false 0 0)
    ∧ (∀ b : Busy, s.readWaits b = true ↔ ∃ x ∈ s.m.lead.busy.takeWhile (fun x => x.order ≠ b.order),
        pktOpc x.packet = 8 ∧ x.target = b.target ∧ pkt x.packet 24 4 = pkt b.packet 24 4)
    ∧ (∀ b : Busy,
      (∀ l ln n r, s.named b = .active l ln → s.launch? l = some ln → s.record? n = some r → r.launch = l →
        (r.state = .ready ∨ r.state = .waiting → ∃ x, (runTeardown b s).record? n = some x ∧ x.state = .cancelled)
        ∧ (r.state = .running → ∃ x, (runTeardown b s).record? n = some x ∧ x.cancel = true))
      ∧ (∀ ln, s.named b = .ended ln → runTeardown b s = s.conclude b 0 false 0 0)
      ∧ (∀ w, s.named b = .waiting w → runTeardown b s = (s.cancelWaiting w).conclude b 0 false 0 0)
      ∧ (s.named b = .bad → runTeardown b s = s.conclude b 3 false 16 0))

/-- R264 to R272, R275 to R277: no bit of an encoding is lost: a well-formed word decodes to the instruction it encodes. -/
def Obligations.DecodeOfEncode : Prop :=
    ∀ (i : Instr) (w : BitVec 32), i.wf = true → encode i = some w → decode w = some i

/-- R264 to R272, R277: every word that decodes is the encoding of a well-formed instruction. -/
def Obligations.EncodeOfDecode : Prop :=
    ∀ (w : BitVec 32) (i : Instr), decode w = some i → i.wf = true ∧ encode i = some w

/-- The words that the worked cases of the spec give for their instructions. -/
def Obligations.WorkedWordsDecode : Prop :=
    decode 0x02080064 = some (.ldi 0 4 100)
    ∧ decode 0x008A4FFF = some (.addi 0 5 4 0xFFF)
    ∧ decode 0x304C4280 = some (.add 3 6 4 5)
    ∧ decode 0x04885404 = some (.ld 0 4 5 2 4)
    ∧ decode 0x04CE67FF = some (.st 0 7 6 3 0x1FF)
    ∧ decode 0x05405106 = some (.gld 0 5 2 3)
    ∧ decode 0x05500020 = some (.gpop 0 8)
    ∧ decode 0x0600B200 = some (.kwait 0 5 9)
    ∧ decode 0x07006003 = some (.csendS 0 6 3)
    ∧ decode 0x08040080 = some (.vadd 0 2 0 1 0)
    ∧ decode 0x0A880400 = some (.mma 0 2 0 1 0 0 0 0 0 0 0)
    ∧ decode 0x0AC80000 = some (.mzero 0 2 0)
    ∧ decode 0x03C05002 = some (.loop 0 0 5 2)
    ∧ decode 0x13A40000 = some (.brl 1 2)
    ∧ decode 0x0CC0E000 = some (.dattn 0 7)
    ∧ decode 0x0C200E00 = some (.cpy 0 8 7 0 0)

/-- R107, R277: the sequencer whose turn it is runs the instruction that the word at its program counter decodes to; the phases are the model's schedule (log 1). -/
def Obligations.StepRunsDecoded : Prop :=
    ∀ (s : State) (q : SeqId) (r : List SeqId), s.m.phase = .issue (q :: r) →
    let u := (s.inPhase (.issue r)).withCur q
    (u.canIssue q = false → step s = .next u)
    ∧ (u.canIssue q = true → ∀ f, u.fetch q = .error f → step s = .next (u.raisePrecise q 0 f))
    ∧ (u.canIssue q = true → ∀ w, u.fetch q = .ok w →
        (∀ i, decode w = some i → step s = exec i u) ∧ (decode w = none → step s = exec (.nonInstructionWord w) u))

/-- R1, R26, R77, R78: straps, fuses, measurements and what the boot ROMs fixed change only in events of boot and reset. -/
def Obligations.OnlyBootTouchesRom : Prop :=
    ∀ (i : Instr) (s t : State), i.boots = false → exec i s = .next t → t.rom = s.rom

/-- R1, R26, R77, R80: no step changes the variant or the fuses. -/
def Obligations.StepKeepsFuses : Prop :=
    ∀ s t : State, step s = .next t → t.rom.variant = s.rom.variant ∧ t.rom.keyHash = s.rom.keyHash ∧ t.rom.seeds = s.rom.seeds

/-- Every memory of the machine stays in its canonical form (the model's representation of R130, R135, R254 and host memory). -/
def Obligations.StepKeepsMemoryForm : Prop :=
    ∀ s t : State, s.memOk → step s = .next t → t.memOk

/-- R18, R25, R113: the machine as the release of compute-die reset leaves it, before any die has initialised its SRAM, with the values that R57, R63 and R105 give the registers; the canonical form of every memory is the model's invariant. -/
def Obligations.ResetState : Prop :=
    (State.reset.rom.held = false ∧ State.reset.rom.sram = [] ∧ State.reset.rom.up = [])
    ∧ State.reset.memOk
    ∧ (∀ g, (State.reset.die g).keyc = 0)
    ∧ (∀ c, State.reset.ccyc c = 0)
    ∧ (State.reset.die 0).reg 0x0608 = 0x100
    ∧ (∀ g, (g ≠ 0 → (State.reset.die g).reg 0x0608 = 0) ∧ (State.reset.die g).reg 0x0200 = 0x0010000000000000 ∧ (State.reset.die g).reg 0x0700 = 0x0010000000000001 ∧ (State.reset.die g).reg 0x0628 = 0)
    ∧ (∀ c, (State.reset.core c).running = none ∧ (State.reset.core c).engQ = [] ∧ (State.reset.core c).jobs = [])
    ∧ State.reset.m.ringOrder = [] ∧ State.reset.m.excluded = [] ∧ State.reset.m.launches = [] ∧ State.reset.m.recs = []

/-- R264, R265: what a guard-false word leaves. -/
def Obligations.GuardFalseDoesNothing : Prop :=
  ∀ s : State,
    (∀ g d a b, d ≠ 31 → s.skips (.add g d a b) { srcs := [a, b], dst := some d } = true →
      exec (.add g d a b) s = .next ((s.popped { srcs := [a, b], dst := some d }).finish s.m.cur .next))
    ∧ (∀ g a b, s.skips (.add g 31 a b) { srcs := [a, b], dst := some 31 } = true →
      exec (.add g 31 a b) s = .next (((s.popped { srcs := [a, b], dst := some 31 }).pushLater s.m.cur.core s.m.cur.side.qout 1 0).finish s.m.cur .next))
    ∧ (∀ g d a z i, s.skips (.st g d a z i) { srcs := [d, a] } = true →
      exec (.st g d a z i) s = .next ((s.popped { srcs := [d, a] }).finish s.m.cur .next))
    ∧ (∀ g p a b c, s.skips (.cmp g p a b c) { srcs := [a, b] } = true →
      exec (.cmp g p a b c) s = .next ((s.popped { srcs := [a, b] }).finish s.m.cur .next))
    ∧ (∀ g sv k r c, s.skips (.kadd g sv k r c) { srcs := [sv] } = true →
      exec (.kadd g sv k r c) s = .next ((s.popped { srcs := [sv] }).finish s.m.cur .next))
    ∧ (∀ g sv k, s.skips (.kwait g sv k) { srcs := [sv] } = true →
      exec (.kwait g sv k) s = .next ((s.popped { srcs := [sv] }).finish s.m.cur .next))
    ∧ (∀ g n, s.skips (.trap g n) {} = true → exec (.trap g n) s = .next ((s.popped {}).finish s.m.cur .next))
    ∧ (∀ g l a n, s.skips (.loop g l a n) { srcs := [a] } = true →
      exec (.loop g l a n) s = .next ((s.popped { srcs := [a] }).finish s.m.cur .next))
    ∧ (∀ g t, s.skips (.br g t) {} = true → exec (.br g t) s = .next ((s.popped {}).finish s.m.cur (.branch none)))
    ∧ (∀ g cd t, s.skips (.mzero g cd t) {} = true → exec (.mzero g cd t) s = .next ((s.popped {}).finish s.m.cur .next))

/-- R107, R265, R286 to R292: what a scalar or predicate word leaves unchanged. -/
def Obligations.ScalarFrame : Prop :=
  ∀ s : State,
    let q := s.m.cur
    let c := q.core
    let frame := fun (t : State) (mine : Target → Prop) =>
      s.onlyIssued t c ∧ (∀ p a, t.byteIn p a = s.byteIn p a)
      ∧ ((s.seq q).sameRegs (t.seq q) ∧ (t.core c).seq q.side.other = (s.core c).seq q.side.other)
      ∧ ∃ l, (t.core c).pend = (s.core c).pend ++ l ∧ ∀ x ∈ l, mine x.tgt
    (∀ (g : BitVec 4) (d a b : BitVec 5),
      ∀ w ∈ ([.add g d a b, .sub g d a b, .and g d a b, .or g d a b, .xor g d a b, .andn g d a b, .shl g d a b, .shr g d a b, .sra g d a b, .rot g d a b, .mul g d a b, .mulh g d a b, .mulhn g d a b, .min g d a b, .max g d a b, .minn g d a b, .maxn g d a b, .div g d a b, .divn g d a b, .rem g d a b, .remn g d a b] : List Instr), s.runs w { srcs := [a, b], dst := some d } = true → ∃ t, exec w s = .next t ∧ frame t (fun x => x = .sreg q.side d.toNat))
    ∧ (∀ (g : BitVec 4) (d a : BitVec 5),
      ∀ w ∈ ([.clz g d a, .ctz g d a, .popc g d a] : List Instr), s.runs w { srcs := [a], dst := some d } = true → ∃ t, exec w s = .next t ∧ frame t (fun x => x = .sreg q.side d.toNat))
    ∧ (∀ (g : BitVec 4) (d a : BitVec 5) (i : BitVec 12),
      ∀ w ∈ ([.addi g d a i, .andi g d a i, .ori g d a i, .xori g d a i] : List Instr), s.runs w { srcs := [a], dst := some d } = true → ∃ t, exec w s = .next t ∧ frame t (fun x => x = .sreg q.side d.toNat))
    ∧ (∀ (g : BitVec 4) (d a : BitVec 5) (n : BitVec 6),
      ∀ w ∈ ([.shli g d a n, .shri g d a n, .srai g d a n, .sxt g d a n, .zxt g d a n] : List Instr), s.runs w { srcs := [a], dst := some d } = true → ∃ t, exec w s = .next t ∧ frame t (fun x => x = .sreg q.side d.toNat))
    ∧ (∀ (g : BitVec 4) (d : BitVec 5) (i : BitVec 17),
      ∀ w ∈ ([.ldi g d i] : List Instr), s.runs w { dst := some d } = true → ∃ t, exec w s = .next t ∧ frame t (fun x => x = .sreg q.side d.toNat))
    ∧ (∀ (g : BitVec 4) (p : BitVec 3) (a b : BitVec 5) (k : BitVec 4),
      ∀ w ∈ ([.cmp g p a b k] : List Instr), s.runs w { srcs := [a, b] } = true → ∃ t, exec w s = .next t ∧ frame t (fun x => x = .pred q.side (1 <<< p.toNat)))
    ∧ (∀ (g : BitVec 4) (d a b : BitVec 3),
      ∀ w ∈ ([.pand g d a b, .por g d a b, .pxor g d a b, .pandn g d a b] : List Instr), s.runs w {} = true → ∃ t, exec w s = .next t ∧ frame t (fun x => x = .pred q.side (1 <<< d.toNat)))

/-- R107: a result that is written changes its destination and nothing else of the core. -/
def Obligations.CommitFrame : Prop :=
    ∀ (k : Core) (due : Nat) (v : Row),
    (∀ sd r, let t := k.commit ⟨due, .sreg sd r, v⟩
      (∀ n, n ≠ r → tabGet 0 n (t.seq sd).regs = tabGet 0 n (k.seq sd).regs) ∧ tabGet 0 r (t.seq sd).regs = v.setWidth 64
      ∧ t.seq sd.other = k.seq sd.other ∧ (t.seq sd).p = (k.seq sd).p ∧ t.store = k.store ∧ t.acc = k.acc ∧ t.k = k.k)
    ∧ (∀ a n, let t := k.commit ⟨due, .bytes a n, v⟩
      (∀ x, x < a ∨ a + n ≤ x → readByte t.store x = readByte k.store x) ∧ readNat t.store a n = v.toNat % 2 ^ (8 * n)
      ∧ t.a = k.a ∧ t.x = k.x ∧ t.acc = k.acc ∧ t.k = k.k)
    ∧ (∀ r m, let t := k.commit ⟨due, .row r m, v⟩
      (∀ n, n ≠ r → t.row n = k.row n) ∧ (∀ j, (t.row r).getLsbD j = if m.getLsbD j then v.getLsbD j else (k.row r).getLsbD j)
      ∧ t.store = k.store ∧ t.a = k.a ∧ t.x = k.x)
    ∧ (∀ n, let t := k.commit ⟨due, .kadd n, v⟩
      (∀ j, j ≠ n → t.counter j = k.counter j) ∧ t.counter n = k.counter n + v.setWidth 64 ∧ t.store = k.store ∧ t.a = k.a ∧ t.x = k.x)

/-- R107, R197, R270, R331: what a vector word with a row destination leaves unchanged. -/
def Obligations.VectorFrame : Prop :=
  ∀ s : State,
    let q := s.m.cur
    let c := q.core
    let frame := fun (t : State) (d : BitVec 5) =>
      (∀ p a, t.byteIn p a = s.byteIn p a) ∧ (∀ n, (t.core c).row n = (s.core c).row n) ∧ (t.core c).masks = (s.core c).masks
      ∧ (t.core c).k = (s.core c).k ∧ (t.core c).desc = (s.core c).desc ∧ (∀ x, x ≠ c → t.core x = s.core x) ∧ t.rom = s.rom
      ∧ ((s.seq q).sameRegs (t.seq q) ∧ (t.core c).seq q.side.other = (s.core c).seq q.side.other)
      ∧ ∃ l, (t.core c).pend = (s.core c).pend ++ l
          ∧ ∀ x ∈ l, x.tgt = .flagSet ∨ (d.toNat < 28 ∧ ∃ m, x.tgt = .row ((s.core c).vrow d) m)
    (∀ (g : BitVec 4) (d a b : BitVec 5) (m : BitVec 3),
      let o : Operands := { vsrcs := [a, b], vdst := some d, lat := 4 };
      ∀ i ∈ ([.vadd g d a b m, .vsub g d a b m, .vmul g d a b m] : List Instr), s.runs i o = true → s.rowsFree o → ∃ t, exec i s = .next t ∧ frame t d)
    ∧ (∀ (g : BitVec 4) (d a b : BitVec 5) (m : BitVec 3),
      let o : Operands := { vsrcs := [a, b], vdst := some d, lat := 2 };
      ∀ i ∈ ([.vmin g d a b m, .vmax g d a b m, .viadd g d a b m, .visub g d a b m, .vimul g d a b m, .vimin g d a b m, .vimax g d a b m, .vand g d a b m, .vor g d a b m, .vxor g d a b m, .vshl g d a b m, .vshr g d a b m, .vsra g d a b m] : List Instr), s.runs i o = true → s.rowsFree o → ∃ t, exec i s = .next t ∧ frame t d)
    ∧ (∀ (g : BitVec 4) (d a : BitVec 5) (m : BitVec 3),
      let o : Operands := { vsrcs := [a], vdst := some d, lat := 2 };
      ∀ i ∈ ([.vabs g d a m, .vneg g d a m, .vmov g d a m] : List Instr), s.runs i o = true → s.rowsFree o → ∃ t, exec i s = .next t ∧ frame t d)

/-- R304, R306, R320, R162: the bytes that a store changes, and that nothing else is. -/
def Obligations.StoreFrame : Prop :=
  ∀ (s : State) (g0 : BitVec 4) (d0 a0 b0 : BitVec 5) (z0 : BitVec 2) (n0 x0 r0 : BitVec 1) (k0 : BitVec 4) (c0 : BitVec 3),
    let q := s.m.cur
    let c := q.core
    (∀ (g : BitVec 4) (d a : BitVec 5) (z : BitVec 3) (i : BitVec 9) (t : State),
      let o : Operands := { srcs := [d, a] };
      let n := 2 ^ (z.toNat % 4);
      let addr := ((s.reads o).x 1 + i.signExtend 64 * BitVec.ofNat 64 n).toNat;
      s.runs (.st g d a z i) o = true → exec (.st g d a z i) s = .next t →
        (∀ x, x < addr ∨ addr + n ≤ x → t.byteIn (.store c) x = s.byteIn (.store c) x)
        ∧ (∀ p, p ≠ .store c → ∀ x, t.byteIn p x = s.byteIn p x) ∧ (s.seq q).sameRegs { t.seq q with wait := (s.seq q).wait })
    ∧ (∀ (g : BitVec 4) (a : BitVec 5) (pe : BitVec 3) (t : State),
      let o : Operands := { srcs := [a] };
      let addr := ((s.reads o).x 0).toNat;
      s.runs (.crecvRow g a pe) o = true → exec (.crecvRow g a pe) s = .next t →
        (∀ x, x < addr ∨ addr + 1024 ≤ x → t.byteIn (.store c) x = s.byteIn (.store c) x)
        ∧ (∀ p, p ≠ .store c → ∀ x, t.byteIn p x = s.byteIn p x))
    ∧ (∀ (g d : BitVec 4) (a : BitVec 5) (t : State),
      let o : Operands := { srcs := [a] };
      let addr := ((s.reads o).x 0).toNat;
      s.runs (.dst g d a) o = true → exec (.dst g d a) s = .next t →
        (∀ x, x < addr ∨ addr + 64 ≤ x → t.byteIn (.store c) x = s.byteIn (.store c) x)
        ∧ (∀ p, p ≠ .store c → ∀ x, t.byteIn p x = s.byteIn p x))
    ∧ (∀ (i : Instr) (t : State), i ∈ ([.gst g0 d0 a0 b0 z0, .sqw g0 n0 a0 b0 x0, .kset g0 d0 k0 r0 c0, .kadd g0 d0 k0 r0 c0] : List Instr) →
      exec i s = .next t → ∀ p x, t.byteIn p x = s.byteIn p x)
    ∧ (∀ (r : Req) (g pa : Nat),
      let n := match r.op with | .read .. => 0 | .write n => n | .amo _ _ ty => amoBytes ty;
      let t := (s.effect r g pa).1;
      (∀ x, x < pa ∨ pa + n ≤ x → t.byteIn (.dome g) x = s.byteIn (.dome g) x)
        ∧ (∀ p, p ≠ .dome g → ∀ x, t.byteIn p x = s.byteIn p x))

/-- R250, R264, R277, R295, R317: ILLEGAL, a remote post that names no other core among it, STREAM, ABSENT and BR_DELAY, also at a
place after a branch word that is reached otherwise, in this order and under either guard, before anything else of the word. -/
def Obligations.WordFaultsComeFirst : Prop :=
  ∀ (sd : Side) (q : Seq) (v : Variant),
    (∀ i : Instr, i.wf = false → checkWord i sd q v = some .illegal)
    ∧ (∀ i : Instr, i.wf = true → i.sideIllegal sd = false → i.sideOk sd = false → checkWord i sd q v = some .stream)
    ∧ (∀ (g : BitVec 4) (sv : BitVec 5), (Instr.tcenc g sv).wf = true → sd = .a → v = .gl4 → checkWord (.tcenc g sv) sd q v = some .absent)
    ∧ (∀ i : Instr, i.wf = true → i.sideIllegal sd = false → i.sideOk sd = true → i.noSlot = true → q.inSlot = true → checkWord i sd q v = some .brDelay)
    ∧ (∀ (i : Instr) (s : State) (u : SeqId), s.postsNowhere u.core i = true → s.wordCheck u i = some .illegal)
    ∧ (∀ (i : Instr) (s : State) (u : SeqId) (f : FaultCode), s.postsNowhere u.core i = false →
      checkWord i u.side (s.seq u) s.rom.variant = some f → s.wordCheck u i = some f)
    ∧ (∀ (i : Instr) (s : State) (u : SeqId), s.postsNowhere u.core i = false → checkWord i u.side (s.seq u) s.rom.variant = none →
      i.noSlot = true → (s.core u.core).slotAt (s.seq u).pc.toNat = true → s.wordCheck u i = some .brDelay)
    ∧ (∀ (i : Instr) (s : State) (f : FaultCode), i.isWord = true → s.canIssue s.m.cur = true →
      s.wordCheck s.m.cur i = some f →
      exec i s = .next (s.raisePrecise s.m.cur ((encode i).getD 0) { code := f }))

/-- R276: the tests of the condition codes, and that codes 12 to 15 are reserved. -/
def Obligations.ConditionCodes : Prop :=
    (∀ x y : Word, (condHolds 0 x y = true ↔ x = y)
      ∧ (condHolds 1 x y = true ↔ x ≠ y)
      ∧ (condHolds 2 x y = true ↔ x.toInt < y.toInt)
      ∧ (condHolds 3 x y = true ↔ y.toInt ≤ x.toInt)
      ∧ (condHolds 4 x y = true ↔ x.toNat < y.toNat)
      ∧ (condHolds 5 x y = true ↔ y.toNat ≤ x.toNat)
      ∧ (condHolds 6 x y = true ↔ x.toInt ≤ y.toInt)
      ∧ (condHolds 7 x y = true ↔ y.toInt < x.toInt)
      ∧ (condHolds 8 x y = true ↔ x.toNat ≤ y.toNat)
      ∧ (condHolds 9 x y = true ↔ y.toNat < x.toNat)
      ∧ (condHolds 10 x y = true ↔ x &&& y = 0)
      ∧ (condHolds 11 x y = true ↔ x &&& y ≠ 0))
    ∧ (∀ (g : BitVec 4) (p : BitVec 3) (a b : BitVec 5) (k : BitVec 4), 12 ≤ k.toNat → (Instr.cmp g p a b k).wf = false)
    ∧ (∀ (g : BitVec 4) (p : BitVec 3) (a : BitVec 5) (k : BitVec 4) (i : BitVec 10), 12 ≤ k.toNat → (Instr.cmpi g p a k i).wf = false)

/-- R269: s0, s30 and s31. -/
def Obligations.SpecialScalarFields : Prop :=
  ∀ q : Seq,
    (q.s 0 = 0 ∧ ∀ (s : State) (u : SeqId) (lat : Nat) (v : Word), s.writeS u 0 lat v = s)
    ∧ (∀ (e : QEntry) (l : List QEntry), readSrcs q (e :: l) [30] = [e.val.truncate 64])
    ∧ (∀ (e f : QEntry) (l : List QEntry), readSrcs q (e :: f :: l) [30, 30] = [e.val.truncate 64, f.val.truncate 64])
    ∧ (∀ (e : QEntry) (l : List QEntry) (a : BitVec 5), a ≠ 30 → readSrcs q (e :: l) [a, 30] = [q.s a, e.val.truncate 64] ∧ readSrcs q (e :: l) [30, a] = [e.val.truncate 64, q.s a])
    ∧ (∀ (a b : BitVec 5) (sd : Side), ({ srcs := [a, b] } : Operands).popList sd = List.replicate ([a, b].count 30) sd.qin)
    ∧ (∀ (s : State) (u : SeqId) (lat : Nat) (v : Word), s.writeS u 31 lat v = s.pushLater u.core u.side.qout lat (v.setWidth 8192))
    ∧ (∀ (g : BitVec 4) (a b : BitVec 5), (Instr.add g 30 a b).wf = false ∧ (Instr.add g a 31 b).wf = false ∧ (Instr.add g a b 31).wf = false)

/-- R286: clz, ctz and popc count the leading zeros, the trailing zeros and the ones of a word. -/
def Obligations.BitCounts : Prop :=
    (∀ v : Word, v ≠ 0 → leadingZeros v.toNat 64 < 64 ∧ 2 ^ (63 - leadingZeros v.toNat 64) ≤ v.toNat ∧ v.toNat < 2 ^ (64 - leadingZeros v.toNat 64))
    ∧ (leadingZeros 0 64 = 64 ∧ trailingZeros 0 64 = 64 ∧ onesCount 64 0 = 0)
    ∧ (∀ v : Word, v ≠ 0 → v.getLsbD (trailingZeros v.toNat 64) = true ∧ ∀ j < trailingZeros v.toNat 64, v.getLsbD j = false)
    ∧ (∀ v : Word, onesCount 64 v.toNat = ((List.range 64).filter (fun j => v.getLsbD j)).length)

/-- R48, R272, R273: which system registers there are, which sequencers may read and write each, what they read, and what a write
leaves for a read. -/
def Obligations.SystemRegisterTable : Prop :=
    (∀ (s : State) (q : SeqId), let k := s.core q.core;
      s.sysRead q 0x000 = s.rom.variant.caps
      ∧ s.sysRead q 0x001 = 0x0100
      ∧ bits (s.sysRead q 0x002) 63 36 = 0 ∧ bits (s.sysRead q 0x002) 35 26 = (s.die (dieOf q.core)).rdie.toNat
      ∧ bits (s.sysRead q 0x002) 25 20 = (s.die (dieOf q.core)).modPos.toNat ∧ bits (s.sysRead q 0x002) 19 16 = dieOf q.core % 16
      ∧ bits (s.sysRead q 0x002) 15 7 = 0 ∧ bits (s.sysRead q 0x002) 6 6 = (match q.side with | .a => 0 | .x => 1)
      ∧ bits (s.sysRead q 0x002) 5 3 = q.core / 8 % 8 ∧ bits (s.sysRead q 0x002) 2 0 = q.core % 8
      ∧ s.sysRead q 0x003 = k.stage
      ∧ s.sysRead q 0x010 = BitVec.ofNat 64 (s.die (dieOf q.core)).keyc
      ∧ s.sysRead q 0x011 = BitVec.ofNat 64 (s.cluster (clusterOf q.core)).ccyc
      ∧ s.sysRead q 0x012 = k.mstamp
      ∧ s.sysRead q 0x013 = BitVec.ofNat 64 (s.die (dieOf q.core)).keyc + (s.die (dieOf q.core)).reg 0x0250
      ∧ s.sysRead q 0x020 = (k.seq q.side).l0.lc
      ∧ s.sysRead q 0x021 = (k.seq q.side).l0.ls.setWidth 64
      ∧ s.sysRead q 0x022 = (k.seq q.side).l0.le.setWidth 64
      ∧ s.sysRead q 0x023 = (k.seq q.side).l1.lc
      ∧ s.sysRead q 0x024 = (k.seq q.side).l1.ls.setWidth 64
      ∧ s.sysRead q 0x025 = (k.seq q.side).l1.le.setWidth 64
      ∧ s.sysRead q 0x030 = k.vwb
      ∧ s.sysRead q 0x031 = k.vtype
      ∧ s.sysRead q 0x032 = k.vrm
      ∧ s.sysRead q 0x033 = k.vclb
      ∧ s.sysRead q 0x034 = k.vflags
      ∧ s.sysRead q 0x050 = k.chainHead
      ∧ s.sysRead q 0x051 = k.chainTail
      ∧ s.sysRead q 0x060 = k.detmode
      ∧ ∀ b : BitVec 12, b.toNat < 16 → s.sysRead q (0x040 + b) = k.bfmtOf b.toNat)
    ∧ (∀ r : BitVec 12, (sysInfo r).isSome = true ↔ r.toNat ≤ 3 ∨ (0x010 ≤ r.toNat ∧ r.toNat ≤ 0x013) ∨ (0x020 ≤ r.toNat ∧ r.toNat ≤ 0x025) ∨ (0x030 ≤ r.toNat ∧ r.toNat ≤ 0x034) ∨ (0x040 ≤ r.toNat ∧ r.toNat ≤ 0x051) ∨ r.toNat = 0x060)
    ∧ (∀ (g : BitVec 4) (sv : BitVec 5) (r : BitVec 12) (sd : Side) (q : Seq) (v : Variant),
      let any : List Instr := [.rsr g sv r, .wsr g sv r, .xsr g sv r];
      (sysInfo r = none → ∀ i ∈ any, checkWord i sd q v = some .illegal)
      ∧ (r ∈ ([0x000, 0x001, 0x002, 0x003, 0x010, 0x011, 0x013, 0x060] : List (BitVec 12)) →
          checkWord (.wsr g sv r) sd q v = some .illegal ∧ checkWord (.xsr g sv r) sd q v = some .illegal
          ∧ ((Instr.rsr g sv r).wf = true → checkWord (.rsr g sv r) sd q v = none))
      ∧ (r ∈ ([0x012, 0x030, 0x031, 0x032, 0x033, 0x034] : List (BitVec 12)) →
          ∀ i ∈ any, i.wf = true → checkWord i .a q v = some .stream ∧ checkWord i .x q v = none)
      ∧ (r ∈ ([0x050, 0x051] : List (BitVec 12)) → ∀ i ∈ any, i.wf = true → checkWord i .x q v = some .stream ∧ checkWord i .a q v = none)
      ∧ ((0x020 ≤ r.toNat ∧ r.toNat ≤ 0x025) ∨ (0x040 ≤ r.toNat ∧ r.toNat ≤ 0x04F) → ∀ i ∈ any, i.wf = true → checkWord i sd q v = none))
    ∧ (∀ (s : State) (q : SeqId) (r : BitVec 12) (v : Word), r ∈ ([0x012, 0x020, 0x023, 0x030, 0x031, 0x032, 0x033, 0x040, 0x04F, 0x050, 0x051] : List (BitVec 12)) →
      (s.onCore q.core (fun k => k.putSys q.side r.toNat v)).sysRead q r = v)

/-- R249, R251, R254: what taking a precise fault writes and where it leaves the record. -/
def Obligations.PreciseFaultRecord : Prop :=
    ∀ (s : State) (q : SeqId) (insn : BitVec 32) (f : FaultCode) (n : Nat),
    f ∈ ([.illegal, .stream, .absent, .align, .addr, .loopState, .brDelay, .queueLive, .footprint, .determinism, .timing,
      .formatStore, .trap, .brk, .descriptor] : List FaultCode) →
    (s.core q.core).running = some n → s.isStopped q.core = false →
    let t := s.raisePrecise q insn { code := f }
    let g := dieOf q.core
    (∃ r, (t.die g).heldFaults = (s.die g).heldFaults ++ [r] ∧ r.core = q.core ∧ r.ofRec = some n
      ∧ bits r.raw 7 0 = f.num ∧ bits r.raw 143 136 = (if f = .trap ∨ f = .brk then 13 else 12) ∧ r.raw.getLsbD 129 = true
      ∧ r.raw.getLsbD 131 = false ∧ bits r.raw 155 152 = (match q.side with | .a => 0 | .x => 1)
      ∧ bits r.raw 191 160 = insn.toNat ∧ bits r.raw 255 224 = (s.seq q).pc.toNat
      ∧ bits r.raw 383 320 = (s.die g).keyc % 2 ^ 64 ∧ bits r.raw 447 384 = 0 ∧ bits r.raw 511 448 = 0)
    ∧ (t.core q.core).stopAt = some (s.ccyc q.core) ∧ (t.seq q).nextIssue = s.ccyc q.core + 1 ∧ (t.seq q).wait = none
    ∧ (t.seq q).pc = (s.seq q).pc ∧ (t.seq q).regs = (s.seq q).regs ∧ (t.core q.core).store = (s.core q.core).store
    ∧ (t.core q.core).acc = (s.core q.core).acc ∧ (∀ c, c ≠ q.core → t.core c = s.core c)

/-- R294, R295: a branch's two delay slots issue, then its target or the word after them; the slots are known as such. -/
def Obligations.BranchDelay : Prop :=
    ∀ (q : Seq) (n : Nat) (tgt : Option (BitVec 32)), q.l0.active = false → q.l1.active = false →
    let a := q.advance n (.branch tgt)
    let b := a.advance (n + 1) .next
    let c := b.advance (n + 2) .next
    a.pc = q.pc + 4 ∧ b.pc = q.pc + 8 ∧ c.pc = tgt.getD (q.pc + 12) ∧ a.inSlot = true ∧ b.inSlot = true ∧ c.slots = 0
      ∧ a.nextIssue = n + 1 ∧ b.nextIssue = n + 2 ∧ c.nextIssue = n + 3

/-- R297, R299: the end-of-body test and leaving loops by a branch. -/
def Obligations.LoopEndTest : Prop :=
  ∀ (q : Seq) (n : Nat), q.target = none →
    (∀ (lv : BitVec 1), q.lastLoop = lv → (q.level lv).active = true → q.pc = (q.level lv).le.setWidth 32 → 1 < (q.level lv).lc.toNat →
      let t := q.advance n .next;
      t.pc = (q.level lv).ls.setWidth 32 ∧ t.level lv = { q.level lv with lc := (q.level lv).lc - 1 } ∧ t.level (lv ^^^ 1) = q.level (lv ^^^ 1))
    ∧ (∀ (lv : BitVec 1), q.lastLoop = lv → (q.level lv).active = true → q.pc = (q.level lv).le.setWidth 32 → (q.level lv).lc.toNat ≤ 1 → (q.level (lv ^^^ 1)).active = false →
      let t := q.advance n .next;
      t.pc = q.pc + 4 ∧ t.level lv = { q.level lv with lc := 0, active := false })
    ∧ (∀ (lv : BitVec 1), q.lastLoop = lv → (q.level lv).active = true → q.pc = (q.level lv).le.setWidth 32 → (q.level lv).lc.toNat ≤ 1 → (q.level (lv ^^^ 1)).active = true → (q.level (lv ^^^ 1)).le = (q.level lv).le → 1 < (q.level (lv ^^^ 1)).lc.toNat →
      let t := q.advance n .next;
      t.pc = (q.level (lv ^^^ 1)).ls.setWidth 32 ∧ t.level lv = { q.level lv with lc := 0, active := false } ∧ t.level (lv ^^^ 1) = { q.level (lv ^^^ 1) with lc := (q.level (lv ^^^ 1)).lc - 1 })
    ∧ (∀ (lv : BitVec 1), q.lastLoop = lv → (q.level lv).active = true → q.pc ≠ (q.level lv).le.setWidth 32 →
      let t := q.advance n .next;
      t.pc = q.pc + 4 ∧ t.l0 = q.l0 ∧ t.l1 = q.l1)
    ∧ (∀ (lv : BitVec 1) (a : BitVec 32), (q.level lv).active = true → (a.toNat < (q.level lv).ls.toNat ∨ (q.level lv).le.toNat < a.toNat) → ((q.leaveLoops a).level lv).active = false ∧ ((q.leaveLoops a).level lv).lc = 0)

/-- R108, R109, R121: queues keep their order, and blocked queue traffic freezes an anchored pair and makes another wait. -/
def Obligations.QueueDiscipline : Prop :=
  ∀ (k : Core) (n : QName),
    (∀ e : QEntry, (k.push n e).queue n = k.queue n ++ [e] ∧ (∀ m, m ≠ n → (k.push n e).queue m = k.queue m))
    ∧ (∀ (e : QEntry) (l : List QEntry), k.queue n = e :: l → k.head n = e.val ∧ (k.pop n).queue n = l ∧ (∀ m, m ≠ n → (k.pop n).queue m = k.queue m))
    ∧ (k.queue n = [] → popBlock k true n 0 = (if n = .reply then some (.wait (.qPop n 1)) else some (.freeze 1 n 0)) ∧ popBlock k false n 0 = some (.wait (.qPop n 1)))
    ∧ (∀ (e : QEntry) (l : List QEntry) (anch : Bool), k.queue n = e :: l → e.isWritten = true → popBlock k anch n 0 = none)
    ∧ (∀ (v : Row) (d : Nat) (l : List QEntry) (anch : Bool), k.queue n = ⟨v, .pending d⟩ :: l → n ≠ .reply → popBlock k anch n 0 = some (.freeze 8 n 0))
    ∧ (∀ anch : Bool, (k.queue n).length < n.depth → pushBlock k anch n = none)
    ∧ (n ≠ .reply → n.depth ≤ (k.queue n).length → pushBlock k true n = some (.freeze 2 n 0) ∧ pushBlock k false n = some (.wait (.qPush n)))
    ∧ ((∀ i, (QName.lq i).depth = 8) ∧ (∀ i, (QName.sq i).depth = 8) ∧ QName.sAX.depth = 16 ∧ QName.sXA.depth = 16 ∧ QName.bAX.depth = 16 ∧ QName.bXA.depth = 16 ∧ QName.reply.depth = 32)

/-- R144: the owner's checks in their order. -/
def Obligations.OwnerCheckOrder : Prop :=
  ∀ (s : State) (o src va : Nat) (sec rd wr at_ : Bool),
    ((s.die o).leaf va = none → s.ownerCheck o src sec rd wr at_ va = .error .xlateMiss)
    ∧ (∀ l, (s.die o).leaf va = some l → (!sec && (lS l || (!(bits (BitVec.ofNat 64 va) 63 62 == 1) && s.rom.secureGranule (s.holder o l) (physOf l va)))) = true → s.ownerCheck o src sec rd wr at_ va = .error .security)
    ∧ (∀ l, (s.die o).leaf va = some l → (!sec && (lS l || (!(bits (BitVec.ofNat 64 va) 63 62 == 1) && s.rom.secureGranule (s.holder o l) (physOf l va)))) = false → ((rd = true ∧ lR l = false) ∨ (wr = true ∧ lW l = false)) → s.ownerCheck o src sec rd wr at_ va = .error .permission)
    ∧ (∀ l, (s.die o).leaf va = some l → (!sec && (lS l || (!(bits (BitVec.ofNat 64 va) 63 62 == 1) && s.rom.secureGranule (s.holder o l) (physOf l va)))) = false → ((rd = true → lR l = true) ∧ (wr = true → lW l = true)) → at_ = true → lRap l = false → (lA l = true ∨ src ≠ o) → s.ownerCheck o src sec rd wr at_ va = .error .atomicPermit)
    ∧ (∀ l, (s.die o).leaf va = some l → (!sec && (lS l || (!(bits (BitVec.ofNat 64 va) 63 62 == 1) && s.rom.secureGranule (s.holder o l) (physOf l va)))) = false → ((rd = true → lR l = true) ∧ (wr = true → lW l = true)) → (at_ = true → lRap l = true ∨ (lA l = false ∧ src = o)) → s.ownerCheck o src sec rd wr at_ va = .ok l)
    ∧ ((∀ n sg, (ReqOp.read n sg).needs = (true, false, false)) ∧ (∀ n, (ReqOp.write n).needs = (false, true, false)) ∧ (∀ op ty, (ReqOp.amo true op ty).needs = (true, true, true) ∧ (ReqOp.amo false op ty).needs = (false, true, true)))
    ∧ (∀ (g h : Nat) (f : FaultCode), bits (BitVec.ofNat 64 va) 63 62 = 0 → s.localDie (bits (BitVec.ofNat 64 va) 61 52) = some h → s.m.excluded.contains h = false → s.ownerCheck h g sec rd wr false va = .error f → s.locate g sec rd wr va = .error (f, 0))

/-- R142, R143, R145, R162, R167, R313: where a translated access goes, and what reads, writes and atomics do there. -/
def Obligations.TranslationAndAtomics : Prop :=
  ∀ (s : State) (r : Req) (g pa : Nat),
    (∀ (l : Word) (va : Nat), lLay l = 0 → lG l = false → physOf l va = lPpn l * 65536 + va % 65536)
    ∧ (∀ (l : Word) (va : Nat), lLay l = 0 → lG l = true → physOf l va = lPpn l * 65536 + va % 2 ^ 21)
    ∧ (∀ (o : Nat) (l : Word), lA l = false → s.holder o l = o)
    ∧ (∀ (n : Nat) (sg : Bool), r.op = .read n sg → (s.effect r g pa).1 = s ∧ (s.effect r g pa).2 = (if sg then BitVec.ofInt 64 (signed (8 * n) (readNat (s.die g).dome pa n)) else BitVec.ofNat 64 (readNat (s.die g).dome pa n)))
    ∧ (∀ n : Nat, r.op = .write n → readNat ((s.effect r g pa).1.die g).dome pa n = r.data.toNat % 2 ^ (8 * n))
    ∧ (∀ (ret : Bool) (op ty : Nat), r.op = .amo ret op ty → let n := amoBytes ty;
      readNat ((s.effect r g pa).1.die g).dome pa n = amoNew ret op ty (readNat (s.die g).dome pa n) (r.data.toNat % 2 ^ (8 * n)) (r.cmp.toNat % 2 ^ (8 * n)) % 2 ^ (8 * n)
      ∧ (s.effect r g pa).2 = (if ty < 2 then BitVec.ofInt 64 (signed (8 * n) (readNat (s.die g).dome pa n)) else BitVec.ofNat 64 (readNat (s.die g).dome pa n)))
    ∧ (∀ (ret : Bool) (x y z : Nat), let w := fun ty => if ty % 2 = 0 then 32 else 64;
      (∀ ty < 4, amoNew ret 0 ty x y z = (x + y) % 2 ^ w ty ∧ amoNew ret 3 ty x y z = x &&& y ∧ amoNew ret 4 ty x y z = x ||| y ∧ amoNew ret 5 ty x y z = x ^^^ y)
      ∧ (∀ ty, ty = 2 ∨ ty = 3 → amoNew ret 1 ty x y z = min x y ∧ amoNew ret 2 ty x y z = max x y)
      ∧ (∀ ty < 2, signed (w ty) (amoNew ret 1 ty x y z) = min (signed (w ty) x) (signed (w ty) y) ∧ signed (w ty) (amoNew ret 2 ty x y z) = max (signed (w ty) x) (signed (w ty) y))
      ∧ (∀ ty < 4, amoNew true 6 ty x y z = y ∧ amoNew true 7 ty x y z = (if x = z then y else x)))

/-- R184, R191: rounding a value that a format holds gives its code back. -/
def Obligations.FormatsRoundTrip : Prop :=
    ∀ (F : Fmt) (mode : RMode) (v : Nat) (neg : Bool) (m : Nat) (e : Int),
    F ∈ ([fp32, fp16, bf16, fp8e4m3, fp8e5m2, fp4e2m1] : List Fmt) → v < 2 ^ (1 + F.eb + F.mb) → F.decode v = .fin neg m e →
    F.round mode (.fin neg m e) = v

/-- R18, R113: the end of a cycle counts KEYC on every die and CCYC in the clusters that are not frozen. -/
def Obligations.ClockTick : Prop :=
  ∀ s : State,
    (s.rom.held = false → ∀ g, g < s.rom.variant.ndie → (s.tick.die g).keyc = (s.die g).keyc + 1)
    ∧ (s.rom.held = true → ∀ g, (s.tick.die g).keyc = (s.die g).keyc)
    ∧ (s.rom.held = false → ∀ cl, s.frozen cl = true → (s.cluster cl).causes.all (fun f => f.served && decide (f.left ≤ 1)) = false → (s.tick.cluster cl).ccyc = (s.cluster cl).ccyc)
    ∧ (s.rom.held = false → ∀ cl, cl < s.rom.variant.ndie * 8 → s.frozen cl = false → (∀ u ∈ (s.cluster cl).uses, u.at_ ≠ (s.cluster cl).ccyc) → (s.tick.cluster cl).ccyc = (s.cluster cl).ccyc + 1)

/-- R61, R63, R64, R68: where a completion record is written and what it holds. -/
def Obligations.CompletionRecords : Prop :=
    ∀ (s : State) (c : Completion), s.cqRoom = true → s.m.lead.out = [] →
    let t := s.post c
    let at_ := bits (s.qreg 0x0600) 63 12 * 4096 + (s.qreg 0x0618).toNat * 32
    let log := bits (s.qreg 0x0608) 4 0
    readNat t.m.host at_ 8 = (c.status * 2 ^ 56 + c.opc * 2 ^ 48 + c.sq * 2 ^ 44 + (if s.m.lead.phase then 2 ^ 43 else 0)
        + (if c.late then 2 ^ 42 else 0) + (if c.super then 2 ^ 41 else 0) + c.cid) % 2 ^ 64
    ∧ readNat t.m.host (at_ + 8) 8 = c.result0 % 2 ^ 64 ∧ readNat t.m.host (at_ + 16) 8 = c.result1 % 2 ^ 64
    ∧ readNat t.m.host (at_ + 24) 8 = s.sqHead c.sq % 2 ^ 64
    ∧ (∀ a, a < at_ ∨ at_ + 32 ≤ a → readByte t.m.host a = readByte s.m.host a)
    ∧ t.qreg 0x0618 = BitVec.ofNat 64 (((s.qreg 0x0618).toNat + 1) % 2 ^ log)
    ∧ t.m.cores = s.m.cores ∧ t.rom = s.rom

/-- R61: an input whose cycle has come is the next step, a scrub read at the end of its cycle: a row that a unit outside the cores
does, or bytes the host writes to its memory (log 1, log 6). -/
def Obligations.InputsAct : Prop :=
    ∀ (s : State) (r : List (Nat × Input)),
    let u : State := { s with m := { s.m with agenda := r } }
    (∀ i, s.m.phase = .events → (Input.act i).atEnd = false → s.m.agenda = (0, .act i) :: r → step s = exec i u)
    ∧ (∀ i, s.m.phase = .issue [] → (Input.act i).atEnd = true → s.m.agenda = (0, .act i) :: r → step s = exec i u)
    ∧ (∀ a l, s.m.phase = .events → s.m.agenda = (0, .hostWrite a l) :: r → ∃ t, step s = .next t
        ∧ t = { u with m := { u.m with host := t.m.host } }
        ∧ (∀ x, x < a ∨ a + l.length ≤ x → readByte t.m.host x = readByte s.m.host x)
        ∧ (∀ k b, l[k]? = some b → readByte t.m.host (a + k) = b))
end

