-- ==== Sys2Proof/Laws/Issue.lean ====
section
/-! SUPPORT. What issuing a word answers: one law each for a true guard, a false guard, a fault of the word's place, and a word
whose turn it is not. -/

namespace Sys2Proof.Machine

/-- A word that runs answers what its effect on the state with its pops made concludes. -/
theorem issueWith_runs {s : State} {i : Instr} {o : Operands} (h : s.runs i o = true) (f : SeqId → State → Res)
    (body : SeqId → Vals → State → Res) :
    issueWith i o f body s = conclude s (s.popped o) s.m.cur i true (s.reads o).s (body s.m.cur (s.reads o) (s.popped o)) := by
  unfold State.runs State.issues at h
  simp only [Bool.and_eq_true, Option.isNone_iff_eq_none] at h
  obtain ⟨⟨⟨h1, h2⟩, h3⟩, h4⟩ := h
  have h4 : ((s.seq s.m.cur).captured.map (·.1)).getD ((s.seq s.m.cur).guardTrue i.guard) = true := h4
  unfold issueWith
  simp only [h1, if_true]
  have e : (s.core s.m.cur.core).seq s.m.cur.side = s.seq s.m.cur := rfl
  simp only [e, h2, h3, h4, if_true]
  rfl

/-- A word with a false guard answers what its false-guard effect on that state concludes. -/
theorem issueWith_skips {s : State} {i : Instr} {o : Operands} (h : s.skips i o = true) (f : SeqId → State → Res)
    (body : SeqId → Vals → State → Res) :
    issueWith i o f body s = conclude s (s.popped o) s.m.cur i false (s.reads o).s (f s.m.cur (s.popped o)) := by
  unfold State.skips State.issues at h
  simp only [Bool.and_eq_true, Option.isNone_iff_eq_none, Bool.not_eq_true'] at h
  obtain ⟨⟨⟨h1, h2⟩, h3⟩, h4⟩ := h
  have h4 : ((s.seq s.m.cur).captured.map (·.1)).getD ((s.seq s.m.cur).guardTrue i.guard) = false := h4
  unfold issueWith
  simp only [h1, if_true]
  have e : (s.core s.m.cur.core).seq s.m.cur.side = s.seq s.m.cur := rfl
  simp only [e, h2, h3, h4, Bool.false_eq_true, if_false]
  rfl

/-- A word that runs and whose effect is done goes on as the effect says. -/
theorem issueWith_done {s t : State} {i : Instr} {o : Operands} {fl : Flow} (h : s.runs i o = true) {f : SeqId → State → Res}
    {body : SeqId → Vals → State → Res} (hb : body s.m.cur (s.reads o) (s.popped o) = .done t fl) :
    issueWith i o f body s = .next (t.finish s.m.cur fl) := by
  rw [issueWith_runs h, hb]
  rfl

/-- A word that runs and whose effect is a precise fault takes it; its pops are not made. -/
theorem issueWith_fault {s : State} {i : Instr} {o : Operands} {x : FaultInfo} (h : s.runs i o = true) {f : SeqId → State → Res}
    {body : SeqId → Vals → State → Res} (hb : body s.m.cur (s.reads o) (s.popped o) = .fault x) :
    issueWith i o f body s = .next (s.raisePrecise s.m.cur ((encode i).getD 0) x) := by
  rw [issueWith_runs h, hb]
  rfl

/-- A word that runs and whose effect is to wait starts the wait with its pops made, and keeps what it has read. -/
theorem issueWith_wait {s : State} {i : Instr} {o : Operands} {w : WaitCond} (h : s.runs i o = true) {f : SeqId → State → Res}
    {body : SeqId → Vals → State → Res} (hb : body s.m.cur (s.reads o) (s.popped o) = .wait w) :
    issueWith i o f body s = .next ((s.popped o).startWait s.m.cur w (some (true, (s.reads o).s))) := by
  rw [issueWith_runs h, hb]
  rfl

/-- A word whose place or fields refuse it takes the fault of R250 before anything else. -/
theorem issueWith_refused {s : State} {i : Instr} {o : Operands} {x : FaultCode} (h : s.canIssue s.m.cur = true)
    (hx : s.wordCheck s.m.cur i = some x) (f : SeqId → State → Res)
    (body : SeqId → Vals → State → Res) :
    issueWith i o f body s = .next (s.raisePrecise s.m.cur ((encode i).getD 0) { code := x }) := by
  simp only [issueWith, h, if_true, hx]

end Sys2Proof.Machine
end

