-- ==== Sys2Proof/Laws/Checks.lean ====
section
/-! SUPPORT. What the shared checks of accesses answer: when an address passes, and what an access does that meets no conflict
and no uncorrectable word. -/

namespace Sys2Proof.Machine

/-- An engine's block address passes exactly when its bytes lie in core store and it is aligned. -/
theorem blockFault_none {a : Word} {n k : Nat} : blockFault a n k = none ↔ a.toNat + n ≤ 2 ^ 21 ∧ a.toNat % k = 0 := by
  unfold blockFault
  constructor
  · intro h
    split at h
    · exact nomatch h
    · split at h
      · exact nomatch h
      · simp_all
  · rintro ⟨h1, h2⟩
    have h1 : ¬ 2 ^ 21 < a.toNat + n := Nat.not_lt.mpr h1
    simp only [h1, h2, decide_false, Bool.false_eq_true, if_false, bne_self_eq_false]

/-- A load's or store's address passes exactly when it is below 2^21 and aligned. -/
theorem storeFault_none {a : Word} {n : Nat} : storeFault a n = none ↔ a.toNat < 2 ^ 21 ∧ a.toNat % n = 0 := by
  unfold storeFault
  constructor
  · intro h
    split at h
    · exact nomatch h
    · split at h
      · exact nomatch h
      · exact ⟨Nat.not_le.mp ‹_›, Decidable.not_not.mp ‹_›⟩
  · rintro ⟨h1, h2⟩
    rw [if_neg (Nat.not_le.mpr h1), if_neg (fun x => x h2)]

/-- A descriptor's address passes exactly when it is below 2^21 and a multiple of 64. -/
theorem descAddrFault_none {a : Word} : descAddrFault a = none ↔ a.toNat < 2 ^ 21 ∧ a.toNat % 64 = 0 := by
  unfold descAddrFault
  constructor
  · intro h
    split at h
    · exact nomatch h
    · split at h
      · exact nomatch h
      · exact ⟨Nat.not_le.mp ‹_›, Decidable.not_not.mp ‹_›⟩
  · rintro ⟨h1, h2⟩
    rw [if_neg (Nat.not_le.mpr h1), if_neg (fun x => x h2)]

/-- The footprint check of an access that conflicts with nothing changes nothing and passes. -/
theorem checkFps_free {s : State} {c : Nat} {iss : Issuer} {rs : List Range} (h : (s.core c).conflicts iss rs (s.ccyc c) = []) :
    s.checkFps c iss rs = (s, true) := by
  simp only [State.checkFps, h, List.filter_nil, List.foldl_nil, List.isEmpty_nil]

/-- A store without an uncorrectable word has none in any range. -/
theorem eccIn_good {k : Core} (h : k.bad = []) (c : Nat) (acc : Bool) (lo hi : Nat) : k.eccIn c acc lo hi = none := by
  simp only [Core.eccIn, h, List.find?_nil, Option.map_none]

/-- Reading a core without an uncorrectable word raises nothing. -/
theorem eccRead_good {s : State} {c : Nat} (h : (s.core c).bad = []) (rs : List Range) : s.eccRead c rs = s := by
  have e : rs.findSome? (fun r =>
      if r.write then none
      else if r.acc then (s.core c).eccIn c true (1024 * r.lo) (1024 * r.hi + 1023) else (s.core c).eccIn c false r.lo r.hi)
        = none := by
    simp only [eccIn_good h]
    induction rs with
    | nil => rfl
    | cons r l ih => simp only [List.findSome?_cons, ite_self] at ih ⊢; exact ih
  simp only [State.eccRead, e]

/-- A sequencer's store access that conflicts with nothing, on a core without uncorrectable words, records its footprints and
bank uses and goes on. -/
theorem accessStore_free {s o : State} {c class_ last : Nat} {rs : List Range} {banks : List (Nat × Nat)} {f : State → Res}
    (h : (o.core c).conflicts .seqA rs (o.ccyc c) = []) (b : (s.core c).bad = []) :
    accessStore s o c class_ last rs banks f
      = f (banks.foldl (fun s b => s.useBanks c b.1 class_ [b.2]) (s.onCore c (·.addFps .seqA 0 rs (s.ccyc c) (some last)))) := by
  simp only [accessStore, checkFps_free h, if_true, eccRead_good b]

/-- A vector access that conflicts with nothing, on a core without uncorrectable words, records its footprints and goes on. -/
theorem accessRows_free {s o : State} {c lat : Nat} {rs : List Range} {f : State → Res}
    (h : (o.core c).conflicts .vector rs (o.ccyc c) = []) (b : (s.core c).bad = []) :
    accessRows s o c lat rs f = f (s.onCore c (·.addFps .vector 0 rs (s.ccyc c) (some (s.ccyc c + lat - 1)))) := by
  simp only [accessRows, checkFps_free h, if_true, eccRead_good b]

end Sys2Proof.Machine
end

