-- ==== Sys2Proof/Laws/Map.lean ====
section
/-! SUPPORT. Sparse tables and memories: a read after a write, writes apart, and the canonical form that every memory operation
keeps. -/

namespace Sys2Proof.Machine

variable {α : Type}

/-- A table read after a table write. -/
theorem tabGet_tabPut (d : α) (k j : Nat) (v : α) (t : Tab α) :
    tabGet d j (tabPut k v t) = if j = k then v else tabGet d j t := by
  induction t with
  | nil =>
    by_cases h : j = k
    · subst h; simp only [tabPut, tabGet, if_true]
    · simp only [tabPut, tabGet, if_neg h, if_neg (Ne.symm h)]
  | cons e r ih =>
    obtain ⟨i, w⟩ := e
    simp only [tabPut]
    by_cases h1 : i = k
    · subst h1
      simp only [if_true, tabGet]
      by_cases h : j = i
      · subst h; simp only [if_true]
      · simp only [if_neg h, if_neg (Ne.symm h)]
    · rw [if_neg h1]
      by_cases h2 : k < i
      · rw [if_pos h2]
        by_cases h : j = k
        · subst h; simp only [tabGet, if_true]
        · simp only [tabGet, if_neg h, if_neg (Ne.symm h)]
      · rw [if_neg h2]
        simp only [tabGet, ih]
        by_cases h : i = j
        · subst h; simp only [if_true, if_neg h1]
        · simp only [if_neg h]

/-- A table read after a deletion. -/
theorem tabGet_tabDel (d : α) (k j : Nat) (t : Tab α) : tabGet d j (tabDel k t) = if j = k then d else tabGet d j t := by
  induction t with
  | nil => simp only [tabDel, List.filter_nil, tabGet, ite_self]
  | cons e r ih =>
    obtain ⟨i, w⟩ := e
    by_cases h : i = k
    · subst h
      have e : tabDel i ((i, w) :: r) = tabDel i r := by simp [tabDel]
      rw [e, ih]
      by_cases h : j = i
      · simp only [if_pos h]
      · simp only [if_neg h, tabGet, if_neg (Ne.symm h)]
    · have e : tabDel k ((i, w) :: r) = (i, w) :: tabDel k r := by simp [tabDel, h]
      rw [e]
      simp only [tabGet, ih]
      by_cases h' : i = j
      · subst h'; simp only [if_true, if_neg h]
      · simp only [if_neg h']

/-- A read after a write at an unlisted-value memory. -/
theorem tabGet_memSet [DecidableEq α] (d : α) (k j : Nat) (v : α) (t : Tab α) :
    tabGet d j (memSet d k v t) = if j = k then v else tabGet d j t := by
  unfold memSet
  split
  · subst_vars; exact tabGet_tabDel _ k j t
  · exact tabGet_tabPut d k j v t

/-- A byte read after a byte write. -/
theorem readByte_writeByte (m : Tab Byte) (a b : Nat) (v : Byte) :
    readByte (writeByte m a v) b = if b = a then v else readByte m b := tabGet_memSet 0 a b v m

/-- A byte read after a write of bytes: the byte written there, or what was there. -/
theorem readByte_writeBytes (l : List Byte) : ∀ (m : Tab Byte) (a b : Nat),
    readByte (writeBytes m a l) b = if a ≤ b ∧ b < a + l.length then l.getD (b - a) 0 else readByte m b := by
  induction l with
  | nil => intro m a b; rw [if_neg (by simp only [List.length_nil]; omega)]; rfl
  | cons x r ih =>
    intro m a b
    simp only [writeBytes, ih, readByte_writeByte, List.length_cons]
    by_cases h : b = a
    · subst h
      rw [if_neg (by omega), if_pos rfl, if_pos (by omega)]
      simp only [Nat.sub_self, List.getD_cons_zero]
    · rw [if_neg h]
      by_cases h2 : a + 1 ≤ b ∧ b < a + 1 + r.length
      · rw [if_pos h2, if_pos (by omega)]
        obtain ⟨n, hn⟩ : ∃ n, b - a = n + 1 := ⟨b - a - 1, by omega⟩
        rw [hn, List.getD_cons_succ, show b - (a + 1) = n by omega]
      · rw [if_neg h2, if_neg (by omega)]

/-- The bytes of a number are as many as asked for. -/
theorem length_bytesOfNat : ∀ (n v : Nat), (bytesOfNat n v).length = n
  | 0, _ => rfl
  | n + 1, v => congrArg (· + 1) (length_bytesOfNat n (v / 256))

/-- A byte outside a number's bytes is not changed by writing it. -/
theorem readByte_writeNat_outside (m : Tab Byte) {a n b : Nat} (v : Nat) (h : b < a ∨ a + n ≤ b) :
    readByte (writeNat m a n v) b = readByte m b := by
  rw [writeNat, readByte_writeBytes, length_bytesOfNat, if_neg (by omega)]

/-- The bytes just written, read back. -/
theorem readBytes_writeBytes : ∀ (l : List Byte) (m : Tab Byte) (a : Nat), readBytes (writeBytes m a l) a l.length = l
  | [], _, _ => rfl
  | x :: r, m, a => by
    simp only [List.length_cons, readBytes, writeBytes, readBytes_writeBytes r]
    rw [readByte_writeBytes, if_neg (by omega), readByte_writeByte, if_pos rfl]

/-- The bytes of a number read as a number give its low bytes. -/
theorem natOfBytes_bytesOfNat : ∀ (n v : Nat), natOfBytes (bytesOfNat n v) = v % 256 ^ n
  | 0, v => by simp only [bytesOfNat, natOfBytes, Nat.pow_zero, Nat.mod_one]
  | n + 1, v => by
    simp only [bytesOfNat, natOfBytes, natOfBytes_bytesOfNat n, BitVec.toNat_ofNat]
    exact (show 256 ^ (n + 1) = 256 * 256 ^ n by rw [Nat.pow_succ, Nat.mul_comm]) ▸ (Nat.mod_mul).symm

/-- A number read after it was written. -/
theorem readNat_writeNat (m : Tab Byte) (a n v : Nat) : readNat (writeNat m a n v) a n = v % 256 ^ n := by
  have h := readBytes_writeBytes (bytesOfNat n v) m a
  rw [length_bytesOfNat] at h
  rw [readNat, writeNat, h, natOfBytes_bytesOfNat]

/-- Bytes read elsewhere are not changed by a write. -/
theorem readBytes_writeBytes_apart : ∀ (n : Nat) (l : List Byte) (m : Tab Byte) (a b : Nat), b + n ≤ a ∨ a + l.length ≤ b →
    readBytes (writeBytes m a l) b n = readBytes m b n
  | 0, _, _, _, _, _ => rfl
  | n + 1, l, m, a, b, h => by
    simp only [readBytes]
    rw [readByte_writeBytes, if_neg (by omega), readBytes_writeBytes_apart n l m a (b + 1) (by omega)]

/-- A number read elsewhere is not changed by a write. -/
theorem readNat_writeNat_apart (m : Tab Byte) {a n b k : Nat} (v : Nat) (h : b + k ≤ a ∨ a + n ≤ b) :
    readNat (writeNat m a n v) b k = readNat m b k := by
  rw [readNat, writeNat, readBytes_writeBytes_apart _ _ _ _ _ (by rw [length_bytesOfNat]; exact h)]
  rfl

/-- Rising keys stay rising when the bound falls. -/
theorem risingFrom_le {b c : Nat} (h : c ≤ b) {t : Tab α} : risingFrom b t = true → risingFrom c t = true := by
  cases t with
  | nil => exact fun _ => rfl
  | cons e r =>
    obtain ⟨j, w⟩ := e
    simp only [risingFrom, Bool.and_eq_true, decide_eq_true_eq]
    exact fun x => ⟨by omega, x.2⟩

/-- A table write keeps the keys rising. -/
theorem risingFrom_tabPut {k : Nat} {v : α} : ∀ {b : Nat} {t : Tab α}, b ≤ k → risingFrom b t = true →
    risingFrom b (tabPut k v t) = true
  | b, [], h, _ => by simp only [tabPut, risingFrom, h, decide_true, Bool.and_self]
  | b, (j, w) :: r, h, x => by
    simp only [risingFrom, Bool.and_eq_true, decide_eq_true_eq] at x
    simp only [tabPut]
    by_cases h1 : j = k
    · subst h1; simp only [if_true, risingFrom, h, decide_true, x.2, Bool.and_self]
    · rw [if_neg h1]
      by_cases h2 : k < j
      · rw [if_pos h2]
        simp only [risingFrom, Bool.and_eq_true, decide_eq_true_eq]
        exact ⟨h, by omega, x.2⟩
      · rw [if_neg h2]
        simp only [risingFrom, Bool.and_eq_true, decide_eq_true_eq]
        exact ⟨x.1, risingFrom_tabPut (by omega) x.2⟩

/-- Dropping entries keeps the keys rising. -/
theorem risingFrom_filter {p : Nat × α → Bool} : ∀ {b : Nat} {t : Tab α}, risingFrom b t = true →
    risingFrom b (t.filter p) = true
  | _, [], _ => rfl
  | b, (j, w) :: r, x => by
    simp only [risingFrom, Bool.and_eq_true, decide_eq_true_eq] at x
    by_cases h : p (j, w) = true
    · rw [List.filter_cons_of_pos h]
      simp only [risingFrom, Bool.and_eq_true, decide_eq_true_eq]
      exact ⟨x.1, risingFrom_filter x.2⟩
    · rw [List.filter_cons_of_neg h]
      exact risingFrom_le (by omega) (risingFrom_filter (b := j + 1) x.2)

/-- The entries of a table after a write are its own and the written one. -/
theorem all_tabPut {p : Nat × α → Bool} {k : Nat} {v : α} (hv : p (k, v) = true) : ∀ {t : Tab α}, t.all p = true →
    (tabPut k v t).all p = true
  | [], _ => by simp only [tabPut, List.all_cons, hv, List.all_nil, Bool.and_self]
  | (j, w) :: r, x => by
    simp only [List.all_cons, Bool.and_eq_true] at x
    simp only [tabPut]
    split
    · simp only [List.all_cons, hv, x.2, Bool.and_self]
    · split
      · simp only [List.all_cons, hv, x.1, x.2, Bool.and_self]
      · simp only [List.all_cons, x.1, all_tabPut hv x.2, Bool.and_self]

/-- A memory write keeps the canonical form. -/
theorem wf_memSet [DecidableEq α] {d : α} {k : Nat} {v : α} {t : Tab α} (h : Memory.wf d t = true) :
    Memory.wf d (memSet d k v t) = true := by
  simp only [Memory.wf, Bool.and_eq_true] at h ⊢
  unfold memSet
  split
  · refine ⟨risingFrom_filter h.1, ?_⟩
    simp only [tabDel, List.all_eq_true] at h ⊢
    exact fun e he => h.2 e (List.mem_filter.mp he).1
  · exact ⟨risingFrom_tabPut (Nat.zero_le k) h.1, all_tabPut (by simpa using ‹¬v = d›) h.2⟩

/-- A byte write keeps the canonical form. -/
theorem wf_writeByte {m : Tab Byte} (h : Memory.wf 0 m = true) (a : Nat) (b : Byte) : Memory.wf 0 (writeByte m a b) = true :=
  wf_memSet h

/-- A write of bytes keeps the canonical form. -/
theorem wf_writeBytes : ∀ (l : List Byte) {m : Tab Byte} (a : Nat), Memory.wf 0 m = true → Memory.wf 0 (writeBytes m a l) = true
  | [], _, _, h => h
  | b :: r, _, a, h => wf_writeBytes r (a + 1) (wf_writeByte h a b)

/-- A write of a number keeps the canonical form. -/
theorem wf_writeNat {m : Tab Byte} (h : Memory.wf 0 m = true) (a n v : Nat) : Memory.wf 0 (writeNat m a n v) = true :=
  wf_writeBytes _ a h

/-- Two memories in canonical form that read alike at every key are the same. -/
theorem wf_ext [DecidableEq α] {d : α} : ∀ {t u : Tab α} {b : Nat}, risingFrom b t = true → risingFrom b u = true →
    (∀ e ∈ t, e.2 ≠ d) → (∀ e ∈ u, e.2 ≠ d) → (∀ k, tabGet d k t = tabGet d k u) → t = u := by
  have low : ∀ {t : Tab α} {b k : Nat}, risingFrom b t = true → k < b → tabGet d k t = d := by
    intro t
    induction t with
    | nil => intros; rfl
    | cons e r ih =>
      obtain ⟨j, w⟩ := e
      intro b k h hk
      simp only [risingFrom, Bool.and_eq_true, decide_eq_true_eq] at h
      simp only [tabGet, if_neg (show ¬j = k by omega)]
      exact ih h.2 (by omega)
  intro t
  induction t with
  | nil =>
    intro u b _ hu _ nu e
    cases u with
    | nil => rfl
    | cons x r =>
      have := e x.1
      simp only [tabGet, if_true] at this
      exact absurd this.symm (nu x (List.mem_cons_self ..))
  | cons x r ih =>
    intro u b ht hu nt nu e
    obtain ⟨j, w⟩ := x
    cases u with
    | nil =>
      have := e j
      simp only [tabGet, if_true] at this
      exact absurd this (nt (j, w) (List.mem_cons_self ..))
    | cons y q =>
      obtain ⟨i, z⟩ := y
      simp only [risingFrom, Bool.and_eq_true, decide_eq_true_eq] at ht hu
      have hij : j = i := by
        rcases Nat.lt_trichotomy j i with h | h | h
        · have := e j
          simp only [tabGet, if_true, if_neg (show ¬i = j by omega), low hu.2 (show j < i + 1 by omega)] at this
          exact absurd this (nt (j, w) (List.mem_cons_self ..))
        · exact h
        · have := e i
          simp only [tabGet, if_true, if_neg (show ¬j = i by omega), low ht.2 (show i < j + 1 by omega)] at this
          exact absurd this.symm (nu (i, z) (List.mem_cons_self ..))
      subst hij
      have hw : w = z := by have := e j; simpa only [tabGet, if_true] using this
      subst hw
      have : r = q := by
        refine ih ht.2 hu.2 (fun e h => nt e (List.mem_cons_of_mem _ h)) (fun e h => nu e (List.mem_cons_of_mem _ h)) ?_
        intro k
        have := e k
        by_cases h : j = k
        · subst h; rw [low ht.2 (by omega), low hu.2 (by omega)]
        · simpa only [tabGet, if_neg h] using this
      rw [this]

end Sys2Proof.Machine
end

