-- ==== Sys2Proof/Laws/State.lean ====
section
/-! SUPPORT. What each named update of the state leaves in every field, and what each unit reads as after it. -/

namespace Sys2Proof.Machine

section Updates

variable (s : State)

@[simp] theorem setCore_rom (c : Nat) (k : Core) : (s.setCore c k).rom = s.rom := rfl
@[simp] theorem setCore_dies (c : Nat) (k : Core) : (s.setCore c k).m.dies = s.m.dies := rfl
@[simp] theorem setCore_clusters (c : Nat) (k : Core) : (s.setCore c k).m.clusters = s.m.clusters := rfl
@[simp] theorem setCore_recs (c : Nat) (k : Core) : (s.setCore c k).m.recs = s.m.recs := rfl
@[simp] theorem setCore_nextRec (c : Nat) (k : Core) : (s.setCore c k).m.nextRec = s.m.nextRec := rfl
@[simp] theorem setCore_launches (c : Nat) (k : Core) : (s.setCore c k).m.launches = s.m.launches := rfl
@[simp] theorem setCore_slots (c : Nat) (k : Core) : (s.setCore c k).m.slots = s.m.slots := rfl
@[simp] theorem setCore_batches (c : Nat) (k : Core) : (s.setCore c k).m.batches = s.m.batches := rfl
@[simp] theorem setCore_nextBatch (c : Nat) (k : Core) : (s.setCore c k).m.nextBatch = s.m.nextBatch := rfl
@[simp] theorem setCore_lead (c : Nat) (k : Core) : (s.setCore c k).m.lead = s.m.lead := rfl
@[simp] theorem setCore_reqs (c : Nat) (k : Core) : (s.setCore c k).m.reqs = s.m.reqs := rfl
@[simp] theorem setCore_replies (c : Nat) (k : Core) : (s.setCore c k).m.replies = s.m.replies := rfl
@[simp] theorem setCore_beacons (c : Nat) (k : Core) : (s.setCore c k).m.beacons = s.m.beacons := rfl
@[simp] theorem setCore_nextReq (c : Nat) (k : Core) : (s.setCore c k).m.nextReq = s.m.nextReq := rfl
@[simp] theorem setCore_excluded (c : Nat) (k : Core) : (s.setCore c k).m.excluded = s.m.excluded := rfl
@[simp] theorem setCore_host (c : Nat) (k : Core) : (s.setCore c k).m.host = s.m.host := rfl
@[simp] theorem setCore_ringN (c : Nat) (k : Core) : (s.setCore c k).m.ringN = s.m.ringN := rfl
@[simp] theorem setCore_ringOrder (c : Nat) (k : Core) : (s.setCore c k).m.ringOrder = s.m.ringOrder := rfl
@[simp] theorem setCore_bootStep (c : Nat) (k : Core) : (s.setCore c k).m.bootStep = s.m.bootStep := rfl
@[simp] theorem setCore_modules (c : Nat) (k : Core) : (s.setCore c k).m.modules = s.m.modules := rfl
@[simp] theorem setCore_ringAll (c : Nat) (k : Core) : (s.setCore c k).m.ringAll = s.m.ringAll := rfl
@[simp] theorem setCore_repaired (c : Nat) (k : Core) : (s.setCore c k).m.repaired = s.m.repaired := rfl
@[simp] theorem setCore_failing (c : Nat) (k : Core) : (s.setCore c k).m.failing = s.m.failing := rfl
@[simp] theorem setCore_broken (c : Nat) (k : Core) : (s.setCore c k).m.broken = s.m.broken := rfl
@[simp] theorem setCore_free (c : Nat) (k : Core) : (s.setCore c k).m.free = s.m.free := rfl
@[simp] theorem setCore_agenda (c : Nat) (k : Core) : (s.setCore c k).m.agenda = s.m.agenda := rfl
@[simp] theorem setCore_phase (c : Nat) (k : Core) : (s.setCore c k).m.phase = s.m.phase := rfl
@[simp] theorem setCore_cur (c : Nat) (k : Core) : (s.setCore c k).m.cur = s.m.cur := rfl
@[simp] theorem onCore_rom (c : Nat) (f : Core → Core) : (s.onCore c f).rom = s.rom := rfl
@[simp] theorem onCore_dies (c : Nat) (f : Core → Core) : (s.onCore c f).m.dies = s.m.dies := rfl
@[simp] theorem onCore_clusters (c : Nat) (f : Core → Core) : (s.onCore c f).m.clusters = s.m.clusters := rfl
@[simp] theorem onCore_recs (c : Nat) (f : Core → Core) : (s.onCore c f).m.recs = s.m.recs := rfl
@[simp] theorem onCore_nextRec (c : Nat) (f : Core → Core) : (s.onCore c f).m.nextRec = s.m.nextRec := rfl
@[simp] theorem onCore_launches (c : Nat) (f : Core → Core) : (s.onCore c f).m.launches = s.m.launches := rfl
@[simp] theorem onCore_slots (c : Nat) (f : Core → Core) : (s.onCore c f).m.slots = s.m.slots := rfl
@[simp] theorem onCore_batches (c : Nat) (f : Core → Core) : (s.onCore c f).m.batches = s.m.batches := rfl
@[simp] theorem onCore_nextBatch (c : Nat) (f : Core → Core) : (s.onCore c f).m.nextBatch = s.m.nextBatch := rfl
@[simp] theorem onCore_lead (c : Nat) (f : Core → Core) : (s.onCore c f).m.lead = s.m.lead := rfl
@[simp] theorem onCore_reqs (c : Nat) (f : Core → Core) : (s.onCore c f).m.reqs = s.m.reqs := rfl
@[simp] theorem onCore_replies (c : Nat) (f : Core → Core) : (s.onCore c f).m.replies = s.m.replies := rfl
@[simp] theorem onCore_beacons (c : Nat) (f : Core → Core) : (s.onCore c f).m.beacons = s.m.beacons := rfl
@[simp] theorem onCore_nextReq (c : Nat) (f : Core → Core) : (s.onCore c f).m.nextReq = s.m.nextReq := rfl
@[simp] theorem onCore_excluded (c : Nat) (f : Core → Core) : (s.onCore c f).m.excluded = s.m.excluded := rfl
@[simp] theorem onCore_host (c : Nat) (f : Core → Core) : (s.onCore c f).m.host = s.m.host := rfl
@[simp] theorem onCore_ringN (c : Nat) (f : Core → Core) : (s.onCore c f).m.ringN = s.m.ringN := rfl
@[simp] theorem onCore_ringOrder (c : Nat) (f : Core → Core) : (s.onCore c f).m.ringOrder = s.m.ringOrder := rfl
@[simp] theorem onCore_bootStep (c : Nat) (f : Core → Core) : (s.onCore c f).m.bootStep = s.m.bootStep := rfl
@[simp] theorem onCore_modules (c : Nat) (f : Core → Core) : (s.onCore c f).m.modules = s.m.modules := rfl
@[simp] theorem onCore_ringAll (c : Nat) (f : Core → Core) : (s.onCore c f).m.ringAll = s.m.ringAll := rfl
@[simp] theorem onCore_repaired (c : Nat) (f : Core → Core) : (s.onCore c f).m.repaired = s.m.repaired := rfl
@[simp] theorem onCore_failing (c : Nat) (f : Core → Core) : (s.onCore c f).m.failing = s.m.failing := rfl
@[simp] theorem onCore_broken (c : Nat) (f : Core → Core) : (s.onCore c f).m.broken = s.m.broken := rfl
@[simp] theorem onCore_free (c : Nat) (f : Core → Core) : (s.onCore c f).m.free = s.m.free := rfl
@[simp] theorem onCore_agenda (c : Nat) (f : Core → Core) : (s.onCore c f).m.agenda = s.m.agenda := rfl
@[simp] theorem onCore_phase (c : Nat) (f : Core → Core) : (s.onCore c f).m.phase = s.m.phase := rfl
@[simp] theorem onCore_cur (c : Nat) (f : Core → Core) : (s.onCore c f).m.cur = s.m.cur := rfl
@[simp] theorem onSeq_rom (q : SeqId) (f : Seq → Seq) : (s.onSeq q f).rom = s.rom := rfl
@[simp] theorem onSeq_dies (q : SeqId) (f : Seq → Seq) : (s.onSeq q f).m.dies = s.m.dies := rfl
@[simp] theorem onSeq_clusters (q : SeqId) (f : Seq → Seq) : (s.onSeq q f).m.clusters = s.m.clusters := rfl
@[simp] theorem onSeq_recs (q : SeqId) (f : Seq → Seq) : (s.onSeq q f).m.recs = s.m.recs := rfl
@[simp] theorem onSeq_nextRec (q : SeqId) (f : Seq → Seq) : (s.onSeq q f).m.nextRec = s.m.nextRec := rfl
@[simp] theorem onSeq_launches (q : SeqId) (f : Seq → Seq) : (s.onSeq q f).m.launches = s.m.launches := rfl
@[simp] theorem onSeq_slots (q : SeqId) (f : Seq → Seq) : (s.onSeq q f).m.slots = s.m.slots := rfl
@[simp] theorem onSeq_batches (q : SeqId) (f : Seq → Seq) : (s.onSeq q f).m.batches = s.m.batches := rfl
@[simp] theorem onSeq_nextBatch (q : SeqId) (f : Seq → Seq) : (s.onSeq q f).m.nextBatch = s.m.nextBatch := rfl
@[simp] theorem onSeq_lead (q : SeqId) (f : Seq → Seq) : (s.onSeq q f).m.lead = s.m.lead := rfl
@[simp] theorem onSeq_reqs (q : SeqId) (f : Seq → Seq) : (s.onSeq q f).m.reqs = s.m.reqs := rfl
@[simp] theorem onSeq_replies (q : SeqId) (f : Seq → Seq) : (s.onSeq q f).m.replies = s.m.replies := rfl
@[simp] theorem onSeq_beacons (q : SeqId) (f : Seq → Seq) : (s.onSeq q f).m.beacons = s.m.beacons := rfl
@[simp] theorem onSeq_nextReq (q : SeqId) (f : Seq → Seq) : (s.onSeq q f).m.nextReq = s.m.nextReq := rfl
@[simp] theorem onSeq_excluded (q : SeqId) (f : Seq → Seq) : (s.onSeq q f).m.excluded = s.m.excluded := rfl
@[simp] theorem onSeq_host (q : SeqId) (f : Seq → Seq) : (s.onSeq q f).m.host = s.m.host := rfl
@[simp] theorem onSeq_ringN (q : SeqId) (f : Seq → Seq) : (s.onSeq q f).m.ringN = s.m.ringN := rfl
@[simp] theorem onSeq_ringOrder (q : SeqId) (f : Seq → Seq) : (s.onSeq q f).m.ringOrder = s.m.ringOrder := rfl
@[simp] theorem onSeq_bootStep (q : SeqId) (f : Seq → Seq) : (s.onSeq q f).m.bootStep = s.m.bootStep := rfl
@[simp] theorem onSeq_modules (q : SeqId) (f : Seq → Seq) : (s.onSeq q f).m.modules = s.m.modules := rfl
@[simp] theorem onSeq_ringAll (q : SeqId) (f : Seq → Seq) : (s.onSeq q f).m.ringAll = s.m.ringAll := rfl
@[simp] theorem onSeq_repaired (q : SeqId) (f : Seq → Seq) : (s.onSeq q f).m.repaired = s.m.repaired := rfl
@[simp] theorem onSeq_failing (q : SeqId) (f : Seq → Seq) : (s.onSeq q f).m.failing = s.m.failing := rfl
@[simp] theorem onSeq_broken (q : SeqId) (f : Seq → Seq) : (s.onSeq q f).m.broken = s.m.broken := rfl
@[simp] theorem onSeq_free (q : SeqId) (f : Seq → Seq) : (s.onSeq q f).m.free = s.m.free := rfl
@[simp] theorem onSeq_agenda (q : SeqId) (f : Seq → Seq) : (s.onSeq q f).m.agenda = s.m.agenda := rfl
@[simp] theorem onSeq_phase (q : SeqId) (f : Seq → Seq) : (s.onSeq q f).m.phase = s.m.phase := rfl
@[simp] theorem onSeq_cur (q : SeqId) (f : Seq → Seq) : (s.onSeq q f).m.cur = s.m.cur := rfl
@[simp] theorem setCluster_rom (n : Nat) (k : Cluster) : (s.setCluster n k).rom = s.rom := rfl
@[simp] theorem setCluster_dies (n : Nat) (k : Cluster) : (s.setCluster n k).m.dies = s.m.dies := rfl
@[simp] theorem setCluster_cores (n : Nat) (k : Cluster) : (s.setCluster n k).m.cores = s.m.cores := rfl
@[simp] theorem setCluster_recs (n : Nat) (k : Cluster) : (s.setCluster n k).m.recs = s.m.recs := rfl
@[simp] theorem setCluster_nextRec (n : Nat) (k : Cluster) : (s.setCluster n k).m.nextRec = s.m.nextRec := rfl
@[simp] theorem setCluster_launches (n : Nat) (k : Cluster) : (s.setCluster n k).m.launches = s.m.launches := rfl
@[simp] theorem setCluster_slots (n : Nat) (k : Cluster) : (s.setCluster n k).m.slots = s.m.slots := rfl
@[simp] theorem setCluster_batches (n : Nat) (k : Cluster) : (s.setCluster n k).m.batches = s.m.batches := rfl
@[simp] theorem setCluster_nextBatch (n : Nat) (k : Cluster) : (s.setCluster n k).m.nextBatch = s.m.nextBatch := rfl
@[simp] theorem setCluster_lead (n : Nat) (k : Cluster) : (s.setCluster n k).m.lead = s.m.lead := rfl
@[simp] theorem setCluster_reqs (n : Nat) (k : Cluster) : (s.setCluster n k).m.reqs = s.m.reqs := rfl
@[simp] theorem setCluster_replies (n : Nat) (k : Cluster) : (s.setCluster n k).m.replies = s.m.replies := rfl
@[simp] theorem setCluster_beacons (n : Nat) (k : Cluster) : (s.setCluster n k).m.beacons = s.m.beacons := rfl
@[simp] theorem setCluster_nextReq (n : Nat) (k : Cluster) : (s.setCluster n k).m.nextReq = s.m.nextReq := rfl
@[simp] theorem setCluster_excluded (n : Nat) (k : Cluster) : (s.setCluster n k).m.excluded = s.m.excluded := rfl
@[simp] theorem setCluster_host (n : Nat) (k : Cluster) : (s.setCluster n k).m.host = s.m.host := rfl
@[simp] theorem setCluster_ringN (n : Nat) (k : Cluster) : (s.setCluster n k).m.ringN = s.m.ringN := rfl
@[simp] theorem setCluster_ringOrder (n : Nat) (k : Cluster) : (s.setCluster n k).m.ringOrder = s.m.ringOrder := rfl
@[simp] theorem setCluster_bootStep (n : Nat) (k : Cluster) : (s.setCluster n k).m.bootStep = s.m.bootStep := rfl
@[simp] theorem setCluster_modules (n : Nat) (k : Cluster) : (s.setCluster n k).m.modules = s.m.modules := rfl
@[simp] theorem setCluster_ringAll (n : Nat) (k : Cluster) : (s.setCluster n k).m.ringAll = s.m.ringAll := rfl
@[simp] theorem setCluster_repaired (n : Nat) (k : Cluster) : (s.setCluster n k).m.repaired = s.m.repaired := rfl
@[simp] theorem setCluster_failing (n : Nat) (k : Cluster) : (s.setCluster n k).m.failing = s.m.failing := rfl
@[simp] theorem setCluster_broken (n : Nat) (k : Cluster) : (s.setCluster n k).m.broken = s.m.broken := rfl
@[simp] theorem setCluster_free (n : Nat) (k : Cluster) : (s.setCluster n k).m.free = s.m.free := rfl
@[simp] theorem setCluster_agenda (n : Nat) (k : Cluster) : (s.setCluster n k).m.agenda = s.m.agenda := rfl
@[simp] theorem setCluster_phase (n : Nat) (k : Cluster) : (s.setCluster n k).m.phase = s.m.phase := rfl
@[simp] theorem setCluster_cur (n : Nat) (k : Cluster) : (s.setCluster n k).m.cur = s.m.cur := rfl
@[simp] theorem onCluster_rom (n : Nat) (f : Cluster → Cluster) : (s.onCluster n f).rom = s.rom := rfl
@[simp] theorem onCluster_dies (n : Nat) (f : Cluster → Cluster) : (s.onCluster n f).m.dies = s.m.dies := rfl
@[simp] theorem onCluster_cores (n : Nat) (f : Cluster → Cluster) : (s.onCluster n f).m.cores = s.m.cores := rfl
@[simp] theorem onCluster_recs (n : Nat) (f : Cluster → Cluster) : (s.onCluster n f).m.recs = s.m.recs := rfl
@[simp] theorem onCluster_nextRec (n : Nat) (f : Cluster → Cluster) : (s.onCluster n f).m.nextRec = s.m.nextRec := rfl
@[simp] theorem onCluster_launches (n : Nat) (f : Cluster → Cluster) : (s.onCluster n f).m.launches = s.m.launches := rfl
@[simp] theorem onCluster_slots (n : Nat) (f : Cluster → Cluster) : (s.onCluster n f).m.slots = s.m.slots := rfl
@[simp] theorem onCluster_batches (n : Nat) (f : Cluster → Cluster) : (s.onCluster n f).m.batches = s.m.batches := rfl
@[simp] theorem onCluster_nextBatch (n : Nat) (f : Cluster → Cluster) : (s.onCluster n f).m.nextBatch = s.m.nextBatch := rfl
@[simp] theorem onCluster_lead (n : Nat) (f : Cluster → Cluster) : (s.onCluster n f).m.lead = s.m.lead := rfl
@[simp] theorem onCluster_reqs (n : Nat) (f : Cluster → Cluster) : (s.onCluster n f).m.reqs = s.m.reqs := rfl
@[simp] theorem onCluster_replies (n : Nat) (f : Cluster → Cluster) : (s.onCluster n f).m.replies = s.m.replies := rfl
@[simp] theorem onCluster_beacons (n : Nat) (f : Cluster → Cluster) : (s.onCluster n f).m.beacons = s.m.beacons := rfl
@[simp] theorem onCluster_nextReq (n : Nat) (f : Cluster → Cluster) : (s.onCluster n f).m.nextReq = s.m.nextReq := rfl
@[simp] theorem onCluster_excluded (n : Nat) (f : Cluster → Cluster) : (s.onCluster n f).m.excluded = s.m.excluded := rfl
@[simp] theorem onCluster_host (n : Nat) (f : Cluster → Cluster) : (s.onCluster n f).m.host = s.m.host := rfl
@[simp] theorem onCluster_ringN (n : Nat) (f : Cluster → Cluster) : (s.onCluster n f).m.ringN = s.m.ringN := rfl
@[simp] theorem onCluster_ringOrder (n : Nat) (f : Cluster → Cluster) : (s.onCluster n f).m.ringOrder = s.m.ringOrder := rfl
@[simp] theorem onCluster_bootStep (n : Nat) (f : Cluster → Cluster) : (s.onCluster n f).m.bootStep = s.m.bootStep := rfl
@[simp] theorem onCluster_modules (n : Nat) (f : Cluster → Cluster) : (s.onCluster n f).m.modules = s.m.modules := rfl
@[simp] theorem onCluster_ringAll (n : Nat) (f : Cluster → Cluster) : (s.onCluster n f).m.ringAll = s.m.ringAll := rfl
@[simp] theorem onCluster_repaired (n : Nat) (f : Cluster → Cluster) : (s.onCluster n f).m.repaired = s.m.repaired := rfl
@[simp] theorem onCluster_failing (n : Nat) (f : Cluster → Cluster) : (s.onCluster n f).m.failing = s.m.failing := rfl
@[simp] theorem onCluster_broken (n : Nat) (f : Cluster → Cluster) : (s.onCluster n f).m.broken = s.m.broken := rfl
@[simp] theorem onCluster_free (n : Nat) (f : Cluster → Cluster) : (s.onCluster n f).m.free = s.m.free := rfl
@[simp] theorem onCluster_agenda (n : Nat) (f : Cluster → Cluster) : (s.onCluster n f).m.agenda = s.m.agenda := rfl
@[simp] theorem onCluster_phase (n : Nat) (f : Cluster → Cluster) : (s.onCluster n f).m.phase = s.m.phase := rfl
@[simp] theorem onCluster_cur (n : Nat) (f : Cluster → Cluster) : (s.onCluster n f).m.cur = s.m.cur := rfl
@[simp] theorem setDie_rom (g : Nat) (d : Die) : (s.setDie g d).rom = s.rom := rfl
@[simp] theorem setDie_clusters (g : Nat) (d : Die) : (s.setDie g d).m.clusters = s.m.clusters := rfl
@[simp] theorem setDie_cores (g : Nat) (d : Die) : (s.setDie g d).m.cores = s.m.cores := rfl
@[simp] theorem setDie_recs (g : Nat) (d : Die) : (s.setDie g d).m.recs = s.m.recs := rfl
@[simp] theorem setDie_nextRec (g : Nat) (d : Die) : (s.setDie g d).m.nextRec = s.m.nextRec := rfl
@[simp] theorem setDie_launches (g : Nat) (d : Die) : (s.setDie g d).m.launches = s.m.launches := rfl
@[simp] theorem setDie_slots (g : Nat) (d : Die) : (s.setDie g d).m.slots = s.m.slots := rfl
@[simp] theorem setDie_batches (g : Nat) (d : Die) : (s.setDie g d).m.batches = s.m.batches := rfl
@[simp] theorem setDie_nextBatch (g : Nat) (d : Die) : (s.setDie g d).m.nextBatch = s.m.nextBatch := rfl
@[simp] theorem setDie_lead (g : Nat) (d : Die) : (s.setDie g d).m.lead = s.m.lead := rfl
@[simp] theorem setDie_reqs (g : Nat) (d : Die) : (s.setDie g d).m.reqs = s.m.reqs := rfl
@[simp] theorem setDie_replies (g : Nat) (d : Die) : (s.setDie g d).m.replies = s.m.replies := rfl
@[simp] theorem setDie_beacons (g : Nat) (d : Die) : (s.setDie g d).m.beacons = s.m.beacons := rfl
@[simp] theorem setDie_nextReq (g : Nat) (d : Die) : (s.setDie g d).m.nextReq = s.m.nextReq := rfl
@[simp] theorem setDie_excluded (g : Nat) (d : Die) : (s.setDie g d).m.excluded = s.m.excluded := rfl
@[simp] theorem setDie_host (g : Nat) (d : Die) : (s.setDie g d).m.host = s.m.host := rfl
@[simp] theorem setDie_ringN (g : Nat) (d : Die) : (s.setDie g d).m.ringN = s.m.ringN := rfl
@[simp] theorem setDie_ringOrder (g : Nat) (d : Die) : (s.setDie g d).m.ringOrder = s.m.ringOrder := rfl
@[simp] theorem setDie_bootStep (g : Nat) (d : Die) : (s.setDie g d).m.bootStep = s.m.bootStep := rfl
@[simp] theorem setDie_modules (g : Nat) (d : Die) : (s.setDie g d).m.modules = s.m.modules := rfl
@[simp] theorem setDie_ringAll (g : Nat) (d : Die) : (s.setDie g d).m.ringAll = s.m.ringAll := rfl
@[simp] theorem setDie_repaired (g : Nat) (d : Die) : (s.setDie g d).m.repaired = s.m.repaired := rfl
@[simp] theorem setDie_failing (g : Nat) (d : Die) : (s.setDie g d).m.failing = s.m.failing := rfl
@[simp] theorem setDie_broken (g : Nat) (d : Die) : (s.setDie g d).m.broken = s.m.broken := rfl
@[simp] theorem setDie_free (g : Nat) (d : Die) : (s.setDie g d).m.free = s.m.free := rfl
@[simp] theorem setDie_agenda (g : Nat) (d : Die) : (s.setDie g d).m.agenda = s.m.agenda := rfl
@[simp] theorem setDie_phase (g : Nat) (d : Die) : (s.setDie g d).m.phase = s.m.phase := rfl
@[simp] theorem setDie_cur (g : Nat) (d : Die) : (s.setDie g d).m.cur = s.m.cur := rfl
@[simp] theorem onDie_rom (g : Nat) (f : Die → Die) : (s.onDie g f).rom = s.rom := rfl
@[simp] theorem onDie_clusters (g : Nat) (f : Die → Die) : (s.onDie g f).m.clusters = s.m.clusters := rfl
@[simp] theorem onDie_cores (g : Nat) (f : Die → Die) : (s.onDie g f).m.cores = s.m.cores := rfl
@[simp] theorem onDie_recs (g : Nat) (f : Die → Die) : (s.onDie g f).m.recs = s.m.recs := rfl
@[simp] theorem onDie_nextRec (g : Nat) (f : Die → Die) : (s.onDie g f).m.nextRec = s.m.nextRec := rfl
@[simp] theorem onDie_launches (g : Nat) (f : Die → Die) : (s.onDie g f).m.launches = s.m.launches := rfl
@[simp] theorem onDie_slots (g : Nat) (f : Die → Die) : (s.onDie g f).m.slots = s.m.slots := rfl
@[simp] theorem onDie_batches (g : Nat) (f : Die → Die) : (s.onDie g f).m.batches = s.m.batches := rfl
@[simp] theorem onDie_nextBatch (g : Nat) (f : Die → Die) : (s.onDie g f).m.nextBatch = s.m.nextBatch := rfl
@[simp] theorem onDie_lead (g : Nat) (f : Die → Die) : (s.onDie g f).m.lead = s.m.lead := rfl
@[simp] theorem onDie_reqs (g : Nat) (f : Die → Die) : (s.onDie g f).m.reqs = s.m.reqs := rfl
@[simp] theorem onDie_replies (g : Nat) (f : Die → Die) : (s.onDie g f).m.replies = s.m.replies := rfl
@[simp] theorem onDie_beacons (g : Nat) (f : Die → Die) : (s.onDie g f).m.beacons = s.m.beacons := rfl
@[simp] theorem onDie_nextReq (g : Nat) (f : Die → Die) : (s.onDie g f).m.nextReq = s.m.nextReq := rfl
@[simp] theorem onDie_excluded (g : Nat) (f : Die → Die) : (s.onDie g f).m.excluded = s.m.excluded := rfl
@[simp] theorem onDie_host (g : Nat) (f : Die → Die) : (s.onDie g f).m.host = s.m.host := rfl
@[simp] theorem onDie_ringN (g : Nat) (f : Die → Die) : (s.onDie g f).m.ringN = s.m.ringN := rfl
@[simp] theorem onDie_ringOrder (g : Nat) (f : Die → Die) : (s.onDie g f).m.ringOrder = s.m.ringOrder := rfl
@[simp] theorem onDie_bootStep (g : Nat) (f : Die → Die) : (s.onDie g f).m.bootStep = s.m.bootStep := rfl
@[simp] theorem onDie_modules (g : Nat) (f : Die → Die) : (s.onDie g f).m.modules = s.m.modules := rfl
@[simp] theorem onDie_ringAll (g : Nat) (f : Die → Die) : (s.onDie g f).m.ringAll = s.m.ringAll := rfl
@[simp] theorem onDie_repaired (g : Nat) (f : Die → Die) : (s.onDie g f).m.repaired = s.m.repaired := rfl
@[simp] theorem onDie_failing (g : Nat) (f : Die → Die) : (s.onDie g f).m.failing = s.m.failing := rfl
@[simp] theorem onDie_broken (g : Nat) (f : Die → Die) : (s.onDie g f).m.broken = s.m.broken := rfl
@[simp] theorem onDie_free (g : Nat) (f : Die → Die) : (s.onDie g f).m.free = s.m.free := rfl
@[simp] theorem onDie_agenda (g : Nat) (f : Die → Die) : (s.onDie g f).m.agenda = s.m.agenda := rfl
@[simp] theorem onDie_phase (g : Nat) (f : Die → Die) : (s.onDie g f).m.phase = s.m.phase := rfl
@[simp] theorem onDie_cur (g : Nat) (f : Die → Die) : (s.onDie g f).m.cur = s.m.cur := rfl
@[simp] theorem setRecord_rom (n : Nat) (r : Rec) : (s.setRecord n r).rom = s.rom := rfl
@[simp] theorem setRecord_dies (n : Nat) (r : Rec) : (s.setRecord n r).m.dies = s.m.dies := rfl
@[simp] theorem setRecord_clusters (n : Nat) (r : Rec) : (s.setRecord n r).m.clusters = s.m.clusters := rfl
@[simp] theorem setRecord_cores (n : Nat) (r : Rec) : (s.setRecord n r).m.cores = s.m.cores := rfl
@[simp] theorem setRecord_nextRec (n : Nat) (r : Rec) : (s.setRecord n r).m.nextRec = s.m.nextRec := rfl
@[simp] theorem setRecord_launches (n : Nat) (r : Rec) : (s.setRecord n r).m.launches = s.m.launches := rfl
@[simp] theorem setRecord_slots (n : Nat) (r : Rec) : (s.setRecord n r).m.slots = s.m.slots := rfl
@[simp] theorem setRecord_batches (n : Nat) (r : Rec) : (s.setRecord n r).m.batches = s.m.batches := rfl
@[simp] theorem setRecord_nextBatch (n : Nat) (r : Rec) : (s.setRecord n r).m.nextBatch = s.m.nextBatch := rfl
@[simp] theorem setRecord_lead (n : Nat) (r : Rec) : (s.setRecord n r).m.lead = s.m.lead := rfl
@[simp] theorem setRecord_reqs (n : Nat) (r : Rec) : (s.setRecord n r).m.reqs = s.m.reqs := rfl
@[simp] theorem setRecord_replies (n : Nat) (r : Rec) : (s.setRecord n r).m.replies = s.m.replies := rfl
@[simp] theorem setRecord_beacons (n : Nat) (r : Rec) : (s.setRecord n r).m.beacons = s.m.beacons := rfl
@[simp] theorem setRecord_nextReq (n : Nat) (r : Rec) : (s.setRecord n r).m.nextReq = s.m.nextReq := rfl
@[simp] theorem setRecord_excluded (n : Nat) (r : Rec) : (s.setRecord n r).m.excluded = s.m.excluded := rfl
@[simp] theorem setRecord_host (n : Nat) (r : Rec) : (s.setRecord n r).m.host = s.m.host := rfl
@[simp] theorem setRecord_ringN (n : Nat) (r : Rec) : (s.setRecord n r).m.ringN = s.m.ringN := rfl
@[simp] theorem setRecord_ringOrder (n : Nat) (r : Rec) : (s.setRecord n r).m.ringOrder = s.m.ringOrder := rfl
@[simp] theorem setRecord_bootStep (n : Nat) (r : Rec) : (s.setRecord n r).m.bootStep = s.m.bootStep := rfl
@[simp] theorem setRecord_modules (n : Nat) (r : Rec) : (s.setRecord n r).m.modules = s.m.modules := rfl
@[simp] theorem setRecord_ringAll (n : Nat) (r : Rec) : (s.setRecord n r).m.ringAll = s.m.ringAll := rfl
@[simp] theorem setRecord_repaired (n : Nat) (r : Rec) : (s.setRecord n r).m.repaired = s.m.repaired := rfl
@[simp] theorem setRecord_failing (n : Nat) (r : Rec) : (s.setRecord n r).m.failing = s.m.failing := rfl
@[simp] theorem setRecord_broken (n : Nat) (r : Rec) : (s.setRecord n r).m.broken = s.m.broken := rfl
@[simp] theorem setRecord_free (n : Nat) (r : Rec) : (s.setRecord n r).m.free = s.m.free := rfl
@[simp] theorem setRecord_agenda (n : Nat) (r : Rec) : (s.setRecord n r).m.agenda = s.m.agenda := rfl
@[simp] theorem setRecord_phase (n : Nat) (r : Rec) : (s.setRecord n r).m.phase = s.m.phase := rfl
@[simp] theorem setRecord_cur (n : Nat) (r : Rec) : (s.setRecord n r).m.cur = s.m.cur := rfl
@[simp] theorem setLaunch_rom (n : Nat) (l : Launch) : (s.setLaunch n l).rom = s.rom := rfl
@[simp] theorem setLaunch_dies (n : Nat) (l : Launch) : (s.setLaunch n l).m.dies = s.m.dies := rfl
@[simp] theorem setLaunch_clusters (n : Nat) (l : Launch) : (s.setLaunch n l).m.clusters = s.m.clusters := rfl
@[simp] theorem setLaunch_cores (n : Nat) (l : Launch) : (s.setLaunch n l).m.cores = s.m.cores := rfl
@[simp] theorem setLaunch_recs (n : Nat) (l : Launch) : (s.setLaunch n l).m.recs = s.m.recs := rfl
@[simp] theorem setLaunch_nextRec (n : Nat) (l : Launch) : (s.setLaunch n l).m.nextRec = s.m.nextRec := rfl
@[simp] theorem setLaunch_slots (n : Nat) (l : Launch) : (s.setLaunch n l).m.slots = s.m.slots := rfl
@[simp] theorem setLaunch_batches (n : Nat) (l : Launch) : (s.setLaunch n l).m.batches = s.m.batches := rfl
@[simp] theorem setLaunch_nextBatch (n : Nat) (l : Launch) : (s.setLaunch n l).m.nextBatch = s.m.nextBatch := rfl
@[simp] theorem setLaunch_lead (n : Nat) (l : Launch) : (s.setLaunch n l).m.lead = s.m.lead := rfl
@[simp] theorem setLaunch_reqs (n : Nat) (l : Launch) : (s.setLaunch n l).m.reqs = s.m.reqs := rfl
@[simp] theorem setLaunch_replies (n : Nat) (l : Launch) : (s.setLaunch n l).m.replies = s.m.replies := rfl
@[simp] theorem setLaunch_beacons (n : Nat) (l : Launch) : (s.setLaunch n l).m.beacons = s.m.beacons := rfl
@[simp] theorem setLaunch_nextReq (n : Nat) (l : Launch) : (s.setLaunch n l).m.nextReq = s.m.nextReq := rfl
@[simp] theorem setLaunch_excluded (n : Nat) (l : Launch) : (s.setLaunch n l).m.excluded = s.m.excluded := rfl
@[simp] theorem setLaunch_host (n : Nat) (l : Launch) : (s.setLaunch n l).m.host = s.m.host := rfl
@[simp] theorem setLaunch_ringN (n : Nat) (l : Launch) : (s.setLaunch n l).m.ringN = s.m.ringN := rfl
@[simp] theorem setLaunch_ringOrder (n : Nat) (l : Launch) : (s.setLaunch n l).m.ringOrder = s.m.ringOrder := rfl
@[simp] theorem setLaunch_bootStep (n : Nat) (l : Launch) : (s.setLaunch n l).m.bootStep = s.m.bootStep := rfl
@[simp] theorem setLaunch_modules (n : Nat) (l : Launch) : (s.setLaunch n l).m.modules = s.m.modules := rfl
@[simp] theorem setLaunch_ringAll (n : Nat) (l : Launch) : (s.setLaunch n l).m.ringAll = s.m.ringAll := rfl
@[simp] theorem setLaunch_repaired (n : Nat) (l : Launch) : (s.setLaunch n l).m.repaired = s.m.repaired := rfl
@[simp] theorem setLaunch_failing (n : Nat) (l : Launch) : (s.setLaunch n l).m.failing = s.m.failing := rfl
@[simp] theorem setLaunch_broken (n : Nat) (l : Launch) : (s.setLaunch n l).m.broken = s.m.broken := rfl
@[simp] theorem setLaunch_free (n : Nat) (l : Launch) : (s.setLaunch n l).m.free = s.m.free := rfl
@[simp] theorem setLaunch_agenda (n : Nat) (l : Launch) : (s.setLaunch n l).m.agenda = s.m.agenda := rfl
@[simp] theorem setLaunch_phase (n : Nat) (l : Launch) : (s.setLaunch n l).m.phase = s.m.phase := rfl
@[simp] theorem setLaunch_cur (n : Nat) (l : Launch) : (s.setLaunch n l).m.cur = s.m.cur := rfl
@[simp] theorem later_rom (c n : Nat) (t : Target) (v : Row) : (s.later c n t v).rom = s.rom := rfl
@[simp] theorem later_dies (c n : Nat) (t : Target) (v : Row) : (s.later c n t v).m.dies = s.m.dies := rfl
@[simp] theorem later_clusters (c n : Nat) (t : Target) (v : Row) : (s.later c n t v).m.clusters = s.m.clusters := rfl
@[simp] theorem later_recs (c n : Nat) (t : Target) (v : Row) : (s.later c n t v).m.recs = s.m.recs := rfl
@[simp] theorem later_nextRec (c n : Nat) (t : Target) (v : Row) : (s.later c n t v).m.nextRec = s.m.nextRec := rfl
@[simp] theorem later_launches (c n : Nat) (t : Target) (v : Row) : (s.later c n t v).m.launches = s.m.launches := rfl
@[simp] theorem later_slots (c n : Nat) (t : Target) (v : Row) : (s.later c n t v).m.slots = s.m.slots := rfl
@[simp] theorem later_batches (c n : Nat) (t : Target) (v : Row) : (s.later c n t v).m.batches = s.m.batches := rfl
@[simp] theorem later_nextBatch (c n : Nat) (t : Target) (v : Row) : (s.later c n t v).m.nextBatch = s.m.nextBatch := rfl
@[simp] theorem later_lead (c n : Nat) (t : Target) (v : Row) : (s.later c n t v).m.lead = s.m.lead := rfl
@[simp] theorem later_reqs (c n : Nat) (t : Target) (v : Row) : (s.later c n t v).m.reqs = s.m.reqs := rfl
@[simp] theorem later_replies (c n : Nat) (t : Target) (v : Row) : (s.later c n t v).m.replies = s.m.replies := rfl
@[simp] theorem later_beacons (c n : Nat) (t : Target) (v : Row) : (s.later c n t v).m.beacons = s.m.beacons := rfl
@[simp] theorem later_nextReq (c n : Nat) (t : Target) (v : Row) : (s.later c n t v).m.nextReq = s.m.nextReq := rfl
@[simp] theorem later_excluded (c n : Nat) (t : Target) (v : Row) : (s.later c n t v).m.excluded = s.m.excluded := rfl
@[simp] theorem later_host (c n : Nat) (t : Target) (v : Row) : (s.later c n t v).m.host = s.m.host := rfl
@[simp] theorem later_ringN (c n : Nat) (t : Target) (v : Row) : (s.later c n t v).m.ringN = s.m.ringN := rfl
@[simp] theorem later_ringOrder (c n : Nat) (t : Target) (v : Row) : (s.later c n t v).m.ringOrder = s.m.ringOrder := rfl
@[simp] theorem later_bootStep (c n : Nat) (t : Target) (v : Row) : (s.later c n t v).m.bootStep = s.m.bootStep := rfl
@[simp] theorem later_modules (c n : Nat) (t : Target) (v : Row) : (s.later c n t v).m.modules = s.m.modules := rfl
@[simp] theorem later_ringAll (c n : Nat) (t : Target) (v : Row) : (s.later c n t v).m.ringAll = s.m.ringAll := rfl
@[simp] theorem later_repaired (c n : Nat) (t : Target) (v : Row) : (s.later c n t v).m.repaired = s.m.repaired := rfl
@[simp] theorem later_failing (c n : Nat) (t : Target) (v : Row) : (s.later c n t v).m.failing = s.m.failing := rfl
@[simp] theorem later_broken (c n : Nat) (t : Target) (v : Row) : (s.later c n t v).m.broken = s.m.broken := rfl
@[simp] theorem later_free (c n : Nat) (t : Target) (v : Row) : (s.later c n t v).m.free = s.m.free := rfl
@[simp] theorem later_agenda (c n : Nat) (t : Target) (v : Row) : (s.later c n t v).m.agenda = s.m.agenda := rfl
@[simp] theorem later_phase (c n : Nat) (t : Target) (v : Row) : (s.later c n t v).m.phase = s.m.phase := rfl
@[simp] theorem later_cur (c n : Nat) (t : Target) (v : Row) : (s.later c n t v).m.cur = s.m.cur := rfl
@[simp] theorem pushLater_rom (c : Nat) (q : QName) (n : Nat) (v : Row) : (s.pushLater c q n v).rom = s.rom := rfl
@[simp] theorem pushLater_dies (c : Nat) (q : QName) (n : Nat) (v : Row) : (s.pushLater c q n v).m.dies = s.m.dies := rfl
@[simp] theorem pushLater_clusters (c : Nat) (q : QName) (n : Nat) (v : Row) : (s.pushLater c q n v).m.clusters = s.m.clusters := rfl
@[simp] theorem pushLater_recs (c : Nat) (q : QName) (n : Nat) (v : Row) : (s.pushLater c q n v).m.recs = s.m.recs := rfl
@[simp] theorem pushLater_nextRec (c : Nat) (q : QName) (n : Nat) (v : Row) : (s.pushLater c q n v).m.nextRec = s.m.nextRec := rfl
@[simp] theorem pushLater_launches (c : Nat) (q : QName) (n : Nat) (v : Row) : (s.pushLater c q n v).m.launches = s.m.launches := rfl
@[simp] theorem pushLater_slots (c : Nat) (q : QName) (n : Nat) (v : Row) : (s.pushLater c q n v).m.slots = s.m.slots := rfl
@[simp] theorem pushLater_batches (c : Nat) (q : QName) (n : Nat) (v : Row) : (s.pushLater c q n v).m.batches = s.m.batches := rfl
@[simp] theorem pushLater_nextBatch (c : Nat) (q : QName) (n : Nat) (v : Row) : (s.pushLater c q n v).m.nextBatch = s.m.nextBatch := rfl
@[simp] theorem pushLater_lead (c : Nat) (q : QName) (n : Nat) (v : Row) : (s.pushLater c q n v).m.lead = s.m.lead := rfl
@[simp] theorem pushLater_reqs (c : Nat) (q : QName) (n : Nat) (v : Row) : (s.pushLater c q n v).m.reqs = s.m.reqs := rfl
@[simp] theorem pushLater_replies (c : Nat) (q : QName) (n : Nat) (v : Row) : (s.pushLater c q n v).m.replies = s.m.replies := rfl
@[simp] theorem pushLater_beacons (c : Nat) (q : QName) (n : Nat) (v : Row) : (s.pushLater c q n v).m.beacons = s.m.beacons := rfl
@[simp] theorem pushLater_nextReq (c : Nat) (q : QName) (n : Nat) (v : Row) : (s.pushLater c q n v).m.nextReq = s.m.nextReq := rfl
@[simp] theorem pushLater_excluded (c : Nat) (q : QName) (n : Nat) (v : Row) : (s.pushLater c q n v).m.excluded = s.m.excluded := rfl
@[simp] theorem pushLater_host (c : Nat) (q : QName) (n : Nat) (v : Row) : (s.pushLater c q n v).m.host = s.m.host := rfl
@[simp] theorem pushLater_ringN (c : Nat) (q : QName) (n : Nat) (v : Row) : (s.pushLater c q n v).m.ringN = s.m.ringN := rfl
@[simp] theorem pushLater_ringOrder (c : Nat) (q : QName) (n : Nat) (v : Row) : (s.pushLater c q n v).m.ringOrder = s.m.ringOrder := rfl
@[simp] theorem pushLater_bootStep (c : Nat) (q : QName) (n : Nat) (v : Row) : (s.pushLater c q n v).m.bootStep = s.m.bootStep := rfl
@[simp] theorem pushLater_modules (c : Nat) (q : QName) (n : Nat) (v : Row) : (s.pushLater c q n v).m.modules = s.m.modules := rfl
@[simp] theorem pushLater_ringAll (c : Nat) (q : QName) (n : Nat) (v : Row) : (s.pushLater c q n v).m.ringAll = s.m.ringAll := rfl
@[simp] theorem pushLater_repaired (c : Nat) (q : QName) (n : Nat) (v : Row) : (s.pushLater c q n v).m.repaired = s.m.repaired := rfl
@[simp] theorem pushLater_failing (c : Nat) (q : QName) (n : Nat) (v : Row) : (s.pushLater c q n v).m.failing = s.m.failing := rfl
@[simp] theorem pushLater_broken (c : Nat) (q : QName) (n : Nat) (v : Row) : (s.pushLater c q n v).m.broken = s.m.broken := rfl
@[simp] theorem pushLater_free (c : Nat) (q : QName) (n : Nat) (v : Row) : (s.pushLater c q n v).m.free = s.m.free := rfl
@[simp] theorem pushLater_agenda (c : Nat) (q : QName) (n : Nat) (v : Row) : (s.pushLater c q n v).m.agenda = s.m.agenda := rfl
@[simp] theorem pushLater_phase (c : Nat) (q : QName) (n : Nat) (v : Row) : (s.pushLater c q n v).m.phase = s.m.phase := rfl
@[simp] theorem pushLater_cur (c : Nat) (q : QName) (n : Nat) (v : Row) : (s.pushLater c q n v).m.cur = s.m.cur := rfl
@[simp] theorem finish_rom (q : SeqId) (f : Flow) : (s.finish q f).rom = s.rom := rfl
@[simp] theorem finish_dies (q : SeqId) (f : Flow) : (s.finish q f).m.dies = s.m.dies := rfl
@[simp] theorem finish_clusters (q : SeqId) (f : Flow) : (s.finish q f).m.clusters = s.m.clusters := rfl
@[simp] theorem finish_recs (q : SeqId) (f : Flow) : (s.finish q f).m.recs = s.m.recs := rfl
@[simp] theorem finish_nextRec (q : SeqId) (f : Flow) : (s.finish q f).m.nextRec = s.m.nextRec := rfl
@[simp] theorem finish_launches (q : SeqId) (f : Flow) : (s.finish q f).m.launches = s.m.launches := rfl
@[simp] theorem finish_slots (q : SeqId) (f : Flow) : (s.finish q f).m.slots = s.m.slots := rfl
@[simp] theorem finish_batches (q : SeqId) (f : Flow) : (s.finish q f).m.batches = s.m.batches := rfl
@[simp] theorem finish_nextBatch (q : SeqId) (f : Flow) : (s.finish q f).m.nextBatch = s.m.nextBatch := rfl
@[simp] theorem finish_lead (q : SeqId) (f : Flow) : (s.finish q f).m.lead = s.m.lead := rfl
@[simp] theorem finish_reqs (q : SeqId) (f : Flow) : (s.finish q f).m.reqs = s.m.reqs := rfl
@[simp] theorem finish_replies (q : SeqId) (f : Flow) : (s.finish q f).m.replies = s.m.replies := rfl
@[simp] theorem finish_beacons (q : SeqId) (f : Flow) : (s.finish q f).m.beacons = s.m.beacons := rfl
@[simp] theorem finish_nextReq (q : SeqId) (f : Flow) : (s.finish q f).m.nextReq = s.m.nextReq := rfl
@[simp] theorem finish_excluded (q : SeqId) (f : Flow) : (s.finish q f).m.excluded = s.m.excluded := rfl
@[simp] theorem finish_host (q : SeqId) (f : Flow) : (s.finish q f).m.host = s.m.host := rfl
@[simp] theorem finish_ringN (q : SeqId) (f : Flow) : (s.finish q f).m.ringN = s.m.ringN := rfl
@[simp] theorem finish_ringOrder (q : SeqId) (f : Flow) : (s.finish q f).m.ringOrder = s.m.ringOrder := rfl
@[simp] theorem finish_bootStep (q : SeqId) (f : Flow) : (s.finish q f).m.bootStep = s.m.bootStep := rfl
@[simp] theorem finish_modules (q : SeqId) (f : Flow) : (s.finish q f).m.modules = s.m.modules := rfl
@[simp] theorem finish_ringAll (q : SeqId) (f : Flow) : (s.finish q f).m.ringAll = s.m.ringAll := rfl
@[simp] theorem finish_repaired (q : SeqId) (f : Flow) : (s.finish q f).m.repaired = s.m.repaired := rfl
@[simp] theorem finish_failing (q : SeqId) (f : Flow) : (s.finish q f).m.failing = s.m.failing := rfl
@[simp] theorem finish_broken (q : SeqId) (f : Flow) : (s.finish q f).m.broken = s.m.broken := rfl
@[simp] theorem finish_free (q : SeqId) (f : Flow) : (s.finish q f).m.free = s.m.free := rfl
@[simp] theorem finish_agenda (q : SeqId) (f : Flow) : (s.finish q f).m.agenda = s.m.agenda := rfl
@[simp] theorem finish_phase (q : SeqId) (f : Flow) : (s.finish q f).m.phase = s.m.phase := rfl
@[simp] theorem finish_cur (q : SeqId) (f : Flow) : (s.finish q f).m.cur = s.m.cur := rfl
@[simp] theorem useBanks_rom (c t p : Nat) (l : List Nat) : (s.useBanks c t p l).rom = s.rom := rfl
@[simp] theorem useBanks_dies (c t p : Nat) (l : List Nat) : (s.useBanks c t p l).m.dies = s.m.dies := rfl
@[simp] theorem useBanks_cores (c t p : Nat) (l : List Nat) : (s.useBanks c t p l).m.cores = s.m.cores := rfl
@[simp] theorem useBanks_recs (c t p : Nat) (l : List Nat) : (s.useBanks c t p l).m.recs = s.m.recs := rfl
@[simp] theorem useBanks_nextRec (c t p : Nat) (l : List Nat) : (s.useBanks c t p l).m.nextRec = s.m.nextRec := rfl
@[simp] theorem useBanks_launches (c t p : Nat) (l : List Nat) : (s.useBanks c t p l).m.launches = s.m.launches := rfl
@[simp] theorem useBanks_slots (c t p : Nat) (l : List Nat) : (s.useBanks c t p l).m.slots = s.m.slots := rfl
@[simp] theorem useBanks_batches (c t p : Nat) (l : List Nat) : (s.useBanks c t p l).m.batches = s.m.batches := rfl
@[simp] theorem useBanks_nextBatch (c t p : Nat) (l : List Nat) : (s.useBanks c t p l).m.nextBatch = s.m.nextBatch := rfl
@[simp] theorem useBanks_lead (c t p : Nat) (l : List Nat) : (s.useBanks c t p l).m.lead = s.m.lead := rfl
@[simp] theorem useBanks_reqs (c t p : Nat) (l : List Nat) : (s.useBanks c t p l).m.reqs = s.m.reqs := rfl
@[simp] theorem useBanks_replies (c t p : Nat) (l : List Nat) : (s.useBanks c t p l).m.replies = s.m.replies := rfl
@[simp] theorem useBanks_beacons (c t p : Nat) (l : List Nat) : (s.useBanks c t p l).m.beacons = s.m.beacons := rfl
@[simp] theorem useBanks_nextReq (c t p : Nat) (l : List Nat) : (s.useBanks c t p l).m.nextReq = s.m.nextReq := rfl
@[simp] theorem useBanks_excluded (c t p : Nat) (l : List Nat) : (s.useBanks c t p l).m.excluded = s.m.excluded := rfl
@[simp] theorem useBanks_host (c t p : Nat) (l : List Nat) : (s.useBanks c t p l).m.host = s.m.host := rfl
@[simp] theorem useBanks_ringN (c t p : Nat) (l : List Nat) : (s.useBanks c t p l).m.ringN = s.m.ringN := rfl
@[simp] theorem useBanks_ringOrder (c t p : Nat) (l : List Nat) : (s.useBanks c t p l).m.ringOrder = s.m.ringOrder := rfl
@[simp] theorem useBanks_bootStep (c t p : Nat) (l : List Nat) : (s.useBanks c t p l).m.bootStep = s.m.bootStep := rfl
@[simp] theorem useBanks_modules (c t p : Nat) (l : List Nat) : (s.useBanks c t p l).m.modules = s.m.modules := rfl
@[simp] theorem useBanks_ringAll (c t p : Nat) (l : List Nat) : (s.useBanks c t p l).m.ringAll = s.m.ringAll := rfl
@[simp] theorem useBanks_repaired (c t p : Nat) (l : List Nat) : (s.useBanks c t p l).m.repaired = s.m.repaired := rfl
@[simp] theorem useBanks_failing (c t p : Nat) (l : List Nat) : (s.useBanks c t p l).m.failing = s.m.failing := rfl
@[simp] theorem useBanks_broken (c t p : Nat) (l : List Nat) : (s.useBanks c t p l).m.broken = s.m.broken := rfl
@[simp] theorem useBanks_free (c t p : Nat) (l : List Nat) : (s.useBanks c t p l).m.free = s.m.free := rfl
@[simp] theorem useBanks_agenda (c t p : Nat) (l : List Nat) : (s.useBanks c t p l).m.agenda = s.m.agenda := rfl
@[simp] theorem useBanks_phase (c t p : Nat) (l : List Nat) : (s.useBanks c t p l).m.phase = s.m.phase := rfl
@[simp] theorem useBanks_cur (c t p : Nat) (l : List Nat) : (s.useBanks c t p l).m.cur = s.m.cur := rfl
@[simp] theorem setCore_cluster_of (c : Nat) (k : Core) (x : Nat) : (s.setCore c k).cluster x = s.cluster x := rfl
@[simp] theorem setCore_die_of (c : Nat) (k : Core) (x : Nat) : (s.setCore c k).die x = s.die x := rfl
@[simp] theorem setCore_record_of (c : Nat) (k : Core) (x : Nat) : (s.setCore c k).record? x = s.record? x := rfl
@[simp] theorem setCore_launch_of (c : Nat) (k : Core) (x : Nat) : (s.setCore c k).launch? x = s.launch? x := rfl
@[simp] theorem setCore_ccyc (c : Nat) (k : Core) (x : Nat) : (s.setCore c k).ccyc x = s.ccyc x := rfl
@[simp] theorem setCore_keyc (c : Nat) (k : Core) (x : Nat) : (s.setCore c k).keyc x = s.keyc x := rfl
@[simp] theorem onCore_cluster_of (c : Nat) (f : Core → Core) (x : Nat) : (s.onCore c f).cluster x = s.cluster x := rfl
@[simp] theorem onCore_die_of (c : Nat) (f : Core → Core) (x : Nat) : (s.onCore c f).die x = s.die x := rfl
@[simp] theorem onCore_record_of (c : Nat) (f : Core → Core) (x : Nat) : (s.onCore c f).record? x = s.record? x := rfl
@[simp] theorem onCore_launch_of (c : Nat) (f : Core → Core) (x : Nat) : (s.onCore c f).launch? x = s.launch? x := rfl
@[simp] theorem onCore_ccyc (c : Nat) (f : Core → Core) (x : Nat) : (s.onCore c f).ccyc x = s.ccyc x := rfl
@[simp] theorem onCore_keyc (c : Nat) (f : Core → Core) (x : Nat) : (s.onCore c f).keyc x = s.keyc x := rfl
@[simp] theorem onSeq_cluster_of (q : SeqId) (f : Seq → Seq) (x : Nat) : (s.onSeq q f).cluster x = s.cluster x := rfl
@[simp] theorem onSeq_die_of (q : SeqId) (f : Seq → Seq) (x : Nat) : (s.onSeq q f).die x = s.die x := rfl
@[simp] theorem onSeq_record_of (q : SeqId) (f : Seq → Seq) (x : Nat) : (s.onSeq q f).record? x = s.record? x := rfl
@[simp] theorem onSeq_launch_of (q : SeqId) (f : Seq → Seq) (x : Nat) : (s.onSeq q f).launch? x = s.launch? x := rfl
@[simp] theorem onSeq_ccyc (q : SeqId) (f : Seq → Seq) (x : Nat) : (s.onSeq q f).ccyc x = s.ccyc x := rfl
@[simp] theorem onSeq_keyc (q : SeqId) (f : Seq → Seq) (x : Nat) : (s.onSeq q f).keyc x = s.keyc x := rfl
@[simp] theorem setCluster_core_of (n : Nat) (k : Cluster) (x : Nat) : (s.setCluster n k).core x = s.core x := rfl
@[simp] theorem setCluster_die_of (n : Nat) (k : Cluster) (x : Nat) : (s.setCluster n k).die x = s.die x := rfl
@[simp] theorem setCluster_record_of (n : Nat) (k : Cluster) (x : Nat) : (s.setCluster n k).record? x = s.record? x := rfl
@[simp] theorem setCluster_launch_of (n : Nat) (k : Cluster) (x : Nat) : (s.setCluster n k).launch? x = s.launch? x := rfl
@[simp] theorem setCluster_keyc (n : Nat) (k : Cluster) (x : Nat) : (s.setCluster n k).keyc x = s.keyc x := rfl
@[simp] theorem onCluster_core_of (n : Nat) (f : Cluster → Cluster) (x : Nat) : (s.onCluster n f).core x = s.core x := rfl
@[simp] theorem onCluster_die_of (n : Nat) (f : Cluster → Cluster) (x : Nat) : (s.onCluster n f).die x = s.die x := rfl
@[simp] theorem onCluster_record_of (n : Nat) (f : Cluster → Cluster) (x : Nat) : (s.onCluster n f).record? x = s.record? x := rfl
@[simp] theorem onCluster_launch_of (n : Nat) (f : Cluster → Cluster) (x : Nat) : (s.onCluster n f).launch? x = s.launch? x := rfl
@[simp] theorem onCluster_keyc (n : Nat) (f : Cluster → Cluster) (x : Nat) : (s.onCluster n f).keyc x = s.keyc x := rfl
@[simp] theorem setDie_core_of (g : Nat) (d : Die) (x : Nat) : (s.setDie g d).core x = s.core x := rfl
@[simp] theorem setDie_cluster_of (g : Nat) (d : Die) (x : Nat) : (s.setDie g d).cluster x = s.cluster x := rfl
@[simp] theorem setDie_record_of (g : Nat) (d : Die) (x : Nat) : (s.setDie g d).record? x = s.record? x := rfl
@[simp] theorem setDie_launch_of (g : Nat) (d : Die) (x : Nat) : (s.setDie g d).launch? x = s.launch? x := rfl
@[simp] theorem setDie_ccyc (g : Nat) (d : Die) (x : Nat) : (s.setDie g d).ccyc x = s.ccyc x := rfl
@[simp] theorem onDie_core_of (g : Nat) (f : Die → Die) (x : Nat) : (s.onDie g f).core x = s.core x := rfl
@[simp] theorem onDie_cluster_of (g : Nat) (f : Die → Die) (x : Nat) : (s.onDie g f).cluster x = s.cluster x := rfl
@[simp] theorem onDie_record_of (g : Nat) (f : Die → Die) (x : Nat) : (s.onDie g f).record? x = s.record? x := rfl
@[simp] theorem onDie_launch_of (g : Nat) (f : Die → Die) (x : Nat) : (s.onDie g f).launch? x = s.launch? x := rfl
@[simp] theorem onDie_ccyc (g : Nat) (f : Die → Die) (x : Nat) : (s.onDie g f).ccyc x = s.ccyc x := rfl
@[simp] theorem setRecord_core_of (n : Nat) (r : Rec) (x : Nat) : (s.setRecord n r).core x = s.core x := rfl
@[simp] theorem setRecord_cluster_of (n : Nat) (r : Rec) (x : Nat) : (s.setRecord n r).cluster x = s.cluster x := rfl
@[simp] theorem setRecord_die_of (n : Nat) (r : Rec) (x : Nat) : (s.setRecord n r).die x = s.die x := rfl
@[simp] theorem setRecord_launch_of (n : Nat) (r : Rec) (x : Nat) : (s.setRecord n r).launch? x = s.launch? x := rfl
@[simp] theorem setRecord_ccyc (n : Nat) (r : Rec) (x : Nat) : (s.setRecord n r).ccyc x = s.ccyc x := rfl
@[simp] theorem setRecord_keyc (n : Nat) (r : Rec) (x : Nat) : (s.setRecord n r).keyc x = s.keyc x := rfl
@[simp] theorem setLaunch_core_of (n : Nat) (l : Launch) (x : Nat) : (s.setLaunch n l).core x = s.core x := rfl
@[simp] theorem setLaunch_cluster_of (n : Nat) (l : Launch) (x : Nat) : (s.setLaunch n l).cluster x = s.cluster x := rfl
@[simp] theorem setLaunch_die_of (n : Nat) (l : Launch) (x : Nat) : (s.setLaunch n l).die x = s.die x := rfl
@[simp] theorem setLaunch_record_of (n : Nat) (l : Launch) (x : Nat) : (s.setLaunch n l).record? x = s.record? x := rfl
@[simp] theorem setLaunch_ccyc (n : Nat) (l : Launch) (x : Nat) : (s.setLaunch n l).ccyc x = s.ccyc x := rfl
@[simp] theorem setLaunch_keyc (n : Nat) (l : Launch) (x : Nat) : (s.setLaunch n l).keyc x = s.keyc x := rfl
@[simp] theorem later_cluster_of (c n : Nat) (t : Target) (v : Row) (x : Nat) : (s.later c n t v).cluster x = s.cluster x := rfl
@[simp] theorem later_die_of (c n : Nat) (t : Target) (v : Row) (x : Nat) : (s.later c n t v).die x = s.die x := rfl
@[simp] theorem later_record_of (c n : Nat) (t : Target) (v : Row) (x : Nat) : (s.later c n t v).record? x = s.record? x := rfl
@[simp] theorem later_launch_of (c n : Nat) (t : Target) (v : Row) (x : Nat) : (s.later c n t v).launch? x = s.launch? x := rfl
@[simp] theorem later_ccyc (c n : Nat) (t : Target) (v : Row) (x : Nat) : (s.later c n t v).ccyc x = s.ccyc x := rfl
@[simp] theorem later_keyc (c n : Nat) (t : Target) (v : Row) (x : Nat) : (s.later c n t v).keyc x = s.keyc x := rfl
@[simp] theorem pushLater_cluster_of (c : Nat) (q : QName) (n : Nat) (v : Row) (x : Nat) : (s.pushLater c q n v).cluster x = s.cluster x := rfl
@[simp] theorem pushLater_die_of (c : Nat) (q : QName) (n : Nat) (v : Row) (x : Nat) : (s.pushLater c q n v).die x = s.die x := rfl
@[simp] theorem pushLater_record_of (c : Nat) (q : QName) (n : Nat) (v : Row) (x : Nat) : (s.pushLater c q n v).record? x = s.record? x := rfl
@[simp] theorem pushLater_launch_of (c : Nat) (q : QName) (n : Nat) (v : Row) (x : Nat) : (s.pushLater c q n v).launch? x = s.launch? x := rfl
@[simp] theorem pushLater_ccyc (c : Nat) (q : QName) (n : Nat) (v : Row) (x : Nat) : (s.pushLater c q n v).ccyc x = s.ccyc x := rfl
@[simp] theorem pushLater_keyc (c : Nat) (q : QName) (n : Nat) (v : Row) (x : Nat) : (s.pushLater c q n v).keyc x = s.keyc x := rfl
@[simp] theorem finish_cluster_of (q : SeqId) (f : Flow) (x : Nat) : (s.finish q f).cluster x = s.cluster x := rfl
@[simp] theorem finish_die_of (q : SeqId) (f : Flow) (x : Nat) : (s.finish q f).die x = s.die x := rfl
@[simp] theorem finish_record_of (q : SeqId) (f : Flow) (x : Nat) : (s.finish q f).record? x = s.record? x := rfl
@[simp] theorem finish_launch_of (q : SeqId) (f : Flow) (x : Nat) : (s.finish q f).launch? x = s.launch? x := rfl
@[simp] theorem finish_ccyc (q : SeqId) (f : Flow) (x : Nat) : (s.finish q f).ccyc x = s.ccyc x := rfl
@[simp] theorem finish_keyc (q : SeqId) (f : Flow) (x : Nat) : (s.finish q f).keyc x = s.keyc x := rfl
@[simp] theorem useBanks_core_of (c t p : Nat) (l : List Nat) (x : Nat) : (s.useBanks c t p l).core x = s.core x := rfl
@[simp] theorem useBanks_die_of (c t p : Nat) (l : List Nat) (x : Nat) : (s.useBanks c t p l).die x = s.die x := rfl
@[simp] theorem useBanks_record_of (c t p : Nat) (l : List Nat) (x : Nat) : (s.useBanks c t p l).record? x = s.record? x := rfl
@[simp] theorem useBanks_launch_of (c t p : Nat) (l : List Nat) (x : Nat) : (s.useBanks c t p l).launch? x = s.launch? x := rfl
@[simp] theorem useBanks_keyc (c t p : Nat) (l : List Nat) (x : Nat) : (s.useBanks c t p l).keyc x = s.keyc x := rfl

/-- A core read after a core was replaced. -/
@[simp] theorem setCore_core (c x : Nat) (k : Core) : (s.setCore c k).core x = if x = c then k else s.core x :=
  tabGet_tabPut _ c x k _
/-- A core read after a core was changed. -/
@[simp] theorem onCore_core (c x : Nat) (f : Core → Core) : (s.onCore c f).core x = if x = c then f (s.core c) else s.core x :=
  tabGet_tabPut _ c x _ _
/-- A core read after a sequencer was changed. -/
@[simp] theorem onSeq_core (q : SeqId) (f : Seq → Seq) (x : Nat) :
    (s.onSeq q f).core x = if x = q.core then (s.core q.core).setSeq q.side (f (s.seq q)) else s.core x :=
  tabGet_tabPut _ q.core x _ _
/-- A cluster read after a cluster was replaced. -/
@[simp] theorem setCluster_cluster (c x : Nat) (k : Cluster) : (s.setCluster c k).cluster x = if x = c then k else s.cluster x :=
  tabGet_tabPut _ c x k _
/-- A cluster read after a cluster was changed. -/
@[simp] theorem onCluster_cluster (c x : Nat) (f : Cluster → Cluster) :
    (s.onCluster c f).cluster x = if x = c then f (s.cluster c) else s.cluster x :=
  tabGet_tabPut _ c x _ _
/-- A die read after a die was replaced. -/
@[simp] theorem setDie_die (g x : Nat) (d : Die) : (s.setDie g d).die x = if x = g then d else s.die x := by
  simp only [State.setDie, State.die, tabGet_tabPut]
/-- A die read after a die was changed. -/
@[simp] theorem onDie_die (g x : Nat) (f : Die → Die) : (s.onDie g f).die x = if x = g then f (s.die g) else s.die x :=
  setDie_die s g x _

end Updates

section CoreUpdates

variable (k : Core)

@[simp] theorem Core.setQueue_store (q : QName) (l : List QEntry) : (k.setQueue q l).store = k.store := rfl
@[simp] theorem Core.setQueue_acc (q : QName) (l : List QEntry) : (k.setQueue q l).acc = k.acc := rfl
@[simp] theorem Core.setQueue_bfmt (q : QName) (l : List QEntry) : (k.setQueue q l).bfmt = k.bfmt := rfl
@[simp] theorem Core.setQueue_desc (q : QName) (l : List QEntry) : (k.setQueue q l).desc = k.desc := rfl
@[simp] theorem Core.setQueue_k (q : QName) (l : List QEntry) : (k.setQueue q l).k = k.k := rfl
@[simp] theorem Core.setQueue_issued (q : QName) (l : List QEntry) : (k.setQueue q l).issued = k.issued := rfl
@[simp] theorem Core.setQueue_completed (q : QName) (l : List QEntry) : (k.setQueue q l).completed = k.completed := rfl
@[simp] theorem Core.setQueue_chainHead (q : QName) (l : List QEntry) : (k.setQueue q l).chainHead = k.chainHead := rfl
@[simp] theorem Core.setQueue_chainTail (q : QName) (l : List QEntry) : (k.setQueue q l).chainTail = k.chainTail := rfl
@[simp] theorem Core.setQueue_vwb (q : QName) (l : List QEntry) : (k.setQueue q l).vwb = k.vwb := rfl
@[simp] theorem Core.setQueue_vtype (q : QName) (l : List QEntry) : (k.setQueue q l).vtype = k.vtype := rfl
@[simp] theorem Core.setQueue_vrm (q : QName) (l : List QEntry) : (k.setQueue q l).vrm = k.vrm := rfl
@[simp] theorem Core.setQueue_vclb (q : QName) (l : List QEntry) : (k.setQueue q l).vclb = k.vclb := rfl
@[simp] theorem Core.setQueue_vflags (q : QName) (l : List QEntry) : (k.setQueue q l).vflags = k.vflags := rfl
@[simp] theorem Core.setQueue_mstamp (q : QName) (l : List QEntry) : (k.setQueue q l).mstamp = k.mstamp := rfl
@[simp] theorem Core.setQueue_masks (q : QName) (l : List QEntry) : (k.setQueue q l).masks = k.masks := rfl
@[simp] theorem Core.setQueue_stage (q : QName) (l : List QEntry) : (k.setQueue q l).stage = k.stage := rfl
@[simp] theorem Core.setQueue_detmode (q : QName) (l : List QEntry) : (k.setQueue q l).detmode = k.detmode := rfl
@[simp] theorem Core.setQueue_sideLog (q : QName) (l : List QEntry) : (k.setQueue q l).sideLog = k.sideLog := rfl
@[simp] theorem Core.setQueue_fps (q : QName) (l : List QEntry) : (k.setQueue q l).fps = k.fps := rfl
@[simp] theorem Core.setQueue_engQ (q : QName) (l : List QEntry) : (k.setQueue q l).engQ = k.engQ := rfl
@[simp] theorem Core.setQueue_jobs (q : QName) (l : List QEntry) : (k.setQueue q l).jobs = k.jobs := rfl
@[simp] theorem Core.setQueue_nextJob (q : QName) (l : List QEntry) : (k.setQueue q l).nextJob = k.nextJob := rfl
@[simp] theorem Core.setQueue_engHold (q : QName) (l : List QEntry) : (k.setQueue q l).engHold = k.engHold := rfl
@[simp] theorem Core.setQueue_matrixFree (q : QName) (l : List QEntry) : (k.setQueue q l).matrixFree = k.matrixFree := rfl
@[simp] theorem Core.setQueue_copyFree (q : QName) (l : List QEntry) : (k.setQueue q l).copyFree = k.copyFree := rfl
@[simp] theorem Core.setQueue_engFree (q : QName) (l : List QEntry) : (k.setQueue q l).engFree = k.engFree := rfl
@[simp] theorem Core.setQueue_trussPorts (q : QName) (l : List QEntry) : (k.setQueue q l).trussPorts = k.trussPorts := rfl
@[simp] theorem Core.setQueue_trussImage (q : QName) (l : List QEntry) : (k.setQueue q l).trussImage = k.trussImage := rfl
@[simp] theorem Core.setQueue_pend (q : QName) (l : List QEntry) : (k.setQueue q l).pend = k.pend := rfl
@[simp] theorem Core.setQueue_a (q : QName) (l : List QEntry) : (k.setQueue q l).a = k.a := rfl
@[simp] theorem Core.setQueue_x (q : QName) (l : List QEntry) : (k.setQueue q l).x = k.x := rfl
@[simp] theorem Core.setQueue_running (q : QName) (l : List QEntry) : (k.setQueue q l).running = k.running := rfl
@[simp] theorem Core.setQueue_stopAt (q : QName) (l : List QEntry) : (k.setQueue q l).stopAt = k.stopAt := rfl
@[simp] theorem Core.setQueue_unresumable (q : QName) (l : List QEntry) : (k.setQueue q l).unresumable = k.unresumable := rfl
@[simp] theorem Core.setQueue_preempt (q : QName) (l : List QEntry) : (k.setQueue q l).preempt = k.preempt := rfl
@[simp] theorem Core.setQueue_asks (q : QName) (l : List QEntry) : (k.setQueue q l).asks = k.asks := rfl
@[simp] theorem Core.setQueue_stopReq (q : QName) (l : List QEntry) : (k.setQueue q l).stopReq = k.stopReq := rfl
@[simp] theorem Core.setQueue_saving (q : QName) (l : List QEntry) : (k.setQueue q l).saving = k.saving := rfl
@[simp] theorem Core.setQueue_lastDone (q : QName) (l : List QEntry) : (k.setQueue q l).lastDone = k.lastDone := rfl
@[simp] theorem Core.setQueue_bad (q : QName) (l : List QEntry) : (k.setQueue q l).bad = k.bad := rfl
@[simp] theorem Core.push_store (q : QName) (e : QEntry) : (k.push q e).store = k.store := rfl
@[simp] theorem Core.push_acc (q : QName) (e : QEntry) : (k.push q e).acc = k.acc := rfl
@[simp] theorem Core.push_bfmt (q : QName) (e : QEntry) : (k.push q e).bfmt = k.bfmt := rfl
@[simp] theorem Core.push_desc (q : QName) (e : QEntry) : (k.push q e).desc = k.desc := rfl
@[simp] theorem Core.push_k (q : QName) (e : QEntry) : (k.push q e).k = k.k := rfl
@[simp] theorem Core.push_issued (q : QName) (e : QEntry) : (k.push q e).issued = k.issued := rfl
@[simp] theorem Core.push_completed (q : QName) (e : QEntry) : (k.push q e).completed = k.completed := rfl
@[simp] theorem Core.push_chainHead (q : QName) (e : QEntry) : (k.push q e).chainHead = k.chainHead := rfl
@[simp] theorem Core.push_chainTail (q : QName) (e : QEntry) : (k.push q e).chainTail = k.chainTail := rfl
@[simp] theorem Core.push_vwb (q : QName) (e : QEntry) : (k.push q e).vwb = k.vwb := rfl
@[simp] theorem Core.push_vtype (q : QName) (e : QEntry) : (k.push q e).vtype = k.vtype := rfl
@[simp] theorem Core.push_vrm (q : QName) (e : QEntry) : (k.push q e).vrm = k.vrm := rfl
@[simp] theorem Core.push_vclb (q : QName) (e : QEntry) : (k.push q e).vclb = k.vclb := rfl
@[simp] theorem Core.push_vflags (q : QName) (e : QEntry) : (k.push q e).vflags = k.vflags := rfl
@[simp] theorem Core.push_mstamp (q : QName) (e : QEntry) : (k.push q e).mstamp = k.mstamp := rfl
@[simp] theorem Core.push_masks (q : QName) (e : QEntry) : (k.push q e).masks = k.masks := rfl
@[simp] theorem Core.push_stage (q : QName) (e : QEntry) : (k.push q e).stage = k.stage := rfl
@[simp] theorem Core.push_detmode (q : QName) (e : QEntry) : (k.push q e).detmode = k.detmode := rfl
@[simp] theorem Core.push_sideLog (q : QName) (e : QEntry) : (k.push q e).sideLog = k.sideLog := rfl
@[simp] theorem Core.push_fps (q : QName) (e : QEntry) : (k.push q e).fps = k.fps := rfl
@[simp] theorem Core.push_engQ (q : QName) (e : QEntry) : (k.push q e).engQ = k.engQ := rfl
@[simp] theorem Core.push_jobs (q : QName) (e : QEntry) : (k.push q e).jobs = k.jobs := rfl
@[simp] theorem Core.push_nextJob (q : QName) (e : QEntry) : (k.push q e).nextJob = k.nextJob := rfl
@[simp] theorem Core.push_engHold (q : QName) (e : QEntry) : (k.push q e).engHold = k.engHold := rfl
@[simp] theorem Core.push_matrixFree (q : QName) (e : QEntry) : (k.push q e).matrixFree = k.matrixFree := rfl
@[simp] theorem Core.push_copyFree (q : QName) (e : QEntry) : (k.push q e).copyFree = k.copyFree := rfl
@[simp] theorem Core.push_engFree (q : QName) (e : QEntry) : (k.push q e).engFree = k.engFree := rfl
@[simp] theorem Core.push_trussPorts (q : QName) (e : QEntry) : (k.push q e).trussPorts = k.trussPorts := rfl
@[simp] theorem Core.push_trussImage (q : QName) (e : QEntry) : (k.push q e).trussImage = k.trussImage := rfl
@[simp] theorem Core.push_pend (q : QName) (e : QEntry) : (k.push q e).pend = k.pend := rfl
@[simp] theorem Core.push_a (q : QName) (e : QEntry) : (k.push q e).a = k.a := rfl
@[simp] theorem Core.push_x (q : QName) (e : QEntry) : (k.push q e).x = k.x := rfl
@[simp] theorem Core.push_running (q : QName) (e : QEntry) : (k.push q e).running = k.running := rfl
@[simp] theorem Core.push_stopAt (q : QName) (e : QEntry) : (k.push q e).stopAt = k.stopAt := rfl
@[simp] theorem Core.push_unresumable (q : QName) (e : QEntry) : (k.push q e).unresumable = k.unresumable := rfl
@[simp] theorem Core.push_preempt (q : QName) (e : QEntry) : (k.push q e).preempt = k.preempt := rfl
@[simp] theorem Core.push_asks (q : QName) (e : QEntry) : (k.push q e).asks = k.asks := rfl
@[simp] theorem Core.push_stopReq (q : QName) (e : QEntry) : (k.push q e).stopReq = k.stopReq := rfl
@[simp] theorem Core.push_saving (q : QName) (e : QEntry) : (k.push q e).saving = k.saving := rfl
@[simp] theorem Core.push_lastDone (q : QName) (e : QEntry) : (k.push q e).lastDone = k.lastDone := rfl
@[simp] theorem Core.push_bad (q : QName) (e : QEntry) : (k.push q e).bad = k.bad := rfl
@[simp] theorem Core.pop_store (q : QName) : (k.pop q).store = k.store := rfl
@[simp] theorem Core.pop_acc (q : QName) : (k.pop q).acc = k.acc := rfl
@[simp] theorem Core.pop_bfmt (q : QName) : (k.pop q).bfmt = k.bfmt := rfl
@[simp] theorem Core.pop_desc (q : QName) : (k.pop q).desc = k.desc := rfl
@[simp] theorem Core.pop_k (q : QName) : (k.pop q).k = k.k := rfl
@[simp] theorem Core.pop_issued (q : QName) : (k.pop q).issued = k.issued := rfl
@[simp] theorem Core.pop_completed (q : QName) : (k.pop q).completed = k.completed := rfl
@[simp] theorem Core.pop_chainHead (q : QName) : (k.pop q).chainHead = k.chainHead := rfl
@[simp] theorem Core.pop_chainTail (q : QName) : (k.pop q).chainTail = k.chainTail := rfl
@[simp] theorem Core.pop_vwb (q : QName) : (k.pop q).vwb = k.vwb := rfl
@[simp] theorem Core.pop_vtype (q : QName) : (k.pop q).vtype = k.vtype := rfl
@[simp] theorem Core.pop_vrm (q : QName) : (k.pop q).vrm = k.vrm := rfl
@[simp] theorem Core.pop_vclb (q : QName) : (k.pop q).vclb = k.vclb := rfl
@[simp] theorem Core.pop_vflags (q : QName) : (k.pop q).vflags = k.vflags := rfl
@[simp] theorem Core.pop_mstamp (q : QName) : (k.pop q).mstamp = k.mstamp := rfl
@[simp] theorem Core.pop_masks (q : QName) : (k.pop q).masks = k.masks := rfl
@[simp] theorem Core.pop_stage (q : QName) : (k.pop q).stage = k.stage := rfl
@[simp] theorem Core.pop_detmode (q : QName) : (k.pop q).detmode = k.detmode := rfl
@[simp] theorem Core.pop_sideLog (q : QName) : (k.pop q).sideLog = k.sideLog := rfl
@[simp] theorem Core.pop_fps (q : QName) : (k.pop q).fps = k.fps := rfl
@[simp] theorem Core.pop_engQ (q : QName) : (k.pop q).engQ = k.engQ := rfl
@[simp] theorem Core.pop_jobs (q : QName) : (k.pop q).jobs = k.jobs := rfl
@[simp] theorem Core.pop_nextJob (q : QName) : (k.pop q).nextJob = k.nextJob := rfl
@[simp] theorem Core.pop_engHold (q : QName) : (k.pop q).engHold = k.engHold := rfl
@[simp] theorem Core.pop_matrixFree (q : QName) : (k.pop q).matrixFree = k.matrixFree := rfl
@[simp] theorem Core.pop_copyFree (q : QName) : (k.pop q).copyFree = k.copyFree := rfl
@[simp] theorem Core.pop_engFree (q : QName) : (k.pop q).engFree = k.engFree := rfl
@[simp] theorem Core.pop_trussPorts (q : QName) : (k.pop q).trussPorts = k.trussPorts := rfl
@[simp] theorem Core.pop_trussImage (q : QName) : (k.pop q).trussImage = k.trussImage := rfl
@[simp] theorem Core.pop_pend (q : QName) : (k.pop q).pend = k.pend := rfl
@[simp] theorem Core.pop_a (q : QName) : (k.pop q).a = k.a := rfl
@[simp] theorem Core.pop_x (q : QName) : (k.pop q).x = k.x := rfl
@[simp] theorem Core.pop_running (q : QName) : (k.pop q).running = k.running := rfl
@[simp] theorem Core.pop_stopAt (q : QName) : (k.pop q).stopAt = k.stopAt := rfl
@[simp] theorem Core.pop_unresumable (q : QName) : (k.pop q).unresumable = k.unresumable := rfl
@[simp] theorem Core.pop_preempt (q : QName) : (k.pop q).preempt = k.preempt := rfl
@[simp] theorem Core.pop_asks (q : QName) : (k.pop q).asks = k.asks := rfl
@[simp] theorem Core.pop_stopReq (q : QName) : (k.pop q).stopReq = k.stopReq := rfl
@[simp] theorem Core.pop_saving (q : QName) : (k.pop q).saving = k.saving := rfl
@[simp] theorem Core.pop_lastDone (q : QName) : (k.pop q).lastDone = k.lastDone := rfl
@[simp] theorem Core.pop_bad (q : QName) : (k.pop q).bad = k.bad := rfl
@[simp] theorem Core.addPend_store (n : Nat) (t : Target) (v : Row) : (k.addPend n t v).store = k.store := rfl
@[simp] theorem Core.addPend_acc (n : Nat) (t : Target) (v : Row) : (k.addPend n t v).acc = k.acc := rfl
@[simp] theorem Core.addPend_bfmt (n : Nat) (t : Target) (v : Row) : (k.addPend n t v).bfmt = k.bfmt := rfl
@[simp] theorem Core.addPend_desc (n : Nat) (t : Target) (v : Row) : (k.addPend n t v).desc = k.desc := rfl
@[simp] theorem Core.addPend_k (n : Nat) (t : Target) (v : Row) : (k.addPend n t v).k = k.k := rfl
@[simp] theorem Core.addPend_issued (n : Nat) (t : Target) (v : Row) : (k.addPend n t v).issued = k.issued := rfl
@[simp] theorem Core.addPend_completed (n : Nat) (t : Target) (v : Row) : (k.addPend n t v).completed = k.completed := rfl
@[simp] theorem Core.addPend_chainHead (n : Nat) (t : Target) (v : Row) : (k.addPend n t v).chainHead = k.chainHead := rfl
@[simp] theorem Core.addPend_chainTail (n : Nat) (t : Target) (v : Row) : (k.addPend n t v).chainTail = k.chainTail := rfl
@[simp] theorem Core.addPend_queues (n : Nat) (t : Target) (v : Row) : (k.addPend n t v).queues = k.queues := rfl
@[simp] theorem Core.addPend_vwb (n : Nat) (t : Target) (v : Row) : (k.addPend n t v).vwb = k.vwb := rfl
@[simp] theorem Core.addPend_vtype (n : Nat) (t : Target) (v : Row) : (k.addPend n t v).vtype = k.vtype := rfl
@[simp] theorem Core.addPend_vrm (n : Nat) (t : Target) (v : Row) : (k.addPend n t v).vrm = k.vrm := rfl
@[simp] theorem Core.addPend_vclb (n : Nat) (t : Target) (v : Row) : (k.addPend n t v).vclb = k.vclb := rfl
@[simp] theorem Core.addPend_vflags (n : Nat) (t : Target) (v : Row) : (k.addPend n t v).vflags = k.vflags := rfl
@[simp] theorem Core.addPend_mstamp (n : Nat) (t : Target) (v : Row) : (k.addPend n t v).mstamp = k.mstamp := rfl
@[simp] theorem Core.addPend_masks (n : Nat) (t : Target) (v : Row) : (k.addPend n t v).masks = k.masks := rfl
@[simp] theorem Core.addPend_stage (n : Nat) (t : Target) (v : Row) : (k.addPend n t v).stage = k.stage := rfl
@[simp] theorem Core.addPend_detmode (n : Nat) (t : Target) (v : Row) : (k.addPend n t v).detmode = k.detmode := rfl
@[simp] theorem Core.addPend_sideLog (n : Nat) (t : Target) (v : Row) : (k.addPend n t v).sideLog = k.sideLog := rfl
@[simp] theorem Core.addPend_fps (n : Nat) (t : Target) (v : Row) : (k.addPend n t v).fps = k.fps := rfl
@[simp] theorem Core.addPend_engQ (n : Nat) (t : Target) (v : Row) : (k.addPend n t v).engQ = k.engQ := rfl
@[simp] theorem Core.addPend_jobs (n : Nat) (t : Target) (v : Row) : (k.addPend n t v).jobs = k.jobs := rfl
@[simp] theorem Core.addPend_nextJob (n : Nat) (t : Target) (v : Row) : (k.addPend n t v).nextJob = k.nextJob := rfl
@[simp] theorem Core.addPend_engHold (n : Nat) (t : Target) (v : Row) : (k.addPend n t v).engHold = k.engHold := rfl
@[simp] theorem Core.addPend_matrixFree (n : Nat) (t : Target) (v : Row) : (k.addPend n t v).matrixFree = k.matrixFree := rfl
@[simp] theorem Core.addPend_copyFree (n : Nat) (t : Target) (v : Row) : (k.addPend n t v).copyFree = k.copyFree := rfl
@[simp] theorem Core.addPend_engFree (n : Nat) (t : Target) (v : Row) : (k.addPend n t v).engFree = k.engFree := rfl
@[simp] theorem Core.addPend_trussPorts (n : Nat) (t : Target) (v : Row) : (k.addPend n t v).trussPorts = k.trussPorts := rfl
@[simp] theorem Core.addPend_trussImage (n : Nat) (t : Target) (v : Row) : (k.addPend n t v).trussImage = k.trussImage := rfl
@[simp] theorem Core.addPend_a (n : Nat) (t : Target) (v : Row) : (k.addPend n t v).a = k.a := rfl
@[simp] theorem Core.addPend_x (n : Nat) (t : Target) (v : Row) : (k.addPend n t v).x = k.x := rfl
@[simp] theorem Core.addPend_running (n : Nat) (t : Target) (v : Row) : (k.addPend n t v).running = k.running := rfl
@[simp] theorem Core.addPend_stopAt (n : Nat) (t : Target) (v : Row) : (k.addPend n t v).stopAt = k.stopAt := rfl
@[simp] theorem Core.addPend_unresumable (n : Nat) (t : Target) (v : Row) : (k.addPend n t v).unresumable = k.unresumable := rfl
@[simp] theorem Core.addPend_preempt (n : Nat) (t : Target) (v : Row) : (k.addPend n t v).preempt = k.preempt := rfl
@[simp] theorem Core.addPend_asks (n : Nat) (t : Target) (v : Row) : (k.addPend n t v).asks = k.asks := rfl
@[simp] theorem Core.addPend_stopReq (n : Nat) (t : Target) (v : Row) : (k.addPend n t v).stopReq = k.stopReq := rfl
@[simp] theorem Core.addPend_saving (n : Nat) (t : Target) (v : Row) : (k.addPend n t v).saving = k.saving := rfl
@[simp] theorem Core.addPend_lastDone (n : Nat) (t : Target) (v : Row) : (k.addPend n t v).lastDone = k.lastDone := rfl
@[simp] theorem Core.addPend_bad (n : Nat) (t : Target) (v : Row) : (k.addPend n t v).bad = k.bad := rfl
@[simp] theorem Core.addFps_store (i : Issuer) (j : Nat) (l : List Range) (a : Nat) (e : Option Nat) : (k.addFps i j l a e).store = k.store := rfl
@[simp] theorem Core.addFps_acc (i : Issuer) (j : Nat) (l : List Range) (a : Nat) (e : Option Nat) : (k.addFps i j l a e).acc = k.acc := rfl
@[simp] theorem Core.addFps_bfmt (i : Issuer) (j : Nat) (l : List Range) (a : Nat) (e : Option Nat) : (k.addFps i j l a e).bfmt = k.bfmt := rfl
@[simp] theorem Core.addFps_desc (i : Issuer) (j : Nat) (l : List Range) (a : Nat) (e : Option Nat) : (k.addFps i j l a e).desc = k.desc := rfl
@[simp] theorem Core.addFps_k (i : Issuer) (j : Nat) (l : List Range) (a : Nat) (e : Option Nat) : (k.addFps i j l a e).k = k.k := rfl
@[simp] theorem Core.addFps_issued (i : Issuer) (j : Nat) (l : List Range) (a : Nat) (e : Option Nat) : (k.addFps i j l a e).issued = k.issued := rfl
@[simp] theorem Core.addFps_completed (i : Issuer) (j : Nat) (l : List Range) (a : Nat) (e : Option Nat) : (k.addFps i j l a e).completed = k.completed := rfl
@[simp] theorem Core.addFps_chainHead (i : Issuer) (j : Nat) (l : List Range) (a : Nat) (e : Option Nat) : (k.addFps i j l a e).chainHead = k.chainHead := rfl
@[simp] theorem Core.addFps_chainTail (i : Issuer) (j : Nat) (l : List Range) (a : Nat) (e : Option Nat) : (k.addFps i j l a e).chainTail = k.chainTail := rfl
@[simp] theorem Core.addFps_queues (i : Issuer) (j : Nat) (l : List Range) (a : Nat) (e : Option Nat) : (k.addFps i j l a e).queues = k.queues := rfl
@[simp] theorem Core.addFps_vwb (i : Issuer) (j : Nat) (l : List Range) (a : Nat) (e : Option Nat) : (k.addFps i j l a e).vwb = k.vwb := rfl
@[simp] theorem Core.addFps_vtype (i : Issuer) (j : Nat) (l : List Range) (a : Nat) (e : Option Nat) : (k.addFps i j l a e).vtype = k.vtype := rfl
@[simp] theorem Core.addFps_vrm (i : Issuer) (j : Nat) (l : List Range) (a : Nat) (e : Option Nat) : (k.addFps i j l a e).vrm = k.vrm := rfl
@[simp] theorem Core.addFps_vclb (i : Issuer) (j : Nat) (l : List Range) (a : Nat) (e : Option Nat) : (k.addFps i j l a e).vclb = k.vclb := rfl
@[simp] theorem Core.addFps_vflags (i : Issuer) (j : Nat) (l : List Range) (a : Nat) (e : Option Nat) : (k.addFps i j l a e).vflags = k.vflags := rfl
@[simp] theorem Core.addFps_mstamp (i : Issuer) (j : Nat) (l : List Range) (a : Nat) (e : Option Nat) : (k.addFps i j l a e).mstamp = k.mstamp := rfl
@[simp] theorem Core.addFps_masks (i : Issuer) (j : Nat) (l : List Range) (a : Nat) (e : Option Nat) : (k.addFps i j l a e).masks = k.masks := rfl
@[simp] theorem Core.addFps_stage (i : Issuer) (j : Nat) (l : List Range) (a : Nat) (e : Option Nat) : (k.addFps i j l a e).stage = k.stage := rfl
@[simp] theorem Core.addFps_detmode (i : Issuer) (j : Nat) (l : List Range) (a : Nat) (e : Option Nat) : (k.addFps i j l a e).detmode = k.detmode := rfl
@[simp] theorem Core.addFps_sideLog (i : Issuer) (j : Nat) (l : List Range) (a : Nat) (e : Option Nat) : (k.addFps i j l a e).sideLog = k.sideLog := rfl
@[simp] theorem Core.addFps_engQ (i : Issuer) (j : Nat) (l : List Range) (a : Nat) (e : Option Nat) : (k.addFps i j l a e).engQ = k.engQ := rfl
@[simp] theorem Core.addFps_jobs (i : Issuer) (j : Nat) (l : List Range) (a : Nat) (e : Option Nat) : (k.addFps i j l a e).jobs = k.jobs := rfl
@[simp] theorem Core.addFps_nextJob (i : Issuer) (j : Nat) (l : List Range) (a : Nat) (e : Option Nat) : (k.addFps i j l a e).nextJob = k.nextJob := rfl
@[simp] theorem Core.addFps_engHold (i : Issuer) (j : Nat) (l : List Range) (a : Nat) (e : Option Nat) : (k.addFps i j l a e).engHold = k.engHold := rfl
@[simp] theorem Core.addFps_matrixFree (i : Issuer) (j : Nat) (l : List Range) (a : Nat) (e : Option Nat) : (k.addFps i j l a e).matrixFree = k.matrixFree := rfl
@[simp] theorem Core.addFps_copyFree (i : Issuer) (j : Nat) (l : List Range) (a : Nat) (e : Option Nat) : (k.addFps i j l a e).copyFree = k.copyFree := rfl
@[simp] theorem Core.addFps_engFree (i : Issuer) (j : Nat) (l : List Range) (a : Nat) (e : Option Nat) : (k.addFps i j l a e).engFree = k.engFree := rfl
@[simp] theorem Core.addFps_trussPorts (i : Issuer) (j : Nat) (l : List Range) (a : Nat) (e : Option Nat) : (k.addFps i j l a e).trussPorts = k.trussPorts := rfl
@[simp] theorem Core.addFps_trussImage (i : Issuer) (j : Nat) (l : List Range) (a : Nat) (e : Option Nat) : (k.addFps i j l a e).trussImage = k.trussImage := rfl
@[simp] theorem Core.addFps_pend (i : Issuer) (j : Nat) (l : List Range) (a : Nat) (e : Option Nat) : (k.addFps i j l a e).pend = k.pend := rfl
@[simp] theorem Core.addFps_a (i : Issuer) (j : Nat) (l : List Range) (a : Nat) (e : Option Nat) : (k.addFps i j l a e).a = k.a := rfl
@[simp] theorem Core.addFps_x (i : Issuer) (j : Nat) (l : List Range) (a : Nat) (e : Option Nat) : (k.addFps i j l a e).x = k.x := rfl
@[simp] theorem Core.addFps_running (i : Issuer) (j : Nat) (l : List Range) (a : Nat) (e : Option Nat) : (k.addFps i j l a e).running = k.running := rfl
@[simp] theorem Core.addFps_stopAt (i : Issuer) (j : Nat) (l : List Range) (a : Nat) (e : Option Nat) : (k.addFps i j l a e).stopAt = k.stopAt := rfl
@[simp] theorem Core.addFps_unresumable (i : Issuer) (j : Nat) (l : List Range) (a : Nat) (e : Option Nat) : (k.addFps i j l a e).unresumable = k.unresumable := rfl
@[simp] theorem Core.addFps_preempt (i : Issuer) (j : Nat) (l : List Range) (a : Nat) (e : Option Nat) : (k.addFps i j l a e).preempt = k.preempt := rfl
@[simp] theorem Core.addFps_asks (i : Issuer) (j : Nat) (l : List Range) (a : Nat) (e : Option Nat) : (k.addFps i j l a e).asks = k.asks := rfl
@[simp] theorem Core.addFps_stopReq (i : Issuer) (j : Nat) (l : List Range) (a : Nat) (e : Option Nat) : (k.addFps i j l a e).stopReq = k.stopReq := rfl
@[simp] theorem Core.addFps_saving (i : Issuer) (j : Nat) (l : List Range) (a : Nat) (e : Option Nat) : (k.addFps i j l a e).saving = k.saving := rfl
@[simp] theorem Core.addFps_lastDone (i : Issuer) (j : Nat) (l : List Range) (a : Nat) (e : Option Nat) : (k.addFps i j l a e).lastDone = k.lastDone := rfl
@[simp] theorem Core.addFps_bad (i : Issuer) (j : Nat) (l : List Range) (a : Nat) (e : Option Nat) : (k.addFps i j l a e).bad = k.bad := rfl
@[simp] theorem Core.setSeq_store (d : Side) (q : Seq) : (k.setSeq d q).store = k.store := by cases d <;> rfl
@[simp] theorem Core.setSeq_acc (d : Side) (q : Seq) : (k.setSeq d q).acc = k.acc := by cases d <;> rfl
@[simp] theorem Core.setSeq_bfmt (d : Side) (q : Seq) : (k.setSeq d q).bfmt = k.bfmt := by cases d <;> rfl
@[simp] theorem Core.setSeq_desc (d : Side) (q : Seq) : (k.setSeq d q).desc = k.desc := by cases d <;> rfl
@[simp] theorem Core.setSeq_k (d : Side) (q : Seq) : (k.setSeq d q).k = k.k := by cases d <;> rfl
@[simp] theorem Core.setSeq_issued (d : Side) (q : Seq) : (k.setSeq d q).issued = k.issued := by cases d <;> rfl
@[simp] theorem Core.setSeq_completed (d : Side) (q : Seq) : (k.setSeq d q).completed = k.completed := by cases d <;> rfl
@[simp] theorem Core.setSeq_chainHead (d : Side) (q : Seq) : (k.setSeq d q).chainHead = k.chainHead := by cases d <;> rfl
@[simp] theorem Core.setSeq_chainTail (d : Side) (q : Seq) : (k.setSeq d q).chainTail = k.chainTail := by cases d <;> rfl
@[simp] theorem Core.setSeq_queues (d : Side) (q : Seq) : (k.setSeq d q).queues = k.queues := by cases d <;> rfl
@[simp] theorem Core.setSeq_vwb (d : Side) (q : Seq) : (k.setSeq d q).vwb = k.vwb := by cases d <;> rfl
@[simp] theorem Core.setSeq_vtype (d : Side) (q : Seq) : (k.setSeq d q).vtype = k.vtype := by cases d <;> rfl
@[simp] theorem Core.setSeq_vrm (d : Side) (q : Seq) : (k.setSeq d q).vrm = k.vrm := by cases d <;> rfl
@[simp] theorem Core.setSeq_vclb (d : Side) (q : Seq) : (k.setSeq d q).vclb = k.vclb := by cases d <;> rfl
@[simp] theorem Core.setSeq_vflags (d : Side) (q : Seq) : (k.setSeq d q).vflags = k.vflags := by cases d <;> rfl
@[simp] theorem Core.setSeq_mstamp (d : Side) (q : Seq) : (k.setSeq d q).mstamp = k.mstamp := by cases d <;> rfl
@[simp] theorem Core.setSeq_masks (d : Side) (q : Seq) : (k.setSeq d q).masks = k.masks := by cases d <;> rfl
@[simp] theorem Core.setSeq_stage (d : Side) (q : Seq) : (k.setSeq d q).stage = k.stage := by cases d <;> rfl
@[simp] theorem Core.setSeq_detmode (d : Side) (q : Seq) : (k.setSeq d q).detmode = k.detmode := by cases d <;> rfl
@[simp] theorem Core.setSeq_sideLog (d : Side) (q : Seq) : (k.setSeq d q).sideLog = k.sideLog := by cases d <;> rfl
@[simp] theorem Core.setSeq_fps (d : Side) (q : Seq) : (k.setSeq d q).fps = k.fps := by cases d <;> rfl
@[simp] theorem Core.setSeq_engQ (d : Side) (q : Seq) : (k.setSeq d q).engQ = k.engQ := by cases d <;> rfl
@[simp] theorem Core.setSeq_jobs (d : Side) (q : Seq) : (k.setSeq d q).jobs = k.jobs := by cases d <;> rfl
@[simp] theorem Core.setSeq_nextJob (d : Side) (q : Seq) : (k.setSeq d q).nextJob = k.nextJob := by cases d <;> rfl
@[simp] theorem Core.setSeq_engHold (d : Side) (q : Seq) : (k.setSeq d q).engHold = k.engHold := by cases d <;> rfl
@[simp] theorem Core.setSeq_matrixFree (d : Side) (q : Seq) : (k.setSeq d q).matrixFree = k.matrixFree := by cases d <;> rfl
@[simp] theorem Core.setSeq_copyFree (d : Side) (q : Seq) : (k.setSeq d q).copyFree = k.copyFree := by cases d <;> rfl
@[simp] theorem Core.setSeq_engFree (d : Side) (q : Seq) : (k.setSeq d q).engFree = k.engFree := by cases d <;> rfl
@[simp] theorem Core.setSeq_trussPorts (d : Side) (q : Seq) : (k.setSeq d q).trussPorts = k.trussPorts := by cases d <;> rfl
@[simp] theorem Core.setSeq_trussImage (d : Side) (q : Seq) : (k.setSeq d q).trussImage = k.trussImage := by cases d <;> rfl
@[simp] theorem Core.setSeq_pend (d : Side) (q : Seq) : (k.setSeq d q).pend = k.pend := by cases d <;> rfl
@[simp] theorem Core.setSeq_running (d : Side) (q : Seq) : (k.setSeq d q).running = k.running := by cases d <;> rfl
@[simp] theorem Core.setSeq_stopAt (d : Side) (q : Seq) : (k.setSeq d q).stopAt = k.stopAt := by cases d <;> rfl
@[simp] theorem Core.setSeq_unresumable (d : Side) (q : Seq) : (k.setSeq d q).unresumable = k.unresumable := by cases d <;> rfl
@[simp] theorem Core.setSeq_preempt (d : Side) (q : Seq) : (k.setSeq d q).preempt = k.preempt := by cases d <;> rfl
@[simp] theorem Core.setSeq_asks (d : Side) (q : Seq) : (k.setSeq d q).asks = k.asks := by cases d <;> rfl
@[simp] theorem Core.setSeq_stopReq (d : Side) (q : Seq) : (k.setSeq d q).stopReq = k.stopReq := by cases d <;> rfl
@[simp] theorem Core.setSeq_saving (d : Side) (q : Seq) : (k.setSeq d q).saving = k.saving := by cases d <;> rfl
@[simp] theorem Core.setSeq_lastDone (d : Side) (q : Seq) : (k.setSeq d q).lastDone = k.lastDone := by cases d <;> rfl
@[simp] theorem Core.setSeq_bad (d : Side) (q : Seq) : (k.setSeq d q).bad = k.bad := by cases d <;> rfl

/-- A sequencer read after a sequencer of the core was replaced. -/
@[simp] theorem Core.setSeq_seq (d e : Side) (q : Seq) : (k.setSeq d q).seq e = if e = d then q else k.seq e := by
  cases d <;> cases e <;> rfl
/-- A queue read after a queue was replaced. -/
theorem Core.setQueue_queue (q r : QName) (l : List QEntry) :
    (k.setQueue q l).queue r = if r.idx = q.idx then l else k.queue r := tabGet_tabPut _ q.idx r.idx l _

end CoreUpdates

end Sys2Proof.Machine
end

