-- ==== Sys2Proof/Laws/Popped.lean ====
section
/-! SUPPORT. What making a word's pops leaves unchanged: everything but the queues of its own core and the sequencer that begins the
word. -/

namespace Sys2Proof.Machine

/-- Pops leave every field of the machine but the cores. -/
theorem popAll_same {α : Type} (f : State → α) (h : ∀ s c q, f (State.onCore s c (·.pop q)) = f s) (c : Nat) :
    ∀ (l : List QName) (s : State), f (s.popAll c l) = f s
  | [], _ => rfl
  | q :: r, s => (popAll_same f h c r (s.onCore c (·.pop q))).trans (h s c q)

/-- A view of a core that a pop does not change is not changed by pops. -/
theorem popAll_core {α : Type} (f : Core → α) (h : ∀ k q, f (Core.pop k q) = f k) (c x : Nat) (l : List QName) (s : State) :
    f ((s.popAll c l).core x) = f (s.core x) := by
  refine popAll_same (fun s => f (s.core x)) (fun s c q => ?_) c l s
  rw [onCore_core]
  by_cases e : x = c
  · subst e; rw [if_pos rfl, h]
  · rw [if_neg e]

section Popped

variable (s : State) (o : Operands)

@[simp] theorem popped_rom : (s.popped o).rom = s.rom := popAll_same (·.rom) (fun _ _ _ => rfl) _ _ s
@[simp] theorem popped_dies : (s.popped o).m.dies = s.m.dies := popAll_same (·.m.dies) (fun _ _ _ => rfl) _ _ s
@[simp] theorem popped_clusters : (s.popped o).m.clusters = s.m.clusters := popAll_same (·.m.clusters) (fun _ _ _ => rfl) _ _ s
@[simp] theorem popped_recs : (s.popped o).m.recs = s.m.recs := popAll_same (·.m.recs) (fun _ _ _ => rfl) _ _ s
@[simp] theorem popped_nextRec : (s.popped o).m.nextRec = s.m.nextRec := popAll_same (·.m.nextRec) (fun _ _ _ => rfl) _ _ s
@[simp] theorem popped_launches : (s.popped o).m.launches = s.m.launches := popAll_same (·.m.launches) (fun _ _ _ => rfl) _ _ s
@[simp] theorem popped_slots : (s.popped o).m.slots = s.m.slots := popAll_same (·.m.slots) (fun _ _ _ => rfl) _ _ s
@[simp] theorem popped_batches : (s.popped o).m.batches = s.m.batches := popAll_same (·.m.batches) (fun _ _ _ => rfl) _ _ s
@[simp] theorem popped_nextBatch : (s.popped o).m.nextBatch = s.m.nextBatch := popAll_same (·.m.nextBatch) (fun _ _ _ => rfl) _ _ s
@[simp] theorem popped_lead : (s.popped o).m.lead = s.m.lead := popAll_same (·.m.lead) (fun _ _ _ => rfl) _ _ s
@[simp] theorem popped_reqs : (s.popped o).m.reqs = s.m.reqs := popAll_same (·.m.reqs) (fun _ _ _ => rfl) _ _ s
@[simp] theorem popped_replies : (s.popped o).m.replies = s.m.replies := popAll_same (·.m.replies) (fun _ _ _ => rfl) _ _ s
@[simp] theorem popped_beacons : (s.popped o).m.beacons = s.m.beacons := popAll_same (·.m.beacons) (fun _ _ _ => rfl) _ _ s
@[simp] theorem popped_nextReq : (s.popped o).m.nextReq = s.m.nextReq := popAll_same (·.m.nextReq) (fun _ _ _ => rfl) _ _ s
@[simp] theorem popped_excluded : (s.popped o).m.excluded = s.m.excluded := popAll_same (·.m.excluded) (fun _ _ _ => rfl) _ _ s
@[simp] theorem popped_host : (s.popped o).m.host = s.m.host := popAll_same (·.m.host) (fun _ _ _ => rfl) _ _ s
@[simp] theorem popped_ringN : (s.popped o).m.ringN = s.m.ringN := popAll_same (·.m.ringN) (fun _ _ _ => rfl) _ _ s
@[simp] theorem popped_ringOrder : (s.popped o).m.ringOrder = s.m.ringOrder := popAll_same (·.m.ringOrder) (fun _ _ _ => rfl) _ _ s
@[simp] theorem popped_bootStep : (s.popped o).m.bootStep = s.m.bootStep := popAll_same (·.m.bootStep) (fun _ _ _ => rfl) _ _ s
@[simp] theorem popped_modules : (s.popped o).m.modules = s.m.modules := popAll_same (·.m.modules) (fun _ _ _ => rfl) _ _ s
@[simp] theorem popped_ringAll : (s.popped o).m.ringAll = s.m.ringAll := popAll_same (·.m.ringAll) (fun _ _ _ => rfl) _ _ s
@[simp] theorem popped_repaired : (s.popped o).m.repaired = s.m.repaired := popAll_same (·.m.repaired) (fun _ _ _ => rfl) _ _ s
@[simp] theorem popped_failing : (s.popped o).m.failing = s.m.failing := popAll_same (·.m.failing) (fun _ _ _ => rfl) _ _ s
@[simp] theorem popped_broken : (s.popped o).m.broken = s.m.broken := popAll_same (·.m.broken) (fun _ _ _ => rfl) _ _ s
@[simp] theorem popped_free : (s.popped o).m.free = s.m.free := popAll_same (·.m.free) (fun _ _ _ => rfl) _ _ s
@[simp] theorem popped_agenda : (s.popped o).m.agenda = s.m.agenda := popAll_same (·.m.agenda) (fun _ _ _ => rfl) _ _ s
@[simp] theorem popped_phase : (s.popped o).m.phase = s.m.phase := popAll_same (·.m.phase) (fun _ _ _ => rfl) _ _ s
@[simp] theorem popped_cur : (s.popped o).m.cur = s.m.cur := popAll_same (·.m.cur) (fun _ _ _ => rfl) _ _ s
@[simp] theorem popped_cluster_of (x : Nat) : (s.popped o).cluster x = s.cluster x := popAll_same (·.cluster x) (fun _ _ _ => rfl) _ _ s
@[simp] theorem popped_die_of (x : Nat) : (s.popped o).die x = s.die x := popAll_same (·.die x) (fun _ _ _ => rfl) _ _ s
@[simp] theorem popped_ccyc_of (x : Nat) : (s.popped o).ccyc x = s.ccyc x := popAll_same (·.ccyc x) (fun _ _ _ => rfl) _ _ s
@[simp] theorem popped_keyc_of (x : Nat) : (s.popped o).keyc x = s.keyc x := popAll_same (·.keyc x) (fun _ _ _ => rfl) _ _ s

/-- A view of a core that neither a pop nor a change of a sequencer touches. -/
theorem popped_core {α : Type} (f : Core → α) (h : ∀ k q, f (Core.pop k q) = f k) (g : ∀ k d q, f (Core.setSeq k d q) = f k) (x : Nat) :
    f ((s.popped o).core x) = f (s.core x) := by
  unfold State.popped
  rw [onSeq_core]
  by_cases e : x = s.m.cur.core
  · rw [if_pos e, g, popAll_core f h, e]
  · rw [if_neg e, popAll_core f h]

@[simp] theorem popped_core_store (x : Nat) : ((s.popped o).core x).store = (s.core x).store := popped_core s o (·.store) (fun _ _ => rfl) (Core.setSeq_store) x
@[simp] theorem popped_core_acc (x : Nat) : ((s.popped o).core x).acc = (s.core x).acc := popped_core s o (·.acc) (fun _ _ => rfl) (Core.setSeq_acc) x
@[simp] theorem popped_core_bfmt (x : Nat) : ((s.popped o).core x).bfmt = (s.core x).bfmt := popped_core s o (·.bfmt) (fun _ _ => rfl) (Core.setSeq_bfmt) x
@[simp] theorem popped_core_desc (x : Nat) : ((s.popped o).core x).desc = (s.core x).desc := popped_core s o (·.desc) (fun _ _ => rfl) (Core.setSeq_desc) x
@[simp] theorem popped_core_k (x : Nat) : ((s.popped o).core x).k = (s.core x).k := popped_core s o (·.k) (fun _ _ => rfl) (Core.setSeq_k) x
@[simp] theorem popped_core_issued (x : Nat) : ((s.popped o).core x).issued = (s.core x).issued := popped_core s o (·.issued) (fun _ _ => rfl) (Core.setSeq_issued) x
@[simp] theorem popped_core_completed (x : Nat) : ((s.popped o).core x).completed = (s.core x).completed := popped_core s o (·.completed) (fun _ _ => rfl) (Core.setSeq_completed) x
@[simp] theorem popped_core_chainHead (x : Nat) : ((s.popped o).core x).chainHead = (s.core x).chainHead := popped_core s o (·.chainHead) (fun _ _ => rfl) (Core.setSeq_chainHead) x
@[simp] theorem popped_core_chainTail (x : Nat) : ((s.popped o).core x).chainTail = (s.core x).chainTail := popped_core s o (·.chainTail) (fun _ _ => rfl) (Core.setSeq_chainTail) x
@[simp] theorem popped_core_vwb (x : Nat) : ((s.popped o).core x).vwb = (s.core x).vwb := popped_core s o (·.vwb) (fun _ _ => rfl) (Core.setSeq_vwb) x
@[simp] theorem popped_core_vtype (x : Nat) : ((s.popped o).core x).vtype = (s.core x).vtype := popped_core s o (·.vtype) (fun _ _ => rfl) (Core.setSeq_vtype) x
@[simp] theorem popped_core_vrm (x : Nat) : ((s.popped o).core x).vrm = (s.core x).vrm := popped_core s o (·.vrm) (fun _ _ => rfl) (Core.setSeq_vrm) x
@[simp] theorem popped_core_vclb (x : Nat) : ((s.popped o).core x).vclb = (s.core x).vclb := popped_core s o (·.vclb) (fun _ _ => rfl) (Core.setSeq_vclb) x
@[simp] theorem popped_core_vflags (x : Nat) : ((s.popped o).core x).vflags = (s.core x).vflags := popped_core s o (·.vflags) (fun _ _ => rfl) (Core.setSeq_vflags) x
@[simp] theorem popped_core_mstamp (x : Nat) : ((s.popped o).core x).mstamp = (s.core x).mstamp := popped_core s o (·.mstamp) (fun _ _ => rfl) (Core.setSeq_mstamp) x
@[simp] theorem popped_core_masks (x : Nat) : ((s.popped o).core x).masks = (s.core x).masks := popped_core s o (·.masks) (fun _ _ => rfl) (Core.setSeq_masks) x
@[simp] theorem popped_core_stage (x : Nat) : ((s.popped o).core x).stage = (s.core x).stage := popped_core s o (·.stage) (fun _ _ => rfl) (Core.setSeq_stage) x
@[simp] theorem popped_core_detmode (x : Nat) : ((s.popped o).core x).detmode = (s.core x).detmode := popped_core s o (·.detmode) (fun _ _ => rfl) (Core.setSeq_detmode) x
@[simp] theorem popped_core_sideLog (x : Nat) : ((s.popped o).core x).sideLog = (s.core x).sideLog := popped_core s o (·.sideLog) (fun _ _ => rfl) (Core.setSeq_sideLog) x
@[simp] theorem popped_core_fps (x : Nat) : ((s.popped o).core x).fps = (s.core x).fps := popped_core s o (·.fps) (fun _ _ => rfl) (Core.setSeq_fps) x
@[simp] theorem popped_core_engQ (x : Nat) : ((s.popped o).core x).engQ = (s.core x).engQ := popped_core s o (·.engQ) (fun _ _ => rfl) (Core.setSeq_engQ) x
@[simp] theorem popped_core_jobs (x : Nat) : ((s.popped o).core x).jobs = (s.core x).jobs := popped_core s o (·.jobs) (fun _ _ => rfl) (Core.setSeq_jobs) x
@[simp] theorem popped_core_nextJob (x : Nat) : ((s.popped o).core x).nextJob = (s.core x).nextJob := popped_core s o (·.nextJob) (fun _ _ => rfl) (Core.setSeq_nextJob) x
@[simp] theorem popped_core_engHold (x : Nat) : ((s.popped o).core x).engHold = (s.core x).engHold := popped_core s o (·.engHold) (fun _ _ => rfl) (Core.setSeq_engHold) x
@[simp] theorem popped_core_matrixFree (x : Nat) : ((s.popped o).core x).matrixFree = (s.core x).matrixFree := popped_core s o (·.matrixFree) (fun _ _ => rfl) (Core.setSeq_matrixFree) x
@[simp] theorem popped_core_copyFree (x : Nat) : ((s.popped o).core x).copyFree = (s.core x).copyFree := popped_core s o (·.copyFree) (fun _ _ => rfl) (Core.setSeq_copyFree) x
@[simp] theorem popped_core_engFree (x : Nat) : ((s.popped o).core x).engFree = (s.core x).engFree := popped_core s o (·.engFree) (fun _ _ => rfl) (Core.setSeq_engFree) x
@[simp] theorem popped_core_trussPorts (x : Nat) : ((s.popped o).core x).trussPorts = (s.core x).trussPorts := popped_core s o (·.trussPorts) (fun _ _ => rfl) (Core.setSeq_trussPorts) x
@[simp] theorem popped_core_trussImage (x : Nat) : ((s.popped o).core x).trussImage = (s.core x).trussImage := popped_core s o (·.trussImage) (fun _ _ => rfl) (Core.setSeq_trussImage) x
@[simp] theorem popped_core_pend (x : Nat) : ((s.popped o).core x).pend = (s.core x).pend := popped_core s o (·.pend) (fun _ _ => rfl) (Core.setSeq_pend) x
@[simp] theorem popped_core_running (x : Nat) : ((s.popped o).core x).running = (s.core x).running := popped_core s o (·.running) (fun _ _ => rfl) (Core.setSeq_running) x
@[simp] theorem popped_core_stopAt (x : Nat) : ((s.popped o).core x).stopAt = (s.core x).stopAt := popped_core s o (·.stopAt) (fun _ _ => rfl) (Core.setSeq_stopAt) x
@[simp] theorem popped_core_unresumable (x : Nat) : ((s.popped o).core x).unresumable = (s.core x).unresumable := popped_core s o (·.unresumable) (fun _ _ => rfl) (Core.setSeq_unresumable) x
@[simp] theorem popped_core_preempt (x : Nat) : ((s.popped o).core x).preempt = (s.core x).preempt := popped_core s o (·.preempt) (fun _ _ => rfl) (Core.setSeq_preempt) x
@[simp] theorem popped_core_asks (x : Nat) : ((s.popped o).core x).asks = (s.core x).asks := popped_core s o (·.asks) (fun _ _ => rfl) (Core.setSeq_asks) x
@[simp] theorem popped_core_stopReq (x : Nat) : ((s.popped o).core x).stopReq = (s.core x).stopReq := popped_core s o (·.stopReq) (fun _ _ => rfl) (Core.setSeq_stopReq) x
@[simp] theorem popped_core_saving (x : Nat) : ((s.popped o).core x).saving = (s.core x).saving := popped_core s o (·.saving) (fun _ _ => rfl) (Core.setSeq_saving) x
@[simp] theorem popped_core_lastDone (x : Nat) : ((s.popped o).core x).lastDone = (s.core x).lastDone := popped_core s o (·.lastDone) (fun _ _ => rfl) (Core.setSeq_lastDone) x
@[simp] theorem popped_core_bad (x : Nat) : ((s.popped o).core x).bad = (s.core x).bad := popped_core s o (·.bad) (fun _ _ => rfl) (Core.setSeq_bad) x

/-- A word that has made its pops has begun on its sequencer and left the others. -/
theorem popped_seq (q : SeqId) :
    (s.popped o).seq q = if q = s.m.cur then (s.seq q).begin else s.seq q := by
  have hp : ∀ (l : List QName) (x : Nat) (d : Side), ((s.popAll s.m.cur.core l).core x).seq d = (s.core x).seq d := fun l x d =>
    popAll_core (fun k => Core.seq k d) (fun _ _ => by cases d <;> rfl) _ x l s
  unfold State.popped State.seq
  rw [onSeq_core]
  by_cases e : q.core = s.m.cur.core
  · rw [if_pos e, Core.setSeq_seq]
    by_cases e2 : q.side = s.m.cur.side
    · have e3 : q = s.m.cur := by cases q; simp_all
      rw [if_pos e2, if_pos e3, State.seq, hp, ← e, ← e2]
    · have e3 : ¬ q = s.m.cur := fun h => e2 (congrArg SeqId.side h)
      rw [if_neg e2, if_neg e3, hp, ← e]
  · have e3 : ¬ q = s.m.cur := fun h => e (congrArg SeqId.core h)
    rw [if_neg e, if_neg e3, hp]

end Popped

end Sys2Proof.Machine
end

