-- ==== Sys2Proof/Laws/Ring.lean ====
section
/-! SUPPORT. What a change of a die's segments, a beat sent and a header or payload beat leave (R33 to R39). -/

namespace Sys2Proof.Machine

/-- A locator update changes nothing of a ring but the updates entered (R37). -/
theorem Die.touch_eq (d : Die) (first : Nat) : ∃ l, d.touch first = d.onRing (fun r => { r with locPend := l }) := by
  unfold Die.touch
  split
  · exact ⟨d.ring.locPend, rfl⟩
  · split
    · exact ⟨_, rfl⟩
    · exact ⟨d.ring.locPend, rfl⟩

/-- A change of a segment changes nothing of a die but its segments and the locator updates entered (R37, R39). -/
theorem Die.onSeg_eq (d : Die) (first : Nat) (f : Inst → Inst) :
    ∃ i l, d.onSeg first f = d.onRing (fun r => { r with insts := i, locPend := l }) := by
  obtain ⟨l, h⟩ := Die.touch_eq (d.onRing (fun r => { r with insts := r.insts.map (fun i => if i.first = first then f i else i) })) first
  exact ⟨_, l, by simp only [Die.onSeg, h]; rfl⟩

@[simp] theorem Die.onSeg_sent (d : Die) (a : Nat) (f : Inst → Inst) : (d.onSeg a f).ring.sent = d.ring.sent := by
  obtain ⟨_, _, h⟩ := d.onSeg_eq a f; rw [h]; rfl
@[simp] theorem Die.onSeg_written (d : Die) (a : Nat) (f : Inst → Inst) : (d.onSeg a f).ring.written = d.ring.written := by
  obtain ⟨_, _, h⟩ := d.onSeg_eq a f; rw [h]; rfl
@[simp] theorem Die.onSeg_link (d : Die) (a : Nat) (f : Inst → Inst) : (d.onSeg a f).ring.link = d.ring.link := by
  obtain ⟨_, _, h⟩ := d.onSeg_eq a f; rw [h]; rfl
@[simp] theorem Die.onSeg_expect (d : Die) (a : Nat) (f : Inst → Inst) : (d.onSeg a f).ring.expect = d.ring.expect := by
  obtain ⟨_, _, h⟩ := d.onSeg_eq a f; rw [h]; rfl
@[simp] theorem Die.onSeg_crc (d : Die) (a : Nat) (f : Inst → Inst) : (d.onSeg a f).ring.crc = d.ring.crc := by
  obtain ⟨_, _, h⟩ := d.onSeg_eq a f; rw [h]; rfl
@[simp] theorem Die.onSeg_slotAt (d : Die) (a : Nat) (f : Inst → Inst) : (d.onSeg a f).ring.slotAt = d.ring.slotAt := by
  obtain ⟨_, _, h⟩ := d.onSeg_eq a f; rw [h]; rfl
@[simp] theorem Die.onSeg_held (d : Die) (a : Nat) (f : Inst → Inst) : (d.onSeg a f).ring.held = d.ring.held := by
  obtain ⟨_, _, h⟩ := d.onSeg_eq a f; rw [h]; rfl
@[simp] theorem Die.onSeg_inserts (d : Die) (a : Nat) (f : Inst → Inst) : (d.onSeg a f).ring.inserts = d.ring.inserts := by
  obtain ⟨_, _, h⟩ := d.onSeg_eq a f; rw [h]; rfl
@[simp] theorem Die.onSeg_holdIn (d : Die) (a : Nat) (f : Inst → Inst) : (d.onSeg a f).ring.holdIn = d.ring.holdIn := by
  obtain ⟨_, _, h⟩ := d.onSeg_eq a f; rw [h]; rfl
@[simp] theorem Die.onSeg_limited (d : Die) (a : Nat) (f : Inst → Inst) : (d.onSeg a f).ring.limited = d.ring.limited := by
  obtain ⟨_, _, h⟩ := d.onSeg_eq a f; rw [h]; rfl
@[simp] theorem Die.onSeg_dome (d : Die) (a : Nat) (f : Inst → Inst) : (d.onSeg a f).dome = d.dome := by
  obtain ⟨_, _, h⟩ := d.onSeg_eq a f; rw [h]; rfl
@[simp] theorem Die.onSeg_win (d : Die) (a : Nat) (f : Inst → Inst) : (d.onSeg a f).win = d.win := by
  obtain ⟨_, _, h⟩ := d.onSeg_eq a f; rw [h]; rfl
@[simp] theorem Die.onSeg_keyc (d : Die) (a : Nat) (f : Inst → Inst) : (d.onSeg a f).keyc = d.keyc := by
  obtain ⟨_, _, h⟩ := d.onSeg_eq a f; rw [h]; rfl
@[simp] theorem Die.onSeg_links (d : Die) (a : Nat) (f : Inst → Inst) : (d.onSeg a f).links = d.links := by
  obtain ⟨_, _, h⟩ := d.onSeg_eq a f; rw [h]; rfl
@[simp] theorem Die.onSeg_lantern (d : Die) (a : Nat) (f : Inst → Inst) : (d.onSeg a f).lantern = d.lantern := by
  obtain ⟨_, _, h⟩ := d.onSeg_eq a f; rw [h]; rfl
@[simp] theorem Die.touch_sent (d : Die) (a : Nat) : (d.touch a).ring.sent = d.ring.sent := by
  obtain ⟨_, h⟩ := d.touch_eq a; rw [h]; rfl
@[simp] theorem Die.touch_written (d : Die) (a : Nat) : (d.touch a).ring.written = d.ring.written := by
  obtain ⟨_, h⟩ := d.touch_eq a; rw [h]; rfl
@[simp] theorem Die.touch_link (d : Die) (a : Nat) : (d.touch a).ring.link = d.ring.link := by
  obtain ⟨_, h⟩ := d.touch_eq a; rw [h]; rfl
@[simp] theorem Die.touch_expect (d : Die) (a : Nat) : (d.touch a).ring.expect = d.ring.expect := by
  obtain ⟨_, h⟩ := d.touch_eq a; rw [h]; rfl
@[simp] theorem Die.touch_crc (d : Die) (a : Nat) : (d.touch a).ring.crc = d.ring.crc := by
  obtain ⟨_, h⟩ := d.touch_eq a; rw [h]; rfl
@[simp] theorem Die.touch_insts (d : Die) (a : Nat) : (d.touch a).ring.insts = d.ring.insts := by
  obtain ⟨_, h⟩ := d.touch_eq a; rw [h]; rfl
@[simp] theorem Die.touch_dome (d : Die) (a : Nat) : (d.touch a).dome = d.dome := by
  obtain ⟨_, h⟩ := d.touch_eq a; rw [h]; rfl
@[simp] theorem Die.touch_win (d : Die) (a : Nat) : (d.touch a).win = d.win := by
  obtain ⟨_, h⟩ := d.touch_eq a; rw [h]; rfl
@[simp] theorem Die.touch_keyc (d : Die) (a : Nat) : (d.touch a).keyc = d.keyc := by
  obtain ⟨_, h⟩ := d.touch_eq a; rw [h]; rfl
@[simp] theorem Die.setField_ring (d : Die) (o hi lo v : Nat) : (d.setField o hi lo v).ring = d.ring := rfl
@[simp] theorem Die.count_ring (d : Die) (o hi lo v : Nat) : (d.count o hi lo v).ring = d.ring := rfl
@[simp] theorem Die.setField_dome (d : Die) (o hi lo v : Nat) : (d.setField o hi lo v).dome = d.dome := rfl
@[simp] theorem Die.count_dome (d : Die) (o hi lo v : Nat) : (d.count o hi lo v).dome = d.dome := rfl
@[simp] theorem Die.setField_keyc (d : Die) (o hi lo v : Nat) : (d.setField o hi lo v).keyc = d.keyc := rfl
@[simp] theorem Die.count_keyc (d : Die) (o hi lo v : Nat) : (d.count o hi lo v).keyc = d.keyc := rfl
@[simp] theorem Die.setField_links (d : Die) (o hi lo v : Nat) : (d.setField o hi lo v).links = d.links := rfl
@[simp] theorem Die.count_links (d : Die) (o hi lo v : Nat) : (d.count o hi lo v).links = d.links := rfl

/-- A register read after a field of a register was written. -/
theorem Die.setField_reg (d : Die) (o x hi lo v : Nat) :
    (d.setField o hi lo v).reg x = if x = o then setBits (d.reg o) hi lo v else d.reg x := by
  unfold Die.setField Die.setReg Die.reg
  rw [tabGet_tabPut]

/-- A bit of a word of which a field was replaced. -/
theorem getLsbD_setBits {w : Nat} (v : BitVec w) {hi lo b : Nat} (x : Nat) (hl : lo ≤ hi) (hb : b < w) :
    (setBits v hi lo x).getLsbD b = if lo ≤ b ∧ b ≤ hi then x.testBit (b - lo) else v.getLsbD b := by
  have e : hi + 1 = lo + (hi + 1 - lo) := by omega
  have h1 : v.toNat % 2 ^ lo < 2 ^ lo := Nat.mod_lt _ (Nat.two_pow_pos lo)
  have h2 : v.toNat % 2 ^ lo + x % 2 ^ (hi + 1 - lo) * 2 ^ lo < 2 ^ (hi + 1) := by
    have h3 : x % 2 ^ (hi + 1 - lo) + 1 ≤ 2 ^ (hi + 1 - lo) := Nat.mod_lt _ (Nat.two_pow_pos _)
    have h4 := Nat.mul_le_mul_right (2 ^ lo) h3
    have h5 : 2 ^ (hi + 1 - lo) * 2 ^ lo = 2 ^ (hi + 1) := by rw [← Nat.pow_add]; congr 1; omega
    rw [Nat.add_mul, h5] at h4
    omega
  unfold setBits
  rw [BitVec.getLsbD_ofNat, Nat.add_comm, Nat.mul_comm, Nat.testBit_two_pow_mul_add _ h2,
    Nat.add_comm (v.toNat % 2 ^ lo), Nat.mul_comm (x % 2 ^ (hi + 1 - lo)), Nat.testBit_two_pow_mul_add _ h1]
  simp only [hb, decide_true, Bool.true_and, Nat.testBit_mod_two_pow, Nat.testBit_div_two_pow]
  by_cases c1 : b < lo
  · have c2 : b < hi + 1 := by omega
    have c3 : ¬lo ≤ b := by omega
    simp [c1, c2, c3, BitVec.testBit_toNat]
  · by_cases c2 : b < hi + 1
    · have c3 : lo ≤ b ∧ b ≤ hi := by omega
      have c4 : b - lo < hi + 1 - lo := by omega
      simp [c1, c2, c3, c4]
    · have c3 : ¬(lo ≤ b ∧ b ≤ hi) := by omega
      have c4 : b - (hi + 1) + (hi + 1) = b := by omega
      simp [c2, c3, c4, BitVec.testBit_toNat]

/-- A change of a die that leaves its window alone leaves which links are trained. -/
theorem trained_onDie (s : State) (g : Nat) {f : Die → Die} (h : ∀ d, (f d).win = d.win) (x : Nat) (l : Link) :
    (s.onDie g f).trained x l = s.trained x l := by
  unfold State.trained Die.reg
  rw [onDie_die]
  split
  · next e => rw [h, e]
  · rfl

/-- A change of a die that leaves its window alone leaves where its weights go. -/
theorem downstream_onDie (s : State) (g : Nat) {f : Die → Die} (h : ∀ d, (f d).win = d.win) (x : Nat) :
    (s.onDie g f).downstream x = s.downstream x := by
  have hw : ∀ x, ((s.onDie g f).die x).win = (s.die x).win := by
    intro x; rw [onDie_die]; split
    · next e => rw [h, e]
    · rfl
  have hv : ∀ x b, ((s.onDie g f).die x).vctl b = (s.die x).vctl b := by
    intro x b; unfold Die.vctl Die.reg; rw [hw]
  unfold State.downstream State.bootNext
  simp only [hv, trained_onDie s g h]
  rfl

end Sys2Proof.Machine
end

