-- ==== Sys2Proof/Tests/Slice0.lean ====
section
/-! SUPPORT. Tests: ill-formed words, decoding, single steps worked by hand, and for every statement states and operands that
meet its hypotheses. -/

open Sys2Proof Sys2Proof.Machine

namespace Sys2Proof.Tests

set_option Elab.async false

/-! ## Ill-formed words -/

theorem test_wf_guard : (Instr.add 8 1 2 3).wf = false ∧ (Instr.nop 8).wf = false ∧ (Instr.add 0 1 2 3).wf = true := by decide
theorem test_wf_source_s31 : (Instr.add 0 1 31 3).wf = false ∧ (Instr.st 0 31 2 3 0).wf = false ∧ (Instr.kwait 0 31 9).wf = false
    ∧ (Instr.lqr 0 0 1 31 0).wf = false ∧ (Instr.lqr 0 0 1 31 1).wf = true ∧ (Instr.lsi 0 31 1).wf = false := by decide
theorem test_wf_destination_s30 : (Instr.add 0 30 2 3).wf = false ∧ (Instr.ldi 0 30 1).wf = false ∧ (Instr.gpop 0 30).wf = false
    ∧ (Instr.lsi 0 30 1).wf = false ∧ (Instr.add 0 31 2 3).wf = true := by decide
theorem test_wf_vector_destination : (Instr.vadd 0 31 0 1 0).wf = false ∧ (Instr.vadd 0 30 0 1 0).wf = true
    ∧ (Instr.vfma 0 28 0 1 0).wf = false ∧ (Instr.vfma 0 27 0 1 0).wf = true := by decide
theorem test_wf_mask_destination : (Instr.mset 0 0).wf = false ∧ (Instr.vcmp 0 0 1 2 0 0).wf = false
    ∧ (Instr.vtopk 0 0 1 2 0).wf = false ∧ (Instr.mset 0 1).wf = true := by decide
theorem test_wf_conditions : (Instr.cmp 0 1 2 3 12).wf = false ∧ (Instr.cmpi 0 1 2 15 0).wf = false
    ∧ (Instr.vcmp 0 1 1 2 0 6).wf = false ∧ (Instr.cmp 0 1 2 3 11).wf = true := by decide
theorem test_wf_loop_length : (Instr.loop 0 0 1 0).wf = false ∧ (Instr.loop 0 0 1 1).wf = true := by decide
theorem test_wf_sizes : (Instr.ld 0 1 2 7 0).wf = false ∧ (Instr.st 0 1 2 4 0).wf = false ∧ (Instr.gld 0 1 2 7).wf = false
    ∧ (Instr.ld 0 1 2 6 0).wf = true := by decide
theorem test_wf_atomics : (Instr.amoReturning 0 1 2 6 0).wf = false ∧ (Instr.amoReduction 0 1 2 7 0).wf = false
    ∧ (Instr.amoF32Reduction 0 1 2 3).wf = false ∧ (Instr.amoF32Reduction 0 1 2 2).wf = true := by decide
theorem test_wf_counters : (Instr.kadd 0 1 7 1 0).wf = false ∧ (Instr.kadd 0 1 8 1 7).wf = true ∧ (Instr.kadd 0 1 7 0 1).wf = false
    ∧ (Instr.kset 0 1 7 0 0).wf = true := by decide
theorem test_wf_queues : (Instr.qwait 0 1 11).wf = false ∧ (Instr.qwait 0 1 10).wf = true := by decide
theorem test_wf_system_registers : (Instr.rsr 0 1 0x004).wf = false ∧ (Instr.wsr 0 1 0x010).wf = false
    ∧ (Instr.xsr 0 1 0x061).wf = false ∧ (Instr.wsr 0 1 0x04F).wf = true := by decide
theorem test_wf_packing : (Instr.vpk 0 1 2 9 0 0).wf = false ∧ (Instr.vpk 0 1 27 0 0 0).wf = false
    ∧ (Instr.vpk 0 1 26 0 0 0).wf = true ∧ (Instr.vupk 0 1 2 0 2 0).wf = false ∧ (Instr.vupk 0 1 2 8 3 0).wf = true := by decide
theorem test_wf_matrix : (Instr.mma 0 0 1 2 0 0 3 0 0 0 0).wf = false ∧ (Instr.mma 0 0 1 2 0 0 2 0 0 0 0).wf = true := by decide
theorem test_wf_fields : (Instr.dmod 0 1 2 19).wf = false ∧ (Instr.dmod 0 1 2 18).wf = true ∧ (Instr.vwset 0 1536).wf = false
    ∧ (Instr.vwset 0 1535).wf = true := by decide

/-! ## Decoding: each word is written from the table's match and field positions (R264 to R272) -/

theorem test_decode_integer_0 :
    decode 0x5052E180 = some (.add 5 9 14 3)
    ∧ decode 0x5052E181 = some (.sub 5 9 14 3)
    ∧ decode 0x5052E182 = some (.and 5 9 14 3)
    ∧ decode 0x5052E183 = some (.or 5 9 14 3)
    ∧ decode 0x5052E184 = some (.xor 5 9 14 3)
    ∧ decode 0x5052E185 = some (.andn 5 9 14 3)
    ∧ decode 0x5052E186 = some (.shl 5 9 14 3)
    ∧ decode 0x5052E187 = some (.shr 5 9 14 3)
    ∧ decode 0x5052E188 = some (.sra 5 9 14 3)
    ∧ decode 0x5052E189 = some (.rot 5 9 14 3)
    ∧ decode 0x5052E18A = some (.mul 5 9 14 3)
    ∧ decode 0x5052E18B = some (.mulh 5 9 14 3)
    ∧ decode 0x5052E18C = some (.mulhn 5 9 14 3)
    ∧ decode 0x5052E18D = some (.min 5 9 14 3)
    ∧ decode 0x5052E18E = some (.max 5 9 14 3)
    ∧ decode 0x5052E18F = some (.minn 5 9 14 3) := by decide +kernel
theorem test_decode_integer_1 :
    decode 0x5052E190 = some (.maxn 5 9 14 3)
    ∧ decode 0x5052E191 = some (.div 5 9 14 3)
    ∧ decode 0x5052E192 = some (.divn 5 9 14 3)
    ∧ decode 0x5052E193 = some (.rem 5 9 14 3)
    ∧ decode 0x5052E194 = some (.remn 5 9 14 3)
    ∧ decode 0x5052E015 = some (.clz 5 9 14)
    ∧ decode 0x5052E016 = some (.ctz 5 9 14)
    ∧ decode 0x5052E017 = some (.popc 5 9 14)
    ∧ decode 0x5042E018 = some (.mtbt 5 1 14)
    ∧ decode 0x50521019 = some (.mfbt 5 9 1) := by decide +kernel
theorem test_decode_immediate_and_predicate_0 :
    decode 0x5092E155 = some (.addi 5 9 14 341)
    ∧ decode 0x50D2E155 = some (.andi 5 9 14 341)
    ∧ decode 0x5112E155 = some (.ori 5 9 14 341)
    ∧ decode 0x5152E155 = some (.xori 5 9 14 341)
    ∧ decode 0x5192E002 = some (.shli 5 9 14 2)
    ∧ decode 0x5192E402 = some (.shri 5 9 14 2)
    ∧ decode 0x5192E802 = some (.srai 5 9 14 2)
    ∧ decode 0x5192EC02 = some (.roti 5 9 14 2)
    ∧ decode 0x51D2E801 = some (.sxt 5 9 14 1)
    ∧ decode 0x51D2E001 = some (.zxt 5 9 14 1)
    ∧ decode 0x52120155 = some (.ldi 5 9 341)
    ∧ decode 0x52520155 = some (.lsi 5 9 341)
    ∧ decode 0x52B38720 = some (.cmp 5 6 14 3 9)
    ∧ decode 0x52F3A555 = some (.cmpi 5 6 14 9 341)
    ∧ decode 0x53026180 = some (.pand 5 1 6 3)
    ∧ decode 0x53026181 = some (.por 5 1 6 3) := by decide +kernel
theorem test_decode_immediate_and_predicate_1 :
    decode 0x53026182 = some (.pxor 5 1 6 3)
    ∧ decode 0x53026183 = some (.pandn 5 1 6 3)
    ∧ decode 0x53026004 = some (.pnot 5 1 6)
    ∧ decode 0x53026005 = some (.pmov 5 1 6)
    ∧ decode 0x53120006 = some (.pget 5 9)
    ∧ decode 0x5300E007 = some (.pput 5 14) := by decide +kernel
theorem test_decode_control_and_access_0 :
    decode 0x53500155 = some (.pbr 5 1 341)
    ∧ decode 0x53900000 = some (.br 5 1)
    ∧ decode 0x53940000 = some (.brl 5 1)
    ∧ decode 0x53C2EABC = some (.loop 5 1 14 2748)
    ∧ decode 0x54000000 = some (.knext 5)
    ∧ decode 0x54010000 = some (.exit 5)
    ∧ decode 0x5402180B = some (.yieldK 5 6 11)
    ∧ decode 0x54029800 = some (.yieldIo 5 6)
    ∧ decode 0x54406000 = some (.bpush 5 6)
    ∧ decode 0x54420001 = some (.bpop 5 1)
    ∧ decode 0x5492ED55 = some (.ld 5 9 14 6 341)
    ∧ decode 0x54D2E755 = some (.st 5 9 14 3 341)
    ∧ decode 0x5504E180 = some (.lqr 5 2 14 3 0)
    ∧ decode 0x5504E195 = some (.lqg 5 2 14 3 1 1)
    ∧ decode 0x5500E1A0 = some (.sqw 5 0 14 3 0)
    ∧ decode 0x5500E1B5 = some (.sqs 5 0 14 3 1 1) := by decide +kernel
theorem test_decode_control_and_access_1 :
    decode 0x55040040 = some (.lqz 5 2) := by decide +kernel
theorem test_decode_dome_and_counters_0 :
    decode 0x5540E18C = some (.gld 5 14 3 6)
    ∧ decode 0x5552E192 = some (.gst 5 9 14 3 1)
    ∧ decode 0x55520020 = some (.gpop 5 9)
    ∧ decode 0x55520030 = some (.gcnt 5 9)
    ∧ decode 0x5580E1E9 = some (.amoReturning 5 14 3 5 1)
    ∧ decode 0x5580E1F1 = some (.amoXchg 5 14 3 1)
    ∧ decode 0x5592E1F9 = some (.amoCas 5 9 14 3 1)
    ∧ decode 0x5580E1A9 = some (.amoReduction 5 14 3 5 1)
    ∧ decode 0x5580E194 = some (.amoF32Reduction 5 14 3 2)
    ∧ decode 0x55C00000 = some (.fenceCore 5)
    ∧ decode 0x55C10000 = some (.fenceCluster 5)
    ∧ decode 0x55C20000 = some (.fenceDie 5)
    ∧ decode 0x55C30000 = some (.fenceModule 5)
    ∧ decode 0x55C40005 = some (.fenceX 5 5)
    ∧ decode 0x5600D600 = some (.kwait 5 6 11)
    ∧ decode 0x5600D646 = some (.ktest 5 6 11 6) := by decide +kernel
theorem test_decode_dome_and_counters_1 :
    decode 0x5600D680 = some (.kget 5 6 11)
    ∧ decode 0x5600D6E5 = some (.kadd 5 6 11 1 5)
    ∧ decode 0x5600D725 = some (.kset 5 6 11 1 5)
    ∧ decode 0x5640C200 = some (.ewait 5 6 1)
    ∧ decode 0x5640C240 = some (.eseq 5 6 1)
    ∧ decode 0x5640D480 = some (.qwait 5 6 10)
    ∧ decode 0x568C0680 = some (.rsr 5 6 52)
    ∧ decode 0x568C0641 = some (.wsr 5 6 50)
    ∧ decode 0x568C0822 = some (.xsr 5 6 65)
    ∧ decode 0x56C00000 = some (.nop 5)
    ∧ decode 0x56C10002 = some (.trap 5 2)
    ∧ decode 0x56C20002 = some (.brk 5 2)
    ∧ decode 0x56C30005 = some (.csync 5 5)
    ∧ decode 0x5700E006 = some (.csendS 5 14 6)
    ∧ decode 0x57120046 = some (.crecvS 5 9 6)
    ∧ decode 0x5700E016 = some (.csendRow 5 14 6) := by decide +kernel
theorem test_decode_dome_and_counters_2 :
    decode 0x5700E056 = some (.crecvRow 5 14 6) := by decide +kernel
theorem test_decode_vector_float_0 :
    decode 0x5812E1D0 = some (.vadd 5 9 14 3 5)
    ∧ decode 0x5812E1D1 = some (.vsub 5 9 14 3 5)
    ∧ decode 0x5812E1D2 = some (.vmul 5 9 14 3 5)
    ∧ decode 0x5812E1D3 = some (.vfma 5 9 14 3 5)
    ∧ decode 0x5812E1D4 = some (.vfms 5 9 14 3 5)
    ∧ decode 0x5812E1D5 = some (.vmin 5 9 14 3 5)
    ∧ decode 0x5812E1D6 = some (.vmax 5 9 14 3 5)
    ∧ decode 0x5812E057 = some (.vabs 5 9 14 5)
    ∧ decode 0x5812E058 = some (.vneg 5 9 14 5)
    ∧ decode 0x5812E059 = some (.vmov 5 9 14 5)
    ∧ decode 0x5812E1DA = some (.vsel 5 9 14 3 5)
    ∧ decode 0x5852E1D0 = some (.viadd 5 9 14 3 5)
    ∧ decode 0x5852E1D1 = some (.visub 5 9 14 3 5)
    ∧ decode 0x5852E1D2 = some (.vimul 5 9 14 3 5)
    ∧ decode 0x5852E1D3 = some (.vimin 5 9 14 3 5)
    ∧ decode 0x5852E1D4 = some (.vimax 5 9 14 3 5) := by decide +kernel
theorem test_decode_vector_float_1 :
    decode 0x5852E1D5 = some (.vand 5 9 14 3 5)
    ∧ decode 0x5852E1D6 = some (.vor 5 9 14 3 5)
    ∧ decode 0x5852E1D7 = some (.vxor 5 9 14 3 5)
    ∧ decode 0x5852E1D8 = some (.vshl 5 9 14 3 5)
    ∧ decode 0x5852E1D9 = some (.vshr 5 9 14 3 5)
    ∧ decode 0x5852E1DA = some (.vsra 5 9 14 3 5) := by decide +kernel
theorem test_decode_vector_other_0 :
    decode 0x5892E050 = some (.vexp2 5 9 14 5)
    ∧ decode 0x5892E051 = some (.vlog2 5 9 14 5)
    ∧ decode 0x5892E052 = some (.vrcp 5 9 14 5)
    ∧ decode 0x5892E053 = some (.vrsqrt 5 9 14 5)
    ∧ decode 0x5892E054 = some (.vsqrt 5 9 14 5)
    ∧ decode 0x5892E055 = some (.vtanh 5 9 14 5)
    ∧ decode 0x5892E056 = some (.vsigm 5 9 14 5)
    ∧ decode 0x58C2E1D5 = some (.vcmp 5 1 14 3 5 5)
    ∧ decode 0x58C2E1D9 = some (.vicmp 5 1 14 3 5 1)
    ∧ decode 0x5900E350 = some (.vsum 5 14 6 5)
    ∧ decode 0x5900E351 = some (.vrmax 5 14 6 5)
    ∧ decode 0x5900E352 = some (.vrmin 5 14 6 5)
    ∧ decode 0x5900E353 = some (.vargmax 5 14 6 5)
    ∧ decode 0x59426180 = some (.mand 5 1 6 3)
    ∧ decode 0x59426181 = some (.mor 5 1 6 3)
    ∧ decode 0x59426182 = some (.mxor 5 1 6 3) := by decide +kernel
theorem test_decode_vector_other_1 :
    decode 0x59426003 = some (.mnot 5 1 6)
    ∧ decode 0x59420004 = some (.mset 5 1)
    ∧ decode 0x59420005 = some (.mclr 5 1)
    ∧ decode 0x59426056 = some (.mfirst 5 1 6 5)
    ∧ decode 0x594C6057 = some (.vany 5 6 6 5)
    ∧ decode 0x594C6058 = some (.vall 5 6 6 5)
    ∧ decode 0x594C6059 = some (.mcnt 5 6 6 5) := by decide +kernel
theorem test_decode_vector_special_0 :
    decode 0x5992E350 = some (.vadds 5 9 14 6 5)
    ∧ decode 0x5992E351 = some (.vsubs 5 9 14 6 5)
    ∧ decode 0x5992E352 = some (.vmuls 5 9 14 6 5)
    ∧ decode 0x5992E353 = some (.vfmas 5 9 14 6 5)
    ∧ decode 0x5992E354 = some (.vmins 5 9 14 6 5)
    ∧ decode 0x5992E355 = some (.vmaxs 5 9 14 6 5)
    ∧ decode 0x59920356 = some (.vbc 5 9 6 5)
    ∧ decode 0x5992E307 = some (.vext 5 9 14 6)
    ∧ decode 0x5992E358 = some (.vrot 5 9 14 6 5)
    ∧ decode 0x5982E359 = some (.vtopk 5 1 14 6 5)
    ∧ decode 0x59D38828 = some (.vpk 5 9 24 8 0 5)
    ∧ decode 0x59D2E8E9 = some (.vupk 5 9 14 8 3 5)
    ∧ decode 0x59D2E02A = some (.vcvi 5 9 14 0 5)
    ∧ decode 0x59D2E02B = some (.vcvf 5 9 14 0 5)
    ∧ decode 0x59D2E02C = some (.vclp 5 9 14 5) := by decide +kernel
theorem test_decode_matrix_0 :
    decode 0x5A0005DC = some (.vwset 5 1500)
    ∧ decode 0x5A010002 = some (.vwin 5 2)
    ∧ decode 0x5A52E1D0 = some (.vperm 5 9 14 3 5)
    ∧ decode 0x5A878CAD = some (.mma 5 1 14 3 0 0 2 1 0 6 1)
    ∧ decode 0x5AC40000 = some (.mzero 5 1 0)
    ∧ decode 0x5B24C000 = some (.dld 5 9 6)
    ∧ decode 0x5B24C040 = some (.dst 5 9 6)
    ∧ decode 0x5B24C092 = some (.dmod 5 9 6 18) := by decide +kernel
theorem test_decode_engines_0 :
    decode 0x5C241606 = some (.cpy 5 9 11 0 6)
    ∧ decode 0x5C00C040 = some (.cht 5 6)
    ∧ decode 0x5C00C080 = some (.chs 5 6)
    ∧ decode 0x5C40C000 = some (.tload 5 6)
    ∧ decode 0x5C640046 = some (.tbind 5 9 6)
    ∧ decode 0x5C400080 = some (.tgo 5)
    ∧ decode 0x5C4000C0 = some (.tbar 5)
    ∧ decode 0x5C80C000 = some (.kvres 5 6)
    ∧ decode 0x5C80C040 = some (.kvapp 5 6)
    ∧ decode 0x5C80C080 = some (.kvret 5 6)
    ∧ decode 0x5C80C0C0 = some (.kvfork 5 6)
    ∧ decode 0x5C80C100 = some (.kvsel 5 6)
    ∧ decode 0x5C80C140 = some (.kvgat 5 6)
    ∧ decode 0x5CC0C000 = some (.dattn 5 6)
    ∧ decode 0x5CC0C001 = some (.dattnRot 5 6)
    ∧ decode 0x5CC0C040 = some (.dbnd 5 6) := by decide +kernel
theorem test_decode_engines_1 :
    decode 0x5CC0C080 = some (.dsum 5 6)
    ∧ decode 0x5D00C000 = some (.segw 5 6)
    ∧ decode 0x5D00C040 = some (.segk 5 6)
    ∧ decode 0x5D00C080 = some (.segr 5 6)
    ∧ decode 0x5D24C0C0 = some (.segi 5 9 6)
    ∧ decode 0x5D00C100 = some (.segt 5 6)
    ∧ decode 0x5D40C000 = some (.tcenc 5 6)
    ∧ decode 0x5D80C000 = some (.iorq 5 6)
    ∧ decode 0x5D80C040 = some (.iocan 5 6) := by decide +kernel
/-- Words that the spec's worked cases print, beside those of WorkedWordsDecode. -/
theorem test_decode_worked :
    decode 0x054E5096 = some (.gst 0 7 5 1 3) ∧ decode 0x05805304 = some (.amoF32Reduction 0 5 6 0)
    ∧ decode 0x058E5379 = some (.amoCas 0 7 5 6 1) ∧ decode 0x0600D2C0 = some (.kadd 0 6 9 0 0)
    ∧ decode 0x0640A200 = some (.ewait 0 5 1) ∧ decode 0x070E0041 = some (.crecvS 0 7 1) ∧ decode 0x09F88200 = some (.vpk 0 28 8 2 0 0) := by
  decide +kernel
/-- Words that are none: major 0, a reserved guard, a reserved field. -/
theorem test_decode_refuses : decode 0xFFFFFFFF = none ∧ decode 0x80400000 = none := by decide +kernel

/-! ## States for the tests -/

/-- A machine whose core 0 runs a record and may issue on its A stream. -/
def readyA : State := (State.reset.withFetchWord 32 0).withCur ⟨0, .a⟩
/-- The same for the X stream. -/
def readyX : State := (State.reset.withFetchWord 32 0x08000000).withCur ⟨0, .x⟩
/-- s with a register of its A sequencer set. -/
def withS (r : Nat) (v : Word) (s : State) : State := s.onSeq ⟨0, .a⟩ (fun q => { q with regs := tabPut r v q.regs })
/-- s ten cycles later. -/
def later10 (s : State) : State := s.onCluster 0 (fun c => { c with ccyc := 10 })
/-- s with KEYC of die 0 at n. -/
def atKeyc (n : Nat) (s : State) : State := s.onDie 0 (fun d => { d with keyc := n })
/-- s with dies taken out of service. -/
def excl (l : List Nat) (s : State) : State := { s with m := { s.m with excluded := l, ringOrder := s.m.ringOrder.filter (fun g => !l.contains g) } }
/-- The record that readyA runs. -/
def recA : Rec :=
  { launch := 0, index := 0, raw := BitVec.ofNat 512 (2 ^ 428 + 2 ^ 352 * 2 + 2 ^ 320), core := 0, state := .running,
    deadline := 2 ^ 64 - 1, batch := none, tag := 0, turn := 0, trip := 2, iters := 0, fresh := true, late := false,
    cond := none, ioDone := 0, cancel := false, faulted := false }
/-- A descriptor: space, format, base, two sizes and the stride of the second. -/
def dsc (space fmt base s0 s1 st1 : Nat) : Rec512 :=
  BitVec.ofNat 512 (space + fmt * 2 ^ 16 + base * 2 ^ 64 + s0 * 2 ^ 128 + s1 * 2 ^ 144 + 2 ^ 160 + 2 ^ 176 + 2 ^ 192
    + st1 * 2 ^ 224)
/-- readyA with operands for an mma in d2 to d4, for a copy in d5 and d6, and a Dome descriptor in d7. -/
def readyMma : State :=
  readyA.onCore 0 (fun k => { k with desc := [(2, dsc 0 1 131072 64 4 64), (3, dsc 0 1 0 64 2 64), (4, dsc 2 8 0 4 2 256),
    (5, dsc 0 1 4096 16 1 0), (6, dsc 0 1 8192 16 1 0), (7, dsc 3 1 0 16 1 0)] })
def mmaOk : List Word × List Rec512 :=
  ([1, 1, 0, 1, 1], [dsc 2 8 0 4 2 256, dsc 0 1 0 64 2 64, dsc 0 1 131072 64 4 64, 0, 0, 0, 0, 0, 0])
def cpyOk : List Word × List Rec512 := ([1, 1, 0, 0], [dsc 0 1 4096 16 1 0, dsc 0 1 8192 16 1 0, 0, 0])
def tbindOk : List Word × List Rec512 := ([0], [dsc 0 1 4096 16 1 0, 0, 1])
def encPrm : Rec512 := BitVec.ofNat 512 (0x3000 * 2 ^ 448 + 2 ^ 272 + 2 ^ 248 + 2 ^ 242)
/-- Descriptors with a fault each: of the core store; with a record pointer that is unaligned, past the store, to a record with a
reserved bit; TWC with no record, with a stride; of the accumulators; of the Dome with the record of the fourth. -/
def badRecords : State :=
  readyA.onCore 0 (fun k => { k with
    desc := [(1, dsc 0 1 0 16 1 0), (2, dsc 3 1 0 16 1 0 + BitVec.ofNat 512 (2 ^ 384)), (3, dsc 3 1 0 16 1 0 + BitVec.ofNat 512 (2 ^ (384 + 21))),
      (4, dsc 3 1 0 16 1 0 + BitVec.ofNat 512 (64 * 2 ^ 384)), (5, dsc 3 0x11 0 64 1 0),
      (6, BitVec.ofNat 512 (3 + 0x11 * 2 ^ 16 + 128 * 2 ^ 384 + 2 ^ 288)), (7, dsc 2 1 0 16 1 0), (8, dsc 3 1 0 16 1 0 + BitVec.ofNat 512 (64 * 2 ^ 384))],
    store := writeNat (writeNat [] 64 64 1) 128 64 encPrm.toNat })
/-- A command as a queue holds it, and a job of it. -/
def cmdOf (i : Instr) (vals : List Word) (descs : List Rec512) : Cmd :=
  { tag := 1, ins := i, vals := vals, descs := descs, bfmt := [], stamp := 0, ofRec := 0, at_ := 0 }
def jobOf (e : Nat) (x : Cmd) (aux : List Word) : Job :=
  { id := 0, eng := e, cmd := x, st := .running, entry := 0, start := 0, release := 0, released := false, done := 0, aux := aux }
/-- readyMma, ten cycles on, with a command queued at an engine. -/
def queued (e : Nat) (x : Cmd) : State := (later10 readyMma).onCore 0 (fun k => k.setEngQueue e [x])
/-- The same with a job taken. -/
def withJob (j : Job) : State := (later10 readyMma).onCore 0 (fun k => { k with jobs := [j], nextJob := 1 })
/-- s with one leaf: page 0 of die 0, readable and writable, at physical page 0. -/
def tlbLeaf : Word := 0xB000000000000080
def mapped (s : State) : State := s.onDie 0 (fun d => { d with tlb := [(0, tlbLeaf)] })
def ioJob : Job := jobOf 7 { cmdOf (.iorq 0 1) [0] [0] with tag := 0 } [1]
def readyIo : State := readyA.onCore 0 (fun k => { k with jobs := [ioJob] })
/-- A message to core 0 that arrives in this cycle. -/
def msgA (row : Bool) : CMsg := ⟨1, 0, 0, row, 7, false⟩
def withMsg (x : CMsg) (s : State) : State := s.onCluster 0 (fun c => { c with msgs := [x] })
/-- Every link of a die trained: latency 1, the far range 1 to 2, no lane replaced. -/
def links : Tab LinkInfo := [0, 1, 2, 3, 4].map (fun l => (l, ⟨1, 1, 2, 0⟩))
/-- Every die initialised; every link trained or tried; the spokes of dies 0 and 4 up. -/
def bootB : State := { State.reset with rom := { Rom.init with sram := List.range 16 } }
def bootC : State :=
  ((List.range 16).foldl (fun (s : State) g => s.onDie g (fun d => { d with links := links })) bootB).onDie 0
    (fun d => { d.setReg 0x0100 0x10000 with links := links })
def bootD : State := { bootC with rom := { bootC.rom with images := [(0, [1, 2])] } }
def spokeA : State := (readyA.onDie 0 (·.setReg 0x0100 0x10000)).onDie 4 (·.setReg 0x0100 0x10000)
def timerA : State := atKeyc 65536 { readyA with m := { readyA.m with lead := { readyA.m.lead with unsignalled := 1 } } }
/-- A fault record that allows every action, and states that hold it or have it open. -/
def faultA : FaultRec :=
  { raw := BitVec.ofNat 512 (15 * 2 ^ 136 + 1), die := 0, ofRec := some 0, core := 0, eng := none, job := none, page := 0, raised := 0 }
def faultSt : State := (readyA.onDie 0 (fun d => { d with heldFaults := [faultA] })).onDie 0 (·.setReg 0x0A08 0x80000004)
def openSt : State := (readyA.setRecord 1 { recA with core := 1, state := .ready }).onDie 0 (fun d => { d with openFaults := [faultA] })
/-- The same record with another code, and a state that has it open. -/
def faultOf (code : Nat) : FaultRec := { faultA with raw := BitVec.ofNat 512 (15 * 2 ^ 136 + code) }
def openFor (code : Nat) : State := openSt.onDie 0 (fun d => { d with openFaults := [faultOf code] })
def due (t : Target) : State := readyA.onCore 0 (fun k => { k with pend := [⟨0, t, 7⟩] })
def frozenBy (f : Freeze) (s : State) : State := s.onCluster 0 (fun c => { c with causes := [f] })
def waits (w : WaitCond) (s : State) : State := s.onSeq ⟨0, .a⟩ (fun q => { q with wait := some w })
def replyA : Reply := ⟨5, 0, 0, 3, []⟩
/-- A reply entry whose contract has run out. -/
def lateSt : State := readyA.onCore 0 (·.push .reply ⟨0, .awaiting 0 5⟩)
def replySt : State := { lateSt with m := { lateSt.m with replies := [replyA] } }
def dogSt : State := (frozenBy ⟨4, 0, none, some 5, 0⟩ lateSt).onCluster 0 (fun c => { c with frozenFor := 65537 })
/-- A write of core 0 to die 1 under a clock. -/
def reqA (at_ : ReqAt) (clock : Tab Nat) : Req :=
  { id := 5, src := 0, owner := 1, core := 0, ofRec := some 0, op := .write 4, va := 0, data := 0, cmp := 0, clock := clock, at_ := at_ }
def withReq (r : Req) (s : State) : State := { s with m := { s.m with reqs := [r] } }
def reqB : Req := { reqA .sent [] with src := 1 }
/-- readyA with the way from die 0 over die 2 to die 1, from die 1 to die 0, and over die 3 to die 2. -/
def linked : State :=
  (((readyA.onDie 0 (·.setReg 0x0100 0x1000)).onDie 1 (·.setReg 0x0100 0x1200)).onDie 2 (·.setReg 0x0100 0x200)).onDie 3 (·.setReg 0x0100 0x200)
def clockSt : State := readyA.onDie 1 (fun d => { d with vc := [(1, 1)] })
def beaconSt : State := { linked with m := { linked.m with beacons := [⟨1, 0, 1⟩] } }
def sideA : SideEntry := ⟨0, 5, true, false, 0⟩
def reqS : Req := { reqA .logged [] with owner := 0 }
def sideSt : State := (withReq reqS (mapped readyA)).onCore 0 (fun k => { k with sideLog := [sideA] })
/-- The same write in the side log, for die 1. -/
def farSide : State := (withReq (reqA .logged []) linked).onCore 0 (fun k => { k with sideLog := [sideA] })
def idle (r : Rec) : State := (readyA.setRecord 0 r).onCore 0 (fun k => { k with running := none })
def retireSt : State :=
  (readyA.onSeq ⟨0, .a⟩ (fun q => { q with ended := some .retired })).onSeq ⟨0, .x⟩ (fun q => { q with ended := some .retired })
def saveSt (cancel : Bool) : State :=
  (atKeyc 100 (mapped (readyA.setRecord 0 { recA with cancel := cancel }))).onCore 0 (fun k => { k with saving := some 0 })
def limitSt : State := (atKeyc (2 ^ 20 + 1) readyA).onCore 0 (fun k => { k with preempt := some 0 })
def waitRec : Rec := { recA with state := .waiting, cond := some (.counter 2 0) }
def instA : Inst :=
  { tag := 0, turn := 0, first := 0, beats := 2, written := 2, sent := 1, headerAt := 0, pcrc := 0, good := true, reinj := false,
    dropped := false, batches := 0, kept := [0] }
def ringOn (f : Ring → Ring) (s : State) : State := s.onDie 0 (·.onRing f)
def tileSt : State := ringOn (fun r => { r with insts := [instA] }) (readyA.onDie 0 (·.setReg 0x0700 0))
/-- Die 0 with a beat slot due: one cycle a slot, CAP 32 beats, DWELL 5. -/
def slotSt : State := (readyA.onDie 0 (·.setReg 0x0200 0x4000)).onDie 0 (·.setReg 0x0210 0x1000005)
/-- The same with five unsent beats. -/
def fullSt : State := ringOn (fun r => { r with written := 5 }) slotSt
def insA (far : Bool) : Insertion :=
  { tag := 0, turn := 0, beats := 1, fmt := 0, va := 0, staged := 0, sent := 0, far := far, byCore := none, first := true }
def beatA (kind : Nat) : Beat := ⟨kind, 1, 0, 1, false⟩
def arriving (kind : Nat) : State := ringOn (fun r => { r with link := [(0, beatA kind)] }) slotSt
def segkCmd : Cmd := cmdOf (.segk 0 1) [0] []
def segrCmd : Cmd := cmdOf (.segr 0 1) [0] []
def segiCmd : Cmd := cmdOf (.segi 0 7 1) [0] [dsc 3 1 0 16 1 0]
/-- A pier that holds instA, with a command queued at the Viaduct engine. -/
def segSt (x : Cmd) : State := ringOn (fun r => { r with insts := [instA] }) (queued 6 x)
/-- s with one unit, region or core of die 0 secure, by its bit of the image header. -/
def worlds (n : Nat) (s : State) : State := { s with rom := { s.rom with header := [(0, BitVec.ofNat 512 (2 ^ n))] } }
def segiJob : Job := jobOf 6 (cmdOf (.segi 0 7 1) [0] [0]) [1]
def heartSt : State := atKeyc (2 ^ 20) { readyA with rom := { readyA.rom with up := [0] } }
def inRing (l : List Nat) (s : State) : State := { s with m := { s.m with ringOrder := l } }
/-- A ring in RE-INJECTION at die 0, whose segment 0 of 2 KiB has its home there. -/
def segiSt : State :=
  inRing [0] ((ringOn (fun r => { r with segtPa := 1024 }) (mapped (queued 6 segiCmd))).onDie 0
    (fun d => { d.setReg 0x0208 0x5000 with dome := [(1037, 8)] }))
def quietSt : State := inRing (List.range 16) (readyA.onDie 1 (fun d => { d with keyc := 2 ^ 25 }))
def failSt : State :=
  ({ inRing (List.range 16) readyA with m := { (inRing (List.range 16) readyA).m with failing := [3] } }).setRingState 1
/-- The same with the chord past die 3 trained. -/
def chorded : State := (failSt.onDie 2 (·.setReg 0x0100 0x1000)).onDie 4 (·.setReg 0x0100 0x2000)
/-- A control beat back at the origin of a ring that RING_CONFIG forms, of this module alone or of several. -/
def homeSt (many : Bool) (t : Token) : State :=
  let s := inRing [0] (readyA.onDie 0 (fun d => (d.setReg 0x0200 (if many then 0xC00 else 0x800)).onRing (fun r => { r with tokens := [(0, t)] })))
  { s with m := { s.m with lead := { s.m.lead with
      config := some ({ queue := 3, packet := 0, order := 0, super := false }, ⟨1, 0, [0], [0], 0, 0, 0, 0⟩) } } }
/-- Boot past its last token, with every bridge port tried. -/
def bootE : State :=
  let s := (bootC.onDie 0 (fun d => { d with links := [0, 1, 2, 3, 4, 5, 6, 7, 8].map (fun l => (l, ⟨1, 1, 2, 0⟩)) })).onDie 15
    (fun d => { d with links := [0, 1, 2, 3, 5, 6, 7, 8].map (fun l => (l, ⟨1, 1, 2, 0⟩)) })
  { s with rom := { s.rom with up := List.range 16 }, m := { s.m with bootStep := 9 } }
def tokenSt (g : Nat) (t : Token) : State := readyA.onDie g (·.onRing (fun r => { r with tokens := [(0, t)] }))
/-- The mma of readyMma with its A operand in core 1. -/
def farMma : Cmd := cmdOf (.mma 0 4 3 2 0 0 0 0 0 0 0) [1, 1, 0, 2, 1] mmaOk.2
def mzCmd : Cmd := cmdOf (.mzero 0 4 0) [] [dsc 2 8 0 4 2 256]
def mzStamped (n : Word) : Cmd := { cmdOf (.mzero 0 4 1) [] [dsc 2 8 0 4 2 256] with stamp := n }
def mzJob : Job := { jobOf 1 mzCmd [] with released := true }
def chtCmd : Cmd := cmdOf (.cht 0 1) [0] []
def cpyCmd : Cmd := cmdOf (.cpy 0 5 6 0 0) cpyOk.1 cpyOk.2
/-- Copies out of an unmapped page, of a stated format and of the page's. -/
def domeCpy : Cmd := cmdOf (.cpy 0 5 6 0 0) [1, 1, 0] [dsc 0 1 8192 16 1 0, dsc 3 1 0 16 1 0, 0, 0]
def openCpy : Cmd := cmdOf (.cpy 0 5 6 0 0) [1, BitVec.ofNat 64 fmtOpen, 0] [dsc 0 1 8192 16 1 0, dsc 3 0xFF 0 16 1 0, 0, 0]
/-- A copy out of core 1. -/
def farCpy : Cmd := cmdOf (.cpy 0 5 6 0 0) [1, 1, 0, 0] [dsc 0 1 4096 16 1 0, dsc (1 + 256) 1 8192 16 1 0, 0, 0]
/-- A copy of 16 bytes that are all written, and a chain entry of no bytes. -/
def cpyJob : Job := { jobOf 0 cpyCmd [32] with descs := cpyOk.2, vals := [1, 1, 0] }
def chtJob : Job := jobOf 0 chtCmd [0, 0, 1]
/-- s with the footprints of n copies on the first accumulator rows. -/
def withFps (n : Nat) (s : State) : State :=
  s.onCore 0 (fun k => { k with fps := (List.range n).map (fun i => ⟨.copy 0, i, ⟨true, 0, 7, true⟩, 0, none⟩) })
def tgoJob : Job := jobOf 3 (cmdOf (.tgo 0) [] []) []
def tgoSt : State := (withJob tgoJob).onCluster 0 (fun c => { c with trussQ := [0] })
def kvCmd : Cmd := cmdOf (.kvres 0 1) [0x1000] []
def ctxA : KCtx := { root := 0x400, sumBase := 0, freq := 0, nlayer := 1, ptcap := 1, hkv := 1, kfmt := 9, hdc := 0, rot := 0, pack := false }
/-- Its context record, with any root. -/
def ctxRec (root : Nat) : Rec512 := BitVec.ofNat 512 (root * 2 ^ 448 + 2 ^ 304 + 2 ^ 288 + 2 ^ 280 + 9 * 2 ^ 272)
def kvJob : Job := { jobOf 5 kvCmd [] with descs := [ctxRec 0x400] }
/-- A Dome with a context record at 0, an empty root at 0x400 and one free node, 0xC00, in the stack at 0x800. -/
def kvSt (j : Job) : State :=
  (mapped (withJob j)).onDie 0 (fun d =>
    { ((d.setReg 0x0920 0x0006010000000001).setReg 0x0910 0x800).setReg 0x0918 0x0000000100000001 with
      dome := [(34, 9), (35, 1), (36, 1), (38, 1), (57, 4), (2049, 12)] })
def dsumCmd : Cmd := cmdOf (.dsum 0 1) [0] []
/-- A dsum of one part of one head, all zero, to 0x400. -/
def dsumJob : Job := { jobOf 4 dsumCmd [] with entry := BitVec.ofNat 512 (2 ^ 384 + 2 ^ 256 + 0x400 * 2 ^ 320) }
/-- decSt: the same machine with dsumJob's block in the core store and its command queued. -/
def decSt : State :=
  (kvSt kvJob).onCore 0 (fun k => ({ k with jobs := [], store := writeNat [] 0 64 dsumJob.entry.toNat }).setEngQueue 4 [dsumCmd])
/-- A job record for one block of 64 weights of one bit, its parameter record, and what its search depends on. -/
def encRec : Rec512 :=
  BitVec.ofNat 512 (0x1000 * 2 ^ 448 + 0x2000 * 2 ^ 384 + 0x10000 * 2 ^ 320 + 0x400 * 2 ^ 256 + 2 ^ 224 + 2 * 2 ^ 220)
def encSearched : ESearch :=
  { prm := encPrm, tab := List.replicate 256 0, pl := 2, targets := List.replicate 64 0, scales := [0, 0] }
def mappedBig (s : State) : State := s.onDie 0 (fun d => { d with tlb := [(0, 0xB0000000000000C0)] })
def encCmd : Cmd := cmdOf (.tcenc 0 1) [0] []
def encSt : State :=
  (mappedBig (queued 2 encCmd)).onDie 0 (fun d =>
    { d with encQ := [0], dome := writeNat (writeNat [] 0 64 encRec.toNat) 1024 64 encPrm.toNat })
def encJob : Job := { jobOf 2 { encCmd with descs := [encPrm, 0, 0, 0, 0] } [0] with entry := encRec }
def ioCmd : Cmd := cmdOf (.iorq 0 1) [0] [0]
def ioCancelled : Cmd := cmdOf (.iorq 0 1) [0, 1] [0]
def pollSt : State := atKeyc 64 (readyIo.onDie 0 (·.setReg 0x0B10 1))
def iocanJob : Job := jobOf 7 (cmdOf (.iocan 0 1) [0] []) [2]
def iorqJob : Job := jobOf 7 ioCmd [2, 4, 0]
/-- readyA with core 1 of its cluster secure. -/
def peerSecure : State := worlds 321 readyA
/-- A packet of each OPC with operands in their limits. -/
def packetA (opc : Nat) : Rec512 :=
  BitVec.ofNat 512 (2 ^ 56 + opc * 2 ^ 48 +
    (match opc with
    | 1 => 0xB000000000000080 * 2 ^ 192 + 2 ^ 256
    | 2 => 2 ^ 256
    | 5 => 64 * 2 ^ 192
    | 10 => 9 * 2 ^ 208
    | _ => 0))
/-- An image with one slot on logical die 0, and readyA's launch non-secure with it. -/
def slotImage : Image := { bytes := [(6, 1), (64, 8), (80, 96), (96, 1)], len := 160, secure := false, binding := [] }
def openLaunch : State :=
  let s := match readyA.launch? 0 with | some l => readyA.setLaunch 0 { l with secure := false } | none => readyA
  { s with m := { s.m with lead := { s.m.lead with images := [(0, slotImage)] } } }
/-- An image with two slots on logical die 0 and one record of tag 0, whose batches take one slot. -/
def tagImage : Image :=
  { bytes := [(6, 3), (64, 8), (80, 160), (88, 8), (96, 7), (112, 168), (120, 16), (128, 5), (144, 184), (152, 64), (160, 2), (168, 1), (170, 1)],
    len := 248, secure := false, binding := [] }
/-- openLaunch with an image, a segment of tag 0 to be dispatched on die 0, and slots filled for it. -/
def batchSt (i : Image) (l : List Nat) : State :=
  let s := ringOn (fun r => { r with insts := [instA] }) (openLaunch.onDie 0 (·.setReg 0x0700 1))
  { s with m := { s.m with lead := { s.m.lead with images := [(0, i)] }, slots := l.map (fun n => (slotKey 0 0 n, ⟨0, false, false, 1, 0, none⟩)) } }
def launchA : Launch := (openLaunch.launch? 0).getD (Launch.mk 0 0 0 0 [] 0 0 false 0 false false [] false none [] none false false [])
/-- The records of tag 0, its candidates, its batch limit and the retention deadline, in such a state. -/
def dispatchOf (s : State) : List (Nat × Rec512 × Nat) × List Nat × Nat × Nat :=
  (s.localRecs launchA 0 0, (List.range (s.slotCount launchA 0)).filter (fun n =>
    (s.slot 0 0 n).stage = 0 && ((s.slot 0 0 n).state = 1 || (s.slot 0 0 n).state = 2) && !(s.heldSlots 0 0).contains n
      && (s.slot 0 0 n).skip != some (0, 0)), tvBlim (tagImage.tagVec 0), (s.die 0).retDeadline instA)
/-- Queue 3 with a packet at its head, and room in the completion queue. -/
def queueSt (opc : Nat) : State :=
  let s := { openLaunch with m := { openLaunch.m with host := writeNat [] 0 64 (packetA opc).toNat } }
  ((((s.setQreg 0x0608 0x80000004).setQreg 0x0628 1).setQreg 0x0620 0x0101).setQreg 0x0438 0x40000004).setQreg 0x0518 1
def busyA : Busy := { queue := 3, packet := packetA 11, order := 0, super := false }
/-- A command that waits for command 7 of queue 0. -/
def busyB : Busy :=
  { queue := 3, packet := packetA 11 ||| BitVec.ofNat 512 (2 ^ 127 + 7 * 2 ^ 64), order := 1, super := false, dep := some (0, none) }
def waitingOn (b : Busy) : State := { readyA with m := { readyA.m with lead := { readyA.m.lead with waiting := [b] } } }
def cancelSt : State := waitingOn { busyB with dep := some (0, some 3) }
/-- A result that is an answer has a value. -/
theorem ok_of {ε α : Type} {x : Except ε α} (h : x.toOption.isSome = true) : ∃ a, x = .ok a := by
  cases x with
  | ok a => exact ⟨a, rfl⟩
  | error _ => exact absurd h (by simp [Except.toOption])
/-- The beat that segw asks for is present: the locator entry of tag 0 says so. -/
def withLoc : State :=
  ringOn (fun r => { r with segtPa := 64 }) (readyA.onDie 0 (fun d => { d with dome := [(0, 2), (77, 16)] }))
theorem ok_eq {ε α : Type} {x : Except ε α} {a : α} (h : x.toOption = some a) : x = .ok a := by
  cases x with
  | ok b => simp [Except.toOption] at h; rw [h]
  | error _ => simp [Except.toOption] at h
/-- The error of a result. -/
def errorOf {ε α : Type} (x : Except ε α) : Option ε := match x with | .error e => some e | .ok _ => none
theorem error_eq {ε α : Type} {x : Except ε α} {e : ε} (h : errorOf x = some e) : x = .error e := by
  cases x with
  | ok b => simp [errorOf] at h
  | error _ => simp [errorOf] at h; rw [h]
/-- queueSt with any packet. -/
def queueOf (p : Rec512) : State :=
  { queueSt 11 with m := { (queueSt 11).m with host := writeNat [] 0 64 p.toNat } }
/-- The command of a packet taken second. -/
def busyOf (opc : Nat) : Busy := { queue := 3, packet := packetA opc, order := 1, super := false }
/-- An image of one logical core, and readyA with it. -/
def oneImage : Image := { bytes := [(8, 1)], len := 64, secure := false, binding := [] }
def bindSt : State := { readyA with m := { readyA.m with lead := { readyA.m.lead with images := [(0, oneImage)] } } }
def busyPin : Busy := { queue := 3, packet := packetA 1, order := 0, super := false }
/-- readyA about to issue ldi s4, #100. -/
def issuing : State := State.reset.withFetchWord 32 0x02080064
/-- readyA with the program counter past the core store. -/
def beyond : State := readyA.onSeq ⟨0, .a⟩ (fun q => { q with pc := 0x200000 })
/-- A sequencer at the last word of a loop, level 0 with the count a, level 1 with b. -/
def loopQ (a b : Word) (act : Bool) : Seq :=
  { Seq.init with pc := 32, l0 := ⟨a, 16, 32, true⟩, l1 := ⟨b, 8, 32, act⟩ }
def withLeaf (l : Word) : State := readyA.onDie 0 (fun d => { d with tlb := [(0, l)] })
/-- Whether a step answers a next state. -/
def isNext {σ φ ρ : Type} (x : Host.Outcome σ φ ρ) : Bool := match x with | .next _ => true | _ => false
theorem next_of {σ φ ρ : Type} {x : Host.Outcome σ φ ρ} (h : isNext x = true) : ∃ t, x = .next t := by
  cases x with
  | next t => exact ⟨t, rfl⟩
  | fault _ => simp [isNext] at h
  | refused _ => simp [isNext] at h
theorem wait_readyA (r : SeqId) : ((readyA.popped {}).seq r).wait = none := by
  obtain ⟨c, sd⟩ := r
  by_cases h : c = 0
  · subst h; cases sd <;> decide +kernel
  · have : (readyA.popped {}).core c = Core.init := by
      show tabGet Core.init c [(0, _)] = _
      simp [tabGet, Ne.symm h]
    cases sd <;> simp [State.seq, this, Core.seq, Core.init, Seq.init]
/-- A leaf of 64 KiB or of 2 MiB at physical page 0, and its size. -/
def leafOf (big : Bool) : Word := if big then 0xB0000000000000C0 else tlbLeaf
def sizeOf (big : Bool) : Nat := if big then 2 ^ 21 else 2 ^ 16
/-- Page 0 of die 0 is mapped by such a leaf and open to a non-secure unit. -/
structure Open0 (big : Bool) (s : State) : Prop where
  excluded : s.m.excluded = []
  tlb : (s.die 0).tlb = [(0, leafOf big)]
  rdie : (s.die 0).rdie = 0
  bad : (s.die 0).bad = []
  header : s.rom.header = []
  gl16 : s.rom.variant = .gl16
theorem localDie_open {b : Bool} {s : State} (h : Open0 b s) : s.localDie 0 = some 0 := by
  simp [State.localDie, h.gl16, Variant.ndie, findFrom, h.rdie]
theorem leaf_open {b : Bool} {s : State} (h : Open0 b s) {va : Nat} (hv : va < sizeOf b) :
    (s.die 0).leaf va = some (leafOf b) ∧ physOf (leafOf b) va = va := by
  cases b
  · have hv : va < 65536 := hv
    have k : va / 2 ^ 16 = 0 := by omega
    constructor
    · have g : (lV (tabGet (0 : Word) 0 [(0, leafOf false)]) && !lG (tabGet (0 : Word) 0 [(0, leafOf false)])) = true := by decide
      unfold Die.leaf; rw [h.tlb, k]; simp only [g, if_true]; rfl
    · have l : lG (leafOf false) = false ∧ lLay (leafOf false) = 0 ∧ lPpn (leafOf false) = 0 := by decide
      simp [physOf, l]; omega
  · simp only [sizeOf, if_true] at hv
    have k : va / 2 ^ 21 * 32 = 0 := by omega
    constructor
    · unfold Die.leaf
      rw [h.tlb, k]
      have g : (lV (tabGet (0 : Word) (va / 2 ^ 16) [(0, leafOf true)]) && !lG (tabGet (0 : Word) (va / 2 ^ 16) [(0, leafOf true)])) = false := by
        by_cases z : va / 2 ^ 16 = 0
        · rw [z]; decide
        · have e : tabGet (0 : Word) (va / 2 ^ 16) [(0, leafOf true)] = 0 := by
            have z' : ¬(0 = va / 65536) := fun h => z h.symm
            simp [tabGet, z']
          rw [e]; decide
      simp only [g]; rfl
    · have l : lG (leafOf true) = true ∧ lLay (leafOf true) = 0 ∧ lPpn (leafOf true) = 0 := by decide
      simp [physOf, l]; omega
theorem locate_open {b : Bool} {s : State} (h : Open0 b s) (rd wr : Bool) {va : Nat} (hv : va < sizeOf b) :
    s.locate 0 false rd wr va = .ok (.dome 0 va, leafOf b) := by
  have lim : va < 2 ^ 21 := by cases b <;> simp only [sizeOf] at hv <;> simp at hv ⊢ <;> omega
  have e : (BitVec.ofNat 64 va).toNat = va := by simp; omega
  have b1 : bits (BitVec.ofNat 64 va) 63 62 = 0 := by simp only [bits, e]; omega
  have b2 : bits (BitVec.ofNat 64 va) 61 52 = 0 := by simp only [bits, e]; omega
  obtain ⟨l3, l4, l5, l6⟩ : lS (leafOf b) = false ∧ lR (leafOf b) = true ∧ lW (leafOf b) = true ∧ lA (leafOf b) = false := by
    cases b <;> decide
  obtain ⟨lf, hp⟩ := leaf_open h hv
  have hh : s.holder 0 (leafOf b) = 0 := by simp [State.holder, l6]
  have oc : s.ownerCheck 0 0 false rd wr false va = .ok (leafOf b) := by
    simp [State.ownerCheck, lf, l3, l4, l5, hh, Rom.secureGranule, h.header, tabGet]
  have ec : (s.die 0).eccAt 0 va = none := by simp [Die.eccAt, h.bad]
  simp [State.locate, b1, b2, localDie_open h, h.excluded, oc, hh, hp, ec]
theorem readVa_open {b : Bool} {s : State} (h : Open0 b s) :
    ∀ n va, va + n ≤ sizeOf b → ∃ l, s.readVa 0 false va n = .ok l
  | 0, _, _ => ⟨[], rfl⟩
  | n + 1, va, hn => by
    obtain ⟨l, e⟩ := readVa_open h n (va + 1) (by omega)
    exact ⟨_, by rw [State.readVa, locate_open h true false (by omega)]; simp only [e]; rfl⟩
theorem writeVa_open {b : Bool} : ∀ (l : List Byte) (s : State) (va : Nat), Open0 b s → va + l.length ≤ sizeOf b →
    ∃ t, s.writeVa 0 false va l = .ok t ∧ Open0 b t
  | [], s, _, h, _ => ⟨s, rfl, h⟩
  | x :: r, s, va, h, hn => by
    simp only [List.length_cons] at hn
    have h' : Open0 b (s.putByte (.dome 0 va) x) := by
      constructor <;> simp [State.putByte, Die.putBytes, heal, h.excluded, h.tlb, h.rdie, h.bad, h.header, h.gl16]
    obtain ⟨t, e, o⟩ := writeVa_open r _ (va + 1) h' (by omega)
    exact ⟨t, by rw [State.writeVa, locate_open h false true (by omega)]; exact e, o⟩
theorem sizeOf_le (b : Bool) : sizeOf b ≤ 2 ^ 21 := by cases b <;> decide
theorem readDome_at {b : Bool} {s : State} (h : Open0 b s) {g va n : Nat} {sec : Bool} (hg : g = 0) (hs : sec = false)
    (hn : va + n ≤ sizeOf b) : ∃ l, s.readDome g sec va n = .ok l := by
  subst hg hs
  obtain ⟨l, e⟩ := readVa_open h n va hn
  have := sizeOf_le b
  exact ⟨l, by rw [State.readDome, if_neg (by simp; omega), e]⟩
theorem writeDome_open {b : Bool} {s : State} (h : Open0 b s) {g va : Nat} {sec : Bool} {l : List Byte} (hg : g = 0) (hs : sec = false)
    (hn : va + l.length ≤ sizeOf b) : ∃ t, s.writeDome g sec va l = .ok t ∧ Open0 b t := by
  subst hg hs
  obtain ⟨t, e, o⟩ := writeVa_open l s va h hn
  have := sizeOf_le b
  exact ⟨t, by rw [State.writeDome, if_neg (by simp; omega), e], o⟩
theorem writeDome_at {b : Bool} {s : State} (h : Open0 b s) {g va : Nat} {sec : Bool} {l : List Byte} (hg : g = 0) (hs : sec = false)
    (hn : va + l.length ≤ sizeOf b) : ∃ t, s.writeDome g sec va l = .ok t :=
  (writeDome_open h hg hs hn).imp (fun _ x => x.1)
theorem length_kib {α : Type} (n : Nat) : ∀ (f : Nat) (l : List α), (kib n f l).length ≤ f
  | 0, _ => by simp [kib]
  | f + 1, l => by
    unfold kib; split
    · simp
    · have := length_kib n f (l.drop n); simp; omega
theorem length_encode (e : ESearch) : (bytesOfBits e.encode).length ≤ blockBits e.prm := by
  unfold bytesOfBits
  have h := length_kib 8 e.encode.length e.encode
  have k : e.encode.length ≤ blockBits e.prm := by unfold ESearch.encode; simp only [List.length_take]; omega
  simp only [List.length_map]; omega
/-- The encoder's writes of encSearched go through. -/
theorem encoder_writes : ∃ t1 t2,
    (mappedBig (withJob encJob)).writeDome 0 ((mappedBig (withJob encJob)).encSecure 0) (ejobOf encJob.entry).scr
        ((List.range (blockBits encSearched.prm * 4096)).map
          (fun i => (Config.freeBits ((mappedBig (withJob encJob)).m.free + i)).truncate 8)) = .ok t1
      ∧ t1.writeDome 0 ((mappedBig (withJob encJob)).encSecure 0)
          ((ejobOf encJob.entry).out + (encJob.aux.headD 0).toNat * twcBlock encSearched.prm) (bytesOfBits encSearched.encode) = .ok t2 := by
  have sec : (mappedBig (withJob encJob)).encSecure 0 = false := by decide +kernel
  have bb : blockBits encSearched.prm = 64 := by decide +kernel
  obtain ⟨t1, e1, o⟩ := writeDome_open (b := true) (s := mappedBig (withJob encJob)) (va := (ejobOf encJob.entry).scr)
    (l := (List.range (blockBits encSearched.prm * 4096)).map
      (fun i => (Config.freeBits ((mappedBig (withJob encJob)).m.free + i)).truncate 8))
    (by constructor <;> decide +kernel) rfl sec
    (by
      have a : (ejobOf encJob.entry).scr = 0x10000 := by decide +kernel
      have z : sizeOf true = 2 ^ 21 := rfl
      simp only [List.length_map, List.length_range, a, bb, z]; decide)
  have n := length_encode encSearched
  obtain ⟨t2, e2⟩ := writeDome_at (g := 0) (va := (ejobOf encJob.entry).out + (encJob.aux.headD 0).toNat * twcBlock encSearched.prm)
    (l := bytesOfBits encSearched.encode) o rfl sec
    (by
      have a : (ejobOf encJob.entry).out + (encJob.aux.headD 0).toNat * twcBlock encSearched.prm = 0x2000 := by decide +kernel
      have z : sizeOf true = 2 ^ 21 := rfl
      rw [a, z]; omega)
  exact ⟨t1, t2, e1, e2⟩
theorem verifyDue_image (image : List Byte) :
    ({ bootC with rom := { bootC.rom with images := [(0, image)] } } : State).verifyDue 0 = true := by
  have h : ∀ d, (({ bootC with rom := { bootC.rom with images := [(0, image)] } } : State).bootImage d).isSome
      = (bootD.bootImage d).isSome := by
    intro d; by_cases e : 0 = d <;> simp [State.bootImage, bootD, e]
  have e : ({ bootC with rom := { bootC.rom with images := [(0, image)] } } : State).verifyDue 0 = bootD.verifyDue 0 := by
    simp only [State.verifyDue, h]; rfl
  rw [e]; decide +kernel

/-! ## One step each; the values are worked by hand from the rules named -/

/-- readyA with s2 and s3. -/
def with23 (a b : Word) : State := withS 3 b (withS 2 a readyA)
/-- The last result on its way from core 0: its target and value. -/
def sent (o : Out) : Option (Target × Nat) :=
  match o with
  | .next t => (t.core 0).pend.getLast?.map (fun p => (p.tgt, p.val.toNat))
  | _ => none
/-- The fault code that a step left at die 0. -/
def raised (o : Out) : Option Nat :=
  match o with
  | .next t => (t.die 0).heldFaults.getLast?.map (fun f => bits f.raw 7 0)
  | _ => none
/-- A state that a step leaves, read by f. -/
def after {α : Type} (f : State → α) (o : Out) : Option α := match o with | .next t => some (f t) | _ => none

/-- R286: sums wrap. -/
theorem test_add_wraps : sent (exec (.add 0 1 2 3) (with23 0xFFFFFFFFFFFFFFFF 1)) = some (.sreg .a 1, 0) := by decide +kernel
/-- R286: the source may be the destination. -/
theorem test_sub_same_register : sent (exec (.sub 0 2 2 3) (with23 5 7)) = some (.sreg .a 2, 2 ^ 64 - 2) := by decide +kernel
/-- R286: an arithmetic shift copies the sign. -/
theorem test_sra_sign : sent (exec (.sra 0 1 2 3) (with23 0xFFFFFFFFFFFFFFF0 66)) = some (.sreg .a 1, 2 ^ 64 - 4) := by decide +kernel
/-- R286: the high words of a signed and an unsigned product. -/
theorem test_mulh : sent (exec (.mulh 0 1 2 3) (with23 0xFFFFFFFFFFFFFFFF 1)) = some (.sreg .a 1, 2 ^ 64 - 1) := by decide +kernel
theorem test_mulhn : sent (exec (.mulhn 0 1 2 3) (with23 0xFFFFFFFFFFFFFFFF 0xFFFFFFFFFFFFFFFF)) = some (.sreg .a 1, 2 ^ 64 - 2) := by
  decide +kernel
/-- R286: division by zero gives all ones; the overflow gives the least number. -/
theorem test_div_by_zero : sent (exec (.div 0 1 2 3) (with23 5 0)) = some (.sreg .a 1, 2 ^ 64 - 1) := by decide +kernel
theorem test_div_overflow : sent (exec (.div 0 1 2 3) (with23 0x8000000000000000 0xFFFFFFFFFFFFFFFF)) = some (.sreg .a 1, 2 ^ 63) := by
  decide +kernel
/-- R286: a remainder has the dividend's sign. -/
theorem test_rem_sign : sent (exec (.rem 0 1 2 3) (with23 0xFFFFFFFFFFFFFFF9 2)) = some (.sreg .a 1, 2 ^ 64 - 1) := by decide +kernel
/-- R286: the bit counts. -/
theorem test_clz_zero : sent (exec (.clz 0 1 2) (with23 0 0)) = some (.sreg .a 1, 64) := by decide +kernel
theorem test_ctz : sent (exec (.ctz 0 1 2) (with23 8 0)) = some (.sreg .a 1, 3) := by decide +kernel
/-- R287: immediates are sign-extended. -/
theorem test_addi_minus_one : sent (exec (.addi 0 1 2 0xFFF) (with23 5 0)) = some (.sreg .a 1, 4) := by decide +kernel
/-- R288: sxt and zxt hold w - 1. -/
theorem test_sxt_8 : sent (exec (.sxt 0 1 2 7) (with23 0x180 0)) = some (.sreg .a 1, 2 ^ 64 - 128) := by decide +kernel
theorem test_zxt_8 : sent (exec (.zxt 0 1 2 7) (with23 0x180 0)) = some (.sreg .a 1, 128) := by decide +kernel
/-- R289 and its worked case: the second lsi of 0x0123456789ABCDEF. -/
theorem test_lsi : sent (exec (.lsi 0 2 0x89AB) (with23 0x01234567 0)) = some (.sreg .a 2, 0x0123456789AB) := by decide +kernel
/-- R276: a signed comparison. -/
theorem test_cmp_signed : (sent (exec (.cmp 0 1 2 3 2) (with23 0xFFFFFFFFFFFFFFFF 1))).map (fun x => (x.1, x.2 % 4 / 2)) = some (.pred .a 2, 1) := by decide +kernel
/-- R304: ld extends the sign, and an address that is no multiple of the size raises ALIGN (0x04). -/
theorem test_ld_sign : sent (exec (.ld 0 1 2 0 0) ((with23 64 0).onCore 0 (fun k => { k with store := [(64, 0x80)] })))
    = some (.sreg .a 1, 2 ^ 64 - 128) := by decide +kernel
theorem test_ld_align : raised (exec (.ld 0 1 2 3 0) (with23 4 0)) = some 0x04 := by decide +kernel
/-- R304: a store is little-endian; past the core store it raises ADDR (0x05). -/
theorem test_st_bytes : after (fun t => (t.core 0).store.drop 4) (exec (.st 0 3 2 1 0) ((with23 64 0x1234).onCore 0 (fun k => { k with store := [(0, 1), (1, 1), (2, 1), (3, 1)] })))
    = some [(64, 0x34), (65, 0x12)] := by decide +kernel
theorem test_st_addr : raised (exec (.st 0 3 2 0 0) (with23 0x200000 1)) = some 0x05 := by decide +kernel
/-- R303: trap raises TRAP (0x14), and control moves past it. -/
theorem test_trap : raised (exec (.trap 0 7) readyA) = some 0x14 := by decide +kernel
theorem test_trap_pc : after (fun t => (t.seq ⟨0, .a⟩).pc) (exec (.trap 0 7) readyA) = some 4 := by decide +kernel
/-- R3: CAPS of a GL-16. -/
theorem test_rsr_caps : sent (exec (.rsr 0 1 0) readyA) = some (.sreg .a 1, 0x3410) := by decide +kernel
/-- R272: VWB holds 0 to 1,535. -/
theorem test_wsr_vwb : raised (exec (.wsr 0 2 0x30) (readyX.onSeq ⟨0, .x⟩ (fun q => { q with regs := [(2, 1536)] }))) = some 0x01 := by
  decide +kernel
/-- R264: a vector word on the A stream raises STREAM (0x02). -/
theorem test_stream : raised (exec (.vadd 0 2 0 1 0) readyA) = some 0x02 := by decide +kernel
/-- R329: 1.5 + 2.25 = 3.75 in the lane that m1 selects. -/
theorem test_vadd : sent (exec (.vadd 0 2 0 1 1) (readyX.onCore 0 (fun k => { k with acc := [(0, 0x3FC00000), (1, 0x40100000)], masks := [(1, 1)] })))
    = some (.row 2 (BitVec.ofNat 8192 0xFFFFFFFF), 0x40700000) := by decide +kernel
/-- R319: a counter at its value lets kwait go on; one below makes it wait. -/
theorem test_kwait_goes_on : after (fun t => (t.seq ⟨0, .a⟩).pc) (exec (.kwait 0 2 9) ((with23 5 0).onCore 0 (fun k => { k with k := [(9, 5)] })))
    = some 4 := by decide +kernel
theorem test_kwait_waits : after (fun t => (t.seq ⟨0, .a⟩).wait) (exec (.kwait 0 2 9) (with23 5 0)) = some (some (.counter 9 5)) := by
  decide +kernel
/-- R24 and its worked case: 0x2F80 is 95.0 degrees, which sets WARN; 110.0 degrees, 0x3700, holds compute-die reset (R20). -/
theorem test_thermal_warning : after (fun t => (t.die 0).reg 0x0108) (exec (.thermalMeasurement 0 0x2F80) (atKeyc 1024 State.reset)) = some 0x22F80 := by
  decide +kernel
theorem test_thermal_trip : after (·.rom.held) (exec (.thermalMeasurement 0 0x3700) (atKeyc 1024 State.reset)) = some true := by decide +kernel
/-- R62: a tail past the queue's end is dropped. -/
theorem test_tail_past_end : after (fun t => t.qreg 0x0518) (exec (.sqTailWrite 3 16 false) (readyA.setQreg 0x0438 0x40000004)) = some 0 := by
  decide +kernel
/-- R72: PIN writes its leaf entry. -/
theorem test_pin : after (fun t => (t.die 0).tlb) (exec (.pin 3 (packetA 1)) (queueSt 1)) = some [(0, tlbLeaf)] := by decide +kernel
/-- R66: an OPC that no command has. -/
theorem test_unknown_opc : after (fun t => readNat t.m.host 7 1) (exec (.unknownOpcPacket 3 (packetA 15)) (queueSt 15)) = some 2 := by
  decide +kernel
/-- R313: an atomic add at its owner writes the sum and replies with the old value. -/
theorem test_amo_add : (((readyA.onDie 0 (fun d => { d with dome := [(64, 7)] })).effect
      { reqA .sent [] with op := .amo true 0 0, data := 5 } 0 64).2,
    readNat (((readyA.onDie 0 (fun d => { d with dome := [(64, 7)] })).effect
      { reqA .sent [] with op := .amo true 0 0, data := 5 } 0 64).1.die 0).dome 64 4) = (7, 12) := by decide +kernel
/-- R142 and its worked case: VA 0x0030000400123458 names owner 3. -/
theorem test_owner_field : bits (0x0030000400123458 : Word) 61 52 = 3 := by decide

/-! ## The hypotheses of the statements are met -/

/-- States and operands that meet the hypotheses of IntegerRegisterResults. -/
theorem wit_IntegerRegisterResults :
    readyA.runs (.add 0 1 2 3) { srcs := [2, 3], dst := some 1 } = true
    ∧ readyA.runs (.sub 0 1 2 3) { srcs := [2, 3], dst := some 1 } = true
    ∧ readyA.runs (.and 0 1 2 3) { srcs := [2, 3], dst := some 1 } = true
    ∧ readyA.runs (.or 0 1 2 3) { srcs := [2, 3], dst := some 1 } = true
    ∧ readyA.runs (.xor 0 1 2 3) { srcs := [2, 3], dst := some 1 } = true
    ∧ readyA.runs (.andn 0 1 2 3) { srcs := [2, 3], dst := some 1 } = true
    ∧ readyA.runs (.shl 0 1 2 3) { srcs := [2, 3], dst := some 1 } = true
    ∧ readyA.runs (.shr 0 1 2 3) { srcs := [2, 3], dst := some 1 } = true
    ∧ readyA.runs (.sra 0 1 2 3) { srcs := [2, 3], dst := some 1 } = true
    ∧ readyA.runs (.rot 0 1 2 3) { srcs := [2, 3], dst := some 1 } = true
    ∧ readyA.runs (.mul 0 1 2 3) { srcs := [2, 3], dst := some 1, lat := 3 } = true
    ∧ readyA.runs (.mulh 0 1 2 3) { srcs := [2, 3], dst := some 1, lat := 3 } = true
    ∧ readyA.runs (.mulhn 0 1 2 3) { srcs := [2, 3], dst := some 1, lat := 3 } = true
    ∧ readyA.runs (.min 0 1 2 3) { srcs := [2, 3], dst := some 1 } = true
    ∧ readyA.runs (.max 0 1 2 3) { srcs := [2, 3], dst := some 1 } = true
    ∧ readyA.runs (.minn 0 1 2 3) { srcs := [2, 3], dst := some 1 } = true
    ∧ readyA.runs (.maxn 0 1 2 3) { srcs := [2, 3], dst := some 1 } = true
    ∧ readyA.runs (.div 0 1 2 3) { srcs := [2, 3], dst := some 1, lat := 34 } = true
    ∧ readyA.runs (.divn 0 1 2 3) { srcs := [2, 3], dst := some 1, lat := 34 } = true
    ∧ readyA.runs (.rem 0 1 2 3) { srcs := [2, 3], dst := some 1, lat := 34 } = true
    ∧ readyA.runs (.remn 0 1 2 3) { srcs := [2, 3], dst := some 1, lat := 34 } = true
    ∧ readyA.runs (.clz 0 1 2) { srcs := [2], dst := some 1 } = true
    ∧ readyA.runs (.ctz 0 1 2) { srcs := [2], dst := some 1 } = true
    ∧ readyA.runs (.popc 0 1 2) { srcs := [2], dst := some 1 } = true := by
  and_intros <;> decide +kernel

/-- States and operands that meet the hypotheses of ImmediateResults. -/
theorem wit_ImmediateResults :
    readyA.runs (.addi 0 1 2 5) { srcs := [2], dst := some 1 } = true
    ∧ readyA.runs (.andi 0 1 2 5) { srcs := [2], dst := some 1 } = true
    ∧ readyA.runs (.ori 0 1 2 5) { srcs := [2], dst := some 1 } = true
    ∧ readyA.runs (.xori 0 1 2 5) { srcs := [2], dst := some 1 } = true
    ∧ readyA.runs (.shli 0 1 2 1) { srcs := [2], dst := some 1 } = true
    ∧ readyA.runs (.shri 0 1 2 1) { srcs := [2], dst := some 1 } = true
    ∧ readyA.runs (.srai 0 1 2 1) { srcs := [2], dst := some 1 } = true
    ∧ readyA.runs (.roti 0 1 2 1) { srcs := [2], dst := some 1 } = true
    ∧ readyA.runs (.sxt 0 1 2 1) { srcs := [2], dst := some 1 } = true
    ∧ readyA.runs (.zxt 0 1 2 1) { srcs := [2], dst := some 1 } = true
    ∧ readyA.runs (.ldi 0 1 1) { dst := some 1 } = true
    ∧ readyA.runs (.lsi 0 4 5) { srcs := [4], dst := some 4 } = true := by
  and_intros <;> decide +kernel

/-- States and operands that meet the hypotheses of PredicateResults. -/
theorem wit_PredicateResults :
    readyA.runs (.cmp 0 1 2 3 2) { srcs := [2, 3] } = true
    ∧ readyA.runs (.cmpi 0 1 2 2 5) { srcs := [2] } = true
    ∧ readyA.runs (.pand 0 1 2 3) {} = true
    ∧ readyA.runs (.por 0 1 2 3) {} = true
    ∧ readyA.runs (.pxor 0 1 2 3) {} = true
    ∧ readyA.runs (.pandn 0 1 2 3) {} = true
    ∧ readyA.runs (.pnot 0 1 2) {} = true
    ∧ readyA.runs (.pmov 0 1 2) {} = true
    ∧ readyA.runs (.pget 0 1) { dst := some 1 } = true
    ∧ readyA.runs (.pput 0 2) { srcs := [2] } = true
    ∧ (let s : State := readyA; let q := s.m.cur; let o : Operands := { pushes := [q.side.bout] };
      s.runs (.bpush 0 2) o)
    ∧ (let s : State := (readyA.onCore 0 (fun k => k.push .bXA ⟨1, .written⟩)); let q := s.m.cur; let o : Operands := { pops := [q.side.bin] };
      s.runs (.bpop 0 1) o) := by
  and_intros <;> decide +kernel

/-- States and operands that meet the hypotheses of BranchResults. -/
theorem wit_BranchResults :
    readyA.runs (.mtbt 0 1 2) { srcs := [2] } = true
    ∧ readyA.runs (.mfbt 0 1 1) { dst := some 1 } = true
    ∧ readyA.runs (.pbr 0 1 1) {} = true
    ∧ (let s : State := readyA; let q := s.m.cur; let o : Operands := {};
      s.runs (.br 0 1) o ∧ (s.seq q).l0.nearEnd (s.seq q).pc = false ∧ (s.seq q).l1.nearEnd (s.seq q).pc = false)
    ∧ (let s : State := readyA; let q := s.m.cur; let o : Operands := {};
      s.runs (.brl 0 1) o ∧ (s.seq q).l0.nearEnd (s.seq q).pc = false ∧ (s.seq q).l1.nearEnd (s.seq q).pc = false)
    ∧ readyA.runs (.nop 0) {} = true := by
  and_intros <;> decide +kernel

/-- States and operands that meet the hypotheses of LoopStarts. -/
theorem wit_LoopStarts :
    (let s : State := readyA; let q := s.m.cur; let l : BitVec 1 := 0; let n : BitVec 12 := 3; let o : Operands := { srcs := [0] }; let v := s.reads o; let p := s.popped o; let sq := p.seq q; let first := sq.pc.toNat + 4; let last := sq.pc.toNat + 4 * n.toNat; let other := sq.level (l ^^^ 1);
      s.runs (.loop 0 0 0 3) o ∧ (sq.level l).active = false ∧ (other.active = true → other.ls.toNat ≤ first ∧ last ≤ other.le.toNat) ∧ last ≤ 0x1FFFFC ∧ v.x 0 = 0)
    ∧ (let s : State := (readyA.onSeq ⟨0, .a⟩ (fun q => { q with regs := [(2, 5)] })); let q := s.m.cur; let l : BitVec 1 := 1; let n : BitVec 12 := 3; let o : Operands := { srcs := [2] }; let v := s.reads o; let p := s.popped o; let sq := p.seq q; let first := sq.pc.toNat + 4; let last := sq.pc.toNat + 4 * n.toNat; let other := sq.level (l ^^^ 1);
      s.runs (.loop 0 1 2 3) o ∧ (sq.level l).active = false ∧ (other.active = true → other.ls.toNat ≤ first ∧ last ≤ other.le.toNat) ∧ last ≤ 0x1FFFFC ∧ v.x 0 ≠ 0) := by
  and_intros <;> decide +kernel

/-- States and operands that meet the hypotheses of SectionEnds. -/
theorem wit_SectionEnds :
    (let s : State := (readyA.onSeq ⟨0, .a⟩ (fun q => { q with sect := .prologue })); let q := s.m.cur; let c := q.core; let rn : Nat := 0; let r : Rec := recA; let o : Operands := {}; let p := s.popped o;
      s.runs (.knext 0) o ∧ p.runningRec c = some (rn, r) ∧ (p.seq q).looping = false ∧ (p.seq q).sect = .prologue ∧ (¬(((p.core c).seq q.side.other).ended = some .byExit ∧ ((p.core c).seq q.side.other).sectNo = (p.seq q).sectNo)))
    ∧ (let s : State := readyA; let q := s.m.cur; let c := q.core; let rn : Nat := 0; let r : Rec := recA; let o : Operands := {}; let p := s.popped o;
      s.runs (.knext 0) o ∧ p.runningRec c = some (rn, r) ∧ (p.seq q).looping = false ∧ (p.seq q).sect = .kernel ∧ (¬(((p.core c).seq q.side.other).ended = some .byExit ∧ ((p.core c).seq q.side.other).sectNo = (p.seq q).sectNo)) ∧ ((p.seq q).iter + 1 ≤ ((p.core c).seq q.side.other).iter → (p.core c).queuesEmpty = true))
    ∧ (let s : State := readyA; let q := s.m.cur; let c := q.core; let o : Operands := {}; let p := s.popped o;
      s.runs (.exit 0) o ∧ (p.seq q).looping = false ∧ ((p.core c).seq q.side.other).sectNo ≤ (p.seq q).sectNo ∧ (¬(((p.core c).seq q.side.other).ended = some .retired ∧ ((p.core c).seq q.side.other).sectNo = (p.seq q).sectNo)))
    ∧ (let s : State := readyA; let q := s.m.cur; let c := q.core; let k : BitVec 4 := 9; let rn : Nat := 0; let r : Rec := recA; let o : Operands := { srcs := [2] }; let p := s.popped o;
      s.runs (.yieldK 0 2 9) o ∧ p.runningRec c = some (rn, r) ∧ (p.seq q).looping = false ∧ (p.seq q).sect = .kernel ∧ recYld r.raw = true ∧ 8 ≤ k.toNat ∧ (¬(((p.core c).seq q.side.other).ended = some .byExit ∧ ((p.core c).seq q.side.other).sectNo = (p.seq q).sectNo)) ∧ ((p.seq q).iter + 1 ≤ ((p.core c).seq q.side.other).iter → (p.core c).queuesEmpty = true))
    ∧ (let s : State := readyA; let q := s.m.cur; let c := q.core; let rn : Nat := 0; let r : Rec := recA; let o : Operands := { srcs := [2] }; let p := s.popped o;
      s.runs (.yieldIo 0 2) o ∧ p.runningRec c = some (rn, r) ∧ (p.seq q).looping = false ∧ (p.seq q).sect = .kernel ∧ recYld r.raw = true ∧ (¬(((p.core c).seq q.side.other).ended = some .byExit ∧ ((p.core c).seq q.side.other).sectNo = (p.seq q).sectNo)) ∧ ((p.seq q).iter + 1 ≤ ((p.core c).seq q.side.other).iter → (p.core c).queuesEmpty = true)) := by
  and_intros <;> decide +kernel

/-- States and operands that meet the hypotheses of SystemRegisterAccess. -/
theorem wit_SystemRegisterAccess :
    readyA.runs (.rsr 0 1 0x11) { dst := some 1 } = true
    ∧ (let s : State := readyX; let q := s.m.cur; let c := q.core; let r : BitVec 12 := 0x30; let o : Operands := { srcs := [1] }; let v := s.reads o; let p := s.popped o;
      s.runs (.wsr 0 1 0x30) o ∧ sysRefused (p.core c) (p.seq q) r (v.x 0) = none)
    ∧ (let s : State := readyX.onSeq ⟨0, .x⟩ (fun q => { q with regs := [(2, 5)] }); let q := s.m.cur; let c := q.core; let r : BitVec 12 := 0x31; let f : FaultCode := .illegal; let o : Operands := { srcs := [2] }; let v := s.reads o; let p := s.popped o;
      s.runs (.wsr 0 2 0x31) o ∧ sysRefused (p.core c) (p.seq q) r (v.x 0) = some f)
    ∧ (let s : State := readyX; let q := s.m.cur; let c := q.core; let r : BitVec 12 := 0x30; let o : Operands := { srcs := [1], dst := some 1 }; let v := s.reads o; let p := s.popped o;
      s.runs (.xsr 0 1 0x30) o ∧ sysRefused (p.core c) (p.seq q) r (v.x 0) = none) := by
  and_intros <;> decide +kernel

/-- States and operands that meet the hypotheses of TrapAndBreak. -/
theorem wit_TrapAndBreak :
    readyA.runs (.trap 0 1) {} = true
    ∧ readyA.runs (.brk 0 1) {} = true := by
  and_intros <;> decide +kernel

/-- States and operands that meet the hypotheses of CoreStoreAccess. -/
theorem wit_CoreStoreAccess :
    (let s : State := readyA; let q := s.m.cur; let c := q.core; let z : BitVec 3 := 2; let i : BitVec 9 := 1; let o : Operands := { srcs := [2], dst := some 1, lat := 4 }; let v := s.reads o; let n := 2 ^ (z.toNat % 4); let addr := v.x 0 + i.signExtend 64 * BitVec.ofNat 64 n;
      s.runs (.ld 0 1 2 2 1) o ∧ storeFault addr n = none ∧ (s.core c).conflicts .seqA [bytesAt addr.toNat n false] (s.ccyc c) = [] ∧ (s.core c).bad = [])
    ∧ (let s : State := readyA; let q := s.m.cur; let c := q.core; let z : BitVec 3 := 3; let i : BitVec 9 := 1; let o : Operands := { srcs := [1, 2] }; let v := s.reads o; let n := 2 ^ (z.toNat % 4); let addr := v.x 1 + i.signExtend 64 * BitVec.ofNat 64 n;
      s.runs (.st 0 1 2 3 1) o ∧ storeFault addr n = none ∧ (s.core c).conflicts .seqA [bytesAt addr.toNat n true] (s.ccyc c) = [] ∧ (s.core c).bad = [] ∧ (s.core c).twcAt addr.toNat = false) := by
  and_intros <;> decide +kernel

/-- States and operands that meet the hypotheses of RowQueueAccess. -/
theorem wit_RowQueueAccess :
    (let s : State := readyA; let q := s.m.cur; let c := q.core; let b : BitVec 5 := 3; let x : BitVec 1 := 0; let o : Operands := { srcs := (rowSrcs 2 3 0), pushes := [.lq 1], lat := 6 }; let v := s.reads o; let ad := if x = 1 then v.x 0 + b.setWidth 64 * 64 else v.x 0 + v.x 1;
      s.runs (.lqr 0 1 2 3 0) o ∧ rowFault ad = none ∧ (s.core c).conflicts .seqA [bytesAt ad.toNat 1024 false] (s.ccyc c) = [] ∧ (s.core c).bad = [])
    ∧ readyA.runs (.lqz 0 1) { pushes := [.lq 1] } = true
    ∧ (let s : State := (readyA.onCore 0 (fun k => k.push (.sq 1) ⟨7, .written⟩)); let q := s.m.cur; let c := q.core; let b : BitVec 5 := 3; let x : BitVec 1 := 1; let o : Operands := { srcs := (rowSrcs 2 3 1), pops := [.sq 1] }; let v := s.reads o; let ad := if x = 1 then v.x 0 + b.setWidth 64 * 64 else v.x 0 + v.x 1;
      s.runs (.sqw 0 1 2 3 1) o ∧ rowFault ad = none ∧ (s.core c).conflicts .seqA [bytesAt ad.toNat 1024 true] (s.ccyc c) = [] ∧ (s.core c).bad = [] ∧ (s.core c).twcAt ad.toNat = false)
    ∧ (let s : State := readyA; let q := s.m.cur; let c := q.core; let e : BitVec 1 := 1; let cc : BitVec 2 := 2; let l : List Nat := (List.replicate 256 0); let o : Operands := { srcs := [2, 3], pushes := [.lq 1], lat := 10 }; let v := s.reads o; let p := s.popped o;
      s.runs (.lqg 0 1 2 3 1 2) o ∧ laneCheck (p.core c) v e cc 1 = .ok l ∧ (s.core c).conflicts .seqA [bytesAt (v.x 1).toNat 1024 false, laneRange l (laneBytes e) false] (s.ccyc c) = [] ∧ (s.core c).bad = [])
    ∧ (let s : State := (readyA.onCore 0 (fun k => k.push (.sq 1) ⟨7, .written⟩)); let q := s.m.cur; let c := q.core; let e : BitVec 1 := 1; let cc : BitVec 2 := 2; let l : List Nat := (List.replicate 256 0); let o : Operands := { srcs := [2, 3], pops := [.sq 1] }; let v := s.reads o; let p := s.popped o;
      s.runs (.sqs 0 1 2 3 1 2) o ∧ laneCheck (p.core c) v e cc 2 = .ok l ∧ (s.core c).conflicts .seqA [bytesAt (v.x 1).toNat 1024 false, laneRange l (laneBytes e) true] (s.ccyc c) = [] ∧ (s.core c).bad = [] ∧ l.any (s.core c).twcAt = false) := by
  and_intros <;> first | decide +kernel | exact ok_eq (by decide +kernel) | exact error_eq (by decide +kernel)

/-- States and operands that meet the hypotheses of VectorFloatResults. -/
theorem wit_VectorFloatResults :
    (readyX.runs (.vadd 0 1 2 3 1) { vsrcs := [2, 3], vdst := some 1, lat := 4 } = true ∧ readyX.rowsFree { vsrcs := [2, 3], vdst := some 1, lat := 4 })
    ∧ (readyX.runs (.vsub 0 1 2 3 1) { vsrcs := [2, 3], vdst := some 1, lat := 4 } = true ∧ readyX.rowsFree { vsrcs := [2, 3], vdst := some 1, lat := 4 })
    ∧ (readyX.runs (.vmul 0 1 2 3 1) { vsrcs := [2, 3], vdst := some 1, lat := 4 } = true ∧ readyX.rowsFree { vsrcs := [2, 3], vdst := some 1, lat := 4 })
    ∧ (readyX.runs (.vfma 0 1 2 3 1) { vsrcs := [2, 3], vdst := some 1, lat := 4 } = true ∧ readyX.rowsFree { vsrcs := [2, 3], vdst := some 1, lat := 4 })
    ∧ (readyX.runs (.vfms 0 1 2 3 1) { vsrcs := [2, 3], vdst := some 1, lat := 4 } = true ∧ readyX.rowsFree { vsrcs := [2, 3], vdst := some 1, lat := 4 })
    ∧ (readyX.runs (.vmin 0 1 2 3 1) { vsrcs := [2, 3], vdst := some 1, lat := 2 } = true ∧ readyX.rowsFree { vsrcs := [2, 3], vdst := some 1, lat := 2 })
    ∧ (readyX.runs (.vmax 0 1 2 3 1) { vsrcs := [2, 3], vdst := some 1, lat := 2 } = true ∧ readyX.rowsFree { vsrcs := [2, 3], vdst := some 1, lat := 2 })
    ∧ (readyX.runs (.vabs 0 1 2 1) { vsrcs := [2], vdst := some 1, lat := 2 } = true ∧ readyX.rowsFree { vsrcs := [2], vdst := some 1, lat := 2 })
    ∧ (readyX.runs (.vneg 0 1 2 1) { vsrcs := [2], vdst := some 1, lat := 2 } = true ∧ readyX.rowsFree { vsrcs := [2], vdst := some 1, lat := 2 })
    ∧ (readyX.runs (.vmov 0 1 2 1) { vsrcs := [2], vdst := some 1, lat := 2 } = true ∧ readyX.rowsFree { vsrcs := [2], vdst := some 1, lat := 2 })
    ∧ (readyX.runs (.vadds 0 1 2 1 1) { srcs := [1], vsrcs := [2], vdst := some 1, lat := 4 } = true ∧ readyX.rowsFree { srcs := [1], vsrcs := [2], vdst := some 1, lat := 4 })
    ∧ (readyX.runs (.vsubs 0 1 2 1 1) { srcs := [1], vsrcs := [2], vdst := some 1, lat := 4 } = true ∧ readyX.rowsFree { srcs := [1], vsrcs := [2], vdst := some 1, lat := 4 })
    ∧ (readyX.runs (.vmuls 0 1 2 1 1) { srcs := [1], vsrcs := [2], vdst := some 1, lat := 4 } = true ∧ readyX.rowsFree { srcs := [1], vsrcs := [2], vdst := some 1, lat := 4 })
    ∧ (readyX.runs (.vfmas 0 1 2 1 1) { srcs := [1], vsrcs := [2], vdst := some 1, lat := 4 } = true ∧ readyX.rowsFree { srcs := [1], vsrcs := [2], vdst := some 1, lat := 4 })
    ∧ (readyX.runs (.vmins 0 1 2 1 1) { srcs := [1], vsrcs := [2], vdst := some 1, lat := 2 } = true ∧ readyX.rowsFree { srcs := [1], vsrcs := [2], vdst := some 1, lat := 2 })
    ∧ (readyX.runs (.vmaxs 0 1 2 1 1) { srcs := [1], vsrcs := [2], vdst := some 1, lat := 2 } = true ∧ readyX.rowsFree { srcs := [1], vsrcs := [2], vdst := some 1, lat := 2 }) := by
  and_intros <;> decide +kernel

/-- States and operands that meet the hypotheses of VectorIntegerResults. -/
theorem wit_VectorIntegerResults :
    (readyX.runs (.viadd 0 1 2 3 1) { vsrcs := [2, 3], vdst := some 1, lat := 2 } = true ∧ readyX.rowsFree { vsrcs := [2, 3], vdst := some 1, lat := 2 })
    ∧ (readyX.runs (.visub 0 1 2 3 1) { vsrcs := [2, 3], vdst := some 1, lat := 2 } = true ∧ readyX.rowsFree { vsrcs := [2, 3], vdst := some 1, lat := 2 })
    ∧ (readyX.runs (.vimul 0 1 2 3 1) { vsrcs := [2, 3], vdst := some 1, lat := 2 } = true ∧ readyX.rowsFree { vsrcs := [2, 3], vdst := some 1, lat := 2 })
    ∧ (readyX.runs (.vimin 0 1 2 3 1) { vsrcs := [2, 3], vdst := some 1, lat := 2 } = true ∧ readyX.rowsFree { vsrcs := [2, 3], vdst := some 1, lat := 2 })
    ∧ (readyX.runs (.vimax 0 1 2 3 1) { vsrcs := [2, 3], vdst := some 1, lat := 2 } = true ∧ readyX.rowsFree { vsrcs := [2, 3], vdst := some 1, lat := 2 })
    ∧ (readyX.runs (.vand 0 1 2 3 1) { vsrcs := [2, 3], vdst := some 1, lat := 2 } = true ∧ readyX.rowsFree { vsrcs := [2, 3], vdst := some 1, lat := 2 })
    ∧ (readyX.runs (.vor 0 1 2 3 1) { vsrcs := [2, 3], vdst := some 1, lat := 2 } = true ∧ readyX.rowsFree { vsrcs := [2, 3], vdst := some 1, lat := 2 })
    ∧ (readyX.runs (.vxor 0 1 2 3 1) { vsrcs := [2, 3], vdst := some 1, lat := 2 } = true ∧ readyX.rowsFree { vsrcs := [2, 3], vdst := some 1, lat := 2 })
    ∧ (readyX.runs (.vshl 0 1 2 3 1) { vsrcs := [2, 3], vdst := some 1, lat := 2 } = true ∧ readyX.rowsFree { vsrcs := [2, 3], vdst := some 1, lat := 2 })
    ∧ (readyX.runs (.vshr 0 1 2 3 1) { vsrcs := [2, 3], vdst := some 1, lat := 2 } = true ∧ readyX.rowsFree { vsrcs := [2, 3], vdst := some 1, lat := 2 })
    ∧ (readyX.runs (.vsra 0 1 2 3 1) { vsrcs := [2, 3], vdst := some 1, lat := 2 } = true ∧ readyX.rowsFree { vsrcs := [2, 3], vdst := some 1, lat := 2 })
    ∧ (readyX.runs (.vbc 0 1 1 1) { srcs := [1], vsrcs := [], vdst := some 1, lat := 2 } = true ∧ readyX.rowsFree { srcs := [1], vsrcs := [], vdst := some 1, lat := 2 })
    ∧ (readyX.runs (.vrot 0 1 2 1 1) { srcs := [1], vsrcs := [2], vdst := some 1, lat := 2 } = true ∧ readyX.rowsFree { srcs := [1], vsrcs := [2], vdst := some 1, lat := 2 })
    ∧ (readyX.runs (.vperm 0 1 2 3 1) { vsrcs := [2, 3], vdst := some 1, lat := 4 } = true ∧ readyX.rowsFree { vsrcs := [2, 3], vdst := some 1, lat := 4 })
    ∧ (readyX.runs (.vsel 0 1 2 3 1) { vsrcs := [2, 3], vdst := some 1, lat := 2 } = true ∧ readyX.rowsFree { vsrcs := [2, 3], vdst := some 1, lat := 2 }) := by
  and_intros <;> decide +kernel

/-- States and operands that meet the hypotheses of VectorConversions. -/
theorem wit_VectorConversions :
    (readyX.runs (.vexp2 0 1 2 1) { vsrcs := [2], vdst := some 1, lat := 12 } = true ∧ readyX.rowsFree { vsrcs := [2], vdst := some 1, lat := 12 })
    ∧ (readyX.runs (.vlog2 0 1 2 1) { vsrcs := [2], vdst := some 1, lat := 12 } = true ∧ readyX.rowsFree { vsrcs := [2], vdst := some 1, lat := 12 })
    ∧ (readyX.runs (.vrcp 0 1 2 1) { vsrcs := [2], vdst := some 1, lat := 12 } = true ∧ readyX.rowsFree { vsrcs := [2], vdst := some 1, lat := 12 })
    ∧ (readyX.runs (.vrsqrt 0 1 2 1) { vsrcs := [2], vdst := some 1, lat := 12 } = true ∧ readyX.rowsFree { vsrcs := [2], vdst := some 1, lat := 12 })
    ∧ (readyX.runs (.vsqrt 0 1 2 1) { vsrcs := [2], vdst := some 1, lat := 12 } = true ∧ readyX.rowsFree { vsrcs := [2], vdst := some 1, lat := 12 })
    ∧ (readyX.runs (.vtanh 0 1 2 1) { vsrcs := [2], vdst := some 1, lat := 12 } = true ∧ readyX.rowsFree { vsrcs := [2], vdst := some 1, lat := 12 })
    ∧ (readyX.runs (.vsigm 0 1 2 1) { vsrcs := [2], vdst := some 1, lat := 12 } = true ∧ readyX.rowsFree { vsrcs := [2], vdst := some 1, lat := 12 })
    ∧ (readyX.runs (.vclp 0 1 2 1) { vsrcs := [2], vdst := some 1, lat := 2 } = true ∧ readyX.rowsFree { vsrcs := [2], vdst := some 1, lat := 2 })
    ∧ (readyX.runs (.vupk 0 1 2 3 0 0) { vsrcs := [2], vdst := some 1, lat := 4 } = true ∧ readyX.rowsFree { vsrcs := [2], vdst := some 1, lat := 4 })
    ∧ (readyX.runs (.vcvi 0 1 2 1 1) { vsrcs := [2], vdst := some 1, lat := 4 } = true ∧ readyX.rowsFree { vsrcs := [2], vdst := some 1, lat := 4 })
    ∧ (readyX.runs (.vcvf 0 1 2 1 1) { vsrcs := [2], vdst := some 1, lat := 4 } = true ∧ readyX.rowsFree { vsrcs := [2], vdst := some 1, lat := 4 })
    ∧ (readyX.runs (.vpk 0 1 2 8 0 0) { vsrcs := packSrcs 2 (packRows 8), vdst := some 1, lat := 4 } = true ∧ readyX.rowsFree { vsrcs := packSrcs 2 (packRows 8), vdst := some 1, lat := 4 }) := by
  and_intros <;> decide +kernel

/-- States and operands that meet the hypotheses of MaskResults. -/
theorem wit_MaskResults :
    (readyX.runs (.vcmp 0 1 2 3 1 1) { vsrcs := [2, 3] } = true ∧ readyX.rowsFree { vsrcs := [2, 3] })
    ∧ (readyX.runs (.vicmp 0 1 2 3 1 1) { vsrcs := [2, 3] } = true ∧ readyX.rowsFree { vsrcs := [2, 3] })
    ∧ (readyX.runs (.vtopk 0 1 2 1 1) { srcs := [1], vsrcs := [2] } = true ∧ readyX.rowsFree { srcs := [1], vsrcs := [2] })
    ∧ readyX.runs (.mand 0 1 2 3) {} = true
    ∧ readyX.runs (.mor 0 1 2 3) {} = true
    ∧ readyX.runs (.mxor 0 1 2 3) {} = true
    ∧ readyX.runs (.mnot 0 1 2) {} = true
    ∧ readyX.runs (.mset 0 1) {} = true
    ∧ readyX.runs (.mclr 0 1) {} = true
    ∧ readyX.runs (.mfirst 0 1 2 1) {} = true
    ∧ readyX.runs (.vany 0 1 2 1) {} = true
    ∧ readyX.runs (.vall 0 1 2 1) {} = true
    ∧ readyX.runs (.mcnt 0 1 2 1) { dst := some 1 } = true := by
  and_intros <;> decide +kernel

/-- States and operands that meet the hypotheses of VectorReductions. -/
theorem wit_VectorReductions :
    (readyX.runs (.vsum 0 2 1 1) { vsrcs := [2], dst := some 1, lat := 10 } = true ∧ readyX.rowsFree { vsrcs := [2], dst := some 1, lat := 10 })
    ∧ (let s : State := readyX.onCore 0 (fun k => { k with vtype := 1 }); let q := s.m.cur; let c := q.core; let o : Operands := { vsrcs := [2], dst := some 1, lat := 10 }; let p := s.popped o; let x := vctx (p.core c);
      s.runs (.vsum 0 2 1 1) o ∧ s.rowsFree o ∧ x.isInt = true)
    ∧ (readyX.runs (.vrmax 0 2 1 1) { vsrcs := [2], dst := some 1, lat := 10 } = true ∧ readyX.rowsFree { vsrcs := [2], dst := some 1, lat := 10 })
    ∧ (readyX.runs (.vrmin 0 2 1 1) { vsrcs := [2], dst := some 1, lat := 10 } = true ∧ readyX.rowsFree { vsrcs := [2], dst := some 1, lat := 10 })
    ∧ (readyX.runs (.vargmax 0 2 1 1) { vsrcs := [2], dst := some 1, lat := 10 } = true ∧ readyX.rowsFree { vsrcs := [2], dst := some 1, lat := 10 })
    ∧ (readyX.runs (.vext 0 1 2 1) { srcs := [1], vsrcs := [2], dst := some 1, lat := 2 } = true ∧ readyX.rowsFree { srcs := [1], vsrcs := [2], dst := some 1, lat := 2 })
    ∧ readyX.runs (.vwset 0 1535) {} = true
    ∧ readyX.runs (.vwin 0 1) {} = true := by
  and_intros <;> decide +kernel

/-- States and operands that meet the hypotheses of DomeAccess. -/
theorem wit_DomeAccess :
    (let s : State := readyA; let q := s.m.cur; let c := q.core; let b : BitVec 5 := 1; let z : BitVec 3 := 2; let og : Nat := 0; let o : Operands := { srcs := [2], pushes := [.reply] }; let v := s.reads o; let p := s.popped o; let n := 2 ^ (z.toNat % 4); let va := v.x 0 + BitVec.ofNat 64 (n * b.toNat);
      s.runs (.gld 0 2 1 2) o ∧ p.domeOwner va = .ok og ∧ va.toNat % n = 0 ∧ (p.core c).sideLog.any (·.holds (pageOf va)) = false ∧ p.m.excluded.contains og = false)
    ∧ (let s : State := readyA; let q := s.m.cur; let c := q.core; let b : BitVec 5 := 1; let z : BitVec 2 := 2; let og : Nat := 0; let o : Operands := { srcs := [1, 2] }; let v := s.reads o; let p := s.popped o; let n := 2 ^ z.toNat; let va := v.x 1 + BitVec.ofNat 64 (n * b.toNat);
      s.runs (.gst 0 1 2 1 2) o ∧ p.domeOwner va = .ok og ∧ va.toNat % n = 0 ∧ (p.core c).sideLog.any (·.holds (pageOf va)) = false ∧ p.m.excluded.contains og = false)
    ∧ (readyA.onCore 0 (fun k => k.push .reply ⟨7, .written⟩)).runs (.gpop 0 1) { dst := some 1, pops := [.reply] } = true
    ∧ readyA.runs (.gcnt 0 1) { dst := some 1 } = true
    ∧ (let s : State := readyA; let q := s.m.cur; let c := q.core; let t : BitVec 2 := 0; let og : Nat := 0; let o : Operands := { srcs := [2, 1], pushes := [.reply] }; let v := s.reads o; let p := s.popped o; let va := v.x 0;
      s.runs (.amoReturning 0 2 1 0 0) o ∧ p.domeOwner va = .ok og ∧ (va.toNat % (if t.toNat = 1 ∨ t.toNat = 3 then 8 else 4) = 0) ∧ (p.core c).sideLog.any (·.holds (pageOf va)) = false ∧ p.m.excluded.contains og = false ∧ (p.core c).detmode.getLsbD 0 = false)
    ∧ (let s : State := readyA; let q := s.m.cur; let c := q.core; let t : BitVec 2 := 0; let og : Nat := 0; let o : Operands := { srcs := [2, 1], pushes := [.reply] }; let v := s.reads o; let p := s.popped o; let va := v.x 0;
      s.runs (.amoXchg 0 2 1 0) o ∧ p.domeOwner va = .ok og ∧ (va.toNat % (if t.toNat = 1 ∨ t.toNat = 3 then 8 else 4) = 0) ∧ (p.core c).sideLog.any (·.holds (pageOf va)) = false ∧ p.m.excluded.contains og = false ∧ (p.core c).detmode.getLsbD 0 = false)
    ∧ (let s : State := readyA; let q := s.m.cur; let c := q.core; let t : BitVec 2 := 0; let og : Nat := 0; let o : Operands := { srcs := [1, 2, 3], pushes := [.reply] }; let v := s.reads o; let p := s.popped o; let va := v.x 1;
      s.runs (.amoCas 0 1 2 3 0) o ∧ p.domeOwner va = .ok og ∧ (va.toNat % (if t.toNat = 1 ∨ t.toNat = 3 then 8 else 4) = 0) ∧ (p.core c).sideLog.any (·.holds (pageOf va)) = false ∧ p.m.excluded.contains og = false ∧ (p.core c).detmode.getLsbD 0 = false)
    ∧ (let s : State := readyA; let q := s.m.cur; let c := q.core; let t : BitVec 2 := 0; let og : Nat := 0; let o : Operands := { srcs := [2, 1] }; let v := s.reads o; let p := s.popped o; let va := v.x 0;
      s.runs (.amoReduction 0 2 1 0 0) o ∧ p.domeOwner va = .ok og ∧ (va.toNat % (if t.toNat = 1 ∨ t.toNat = 3 then 8 else 4) = 0) ∧ (p.core c).sideLog.any (·.holds (pageOf va)) = false ∧ p.m.excluded.contains og = false)
    ∧ (let s : State := readyA; let q := s.m.cur; let c := q.core; let og : Nat := 0; let o : Operands := { srcs := [2, 1] }; let v := s.reads o; let p := s.popped o; let va := v.x 0;
      s.runs (.amoF32Reduction 0 2 1 0) o ∧ p.domeOwner va = .ok og ∧ (va.toNat % (if 4 = 1 ∨ 4 = 3 then 8 else 4) = 0) ∧ (p.core c).sideLog.any (·.holds (pageOf va)) = false ∧ p.m.excluded.contains og = false ∧ (p.core c).detmode.getLsbD 0 = false) := by
  and_intros <;> first | decide +kernel | exact ok_eq (by decide +kernel) | exact error_eq (by decide +kernel)

/-- States and operands that meet the hypotheses of DescriptorAccess. -/
theorem wit_DescriptorAccess :
    (let s : State := readyA; let q := s.m.cur; let c := q.core; let o : Operands := { srcs := [2] }; let v := s.reads o; let ad := v.x 0;
      s.runs (.dld 0 15 2) o ∧ ad.toNat < 2 ^ 21 ∧ ad.toNat % 64 = 0 ∧ (s.core c).bad = [] ∧ (s.core c).conflicts .seqA [bytesAt ad.toNat 64 false] (s.ccyc c) = [])
    ∧ (let s : State := readyA; let q := s.m.cur; let c := q.core; let o : Operands := { srcs := [2] }; let v := s.reads o; let ad := v.x 0;
      s.runs (.dst 0 15 2) o ∧ ad.toNat < 2 ^ 21 ∧ ad.toNat % 64 = 0 ∧ (s.core c).bad = [] ∧ (s.core c).conflicts .seqA [bytesAt ad.toNat 64 true] (s.ccyc c) = [] ∧ (s.core c).twcAt ad.toNat = false)
    ∧ (let s : State := readyA; let f : BitVec 6 := 18; let o : Operands := { srcs := [2] }; let v := s.reads o; let w := (descField f.toNat).2.1;
      s.runs (.dmod 0 3 2 18) o ∧ (if (descField f.toNat).2.2 = true then -(2 ^ (w - 1) : Int) ≤ (v.x 0).toInt ∧ (v.x 0).toInt < 2 ^ (w - 1) else (v.x 0).toNat < 2 ^ w))
    ∧ (let s : State := (readyA.onSeq ⟨0, .a⟩ (fun q => { q with regs := [(2, 256)] })); let f : BitVec 6 := 0; let o : Operands := { srcs := [2] }; let v := s.reads o; let w := (descField f.toNat).2.1;
      s.runs (.dmod 0 3 2 0) o ∧ (¬(if (descField f.toNat).2.2 = true then -(2 ^ (w - 1) : Int) ≤ (v.x 0).toInt ∧ (v.x 0).toInt < 2 ^ (w - 1) else (v.x 0).toNat < 2 ^ w))) := by
  and_intros <;> decide +kernel

/-- States and operands that meet the hypotheses of WaitsAndCounters. -/
theorem wit_WaitsAndCounters :
    (let s : State := readyA; let q := s.m.cur; let c := q.core; let o : Operands := {}; let p := s.popped o;
      s.runs (.fenceCore 0) o ∧ (q.side = .x ∨ p.fenceDone c false = true))
    ∧ (let s : State := readyA; let q := s.m.cur; let c := q.core; let o : Operands := {}; let p := s.popped o;
      s.runs (.fenceCluster 0) o ∧ (q.side = .x ∨ p.fenceDone c false = true))
    ∧ (let s : State := readyA; let q := s.m.cur; let c := q.core; let o : Operands := {}; let p := s.popped o;
      s.runs (.fenceDie 0) o ∧ (q.side = .x ∨ p.fenceDone c false = true))
    ∧ (let s : State := readyA; let q := s.m.cur; let c := q.core; let o : Operands := {}; let p := s.popped o;
      s.runs (.fenceModule 0) o ∧ (q.side = .x ∨ p.fenceDone c true = true))
    ∧ (let s : State := readyA; let q := s.m.cur; let c := q.core; let o : Operands := {}; let p := s.popped o;
      s.runs (.fenceX 0 3) o ∧ (q.side = .x ∨ p.fenceDone c true = true))
    ∧ (let s : State := readyA; let q := s.m.cur; let c := q.core; let k : BitVec 4 := 3; let o : Operands := { srcs := [0] }; let v := s.reads o; let p := s.popped o;
      s.runs (.kwait 0 0 3) o ∧ (v.x 0).toNat ≤ ((p.core c).counter k.toNat).toNat)
    ∧ (let s : State := (readyA.onSeq ⟨0, .a⟩ (fun q => { q with regs := [(2, 5)] })); let q := s.m.cur; let c := q.core; let k : BitVec 4 := 3; let o : Operands := { srcs := [2] }; let v := s.reads o; let p := s.popped o;
      s.runs (.kwait 0 2 3) o ∧ (¬((v.x 0).toNat ≤ ((p.core c).counter k.toNat).toNat)))
    ∧ readyA.runs (.ktest 0 2 3 1) { srcs := [2] } = true
    ∧ readyA.runs (.kget 0 2 3) { dst := some 2 } = true
    ∧ (let s : State := readyA; let r : BitVec 1 := 0; let o : Operands := { srcs := [2] };
      s.runs (.kadd 0 2 3 0 0) o ∧ r = 0)
    ∧ (let s : State := readyA; let q := s.m.cur; let c := q.core; let r : BitVec 1 := 1; let cc : BitVec 3 := 1; let pe : Nat := 1; let o : Operands := { srcs := [2] }; let p := s.popped o;
      s.runs (.kadd 0 2 9 1 1) o ∧ r ≠ 0 ∧ p.ownLogical c ≠ some cc.toNat ∧ p.peerCore c cc.toNat = some pe ∧ s.rom.coreSecret c pe = false)
    ∧ (let s : State := peerSecure; let q := s.m.cur; let c := q.core; let r : BitVec 1 := 1; let cc : BitVec 3 := 1; let pe : Nat := 1; let o : Operands := { srcs := [2] }; let p := s.popped o;
      s.runs (.kadd 0 2 9 1 1) o ∧ r ≠ 0 ∧ p.ownLogical c ≠ some cc.toNat ∧ p.peerCore c cc.toNat = some pe ∧ s.rom.coreSecret c pe = true)
    ∧ (let s : State := readyA; let r : BitVec 1 := 0; let o : Operands := { srcs := [2] };
      s.runs (.kset 0 2 3 0 0) o ∧ r = 0)
    ∧ (let s : State := readyA; let q := s.m.cur; let c := q.core; let r : BitVec 1 := 1; let cc : BitVec 3 := 1; let pe : Nat := 1; let o : Operands := { srcs := [2] }; let p := s.popped o;
      s.runs (.kset 0 2 9 1 1) o ∧ r ≠ 0 ∧ p.ownLogical c ≠ some cc.toNat ∧ p.peerCore c cc.toNat = some pe ∧ s.rom.coreSecret c pe = false)
    ∧ (let s : State := peerSecure; let q := s.m.cur; let c := q.core; let r : BitVec 1 := 1; let cc : BitVec 3 := 1; let pe : Nat := 1; let o : Operands := { srcs := [2] }; let p := s.popped o;
      s.runs (.kset 0 2 9 1 1) o ∧ r ≠ 0 ∧ p.ownLogical c ≠ some cc.toNat ∧ p.peerCore c cc.toNat = some pe ∧ s.rom.coreSecret c pe = true)
    ∧ (let s : State := readyA; let q := s.m.cur; let c := q.core; let e : BitVec 3 := 1; let o : Operands := { srcs := [0] }; let v := s.reads o; let p := s.popped o;
      s.runs (.ewait 0 0 1) o ∧ (v.x 0).toNat ≤ ((p.core c).doneNo e.toNat).toNat)
    ∧ (let s : State := (readyA.onSeq ⟨0, .a⟩ (fun q => { q with regs := [(2, 5)] })); let q := s.m.cur; let c := q.core; let e : BitVec 3 := 1; let o : Operands := { srcs := [2] }; let v := s.reads o; let p := s.popped o;
      s.runs (.ewait 0 2 1) o ∧ (¬((v.x 0).toNat ≤ ((p.core c).doneNo e.toNat).toNat)))
    ∧ readyA.runs (.eseq 0 2 1) { dst := some 2 } = true
    ∧ (let s : State := readyA; let q := s.m.cur; let c := q.core; let qc : BitVec 4 := 6; let o : Operands := { srcs := [0] }; let v := s.reads o; let p := s.popped o; let qw := qwaitQueue q.side qc.toNat; let n := Min.min (v.x 0).toNat qw.1.depth;
      s.runs (.qwait 0 0 6) o ∧ (if qw.2 = true then (p.core c).headWritten qw.1 n = true else n ≤ qw.1.depth - ((p.core c).queue qw.1).length))
    ∧ (let s : State := (readyA.onSeq ⟨0, .a⟩ (fun q => { q with regs := [(2, 5)] })); let q := s.m.cur; let c := q.core; let qc : BitVec 4 := 6; let o : Operands := { srcs := [2] }; let v := s.reads o; let p := s.popped o; let qw := qwaitQueue q.side qc.toNat; let n := Min.min (v.x 0).toNat qw.1.depth;
      s.runs (.qwait 0 2 6) o ∧ (¬(if qw.2 = true then (p.core c).headWritten qw.1 n = true else n ≤ qw.1.depth - ((p.core c).queue qw.1).length))) := by
  and_intros <;> decide +kernel

/-- States and operands that meet the hypotheses of ClusterMessages. -/
theorem wit_ClusterMessages :
    (let s : State := readyA; let p := s.popped {};
      s.runs (.csync 0 1) {} = true ∧ p.csyncSet 0 1 = some [⟨0, .a⟩] ∧ ([⟨0, .a⟩] : List SeqId).contains s.m.cur = true
        ∧ (∀ r ∈ ([⟨0, .a⟩] : List SeqId), clusterOf r.core = clusterOf 0)
        ∧ (∀ r ∈ ([⟨0, .a⟩] : List SeqId), r ≠ s.m.cur → ∃ m' l', (p.seq r).wait = some (.csync m')
          ∧ p.csyncSet r.core m' = some l' ∧ ∀ z, l'.contains z = ([⟨0, .a⟩] : List SeqId).contains z)
        ∧ (∀ (r : SeqId) (m' : BitVec 16) (l' : List SeqId), clusterOf r.core = clusterOf 0 → (p.seq r).wait = some (.csync m') →
          p.csyncSet r.core m' = some l' → l'.contains s.m.cur = true → ∀ z, l'.contains z = ([⟨0, .a⟩] : List SeqId).contains z))
    ∧ (let s : State := readyA; let q := s.m.cur; let c := q.core; let pe : BitVec 3 := 1; let o2 : Nat := 1; let o : Operands := { srcs := [2] }; let p := s.popped o;
      s.runs (.csendS 0 2 1) o ∧ p.ownLogical c ≠ some pe.toNat ∧ p.peerCore c pe.toNat = some o2 ∧ p.anchored c o2 = true ∧ s.rom.coreSecret c o2 = false)
    ∧ (let s : State := peerSecure; let q := s.m.cur; let c := q.core; let pe : BitVec 3 := 1; let o2 : Nat := 1; let o : Operands := { srcs := [2] }; let p := s.popped o;
      s.runs (.csendS 0 2 1) o ∧ p.ownLogical c ≠ some pe.toNat ∧ p.peerCore c pe.toNat = some o2 ∧ p.anchored c o2 = true ∧ s.rom.coreSecret c o2 = true)
    ∧ (let s : State := peerSecure; let q := s.m.cur; let c := q.core; let pe : BitVec 3 := 1; let o2 : Nat := 1; let o : Operands := { srcs := [2] }; let v := s.reads o; let p := s.popped o;
      s.runs (.csendRow 0 2 1) o ∧ p.ownLogical c ≠ some pe.toNat ∧ p.peerCore c pe.toNat = some o2 ∧ p.anchored c o2 = true ∧ s.rom.coreSecret c o2 = true ∧ rowFault (v.x 0) = none)
    ∧ (let s : State := readyA; let q := s.m.cur; let c := q.core; let pe : BitVec 3 := 1; let o2 : Nat := 1; let o : Operands := { srcs := [2] }; let v := s.reads o; let p := s.popped o;
      s.runs (.csendRow 0 2 1) o ∧ p.ownLogical c ≠ some pe.toNat ∧ p.peerCore c pe.toNat = some o2 ∧ p.anchored c o2 = true ∧ s.rom.coreSecret c o2 = false ∧ rowFault (v.x 0) = none ∧ (s.core c).conflicts .seqA [bytesAt (v.x 0).toNat 1024 false] (s.ccyc c) = [] ∧ (s.core c).bad = [])
    ∧ (let s : State := withMsg { msgA false with here := true } readyA; let q := s.m.cur; let c := q.core; let pe : BitVec 3 := 1; let o2 : Nat := 1; let x : CMsg := { msgA false with here := true }; let o : Operands := { dst := some 2 }; let p := s.popped o;
      s.runs (.crecvS 0 2 1) o ∧ p.ownLogical c ≠ some pe.toNat ∧ p.peerCore c pe.toNat = some o2 ∧ p.anchored c o2 = true ∧ p.arrivals c = [x] ∧ x.src = o2 ∧ x.isRow = false)
    ∧ (let s : State := withMsg { msgA true with here := true } readyA; let q := s.m.cur; let c := q.core; let pe : BitVec 3 := 1; let o2 : Nat := 1; let x : CMsg := { msgA true with here := true }; let o : Operands := { srcs := [2] }; let v := s.reads o; let p := s.popped o; let ad := (v.x 0).toNat;
      s.runs (.crecvRow 0 2 1) o ∧ p.ownLogical c ≠ some pe.toNat ∧ p.peerCore c pe.toNat = some o2 ∧ p.anchored c o2 = true ∧ p.arrivals c = [x] ∧ x.src = o2 ∧ x.isRow = true ∧ rowFault (v.x 0) = none ∧ (s.core c).twcAt ad = false ∧ (s.core c).conflicts .seqA [bytesAt ad 1024 true] (s.ccyc c) = []) := by
  and_intros <;> first
    | decide +kernel
    | exact fun r h n => absurd ((List.mem_singleton.mp h).trans rfl) n
    | exact fun r m' l' _ w => absurd w (by rw [wait_readyA]; simp)

/-- States and operands that meet the hypotheses of EngineBlockAcceptance. -/
theorem wit_EngineBlockAcceptance :
    (let s : State := readyA; let q := s.m.cur; let c := q.core; let o : Operands := { srcs := [1] }; let v := s.reads o; let p := s.popped o;
      s.runs (.kvres 0 1) o ∧ (v.x 0).toNat + 64 ≤ 2 ^ 21 ∧ (v.x 0).toNat % 64 = 0 ∧ (p.core c).engRoom 5 = true)
    ∧ (let s : State := readyA; let q := s.m.cur; let c := q.core; let o : Operands := { srcs := [1] }; let v := s.reads o; let p := s.popped o;
      s.runs (.kvapp 0 1) o ∧ (v.x 0).toNat + 64 ≤ 2 ^ 21 ∧ (v.x 0).toNat % 64 = 0 ∧ (p.core c).engRoom 5 = true)
    ∧ (let s : State := readyA; let q := s.m.cur; let c := q.core; let o : Operands := { srcs := [1] }; let v := s.reads o; let p := s.popped o;
      s.runs (.kvret 0 1) o ∧ (v.x 0).toNat + 64 ≤ 2 ^ 21 ∧ (v.x 0).toNat % 64 = 0 ∧ (p.core c).engRoom 5 = true)
    ∧ (let s : State := readyA; let q := s.m.cur; let c := q.core; let o : Operands := { srcs := [1] }; let v := s.reads o; let p := s.popped o;
      s.runs (.kvfork 0 1) o ∧ (v.x 0).toNat + 64 ≤ 2 ^ 21 ∧ (v.x 0).toNat % 64 = 0 ∧ (p.core c).engRoom 5 = true)
    ∧ (let s : State := readyA; let q := s.m.cur; let c := q.core; let o : Operands := { srcs := [1] }; let v := s.reads o; let p := s.popped o;
      s.runs (.kvsel 0 1) o ∧ (v.x 0).toNat + 64 ≤ 2 ^ 21 ∧ (v.x 0).toNat % 64 = 0 ∧ (p.core c).engRoom 5 = true)
    ∧ (let s : State := readyA; let q := s.m.cur; let c := q.core; let o : Operands := { srcs := [1] }; let v := s.reads o; let p := s.popped o;
      s.runs (.kvgat 0 1) o ∧ (v.x 0).toNat + 64 ≤ 2 ^ 21 ∧ (v.x 0).toNat % 64 = 0 ∧ (p.core c).engRoom 5 = true)
    ∧ (let s : State := readyA; let q := s.m.cur; let c := q.core; let o : Operands := { srcs := [1] }; let v := s.reads o; let p := s.popped o;
      s.runs (.dattn 0 1) o ∧ (v.x 0).toNat + 64 ≤ 2 ^ 21 ∧ (v.x 0).toNat % 64 = 0 ∧ (p.core c).engRoom 4 = true)
    ∧ (let s : State := readyA; let q := s.m.cur; let c := q.core; let o : Operands := { srcs := [1] }; let v := s.reads o; let p := s.popped o;
      s.runs (.dattnRot 0 1) o ∧ (v.x 0).toNat + 64 ≤ 2 ^ 21 ∧ (v.x 0).toNat % 64 = 0 ∧ (p.core c).engRoom 4 = true)
    ∧ (let s : State := readyA; let q := s.m.cur; let c := q.core; let o : Operands := { srcs := [1] }; let v := s.reads o; let p := s.popped o;
      s.runs (.dbnd 0 1) o ∧ (v.x 0).toNat + 64 ≤ 2 ^ 21 ∧ (v.x 0).toNat % 64 = 0 ∧ (p.core c).engRoom 4 = true)
    ∧ (let s : State := readyA; let q := s.m.cur; let c := q.core; let o : Operands := { srcs := [1] }; let v := s.reads o; let p := s.popped o;
      s.runs (.dsum 0 1) o ∧ (v.x 0).toNat + 64 ≤ 2 ^ 21 ∧ (v.x 0).toNat % 64 = 0 ∧ (p.core c).engRoom 4 = true)
    ∧ (let s : State := readyA; let q := s.m.cur; let c := q.core; let o : Operands := { srcs := [1] }; let v := s.reads o; let p := s.popped o;
      s.runs (.tload 0 1) o ∧ (v.x 0).toNat + 320 ≤ 2 ^ 21 ∧ (v.x 0).toNat % 64 = 0 ∧ (p.core c).engRoom 3 = true)
    ∧ (let s : State := readyA; let q := s.m.cur; let c := q.core; let o : Operands := { srcs := [1] }; let p := s.popped o;
      s.runs (.segk 0 1) o ∧ (p.core c).engRoom 6 = true)
    ∧ (let s : State := readyA; let q := s.m.cur; let c := q.core; let o : Operands := { srcs := [1] }; let p := s.popped o;
      s.runs (.segr 0 1) o ∧ (p.core c).engRoom 6 = true)
    ∧ (let s : State := readyA; let q := s.m.cur; let c := q.core; let o : Operands := { srcs := [1] }; let v := s.reads o; let p := s.popped o;
      s.runs (.cht 0 1) o ∧ (v.x 0).toNat % 2 ^ 21 % 32 = 0 ∧ (p.core c).engRoom 0 = true)
    ∧ (let s : State := readyA; let q := s.m.cur; let c := q.core; let o : Operands := { srcs := [1] }; let v := s.reads o; let p := s.popped o;
      s.runs (.tcenc 0 1) o ∧ (v.x 0).toNat % 64 = 0 ∧ (p.core c).engRoom 2 = true)
    ∧ (let s : State := (readyA.onCore 0 (fun k => { k with store := [(44, 64)] })).onDie 0 (·.setReg 0x0B00 10); let q := s.m.cur; let c := q.core; let o : Operands := { srcs := [1] }; let v := s.reads o; let p := s.popped o; let r : Rec512 := BitVec.ofNat 512 (readNat (p.core c).store (v.x 0).toNat 64);
      s.runs (.iorq 0 1) o ∧ (v.x 0).toNat + 64 ≤ 2 ^ 21 ∧ (v.x 0).toNat % 64 = 0 ∧ p.eccBytes c [((v.x 0).toNat, 64)] = none ∧ ioBad r = false ∧ p.ioRoom c = true)
    ∧ (let s : State := readyA; let q := s.m.cur; let c := q.core; let o : Operands := { srcs := [1] }; let v := s.reads o; let p := s.popped o;
      s.runs (.iocan 0 1) o ∧ (p.ioSecure (dieOf c) = true → p.rom.secureCore c = true) ∧ (p.core c).engRoom 7 = true ∧ ((p.core c).engQueue 7).any (fun x => x.tag == v.x 0 && x.isIorq) = false ∧ ((p.core c).jobsOf 7).find? (fun j => j.cmd.tag == v.x 0 && j.cmd.isIorq && (j.ioStage == 1 || j.ioStage == 4)) = none)
    ∧ (let s : State := (readyA.accept 0 7 (.iorq 0 1) [0] [0]).onSeq ⟨0, .a⟩ (fun q => { q with regs := [(2, 1)] }); let q := s.m.cur; let c := q.core; let o : Operands := { srcs := [2] }; let v := s.reads o; let p := s.popped o;
      s.runs (.iocan 0 2) o ∧ (p.ioSecure (dieOf c) = true → p.rom.secureCore c = true) ∧ (p.core c).engRoom 7 = true ∧ ((p.core c).engQueue 7).any (fun x => x.tag == v.x 0 && x.isIorq) = true)
    ∧ (let s : State := readyIo; let q := s.m.cur; let c := q.core; let j : Job := ioJob; let o : Operands := { srcs := [0] }; let v := s.reads o; let p := s.popped o;
      s.runs (.iocan 0 0) o ∧ (p.ioSecure (dieOf c) = true → p.rom.secureCore c = true) ∧ (p.core c).engRoom 7 = true ∧ ((p.core c).engQueue 7).any (fun x => x.tag == v.x 0 && x.isIorq) = false ∧ ((p.core c).jobsOf 7).find? (fun j => j.cmd.tag == v.x 0 && j.cmd.isIorq && (j.ioStage == 1 || j.ioStage == 4)) = some j ∧ j.ioStage ≠ 4)
    ∧ (let j : Job := { ioJob with aux := [4] }; let s : State := readyA.onCore 0 (fun k => { k with jobs := [j] }); let q := s.m.cur; let c := q.core; let o : Operands := { srcs := [0] }; let v := s.reads o; let p := s.popped o;
      s.runs (.iocan 0 0) o ∧ (p.ioSecure (dieOf c) = true → p.rom.secureCore c = true) ∧ (p.core c).engRoom 7 = true ∧ ((p.core c).engQueue 7).any (fun x => x.tag == v.x 0 && x.isIorq) = false ∧ ((p.core c).jobsOf 7).find? (fun j => j.cmd.tag == v.x 0 && j.cmd.isIorq && (j.ioStage == 1 || j.ioStage == 4)) = some j ∧ j.ioStage = 4)
    ∧ (let s : State := worlds 411 readyA;
      s.runs (.iocan 0 1) { srcs := [1] } ∧ s.ioSecure (dieOf 0) = true ∧ s.rom.secureCore 0 = false) := by
  and_intros <;> decide +kernel

/-- States and operands that meet the hypotheses of EngineDescriptorAcceptance. -/
theorem wit_EngineDescriptorAcceptance :
    (let s : State := readyMma.withCur ⟨0, .x⟩; let q := s.m.cur; let c := q.core; let g : BitVec 4 := 0; let cd : BitVec 4 := 4; let da : BitVec 4 := 3; let db : BitVec 4 := 2; let xx : BitVec 1 := 0; let sg : BitVec 1 := 0; let t : BitVec 2 := 0; let u : BitVec 1 := 0; let vv : BitVec 1 := 0; let pe : BitVec 3 := 0; let i : BitVec 1 := 0; let r : List Word × List Rec512 := mmaOk; let o : Operands := {}; let p := s.popped o;
      s.runs (.mma 0 4 3 2 0 0 0 0 0 0 0) o ∧ mmaRecords p c cd da db = none ∧ mmaCheck p c (.mma g cd da db xx sg t u vv pe i) cd da db pe.toNat = .ok r ∧ (p.core c).engRoom 1 = true)
    ∧ (let s : State := readyA.withCur ⟨0, .x⟩; let q := s.m.cur; let c := q.core; let g : BitVec 4 := 0; let cd : BitVec 4 := 4; let da : BitVec 4 := 3; let db : BitVec 4 := 2; let xx : BitVec 1 := 0; let sg : BitVec 1 := 0; let t : BitVec 2 := 0; let u : BitVec 1 := 0; let vv : BitVec 1 := 0; let pe : BitVec 3 := 0; let i : BitVec 1 := 0; let f : FaultCode := .descriptor; let o : Operands := {}; let p := s.popped o;
      s.runs (.mma 0 4 3 2 0 0 0 0 0 0 0) o ∧ mmaRecords p c cd da db = none ∧ mmaCheck p c (.mma g cd da db xx sg t u vv pe i) cd da db pe.toNat = .error f ∧ (p.core c).engRoom 1 = true)
    ∧ (let s : State := (readyA.onCore 0 (fun k => k.setEngQueue 1 (List.replicate 64 ioJob.cmd))).withCur ⟨0, .x⟩; let q := s.m.cur; let c := q.core; let o : Operands := {}; let p := s.popped o;
      s.runs (.mma 0 4 3 2 0 0 0 0 0 0 0) o ∧ (p.core c).engRoom 1 = false)
    ∧ (let s : State := readyMma.withCur ⟨0, .x⟩; let q := s.m.cur; let c := q.core; let cd : BitVec 4 := 4; let o : Operands := {}; let p := s.popped o;
      s.runs (.mzero 0 4 0) o ∧ (p.core c).recordEcc c ((p.core c).descr cd) 0x08 = none
        ∧ cBad ((p.core c).descr cd) [0x08, 0xFF, 0x03] ((readRecord (p.core c) ((p.core c).descr cd)).getD 0 0) = false ∧ dBase ((p.core c).descr cd) + dSize ((p.core c).descr cd) 1 ≤ 1536 ∧ (p.core c).engRoom 1 = true)
    ∧ (let s : State := readyMma; let q := s.m.cur; let c := q.core; let d : BitVec 4 := 5; let k : BitVec 4 := 6; let r : List Word × List Rec512 := cpyOk; let o : Operands := {}; let p := s.popped o;
      s.runs (.cpy 0 5 6 0 0) o ∧ cpyCheck p c d k = .ok r ∧ (p.core c).engRoom 0 = true)
    ∧ (let s : State := readyMma; let q := s.m.cur; let c := q.core; let d : BitVec 4 := 5; let pe : BitVec 3 := 0; let r : List Word × List Rec512 := tbindOk; let o : Operands := {}; let p := s.popped o;
      s.runs (.tbind 0 5 0) o ∧ tbindCheck p c pe.toNat d = .ok r ∧ (p.core c).engRoom 3 = true)
    ∧ (let s : State := readyA; let q := s.m.cur; let c := q.core; let o : Operands := {}; let p := s.popped o;
      s.runs (.tgo 0) o ∧ (p.core c).engRoom 3 = true)
    ∧ (let s : State := readyA; let q := s.m.cur; let c := q.core; let o : Operands := {}; let p := s.popped o;
      s.runs (.tbar 0) o ∧ (p.core c).engRoom 3 = true)
    ∧ (let s : State := readyMma; let q := s.m.cur; let c := q.core; let d : BitVec 4 := 7; let o : Operands := { srcs := [1] }; let p := s.popped o;
      s.runs (.segi 0 7 1) o ∧ (p.core c).recordEcc c ((p.core c).descr d) (dFmt ((p.core c).descr d)) = none
        ∧ segiBad ((p.core c).descr d) ((readRecord (p.core c) ((p.core c).descr d)).getD 0 0) = false ∧ (p.core c).engRoom 6 = true)
    ∧ ([1, 2, 3, 4, 5, 6].all (fun n =>
      let d : BitVec 4 := BitVec.ofNat 4 n; let k := (badRecords.core 0).descr d; let prm := (readRecord (badRecords.core 0) k).getD 0 0
      badRecords.runs (.segi 0 d 1) { srcs := [1] } && ((badRecords.core 0).recordEcc 0 k (dFmt k)).isNone
        && [dSpace k != 3, dSpace k == 3 && dPrec k % 64 != 0, dSpace k == 3 && dPrec k == 2 ^ 21, dPrec k != 0 && recordReserved prm,
          dFmt k == 0x11 && dPrec k == 0, dFmt k == 0x11 && dPrec k != 0 && !recordReserved prm && dStride k 3 != 0].getD (n - 1) false) = true)
    ∧ ([7, 8].all (fun n =>
      let d : BitVec 4 := BitVec.ofNat 4 n; let k := (badRecords.core 0).descr d; let prm := (readRecord (badRecords.core 0) k).getD 0 0
      badRecords.runs (.tbind 0 d 0) {} && ((badRecords.core 0).recordEcc 0 k (((badRecords.popped {}).copyFmt 0 k none).getD 0xFF)).isNone
        && [dSpace k == 2, dPrec k != 0 && recordReserved prm].getD (n - 7) false) = true) := by
  and_intros <;> first | decide +kernel | exact ok_eq (by decide +kernel) | exact error_eq (by decide +kernel)

/-- States and operands that meet the hypotheses of CopyAndSegmentStatus. -/
theorem wit_CopyAndSegmentStatus :
    readyA.runs (.chs 0 1) { dst := some 1, lat := 2 } = true
    ∧ readyA.runs (.segt 0 1) { dst := some 1, lat := 2 } = true
    ∧ (let s : State := withLoc; let q := s.m.cur; let c := q.core; let o : Operands := { srcs := [2] }; let v := s.reads o; let p := s.popped o;
      s.runs (.segw 0 2) o ∧ (p.die (dieOf c)).segAnswer (dieOf c) (v.x 0) = .holds)
    ∧ (let s : State := withS 2 0x100000000 (ringOn (fun r => { r with segtPa := 64 }) (readyA.onDie 0 (fun d => { d with dome := writeNat [] 64 16 (4096 * 2 ^ 96) }))); let q := s.m.cur; let c := q.core; let o : Operands := { srcs := [2] }; let v := s.reads o; let p := s.popped o;
      s.runs (.segw 0 2) o ∧ (p.die (dieOf c)).segAnswer (dieOf c) (v.x 0) = .waits)
    ∧ (let s : State := readyA; let q := s.m.cur; let c := q.core; let f : FaultInfo := { code := .engine }; let o : Operands := { srcs := [2] }; let v := s.reads o; let p := s.popped o;
      s.runs (.segw 0 2) o ∧ (p.die (dieOf c)).segAnswer (dieOf c) (v.x 0) = .stops f) := by
  and_intros <;> decide +kernel

/-- States and operands that meet the hypotheses of ResetAndBoot. -/
theorem wit_ResetAndBoot :
    (let s : State := { State.reset with rom := { Rom.init with held := true } };
      s.rom.held = true)
    ∧ (let s : State := bootB;
      s.rom.held = false)
    ∧ (let s : State := State.reset; let g : Nat := 15;
      s.rom.held = false ∧ g < s.rom.variant.ndie ∧ g ∉ s.rom.sram)
    ∧ (let s : State := bootB; let g : Nat := 2; let link : Link := .spanIn; let ok : Bool := true;
      s.trainDue g link true 0 1 2 = true ∧ ok = true)
    ∧ (let s : State := bootB; let g : Nat := 2; let link : Link := .chordOut; let ok : Bool := false;
      s.trainDue g link false 0 1 2 = true ∧ ok = false)
    ∧ (let s : State := bootC; let g : Nat := 0; let src : ImageSource := .host; let image : List Byte := [1, 2];
      s.relayDue g src image = true)
    ∧ (∀ image : List Byte, Rom.init.accepts image = true →
      let s : State := { bootC with rom := { bootC.rom with images := [(0, image)] } };
      s.verifyDue 0 = true ∧ s.bootImage 0 = some image ∧ s.rom.accepts image = true ∧ 64 ≤ bootLen image)
    ∧ (let s : State := bootD; let g : Nat := 0;
      s.verifyDue g = true ∧ (s.bootImage g).all (fun l => !s.rom.accepts l) = true)
    ∧ (let s : State := bootB.onDie 15 (fun d => { d with keyc := 1024 }); let g : Nat := 15; let tj : BitVec 16 := 0x3700;
      s.rom.held = false ∧ g < s.rom.variant.ndie ∧ (s.die g).thermAt ≤ (s.die g).keyc ∧ 110 * 128 ≤ tj.toInt)
    ∧ (let s : State := bootB.onDie 15 (fun d => { d with keyc := 1024 }); let g : Nat := 15; let tj : BitVec 16 := 0x36FF;
      s.rom.held = false ∧ g < s.rom.variant.ndie ∧ (s.die g).thermAt ≤ (s.die g).keyc ∧ tj.toInt < 110 * 128) := by
  and_intros <;> first | decide +kernel | exact fun image h => ⟨verifyDue_image image, rfl, h, by simp [Rom.accepts] at h; omega⟩

/-- States and operands that meet the hypotheses of RegisterAndQueueWrites. -/
theorem wit_RegisterAndQueueWrites :
    (let s : State := (readyA.setQreg 0x0428 0xC0000004); let q : BitVec 4 := 2; let secure : Bool := false;
      (s.qreg (0x0408 + 16 * q.toNat)).getLsbD 31 = true ∧ secure = false)
    ∧ (let s : State := (readyA.setQreg 0x0428 0xC0000004); let q : BitVec 4 := 2; let value : Word := 15; let secure : Bool := true;
      ((s.qreg (0x0408 + 16 * q.toNat)).getLsbD 31 = true → secure = true) ∧ s.sqEn q.toNat = true ∧ bits value 15 0 < 2 ^ s.sqLog q.toNat)
    ∧ (let s : State := (readyA.setQreg 0x0428 0xC0000004); let q : BitVec 4 := 2; let value : Word := 16; let secure : Bool := true;
      ((s.qreg (0x0408 + 16 * q.toNat)).getLsbD 31 = true → secure = true) ∧ (¬(s.sqEn q.toNat = true ∧ bits value 15 0 < 2 ^ s.sqLog q.toNat)))
    ∧ (let s : State := (readyA.setQreg 0x0608 0x80000004); let value : Word := 16;
      2 ^ bits (s.qreg 0x0608) 4 0 ≤ value.toNat)
    ∧ (let s : State := (readyA.setQreg 0x0608 0x80000004); let value : Word := 15;
      value.toNat < 2 ^ bits (s.qreg 0x0608) 4 0)
    ∧ (let s : State := readyA; let g : Nat := 15; let value : Word := 0;
      g < s.rom.variant.ndie ∧ value.toNat < 2 ^ (s.die g).fqLog)
    ∧ (let s : State := (readyA.onDie 15 (fun d => d.setReg 0x0A08 4)); let g : Nat := 15; let value : Word := 16;
      g < s.rom.variant.ndie ∧ 2 ^ (s.die g).fqLog ≤ value.toNat)
    ∧ (let s : State := readyA; let g : Nat := 16;
      s.rom.variant.ndie ≤ g)
    ∧ (let s : State := readyA; let g : Nat := 15; let off : BitVec 16 := 0x0108; let wr : Writer := .lantern;
      g < s.rom.variant.ndie ∧ s.reaches g wr = true ∧ off.toNat % 8 = 0)
    ∧ (let s : State := readyA; let g : Nat := 15; let off : BitVec 16 := 0x0109; let wr : Writer := .lantern;
      g < s.rom.variant.ndie ∧ (s.reaches g wr = false ∨ off.toNat % 8 ≠ 0))
    ∧ (let s : State := readyA; let g : Nat := 15;
      g < s.rom.variant.ndie)
    ∧ (let s : State := spokeA; let g : Nat := 4; let msg : Option SpokeIn := none;
      g < s.rom.variant.ndie ∧ g % 4 = 0 ∧ s.trained g .spoke = true ∧ msg = none)
    ∧ (let s : State := spokeA; let g : Nat := 0; let msg : Option SpokeIn := (some (.tail 3 1)); let sq : BitVec 4 := 3; let v : Word := 1;
      0 < s.rom.variant.ndie ∧ s.trained 0 .spoke = true ∧ g = 0 ∧ msg = some (.tail sq v))
    ∧ (let s : State := spokeA; let g : Nat := 4; let msg : Option SpokeIn := (some (.reg 0x0108 0)); let off : BitVec 16 := 0x0108; let v : Word := 0;
      g < s.rom.variant.ndie ∧ g % 4 = 0 ∧ s.trained g .spoke = true ∧ msg = some (.reg off v))
    ∧ (let s : State := timerA;
      0 < s.m.lead.unsignalled ∧ s.m.lead.firstAt + 2 ^ 16 ≤ (s.die s.m.lead.die).keyc)
    ∧ (let s : State := (readyA.onDie 0 (·.setReg 0x0920 1)); let g : Nat := 0;
      (s.die g).kvEn = true)
    ∧ (let s : State := mapped readyA; let g : Nat := 0; let va : Word := 0; let leaf : Word := 0; let key : Nat := 0;
      (s.die g).leafKey va.toNat = some key ∧ leafFixed (tabGet 0 key (s.die g).tlb) ≠ leafFixed leaf)
    ∧ (let s : State := mapped readyA; let g : Nat := 0; let va : Word := 0; let leaf : Word := tlbLeaf; let key : Nat := 0;
      (s.die g).leafKey va.toNat = some key ∧ leafFixed (tabGet 0 key (s.die g).tlb) = leafFixed leaf ∧ (bits va 63 62 ≠ 1 → lPpn leaf + (if lG leaf then 31 else 0) ≤ 0x3FFF) ∧ (lG leaf = true → lPpn leaf % 32 = 0) ∧ (bits va 63 62 = 1 → lA leaf = false ∧ lRap leaf = false) ∧ (if lA leaf then (s.localDie (lTarget leaf)).isSome = true else lTarget leaf = 0) ∧ s.attrClash g key leaf (some (g, key)) = false)
    ∧ (let s : State := mappedBig readyA; let g : Nat := 0; let va : Word := 0; let leaf : Word := 0xB0000000000000C0; let key : Nat := 0;
      (s.die g).leafKey va.toNat = some key ∧ leafFixed (tabGet 0 key (s.die g).tlb) = leafFixed leaf ∧ bits va 63 62 ≠ 1 ∧ lPpn leaf + (if lG leaf then 31 else 0) ≤ 0x3FFF ∧ lG leaf = true ∧ lPpn leaf % 32 = 0 ∧ (if lA leaf then (s.localDie (lTarget leaf)).isSome = true else lTarget leaf = 0) ∧ s.attrClash g key leaf (some (g, key)) = false)
    ∧ (let s : State := readyA.onDie 0 (fun d => { d with tlb := [(2 ^ 46, tlbLeaf)] }); let g : Nat := 0; let va : Word := BitVec.ofNat 64 (2 ^ 62); let leaf : Word := tlbLeaf; let key : Nat := 2 ^ 46;
      (s.die g).leafKey va.toNat = some key ∧ leafFixed (tabGet 0 key (s.die g).tlb) = leafFixed leaf ∧ bits va 63 62 = 1 ∧ lA leaf = false ∧ lRap leaf = false ∧ lG leaf = false ∧ lTarget leaf = 0 ∧ s.attrClash g key leaf (some (g, key)) = false)
    ∧ (let s : State := readyA.onDie 0 (fun d => { d with tlb := [(2 ^ 46, tlbLeaf)] }); let g : Nat := 0; let va : Word := BitVec.ofNat 64 (2 ^ 62); let key : Nat := 2 ^ 46;
      (s.die g).leafKey va.toNat = some key ∧ bits va 63 62 = 1 ∧ lA (tlbLeaf ||| 0x0400000000000000) = false ∧ lRap (tlbLeaf ||| 0x0400000000000000) = true) := by
  and_intros <;> decide +kernel

/-- States and operands that meet the hypotheses of FaultHandling. -/
theorem wit_FaultHandling :
    (let s : State := faultSt; let g : Nat := 0; let f : FaultRec := faultA;
      (s.die g).fqRoom = true ∧ (s.die g).heldFaults.head? = some f)
    ∧ (let s : State := readyA; let g : Nat := 0;
      ((s.die g).fqRoom = false ∨ (s.die g).heldFaults = []))
    ∧ (let s : State := readyA; let g : Nat := 0; let fseq : BitVec 32 := 9;
      ((s.die g).openFault fseq.toNat).all (fun f => !s.actionOk f 0) = true)
    ∧ (let s : State := readyA; let g : Nat := 0; let fseq : BitVec 32 := 9;
      ((s.die g).openFault fseq.toNat).all (fun f => !s.actionOk f 1) = true)
    ∧ (let s : State := readyA; let g : Nat := 0; let fseq : BitVec 32 := 9;
      ((s.die g).openFault fseq.toNat).all (fun f => !s.actionOk f 2) = true)
    ∧ (let s : State := readyA; let g : Nat := 0; let fseq : BitVec 32 := 9;
      ((s.die g).openFault fseq.toNat).all (fun f => !s.actionOk f 3) = true)
    ∧ (let s : State := openSt; let g : Nat := 0; let fseq : BitVec 32 := 0; let f : FaultRec := faultA;
      (s.die g).openFault fseq.toNat = some f ∧ s.actionOk f 0 = true ∧ f.code ≠ 0x0B ∧ f.code ≠ 0x0E ∧ (s.core f.core).running = f.ofRec)
    ∧ (let x : Cmd := cmdOf (.mzero 0 4 1) [] []; let s : State := (openFor 0x0B).onCore 0 (fun k => k.setEngQueue 1 [x]); let f : FaultRec := faultOf 0x0B;
      (s.die 0).openFault 0 = some f ∧ s.actionOk f 0 = true ∧ f.code = 0x0B ∧ (s.core f.core).engQueue 1 = x :: [] ∧ f.ofRec = some x.ofRec)
    ∧ (let j : Job := { jobOf 0 (cmdOf (.cpy 0 5 6 0 0) [] []) [] with st := .faulted }; let s : State := (openFor 0x0E).onCore 0 (fun k => { k with jobs := [j] });
      let f : FaultRec := { faultOf 0x0E with job := some 0 }; let s : State := s.onDie 0 (fun d => { d with openFaults := [f] });
      (s.die 0).openFault 0 = some f ∧ s.actionOk f 0 = true ∧ f.code = 0x0E ∧ (s.core f.core).jobs.any (fun j => j.eng = 0 && some j.id = f.job && j.st = .faulted) = true)
    ∧ (let s : State := openSt; let g : Nat := 0; let fseq : BitVec 32 := 0; let f : FaultRec := faultA;
      (s.die g).openFault fseq.toNat = some f ∧ s.actionOk f 1 = true)
    ∧ (let s : State := openSt; let g : Nat := 0; let fseq : BitVec 32 := 0; let f : FaultRec := faultA;
      (s.die g).openFault fseq.toNat = some f ∧ s.actionOk f 2 = true)
    ∧ (let s : State := openSt; let g : Nat := 0; let fseq : BitVec 32 := 0; let f : FaultRec := faultA; let n : Nat := 0;
      (s.die g).openFault fseq.toNat = some f ∧ s.actionOk f 2 = true ∧ f.ofRec = some n)
    ∧ (let s : State := openSt; let g : Nat := 0; let fseq : BitVec 32 := 0; let f : FaultRec := faultA; let n : Nat := 0; let r : Rec := recA; let p : State := s.onDie g (fun d => { d with openFaults := d.openFaults.filter (fun x => bits x.raw 127 96 ≠ fseq.toNat) });
      (s.die g).openFault fseq.toNat = some f ∧ s.actionOk f 3 = true ∧ f.ofRec = some n ∧ p.record? n = some r ∧ ((p.killRec n f.code).launch? r.launch).map (·.active) = some true)
    ∧ (let s : State := bootB; let tg : ScrubTarget := (.store 511); let addr : Nat := (2 ^ 21 - 8);
      scrubDie tg < s.rom.variant.ndie ∧ addr < scrubSize tg ∧ s.rom.held = false ∧ s.rom.sram.contains (scrubDie tg) = true ∧ s.scrubIdle tg addr = true ∧ s.wordBad tg addr = false)
    ∧ (let s : State := bootB.onDie 15 (fun d => { d with bad := [2] }); let tg : ScrubTarget := (.dome 15); let addr : Nat := 16;
      scrubDie tg < s.rom.variant.ndie ∧ addr < scrubSize tg ∧ s.rom.held = false ∧ s.rom.sram.contains (scrubDie tg) = true ∧ s.scrubIdle tg addr = true ∧ s.wordBad tg addr = true)
    ∧ (let s : State := readyA; let word : BitVec 32 := 0; let f : FaultCode := .illegal;
      wordFault word s.m.cur.side (s.seq s.m.cur) s.rom.variant = some f ∧ s.canIssue s.m.cur = true)
    ∧ (let s : State := readyA; let word : BitVec 32 := 0x00800000;
      wordFault word s.m.cur.side (s.seq s.m.cur) s.rom.variant = none) := by
  and_intros <;> decide +kernel

/-- States and operands that meet the hypotheses of ClusterEvents. -/
theorem wit_ClusterEvents :
    (let s : State := frozenBy ⟨4, 0, none, some 5, 0⟩ (due (.post 3)); let c : Nat := 0;
      s.latencyDue c = true ∧ s.frozen (clusterOf c) = true)
    ∧ (let s : State := due (.sreg .a 4); let c : Nat := 0; let p : State := s.onCore c (·.commitDue (s.ccyc c) (s.keyc c) false);
      s.latencyDue c = true ∧ s.frozen (clusterOf c) = false ∧ p.trussCanAdvance c = false ∧ p.walkerNext c = none ∧ (p.core c).segkDone (s.ccyc c) = none)
    ∧ (let s : State := due (.sreg .a 4); let c : Nat := 0; let due : Nat := 0; let r : Nat := 4; let sd : Side := .a; let v : Row := 7;
      (s.core c).duePends (s.ccyc c) (s.keyc c) false = [⟨due, .sreg sd r, v⟩] ∧ s.frozen (clusterOf c) = false)
    ∧ (let s : State := waits (.counter 9 0) readyA; let q : SeqId := ⟨0, .a⟩;
      s.waitEnds q = true)
    ∧ (let s : State := waits (.counter 9 0) readyA; let q : SeqId := ⟨0, .a⟩; let k : Nat := 9; let v : Word := 0;
      (s.seq q).wait = some (.counter k v) ∧ v.toNat ≤ ((s.core q.core).counter k).toNat ∧ s.frozen (clusterOf q.core) = false ∧ (s.core q.core).running.isSome = true ∧ (s.core q.core).stopAt = none)
    ∧ (let s : State := waits (.counter 9 1) readyA; let q : SeqId := ⟨0, .a⟩; let k : Nat := 9; let v : Word := 1;
      (s.seq q).wait = some (.counter k v) ∧ ((s.core q.core).counter k).toNat < v.toNat)
    ∧ (let s : State := replySt; let c : Nat := 0; let p : Reply := replyA;
      s.frozen (clusterOf c) = false ∧ s.replyDue c = some p)
    ∧ (let s : State := withMsg (msgA false) readyA; let c : Nat := 0;
      s.messageDue c = true)
    ∧ (let s : State := lateSt; let cl : Nat := 0;
      s.lateCauses cl ≠ [])
    ∧ (let s : State := readyA; let cl : Nat := 0;
      s.lateCauses cl = [])
    ∧ (let s : State := frozenBy ⟨4, 0, none, some 5, 0⟩ readyA; let cl : Nat := 0;
      s.frozen cl = true ∧ (s.cluster cl).causes.all s.causeEnded = true ∧ (∀ f ∈ (s.cluster cl).causes, f.served = false ∧ s.causeOver f = true))
    ∧ (let s : State := (frozenBy ⟨4, 0, none, some 5, 0⟩ lateSt).onCore 0 (fun k => { k with stopAt := some 0 }); let cl : Nat := 0;
      s.frozen cl = true ∧ (s.cluster cl).causes.all s.causeEnded = true ∧ (s.cluster cl).causes.all s.causeOver = false)
    ∧ (let l : List Freeze := [⟨4, 0, none, some 5, 0⟩]; ∃ f ∈ l, f.cause = 4 ∧ f.req = some 5)
    ∧ (let s : State := dogSt; let cl : Nat := 0;
      s.frozen cl = true ∧ s.flim cl < (s.cluster cl).frozenFor ∧ (s.cluster cl).causes.all (fun f => !s.causeStopped f) = true) := by
  and_intros <;> decide +kernel

/-- States and operands that meet the hypotheses of OwnerEvents. -/
theorem wit_OwnerEvents :
    (let s : State := excl [1] (withReq (reqA .sent [(0, 1)]) readyA); let src : Nat := 0; let dst : Nat := 1; let r : Req := reqA .sent [(0, 1)]; 
      s.m.reqs.find? (fun r => r.src = src && r.owner = dst && r.at_ = .sent) = some r ∧ s.m.excluded.contains dst = true)
    ∧ (let s : State := withReq reqB readyA; let src : Nat := 1; let dst : Nat := 1; let r : Req := reqB; let p : State := if src ≠ dst ∧ r.op.writes = true then s.onDie dst (·.heard src (tabGet 0 src r.clock)) else s;
      s.m.reqs.find? (fun r => r.src = src && r.owner = dst && r.at_ = .sent) = some r ∧ s.m.excluded.contains dst = false ∧ (s.route src dst).isSome = true ∧ p.covered dst src r.clock = true ∧ p.behindHeld r = false ∧ p.takeWaits r = false)
    ∧ (let s : State := withReq (reqA .sent [(0, 1)]) linked; let src : Nat := 0; let dst : Nat := 1; let r : Req := reqA .sent [(0, 1)]; let p : State := if src ≠ dst ∧ r.op.writes = true then s.onDie dst (·.heard src (tabGet 0 src r.clock)) else s;
      s.m.reqs.find? (fun r => r.src = src && r.owner = dst && r.at_ = .sent) = some r ∧ s.m.excluded.contains dst = false ∧ (s.route src dst).isSome = true ∧ p.covered dst src r.clock = true ∧ p.behindHeld r = false ∧ p.takeWaits r = false)
    ∧ (let s : State := withReq (reqA .sent [(0, 1), (2, 5)]) linked; let src : Nat := 0; let dst : Nat := 1; let r : Req := reqA .sent [(0, 1), (2, 5)]; let p : State := if src ≠ dst ∧ r.op.writes = true then s.onDie dst (·.heard src (tabGet 0 src r.clock)) else s;
      s.m.reqs.find? (fun r => r.src = src && r.owner = dst && r.at_ = .sent) = some r ∧ s.m.excluded.contains dst = false ∧ (s.route src dst).isSome = true ∧ p.covered dst src r.clock = false)
    ∧ (let s : State := { linked with m := { linked.m with reqs := [{ reqA .clockHeld [] with id := 4 }, reqA .sent []] } }; let src : Nat := 0; let dst : Nat := 1; let r : Req := reqA .sent []; let p : State := if src ≠ dst ∧ r.op.writes = true then s.onDie dst (·.heard src (tabGet 0 src r.clock)) else s;
      s.m.reqs.find? (fun r => r.src = src && r.owner = dst && r.at_ = .sent) = some r ∧ s.m.excluded.contains dst = false ∧ (s.route src dst).isSome = true ∧ p.behindHeld r = true)
    ∧ (let s : State := (withReq (reqA .sent []) (linked.onDie 1 (fun d => { d with tlb := [(0, tlbLeaf)] }))).onCore 0 (fun k => { k with sideLog := List.replicate 16 { sideA with req := 1 } }); let src : Nat := 0; let dst : Nat := 1; let r : Req := reqA .sent []; let p : State := if src ≠ dst ∧ r.op.writes = true then s.onDie dst (·.heard src (tabGet 0 src r.clock)) else s;
      s.m.reqs.find? (fun r => r.src = src && r.owner = dst && r.at_ = .sent) = some r ∧ s.m.excluded.contains dst = false ∧ (s.route src dst).isSome = true ∧ p.logWaits r = true)
    ∧ (let s : State := withReq (reqA .sent []) readyA; let src : Nat := 0; let dst : Nat := 1; let r : Req := reqA .sent []; 
      s.m.reqs.find? (fun r => r.src = src && r.owner = dst && r.at_ = .sent) = some r ∧ s.m.excluded.contains dst = false ∧ s.route src dst = none)
    ∧ (let s : State := mapped readyA; let r : Req := reqS;
      s.joinsLog r = false ∧ s.ownerCheck r.owner r.src (s.rom.secureCore r.core) r.op.needs.1 r.op.needs.2.1 r.op.needs.2.2 r.va.toNat = .ok tlbLeaf ∧ (s.die r.owner).pierPending r.va.toNat = false ∧ lA tlbLeaf = false)
    ∧ readyA.ownerCheck reqB.owner reqB.src (readyA.rom.secureCore reqB.core) reqB.op.needs.1 reqB.op.needs.2.1 reqB.op.needs.2.2 reqB.va.toNat = .error .xlateMiss
    ∧ (let s : State := sideSt; let r : Req := { reqS with id := 6 };
      s.ownerCheck r.owner r.src (s.rom.secureCore r.core) r.op.needs.1 r.op.needs.2.1 r.op.needs.2.2 r.va.toNat = .ok tlbLeaf ∧ s.joinsLog r = true)
    ∧ (let s : State := withReq (reqA .clockHeld [(0, 1)]) readyA; let src : Nat := 0; let dst : Nat := 1; let r : Req := reqA .clockHeld [(0, 1)]; 
      s.m.reqs.find? (fun r => r.src = src && r.owner = dst && r.at_ = .clockHeld) = some r ∧ s.covered dst src r.clock = true ∧ s.takeWaits r = false)
    ∧ (let s : State := withReq (reqA .clockHeld [(2, 5)]) readyA; let src : Nat := 0; let dst : Nat := 1; let r : Req := reqA .clockHeld [(2, 5)]; 
      s.m.reqs.find? (fun r => r.src = src && r.owner = dst && r.at_ = .clockHeld) = some r ∧ s.covered dst src r.clock = false)
    ∧ (let s : State := (withReq (reqA .clockHeld []) readyA).onDie 1 (fun d => { d with tlb := [(0, tlbLeaf)], rewrites := [(0, tlbLeaf)] }); let src : Nat := 0; let dst : Nat := 1; let r : Req := reqA .clockHeld []; 
      s.m.reqs.find? (fun r => r.src = src && r.owner = dst && r.at_ = .clockHeld) = some r ∧ s.takeWaits r = true)
    ∧ (let s : State := withReq (reqA (.forwarded 2 64) []) linked; let src : Nat := 1; let dst : Nat := 2; let r : Req := reqA (.forwarded 2 64) []; let pa : Nat := 64;
      s.m.reqs.find? (fun r => r.owner = src && (match r.at_ with | .forwarded d _ => d = dst | _ => false)) = some r ∧ r.at_ = .forwarded dst pa ∧ (s.route src dst).isSome = true)
    ∧ (let s : State := clockSt; let g : Nat := 1;
      tabGet 0 g (s.die g).vc ≠ (s.die g).beaconed)
    ∧ (let s : State := beaconSt; let src : Nat := 1; let dst : Nat := 0; let b : Beacon := ⟨1, 0, 1⟩;
      s.beaconReady src dst = some b)
    ∧ (let s : State := excl [0] sideSt; let c : Nat := 0; let e : SideEntry := sideA; let r : Req := reqS;
      (s.core c).replaying = some e ∧ s.m.reqs.find? (fun r => r.id = e.req && r.at_ = .logged) = some r ∧ s.m.excluded.contains r.owner = true)
    ∧ (let s : State := sideSt; let c : Nat := 0; let e : SideEntry := sideA; let r : Req := reqS;
      (s.core c).replaying = some e ∧ s.m.reqs.find? (fun r => r.id = e.req && r.at_ = .logged) = some r ∧ s.m.excluded.contains r.owner = false ∧ r.owner = dieOf c ∧ s.behindSent r = false ∧ s.rewriteWaits r.owner r.va.toNat = false)
    ∧ (let s : State := farSide; let c : Nat := 0; let e : SideEntry := sideA; let r : Req := reqA .logged []; let p : State := if r.op.writes then s.onDie (dieOf c) (·.tickClock (dieOf c)) else s;
      (s.core c).replaying = some e ∧ s.m.reqs.find? (fun r => r.id = e.req && r.at_ = .logged) = some r ∧ s.m.excluded.contains r.owner = false ∧ r.owner ≠ dieOf c ∧ (s.route (dieOf c) r.owner).isSome = true ∧ s.behindSent r = false ∧ s.rewriteWaits r.owner r.va.toNat = false ∧ s.covered r.owner (dieOf c) (p.die (dieOf c)).vc = true)
    ∧ (let s : State := { farSide with m := { farSide.m with reqs := [reqA .logged [], { reqA .sent [] with id := 4 }] } }; let c : Nat := 0; let e : SideEntry := sideA; let r : Req := reqA .logged [];
      (s.core c).replaying = some e ∧ s.m.reqs.find? (fun r => r.id = e.req && r.at_ = .logged) = some r ∧ s.m.excluded.contains r.owner = false ∧ s.behindSent r = true)
    ∧ (let s : State := sideSt.onDie 0 (fun d => { d with rewrites := [(0, tlbLeaf)] }); let c : Nat := 0; let e : SideEntry := sideA; let r : Req := reqS;
      (s.core c).replaying = some e ∧ s.m.reqs.find? (fun r => r.id = e.req && r.at_ = .logged) = some r ∧ s.m.excluded.contains r.owner = false ∧ s.rewriteWaits r.owner r.va.toNat = true) := by
  and_intros <;> first | decide +kernel | exact ok_eq (by decide +kernel) | exact error_eq (by decide +kernel)

/-- States and operands that meet the hypotheses of SchedulerEvents. -/
theorem wit_SchedulerEvents :
    (let s : State := idle { recA with state := .ready }; let c : Nat := 0; let n : Nat := 0; let r : Rec := { recA with state := .ready };
      s.frozen (clusterOf c) = false ∧ (s.core c).running = none ∧ s.best c = some (n, r) ∧ (s.launch? r.launch).isSome = true ∧ r.fresh = true)
    ∧ (let s : State := mapped (idle { recA with state := .ready, fresh := false });
      let r : Rec := { recA with state := .ready, fresh := false };
      s.frozen (clusterOf 0) = false ∧ (s.core 0).running = none ∧ s.best 0 = some (0, r) ∧ (s.launch? r.launch).isSome = true
        ∧ r.fresh = false ∧ ∃ ctx, s.readDome (dieOf 0) (s.rom.secureCore 0) (bits r.raw 511 448) (ctxLen r.raw) = .ok ctx)
    ∧ (let s : State := retireSt; let c : Nat := 0; let n : Nat := 0; let r : Rec := recA;
      s.frozen (clusterOf c) = false ∧ s.canRetire c = true ∧ s.runningRec c = some (n, r))
    ∧ (let s : State := saveSt true; let c : Nat := 0; let n : Nat := 0; let r : Rec := { recA with cancel := true };
      s.frozen (clusterOf c) = false ∧ s.canSave c = true ∧ s.runningRec c = some (n, r) ∧ r.cancel = true)
    ∧ (let s : State := saveSt false;
      s.frozen (clusterOf 0) = false ∧ s.canSave 0 = true ∧ s.runningRec 0 = some (0, recA) ∧ recA.cancel = false
        ∧ ((s.launch? recA.launch).bind (·.tearing)).isSome = false ∧ s.ctxEcc 0 recA = none
        ∧ ∃ p, s.writeDome (dieOf 0) (s.rom.secureCore 0) (bits recA.raw 511 448) (s.context 0 recA) = .ok p)
    ∧ (let s : State := limitSt; let c : Nat := 0;
      s.limitDue c = true)
    ∧ (let s : State := readyA.setRecord 0 waitRec; let n : Nat := 0; let r : Rec := waitRec; let k : Nat := 2; let v : Word := 0;
      s.record? n = some r ∧ r.state = .waiting ∧ r.cond = some (.counter k v) ∧ v.toNat ≤ ((s.core r.core).counter k).toNat)
    ∧ (let s : State := readyA.setRecord 0 { waitRec with cond := some (.counter 2 1) }; let n : Nat := 0; let r : Rec := { waitRec with cond := some (.counter 2 1) }; let k : Nat := 2; let v : Word := 1;
      s.record? n = some r ∧ r.cond = some (.counter k v) ∧ ((s.core r.core).counter k).toNat < v.toNat)
    ∧ (let s : State := atKeyc 5 (readyA.setRecord 0 { recA with deadline := 1 }); let n : Nat := 0; let r : Rec := { recA with deadline := 1 };
      s.record? n = some r ∧ s.turnsLate r = true)
    ∧ (let s : State := tileSt; let g : Nat := 0; let i : Inst := instA;
      (s.die g).ring.undispatched = some i ∧ ((s.die g).reg 0x0700).getLsbD 0 = false)
    ∧ (let s : State := tileSt; let g : Nat := 0; let i : Inst := instA;
      (s.die g).ring.undispatched = some i)
    ∧ (((batchSt tagImage []).die 0).ring.undispatched = some instA ∧ (((batchSt tagImage []).die 0).reg 0x0700).getLsbD 0 = true)
    ∧ ((batchSt slotImage []).image? 0 = some slotImage ∧ (dispatchOf (batchSt slotImage [])).1 = [])
    ∧ ((batchSt tagImage []).image? 0 = some tagImage ∧ (dispatchOf (batchSt tagImage [])).1 ≠ [] ∧ (dispatchOf (batchSt tagImage [])).2.1 = [])
    ∧ (let s : State := atKeyc 1 (batchSt tagImage [0, 1]);
      s.image? 0 = some tagImage ∧ (dispatchOf s).1 ≠ [] ∧ (dispatchOf s).2.1 = [0, 1] ∧ (s.slotBad launchA 0 0).or (s.slotBad launchA 0 1) = none
        ∧ (dispatchOf s).2.2.2 < (s.die 0).keyc + 0)
    ∧ (let s : State := batchSt tagImage [0, 1];
      s.image? 0 = some tagImage ∧ (dispatchOf s).1 ≠ [] ∧ (dispatchOf s).2.1 = [0, 1] ∧ (s.slotBad launchA 0 0).or (s.slotBad launchA 0 1) = none
        ∧ (dispatchOf s).2.2.1 = 1 ∧ (s.die 0).keyc + 0 ≤ (dispatchOf s).2.2.2 ∧ (s.die 0).ring.seg? 0 0 = some instA) := by
  and_intros <;> first
    | decide +kernel
    | (apply readDome_at (b := false) <;> first | decide +kernel | (constructor <;> decide +kernel))
    | (apply writeDome_at (b := false) <;> first | decide +kernel | (constructor <;> decide +kernel))

/-- States and operands that meet the hypotheses of ViaductEvents. -/
theorem wit_ViaductEvents :
    (let d : Die := slotSt.die 0;
      d.slotDue = true ∧ d.ring.held = false ∧ d.ring.inserts = [] ∧ d.ring.occupancy < d.dwell)
    ∧ (let d : Die := (ringOn (fun r => { r with held := true }) slotSt).die 0;
      d.slotDue = true ∧ d.ring.held = true)
    ∧ (let s : State := fullSt; let d : Die := s.die 0;
      d.slotDue = true ∧ d.ring.held = false ∧ d.ring.inserts = [] ∧ d.dwell ≤ d.ring.occupancy ∧ d.vctl 8 = false
        ∧ s.downstream 0 = some (1, .spanIn) ∧ 1 ≠ 0)
    ∧ (let d : Die := (ringOn (fun r => { r with inserts := [insA false] }) slotSt).die 0;
      d.slotDue = true ∧ d.ring.held = false ∧ d.ring.inserts = insA false :: [] ∧ d.mayInsert (insA false) = true)
    ∧ (let x : Insertion := { insA true with sent := 1 }; let s : State := ringOn (fun r => { r with inserts := [x] }) slotSt;
      (s.die 0).mayInsert x = true ∧ s.insertReady 0 x = false)
    ∧ (let x : Insertion := insA false; let s : State := ringOn (fun r => { r with inserts := [x] }) slotSt;
      (s.die 0).mayInsert x = true ∧ s.insertReady 0 x = true ∧ s.insertFault 0 x = some { code := .xlateMiss, acc := 1 })
    ∧ (let x : Insertion := { insA true with sent := 1, staged := 1 }; let s : State := mapped (ringOn (fun r => { r with inserts := [x] }) slotSt);
      (s.die 0).mayInsert x = true ∧ s.insertReady 0 x = true ∧ s.insertFault 0 x = none)
    ∧ (let d : Die := (ringOn (fun r => { r with inserts := [insA false] }) fullSt).die 0;
      d.slotDue = true ∧ d.ring.held = false ∧ d.ring.inserts = insA false :: [] ∧ d.mayInsert (insA false) = false)
    ∧ (readyA.die 0).slotDue = false
    ∧ (let d : Die := (arriving 1).die 0; let b : Beat := beatA 1;
      d.arrived = some b ∧ b.kind = 1 ∧ (d.headerChecks b.head ≠ (false, false) ∨ hTag b.head ≠ 0))
    ∧ (let d : Die := (arriving 2).die 0; let b : Beat := beatA 2;
      d.arrived = some b ∧ b.kind = 2
        ∧ d.ring.insts.getLast?.all (fun i => decide (i.written + 1 < i.beats) || decide (i.beats ≤ i.written)) = true)
    ∧ (let d : Die := (ringOn (fun r => { r with holdIn := [(0, 3)] }) slotSt).die 0;
      d.ring.holdIn = (0, 3) :: [] ∧ 0 ≤ d.keyc)
    ∧ ((ringOn (fun r => { r with holdRun := 2 ^ 20 + 1, insts := [instA], written := 2, sent := 1 })
      (slotSt.onDie 0 (·.setReg 0x0210 (BitVec.ofNat 64 (31 * 2 ^ 38 + 0x1000005))))).die 0).holdDue = true
    ∧ (let s : State := segSt segkCmd;
      s.frozen (clusterOf 0) = false ∧ (s.core 0).nextItem 6 (s.ccyc 0) = some segkCmd ∧ (s.die (dieOf 0)).cardRoom = true
        ∧ (s.rom.secureUnit (dieOf 0) 409 = true → s.rom.secureCore 0 = true) ∧ segkCmd.ins = .segk 0 1
        ∧ bits (segkCmd.vals.getD 0 0) 62 48 = 0 ∧ (segkCmd.vals.getD 0 0).getLsbD 63 = false
        ∧ (s.die (dieOf 0)).ring.seg? (bits (segkCmd.vals.getD 0 0) 15 0) (bits (segkCmd.vals.getD 0 0) 47 16) = some instA)
    ∧ (let s : State := segSt segrCmd;
      s.frozen (clusterOf 0) = false ∧ (s.core 0).nextItem 6 (s.ccyc 0) = some segrCmd ∧ segrCmd.ins = .segr 0 1
        ∧ (s.die (dieOf 0)).ring.seg? (bits (segrCmd.vals.getD 0 0) 15 0) (bits (segrCmd.vals.getD 0 0) 47 16) = some instA)
    ∧ (let s : State := worlds 409 (segSt segkCmd);
      s.frozen (clusterOf 0) = false ∧ (s.core 0).nextItem 6 (s.ccyc 0) = some segkCmd ∧ s.rom.secureUnit (dieOf 0) 409 = true ∧ s.rom.secureCore 0 = false)
    ∧ (let s : State := segSt segiCmd;
      s.frozen (clusterOf 0) = false ∧ (s.core 0).nextItem 6 (s.ccyc 0) = some segiCmd ∧ segiCmd.ins = .segi 0 7 1
        ∧ (s.die (dieOf 0)).segEcc (dieOf 0) (bits (segiCmd.vals.getD 0 0) 15 0) = none
        ∧ (s.takeItem 0 6 segiCmd 0).1.segiBad 0 segiCmd (segiCmd.vals.getD 0 0) = true)
    ∧ (let s : State := (segSt segiCmd).onDie 0 (fun d => { d with bad := [0] });
      s.frozen (clusterOf 0) = false ∧ (s.core 0).nextItem 6 (s.ccyc 0) = some segiCmd ∧ segiCmd.ins = .segi 0 7 1
        ∧ (s.die (dieOf 0)).segEcc (dieOf 0) (bits (segiCmd.vals.getD 0 0) 15 0) = some 0)
    ∧ (let s : State := segiSt; let r : State × Job := s.takeItem 0 6 segiCmd 0;
      let card : List (Nat × Nat × Bool) := [(0, 0 + segLen ((s.die (dieOf 0)).segEntry 0) - 1, false)];
      s.frozen (clusterOf 0) = false ∧ (s.core 0).nextItem 6 (s.ccyc 0) = some segiCmd ∧ segiCmd.ins = .segi 0 7 1 ∧ (s.die (dieOf 0)).segEcc (dieOf 0) (bits (segiCmd.vals.getD 0 0) 15 0) = none
        ∧ r.1.segiBad 0 segiCmd (segiCmd.vals.getD 0 0) = false
        ∧ dBase (segiCmd.descs.getD 0 0) = 0 ∧ (s.die (dieOf 0)).cardRoom = true ∧ (r.1.checkCards 0 (.viaduct 0) card).2 = true
        ∧ ∃ l, r.1.readDome 0 (s.rom.secureUnit 0 409) 0 (segLen ((s.die (dieOf 0)).segEntry 0)) = .ok l)
    ∧ ((withJob segiJob).frozen (clusterOf 0) = false ∧ ((withJob segiJob).core 0).segiDone = some segiJob) := by
  and_intros <;> first | decide +kernel | (apply readDome_at (b := false) <;> first | decide +kernel | (constructor <;> decide +kernel))

/-- States and operands that meet the hypotheses of RepairAndTokens. -/
theorem wit_RepairAndTokens :
    (spokeA.trained 0 .spoke = true ∧ spokeA.linkExcludes 0 .spoke = none)
    ∧ (let s : State := inRing (List.range 16) (readyA.onDie 5 (·.setReg 0x0100 0x200));
      s.trained 5 .spanIn = true ∧ s.linkExcludes 5 .spanIn = some 5 ∧ s.m.ringOrder.contains 5 = true)
    ∧ (let s : State := readyA.onDie 5 (·.setReg 0x0100 0x200);
      s.trained 5 .spanIn = true ∧ s.linkExcludes 5 .spanIn = some 5 ∧ 5 < s.rom.variant.ndie ∧ s.m.ringOrder.contains 5 = false)
    ∧ (linked.inputLinks 2 ≠ [])
    ∧ (bits (((readyA.onDie 0 (·.setReg 0x0100 0x800000)).die 0).reg 0x0100) 23 20 ≠ 0)
    ∧ (heartSt.heartbeatDue 0 = true ∧ heartSt.downstream 0 = some (1, .spanIn) ∧ heartSt.upstream 1 = some 0)
    ∧ (quietSt.upstream 1 = some 0 ∧ quietSt.timeoutDue 1 = true ∧ quietSt.m.ringOrder.contains 0 = true)
    ∧ (let s : State := { inRing [] quietSt with rom := { quietSt.rom with up := [0, 1] } };
      let s : State := { s with m := { s.m with bootStep := 10 } };
      s.upstream 1 = some 0 ∧ s.timeoutDue 1 = true ∧ s.m.ringOrder.contains 0 = false ∧ s.m.excluded.contains 0 = false)
    ∧ (failSt.m.failing.head? = some 3 ∧ failSt.ringState = 1 ∧ failSt.repairable 3 = false)
    ∧ (chorded.m.failing.head? = some 3 ∧ chorded.ringState = 1 ∧ chorded.repairable 3 = true)
    ∧ (let s : State := failSt.setRingState 2;
      s.m.failing = 3 :: [] ∧ s.ringState = 2 ∧ 3 < s.rom.variant.ndie)
    ∧ (let s : State := failSt.setRingState 3;
      s.ringState = 3 ∧ s.newDwells.all (fun e => s.geomOk e.1 e.2) = false)
    ∧ (let s : State := mapped (ringOn (fun r => { r with inserts := [insA true] }) slotSt); let x : Insertion := insA true;
      (s.die 0).ring.toStage = some x
        ∧ s.readVa 0 true (segImg ((s.die 0).segEntry x.tag) + x.staged * 2048) 2048 = .ok (List.replicate 2048 0))
    ∧ (let s : State := ringOn (fun r => { r with inserts := [insA true] }) slotSt; let x : Insertion := insA true;
      (s.die 0).ring.toStage = some x
        ∧ s.readVa 0 true (segImg ((s.die 0).segEntry x.tag) + x.staged * 2048) 2048 = .error (.xlateMiss, 0))
    ∧ (((tokenSt 1 (.keyc 7)).die 1).token = some (.keyc 7) ∧ 1 ≠ 0)
    ∧ ((tokenSt 0 (.keyc 7)).die 0).token = some (.keyc 7)
    ∧ (let s : State := tokenSt 1 (.version 1 255 none);
      (s.die 1).token = some (.version 1 255 none) ∧ (s.onDie 1 (·.dropToken)).tokenHome 1 = false)
    ∧ (let s : State := tokenSt 0 (.version 1 255 none);
      (s.die 0).token = some (.version 1 255 none) ∧ (s.onDie 0 (·.dropToken)).tokenHome 0 = true ∧ s.m.lead.config = none)
    ∧ (let s : State := homeSt false (.version 1 255 none); let r : Nat × Nat × Option Nat := (s.die 0).narrow (s.inputLink 0) 1 255 none;
      (s.die 0).token = some (.version 1 255 none) ∧ (s.onDie 0 (·.dropToken)).tokenHome 0 = true ∧ s.m.lead.config ≠ none ∧ r.1 ≤ r.2.1)
    ∧ (let s : State := homeSt false (.version 2 1 (some 5)); let r : Nat × Nat × Option Nat := (s.die 0).narrow (s.inputLink 0) 2 1 (some 5);
      (s.die 0).token = some (.version 2 1 (some 5)) ∧ (s.onDie 0 (·.dropToken)).tokenHome 0 = true ∧ s.m.lead.config ≠ none ∧ r.2.1 < r.1)
    ∧ ((tokenSt 0 (.back (some 5))).die 0).token = some (.back (some 5))
    ∧ (let s : State := tokenSt 1 (.commit 2);
      (s.die 1).token = some (.commit 2) ∧ (s.onDie 1 (fun d => d.dropToken.setField 0x0248 63 56 2)).tokenHome 1 = false)
    ∧ (let s : State := tokenSt 0 (.commit 2);
      (s.die 0).token = some (.commit 2) ∧ (s.onDie 0 (fun d => d.dropToken.setField 0x0248 63 56 2)).tokenHome 0 = true
        ∧ s.m.lead.config = none)
    ∧ (let s : State := homeSt true (.commit 2); let p : State := s.onDie 0 (fun d => d.dropToken.setField 0x0248 63 56 2);
      (s.die 0).token = some (.commit 2) ∧ p.tokenHome 0 = true ∧ s.m.lead.config ≠ none ∧ p.manyModules = true)
    ∧ (let s : State := homeSt false (.commit 2); let p : State := s.onDie 0 (fun d => d.dropToken.setField 0x0248 63 56 2);
      (s.die 0).token = some (.commit 2) ∧ p.tokenHome 0 = true ∧ s.m.lead.config ≠ none ∧ p.manyModules = false)
    ∧ (bootE.m.bootStep = 9 ∧ bootE.bridgesTried = true)
    ∧ (let s : State := tokenSt 1 (.ring 5);
      (s.die 1).token = some (.ring 5) ∧ s.tokenHome 1 = false)
    ∧ (let s : State := homeSt true (.ring 5);
      (s.die 0).token = some (.ring 5) ∧ s.tokenHome 0 = true)
    ∧ ((tokenSt 0 (.back none)).die 0).token = some (.back none) := by
  and_intros <;> first | decide +kernel | exact ok_eq (by decide +kernel) | exact error_eq (by decide +kernel)

/-- States and operands that meet the hypotheses of EngineEvents. -/
theorem wit_EngineEvents :
    (let s : State := queued 1 (mzStamped 5);
      s.frozen (clusterOf 0) = false ∧ (s.core 0).matHead (s.ccyc 0) = some (mzStamped 5) ∧ (mzStamped 5).stamped = true
        ∧ (mzStamped 5).stamp.toNat < s.ccyc 0)
    ∧ (let s : State := queued 1 (mzStamped 20);
      (s.core 0).matHead (s.ccyc 0) = some (mzStamped 20) ∧ (mzStamped 20).stamped = true ∧ s.ccyc 0 < (mzStamped 20).stamp.toNat)
    ∧ (let s : State := (queued 1 (mzStamped 10)).onCore 0 (fun k => { k with matrixFree := 99 });
      (s.core 0).matHead (s.ccyc 0) = some (mzStamped 10) ∧ (mzStamped 10).stamped = true ∧ (mzStamped 10).stamp.toNat = s.ccyc 0
        ∧ (s.core 0).matReady (s.ccyc 0) (mzStamped 10).mat = false)
    ∧ (let s : State := queued 1 mzCmd; let x : MCmd := mzCmd.mat;
      let ops : List (Nat × Range) := (if x.zero then [] else x.a.ranges 0 x.planes x.k) ++ (if x.zero then [] else x.b.ranges 0 x.planes x.k);
      s.frozen (clusterOf 0) = false ∧ (s.core 0).matHead (s.ccyc 0) = some mzCmd ∧ mzCmd.stamped = false
        ∧ (s.core 0).matReady (s.ccyc 0) x = true ∧ s.fullChecker (s.ccyc 0) ((0, x.cRange) :: ops) = none
        ∧ (!x.zero && (x.a.src.toList ++ x.b.src.toList).any (s.rom.coreSecret 0)) = false
        ∧ (s.checkAll (.matrix 0) ((0, x.cRange) :: ops)).2 = true)
    ∧ (let s : State := worlds 321 (queued 1 farMma); let x : MCmd := farMma.mat;
      s.frozen (clusterOf 0) = false ∧ (s.core 0).matHead (s.ccyc 0) = some farMma ∧ farMma.stamped = false ∧ (s.core 0).matReady (s.ccyc 0) x = true
        ∧ (!x.zero && (x.a.src.toList ++ x.b.src.toList).any (s.rom.coreSecret 0)) = true)
    ∧ (let s : State := withFps 64 (queued 1 mzCmd);
      (s.core 0).matHead (s.ccyc 0) = some mzCmd ∧ (s.core 0).matReady (s.ccyc 0) mzCmd.mat = true
        ∧ s.fullChecker (s.ccyc 0) [(0, mzCmd.mat.cRange)] = some 0)
    ∧ (let s : State := withFps 1 (queued 1 mzCmd);
      (s.core 0).matHead (s.ccyc 0) = some mzCmd ∧ (s.core 0).matReady (s.ccyc 0) mzCmd.mat = true
        ∧ s.fullChecker (s.ccyc 0) [(0, mzCmd.mat.cRange)] = none ∧ (s.checkAll (.matrix 0) [(0, mzCmd.mat.cRange)]).2 = false)
    ∧ (let s : State := withJob { mzJob with released := false };
      s.frozen (clusterOf 0) = false ∧ (s.core 0).matRelease (s.ccyc 0) = some { mzJob with released := false })
    ∧ (let s : State := withJob mzJob;
      s.frozen (clusterOf 0) = false ∧ (s.core 0).matDone (s.ccyc 0) = some mzJob ∧ (s.core 0).running.getD mzJob.cmd.ofRec = mzJob.cmd.ofRec)
    ∧ (let s : State := queued 0 chtCmd;
      s.frozen (clusterOf 0) = false ∧ (s.core 0).copyCanStart (s.ccyc 0) = true ∧ (s.core 0).copyItem (s.ccyc 0) = some (chtCmd, none)
        ∧ chtCmd.chain = some (0, none) ∧ (s.core 0).chainAt none none = 0)
    ∧ (let s : State := queued 0 openCpy;
      s.frozen (clusterOf 0) = false ∧ (s.core 0).copyCanStart (s.ccyc 0) = true ∧ (s.core 0).copyItem (s.ccyc 0) = some (openCpy, none)
        ∧ openCpy.chain = none ∧ (copyJob s 0 openCpy none).1.copySnap 0 openCpy 0 = .error { code := .xlateMiss, acc := 1 })
    ∧ (let s : State := queued 0 domeCpy; let u : State := (copyJob s 0 domeCpy none).1; let j : Job := (copyJob s 0 domeCpy none).2;
      let k : Job := { j with descs := domeCpy.descs, vals := domeCpy.vals }; let p : CPlan := u.jobPlan 0 k;
      (s.core 0).copyCanStart (s.ccyc 0) = true ∧ (s.core 0).copyItem (s.ccyc 0) = some (domeCpy, none) ∧ domeCpy.chain = none
        ∧ u.copySnap 0 domeCpy 0 = .ok (domeCpy.descs, domeCpy.vals)
        ∧ u.copySecret 0 p = false
        ∧ u.unitsFault 0 p false (((u.copyPlaces 0 p).filter (fun q => q.run = j.pos)).map (·.unit)) = some { code := .xlateMiss, acc := 1 })
    ∧ (let s : State := worlds 321 (queued 0 farCpy); let u : State := (copyJob s 0 farCpy none).1; let j : Job := (copyJob s 0 farCpy none).2;
      (s.core 0).copyCanStart (s.ccyc 0) = true ∧ (s.core 0).copyItem (s.ccyc 0) = some (farCpy, none) ∧ farCpy.chain = none
        ∧ u.copySnap 0 farCpy 0 = .ok (farCpy.descs, farCpy.vals.take 3)
        ∧ u.copySecret 0 (u.jobPlan 0 { j with descs := farCpy.descs, vals := farCpy.vals.take 3 }) = true)
    ∧ (let s : State := queued 0 cpyCmd; let u : State := (copyJob s 0 cpyCmd none).1; let j : Job := (copyJob s 0 cpyCmd none).2;
      let k : Job := { j with descs := cpyCmd.descs, vals := cpyCmd.vals.take 3 }; let p : CPlan := u.jobPlan 0 k;
      (s.core 0).copyCanStart (s.ccyc 0) = true ∧ (s.core 0).copyItem (s.ccyc 0) = some (cpyCmd, none) ∧ cpyCmd.chain = none
        ∧ u.copySnap 0 cpyCmd 0 = .ok (cpyCmd.descs, cpyCmd.vals.take 3)
        ∧ u.copySecret 0 p = false
        ∧ u.unitsFault 0 p false (((u.copyPlaces 0 p).filter (fun q => q.run = j.pos)).map (·.unit)) = none
        ∧ ((u.copyPlaces 0 p).find? (fun q => q.at_ = j.pos)).any (u.runWaits 0 p (u.copyPlaces 0 p)) = false
        ∧ u.fullChecker (s.ccyc 0) (p.fpRanges 0) = none ∧ (u.die (dieOf 0)).cardRoom = true ∧ (u.checkAll (.copy 0) (p.fpRanges 0)).2 = true
        ∧ ((u.checkAll (.copy 0) (p.fpRanges 0)).1.checkCards (dieOf 0) (.copy 0) p.cardRanges).2 = true)
    ∧ (let s : State := withJob cpyJob;
      s.frozen (clusterOf 0) = false ∧ s.copyCanEnd 0 = true ∧ (s.core 0).copyRunning = some cpyJob ∧ cpyJob.cmd.chain = none
        ∧ cpyJob.cmd.ins = .cpy 0 5 6 0 0)
    ∧ (let s : State := withJob chtJob;
      s.copyCanEnd 0 = true ∧ (s.core 0).copyRunning = some chtJob ∧ chtJob.cmd.chain = some (0, none))
    ∧ (let s : State := tgoSt;
      s.frozen 0 = false ∧ s.phaseReady 0 = some (0, tgoJob) ∧ (s.core 0).running.getD tgoJob.cmd.ofRec = tgoJob.cmd.ofRec)
    ∧ (let s : State := withJob { tgoJob with released := true };
      s.phaseRunning 0 = some (0, { tgoJob with released := true }) ∧ s.phaseOver 0 { tgoJob with released := true } = true)
    ∧ (let j : Job := kvJob; let s : State := kvSt j; let u : State := (s.touchVas 0 (s.walkerVas 0 j)).engineDid 0 (s.walkerVas 0 j) [];
      s.frozen (clusterOf 0) = false ∧ s.walkerReady 0 = true ∧ (s.core 0).walkerRunning = some j ∧ ∃ d, u.walkerDo (u.walkerEnv 0 j.kctx) 0 j = .ok d)
    ∧ (let j : Job := kvJob; let s : State := (kvSt j).onDie 0 (·.setReg 0x0918 0); let u : State := (s.touchVas 0 (s.walkerVas 0 j)).engineDid 0 (s.walkerVas 0 j) [];
      s.frozen (clusterOf 0) = false ∧ s.walkerReady 0 = true ∧ (s.core 0).walkerRunning = some j ∧ u.walkerDo (u.walkerEnv 0 j.kctx) 0 j = .error (.status 1))
    ∧ (let j : Job := { kvJob with descs := [ctxRec 0x20400] }; let s : State := kvSt j; let u : State := (s.touchVas 0 (s.walkerVas 0 j)).engineDid 0 (s.walkerVas 0 j) [];
      s.frozen (clusterOf 0) = false ∧ s.walkerReady 0 = true ∧ (s.core 0).walkerRunning = some j ∧ u.walkerDo (u.walkerEnv 0 j.kctx) 0 j = .error (.fault { code := .xlateMiss, va := 0x20400, acc := 1 }))
    ∧ (let s : State := decSt; let b : Rec512 := BitVec.ofNat 512 (readNat (s.core 0).store (dsumCmd.vals.getD 0 0).toNat 64);
      let d : DBlk := dblkOf b; let u : State := (s.takeItem 0 4 dsumCmd b).1; let parts : List Nat := (s.core 0).nat32s d.list (min d.count 64);
      let rs : List (Nat × Nat × Nat × Bool) := decodeRanges 3 d ctxA 0 parts;
      let fps : List (Nat × Range) := (rs.filter (fun r => r.2.1 != 0)).map (fun r => (0, bytesAt r.1 r.2.1 r.2.2.2));
      decodeFn dsumCmd.ins = 3 ∧ s.frozen 0 = false ∧ s.decodeNext 0 = some (0, dsumCmd) ∧ s.rom.secureUnit (dieOf 0) (392 + 0 % 8) = false
        ∧ u.vasClear (dieOf 0) [d.ctx] = true
        ∧ u.eccBytes 0 [((dsumCmd.vals.getD 0 0).toNat, 64)] = none ∧ u.kContext 0 false d.ctx = .ok ctxA ∧ decodeBad 3 b d ctxA [] = false
        ∧ rs.all (fun r => decide (r.1 + r.2.1 ≤ 2 ^ 21) && decide (r.1 % r.2.2.1 = 0)) = true
        ∧ u.decodeReadBad (u.decodeEnv 0 ctxA) 3 (decodeReads 3 ctxA []) = none ∧ u.fullChecker (s.ccyc 0) fps = none ∧ (s.die (dieOf 0)).cardRoom = true
        ∧ (u.checkAll (.decode 0) fps).2 = true ∧ ((u.checkAll (.decode 0) fps).1.checkCards 0 (.decode 0) (decodeReads 3 ctxA [])).2 = true
        ∧ u.eccBytes 0 ((rs.filter (fun r => !r.2.2.2)).map (fun r => (r.1, r.2.1))) = none)
    ∧ (let s : State := withJob dsumJob;
      s.frozen 0 = false ∧ s.decodeRunning 0 = some (0, dsumJob) ∧ s.decodeCanEnd 0 dsumJob dsumJob.kctx = true
        ∧ (s.core 0).running.getD dsumJob.cmd.ofRec = dsumJob.cmd.ofRec
        ∧ s.eccBytes 0 (s.decodeIns 0 dsumJob) = none
        ∧ ∃ l, s.decodeOut 0 (decodeFn dsumJob.cmd.ins) (dblkOf dsumJob.entry) dsumJob.kctx = .ok l)
    ∧ (let s : State := encSt;
      s.encNext 0 = some (0, encCmd) ∧ s.frozen (clusterOf 0) = false ∧ s.vasClear 0 [(encCmd.vals.getD 0 0).toNat] = true
        ∧ (s.onDie 0 (fun d => { d with encQ := d.encQ.erase 0 })).vasClear 0 [1024] = true ∧ s.encSecure 0 = false ∧ s.encWords 0 0 64 1 = .ok [encRec.toNat] ∧ (ejobOf encRec).prec = 1024
        ∧ s.encWords 0 1024 64 5 = .ok [encPrm.toNat, 0, 0, 0, 0] ∧ ejobBad encRec (ejobOf encRec) encPrm = false ∧ (s.die 0).cardRoom = true
        ∧ (((s.onDie 0 (fun d => { d with encQ := d.encQ.erase 0 })).takeItem 0 2 encCmd encRec).1.checkCards 0 (.encoder 0)
            (ejobCards (ejobOf encRec) encPrm)).2 = true)
    ∧ (let s : State := withJob encJob;
      s.encRunning 0 = some (0, encJob) ∧ s.frozen (clusterOf 0) = false ∧ encJob.done ≤ (s.die 0).keyc ∧ s.vasClear 0 ((ejobOf encJob.entry).vas encJob.cmd.descs) = true
        ∧ s.encSearch 0 (ejobOf encJob.entry) encJob.cmd.descs (encJob.aux.headD 0).toNat = .error { code := .xlateMiss, va := 4096, acc := 1 })
    ∧ (let s : State := mappedBig (withJob encJob); let x : EJob := ejobOf encJob.entry;
      s.encRunning 0 = some (0, encJob) ∧ s.frozen (clusterOf 0) = false ∧ encJob.done ≤ (s.die 0).keyc ∧ s.vasClear 0 (x.vas encJob.cmd.descs) = true
        ∧ s.encSearch 0 x encJob.cmd.descs (encJob.aux.headD 0).toNat = .ok encSearched
        ∧ ∃ t1 t2, s.writeDome 0 (s.encSecure 0) x.scr
              ((List.range (blockBits encSearched.prm * 4096)).map (fun i => (Config.freeBits (s.m.free + i)).truncate 8)) = .ok t1
            ∧ t1.writeDome 0 (s.encSecure 0) (x.out + (encJob.aux.headD 0).toNat * twcBlock encSearched.prm) (bytesOfBits encSearched.encode) = .ok t2)
    ∧ (let s : State := atKeyc 5 (withJob { iorqJob with aux := [4, 0, 0] });
      s.ioStarted 0 = some { iorqJob with aux := [4, 0, 0] })
    ∧ (let s : State := queued 7 (cmdOf (.iocan 0 1) [0] []); let x : Cmd := cmdOf (.iocan 0 1) [0] [];
      s.ioStarted 0 = none ∧ s.frozen (clusterOf 0) = false ∧ (s.core 0).ioNext (s.ccyc 0) = some x ∧ x.isIorq = false)
    ∧ (let s : State := queued 7 ioCancelled;
      s.ioStarted 0 = none ∧ (s.core 0).ioNext (s.ccyc 0) = some ioCancelled ∧ ioCancelled.isIorq = true ∧ ioCancelled.cancelled = true)
    ∧ (let s : State := queued 7 ioCmd;
      s.ioStarted 0 = none ∧ (s.core 0).ioNext (s.ccyc 0) = some ioCmd ∧ ioCmd.isIorq = true ∧ ioCmd.cancelled = false
        ∧ (s.die (dieOf 0)).ioEn = false)
    ∧ (let s : State := (queued 7 ioCmd).onDie 0 (·.setReg 0x0B10 1); let r : State × Job := s.takeItem 0 7 ioCmd 0;
      let fps : List (Nat × Range) := [(0, bytesAt 0 8 true)];
      ioCmd.descs.getD 0 0 = 0 ∧ s.ioStarted 0 = none ∧ (s.core 0).ioNext (s.ccyc 0) = some ioCmd ∧ (s.die (dieOf 0)).ioEn = true
        ∧ s.ioSecure 0 = false ∧ s.fullChecker (s.ccyc 0) fps = none ∧ (s.die 0).cardRoom = true ∧ (r.1.checkAll (.io 0) fps).2 = true
        ∧ ((r.1.checkAll (.io 0) fps).1.checkCards 0 (.io 0) [(0, 0 + 0 - 1, true)]).2 = true)
    ∧ pollSt.ioPollDue 0 = true
    ∧ (let s : State := withJob iocanJob;
      s.frozen (clusterOf 0) = false ∧ (s.core 0).ioDone = some iocanJob ∧ s.vasClear (dieOf 0) (s.ioSaved 0 iocanJob).toList = true ∧ iocanJob.cmd.isIorq = false)
    ∧ (let s : State := withJob iorqJob;
      s.frozen (clusterOf 0) = false ∧ (s.core 0).ioDone = some iorqJob ∧ s.vasClear (dieOf 0) (s.ioSaved 0 iorqJob).toList = true ∧ iorqJob.cmd.isIorq = true) := by
  and_intros <;> first
    | decide +kernel
    | exact ok_eq (by decide +kernel)
    | exact error_eq (by decide +kernel)
    | exact ok_of (by decide +kernel)
    | exact encoder_writes

/-- States and operands that meet the hypotheses of LanternCommands. -/
theorem wit_LanternCommands :
    (let s : State := (queueSt 1); let q : BitVec 4 := 3; let packet : Rec512 := (packetA 1); let r : State × Busy := s.takePacket q.toNat packet;
      s.nextQueue = some q.toNat ∧ s.headPacket q.toNat = packet ∧ s.ifvOk packet = true ∧ pktOpc packet = 1 ∧ r.1.refused r.2 = none ∧ r.1.fate packet r.2.order = .met)
    ∧ (let s : State := (queueSt 2); let q : BitVec 4 := 3; let packet : Rec512 := (packetA 2); let r : State × Busy := s.takePacket q.toNat packet;
      s.nextQueue = some q.toNat ∧ s.headPacket q.toNat = packet ∧ s.ifvOk packet = true ∧ pktOpc packet = 2 ∧ r.1.refused r.2 = none ∧ r.1.fate packet r.2.order = .met)
    ∧ (let s : State := (queueSt 3); let q : BitVec 4 := 3; let packet : Rec512 := (packetA 3); let r : State × Busy := s.takePacket q.toNat packet;
      s.nextQueue = some q.toNat ∧ s.headPacket q.toNat = packet ∧ s.ifvOk packet = true ∧ pktOpc packet = 3 ∧ r.1.refused r.2 = none ∧ r.1.fate packet r.2.order = .met)
    ∧ (let s : State := (queueSt 4); let q : BitVec 4 := 3; let packet : Rec512 := (packetA 4); let r : State × Busy := s.takePacket q.toNat packet;
      s.nextQueue = some q.toNat ∧ s.headPacket q.toNat = packet ∧ s.ifvOk packet = true ∧ pktOpc packet = 4 ∧ r.1.refused r.2 = none ∧ r.1.fate packet r.2.order = .met)
    ∧ (let s : State := (queueSt 5); let q : BitVec 4 := 3; let packet : Rec512 := (packetA 5); let r : State × Busy := s.takePacket q.toNat packet;
      s.nextQueue = some q.toNat ∧ s.headPacket q.toNat = packet ∧ s.ifvOk packet = true ∧ pktOpc packet = 5 ∧ r.1.refused r.2 = none ∧ r.1.fate packet r.2.order = .met)
    ∧ (let s : State := (queueSt 6); let q : BitVec 4 := 3; let packet : Rec512 := (packetA 6); let r : State × Busy := s.takePacket q.toNat packet;
      s.nextQueue = some q.toNat ∧ s.headPacket q.toNat = packet ∧ s.ifvOk packet = true ∧ pktOpc packet = 6 ∧ r.1.refused r.2 = none ∧ r.1.fate packet r.2.order = .met)
    ∧ (let s : State := (queueSt 7); let q : BitVec 4 := 3; let packet : Rec512 := (packetA 7); let r : State × Busy := s.takePacket q.toNat packet;
      s.nextQueue = some q.toNat ∧ s.headPacket q.toNat = packet ∧ s.ifvOk packet = true ∧ pktOpc packet = 7 ∧ r.1.refused r.2 = none ∧ r.1.fate packet r.2.order = .met)
    ∧ (let s : State := (queueSt 8); let q : BitVec 4 := 3; let packet : Rec512 := (packetA 8); let r : State × Busy := s.takePacket q.toNat packet;
      s.nextQueue = some q.toNat ∧ s.headPacket q.toNat = packet ∧ s.ifvOk packet = true ∧ pktOpc packet = 8 ∧ r.1.refused r.2 = none ∧ r.1.fate packet r.2.order = .met)
    ∧ (let s : State := (queueSt 9); let q : BitVec 4 := 3; let packet : Rec512 := (packetA 9); let r : State × Busy := s.takePacket q.toNat packet;
      s.nextQueue = some q.toNat ∧ s.headPacket q.toNat = packet ∧ s.ifvOk packet = true ∧ pktOpc packet = 9 ∧ r.1.refused r.2 = none ∧ r.1.fate packet r.2.order = .met)
    ∧ (let s : State := (queueSt 10); let q : BitVec 4 := 3; let packet : Rec512 := (packetA 10); let r : State × Busy := s.takePacket q.toNat packet;
      s.nextQueue = some q.toNat ∧ s.headPacket q.toNat = packet ∧ s.ifvOk packet = true ∧ pktOpc packet = 10 ∧ r.1.refused r.2 = none ∧ r.1.fate packet r.2.order = .met)
    ∧ (let s : State := (queueSt 11); let q : BitVec 4 := 3; let packet : Rec512 := (packetA 11); let r : State × Busy := s.takePacket q.toNat packet;
      s.nextQueue = some q.toNat ∧ s.headPacket q.toNat = packet ∧ s.ifvOk packet = true ∧ pktOpc packet = 11 ∧ r.1.refused r.2 = none ∧ r.1.fate packet r.2.order = .met)
    ∧ (let s : State := (queueSt 12); let q : BitVec 4 := 3; let packet : Rec512 := (packetA 12); let r : State × Busy := s.takePacket q.toNat packet;
      s.nextQueue = some q.toNat ∧ s.headPacket q.toNat = packet ∧ s.ifvOk packet = true ∧ pktOpc packet = 12 ∧ r.1.refused r.2 = none ∧ r.1.fate packet r.2.order = .met)
    ∧ (let s : State := (queueSt 13); let q : BitVec 4 := 3; let packet : Rec512 := (packetA 13); let r : State × Busy := s.takePacket q.toNat packet;
      s.nextQueue = some q.toNat ∧ s.headPacket q.toNat = packet ∧ s.ifvOk packet = true ∧ pktOpc packet = 13 ∧ r.1.refused r.2 = none ∧ r.1.fate packet r.2.order = .met)
    ∧ (let s : State := (queueSt 14); let q : BitVec 4 := 3; let packet : Rec512 := (packetA 14); let r : State × Busy := s.takePacket q.toNat packet;
      s.nextQueue = some q.toNat ∧ s.headPacket q.toNat = packet ∧ s.ifvOk packet = true ∧ pktOpc packet = 14 ∧ r.1.refused r.2 = none ∧ r.1.fate packet r.2.order = .met)
    ∧ (let s : State := queueOf (packetA 1 ||| BitVec.ofNat 512 (2 ^ 288 * 0 + 2 ^ 511)); let packet : Rec512 := packetA 1 ||| BitVec.ofNat 512 (2 ^ 288 * 0 + 2 ^ 511); let r : State × Busy := s.takePacket 3 packet;
      s.nextQueue = some 3 ∧ s.headPacket 3 = packet ∧ s.ifvOk packet = true ∧ pktOpc packet = 1 ∧ r.1.refused r.2 = some (3, 36))
    ∧ (let s : State := (queueOf (packetA 11 ||| BitVec.ofNat 512 (2 ^ 127 + 7 * 2 ^ 64))).setPast 0 [⟨7, 1, 0, some 3⟩]; let packet : Rec512 := packetA 11 ||| BitVec.ofNat 512 (2 ^ 127 + 7 * 2 ^ 64); let r : State × Busy := s.takePacket 3 packet;
      s.nextQueue = some 3 ∧ s.headPacket 3 = packet ∧ s.ifvOk packet = true ∧ pktOpc packet = 11 ∧ r.1.refused r.2 = none ∧ r.1.fate packet 1 = .cancelled)
    ∧ (let s : State := (queueOf (packetA 11 ||| BitVec.ofNat 512 (2 ^ 127 + 7 * 2 ^ 64))).setPast 0 [⟨7, 1, 0, none⟩]; let packet : Rec512 := packetA 11 ||| BitVec.ofNat 512 (2 ^ 127 + 7 * 2 ^ 64); let r : State × Busy := s.takePacket 3 packet;
      s.nextQueue = some 3 ∧ s.headPacket 3 = packet ∧ s.ifvOk packet = true ∧ pktOpc packet = 11 ∧ r.1.refused r.2 = none ∧ r.1.fate packet 1 = .waits)
    ∧ readyA.nextQueue ≠ some 3
    ∧ (let s : State := (queueSt 15); let q : BitVec 4 := 3; let packet : Rec512 := (packetA 15);
      s.nextQueue = some q.toNat ∧ s.headPacket q.toNat = packet ∧ (s.ifvOk packet && opcOk (pktOpc packet)) = false)
    ∧ (let s : State := waitingOn busyA; let q : BitVec 4 := 3; let b : Busy := busyA;
      s.decided q.toNat = some (b, .met))
    ∧ (let s : State := cancelSt; let q : BitVec 4 := 3; let b : Busy := { busyB with dep := some (0, some 3) };
      s.decided q.toNat = some (b, .cancelled))
    ∧ (0 < pkt (busyOf 2).packet 32 4 ∧ 0 ∈ (mapped readyA).pinDies 0 ∧ ((mapped readyA).die 0).leafKey 0 = some 0)
    ∧ readyA.image? (pkt (busyOf 3).packet 16 1) = none
    ∧ (bindSt.image? 0 = some oneImage ∧ pkt (busyOf 3).packet 32 4 ≠ oneImage.nlcn)
    ∧ (let p : Rec512 := packetA 3 + BitVec.ofNat 512 (2 ^ 256); let t : List Nat := (List.range (pkt p 32 4)).map (fun k => readNat bindSt.m.host (pkt p 24 8 + 2 * k) 2);
      pkt p 32 4 = oneImage.nlcn ∧ bindSt.bindOk t = true ∧ bindSt.bindOk [0xFFFF] = false ∧ (t.map bindSt.boundCore).any bindSt.rom.secureCore = false
        ∧ (worlds 320 bindSt).bindOk t = true ∧ bindSt.sqSecure 3 = false ∧ (t.map bindSt.boundCore).any (worlds 320 bindSt).rom.secureCore = true)
    ∧ (openLaunch.named (busyOf 10) = .active 0 launchA ∧ launchA.tearing = none ∧ launchA.placeOf (pkt (busyOf 10).packet 24 2) = some 0)
    ∧ (let ln : Launch := { launchA with tearing := some 0 }; let s : State := openLaunch.setLaunch 0 ln;
      s.named (busyOf 10) = .active 0 ln ∧ s.named (busyOf 8) = .active 0 ln ∧ ln.tearing ≠ none)
    ∧ (let b : Busy := { busyOf 10 with packet := packetA 10 + BitVec.ofNat 512 (64 * 2 ^ 192) };
      openLaunch.named b = .active 0 launchA ∧ launchA.binding.length ≤ pkt b.packet 24 2)
    ∧ (let ln : Launch := { launchA with active := false }; let s : State := (openLaunch.setLaunch 0 ln).setPast 0 [⟨0, 7, 0, some 0⟩];
      s.named (busyOf 10) = .ended ln ∧ s.named (busyOf 8) = .ended ln ∧ s.named (busyOf 13) = .ended ln)
    ∧ (let s : State := openLaunch.setPast 0 [⟨0, 11, 0, some 0⟩];
      s.named (busyOf 10) = .bad ∧ s.named (busyOf 8) = .bad ∧ s.named (busyOf 13) = .bad)
    ∧ (pktOpc (busyOf 11).packet = 0x0B ∧ ∃ x ∈ (waitingOn { busyA with order := 0 }).m.lead.waiting, x.queue = (busyOf 11).queue ∧ x.order < (busyOf 11).order)
    ∧ (readyA.m.lead.busy = [] ∧ readyA.m.lead.waiting = [])
    ∧ (let b : Busy := { busyOf 8 with packet := packetA 8 + BitVec.ofNat 512 (5 * 2 ^ 208) };
      openLaunch.named b = .active 0 launchA ∧ launchA.tearing = none ∧ (openLaunch.slotTarget b 0 launchA).toOption = none)
    ∧ (openLaunch.named (busyOf 8) = .active 0 launchA ∧ openLaunch.ringState = 0 ∧ (openLaunch.slotTarget (busyOf 8) 0 launchA).toOption = some (0, 0, 0, launchA))
    ∧ (let s : State := (inRing [0] openLaunch).setRingState 1;
      s.named (busyOf 8) = .active 0 launchA ∧ s.ringState = 1 ∧ s.m.excluded.contains 0 = false ∧ (s.slotTarget (busyOf 8) 0 launchA).toOption = some (0, 0, 0, launchA))
    ∧ (let b : Busy := { busyOf 8 with target := some 0 };
      openLaunch.targetOf b = some (0, launchA) ∧ (openLaunch.heldSlots 0 0).contains 0 = false ∧ pkt b.packet 26 2 = 0)
    ∧ (let b : Busy := { busyOf 8 with target := some 0 };
      let s : State := { openLaunch with m := { openLaunch.m with batches := [(0, ⟨0, 0, 0, 0, [0], [], [], false, false⟩)] } };
      s.targetOf b = some (0, launchA) ∧ (s.heldSlots 0 0).contains 0 = true)
    ∧ (pktOpc (busyOf 9).packet = 9 ∧ openLaunch.named (busyOf 9) = .active 0 launchA ∧ (openLaunch.slotTarget (busyOf 9) 0 launchA).toOption = some (0, 0, 0, launchA)
      ∧ openLaunch.m.lead.busy = [])
    ∧ (let b : Busy := { busyOf 9 with target := some 0 };
      openLaunch.targetOf b = some (0, launchA) ∧ openLaunch.localDie (pkt b.packet 24 2) = some 0 ∧ openLaunch.slotBad launchA 0 (pkt b.packet 26 2) = none)
    ∧ (openLaunch.named (busyOf 13) = .active 0 launchA ∧ openLaunch.launch? 0 = some launchA ∧ openLaunch.record? 0 = some recA ∧ recA.launch = 0 ∧ recA.state = .running)
    ∧ (let r : Rec := { recA with state := .waiting };
      (openLaunch.setRecord 0 r).named (busyOf 13) = .active 0 launchA ∧ (openLaunch.setRecord 0 r).record? 0 = some r)
    ∧ (let s : State := (waitingOn { busyA with order := 0 }).setPast 0 [⟨0, 7, 0, none⟩]; let s : State := { s with m := { s.m with launches := [] } };
      s.named (busyOf 13) = .waiting { busyA with order := 0 })
    ∧ (∀ i, i < pkt busyPin.packet 32 4 → (queueSt 1).pinRefuses 0 ((queueSt 1).pinDies 0) (0 / 2 ^ 16 + i * 1)
      (BitVec.ofNat 64 (pkt busyPin.packet 24 8)) i = none) := by
  and_intros <;> decide +kernel

/-- States and operands that meet the hypotheses of DecodeOfEncode. -/
theorem wit_DecodeOfEncode :
    ((Instr.add 15 31 30 30).wf = true ∧ encode (.add 15 31 30 30) = some 0xF07FEF00)
    ∧ ((Instr.ldi 0 1 0x1FFFF).wf = true ∧ (encode (.ldi 0 1 0x1FFFF)).isSome = true) := by
  and_intros <;> decide +kernel

/-- States and operands that meet the hypotheses of EncodeOfDecode. -/
theorem wit_EncodeOfDecode :
    decode 0x02080064 = some (.ldi 0 4 100)
    ∧ decode 0x304C4280 = some (.add 3 6 4 5) := by
  and_intros <;> decide +kernel

/-- States and operands that meet the hypotheses of StepRunsDecoded. -/
theorem wit_StepRunsDecoded :
    (issuing.m.phase = .issue [⟨0, .a⟩] ∧ ((issuing.inPhase (.issue [])).withCur ⟨0, .a⟩).canIssue ⟨0, .a⟩ = true ∧ (((issuing.inPhase (.issue [])).withCur ⟨0, .a⟩).fetch ⟨0, .a⟩).toOption = some 0x02080064 ∧ decode 0x02080064 = some (.ldi 0 4 100))
    ∧ ((State.reset.withFetchWord 32 0xFFFFFFFF).m.phase = .issue [⟨0, .a⟩] ∧ (((State.reset.withFetchWord 32 0xFFFFFFFF).inPhase (.issue [])).withCur ⟨0, .a⟩).canIssue ⟨0, .a⟩ = true ∧ decode 0xFFFFFFFF = none)
    ∧ ((State.reset.inPhase (.issue [⟨0, .a⟩])).m.phase = .issue [⟨0, .a⟩] ∧ ((State.reset.inPhase (.issue [])).withCur ⟨0, .a⟩).canIssue ⟨0, .a⟩ = false)
    ∧ ((beyond.inPhase (.issue [⟨0, .a⟩])).m.phase = .issue [⟨0, .a⟩] ∧ ((beyond.inPhase (.issue [])).withCur ⟨0, .a⟩).canIssue ⟨0, .a⟩ = true ∧ errorOf (((beyond.inPhase (.issue [])).withCur ⟨0, .a⟩).fetch ⟨0, .a⟩) = some { code := .addr, va := 0x200000, acc := 5 }) := by
  and_intros <;> decide +kernel

/-- States and operands that meet the hypotheses of OnlyBootTouchesRom. -/
theorem wit_OnlyBootTouchesRom :
    ((Instr.add 0 1 2 3).boots = false ∧ ∃ t, exec (.add 0 1 2 3) readyA = .next t) :=
  ⟨by decide +kernel, next_of (by decide +kernel)⟩

/-- States and operands that meet the hypotheses of StepKeepsFuses. -/
theorem wit_StepKeepsFuses :
    (∃ t, step issuing = .next t) :=
  next_of (by decide +kernel)

/-- States and operands that meet the hypotheses of StepKeepsMemoryForm. -/
theorem wit_StepKeepsMemoryForm :
    (State.reset.memOk ∧ ∃ t, step State.reset = .next t) :=
  ⟨⟨fun _ => rfl, fun _ => rfl, fun _ => rfl, fun _ => rfl, rfl⟩, next_of (by decide +kernel)⟩

/-- States and operands that meet the hypotheses of GuardFalseDoesNothing. -/
theorem wit_GuardFalseDoesNothing :
    ((1 : BitVec 5) ≠ 31 ∧ readyA.skips (.add 1 1 2 3) { srcs := [2, 3], dst := some 1 } = true)
    ∧ readyA.skips (.add 1 31 2 3) { srcs := [2, 3], dst := some 31 } = true
    ∧ readyA.skips (.st 1 1 2 3 0) { srcs := [1, 2] } = true
    ∧ readyA.skips (.cmp 1 1 2 3 0) { srcs := [2, 3] } = true
    ∧ readyA.skips (.kadd 1 2 9 0 0) { srcs := [2] } = true
    ∧ readyA.skips (.kwait 1 2 9) { srcs := [2] } = true
    ∧ readyA.skips (.trap 1 7) {} = true
    ∧ readyA.skips (.loop 1 0 2 3) { srcs := [2] } = true
    ∧ readyA.skips (.br 1 2) {} = true
    ∧ (readyA.withCur ⟨0, .x⟩).skips (.mzero 1 4 0) {} = true := by
  and_intros <;> decide +kernel

/-- States and operands that meet the hypotheses of ScalarFrame. -/
theorem wit_ScalarFrame :
    readyA.runs (.remn 0 31 2 3) { srcs := [2, 3], dst := some 31 } = true
    ∧ readyA.runs (.clz 0 1 2) { srcs := [2], dst := some 1 } = true
    ∧ readyA.runs (.xori 0 1 2 0xFFF) { srcs := [2], dst := some 1 } = true
    ∧ readyA.runs (.zxt 0 1 2 63) { srcs := [2], dst := some 1 } = true
    ∧ readyA.runs (.ldi 0 0 5) { dst := some 0 } = true
    ∧ readyA.runs (.cmp 0 0 2 3 11) { srcs := [2, 3] } = true
    ∧ readyA.runs (.pandn 0 7 2 3) {} = true := by
  and_intros <;> decide +kernel

/-- States and operands that meet the hypotheses of VectorFrame. -/
theorem wit_VectorFrame :
    (readyX.runs (.vadd 0 1 2 3 1) { vsrcs := [2, 3], vdst := some 1, lat := 4 } = true ∧ readyX.rowsFree { vsrcs := [2, 3], vdst := some 1, lat := 4 })
    ∧ (readyX.runs (.vsra 0 28 2 3 0) { vsrcs := [2, 3], vdst := some 28, lat := 2 } = true ∧ readyX.rowsFree { vsrcs := [2, 3], vdst := some 28, lat := 2 })
    ∧ (readyX.runs (.vmov 0 1 2 1) { vsrcs := [2], vdst := some 1, lat := 2 } = true ∧ readyX.rowsFree { vsrcs := [2], vdst := some 1, lat := 2 }) := by
  and_intros <;> decide +kernel

/-- States and operands that meet the hypotheses of StoreFrame. -/
theorem wit_StoreFrame :
    (readyA.runs (.st 0 1 2 3 0xFF) { srcs := [1, 2] } = true ∧ ∃ t, exec (.st 0 1 2 3 0xFF) readyA = .next t)
    ∧ (let s : State := withMsg { msgA true with here := true } readyA; s.runs (.crecvRow 0 2 1) { srcs := [2] } = true ∧ ∃ t, exec (.crecvRow 0 2 1) s = .next t)
    ∧ (readyA.runs (.dst 0 15 2) { srcs := [2] } = true ∧ ∃ t, exec (.dst 0 15 2) readyA = .next t)
    ∧ (∃ t, exec (.gst 0 1 2 1 3) readyA = .next t) :=
  ⟨⟨by decide +kernel, next_of (by decide +kernel)⟩,
   ⟨by decide +kernel, next_of (by decide +kernel)⟩,
   ⟨by decide +kernel, next_of (by decide +kernel)⟩,
   next_of (by decide +kernel)⟩

/-- States and operands that meet the hypotheses of WordFaultsComeFirst. -/
theorem wit_WordFaultsComeFirst :
    (Instr.add 0 30 1 1).wf = false
    ∧ ((Instr.vadd 0 1 2 3 0).wf = true ∧ (Instr.vadd 0 1 2 3 0).sideIllegal .a = false ∧ (Instr.vadd 0 1 2 3 0).sideOk .a = false)
    ∧ (Instr.tcenc 0 2).wf = true
    ∧ ((Instr.br 0 2).wf = true ∧ (Instr.br 0 2).sideIllegal .x = false ∧ (Instr.br 0 2).sideOk .x = true ∧ (Instr.br 0 2).noSlot = true ∧ ({ Seq.init with slots := 1, pc := 4 } : Seq).inSlot = true)
    ∧ readyA.postsNowhere 0 (.kadd 0 2 9 1 0) = true
    ∧ (readyA.postsNowhere 0 (.add 0 30 1 1) = false ∧ checkWord (.add 0 30 1 1) .a (readyA.seq ⟨0, .a⟩) readyA.rom.variant = some .illegal)
    ∧ (let s : State := (readyA.onSeq ⟨0, .a⟩ (fun q => { q with pc := 8 })).onCore 0 (fun k => { k with store := writeNat [] 0 4 0x03900000 });
      let i : Instr := .knext 0; s.postsNowhere 0 i = false ∧ checkWord i .a (s.seq ⟨0, .a⟩) s.rom.variant = none ∧ i.noSlot = true
        ∧ (s.core 0).slotAt (s.seq ⟨0, .a⟩).pc.toNat = true)
    ∧ ((Instr.add 0 30 1 1).isWord = true ∧ readyA.canIssue readyA.m.cur = true ∧ readyA.wordCheck readyA.m.cur (.add 0 30 1 1) = some .illegal) := by
  and_intros <;> decide +kernel

/-- States and operands that meet the hypotheses of ConditionCodes. -/
theorem wit_ConditionCodes :
    (12 ≤ (12 : BitVec 4).toNat ∧ 12 ≤ (15 : BitVec 4).toNat) := by
  and_intros <;> decide +kernel

/-- States and operands that meet the hypotheses of SpecialScalarFields. -/
theorem wit_SpecialScalarFields :
    ((31 : BitVec 5) ≠ 30 ∧ (29 : BitVec 5) ≠ 30) := by
  and_intros <;> decide +kernel

/-- States and operands that meet the hypotheses of BitCounts. -/
theorem wit_BitCounts :
    ((1 : Word) ≠ 0 ∧ (0x8000000000000000 : Word) ≠ 0) := by
  and_intros <;> decide +kernel

/-- States and operands that meet the hypotheses of SystemRegisterTable. -/
theorem wit_SystemRegisterTable :
    ((15 : BitVec 12).toNat < 16 ∧ (0x012 : BitVec 12) ∈ ([0x012, 0x020] : List (BitVec 12)))
    ∧ sysInfo 0x004 = none
    ∧ (Instr.rsr 0 1 0x002).wf = true
    ∧ ((Instr.rsr 0 1 0x034).wf = true ∧ (Instr.wsr 0 1 0x034).wf = true ∧ (Instr.xsr 0 1 0x034).wf = true)
    ∧ ((Instr.rsr 0 1 0x051).wf = true ∧ (Instr.wsr 0 1 0x051).wf = true ∧ (Instr.xsr 0 1 0x051).wf = true)
    ∧ ((Instr.rsr 0 1 0x04F).wf = true ∧ (Instr.wsr 0 1 0x04F).wf = true ∧ (Instr.xsr 0 1 0x04F).wf = true) := by
  and_intros <;> decide +kernel

/-- States and operands that meet the hypotheses of PreciseFaultRecord. -/
theorem wit_PreciseFaultRecord :
    (FaultCode.trap ∈ ([.illegal, .trap] : List FaultCode) ∧ (readyA.core 0).running = some 0 ∧ readyA.isStopped 0 = false) := by
  and_intros <;> decide +kernel

/-- States and operands that meet the hypotheses of BranchDelay. -/
theorem wit_BranchDelay :
    (Seq.init.l0.active = false ∧ Seq.init.l1.active = false) := by
  and_intros <;> decide +kernel

/-- States and operands that meet the hypotheses of LoopEndTest. -/
theorem wit_LoopEndTest :
    ((loopQ 2 0 false).target = none ∧ (loopQ 2 0 false).lastLoop = 0 ∧ ((loopQ 2 0 false).level 0).active = true ∧ (loopQ 2 0 false).pc = ((loopQ 2 0 false).level 0).le.setWidth 32 ∧ 1 < ((loopQ 2 0 false).level 0).lc.toNat)
    ∧ (((loopQ 1 0 false).level 0).lc.toNat ≤ 1 ∧ ((loopQ 1 0 false).level (0 ^^^ 1)).active = false)
    ∧ (((loopQ 1 2 true).level 0).lc.toNat ≤ 1 ∧ ((loopQ 1 2 true).level (0 ^^^ 1)).active = true ∧ ((loopQ 1 2 true).level (0 ^^^ 1)).le = ((loopQ 1 2 true).level 0).le ∧ 1 < ((loopQ 1 2 true).level (0 ^^^ 1)).lc.toNat)
    ∧ ({ loopQ 2 0 false with pc := 4 } : Seq).pc ≠ ((loopQ 2 0 false).level 0).le.setWidth 32
    ∧ ((12 : BitVec 32).toNat < ((loopQ 2 0 false).level 0).ls.toNat ∨ ((loopQ 2 0 false).level 0).le.toNat < (12 : BitVec 32).toNat) := by
  and_intros <;> decide +kernel

/-- States and operands that meet the hypotheses of QueueDiscipline. -/
theorem wit_QueueDiscipline :
    ((Core.init.push (.lq 3) ⟨7, .written⟩).queue (.lq 3) = [⟨7, .written⟩] ∧ (⟨7, .written⟩ : QEntry).isWritten = true)
    ∧ Core.init.queue .reply = []
    ∧ ((Core.init.push (.sq 1) ⟨7, .pending 9⟩).queue (.sq 1) = [⟨7, .pending 9⟩] ∧ QName.sq 1 ≠ .reply)
    ∧ (Core.init.queue .bAX).length < QName.bAX.depth
    ∧ (QName.lq 0 ≠ .reply ∧ (QName.lq 0).depth ≤ ((Core.init.setQueue (.lq 0) (List.replicate 8 ⟨0, .written⟩)).queue (.lq 0)).length) := by
  and_intros <;> decide +kernel

/-- States and operands that meet the hypotheses of OwnerCheckOrder. -/
theorem wit_OwnerCheckOrder :
    (readyA.die 0).leaf 0 = none
    ∧ (((withLeaf 0xF000000000000080).die 0).leaf 0 = some 0xF000000000000080 ∧ lS 0xF000000000000080 = true)
    ∧ (((withLeaf 0xA000000000000080).die 0).leaf 0xFFFF = some 0xA000000000000080 ∧ lW 0xA000000000000080 = false ∧ lS 0xA000000000000080 = false ∧ (withLeaf 0xA000000000000080).rom.secureGranule 0 0xFFFF = false)
    ∧ (((mapped readyA).die 0).leaf 0 = some tlbLeaf ∧ lRap tlbLeaf = false ∧ (1 : Nat) ≠ 0)
    ∧ (lR tlbLeaf = true ∧ lW tlbLeaf = true ∧ lA tlbLeaf = false)
    ∧ (bits (BitVec.ofNat 64 (2 ^ 52)) 63 62 = 0 ∧ readyA.localDie (bits (BitVec.ofNat 64 (2 ^ 52)) 61 52) = some 1 ∧ readyA.m.excluded.contains 1 = false ∧ errorOf (readyA.ownerCheck 1 0 false true false false (2 ^ 52)) = some .xlateMiss) := by
  and_intros <;> decide +kernel

/-- States and operands that meet the hypotheses of TranslationAndAtomics. -/
theorem wit_TranslationAndAtomics :
    (lLay tlbLeaf = 0 ∧ lG tlbLeaf = false ∧ lA tlbLeaf = false)
    ∧ (lLay 0xB0000000000000C0 = 0 ∧ lG 0xB0000000000000C0 = true)
    ∧ (({ reqA .sent [] with op := .read 8 true } : Req).op = .read 8 true ∧ (reqA .sent []).op = .write 4 ∧ ({ reqA .sent [] with op := .amo true 7 3 } : Req).op = .amo true 7 3) := by
  and_intros <;> decide +kernel

/-- States and operands that meet the hypotheses of FormatsRoundTrip. -/
theorem wit_FormatsRoundTrip :
    ((0x7F7FFFFF : Nat) < 2 ^ (1 + fp32.eb + fp32.mb) ∧ fp32.decode 0x7F7FFFFF = .fin false 0xFFFFFF 104)
    ∧ fp4e2m1.decode 15 = .fin true 3 1 := by
  and_intros <;> decide +kernel

/-- States and operands that meet the hypotheses of ClockTick. -/
theorem wit_ClockTick :
    (State.reset.rom.held = false ∧ 15 < State.reset.rom.variant.ndie)
    ∧ ({ State.reset with rom := { Rom.init with held := true } } : State).rom.held = true
    ∧ (dogSt.frozen 0 = true ∧ (dogSt.cluster 0).causes.all (fun f => f.served && decide (f.left ≤ 1)) = false)
    ∧ (127 < State.reset.rom.variant.ndie * 8 ∧ State.reset.frozen 127 = false ∧ (State.reset.cluster 127).uses = []) := by
  and_intros <;> decide +kernel

/-- States and operands that meet the hypotheses of CompletionRecords. -/
theorem wit_CompletionRecords :
    ((queueSt 11).cqRoom = true ∧ (queueSt 11).m.lead.out = []) := by
  and_intros <;> decide +kernel

/-- States and operands that meet the hypotheses of InputsAct. -/
theorem wit_InputsAct :
    ((Input.act .powerOn).atEnd = false ∧ ({ State.reset with m := { Mod.init with agenda := [(0, .act .powerOn)] } } : State).m.phase = .events ∧ ({ State.reset with m := { Mod.init with agenda := [(0, .act .powerOn)] } } : State).m.agenda = [(0, Input.act .powerOn)])
    ∧ (let i : Instr := .scrubRead (.dome 15) 16; let s : State := { State.reset with m := { Mod.init with phase := .issue [], agenda := [(0, .act i)] } };
      s.m.phase = .issue [] ∧ (Input.act i).atEnd = true ∧ s.m.agenda = [(0, Input.act i)])
    ∧ (({ State.reset with m := { Mod.init with agenda := [(0, .hostWrite 0x1000 [1, 2])] } } : State).m.phase = .events ∧ ({ State.reset with m := { Mod.init with agenda := [(0, .hostWrite 0x1000 [1, 2])] } } : State).m.agenda = [(0, Input.hostWrite 0x1000 [1, 2])] ∧ ([1, 2] : List Byte)[1]? = some 2 ∧ (0x1002 : Nat) ≥ 0x1000 + [1, 2].length) := by
  and_intros <;> decide +kernel

end Sys2Proof.Tests
end

section
/-! SUPPORT. What an answer can carry of the part of the state that boot fixes (Rom): the form in which the laws below say that
an operation leaves it. -/

namespace Sys2Proof.Machine

/-- Two states with one Rom. -/
def State.SameRom (t s : State) : Prop := t.rom = s.rom

/-- An answer that is a next state only with Rom r. -/
def KeepsRom (r : Rom) : Out → Prop
  | .next t => t.rom = r
  | .fault _ | .refused _ => True

/-- An instruction's own effect that goes on only with Rom r. -/
def Res.KeepsRom (r : Rom) : Res → Prop
  | .done t _ | .doneFault t _ | .faultAt t _ => t.rom = r
  | .wait _ | .fault _ => True

/-- A computation that may stop, whose value, if it has one, has property P. -/
def Ensures {ε α : Type} (P : α → Prop) : Except ε α → Prop
  | .ok a => P a
  | .error _ => True

section Answers

variable {r : Rom} {s t : State}

/-- The proof is no `Iff.rfl`: simp then proves SameRom itself where a law about a fold asks for it. -/
@[simp] theorem sameRom_iff : t.SameRom s ↔ t.rom = s.rom := by exact ⟨id, id⟩

@[simp] theorem ite_rom (p : Prop) [Decidable p] : (if p then s else t).rom = if p then s.rom else t.rom :=
  apply_ite State.rom p s t

theorem KeepsRom.of_eq {r' : Rom} {o : Out} (h : KeepsRom r o) (e : r = r') : KeepsRom r' o := e ▸ h

theorem KeepsRom.ite {p : Prop} [Decidable p] {a b : Out} (ha : KeepsRom r a) (hb : KeepsRom r b) :
    KeepsRom r (if p then a else b) := by split <;> assumption

@[simp] theorem keepsRom_next : KeepsRom r (.next t) ↔ t.rom = r := by exact ⟨id, id⟩
@[simp] theorem keepsRom_fault (f : Fault) : KeepsRom r (.fault f) := trivial
@[simp] theorem keepsRom_ite (p : Prop) [Decidable p] (a b : Out) :
    KeepsRom r (if p then a else b) ↔ if p then KeepsRom r a else KeepsRom r b := by split <;> rfl

@[simp] theorem res_keepsRom_done (fl : Flow) : (Res.done t fl).KeepsRom r ↔ t.rom = r := by exact ⟨id, id⟩
@[simp] theorem res_keepsRom_doneFault (f : FaultInfo) : (Res.doneFault t f).KeepsRom r ↔ t.rom = r := by exact ⟨id, id⟩
@[simp] theorem res_keepsRom_faultAt (f : FaultInfo) : (Res.faultAt t f).KeepsRom r ↔ t.rom = r := by exact ⟨id, id⟩
@[simp] theorem res_keepsRom_wait (w : WaitCond) : (Res.wait w).KeepsRom r := trivial
@[simp] theorem res_keepsRom_fault (f : FaultInfo) : (Res.fault f).KeepsRom r := trivial
@[simp] theorem res_keepsRom_ite (p : Prop) [Decidable p] (a b : Res) :
    (if p then a else b).KeepsRom r ↔ if p then a.KeepsRom r else b.KeepsRom r := by split <;> rfl

end Answers

section Ensures

variable {ε α β : Type} {P : α → Prop} {Q : β → Prop}

theorem Ensures.of_ok {x : Except ε α} {a : α} (h : Ensures P x) (e : x = .ok a) : P a := by
  subst e; exact h

@[simp] theorem ensures_ok {a : α} : Ensures P (.ok a : Except ε α) ↔ P a := by exact ⟨id, id⟩
@[simp] theorem ensures_error (e : ε) : Ensures P (.error e : Except ε α) := trivial

theorem Ensures.map {x : Except ε α} {f : α → β} (h : Ensures (fun a => Q (f a)) x) : Ensures Q (x.map f) := by
  cases x <;> exact h

/-- A sequence of computations: what the first ensures, the second may use. -/
theorem Ensures.bind {x : Except ε α} {f : α → Except ε β} (hx : Ensures P x) (hf : ∀ a, P a → Ensures Q (f a)) :
    Ensures Q (x >>= f) := by
  cases x with
  | error e => exact ensures_error e
  | ok a => exact hf a hx

/-- A sequence of computations of which the second needs nothing of the first. -/
theorem ensures_bind {x : Except ε α} {f : α → Except ε β} (hf : ∀ a, Ensures Q (f a)) : Ensures Q (x >>= f) :=
  match x with
  | .error e => ensures_error e
  | .ok a => hf a

end Ensures

/-- A view that no turn of a fold changes is not changed by the fold. -/
theorem foldl_same {σ α β : Type} (p : σ → β) {f : σ → α → σ} (hf : ∀ x a, p (f x a) = p x) (l : List α) (x : σ) :
    p (l.foldl f x) = p x := by
  induction l generalizing x with
  | nil => rfl
  | cons a l ih => rw [List.foldl_cons, ih, hf]

@[simp] theorem foldl_rom {α : Type} {f : State → α → State} (hf : ∀ s a, (f s a).SameRom s) (l : List α) (s : State) :
    (l.foldl f s).rom = s.rom :=
  foldl_same State.rom hf l s

end Sys2Proof.Machine
end

section
/-! SUPPORT. Operations of a core, its faults and its accesses leave Rom. -/

namespace Sys2Proof.Machine

/-! Faults raised and values that no seed fixes. -/

@[simp] theorem postOutside_rom (s : State) (c k : Nat) (v : Row) : (s.postOutside c k v).rom = s.rom := rfl

@[simp] theorem missLaunch_rom (s : State) (rec? : Option Nat) : (s.missLaunch rec?).rom = s.rom := by
  unfold State.missLaunch
  (repeat' split) <;> simp

@[simp] theorem markFaulted_rom (s : State) (rec? : Option Nat) : (s.markFaulted rec?).rom = s.rom := by
  unfold State.markFaulted
  split
  · rfl
  · split <;> simp

@[simp] theorem raiseFor_rom (s : State) (die c : Nat) (rec? : Option Nat) (f : FaultInfo) (eng job : Option Nat) (page : Nat) :
    (s.raiseFor die c rec? f eng job page).rom = s.rom := by
  simp [State.raiseFor]

@[simp] theorem raisePrecise_rom (s : State) (q : SeqId) (insn : BitVec 32) (f : FaultInfo) :
    (s.raisePrecise q insn f).rom = s.rom := by
  simp [State.raisePrecise]

@[simp] theorem freeValue_rom (s : State) : s.freeValue.2.rom = s.rom := rfl

/-! Operands and results. -/

@[simp] theorem popAll_rom (s : State) (c : Nat) (l : List QName) : (s.popAll c l).rom = s.rom := by
  simp [State.popAll]

@[simp] theorem pushZeros_rom (s : State) (c : Nat) (lat : Nat) (l : List QName) : (s.pushZeros c lat l).rom = s.rom := by
  simp [State.pushZeros]

@[simp] theorem writeS_rom (s : State) (q : SeqId) (d : BitVec 5) (lat : Nat) (v : Word) :
    (s.writeS q d lat v).rom = s.rom := by
  simp [State.writeS]

@[simp] theorem writeP_rom (s : State) (q : SeqId) (d : BitVec 3) (lat : Nat) (v : Bool) :
    (s.writeP q d lat v).rom = s.rom := by
  simp [State.writeP]

@[simp] theorem leaveGroup_rom (s : State) (q : SeqId) : (s.leaveGroup q).rom = s.rom := rfl

@[simp] theorem freeze_rom (s : State) (n : Nat) (f : Freeze) : (s.freeze n f).rom = s.rom := by
  simp [State.freeze]

@[simp] theorem startWait_rom (s : State) (q : SeqId) (w : WaitCond) (cap : Option (Bool × List Word)) :
    (s.startWait q w cap).rom = s.rom :=
  rfl

/-! Flags. -/

@[simp] theorem raiseFlags_rom (s : State) (c lat : Nat) (f : Word) : (s.raiseFlags c lat f).rom = s.rom := by
  simp [State.raiseFlags]

/-! The ends of sections and records, system registers. -/

@[simp] theorem retiring_rom (s : State) (c : Nat) : (s.retiring c).rom = s.rom := by
  unfold State.retiring
  split <;> simp

@[simp] theorem reachBoundary_rom (s : State) (q : SeqId) (rn : Nat) (r : Rec) (n : Nat) :
    (reachBoundary s q rn r n).rom = s.rom := by
  simp [reachBoundary]

@[simp] theorem sysWrite_rom (s : State) (q : SeqId) (r : BitVec 12) (v : Word) : (s.sysWrite q r v).rom = s.rom := by
  unfold State.sysWrite
  split <;> simp

/-! Accesses of a core store and of the Dome. -/

@[simp] theorem dropAll_rom (s : State) (cl : Nat) (iss : Issuer) (job : Nat) : (s.dropAll cl iss job).rom = s.rom := rfl

@[simp] theorem faultStarter_rom (s : State) (iss : Issuer) (job : Nat) : (s.faultStarter iss job).rom = s.rom := by
  unfold State.faultStarter
  dsimp only
  (repeat' split) <;> simp

@[simp] theorem checkFps_rom (s : State) (c : Nat) (iss : Issuer) (rs : List Range) : (s.checkFps c iss rs).1.rom = s.rom := by
  simp [State.checkFps]

@[simp] theorem addUses_rom (s : State) (cl : Nat) (l : List Use) : (s.addUses cl l).rom = s.rom := rfl

@[simp] theorem touchSlices_rom (s : State) (l : List (Nat × Nat × Nat)) : (s.touchSlices l).rom = s.rom := by
  simp [State.touchSlices]

@[simp] theorem checkCards_rom (s : State) (g : Nat) (iss : Issuer) (l : List (Nat × Nat × Bool)) :
    (s.checkCards g iss l).1.rom = s.rom := by
  simp [State.checkCards]

@[simp] theorem addReq_rom (s : State) (c owner : Nat) (op : ReqOp) (va data cmp : Word) (clock : Tab Nat) (w : ReqAt) :
    (s.addReq c owner op va data cmp clock w).rom = s.rom :=
  rfl

@[simp] theorem leave_rom (s : State) (g owner : Nat) (writes : Bool) : (s.leave g owner writes).rom = s.rom := by
  simp [State.leave]

@[simp] theorem send_rom (s : State) (c owner : Nat) (op : ReqOp) (va data cmp : Word) :
    (s.send c owner op va data cmp).rom = s.rom := by
  simp [State.send]

/-! Reads with ECC. -/

@[simp] theorem eccRead_rom (s : State) (c : Nat) (rs : List Range) : (s.eccRead c rs).rom = s.rom := by
  unfold State.eccRead
  split <;> simp

/-! Messages between cores. -/

@[simp] theorem sendMsg_rom (s : State) (src dst : Nat) (isRow : Bool) (v : Row) : (sendMsg s src dst isRow v).rom = s.rom :=
  rfl

@[simp] theorem clearArrivals_rom (s : State) (c : Nat) : (s.clearArrivals c).rom = s.rom := rfl

/-! Rows. -/

@[simp] theorem writeV_rom (s : State) (c : Nat) (vd : BitVec 5) (lat : Nat) (v keep : Row) :
    (s.writeV c vd lat v keep).rom = s.rom := by
  simp [State.writeV]

end Sys2Proof.Machine
end

section
/-! SUPPORT. Operations of the engines and of the owner of a page leave Rom. -/

namespace Sys2Proof.Machine

/-! Engines' queues and the matrix engine. -/

@[simp] theorem accept_rom (s : State) (c e : Nat) (i : Instr) (vals : List Word) (descs : List Rec512) :
    (s.accept c e i vals descs).rom = s.rom :=
  rfl

@[simp] theorem completeCmd_rom (s : State) (c e : Nat) (cmd : Cmd) : (s.completeCmd c e cmd).rom = s.rom := rfl

@[simp] theorem engFault_rom (s : State) (c e : Nat) (cmd : Cmd) (job : Option Nat) (f : FaultInfo) :
    (s.engFault c e cmd job f).rom = s.rom := by
  simp [State.engFault]

@[simp] theorem abandonFull_rom (s : State) (c e : Nat) : (s.abandonFull c e).rom = s.rom := by
  simp [State.abandonFull]

@[simp] theorem freezeFull_rom (s : State) (c e o : Nat) : (s.freezeFull c e o).rom = s.rom := by
  simp [State.freezeFull]

@[simp] theorem checkAll_rom (s : State) (iss : Issuer) (l : List (Nat × Range)) : (s.checkAll iss l).1.rom = s.rom := by
  unfold State.checkAll
  exact foldl_same (fun a : State × Bool => a.1.rom) (fun a r => by simp) l (s, true)

@[simp] theorem addAll_rom (s : State) (iss : Issuer) (job : Nat) (l : List (Nat × Range)) (start : Nat) (last : Option Nat) :
    (s.addAll iss job l start last).rom = s.rom := by
  simp [State.addAll]

@[simp] theorem looseRows_rom (s : State) (c : Nat) (x : MCmd) : (s.looseRows c x).rom = s.rom := by
  simp [State.looseRows]

/-! The owner of a page and its accesses. -/

@[simp] theorem putByte_rom (s : State) (l : Loc) (b : Byte) : (s.putByte l b).rom = s.rom := by
  unfold State.putByte
  split <;> simp

@[simp] theorem touchVas_rom (s : State) (g : Nat) (l : List Nat) : (s.touchVas g l).rom = s.rom := by
  simp [State.touchVas]

theorem writeVa_rom (g : Nat) (sec : Bool) (va : Nat) (l : List Byte) (s : State) :
    Ensures (·.rom = s.rom) (s.writeVa g sec va l) := by
  induction l generalizing s va with
  | nil => simp [State.writeVa]
  | cons b r ih =>
    unfold State.writeVa
    split
    · simp
    · simpa using ih (va + 1) (s.putByte _ b)

theorem writeDome_rom (s : State) (g : Nat) (sec : Bool) (va : Nat) (l : List Byte) :
    Ensures (·.rom = s.rom) (s.writeDome g sec va l) := by
  unfold State.writeDome
  split <;> simp [writeVa_rom]

@[simp] theorem dropReq_rom (s : State) (id : Nat) : (s.dropReq id).rom = s.rom := rfl

@[simp] theorem putReq_rom (s : State) (r : Req) : (s.putReq r).rom = s.rom := rfl

@[simp] theorem effect_rom (s : State) (r : Req) (d pa : Nat) : (s.effect r d pa).1.rom = s.rom := by
  unfold State.effect
  dsimp only
  split <;> simp

@[simp] theorem logDone_rom (s : State) (c id : Nat) : (s.logDone c id).rom = s.rom := by
  unfold State.logDone
  split <;> simp

@[simp] theorem endReq_rom (s : State) (r : Req) : (s.endReq r).rom = s.rom := by
  simp [State.endReq]

@[simp] theorem perform_rom (s : State) (r : Req) (d pa : Nat) : (s.perform r d pa).rom = s.rom := by
  unfold State.perform
  split
  · simp
  · simp [apply_ite State.rom]

@[simp] theorem enterLog_rom (s : State) (r : Req) (code : Nat) : (s.enterLog r code).rom = s.rom := rfl

@[simp] theorem ownerFault_rom (s : State) (r : Req) (f : FaultCode) : (s.ownerFault r f).rom = s.rom := by
  simp [State.ownerFault]

@[simp] theorem take_rom (s : State) (r : Req) : (s.take r).rom = s.rom := by
  unfold State.take
  dsimp only
  split <;> simp

@[simp] theorem loseAccess_rom (s : State) (r : Req) : (s.loseAccess r).rom = s.rom := by
  simp [State.loseAccess]

@[simp] theorem engineWrote_rom (s : State) (g owner : Nat) : (s.engineWrote g owner).rom = s.rom := by
  simp [State.engineWrote]

@[simp] theorem engineRead_rom (s : State) (g owner : Nat) : (s.engineRead g owner).rom = s.rom := by
  simp [State.engineRead]

@[simp] theorem engineDid_rom (s : State) (g : Nat) (reads writes : List Nat) : (s.engineDid g reads writes).rom = s.rom := by
  simp [State.engineDid]

/-! The copy engine. -/

@[simp] theorem applyPatch_rom (s : State) (c : Nat) (x : CSide) (p : Patch) : (s.applyPatch c x p).rom = s.rom := by
  unfold State.applyPatch
  (repeat' split) <;> simp

@[simp] theorem copyJob_rom (s : State) (c : Nat) (cmd : Cmd) (old : Option Job) : (copyJob s c cmd old).1.rom = s.rom := by
  unfold copyJob
  split <;> simp

@[simp] theorem finishCopy_rom (s : State) (c : Nat) (j : Job) : (finishCopy s c j).rom = s.rom := by
  simp [finishCopy]

@[simp] theorem faultCopy_rom (s : State) (c : Nat) (j : Job) (f : FaultInfo) : (faultCopy s c j f).rom = s.rom := by
  simp [faultCopy]

@[simp] theorem releaseCopy_rom (s : State) (c : Nat) (j : Job) : (releaseCopy s c j).rom = s.rom := rfl

@[simp] theorem writeUnits_rom (s : State) (c : Nat) (x : CSide) (l : List Patch) (flags : Word) :
    (s.writeUnits c x l flags).rom = s.rom := by
  simp [State.writeUnits]

@[simp] theorem copyWrote_rom (s : State) (c : Nat) (p : CPlan) : (s.copyWrote c p).rom = s.rom := by
  simp [State.copyWrote]

@[simp] theorem finishRun_rom (s : State) (c : Nat) (j : Job) : (s.finishRun c j).rom = s.rom := by
  simp [State.finishRun]

/-! The Truss. -/

theorem putVa_rom (s : State) (c va : Nat) (l : List Byte) : Ensures (·.rom = s.rom) (s.putVa c va l) := by
  have h := writeDome_rom s (dieOf c) (s.trussSecure (clusterOf c)) va l
  unfold State.putVa
  split
  · next t e => exact h.of_ok e
  · simp

theorem writePort_rom (s : State) (c : Nat) (t : TPort) (r : Nat) (v : Row) :
    Ensures (·.rom = s.rom) (s.writePort c t r v) := by
  unfold State.writePort
  dsimp only
  split
  · simp
  · refine ensures_ok.mpr (foldl_rom (fun s h => ?_) _ s)
    (repeat' split) <;> simp

theorem putBlock_rom (s : State) (c : Nat) (p : TPort) (b code : Nat) (slot : List Byte) :
    Ensures (·.rom = s.rom) (s.putBlock c p b code slot) := by
  unfold State.putBlock
  refine .bind (putVa_rom ..) fun s₁ h₁ => ensures_bind fun old => .bind (putVa_rom ..) fun s₂ h₂ =>
    ensures_bind fun l => ensures_bind fun sm => ?_
  simpa [h₁, h₂] using putVa_rom s₂ c _ _

theorem packBlock_rom (s : State) (c : Nat) (p : TPort) (b : Nat) (v : Row) :
    Ensures (fun o : Option State => ∀ t ∈ o, t.rom = s.rom) (s.packBlock c p b v) := by
  have some_rom {u t : State} {r : Rom} (h : u.rom = r) : t ∈ some u → t.rom = r := by rintro ⟨⟩; exact h
  unfold State.packBlock
  dsimp only
  split
  · exact .bind (putBlock_rom ..) fun s₁ h₁ => ensures_ok.mpr fun t => some_rom h₁
  · split
    · exact .bind (putBlock_rom ..) fun s₁ h₁ => ensures_ok.mpr fun t => some_rom h₁
    · refine ensures_bind fun fl => ensures_bind fun cp => ?_
      split
      · exact .bind (putVa_rom ..) fun s₁ h₁ => .bind (putBlock_rom ..) fun s₂ h₂ => .bind (putVa_rom ..) fun s₃ h₃ =>
          ensures_ok.mpr fun t => some_rom (h₃.trans (h₂.trans h₁))
      · exact ensures_ok.mpr fun t ht => by cases ht

@[simp] theorem trussFault_rom (s : State) (c : Nat) (j : Job) (f : FaultInfo) : (s.trussFault c j f).rom = s.rom := by
  simp [State.trussFault]

@[simp] theorem startTgo_rom (s : State) (c : Nat) (j : Job) : (s.startTgo c j).rom = s.rom := by
  unfold State.startTgo
  dsimp only
  split
  · simp only [trussFault_rom]
  · split
    · simp only [trussFault_rom]
    · split
      · simp only [freezeFull_rom]
      · simp only [ite_rom, trussFault_rom, checkCards_rom, checkAll_rom, onCore_rom, onDie_rom, addAll_rom, ite_self]

@[simp] theorem endTruss_rom (s : State) (c : Nat) (j : Job) : (s.endTruss c j).rom = s.rom := rfl

@[simp] theorem trussAdvance_rom (s : State) (c : Nat) : (s.trussAdvance c).rom = s.rom := by
  unfold State.trussAdvance
  dsimp only
  (repeat' split) <;> simp

@[simp] theorem closePhase_rom (s : State) (cl : Nat) (j : Job) : (s.closePhase cl j).rom = s.rom := by
  simp [State.closePhase]

@[simp] theorem stopPhase_rom (s : State) (cl c : Nat) (j : Job) (f : FaultInfo) : (s.stopPhase cl c j f).rom = s.rom := by
  simp [State.stopPhase]

/-! The walker of the KV lists. -/

theorem kWrite_rom (s : State) (e : KEnv) (va n v : Nat) : Ensures (·.rom = s.rom) (s.kWrite e va n v) := by
  have h := writeDome_rom s e.die e.sec va (bytesOfNat n v)
  unfold State.kWrite
  split
  · next t ht => simpa using h.of_ok ht
  · simp

theorem kPut_rom (s : State) (e : KEnv) (n : KNode) : Ensures (·.rom = s.rom) (s.kPut e n) := kWrite_rom ..

@[simp] theorem kSetCount_rom (s : State) (e : KEnv) (nodes : Bool) (n : Nat) : (s.kSetCount e nodes n).rom = s.rom := rfl

theorem kPop_rom (s : State) (e : KEnv) (nodes : Bool) : Ensures (·.1.rom = s.rom) (s.kPop e nodes) := by
  unfold State.kPop
  dsimp only
  (repeat' split) <;> simp

theorem kPush_rom (s : State) (e : KEnv) (nodes : Bool) (v : Nat) : Ensures (·.rom = s.rom) (s.kPush e nodes v) := by
  unfold State.kPush
  dsimp only
  split
  · simp
  · split
    · simp
    · next t ht => simpa using (kWrite_rom ..).of_ok ht

/-- A fold of a walker computation keeps a view that no turn of it changes. -/
theorem kFold_same {α β γ : Type} (p : β → γ) {f : β → α → KRes β} (hf : ∀ b a, Ensures (p · = p b) (f b a)) (l : List α)
    (b : β) : Ensures (p · = p b) (kFold f l b) := by
  induction l generalizing b with
  | nil => simp [kFold]
  | cons a l ih =>
    unfold kFold
    split
    · simp
    · next c hc => simpa [(hf b a).of_ok hc] using ih c

theorem kSplit_relink_rom (e : KEnv) (tail : KNode) (n : Nat) (s : State) (c : Nat) :
    Ensures (·.rom = s.rom) (State.kSplit.relink e tail s n c) := by
  induction n generalizing s c with
  | zero => exact ensures_error _
  | succ n ih =>
    unfold State.kSplit.relink
    split
    · simp
    · split
      · simp
      · split
        · simp
        · next t ht => simpa [(kPut_rom ..).of_ok ht] using ih t _

theorem kSplit_rom (s : State) (e : KEnv) (n : KNode) (a : Nat) : Ensures (·.rom = s.rom) (s.kSplit e n a) := by
  unfold State.kSplit
  refine .bind (kPop_rom ..) fun p hp => .bind (kFold_same State.rom (fun t y => ?_) _ _) fun s₁ h₁ =>
    .bind (kFold_same State.rom (fun t i => ensures_bind fun v => kWrite_rom ..) _ _) fun s₂ h₂ =>
    .bind (kSplit_relink_rom ..) fun s₃ h₃ => .bind (kPut_rom ..) fun s₄ h₄ => ?_
  · split
    · refine ensures_bind fun v => .bind (kWrite_rom ..) fun t₁ ht => ?_
      simpa [ht] using kWrite_rom t₁ e _ 8 0
    · exact kWrite_rom ..
  · simpa [hp, h₁, h₂, h₃, h₄] using kPut_rom s₄ e _

theorem kWalk_rom (e : KEnv) (mask n : Nat) (s : State) (cur : Nat) (l hit : List Nat) (len : Nat) :
    Ensures (·.1.rom = s.rom) (s.kWalk e mask n cur l hit len) := by
  induction n generalizing cur l hit len with
  | zero => exact ensures_error _
  | succ n ih =>
    cases l with
    | nil => simp [State.kWalk]
    | cons t rest =>
      unfold State.kWalk
      dsimp only
      (repeat' split) <;> try simp [ih]
      next u hu => exact (kSplit_rom ..).of_ok hu

theorem kLink_rom (s : State) (e : KEnv) (parent : Nat) (n : KNode) : Ensures (·.rom = s.rom) (s.kLink e parent n) := by
  unfold State.kLink
  refine ensures_bind fun p => .bind (kPut_rom ..) fun s₁ h₁ => ?_
  simpa [h₁] using kPut_rom s₁ e _

theorem kUnlink_go_rom (e : KEnv) (n : KNode) (s : State) (k c : Nat) :
    Ensures (·.rom = s.rom) (State.kUnlink.go e n s k c) := by
  induction k generalizing c with
  | zero => exact ensures_error _
  | succ k ih =>
    unfold State.kUnlink.go
    (repeat' split) <;> simp [ih, kPut_rom]

theorem kUnlink_rom (s : State) (e : KEnv) (n : KNode) : Ensures (·.rom = s.rom) (s.kUnlink e n) := by
  unfold State.kUnlink
  refine ensures_bind fun p => ?_
  split
  · exact kPut_rom ..
  · exact kUnlink_go_rom ..

theorem kRef_rom (s : State) (e : KEnv) (va : Nat) (up : Bool) : Ensures (·.rom = s.rom) (s.kRef e va up) :=
  ensures_bind fun _ => kPut_rom ..

theorem kFree_rom (s : State) (e : KEnv) (va count : Nat) : Ensures (·.1.rom = s.rom) (s.kFree e va count) := by
  unfold State.kFree
  refine ensures_bind fun n => .bind (kFold_same (fun a : State × Nat => a.1.rom) (fun a y => ?_) _ _) fun r hr =>
    .bind (kPut_rom ..) fun s₁ h₁ => ensures_ok.mpr (h₁.trans hr)
  refine ensures_bind fun v => ?_
  split
  · exact .bind (kPush_rom ..) fun t₁ h₁ => .bind (kWrite_rom ..) fun t₂ h₂ => ensures_ok.mpr (h₂.trans h₁)
  · simp

theorem kPrune_rom (e : KEnv) (n : Nat) (s : State) (va : Nat) : Ensures (·.rom = s.rom) (s.kPrune e n va) := by
  induction n generalizing s va with
  | zero => exact ensures_error _
  | succ n ih =>
    unfold State.kPrune
    split
    · simp
    · split
      · simp
      · split
        · simp
        · next t ht =>
          split
          · simp
          · next u hu => simpa [(kUnlink_rom ..).of_ok ht, (kPush_rom ..).of_ok hu] using ih u _

theorem kRetire_rom (s : State) (e : KEnv) (l : List KNode) : Ensures (·.1.rom = s.rom) (s.kRetire e l) := by
  refine kFold_same (fun a : State × Nat × List Nat => a.1.rom) (fun a n => ?_) l (s, 0, [])
  refine .bind (kRef_rom ..) fun t ht => ?_
  split
  · exact .bind (kFree_rom ..) fun r hr => ensures_ok.mpr (hr.trans ht)
  · exact ensures_ok.mpr ht

theorem kPruneAll_rom (s : State) (e : KEnv) (l : List Nat) : Ensures (·.rom = s.rom) (s.kPruneAll e l) :=
  kFold_same State.rom (fun t va => kPrune_rom e kPathMax t va) l s

theorem kPage_rom (s : State) (e : KEnv) (n : KNode) (y k : Nat) : Ensures (·.rom = s.rom) (s.kPage e n y k) := by
  unfold State.kPage
  refine .bind (kPop_rom ..) fun p hp => .bind (kWrite_rom ..) fun s₁ h₁ => ?_
  simpa [hp, h₁] using kWrite_rom s₁ e _ _ _

theorem kAppend_rom (s : State) (e : KEnv) (c at_ span : Nat) : Ensures (·.1.rom = s.rom) (s.kAppend e c at_ span) := by
  unfold State.kAppend
  refine ensures_bind fun w => ensures_bind fun q => ensures_bind fun d =>
    .bind (P := fun r : State × KNode => r.1.rom = s.rom) ?_ fun r hr => ensures_bind fun node =>
    .bind (kFold_same State.rom (fun t yk => kPage_rom ..) _ _) fun s₁ h₁ =>
    .bind (kFold_same State.rom (fun t x => kWrite_rom ..) _ _) fun s₂ h₂ =>
    .bind (kPut_rom ..) fun s₃ h₃ => ensures_bind fun q => .bind (kPut_rom ..) fun s₄ h₄ => ?_
  · split
    · simp
    · exact .bind (kPop_rom ..) fun p hp => .bind (kUnlink_rom ..) fun t₁ h₁ => .bind (kLink_rom ..) fun t₂ h₂ =>
        ensures_bind fun node => .bind (kFold_same State.rom (fun t i => kWrite_rom ..) _ _) fun t₃ h₃ =>
        .bind (kLink_rom ..) fun t₄ h₄ => by simp [h₄, h₃, h₂, h₁, hp]
  · simp [h₄, h₃, h₂, h₁, hr]

theorem kvRes_rom (s : State) (e : KEnv) (c : Nat) (b : Rec512) : Ensures (·.s.rom = s.rom) (s.kvRes e c b) := by
  unfold State.kvRes
  exact .bind (kWalk_rom ..) fun w hw => .bind (kPop_rom ..) fun p hp => .bind (kLink_rom ..) fun s₁ h₁ =>
    .bind (kFold_same State.rom (fun t va => kRef_rom ..) _ _) fun s₂ h₂ => by simp [h₂, h₁, hp, hw]

theorem kvFork_rom (s : State) (e : KEnv) (b : Rec512) : Ensures (·.s.rom = s.rom) (s.kvFork e b) := by
  unfold State.kvFork
  exact ensures_bind fun q => ensures_bind fun path => .bind (kPop_rom ..) fun p hp => .bind (kLink_rom ..) fun s₁ h₁ =>
    .bind (kFold_same State.rom (fun t n => kRef_rom ..) _ _) fun s₂ h₂ => by simp [h₂, h₁, hp]

theorem kvRet_rom (s : State) (e : KEnv) (b : Rec512) : Ensures (·.s.rom = s.rom) (s.kvRet e b) := by
  unfold State.kvRet
  refine ensures_bind fun q => ensures_bind fun path => ?_
  dsimp only
  split
  · exact .bind (kRetire_rom ..) fun r hr => .bind (kUnlink_rom ..) fun s₁ h₁ => .bind (kPush_rom ..) fun s₂ h₂ =>
      .bind (kPruneAll_rom ..) fun s₃ h₃ => by simp [h₃, h₂, h₁, hr]
  · split
    · simp
    · split
      · simp
      · exact .bind (kPut_rom ..) fun s₁ h₁ => .bind (kRetire_rom ..) fun r hr => .bind (kPruneAll_rom ..) fun s₂ h₂ => by
          simp [h₂, hr, h₁]

theorem kvApp_rom (s : State) (e : KEnv) (c : Nat) (b : Rec512) (spans : List Word) :
    Ensures (·.s.rom = s.rom) (s.kvApp e c b spans) := by
  unfold State.kvApp
  refine ensures_bind fun need => ?_
  split
  · simp
  · split
    · simp
    · refine .bind (kFold_same (fun a : State × Nat => a.1.rom) (fun a i => ?_) _ _) fun r hr => ensures_ok.mpr hr
      exact .bind (kAppend_rom ..) fun t ht => ensures_ok.mpr ht

theorem kvSel_rom (s : State) (e : KEnv) (c : Nat) (b : Rec512) : Ensures (·.s.rom = s.rom) (s.kvSel e c b) := by
  unfold State.kvSel
  refine ensures_bind fun q => ensures_bind fun path =>
    .bind (kFold_same (fun a : State × Nat => a.1.rom) (fun a nk => ?_) _ _) fun r hr => ensures_ok.mpr hr
  exact ensures_bind fun v => by simp

theorem kvGat_rom (s : State) (e : KEnv) (c : Nat) (j : Job) (b : Rec512) : Ensures (·.s.rom = s.rom) (s.kvGat e c j b) := by
  simp [State.kvGat]

theorem walkerDo_rom (s : State) (e : KEnv) (c : Nat) (j : Job) : Ensures (·.s.rom = s.rom) (s.walkerDo e c j) := by
  unfold State.walkerDo
  split <;> simp [kvRes_rom, kvApp_rom, kvRet_rom, kvFork_rom, kvSel_rom, kvGat_rom]

@[simp] theorem jobFault_rom (s : State) (c e : Nat) (j : Job) (f : FaultInfo) : (s.jobFault c e j f).rom = s.rom := by
  simp [State.jobFault]

@[simp] theorem endJob_rom (s : State) (c e : Nat) (j : Job) : (s.endJob c e j).rom = s.rom := rfl

@[simp] theorem takeItem_rom (s : State) (c e : Nat) (cmd : Cmd) (entry : Rec512) :
    (s.takeItem c e cmd entry).1.rom = s.rom := rfl

@[simp] theorem walkerStart_rom (t : State) (c : Nat) (cmd : Cmd) : (t.walkerStart c cmd).rom = t.rom := by
  unfold State.walkerStart
  dsimp only
  (repeat' split) <;> simp

/-! The I/O engine. -/

@[simp] theorem ioWrite_rom (s : State) (g : Nat) (id : Nat) (v : Rec512) (chan : Nat) :
    (s.ioWrite g id v chan).rom = s.rom :=
  rfl

@[simp] theorem ioTake_rom (s : State) (g : Nat) (e : Nat) : (s.ioTake g e).rom = s.rom := by
  unfold State.ioTake
  dsimp only
  split <;> simp

@[simp] theorem ioRead_rom (g n : Nat) (s : State) : (s.ioRead g n).rom = s.rom := by
  induction n generalizing s with
  | zero => rfl
  | succ n ih => simp [State.ioRead, ih]

@[simp] theorem ioEnd_rom (s : State) (c : Nat) (j : Job) : (s.ioEnd c j).rom = s.rom := by
  unfold State.ioEnd
  dsimp only
  split
  · simp
  · split
    · simp
    · split
      · next t ht => simpa using (writeDome_rom ..).of_ok ht
      · simp

end Sys2Proof.Machine
end

section
/-! SUPPORT. Operations of the launches, the records, the ring and the host leave Rom. -/

namespace Sys2Proof.Machine

/-! The queues of commands and their completions. -/

@[simp] theorem setQreg_rom (s : State) (off : Nat) (v : Word) : (s.setQreg off v).rom = s.rom := rfl

@[simp] theorem putCompletion_rom (s : State) (c : Completion) : (s.putCompletion c).rom = s.rom := rfl

@[simp] theorem post_rom (s : State) (c : Completion) : (s.post c).rom = s.rom := by
  simp [State.post]

@[simp] theorem flushOut_rom (n : Nat) (s : State) : (s.flushOut n).rom = s.rom := by
  induction n generalizing s with
  | zero => rfl
  | succ n ih =>
    unfold State.flushOut
    split <;> simp [ih]

@[simp] theorem setPast_rom (s : State) (q : Nat) (l : List Past) : (s.setPast q l).rom = s.rom := rfl

@[simp] theorem noteStatus_rom (s : State) (q order status : Nat) : (s.noteStatus q order status).rom = s.rom := rfl

@[simp] theorem conclude_rom (s : State) (b : Busy) (status : Nat) (late : Bool) (r0 r1 : Nat) :
    (s.conclude b status late r0 r1).rom = s.rom := by
  simp [State.conclude]

@[simp] theorem keepBusy_rom (s : State) (b : Busy) : (s.keepBusy b).rom = s.rom := rfl

/-! The ring's state and the Pier. -/

@[simp] theorem setRingState_rom (s : State) (n : Nat) : (s.setRingState n).rom = s.rom := by
  simp [State.setRingState]

@[simp] theorem insertsEnd_rom (s : State) : s.insertsEnd.rom = s.rom := by
  unfold State.insertsEnd
  dsimp only
  (repeat' split) <;> simp

/-! Slots, batches, launches and records. -/

@[simp] theorem arbitrate_rom (s : State) (c : Nat) : (s.arbitrate c).rom = s.rom := by
  unfold State.arbitrate
  split <;> simp

@[simp] theorem makeReady_rom (s : State) (launch index : Nat) (raw : Rec512) (c deadline : Nat) (batch : Option Nat)
    (tag turn n : Nat) : (s.makeReady launch index raw c deadline batch tag turn n).rom = s.rom := by
  simp [State.makeReady]

@[simp] theorem skipSlot_rom (s : State) (l g n : Nat) (x : Option (Nat × Nat)) : (s.skipSlot l g n x).rom = s.rom := rfl

@[simp] theorem slotFault_rom (s : State) (l : Nat) (ln : Launch) (g : Nat) (f : FaultInfo) :
    (s.slotFault l ln g f).rom = s.rom := by
  simp [State.slotFault]

@[simp] theorem writeSlot_rom (s : State) (l : Nat) (ln : Launch) (g n : Nat) (e : BitVec 256) :
    (s.writeSlot l ln g n e).rom = s.rom := by
  unfold State.writeSlot
  dsimp only
  split
  · next t ht => simpa using (writeVa_rom ..).of_ok ht
  · rfl

@[simp] theorem onSlot_rom (s : State) (l : Nat) (ln : Launch) (g n bucket : Nat) (f : BitVec 256 → BitVec 256) :
    (s.onSlot l ln g n bucket f).rom = s.rom := by
  simp [State.onSlot]

@[simp] theorem freeSlot_rom (s : State) (l : Nat) (ln : Launch) (g n : Nat) : (s.freeSlot l ln g n).rom = s.rom := by
  simp [State.freeSlot]

@[simp] theorem freeSlots_rom (s : State) (l : Nat) (on : Nat → Bool) : (s.freeSlots l on).rom = s.rom := by
  unfold State.freeSlots
  split <;> simp

@[simp] theorem missSlot_rom (s : State) (l : Nat) (ln : Launch) (g n bucket : Nat) :
    (s.missSlot l ln g n bucket).rom = s.rom := by
  simp [State.missSlot]

@[simp] theorem dispatchLaunch_rom (s : State) (g : Nat) (i : Inst) (l : Nat) (ln : Launch) :
    (s.dispatchLaunch g i l ln).rom = s.rom := by
  unfold State.dispatchLaunch
  dsimp only
  (repeat' split) <;> simp

@[simp] theorem retireSlot_rom (s : State) (b : Batch) (ln : Launch) (n : Nat) : (s.retireSlot b ln n).rom = s.rom := by
  unfold State.retireSlot
  split <;> simp

@[simp] theorem endBatch_rom (s : State) (bn : Nat) : (s.endBatch bn).rom = s.rom := by
  unfold State.endBatch
  dsimp only
  (repeat' split) <;> simp

@[simp] theorem endLaunch_rom (s : State) (l : Nat) (ln : Launch) : (s.endLaunch l ln).rom = s.rom := by
  unfold State.endLaunch
  dsimp only
  split <;> simp

@[simp] theorem checkLaunch_rom (s : State) (l : Nat) (marker : Bool) : (s.checkLaunch l marker).rom = s.rom := by
  unfold State.checkLaunch
  split <;> simp

@[simp] theorem recCompletion_rom (s : State) (r : Rec) (status code : Nat) : (s.recCompletion r status code).rom = s.rom := by
  unfold State.recCompletion
  split <;> simp

@[simp] theorem finalRec_rom (s : State) (n : Nat) (r : Rec) (st : RecState) (status code : Nat) :
    (s.finalRec n r st status code).rom = s.rom := by
  unfold State.finalRec
  dsimp only
  (repeat' split) <;> simp

@[simp] theorem vacate_rom (s : State) (c : Nat) : (s.vacate c).rom = s.rom := rfl

@[simp] theorem answerRead_rom (s : State) (b : Busy) : (s.answerRead b).rom = s.rom := by
  unfold State.answerRead
  dsimp only
  (repeat' split) <;> simp

@[simp] theorem answerReads_rom (s : State) : s.answerReads.rom = s.rom := by
  simp [State.answerReads]

@[simp] theorem settle_rom (s : State) : s.settle.rom = s.rom := by
  refine (foldl_rom (fun s b => ?_) _ _).trans (answerReads_rom s)
  dsimp only
  split <;> simp

@[simp] theorem ctxFault_rom (s : State) (c n : Nat) (r : Rec) (f : FaultCode × Nat) (va acc : Nat) :
    (s.ctxFault c n r f va acc).rom = s.rom := by
  unfold State.ctxFault
  dsimp only
  split <;> simp

@[simp] theorem loadBatch_rom (s : State) (c : Nat) (r : Rec) : (s.loadBatch c r).rom = s.rom := by
  unfold State.loadBatch
  split <;> simp

@[simp] theorem firstRun_rom (s : State) (c n : Nat) (r : Rec) (ln : Launch) (group : Nat) :
    (s.firstRun c n r ln group).rom = s.rom :=
  rfl

@[simp] theorem resumeRun_rom (s : State) (c n : Nat) (r : Rec) (ln : Launch) (group : Nat) (ctx : List Byte) :
    (s.resumeRun c n r ln group ctx).rom = s.rom :=
  rfl

@[simp] theorem killCopy_rom (s : State) (c : Nat) (j : Job) : (s.killCopy c j).rom = s.rom := by
  simp [State.killCopy]

@[simp] theorem removeJob_rom (s : State) (c : Nat) (j : Job) : (s.removeJob c j).rom = s.rom := by
  simp [State.removeJob]

@[simp] theorem killJob_rom (s : State) (c : Nat) (j : Job) : (s.killJob c j).rom = s.rom := by
  simp [State.killJob]

@[simp] theorem dropWork_rom (s : State) (c n : Nat) : (s.dropWork c n).rom = s.rom := by
  simp [State.dropWork]

@[simp] theorem dropAccesses_rom (s : State) (c n : Nat) : (s.dropAccesses c n).rom = s.rom := rfl

@[simp] theorem dropCauses_rom (s : State) (c : Nat) : (s.dropCauses c).rom = s.rom := rfl

@[simp] theorem killRec_rom (s : State) (n : Nat) (code : Nat) : (s.killRec n code).rom = s.rom := by
  unfold State.killRec
  dsimp only
  (repeat' split) <;> simp

@[simp] theorem stopRec_rom (s : State) (n : Nat) : (s.stopRec n).rom = s.rom := by
  unfold State.stopRec
  split
  · rfl
  · split <;> simp

@[simp] theorem cancelWrites_rom (s : State) (l : Nat) : (s.cancelWrites l).rom = s.rom := by
  simp [State.cancelWrites]

@[simp] theorem tearLaunch_rom (s : State) (l : Nat) : (s.tearLaunch l).rom = s.rom := by
  unfold State.tearLaunch
  split <;> simp

@[simp] theorem faultLaunch_rom (s : State) (l code : Nat) : (s.faultLaunch l code).rom = s.rom := by
  unfold State.faultLaunch
  split <;> simp

@[simp] theorem applyWrite_rom (s : State) (g : Nat) (b : Busy) : (s.applyWrite g b).rom = s.rom := by
  unfold State.applyWrite
  split <;> simp

@[simp] theorem turnMarker_rom (s : State) (g : Nat) : (s.turnMarker g).rom = s.rom := by
  simp [State.turnMarker]

/-! The Viaduct. -/

@[simp] theorem sendBeat_rom (s : State) (g : Nat) (b : Beat) : (s.sendBeat g b).rom = s.rom := by
  unfold State.sendBeat
  split <;> simp

@[simp] theorem sendToken_rom (s : State) (g : Nat) (t : Token) : (s.sendToken g t).rom = s.rom := by
  unfold State.sendToken
  split <;> rfl

@[simp] theorem sendInsert_rom (s : State) (g : Nat) (x : Insertion) : (s.sendInsert g x).rom = s.rom := by
  unfold State.sendInsert
  (repeat' split) <;> simp

@[simp] theorem ringDown_rom (s : State) : s.ringDown.rom = s.rom := by
  unfold State.ringDown
  dsimp only
  split <;> simp

@[simp] theorem failInsert_rom (s : State) (g : Nat) (x : Insertion) (f : FaultInfo) : (s.failInsert g x f).1.rom = s.rom := by
  unfold State.failInsert
  split
  · split <;> simp
  · dsimp only
    split <;> simp

@[simp] theorem sendOldest_rom (s : State) (g : Nat) : (s.sendOldest g).rom = s.rom := by
  simp [State.sendOldest]

@[simp] theorem orderInsert_rom (s : State) (tag : Nat) (first : Bool) : (s.orderInsert tag first).rom = s.rom := by
  unfold State.orderInsert
  dsimp only
  (repeat' split) <;> simp

@[simp] theorem markOld_rom (s : State) : s.markOld.rom = s.rom := by
  simp [State.markOld]

@[simp] theorem setDrop_rom (s : State) (v : Word) : (s.setDrop v).rom = s.rom := by
  simp [State.setDrop]

@[simp] theorem replaceSegment_rom (s : State) (tag turn : Nat) : (s.replaceSegment tag turn).rom = s.rom := by
  unfold State.replaceSegment
  split <;> simp

@[simp] theorem sendHold_rom (s : State) (g v : Nat) : (s.sendHold g v).rom = s.rom := by
  unfold State.sendHold
  split
  · rfl
  · split <;> simp

@[simp] theorem holdCycle_rom (s : State) (g : Nat) : (s.holdCycle g).rom = s.rom := by
  simp [State.holdCycle]

@[simp] theorem ringSync_rom (s : State) (g v : Nat) (home : Bool) : (s.ringSync g v home).rom = s.rom := by
  simp [State.ringSync]

/-! Link training, failures and repair. -/

@[simp] theorem finishConfig_rom (s : State) : s.finishConfig.rom = s.rom := by
  unfold State.finishConfig
  split <;> simp

@[simp] theorem openQueues_rom (s : State) : s.openQueues.rom = s.rom := by
  simp [State.openQueues]

@[simp] theorem noRing_rom (s : State) (rdie : Nat) : (s.noRing rdie).rom = s.rom := by
  unfold State.noRing
  split <;> simp

@[simp] theorem endDie_rom (s : State) (f : Nat) : (s.endDie f).rom = s.rom := by
  unfold State.endDie
  dsimp only
  rw [foldl_rom (fun _ _ => by simp)]
  dsimp only
  rw [foldl_rom (fun _ _ => by simp), foldl_rom]
  intro s e
  rw [sameRom_iff]
  split <;> simp

@[simp] theorem loseOwner_rom (s : State) (f : Nat) : (s.loseOwner f).rom = s.rom := by
  simp [State.loseOwner]

@[simp] theorem loseFar_rom (s : State) (cores : List Nat) : (s.loseFar cores).rom = s.rom := by
  refine foldl_rom (fun s c => (foldl_rom (fun s j => ?_) _ _).trans ?_) cores s
  · simp
  · dsimp only
    (repeat' split) <;> simp

@[simp] theorem excludeDie_rom (s : State) (f : Nat) : (s.excludeDie f).rom = s.rom := by
  simp [State.excludeDie]

@[simp] theorem failElement_rom (s : State) (e : Nat) : (s.failElement e).rom = s.rom := by
  simp [State.failElement]

@[simp] theorem failLink_rom (s : State) (g : Nat) (l : Link) : (s.failLink g l).rom = s.rom := by
  unfold State.failLink
  dsimp only
  (repeat' split) <;> simp

@[simp] theorem takeOut_rom (s : State) (f : Nat) : (s.takeOut f).rom = s.rom := by
  unfold State.takeOut
  dsimp only
  split <;> rfl

@[simp] theorem stageBytes_rom (g off i : Nat) (l : List Byte) (s : State) : (s.stageBytes g off i l).rom = s.rom := by
  induction l generalizing s i with
  | nil => rfl
  | cons b r ih =>
    unfold State.stageBytes
    dsimp only
    split <;> simp [ih]

/-! Handler actions and the scrubber. -/

@[simp] theorem resume_rom (s : State) (f : FaultRec) : (s.resume f).rom = s.rom := by
  simp [State.resume]

@[simp] theorem spoil_rom (s : State) (t : ScrubTarget) (addr : Nat) (v : Word) : (s.spoil t addr v).rom = s.rom := by
  unfold State.spoil
  split <;> simp

/-! The host's writes. -/

@[simp] theorem writeTail_rom (s : State) (q : Nat) (v : Word) (secure : Bool) : (s.writeTail q v secure).rom = s.rom := by
  simp [State.writeTail]

@[simp] theorem writeCqHead_rom (s : State) (v : Word) : (s.writeCqHead v).rom = s.rom := by
  simp [State.writeCqHead]

@[simp] theorem newDrop_rom (s : State) (g off : Nat) (t : State) : (s.newDrop g off t).rom = t.rom := by
  simp [State.newDrop]

end Sys2Proof.Machine
end

section
/-! SUPPORT. Commands leave Rom. -/

namespace Sys2Proof.Machine

/-! A packet taken from its queue, pins and signals. -/

@[simp] theorem takePacket_rom (s : State) (q : Nat) (p : Rec512) : (s.takePacket q p).1.rom = s.rom := rfl

@[simp] theorem runPin_rom (b : Busy) (s : State) : (runPin b s).rom = s.rom := by
  unfold runPin
  dsimp only
  split <;> simp

@[simp] theorem runUnpin_rom (b : Busy) (s : State) : (runUnpin b s).rom = s.rom := by
  simp [runUnpin]

@[simp] theorem runSignal_rom (b : Busy) (s : State) : (runSignal b s).rom = s.rom := by
  unfold runSignal
  dsimp only
  (repeat' split) <;> simp

/-! Images, bindings and launches. -/

@[simp] theorem runLoadImage_rom (b : Busy) (s : State) : (runLoadImage b s).rom = s.rom := by
  unfold runLoadImage
  dsimp only
  (repeat' split) <;> simp

@[simp] theorem runBind_rom (b : Busy) (s : State) : (runBind b s).rom = s.rom := by
  unfold runBind
  dsimp only
  split <;> simp

@[simp] theorem placeSections_rom (s : State) (i : Image) (ln : Launch) : (s.placeSections i ln).rom = s.rom := by
  refine foldl_rom (fun s x => ?_) _ s
  dsimp only
  split
  · split
    · next t ht => exact (writeVa_rom ..).of_ok ht
    · simp
  · split <;> simp

theorem openSlots_rom (s : State) (g : Nat) (counts : List Nat) (secure : Bool) :
    ∀ x ∈ s.openSlots g counts secure, x.1.rom = s.rom := by
  intro x hx
  unfold State.openSlots at hx
  dsimp only at hx
  split at hx
  · cases hx
  · split at hx
    · cases hx
    · split at hx
      · cases hx
      · cases hx; rfl

theorem openAll_rom (s : State) (i : Image) (ln : Launch) : ∀ x ∈ s.openAll i ln, x.1.rom = s.rom := by
  unfold State.openAll
  refine List.foldlRecOn _ _ (motive := fun a : Option (State × Tab Word) => ∀ x ∈ a, x.1.rom = s.rom) ?_ fun a ha d _ => ?_
  · rintro x ⟨⟩; rfl
  · cases a with
    | none => simp
    | some y =>
      have hy : y.1.rom = s.rom := ha y rfl
      rw [Option.bind_some]
      split
      · simpa using hy
      · split
        · simpa using hy
        · intro x hx
          obtain ⟨z, hz, rfl⟩ := Option.map_eq_some_iff.mp hx
          exact (openSlots_rom _ _ _ _ z hz).trans hy

@[simp] theorem runLaunch_rom (b : Busy) (s : State) : (runLaunch b s).rom = s.rom := by
  unfold runLaunch
  dsimp only
  split
  · simp
  · split
    · simp
    · split
      · simp
      · split
        · simp
        · split
          · simp
          · split
            · simp
            · next t va h =>
              have ht : t.rom = s.rom := openAll_rom _ _ _ (t, va) h
              rw [checkLaunch_rom, foldl_rom]
              · simpa using ht
              · intro u n
                rw [sameRom_iff]
                (repeat' split) <;> simp

/-! Ring commands. -/

@[simp] theorem atPosition_rom (s : State) (m : Nat) : (s.atPosition m).rom = s.rom := by
  simp [State.atPosition]

@[simp] theorem wireRing_rom (s : State) (c : RingCfg) (g : Nat) : (s.wireRing c g).rom = s.rom := rfl

@[simp] theorem runRingConfig_rom (b : Busy) (s : State) : (runRingConfig b s).rom = s.rom := by
  unfold runRingConfig
  dsimp only
  split
  · simp
  · split
    · simp
    · split
      · simp
      · split
        · simp
        · split <;> simp

@[simp] theorem runInject_rom (b : Busy) (s : State) : (runInject b s).rom = s.rom := by
  unfold runInject
  dsimp only
  (repeat' split) <;> simp

/-! The other commands, and the start of any. -/

@[simp] theorem runSlotWrite_rom (b : Busy) (s : State) : (runSlotWrite b s).rom = s.rom := by
  unfold runSlotWrite
  (repeat' split) <;> simp

@[simp] theorem runSlotRead_rom (b : Busy) (s : State) : (runSlotRead b s).rom = s.rom := by
  unfold runSlotRead
  (repeat' split) <;> simp

@[simp] theorem runFence_rom (b : Busy) (s : State) : (runFence b s).rom = s.rom := by
  simp [runFence]

@[simp] theorem cancelWaiting_rom (s : State) (w : Busy) : (s.cancelWaiting w).rom = s.rom := by
  simp [State.cancelWaiting]

@[simp] theorem runTeardown_rom (b : Busy) (s : State) : (runTeardown b s).rom = s.rom := by
  unfold runTeardown
  split <;> simp

@[simp] theorem runResetQueue_rom (b : Busy) (s : State) : (runResetQueue b s).rom = s.rom := by
  simp [runResetQueue]

@[simp] theorem runAttest_rom (b : Busy) (s : State) : (runAttest b s).rom = s.rom := by
  simp [runAttest]

@[simp] theorem run_rom (s : State) (b : Busy) : (s.run b).rom = s.rom := by
  unfold State.run
  split <;> simp

@[simp] theorem start_rom (s : State) (b : Busy) : (s.start b).rom = s.rom := by
  unfold State.start
  split <;> simp

end Sys2Proof.Machine
end

section
/-! SUPPORT. The parts of a cycle leave Rom. -/

namespace Sys2Proof.Machine

/-! Freezes. -/

@[simp] theorem discardMessages_rom (s : State) (cl : Nat) : (s.discardMessages cl).rom = s.rom := by
  simp [State.discardMessages]

@[simp] theorem abandonWork_rom (s : State) (f : Freeze) : (s.abandonWork f).rom = s.rom := by
  unfold State.abandonWork
  dsimp only
  (repeat' split) <;> simp

@[simp] theorem abandon_rom (s : State) (l : List Freeze) : (s.abandon l).rom = s.rom := by
  simp [State.abandon]

/-! Mepen's moves. -/

@[simp] theorem moveRow_rom (s : State) (g h src dst : Nat) : (s.moveRow g h src dst).rom = s.rom := by
  simp [State.moveRow]

/-! The parts of a cycle. -/

@[simp] theorem inPhase_rom (s : State) (p : Phase) : (s.inPhase p).rom = s.rom := rfl

@[simp] theorem withCur_rom (s : State) (q : SeqId) : (s.withCur q).rom = s.rom := rfl

@[simp] theorem enabled_rom (s : State) (cl : Nat) : (s.enabled cl).rom = s.rom := rfl

@[simp] theorem beginStalls_rom (s : State) : s.beginStalls.rom = s.rom := by
  simp [State.beginStalls]

@[simp] theorem serveLate_rom (s : State) (slices : List (Nat × Nat × Nat)) (cl : Nat) :
    (s.serveLate slices cl).rom = s.rom := by
  simp [State.serveLate]

@[simp] theorem frozenCycle_rom (s : State) (cl : Nat) : (s.frozenCycle cl).rom = s.rom := by
  simp [State.frozenCycle]

@[simp] theorem clusterTick_rom (s : State) (slices : List (Nat × Nat × Nat)) (cl : Nat) :
    (s.clusterTick slices cl).rom = s.rom := by
  simp [State.clusterTick]

@[simp] theorem sweep_rom (s : State) : s.sweep.rom = s.rom := by
  simp [State.sweep]

@[simp] theorem hostWrite_rom (s : State) (a : Nat) (l : List Byte) : (s.hostWrite a l).rom = s.rom := rfl

@[simp] theorem tick_rom (s : State) : s.tick.rom = s.rom := by
  simp [State.tick]

end Sys2Proof.Machine
end

section
/-! SUPPORT. What an instruction word goes on to keeps Rom, by the forms that words share. -/

namespace Sys2Proof.Machine

/-- What an instruction's own effect has gone on to is what its word goes on to. -/
theorem conclude_keepsRom {s s' : State} {r : Rom} {x : Res} (q : SeqId) (i : Instr) (g : Bool) (vals : List Word)
    (hs : s.rom = r) (hs' : s'.rom = r) (hx : x.KeepsRom r) : KeepsRom r (conclude s s' q i g vals x) := by
  cases x with
  | done t fl | doneFault t f | faultAt t f => simpa [conclude] using hx
  | wait w => simpa [conclude] using hs'
  | fault f => simpa [conclude] using hs

section Issue

variable {i : Instr} {o : Operands} {body : SeqId → Vals → State → Res} {s : State}

/-- Issuing a word leaves Rom if its effect and its false-guard effect do, from any state with that Rom. -/
theorem issueWith_rom {onFalse : SeqId → State → Res} (hf : ∀ q t, t.rom = s.rom → (onFalse q t).KeepsRom s.rom)
    (hb : ∀ q v t, t.rom = s.rom → (body q v t).KeepsRom s.rom) : KeepsRom s.rom (issueWith i o onFalse body s) := by
  unfold issueWith
  dsimp only
  split
  · split
    · simp
    · split
      · simp
      · simp
      · refine conclude_keepsRom _ _ _ _ rfl (by simp) ?_
        split
        · exact hb _ _ _ (by simp)
        · exact hf _ _ (by simp)
  · simp

theorem issue_rom (hb : ∀ q v t, t.rom = s.rom → (body q v t).KeepsRom s.rom) : KeepsRom s.rom (issue i o body s) :=
  issueWith_rom (fun q t h => by simpa [pushesZero] using h) hb

end Issue

/-! What the effects that several instructions share go on to. -/

section Effects

variable {s o t : State} {r : Rom}

theorem accessStore_rom {k : State → Res} {c class_ last : Nat} {rs : List Range} {banks : List (Nat × Nat)}
    (ho : o.rom = r) (hs : s.rom = r) (hk : ∀ t, t.rom = r → (k t).KeepsRom r) :
    (accessStore s o c class_ last rs banks k).KeepsRom r := by
  unfold accessStore
  dsimp only
  split
  · exact hk _ (by simpa using hs)
  · simpa using ho

theorem accessRows_rom {k : State → Res} {c lat : Nat} {rs : List Range} (ho : o.rom = r) (hs : s.rom = r)
    (hk : ∀ t, t.rom = r → (k t).KeepsRom r) : (accessRows s o c lat rs k).KeepsRom r := by
  unfold accessRows
  dsimp only
  split
  · exact hk _ (by simpa using hs)
  · simpa using ho

theorem sendOrLog_rom (s : State) (c owner : Nat) (op : ReqOp) (va data cmp : Word) (ret atomic : Bool) :
    (s.sendOrLog c owner op va data cmp ret atomic).KeepsRom s.rom := by
  unfold State.sendOrLog
  dsimp only
  split
  · simp only [res_keepsRom_ite, res_keepsRom_wait, res_keepsRom_done, ite_rom, onCore_rom, addReq_rom, ite_self]
  · simp only [res_keepsRom_done, ite_rom, onCore_rom, send_rom, ite_self]

theorem domeAccess_rom (s : State) (c : Nat) (va : Word) (size : Nat) (op : ReqOp) (data cmp : Word) (ret atomic : Bool)
    (acc : Nat) : (domeAccess s c va size op data cmp ret atomic acc).KeepsRom s.rom := by
  unfold domeAccess
  split <;> simp [sendOrLog_rom]

theorem amoAccess_rom (s : State) (c : Nat) (va : Word) (ret : Bool) (op ty : Nat) (data cmp : Word) :
    (amoAccess s c va ret op ty data cmp).KeepsRom s.rom := by
  unfold amoAccess
  split <;> simp [sendOrLog_rom]

theorem zeroReply_rom (q : SeqId) (s : State) : (zeroReply q s).KeepsRom s.rom := by
  simp [zeroReply]

theorem csendTo_rom (q : SeqId) (p : BitVec 3) (isRow : Bool) (v : Row) (s : State) :
    (csendTo q p isRow v s).KeepsRom s.rom := by
  unfold csendTo
  split
  · simp
  · split <;> simp

theorem csendFalse_rom (p : BitVec 3) (isRow : Bool) (q : SeqId) (s : State) :
    (csendFalse p isRow q s).KeepsRom s.rom := by
  unfold csendFalse
  split
  · simp
  · exact csendTo_rom ..

theorem crecvFrom_rom {k : Row → State → Res} (q : SeqId) (p : BitVec 3) (isRow : Bool) (ho : o.rom = r) (hs : s.rom = r)
    (hk : ∀ v t, t.rom = r → (k v t).KeepsRom r) : (crecvFrom q p isRow o s k).KeepsRom r := by
  unfold crecvFrom
  dsimp only
  split
  · simp
  · split
    · simp
    · split
      · simpa using ho
      · next m _ =>
        have h := hk m.val (s.clearArrivals q.core) (by simpa using hs)
        split
        · exact h
        · split
          · next e => rw [e] at h; simpa using h
          · exact h

theorem crecvFalse_rom (o : Operands) (q : SeqId) (s : State) : (crecvFalse o q s).KeepsRom s.rom := by
  simp [crecvFalse, pushesZero]

theorem endIteration_rom (q : SeqId) (rn : Nat) (x : Rec) (hold : Bool) (hs : s.rom = r) :
    (endIteration s q rn x hold).KeepsRom r := by
  simp [endIteration, hs]

end Effects

/-! What issuing a word of each form goes on to. -/

section Forms

variable {i : Instr} {s : State}

theorem alu2_rom {d a b : BitVec 5} {lat : Nat} {f : Word → Word → Word} : KeepsRom s.rom (alu2 i d a b lat f s) :=
  issue_rom fun q v t h => by simpa using h

theorem alu1_rom {d a : BitVec 5} {f : Word → Word} : KeepsRom s.rom (alu1 i d a f s) :=
  issue_rom fun q v t h => by simpa using h

theorem pred2_rom {d a b : BitVec 3} {f : Bool → Bool → Bool} : KeepsRom s.rom (pred2 i d a b f s) :=
  issue_rom fun q v t h => by simpa using h

theorem branch_rom {t : BitVec 2} {link : Bool} : KeepsRom s.rom (branch i t link s) :=
  issueWith_rom (fun q t h => h) fun q v t h => by
    dsimp only
    split <;> simp [h]

theorem yieldOn_rom {sv : BitVec 5} {c : Word → WaitCond} {bad : Bool} : KeepsRom s.rom (yieldOn i sv c bad s) :=
  issue_rom fun q v t h => by
    split
    · simp
    · dsimp only
      split
      · trivial
      · exact endIteration_rom _ _ _ _ h

theorem explicitWait_rom {o : Operands} {ok : SeqId → Vals → State → Bool} {w : SeqId → Vals → WaitCond} :
    KeepsRom s.rom (explicitWait i o ok w s) :=
  issue_rom fun q v t h => by simp [h]

theorem postCounter_rom {a : BitVec 5} {rem : BitVec 1} {c : BitVec 3} {t : Nat → Target} :
    KeepsRom s.rom (postCounter i a rem c t s) :=
  issue_rom fun q v t h => by
    split
    · simp [h]
    · split <;> simp [h]

theorem fence_rom {w : WaitCond} {module : Bool} : KeepsRom s.rom (fence i w module s) :=
  issue_rom fun q v t h => by simp [h]

theorem vecRow_rom {vd : BitVec 5} {vsrcs srcs : List (BitVec 5)} {lat : Nat} {acc : Bool}
    {f : VCtx → Vals → Row × Row × Word} :
    KeepsRom s.rom (vecRow i vd vsrcs srcs lat acc f s) := by
  unfold vecRow
  exact issue_rom fun q v t h => accessRows_rom rfl h fun u hu => by simp [hu]

theorem vecMask_rom {md : BitVec 3} {vsrcs srcs : List (BitVec 5)} {lat : Nat} {f : VCtx → Vals → Mask} :
    KeepsRom s.rom (vecMask i md vsrcs srcs lat f s) :=
  issue_rom fun q v t h => accessRows_rom rfl h fun u hu => by simp [hu]

theorem vecScalar_rom {sd va : BitVec 5} {srcs : List (BitVec 5)} {lat : Nat} {f : VCtx → Vals → Word × Word} :
    KeepsRom s.rom (vecScalar i sd va srcs lat f s) :=
  issue_rom fun q v t h => accessRows_rom rfl h fun u hu => by simp [hu]

theorem maskOp_rom {d : BitVec 3} {f : VCtx → Mask} : KeepsRom s.rom (maskOp i d f s) :=
  issue_rom fun q v t h => by simp [h]

theorem issueMatrix_rom {chk : State → Nat → Except FaultInfo (List Word × List Rec512)} :
    KeepsRom s.rom (issueMatrix i chk s) :=
  issueWith_rom (fun q t h => h) fun q v t h => by
    split
    · simp
    · split <;> simp [h]

theorem issueEngine_rom {e : Nat} {srcs : List (BitVec 5)}
    {chk : State → Nat → Vals → Except FaultInfo (List Word × List Rec512)} :
    KeepsRom s.rom (issueEngine i e srcs chk s) :=
  issueWith_rom (fun q t h => h) fun q v t h => by split <;> simp [h]

theorem blockCmd_rom {e : Nat} {sv : BitVec 5} : KeepsRom s.rom (blockCmd i e sv s) := issueEngine_rom

end Forms

end Sys2Proof.Machine
end

section
/-! SUPPORT. The events of the engines and of the owner of a page keep Rom. -/

namespace Sys2Proof.Machine

/-! The matrix engine. -/

@[simp] theorem execMatrixCommandStart_rom (c : Nat) (s : State) : KeepsRom s.rom (execMatrixCommandStart c s) := by
  unfold execMatrixCommandStart
  dsimp only
  (repeat' split) <;> simp

@[simp] theorem matrixEcc_rom (c : Nat) (s : State) : KeepsRom s.rom (matrixEcc c s) := by
  unfold matrixEcc
  dsimp only
  (repeat' split) <;> simp

@[simp] theorem execMatrixOperandRelease_rom (c : Nat) (s : State) : KeepsRom s.rom (execMatrixOperandRelease c s) := by
  unfold execMatrixOperandRelease
  dsimp only
  (repeat' split) <;> simp

@[simp] theorem execMatrixCompletion_rom (c : Nat) (s : State) : KeepsRom s.rom (execMatrixCompletion c s) := by
  unfold execMatrixCompletion
  refine .ite (by simp) ?_
  split
  · simp
  · simp only [keepsRom_next, onCore_rom, completeCmd_rom, dropAll_rom, ite_rom, later_rom, ite_self]

/-! The owner of a page and its accesses. -/

@[simp] theorem execOwnerAccess_rom (src dst : Nat) (s : State) : KeepsRom s.rom (execOwnerAccess src dst s) := by
  unfold execOwnerAccess
  split <;> simp

@[simp] theorem execHeldAccessRelease_rom (src dst : Nat) (s : State) : KeepsRom s.rom (execHeldAccessRelease src dst s) := by
  unfold execHeldAccessRelease
  split <;> simp

@[simp] theorem reportRefused_rom (c : Nat) (s : State) : KeepsRom s.rom (reportRefused c s) := by
  unfold reportRefused
  split <;> simp

@[simp] theorem execApertureRequest_rom (src dst : Nat) (s : State) : KeepsRom s.rom (execApertureRequest src dst s) := by
  unfold execApertureRequest
  split
  · simp
  · split <;> simp

@[simp] theorem execClockBeaconSend_rom (die : Nat) (s : State) : KeepsRom s.rom (execClockBeaconSend die s) := by
  simp [execClockBeaconSend]

@[simp] theorem execClockBeaconReceive_rom (src dst : Nat) (s : State) : KeepsRom s.rom (execClockBeaconReceive src dst s) := by
  unfold execClockBeaconReceive
  split <;> simp

@[simp] theorem execReplyWrite_rom (core : Nat) (s : State) : KeepsRom s.rom (execReplyWrite core s) := by
  unfold execReplyWrite
  (repeat' split) <;> simp

@[simp] theorem execSideLogReplayStep_rom (core : Nat) (s : State) : KeepsRom s.rom (execSideLogReplayStep core s) := by
  unfold execSideLogReplayStep
  split
  · simp
  · split <;> simp

/-! The copy engine. -/

theorem startCopy_rom (s : State) (c : Nat) (j : Job) (p : CPlan) : KeepsRom s.rom (s.startCopy c j p) := by
  unfold State.startCopy
  dsimp only
  (repeat' split) <;> simp

@[simp] theorem execCopyItemStart_rom (c : Nat) (s : State) : KeepsRom s.rom (execCopyItemStart c s) := by
  unfold execCopyItemStart
  extract_lets k now
  refine .ite (by simp) (.ite (by simp) ?_)
  split
  · simp
  · next cmd old _ =>
    extract_lets r t j at_ e early j'
    have ht : t.rom = s.rom := copyJob_rom ..
    clear_value early
    refine .ite (by simpa using ht) ?_
    split
    · simpa using ht
    · refine .ite (by simpa using ht) ?_
      split
      · simpa using ht
      · exact (startCopy_rom ..).of_eq ht

@[simp] theorem copyFetch_rom (c : Nat) (s : State) : KeepsRom s.rom (copyFetch c s) := by
  unfold copyFetch
  dsimp only
  (repeat' split) <;> simp

@[simp] theorem copyWrite_rom (c : Nat) (s : State) : KeepsRom s.rom (copyWrite c s) := by
  unfold copyWrite
  dsimp only
  (repeat' split) <;> simp

@[simp] theorem copyCard_rom (c : Nat) (s : State) : KeepsRom s.rom (copyCard c s) := by
  unfold copyCard
  split <;> simp

@[simp] theorem execCopyCompletion_rom (c : Nat) (s : State) : KeepsRom s.rom (execCopyCompletion c s) := by
  unfold execCopyCompletion
  (repeat' split) <;> simp

/-! The Truss. -/

@[simp] theorem execTrussPhaseStart_rom (cl : Nat) (s : State) : KeepsRom s.rom (execTrussPhaseStart cl s) := by
  unfold execTrussPhaseStart
  split
  · simp
  · split <;> simp

@[simp] theorem trussFetch_rom (cl p : Nat) (s : State) : KeepsRom s.rom (trussFetch cl p s) := by
  unfold trussFetch
  dsimp only
  (repeat' split) <;> simp

@[simp] theorem trussOverflow_rom (cl : Nat) (s : State) : KeepsRom s.rom (trussOverflow cl s) := by
  unfold trussOverflow
  dsimp only
  (repeat' split) <;> simp

@[simp] theorem trussEnter_rom (cl : Nat) (s : State) : KeepsRom s.rom (trussEnter cl s) := by
  unfold trussEnter
  dsimp only
  (repeat' split) <;> simp

@[simp] theorem trussEcc_rom (cl : Nat) (s : State) : KeepsRom s.rom (trussEcc cl s) := by
  unfold trussEcc
  (repeat' split) <;> simp

@[simp] theorem trussLeave_rom (cl : Nat) (s : State) : KeepsRom s.rom (trussLeave cl s) := by
  unfold trussLeave
  split
  · simp
  · split
    · simp
    · extract_lets now
      split
      · refine .ite (by simp) ?_
        extract_lets vas r
        have hr : Ensures (fun o : Option State => ∀ t ∈ o, t.rom = s.rom) r := by
          unfold r
          split
          · exact packBlock_rom ..
          · exact .map (by simpa using writePort_rom ..)
        clear_value r
        split
        · simp
        · simp
        · next u =>
          have hu : u.rom = s.rom := ensures_ok.mp hr u rfl
          simp [hu]
      · simp

@[simp] theorem execTrussPhaseEnd_rom (cl : Nat) (s : State) : KeepsRom s.rom (execTrussPhaseEnd cl s) := by
  unfold execTrussPhaseEnd
  split
  · simp
  · split <;> simp

/-! The walker of the KV lists. -/

@[simp] theorem execWalkerJob_rom (c : Nat) (s : State) : KeepsRom s.rom (execWalkerJob c s) := by
  unfold execWalkerJob
  dsimp only
  split
  · simp
  · split
    · simp
    · split
      · simp
      · split
        · next d hd => simpa using (walkerDo_rom ..).of_ok hd
        · simp
        · simp

/-! The decode unit. -/

@[simp] theorem execDecodeItemStart_rom (cl : Nat) (s : State) : KeepsRom s.rom (execDecodeItemStart cl s) := by
  unfold execDecodeItemStart
  refine .ite (by simp) ?_
  split
  · simp
  · next c cmd _ =>
    extract_lets k now a b d fn r t j g sec
    have ht : t.rom = s.rom := takeItem_rom ..
    refine .ite (by simp) (.ite (by simp [ht]) ?_)
    split
    · simp [ht]
    · split
      · simp [ht]
      · dsimp only
        refine .ite (by simp [ht]) (.ite (by simp [ht]) (.ite (by simp [ht]) ?_))
        split
        · simp [ht]
        · split
          · simp
          · refine .ite (by simp) (.ite (by simp [ht]) ?_)
            split <;> simp [ht]

@[simp] theorem decodeRow_rom (cl : Nat) (s : State) : KeepsRom s.rom (decodeRow cl s) := by
  unfold decodeRow
  (repeat' split) <;> simp

@[simp] theorem execDecodeItemComplete_rom (cl : Nat) (s : State) : KeepsRom s.rom (execDecodeItemComplete cl s) := by
  unfold execDecodeItemComplete
  dsimp only
  (repeat' split) <;> simp

/-! The encoder. -/

@[simp] theorem execEncoderJobStart_rom (g : Nat) (s : State) : KeepsRom s.rom (execEncoderJobStart g s) := by
  unfold execEncoderJobStart
  dsimp only
  (repeat' split) <;> simp

@[simp] theorem execEncoderBlockComplete_rom (g : Nat) (s : State) : KeepsRom s.rom (execEncoderBlockComplete g s) := by
  unfold execEncoderBlockComplete
  dsimp only
  split
  · simp
  · split
    · simp
    · split
      · simp
      · split
        · simp
        · split
          · simp
          · next t ht =>
            have h₁ := (writeDome_rom ..).of_ok ht
            split
            · simp
            · next u hu =>
              have h₂ := (writeDome_rom ..).of_ok hu
              simp [h₁, h₂]

/-! The I/O engine. -/

theorem ioStart_rom (s : State) (c : Nat) (cmd : Cmd) : KeepsRom s.rom (s.ioStart c cmd) := by
  unfold State.ioStart
  dsimp only
  (repeat' split) <;> simp

@[simp] theorem execIoRequestSend_rom (c : Nat) (s : State) : KeepsRom s.rom (execIoRequestSend c s) := by
  unfold execIoRequestSend
  dsimp only
  split
  · simp
  · split
    · simp
    · split <;> simp [ioStart_rom]

@[simp] theorem ioCopy_rom (c : Nat) (s : State) : KeepsRom s.rom (ioCopy c s) := by
  unfold ioCopy
  dsimp only
  split
  · simp
  · split
    · next t ht => simpa using (writeDome_rom ..).of_ok ht
    · simp

@[simp] theorem execIoResponsePoll_rom (g : Nat) (s : State) : KeepsRom s.rom (execIoResponsePoll g s) := by
  simp [execIoResponsePoll]

@[simp] theorem execIoCompletion_rom (c : Nat) (s : State) : KeepsRom s.rom (execIoCompletion c s) := by
  unfold execIoCompletion
  refine .ite (by simp) ?_
  split
  · simp
  · refine .ite (by simp) (.ite (by simp) ?_)
    simp only [keepsRom_next, ioEnd_rom, onDie_rom, dropAll_rom, ite_rom, postOutside_rom, onCore_rom, ite_self]

end Sys2Proof.Machine
end

section
/-! SUPPORT. The events of records, ring, links, faults and host keep Rom. -/

namespace Sys2Proof.Machine

/-! Records and slots. -/

@[simp] theorem execRecordRetire_rom (c : Nat) (s : State) : KeepsRom s.rom (execRecordRetire c s) := by
  unfold execRecordRetire
  (repeat' split) <;> simp

@[simp] theorem execContextSave_rom (c : Nat) (s : State) : KeepsRom s.rom (execContextSave c s) := by
  unfold execContextSave
  dsimp only
  split
  · simp
  · split
    · simp
    · split
      · simp
      · split
        · simp
        · split
          · simp
          · next t ht =>
            have h : t.rom = s.rom := by
              split at ht
              · cases ht
              · exact (writeDome_rom ..).of_ok ht
            simp [h]

@[simp] theorem execRecordStart_rom (c : Nat) (s : State) : KeepsRom s.rom (execRecordStart c s) := by
  unfold execRecordStart
  dsimp only
  (repeat' split) <;> simp

@[simp] theorem execPreemptLimit_rom (c : Nat) (s : State) : KeepsRom s.rom (execPreemptLimit c s) := by
  simp [execPreemptLimit]

@[simp] theorem execYieldConditionMet_rom (n : Nat) (s : State) : KeepsRom s.rom (execYieldConditionMet n s) := by
  unfold execYieldConditionMet
  split <;> simp

@[simp] theorem execRecordLate_rom (n : Nat) (s : State) : KeepsRom s.rom (execRecordLate n s) := by
  unfold execRecordLate
  split <;> simp

@[simp] theorem execTileDispatch_rom (g : Nat) (s : State) : KeepsRom s.rom (execTileDispatch g s) := by
  unfold execTileDispatch
  split <;> simp

/-! The Viaduct. -/

@[simp] theorem bridgeBeat_rom (s : State) : KeepsRom s.rom (bridgeBeat s) := by
  simp [bridgeBeat]

@[simp] theorem bridgeHold_rom (s : State) : KeepsRom s.rom (bridgeHold s) := by
  simp [bridgeHold]

@[simp] theorem execBeatSlotEgress_rom (g : Nat) (s : State) : KeepsRom s.rom (execBeatSlotEgress g s) := by
  unfold execBeatSlotEgress
  dsimp only
  (repeat' split) <;> simp

@[simp] theorem execHeaderBeatWrite_rom (g : Nat) (s : State) : KeepsRom s.rom (execHeaderBeatWrite g s) := by
  unfold execHeaderBeatWrite
  extract_lets d
  split
  · simp
  · split
    · simp
    · extract_lets h chk trust who len bad good i expect s₁ s₂
      have h₂ : s₂.rom = s.rom := by
        unfold s₂
        clear_value bad
        split <;> simp [s₁]
      simp only [keepsRom_ite, keepsRom_next, ite_rom, turnMarker_rom, raiseFor_rom, h₂, ite_self]

@[simp] theorem execPayloadBeatWrite_rom (g : Nat) (s : State) : KeepsRom s.rom (execPayloadBeatWrite g s) := by
  unfold execPayloadBeatWrite
  dsimp only
  (repeat' split) <;> simp

@[simp] theorem execHoldValueReceive_rom (g h : Nat) (s : State) : KeepsRom s.rom (execHoldValueReceive g h s) := by
  unfold execHoldValueReceive
  dsimp only
  split <;> simp

@[simp] theorem execHoldLimit_rom (g : Nat) (s : State) : KeepsRom s.rom (execHoldLimit g s) := by
  unfold execHoldLimit
  dsimp only
  split
  · simp
  · split
    · simp
    · rw [keepsRom_next, onDie_rom, foldl_rom]
      intro t n
      rw [sameRom_iff]
      split
      · rfl
      · (repeat' split) <;> simp

@[simp] theorem execViaductItemStart_rom (c : Nat) (s : State) : KeepsRom s.rom (execViaductItemStart c s) := by
  unfold execViaductItemStart
  dsimp only
  (repeat' split) <;> simp

@[simp] theorem execSegmentInsertComplete_rom (c : Nat) (s : State) : KeepsRom s.rom (execSegmentInsertComplete c s) := by
  unfold execSegmentInsertComplete
  split
  · simp
  · split <;> simp

@[simp] theorem execKeycSyncToken_rom (g : Nat) (s : State) : KeepsRom s.rom (execKeycSyncToken g s) := by
  unfold execKeycSyncToken
  split <;> simp

/-! Link training, failures and repair. -/

@[simp] theorem execVersionToken_rom (g : Nat) (s : State) : KeepsRom s.rom (execVersionToken g s) := by
  unfold execVersionToken
  dsimp only
  (repeat' split) <;> simp

@[simp] theorem execCommitToken_rom (g : Nat) (s : State) : KeepsRom s.rom (execCommitToken g s) := by
  unfold execCommitToken
  dsimp only
  (repeat' split) <;> simp

@[simp] theorem execRingSyncToken_rom (g : Nat) (s : State) : KeepsRom s.rom (execRingSyncToken g s) := by
  unfold execRingSyncToken
  split <;> simp

@[simp] theorem execLinkFailure_rom (g : Nat) (l : Link) (s : State) : KeepsRom s.rom (execLinkFailure g l s) := by
  simp [execLinkFailure]

@[simp] theorem execLinkRetry_rom (g : Nat) (s : State) : KeepsRom s.rom (execLinkRetry g s) := by
  unfold execLinkRetry
  split <;> simp

@[simp] theorem execFecCodewordDrop_rom (g : Nat) (s : State) : KeepsRom s.rom (execFecCodewordDrop g s) := by
  simp [execFecCodewordDrop]

@[simp] theorem execLanternHeartbeat_rom (g : Nat) (s : State) : KeepsRom s.rom (execLanternHeartbeat g s) := by
  unfold execLanternHeartbeat
  dsimp only
  (repeat' split) <;> simp

@[simp] theorem execHeartbeatTimeout_rom (g : Nat) (s : State) : KeepsRom s.rom (execHeartbeatTimeout g s) := by
  unfold execHeartbeatTimeout
  split <;> simp

@[simp] theorem execRingFailureDetect_rom (f : Nat) (s : State) : KeepsRom s.rom (execRingFailureDetect f s) := by
  simp [execRingFailureDetect]

@[simp] theorem failureAbroad_rom (s : State) : KeepsRom s.rom (failureAbroad s) := by
  simp [failureAbroad]

@[simp] theorem execRepairSwitch_rom (s : State) : KeepsRom s.rom (execRepairSwitch s) := by
  unfold execRepairSwitch
  split
  · simp
  · split
    · simp
    · extract_lets n up after m s₁ s₂ s₃ s₄ s₅ s₆
      have h₂ : s₂.rom = s.rom := by
        unfold s₂
        split <;> simp [s₁]
      have h₅ : s₅.rom = s.rom := by
        unfold s₅
        split <;> simp [s₄, s₃, h₂]
      simp [s₆, h₅]

@[simp] theorem execRepairRebalance_rom (s : State) : KeepsRom s.rom (execRepairRebalance s) := by
  unfold execRepairRebalance
  dsimp only
  (repeat' split) <;> simp

@[simp] theorem reinjectStart_rom (s : State) : KeepsRom s.rom (reinjectStart s) := by
  simp [reinjectStart]

@[simp] theorem execReinjection_rom (g : Nat) (s : State) : KeepsRom s.rom (execReinjection g s) := by
  unfold execReinjection
  dsimp only
  (repeat' split) <;> simp

/-! Link training. -/

@[simp] theorem execLinkTrainingComplete_rom (g : Nat) (l : Link) (ok : Bool) (repaired : BitVec 8) (latency : BitVec 16)
    (holdLatency farMin farMax : BitVec 8) (s : State) :
    KeepsRom s.rom (execLinkTrainingComplete g l ok repaired latency holdLatency farMin farMax s) := by
  simp [execLinkTrainingComplete]

/-! Fault records, handler actions and the scrubber. -/

@[simp] theorem execFaultRecordDelivery_rom (g : Nat) (s : State) : KeepsRom s.rom (execFaultRecordDelivery g s) := by
  unfold execFaultRecordDelivery
  split <;> simp

/-- An action of a handler leaves Rom if its effect on the record does (R256 to R258). -/
theorem handle_rom {g fseq action : Nat} {effect : FaultRec → State → State} {s : State}
    (h : ∀ f t, (effect f t).rom = t.rom) : KeepsRom s.rom (handle g fseq action effect s) := by
  unfold handle
  split
  · simp
  · split <;> simp [h]

@[simp] theorem execResume_rom (g : Nat) (fseq : BitVec 32) (s : State) : KeepsRom s.rom (execResume g fseq s) :=
  handle_rom fun f t => by simp

@[simp] theorem execReplay_rom (g : Nat) (fseq : BitVec 32) (s : State) : KeepsRom s.rom (execReplay g fseq s) :=
  handle_rom fun f t => by simp

@[simp] theorem execKillRecord_rom (g : Nat) (fseq : BitVec 32) (s : State) : KeepsRom s.rom (execKillRecord g fseq s) :=
  handle_rom fun f t => by split <;> simp

@[simp] theorem execKillLaunch_rom (g : Nat) (fseq : BitVec 32) (s : State) : KeepsRom s.rom (execKillLaunch g fseq s) :=
  handle_rom fun f t => by
    split
    · rfl
    · split <;> simp

@[simp] theorem execScrubRead_rom (t : ScrubTarget) (addr : Nat) (s : State) : KeepsRom s.rom (execScrubRead t addr s) := by
  unfold execScrubRead
  dsimp only
  (repeat' split) <;> simp

/-! The host's writes and messages. -/

@[simp] theorem execSqTailWrite_rom (q : BitVec 4) (value : Word) (secure : Bool) (s : State) :
    KeepsRom s.rom (execSqTailWrite q value secure s) := by
  simp [execSqTailWrite]

@[simp] theorem execCqHeadWrite_rom (value : Word) (s : State) : KeepsRom s.rom (execCqHeadWrite value s) := by
  simp [execCqHeadWrite]

@[simp] theorem execCqInterruptTimer_rom (s : State) : KeepsRom s.rom (execCqInterruptTimer s) := by
  simp [execCqInterruptTimer]

@[simp] theorem execFqHeadWrite_rom (g : Nat) (value : Word) (s : State) : KeepsRom s.rom (execFqHeadWrite g value s) := by
  simp [execFqHeadWrite]

theorem writeFres_rom (g : Nat) (v : Word) (s : State) : KeepsRom s.rom (writeFres g v s) := by
  unfold writeFres
  dsimp only
  split <;> simp [execResume_rom, execReplay_rom, execKillRecord_rom, execKillLaunch_rom]

theorem writeWindow_rom (s : State) (g off : Nat) (v : Word) (w : Writer) : KeepsRom s.rom (s.writeWindow g off v w) := by
  simp [State.writeWindow, writeFres_rom]

@[simp] theorem execRegisterWrite_rom (g : Nat) (off : BitVec 16) (value : Word) (w : Writer) (s : State) :
    KeepsRom s.rom (execRegisterWrite g off value w s) := by
  simp [execRegisterWrite, writeWindow_rom]

@[simp] theorem execSpokeMessage_rom (g : Nat) (msg : Option SpokeIn) (s : State) :
    KeepsRom s.rom (execSpokeMessage g msg s) := by
  unfold execSpokeMessage
  split
  · simp
  · split
    · simp
    · split <;> simp [writeWindow_rom]

@[simp] theorem execKvUnitDisable_rom (g : Nat) (s : State) : KeepsRom s.rom (execKvUnitDisable g s) := by
  simp [execKvUnitDisable]

@[simp] theorem execTlbRewrite_rom (g : Nat) (va leaf : Word) (s : State) : KeepsRom s.rom (execTlbRewrite g va leaf s) := by
  unfold execTlbRewrite
  split <;> simp

@[simp] theorem applyRewrite_rom (g : Nat) (s : State) : KeepsRom s.rom (applyRewrite g s) := by
  unfold applyRewrite
  dsimp only
  split <;> simp

/-! Commands and signals taken. -/

@[simp] theorem signalDone_rom (s : State) : KeepsRom s.rom (signalDone s) := by
  simp [signalDone]

theorem takeCommand_rom (opc : Nat) (q : BitVec 4) (packet : Rec512) (s : State) :
    KeepsRom s.rom (takeCommand opc q packet s) := by
  unfold takeCommand
  dsimp only
  (repeat' split) <;> simp

@[simp] theorem execUnknownOpcPacket_rom (q : BitVec 4) (packet : Rec512) (s : State) :
    KeepsRom s.rom (execUnknownOpcPacket q packet s) := by
  simp [execUnknownOpcPacket]

@[simp] theorem execDependencyResolved_rom (q : BitVec 4) (s : State) : KeepsRom s.rom (execDependencyResolved q s) := by
  unfold execDependencyResolved
  split
  · simp
  · split <;> simp

/-! What happens in a cluster: results, waits, messages, freezes and words that are no instruction. -/

@[simp] theorem execLatencyElapsed_rom (c : Nat) (s : State) : KeepsRom s.rom (execLatencyElapsed c s) := by
  unfold execLatencyElapsed
  dsimp only
  (repeat' split) <;> simp

@[simp] theorem execExplicitWaitComplete_rom (q : SeqId) (s : State) : KeepsRom s.rom (execExplicitWaitComplete q s) := by
  simp [execExplicitWaitComplete]

@[simp] theorem execClusterMessageArrival_rom (c : Nat) (s : State) : KeepsRom s.rom (execClusterMessageArrival c s) := by
  simp [execClusterMessageArrival]

@[simp] theorem execDomelate_rom (cl : Nat) (s : State) : KeepsRom s.rom (execDomelate cl s) := by
  unfold execDomelate
  split <;> simp

@[simp] theorem execFreezeEnd_rom (cl : Nat) (s : State) : KeepsRom s.rom (execFreezeEnd cl s) := by
  simp [execFreezeEnd]

@[simp] theorem execWatchdog_rom (cl : Nat) (s : State) : KeepsRom s.rom (execWatchdog cl s) := by
  simp [execWatchdog]

@[simp] theorem execNonInstructionWord_rom (word : BitVec 32) (s : State) : KeepsRom s.rom (execNonInstructionWord word s) := by
  unfold execNonInstructionWord
  dsimp only
  split <;> simp

/-! Mepen's moves. -/

@[simp] theorem mepenHandle_rom (g : Nat) (s : State) : KeepsRom s.rom (mepenHandle g s) := by
  unfold mepenHandle
  dsimp only
  split
  · simp
  · split
    · simp [execReplay_rom, execResume_rom]
    · exact execKillRecord_rom ..
    · exact (execTlbRewrite_rom ..).of_eq (onDie_rom ..)
    · exact (execTlbRewrite_rom ..).of_eq (onDie_rom ..)

@[simp] theorem mepenMove_rom (g : Nat) (s : State) : KeepsRom s.rom (mepenMove g s) := by
  unfold mepenMove
  dsimp only
  split
  · simp
  · split
    · simp
    · split
      · exact (execTlbRewrite_rom ..).of_eq (onDie_rom ..)
      · simp

end Sys2Proof.Machine
end

section
/-! SUPPORT. Every instruction and every event outside boot and reset keeps Rom. -/

namespace Sys2Proof.Machine

theorem exec_rom {s : State} {i : Instr} (h : i.boots = false) : KeepsRom s.rom (exec i s) := by
  cases i with
  | add | sub | and | or | xor | andn | shl | shr | sra | rot | mul | mulh | mulhn | min | max | minn | maxn | div | divn |
    rem | remn =>
    simp only [exec, execAdd, execSub, execAnd, execOr, execXor, execAndn, execShl, execShr, execSra, execRot,
      execMul, execMulh, execMulhn, execMin, execMax, execMinn, execMaxn, execDiv, execDivn, execRem, execRemn]
    exact alu2_rom
  | clz | ctz | popc | addi | andi | ori | xori | shli | shri | srai | roti | sxt | zxt =>
    simp only [exec, execClz, execCtz, execPopc, execAddi, execAndi, execOri, execXori, execShli, execShri, execSrai,
      execRoti, execSxt, execZxt]
    exact alu1_rom
  | pand | por | pxor | pandn | pnot | pmov =>
    simp only [exec, execPand, execPor, execPxor, execPandn, execPnot, execPmov]
    exact pred2_rom
  | br | brl =>
    simp only [exec, execBr, execBrl]
    exact branch_rom
  | yieldK | yieldIo =>
    simp only [exec, execYieldK, execYieldIo]
    exact yieldOn_rom
  | fenceCore | fenceCluster | fenceDie | fenceModule | fenceX =>
    simp only [exec, execFenceCore, execFenceCluster, execFenceDie, execFenceModule, execFenceX]
    exact fence_rom
  | kwait | ewait | qwait =>
    simp only [exec, execKwait, execEwait, execQwait]
    exact explicitWait_rom
  | kadd | kset =>
    simp only [exec, execKadd, execKset]
    exact postCounter_rom
  | vabs | vneg | vmov | vexp2 | vlog2 | vrcp | vrsqrt | vsqrt | vtanh | vsigm | vclp | vadd | vsub | vmul | vmin | vmax |
    viadd | visub | vimul | vimin | vimax | vand | vor | vxor | vshl | vshr | vsra | vfma | vfms | vadds | vsubs | vmuls |
    vmins | vmaxs | vsel | vfmas | vbc | vrot | vpk | vupk | vcvi | vcvf | vperm =>
    simp only [exec, execVabs, execVneg, execVmov, execVexp2, execVlog2, execVrcp, execVrsqrt, execVsqrt, execVtanh,
      execVsigm, execVclp, execVadd, execVsub, execVmul, execVmin, execVmax, execViadd, execVisub, execVimul,
      execVimin, execVimax, execVand, execVor, execVxor, execVshl, execVshr, execVsra, execVfma, execVfms, execVadds,
      execVsubs, execVmuls, execVmins, execVmaxs, execVsel, execVfmas, execVbc, execVrot, execVpk, execVupk, execVcvi,
      execVcvf, execVperm]
    exact vecRow_rom
  | vcmp | vicmp | vtopk =>
    simp only [exec, execVcmp, execVicmp, execVtopk]
    exact vecMask_rom
  | vsum | vrmax | vrmin | vargmax | vext =>
    simp only [exec, execVsum, execVrmax, execVrmin, execVargmax, execVext]
    exact vecScalar_rom
  | mand | mor | mxor | mnot | mset | mclr | mfirst =>
    simp only [exec, execMand, execMor, execMxor, execMnot, execMset, execMclr, execMfirst]
    exact maskOp_rom
  | mma | mzero =>
    simp only [exec, execMma, execMzero]
    exact issueMatrix_rom
  | cpy | tload | tbind | tbar | segk | segr | segi =>
    simp only [exec, execCpy, execTload, execTbind, execTbar, execSegk, execSegr, execSegi]
    exact issueEngine_rom
  | kvres | kvapp | kvret | kvfork | kvsel | kvgat | dattn | dattnRot | dbnd | dsum =>
    simp only [exec, execKvres, execKvapp, execKvret, execKvfork, execKvsel, execKvgat, execDattn, execDattnRot,
      execDbnd, execDsum]
    exact blockCmd_rom
  | mtbt | mfbt | ldi | lsi | cmp | cmpi | pget | pput | pbr | loop | exit | bpop | lqz | gcnt | ktest | kget | eseq
    | rsr | nop | trap | brk | vany | vall | mcnt | vwset | vwin | dmod | chs | segt =>
    simp only [exec, execMtbt, execMfbt, execLdi, execLsi, execCmp, execCmpi, execPget, execPput, execPbr, execLoop,
      execExit, execBpop, execLqz, execGcnt, execKtest, execKget, execEseq, execRsr, execNop, execTrap,
      execBrk, execVany, execVall, execMcnt, execVwset, execVwin, execDmod, execChs, execSegt]
    exact issue_rom fun _ _ _ h => by simp [h]
  | bpush =>
    simp only [exec, execBpush]
    exact issue_rom fun _ _ _ h => by simp only [res_keepsRom_done, pushLater_rom, h]
  | wsr | xsr | csync | segw =>
    simp only [exec, execWsr, execXsr, execCsync, execSegw]
    exact issue_rom fun _ _ _ h => by split <;> simp [h]
  | knext =>
    simp only [exec, execKnext]
    refine issue_rom fun _ _ _ h => ?_
    split
    · simp
    · split
      · simp
      · split
        · simpa using h
        · exact endIteration_rom _ _ _ _ h
  | ld | lqr | lqg | dld =>
    simp only [exec, execLd, execLqr, execLqg, execDld]
    refine issue_rom fun _ _ _ h => ?_
    split
    · simp
    · exact accessStore_rom rfl h fun _ hu => by simp [hu]
  | st | sqw | sqs | dst =>
    simp only [exec, execSt, execSqw, execSqs, execDst]
    refine issue_rom fun _ _ _ h => ?_
    split
    · simp
    · split
      · simp
      · exact accessStore_rom rfl h fun _ hu => by simp [hu]
  | gld =>
    simp only [exec, execGld]
    exact issueWith_rom (fun q t h => h ▸ zeroReply_rom q t) fun _ _ _ h => h ▸ domeAccess_rom ..
  | gst =>
    simp only [exec, execGst]
    exact issue_rom fun _ _ _ h => h ▸ domeAccess_rom ..
  | gpop =>
    simp only [exec, execGpop]
    exact issueWith_rom (fun _ _ h => by simp [pushesZero, h]) fun _ _ _ h => by simp [h]
  | amoReturning | amoXchg | amoCas =>
    simp only [exec, execAmoReturning, execAmoXchg, execAmoCas]
    exact issueWith_rom (fun q t h => h ▸ zeroReply_rom q t) fun _ _ _ h => h ▸ amoAccess_rom ..
  | amoReduction | amoF32Reduction =>
    simp only [exec, execAmoReduction, execAmoF32Reduction]
    exact issue_rom fun _ _ _ h => h ▸ amoAccess_rom ..
  | csendS =>
    simp only [exec, execCsendS]
    exact issueWith_rom (fun _ _ h => h ▸ csendFalse_rom ..) fun _ _ _ h => h ▸ csendTo_rom ..
  | csendRow =>
    simp only [exec, execCsendRow]
    refine issueWith_rom (fun _ _ h => h ▸ csendFalse_rom ..) fun _ _ _ h => ?_
    split
    · simp
    · split
      · exact accessStore_rom rfl h fun _ hu => hu ▸ csendTo_rom ..
      · exact h ▸ csendTo_rom ..
  | crecvS =>
    simp only [exec, execCrecvS]
    exact issueWith_rom (fun _ _ h => h ▸ crecvFalse_rom ..) fun _ _ _ h =>
      crecvFrom_rom _ _ _ rfl h fun _ _ hu => by simp [hu]
  | crecvRow =>
    simp only [exec, execCrecvRow]
    refine issueWith_rom (fun _ _ h => h ▸ crecvFalse_rom ..) fun _ _ _ h => ?_
    split
    · simp
    · split
      · simp
      · exact crecvFrom_rom _ _ _ rfl h fun _ _ hu => accessStore_rom (by simp) hu fun _ hy => by simp [hy]
  | cht | tgo | tcenc =>
    simp only [exec, execCht, execTgo, execTcenc]
    exact issueWith_rom (fun _ _ h => h) fun _ _ _ h => by simp [h]
  | iorq =>
    simp only [exec, execIorq]
    refine issueWith_rom (fun _ _ h => h) fun _ _ _ h => ?_
    split
    · simp
    · split <;> simp [h]
  | iocan =>
    simp only [exec, execIocan]
    refine issueWith_rom (fun _ _ h => h) fun _ _ _ h => ?_
    split
    · simp
    · split
      · simp
      · split
        · simp [h]
        · split <;> simp [h]
  | pin | unpin | loadImage | bind | ringConfig | inject | launch | slotWrite | slotRead | signal | fence | resetQueue |
    teardown | attest => exact takeCommand_rom ..
  | keycSyncToken | versionToken | commitToken | ringSyncToken | lanternHeartbeat | heartbeatTimeout | beatSlotEgress |
    headerBeatWrite | payloadBeatWrite | holdValueReceive | holdLimit | ringFailureDetect | spokeMessage |
    dependencyResolved | cqInterruptTimer | tileDispatch | recordStart | contextSave | preemptLimit | yieldConditionMet |
    recordRetire | domelate | freezeEnd | watchdog | explicitWaitComplete | replyWrite | clusterMessageArrival |
    matrixCommandStart | matrixOperandRelease | matrixCompletion | copyItemStart | copyCompletion | trussPhaseStart |
    trussPhaseEnd | walkerJob | decodeItemStart | decodeItemComplete | encoderJobStart | encoderBlockComplete |
    viaductItemStart | segmentInsertComplete | ioRequestSend | ioResponsePoll | ioCompletion | ownerAccess | apertureRequest
    | clockBeaconSend | clockBeaconReceive | heldAccessRelease | sideLogReplayStep | faultRecordDelivery | recordLate |
    latencyElapsed | nonInstructionWord | linkTrainingComplete | linkFailure | linkRetry | fecCodewordDrop | repairSwitch |
    repairRebalance | reinjection | sqTailWrite | cqHeadWrite | fqHeadWrite | registerWrite | kvUnitDisable | tlbRewrite |
    resume | replay | killRecord | killLaunch | scrubRead | unknownOpcPacket =>
    simp [exec]
  | powerOn | computeDieResetRelease | sramInitComplete | bootImageRelay | bootImageVerify | thermalMeasurement |
    moduleReset => cases h

end Sys2Proof.Machine
end

section
/-! SUPPORT. Every instruction and every event keeps the straps and the fuses. -/

namespace Sys2Proof.Machine

/-- What straps and fuses fix of a part: its variant, the key's hash and the seeds of its dies. -/
def Rom.fuses (r : Rom) : Variant × BitVec 256 × Tab (BitVec 256) := (r.variant, r.keyHash, r.seeds)

/-- An answer that is a next state only with the straps and fuses of Rom r. -/
def KeepsFuses (r : Rom) : Out → Prop
  | .next t => t.rom.fuses = r.fuses
  | .fault _ | .refused _ => True

section Fuses

variable {r : Rom} {s t : State}

theorem fuses_eq_iff {a b : Rom} :
    a.fuses = b.fuses ↔ a.variant = b.variant ∧ a.keyHash = b.keyHash ∧ a.seeds = b.seeds := by
  simp [Rom.fuses]

@[simp] theorem keepsFuses_next : KeepsFuses r (.next t) ↔ t.rom.fuses = r.fuses := Iff.rfl
@[simp] theorem keepsFuses_ite (p : Prop) [Decidable p] (a b : Out) :
    KeepsFuses r (if p then a else b) ↔ if p then KeepsFuses r a else KeepsFuses r b := by split <;> rfl

/-- What keeps all of the Rom keeps the straps and fuses in it. -/
@[simp] theorem KeepsRom.keepsFuses {o : Out} (h : KeepsRom r o) : KeepsFuses r o := by
  cases o with
  | next t => exact congrArg Rom.fuses h
  | fault f => trivial
  | refused f => trivial

theorem KeepsFuses.of_nextOf {e : State → Out} (h : KeepsFuses s.rom (e s)) (ht : nextOf s e = some t) :
    t.rom.fuses = s.rom.fuses := by
  unfold nextOf at ht
  split at ht
  · next u hu =>
    obtain rfl := Option.some.inj ht
    rwa [hu] at h
  · cases ht

end Fuses

/-! The events of boot and reset, which change the rest of the Rom. -/

@[simp] theorem resetModule_fuses (s : State) (held : Bool) : (s.resetModule held).rom.fuses = s.rom.fuses := rfl

@[simp] theorem bootFail_fuses (s : State) (g : Nat) : (s.bootFail g).rom.fuses = s.rom.fuses := rfl

@[simp] theorem bootDone_fuses (s : State) (g : Nat) (image : List Byte) : (s.bootDone g image).rom.fuses = s.rom.fuses := by
  unfold State.bootDone
  dsimp only
  split
  · rfl
  · simp [Rom.fuses]

@[simp] theorem execPowerOn_fuses (s : State) : KeepsFuses s.rom (execPowerOn s) := resetModule_fuses s true

@[simp] theorem execModuleReset_fuses (s : State) : KeepsFuses s.rom (execModuleReset s) := resetModule_fuses s true

@[simp] theorem execComputeDieResetRelease_fuses (s : State) : KeepsFuses s.rom (execComputeDieResetRelease s) := by
  simp [execComputeDieResetRelease]

@[simp] theorem execSramInitComplete_fuses (g : Nat) (s : State) : KeepsFuses s.rom (execSramInitComplete g s) := by
  simp [execSramInitComplete, Rom.fuses]

@[simp] theorem execBootImageRelay_fuses (g : Nat) (src : ImageSource) (image : List Byte) (s : State) :
    KeepsFuses s.rom (execBootImageRelay g src image s) := by
  unfold execBootImageRelay
  split
  · exact rfl
  · trivial

@[simp] theorem execBootImageVerify_fuses (g : Nat) (s : State) : KeepsFuses s.rom (execBootImageVerify g s) := by
  have settles : ∀ t : State, t.rom.fuses = s.rom.fuses → KeepsFuses s.rom
      (if t.allDies.all t.rom.settled && t.rom.up.contains 0 then .next (t.sendToken 0 (.keyc (t.die 0).keyc)) else .next t) :=
    fun t ht => by simp [ht]
  unfold execBootImageVerify
  split
  · trivial
  · refine settles _ ?_
    split
    · exact bootFail_fuses s g
    · split
      · exact bootDone_fuses ..
      · exact bootFail_fuses s g

@[simp] theorem execThermalMeasurement_fuses (g : Nat) (tj : BitVec 16) (s : State) :
    KeepsFuses s.rom (execThermalMeasurement g tj s) := by
  simp [execThermalMeasurement]

@[simp] theorem measureNow_fuses (g : Nat) (s : State) : KeepsFuses s.rom (measureNow g s) := by
  unfold measureNow
  split
  · exact execThermalMeasurement_fuses g _ s.freeValue.2
  · trivial

/-- R1, R26, R77, R80: no instruction and no event changes the straps or the fuses. -/
theorem exec_fuses (i : Instr) (s : State) : KeepsFuses s.rom (exec i s) := by
  cases hb : i.boots with
  | false => exact (exec_rom hb).keepsFuses
  | true =>
    cases i with
    | powerOn | moduleReset | computeDieResetRelease | sramInitComplete | bootImageRelay | bootImageVerify
      | thermalMeasurement => simp [exec]
    | _ => cases hb

end Sys2Proof.Machine
end

section
/-! SUPPORT. Every step keeps the straps and the fuses. -/

namespace Sys2Proof.Machine

/-- Events that all keep the straps and fuses, whatever the state they happen in. -/
def EventsKeepFuses (l : List (State → Out)) : Prop := ∀ e ∈ l, ∀ s, KeepsFuses s.rom (e s)

section Events

variable {α : Type} {l l' : List (State → Out)} {as : List α}

@[simp] theorem eventsKeepFuses_nil : EventsKeepFuses [] := nofun

@[simp] theorem eventsKeepFuses_cons (e : State → Out) :
    EventsKeepFuses (e :: l) ↔ (∀ s, KeepsFuses s.rom (e s)) ∧ EventsKeepFuses l := List.forall_mem_cons

@[simp] theorem eventsKeepFuses_append : EventsKeepFuses (l ++ l') ↔ EventsKeepFuses l ∧ EventsKeepFuses l' :=
  List.forall_mem_append

@[simp] theorem eventsKeepFuses_map {f : α → State → Out} (h : ∀ a s, KeepsFuses s.rom (f a s)) :
    EventsKeepFuses (as.map f) :=
  List.forall_mem_map.2 fun a _ => h a

@[simp] theorem eventsKeepFuses_flatMap {f : α → List (State → Out)} (h : ∀ a, EventsKeepFuses (f a)) :
    EventsKeepFuses (as.flatMap f) :=
  List.forall_mem_flatMap.2 fun a _ => h a

@[simp] theorem eventsKeepFuses_filterMap {β : Type} {g : α → Option β} {f : α → β → State → Out}
    (h : ∀ a b s, KeepsFuses s.rom (f a b s)) : EventsKeepFuses (as.filterMap fun a => (g a).map (f a)) := fun e he => by
  obtain ⟨a, -, ha⟩ := List.mem_filterMap.1 he
  obtain ⟨b, -, rfl⟩ := Option.map_eq_some_iff.1 ha
  exact h a b

end Events

section Step

variable {s t : State}

@[simp] theorem takeNext_rom (q : BitVec 4) (s : State) : KeepsRom s.rom (takeNext q s) := by
  unfold takeNext
  dsimp only
  split
  · exact takeCommand_rom ..
  · exact execUnknownOpcPacket_rom ..

theorem openEvents_keepFuses (s : State) : EventsKeepFuses s.openEvents := by
  have fetches : ∀ cl, EventsKeepFuses ((List.range 4).map (trussFetch cl)) := by simp
  unfold State.openEvents
  simp [fetches]

@[simp] theorem overdue_keepFuses (s : State) : EventsKeepFuses s.overdue := by
  unfold State.overdue
  simp

theorem dueEvents_keepFuses (s : State) : EventsKeepFuses s.dueEvents := by
  unfold State.dueEvents
  simp

theorem pickOpen_fuses (s : State) : s.pickOpen.rom.fuses = s.rom.fuses := by
  unfold State.pickOpen
  dsimp only
  split
  · simp
  · split
    · simp
    · next t ht =>
      obtain ⟨e, he, het⟩ := List.mem_filterMap.1 (List.mem_of_getElem? ht)
      exact (openEvents_keepFuses s e he s).of_nextOf (t := t) het

theorem pickDue_fuses (s : State) : s.pickDue.rom.fuses = s.rom.fuses := by
  unfold State.pickDue
  split
  · next t ht =>
    obtain ⟨e, he, het⟩ := List.exists_of_findSome?_eq_some ht
    exact (dueEvents_keepFuses s e he s).of_nextOf het
  · simp

theorem inputDue_rom {atEnd : Bool} {i : Input} (h : s.inputDue atEnd = some (i, t)) : t.rom = s.rom := by
  unfold State.inputDue at h
  split at h
  · split at h
    · cases h
      rfl
    · cases h
  · cases h

theorem takeInput_fuses (i : Input) (s : State) : KeepsFuses s.rom (takeInput i s) := by
  cases i with
  | act i => exact exec_fuses i s
  | hostWrite a l => simp [takeInput]

theorem stepIssue_fuses (q : SeqId) (s : State) : KeepsFuses s.rom (stepIssue q s) := by
  unfold stepIssue
  split
  · simp
  · split
    · simp
    · split
      · exact exec_fuses ..
      · simp

/-- A step is an input, an event, a sequencer's turn or the end of the cycle: each keeps the straps and the fuses. -/
theorem step_fuses (s : State) : KeepsFuses s.rom (step s) := by
  have input : ∀ {atEnd} {x : Input × State}, s.inputDue atEnd = some x → KeepsFuses s.rom (takeInput x.1 x.2) :=
    fun hx => inputDue_rom hx ▸ takeInput_fuses ..
  unfold step
  split
  · split
    · next hx => exact input hx
    · exact pickOpen_fuses s
  · exact pickDue_fuses s
  · split
    · next hx => exact input hx
    · simp
  · exact stepIssue_fuses ..

end Step

/-- Settles O38: every answer of a step keeps the straps and the fuses. -/
theorem stepKeepsFuses : Obligations.StepKeepsFuses := by
  unfold Obligations.StepKeepsFuses
  intro s t h
  have hs := step_fuses s
  rw [h] at hs
  exact fuses_eq_iff.1 hs

end Sys2Proof.Machine
end

section
/-! SUPPORT. What a record and a sequencer read as after the updates that the end of a section makes. -/

namespace Sys2Proof.Machine

/-- A view of a table's values passes through a write. -/
theorem map_tabPut {α β : Type} (f : α → β) (k : Nat) (v : α) (t : Tab α) :
    (tabPut k v t).map (fun e => (e.1, f e.2)) = tabPut k (f v) (t.map (fun e => (e.1, f e.2))) := by
  induction t with
  | nil => rfl
  | cons e r ih =>
    obtain ⟨j, w⟩ := e
    simp only [tabPut, List.map_cons]
    split
    · rfl
    · split
      · rfl
      · rw [List.map_cons, ih]

section Records

variable {s : State} {c n : Nat} {r : Rec}

/-- A record read after a record was replaced. -/
theorem setRecord_record (s : State) (n : Nat) (r : Rec) (m : Nat) :
    (s.setRecord n r).record? m = if m = n then some r else s.record? m := by
  unfold State.record? State.setRecord
  rw [map_tabPut, tabGet_tabPut]

theorem runningRec_eq_some : s.runningRec c = some (n, r) ↔ (s.core c).running = some n ∧ s.record? n = some r := by
  simp only [State.runningRec, Option.bind_eq_some_iff, Option.map_eq_some_iff, Prod.mk.injEq]
  constructor
  · rintro ⟨m, hm, x, hx, rfl, rfl⟩
    exact ⟨hm, hx⟩
  · rintro ⟨hm, hx⟩
    exact ⟨n, hm, r, hx, rfl, rfl⟩

/-- The running record after it was replaced. -/
theorem setRecord_runningRec (h : s.runningRec c = some (n, r)) (r' : Rec) :
    (s.setRecord n r').runningRec c = some (n, r') := by
  obtain ⟨hn, -⟩ := runningRec_eq_some.1 h
  exact runningRec_eq_some.2 ⟨hn, (setRecord_record ..).trans (if_pos rfl)⟩

/-- A change of a core that runs the same record. -/
theorem onCore_runningRec {f : Core → Core} (hf : (f (s.core c)).running = (s.core c).running) :
    (s.onCore c f).runningRec c = s.runningRec c := by
  simp [State.runningRec, hf]

@[simp] theorem onSeq_runningRec (s : State) (q : SeqId) (f : Seq → Seq) :
    (s.onSeq q f).runningRec q.core = s.runningRec q.core :=
  onCore_runningRec (Core.setSeq_running ..)

@[simp] theorem finish_runningRec (s : State) (q : SeqId) (fl : Flow) :
    (s.finish q fl).runningRec q.core = s.runningRec q.core :=
  onSeq_runningRec ..

/-- A core whose record does not go on to RETIRING stays as it is; otherwise the state of its record alone changes (R103). -/
theorem retiring_eq (s : State) (c : Nat) :
    s.retiring c = s ∨ ∃ n r, s.runningRec c = some (n, r) ∧ s.retiring c = s.setRecord n { r with state := .retiring } := by
  unfold State.retiring
  dsimp only
  split
  · split
    · exact .inl rfl
    · next n r h => exact .inr ⟨n, r, h, rfl⟩
  · exact .inl rfl

@[simp] theorem retiring_seq (s : State) (c : Nat) (q : SeqId) : (s.retiring c).seq q = s.seq q := by
  obtain h | ⟨n, r, -, h⟩ := retiring_eq s c
  · rw [h]
  · rw [h]; rfl

/-- The record that a core runs keeps its wait condition as it goes on to RETIRING. -/
theorem retiring_runningRec_cond (h : s.runningRec c = some (n, r)) :
    ∃ r', (s.retiring c).runningRec c = some (n, r') ∧ r'.cond = r.cond := by
  obtain e | ⟨m, x, hx, e⟩ := retiring_eq s c
  · exact ⟨r, by rw [e, h], rfl⟩
  · obtain ⟨rfl, rfl⟩ : m = n ∧ x = r := by simpa using hx.symm.trans h
    exact ⟨{ x with state := .retiring }, by rw [e, setRecord_runningRec h], rfl⟩

end Records

section Sequencers

variable (s : State) (q : SeqId)

@[simp] theorem onSeq_seq (f : Seq → Seq) : (s.onSeq q f).seq q = f (s.seq q) := by
  simp [State.seq]

@[simp] theorem setRecord_seq (n : Nat) (r : Rec) : (s.setRecord n r).seq q = s.seq q := rfl

/-- A word after which control stays leaves its sequencer's place in the record. -/
@[simp] theorem finish_stay_seq :
    (s.finish q .stay).seq q = { s.seq q with nextIssue := s.ccyc q.core + 1, captured := none } := by
  simp [State.finish, Seq.advance]

@[simp] theorem Seq.setLevel_iter (q : Seq) (n : BitVec 1) (l : LoopLevel) : (q.setLevel n l).iter = q.iter := by
  unfold Seq.setLevel
  split <;> rfl

@[simp] theorem Seq.leaveLevel_iter (q : Seq) (n : BitVec 1) (t : BitVec 32) : (q.leaveLevel n t).iter = q.iter := by
  simp only [Seq.leaveLevel, apply_ite Seq.iter, setLevel_iter, ite_self]

@[simp] theorem Seq.leaveLoops_iter (q : Seq) (t : BitVec 32) : (q.leaveLoops t).iter = q.iter := by
  simp only [Seq.leaveLoops, apply_ite Seq.iter, setLevel_iter, leaveLevel_iter, ite_self]

@[simp] theorem Seq.begin_iter (q : Seq) : q.begin.iter = q.iter := by
  unfold Seq.begin
  split
  · exact leaveLoops_iter ..
  · rfl

/-- A word that makes its pops leaves the number of iterations done. -/
theorem popped_iter (o : Operands) : ((s.popped o).seq s.m.cur).iter = (s.seq s.m.cur).iter := by
  rw [popped_seq, if_pos rfl, Seq.begin_iter]

end Sequencers

/-- A word that its place in the stream does not refuse stands in a stream that may issue it. -/
theorem sideOk_of_checkWord {i : Instr} {sd : Side} {q : Seq} {v : Variant} (h : checkWord i sd q v = none) :
    i.sideOk sd = true := by
  cases hs : i.sideOk sd with
  | true => rfl
  | false =>
    unfold checkWord at h
    rw [hs] at h
    split at h
    · cases h
    · cases h

theorem checkWord_of_wordCheck {s : State} {q : SeqId} {i : Instr} (h : s.wordCheck q i = none) :
    checkWord i q.side (s.seq q) s.rom.variant = none := by
  unfold State.wordCheck at h
  split at h
  · cases h
  · exact (Option.or_eq_none_iff.1 h).1

/-- A word that runs stands in a stream that may issue it (R277). -/
theorem sideOk_of_runs {s : State} {i : Instr} {o : Operands} (h : s.runs i o = true) : i.sideOk s.m.cur.side = true := by
  simp only [State.runs, State.issues, Bool.and_eq_true, Option.isNone_iff_eq_none] at h
  obtain ⟨⟨⟨-, hw⟩, -⟩, -⟩ := h
  exact sideOk_of_checkWord (checkWord_of_wordCheck hw)

end Sys2Proof.Machine
end

section
/-! SUPPORT. The ends of sections and of kernel iterations (R85, R300, R301). -/

namespace Sys2Proof.Machine

/-- The sequencer of a side as it has ended a kernel iteration of record r: on to the next iteration, to the epilogue, or ended
(R85). -/
def Seq.iterated (q : Seq) (r : Rec) (sd : Side) : Seq :=
  if decide (q.iter + 1 = r.trip) && recEpi r.raw then
    { q with iter := q.iter + 1, sect := .epilogue, pc := sectAddr r.raw sd .epilogue }
  else if decide (q.iter + 1 = r.trip) then { q with iter := q.iter + 1, ended := some .retired }
  else { q with iter := q.iter + 1, pc := sectAddr r.raw sd .kernel }

/-- The sequencer, held at the boundary or not. -/
def Seq.heldIf (q : Seq) (b : Bool) : Seq := if b then q.holdAtBoundary else q

@[simp] theorem Seq.iterated_iter (q : Seq) (r : Rec) (sd : Side) : (q.iterated r sd).iter = q.iter + 1 := by
  simp only [Seq.iterated, apply_ite Seq.iter, ite_self]

/-- Where a sequencer stands after a kernel iteration: at the kernel address again, at the epilogue's, or at its end (R85). -/
theorem Seq.iterated_place {q : Seq} {r : Rec} {sd : Side} (h : q.sect = .kernel) :
    if q.iter + 1 ≠ r.trip then (q.iterated r sd).pc = sectAddr r.raw sd .kernel ∧ (q.iterated r sd).sect = .kernel
    else if recEpi r.raw then (q.iterated r sd).pc = sectAddr r.raw sd .epilogue ∧ (q.iterated r sd).sect = .epilogue
    else (q.iterated r sd).ended = some .retired := by
  unfold Seq.iterated
  by_cases ht : q.iter + 1 = r.trip
  · by_cases he : recEpi r.raw = true <;> simp [ht, he]
  · simp [ht, h]

section Held

variable (q : Seq) (b : Bool)

@[simp] theorem Seq.heldIf_iter : (q.heldIf b).iter = q.iter := by cases b <;> rfl
@[simp] theorem Seq.heldIf_pc : (q.heldIf b).pc = q.pc := by cases b <;> rfl
@[simp] theorem Seq.heldIf_sect : (q.heldIf b).sect = q.sect := by cases b <;> rfl
@[simp] theorem Seq.heldIf_ended : (q.heldIf b).ended = q.ended := by cases b <;> rfl
@[simp] theorem Seq.heldIf_heldIf (c : Bool) : (q.heldIf b).heldIf c = q.heldIf (b || c) := by cases b <;> cases c <;> rfl

end Held

/-- The other sequencer of the core has ended in the way e, in the section that the sequencer is in (R300). -/
def State.otherEnded (s : State) (q : SeqId) (e : Ended) : Prop :=
  ((s.core q.core).seq q.side.other).ended = some e ∧ ((s.core q.core).seq q.side.other).sectNo = (s.seq q).sectNo

/-- A sequencer whose iteration completes the kernel boundary finds every queue empty (R86). -/
def State.boundaryClear (s : State) (q : SeqId) : Prop :=
  (s.seq q).iter + 1 ≤ ((s.core q.core).seq q.side.other).iter → (s.core q.core).queuesEmpty = true

section Boundary

variable {s : State} {q : SeqId} {rn n : Nat} {r : Rec}

/-- A core whose context is to be saved holds both sequencers. -/
theorem Core.seq_saving (k : Core) (t : Option Nat) (sd : Side) :
    Core.seq { k with saving := t, a := k.a.holdAtBoundary, x := k.x.holdAtBoundary } sd = (k.seq sd).holdAtBoundary := by
  cases sd <;> rfl

/-- A boundary that is reached leaves a sequencer where it stands, and may hold it there. -/
theorem reachBoundary_seq (s : State) (q : SeqId) (rn : Nat) (r : Rec) (n : Nat) :
    ∃ b, (reachBoundary s q rn r n).seq q = (s.seq q).heldIf b := by
  unfold reachBoundary
  dsimp only
  split
  · exact ⟨true, by simp [State.seq, Core.seq_saving, Seq.heldIf]⟩
  · exact ⟨false, rfl⟩

/-- A boundary that ends A's iteration with a yield holds the sequencer, and the record keeps its condition (R101). -/
theorem reachBoundary_yields (hr : s.runningRec q.core = some (rn, r)) (hc : r.cond.isSome = true)
    (ha : (s.core q.core).a.iter = n) :
    (reachBoundary s q rn r n).seq q = (s.seq q).holdAtBoundary
      ∧ ∃ r', (reachBoundary s q rn r n).runningRec q.core = some (rn, r') ∧ r'.cond = r.cond := by
  have hy : (r.cond.isSome && (s.core q.core).a.iter == n) = true := by simp [hc, ha]
  simp only [reachBoundary, hy, Bool.true_or, if_true]
  refine ⟨by simp [State.seq, Core.seq_saving], ?_⟩
  rw [onCore_runningRec rfl]
  exact ⟨_, setRecord_runningRec (setRecord_runningRec hr _) _, rfl⟩

/-- The state after a sequencer, left as `ended`, has ended its iteration: with the boundary reached if the other sequencer has
ended that iteration before. -/
def State.iterationEnded (s : State) (q : SeqId) (rn : Nat) (r : Rec) (ended : Seq) : State :=
  let t := s.onSeq q (fun _ => ended)
  (if decide ((s.seq q).iter + 1 ≤ ((s.core q.core).seq q.side.other).iter) then
    reachBoundary t q rn r ((s.seq q).iter + 1) else t).retiring q.core

/-- A sequencer that finds every queue empty where it completes the boundary ends its iteration (R86). -/
theorem endIteration_done (hold : Bool) (he : s.boundaryClear q) :
    ∃ b, (hold = true → b = true) ∧
      endIteration s q rn r hold = .done (s.iterationEnded q rn r (((s.seq q).iterated r q.side).heldIf b)) .stay := by
  have hf : ¬(decide ((s.seq q).iter + 1 ≤ ((s.core q.core).seq q.side.other).iter) && !(s.core q.core).queuesEmpty) = true := by
    simpa [State.boundaryClear] using he
  unfold endIteration
  dsimp only
  rw [show (s.core q.core).seq q.side = s.seq q from rfl, if_neg hf]
  exact ⟨_, fun h => by rw [h, Bool.true_or], rfl⟩

/-- A sequencer that has ended an iteration stands where the iteration left it. -/
theorem iterationEnded_seq (s : State) (q : SeqId) (rn : Nat) (r : Rec) (ended : Seq) :
    ∃ b, (s.iterationEnded q rn r ended).seq q = ended.heldIf b := by
  unfold State.iterationEnded
  dsimp only
  rw [retiring_seq]
  split
  · obtain ⟨b, hb⟩ := reachBoundary_seq (s.onSeq q fun _ => ended) q rn r ((s.seq q).iter + 1)
    exact ⟨b, by rw [hb, onSeq_seq]⟩
  · exact ⟨false, onSeq_seq ..⟩

/-- An iteration that A ends with a yield: A is held and the record names what it waits for (R101). -/
theorem iterationEnded_yields {ended : Seq} (hq : q.side = .a) (hr : s.runningRec q.core = some (rn, r))
    (hc : r.cond.isSome = true) (hn : ended.iter = (s.seq q).iter + 1) (hw : ended.holdAtBoundary = ended) :
    (s.iterationEnded q rn r ended).seq q = ended
      ∧ ∃ r', (s.iterationEnded q rn r ended).runningRec q.core = some (rn, r') ∧ r'.cond = r.cond := by
  have hr' : (s.onSeq q fun _ => ended).runningRec q.core = some (rn, r) := by rw [onSeq_runningRec, hr]
  unfold State.iterationEnded
  dsimp only
  rw [retiring_seq]
  split
  · have ha : ((s.onSeq q fun _ => ended).core q.core).a.iter = (s.seq q).iter + 1 := by
      rw [onSeq_core, if_pos rfl, hq]
      exact hn
    obtain ⟨hs, x, hx, ec⟩ := reachBoundary_yields hr' hc ha
    obtain ⟨y, hy, ed⟩ := retiring_runningRec_cond hx
    exact ⟨by rw [hs, onSeq_seq, hw], y, hy, ed.trans ec⟩
  · exact ⟨onSeq_seq .., retiring_runningRec_cond hr'⟩

/-- The end of an iteration leaves its sequencer where the iteration goes on, and may hold it there. -/
theorem endIteration_seq (hold : Bool) (he : s.boundaryClear q) :
    ∃ t b, endIteration s q rn r hold = .done t .stay ∧ t.seq q = ((s.seq q).iterated r q.side).heldIf b := by
  obtain ⟨b, -, hd⟩ := endIteration_done (rn := rn) (r := r) hold he
  obtain ⟨c, hc⟩ := iterationEnded_seq s q rn r (((s.seq q).iterated r q.side).heldIf b)
  exact ⟨_, b || c, hd, by rw [hc, Seq.heldIf_heldIf]⟩

/-- The end of A's iteration by a yield holds A at the boundary, and the record keeps its condition. -/
theorem endIteration_yields (hq : q.side = .a) (hr : s.runningRec q.core = some (rn, r)) (hc : r.cond.isSome = true)
    (he : s.boundaryClear q) :
    ∃ t r', endIteration s q rn r true = .done t .stay ∧ t.seq q = ((s.seq q).iterated r q.side).holdAtBoundary
      ∧ t.runningRec q.core = some (rn, r') ∧ r'.cond = r.cond := by
  obtain ⟨b, hb, hd⟩ := endIteration_done (rn := rn) (r := r) true he
  obtain rfl := hb rfl
  obtain ⟨hs, r', hr', hc'⟩ := iterationEnded_yields hq hr hc
    (ended := ((s.seq q).iterated r q.side).holdAtBoundary) (Seq.iterated_iter ..) rfl
  exact ⟨_, r', hd, hs, hr', hc'⟩

end Boundary

/-! The meanings of the words, with the body that each runs. -/

theorem exec_knext (g : BitVec 4) (s : State) : exec (.knext g) s = execKnext g s := rfl
theorem exec_exit (g : BitVec 4) (s : State) : exec (.exit g) s = execExit g s := rfl
theorem exec_yieldK (g : BitVec 4) (sv : BitVec 5) (k : BitVec 4) (s : State) :
    exec (.yieldK g sv k) s = execYieldK g sv k s := rfl
theorem exec_yieldIo (g : BitVec 4) (sv : BitVec 5) (s : State) : exec (.yieldIo g sv) s = execYieldIo g sv s := rfl

section Ends

variable {s : State} {rn : Nat} {r : Rec}

/-- knext in the prologue goes on to the kernel section. -/
theorem execKnext_prologue {g : BitVec 4} (h : s.runs (.knext g) {} = true)
    (hr : (s.popped {}).runningRec s.m.cur.core = some (rn, r)) (hl : ((s.popped {}).seq s.m.cur).looping = false)
    (hk : ((s.popped {}).seq s.m.cur).sect = .prologue) (ho : ¬(s.popped {}).otherEnded s.m.cur .byExit) :
    execKnext g s = .next (((s.popped {}).onSeq s.m.cur fun sq =>
      { sq with sect := .kernel, pc := sectAddr r.raw s.m.cur.side .kernel }).finish s.m.cur .stay) := by
  unfold execKnext issue
  refine issueWith_done h ?_
  simp only [State.otherEnded, State.seq] at ho hl hk
  simp [hr, hl, hk, ho]

/-- knext in the kernel section ends the iteration. -/
theorem execKnext_kernel {g : BitVec 4} (h : s.runs (.knext g) {} = true)
    (hr : (s.popped {}).runningRec s.m.cur.core = some (rn, r)) (hl : ((s.popped {}).seq s.m.cur).looping = false)
    (hk : ((s.popped {}).seq s.m.cur).sect = .kernel) (ho : ¬(s.popped {}).otherEnded s.m.cur .byExit)
    (he : (s.popped {}).boundaryClear s.m.cur) :
    ∃ (t : State) (b : Bool), execKnext g s = .next (t.finish s.m.cur .stay)
      ∧ t.seq s.m.cur = (((s.popped {}).seq s.m.cur).iterated r s.m.cur.side).heldIf b := by
  obtain ⟨t, b, hd, ht⟩ := endIteration_seq (rn := rn) (r := r) false he
  unfold execKnext issue
  refine ⟨t, b, issueWith_done h ?_, ht⟩
  simp only [State.otherEnded, State.seq] at ho hl hk
  simp [hr, hl, hk, ho, hd]

/-- exit ends its sequencer. -/
theorem execExit_done {g : BitVec 4} (h : s.runs (.exit g) {} = true)
    (hl : ((s.popped {}).seq s.m.cur).looping = false)
    (hn : (((s.popped {}).core s.m.cur.core).seq s.m.cur.side.other).sectNo ≤ ((s.popped {}).seq s.m.cur).sectNo)
    (ho : ¬(s.popped {}).otherEnded s.m.cur .retired) :
    execExit g s = .next ((((s.popped {}).onSeq s.m.cur fun sq => { sq with ended := some .byExit }).retiring
      s.m.cur.core).finish s.m.cur .stay) := by
  unfold execExit issue
  refine issueWith_done h ?_
  simp only [State.otherEnded, State.seq] at ho hl hn
  simp [hl, Nat.not_lt.2 hn, ho]

/-- A yield, which only A may issue, ends the iteration, holds A at the boundary and names what the record waits for. -/
theorem yieldOn_kernel {i : Instr} {sv : BitVec 5} {w : Word → WaitCond} (h : s.runs i { srcs := [sv] } = true)
    (hx : i.onX = false) (hr : (s.popped { srcs := [sv] }).runningRec s.m.cur.core = some (rn, r))
    (hl : ((s.popped { srcs := [sv] }).seq s.m.cur).looping = false)
    (hk : ((s.popped { srcs := [sv] }).seq s.m.cur).sect = .kernel) (hy : recYld r.raw = true)
    (ho : ¬(s.popped { srcs := [sv] }).otherEnded s.m.cur .byExit)
    (he : (s.popped { srcs := [sv] }).boundaryClear s.m.cur) :
    ∃ t r', yieldOn i sv w false s = .next t ∧ (t.seq s.m.cur).iter = (s.seq s.m.cur).iter + 1
      ∧ (t.seq s.m.cur).wait = some .boundary ∧ t.runningRec s.m.cur.core = some (rn, r')
      ∧ r'.cond = some (w ((s.reads { srcs := [sv] }).x 0)) := by
  have hq : s.m.cur.side = .a := by
    have hs := sideOk_of_runs h
    cases hd : s.m.cur.side with
    | a => rfl
    | x => rw [hd] at hs; exact absurd (hx.symm.trans hs) (by decide)
  obtain ⟨t, r', hd, ht, hr', hc⟩ := endIteration_yields hq
    (setRecord_runningRec hr { r with cond := some (w ((s.reads { srcs := [sv] }).x 0)) }) rfl he
  unfold yieldOn issue
  refine ⟨t.finish s.m.cur .stay, r', issueWith_done h ?_, ?_, ?_, (finish_runningRec ..).trans hr', hc⟩
  · simp only [State.otherEnded, State.seq] at ho hl hk
    simpa [hr, hl, hk, hy, ho] using hd
  · rw [finish_stay_seq, ht]
    exact (Seq.iterated_iter ..).trans (congrArg (· + 1) (popped_iter ..))
  · rw [finish_stay_seq, ht]
    rfl

end Ends

/-- Settles O6: each word issues, its LOOP_STATE tests pass, and the state it leaves is the end of its section. A yield runs
in the A stream only, so that the boundary it completes is that of A's own iteration, which keeps the condition (R101). -/
theorem sectionEnds : Obligations.SectionEnds := by
  unfold Obligations.SectionEnds
  intro s
  refine ⟨?knextPrologue, ?knextKernel, ?exit, ?yieldK, ?yieldIo⟩
  case knextPrologue =>
    intro g rn r o p h hr hl hk ho
    rw [exec_knext]
    exact execKnext_prologue h hr hl hk ho
  case knextKernel =>
    intro g rn r o p h hr hl hk ho he
    obtain ⟨t, b, hd, ht⟩ := execKnext_kernel h hr hl hk ho he
    have hi : (p.seq s.m.cur).iter = (s.seq s.m.cur).iter := popped_iter s o
    refine ⟨_, (exec_knext ..).trans hd, ?_⟩
    rw [finish_stay_seq, ht, ← hi]
    simp only [Seq.heldIf_iter, Seq.heldIf_pc, Seq.heldIf_sect, Seq.heldIf_ended]
    exact ⟨Seq.iterated_iter .., Seq.iterated_place hk⟩
  case exit =>
    intro g o p h hl hn ho
    rw [exec_exit]
    exact execExit_done h hl hn ho
  case yieldK =>
    intro g sv k rn r o v p h hr hl hk hy h8 ho he
    rw [exec_yieldK, execYieldK, decide_eq_false (Nat.not_lt.2 h8)]
    exact yieldOn_kernel h rfl hr hl hk hy ho he
  case yieldIo =>
    intro g sv rn r o v p h hr hl hk hy ho he
    rw [exec_yieldIo, execYieldIo]
    exact yieldOn_kernel h rfl hr hl hk hy ho he

end Sys2Proof.Machine
end

section
/-! SUPPORT. The bytes of every memory and the registers of every sequencer, as one view of a state; what a fault, a check of an
access, an issue and a request leave of it. -/

namespace Sys2Proof.Machine

/-- What a sequencer holds for its program: its registers and its place in its record. -/
structure SeqView where
  regs : Tab Word
  p : BitVec 8
  bt : Tab (BitVec 21)
  sect : Section
  iter : Nat
  ended : Option Ended

/-- A core store, and what the two sequencers hold. -/
structure CoreView where
  store : Tab Byte
  a : SeqView
  x : SeqView

/-- A Dome and a lantern memory. -/
structure DieView where
  dome : Tab Byte
  lantern : Tab Byte

/-- Every memory, and what every sequencer holds. -/
structure View where
  cores : Nat → CoreView
  dies : Nat → DieView
  host : Tab Byte

def Seq.view (q : Seq) : SeqView := ⟨q.regs, q.p, q.bt, q.sect, q.iter, q.ended⟩
def Core.view (k : Core) : CoreView := ⟨k.store, k.a.view, k.x.view⟩
def Die.view (d : Die) : DieView := ⟨d.dome, d.lantern⟩
def State.view (s : State) : View := ⟨fun c => (s.core c).view, fun g => (s.die g).view, s.m.host⟩

/-! What a view shows. -/

/-- One byte of a memory. -/
def View.byte (v : View) (p : Place) (a : Nat) : Byte :=
  match p with
  | .store c => readByte (v.cores c).store a
  | .dome g => readByte (v.dies g).dome a
  | .lantern g => readByte (v.dies g).lantern a
  | .host => readByte v.host a

/-- What one sequencer holds. -/
def View.seq (v : View) (q : SeqId) : SeqView :=
  match q.side with
  | .a => (v.cores q.core).a
  | .x => (v.cores q.core).x

theorem byteIn_eq_view (s : State) (p : Place) (a : Nat) : s.byteIn p a = s.view.byte p a := by
  cases p with
  | store | dome | lantern | host => rfl

theorem seq_view (s : State) (q : SeqId) : (s.seq q).view = s.view.seq q := by
  obtain ⟨c, sd⟩ := q
  cases sd with
  | a | x => rfl

/-- Sequencers of one view agree in every register and in their place in the record. -/
theorem Seq.sameRegs_of_view {q r : Seq} (h : r.view = q.view) : q.sameRegs { r with wait := q.wait } := by
  obtain ⟨hr, hp, hb, hs, hi, he⟩ := SeqView.mk.inj h
  exact ⟨hr, hp, hb, hs, hi, he, rfl⟩

/-! The named updates of the state. -/

section Updates

variable (s : State)

theorem onCore_view {c : Nat} {f : Core → Core} (h : (f (s.core c)).view = (s.core c).view) : (s.onCore c f).view = s.view := by
  have hc : (fun x => ((s.onCore c f).core x).view) = fun x => (s.core x).view := by
    funext x
    rw [onCore_core]
    split
    · next e => rw [h, e]
    · rfl
  exact congrArg (fun v => { s.view with cores := v }) hc

theorem onDie_view {g : Nat} {f : Die → Die} (h : (f (s.die g)).view = (s.die g).view) : (s.onDie g f).view = s.view := by
  have hd : (fun x => ((s.onDie g f).die x).view) = fun x => (s.die x).view := by
    funext x
    rw [onDie_die]
    split
    · next e => rw [h, e]
    · rfl
  exact congrArg (fun v => { s.view with dies := v }) hd

theorem Core.setSeq_view {k : Core} {sd : Side} {q : Seq} (h : q.view = (k.seq sd).view) : (k.setSeq sd q).view = k.view := by
  cases sd with
  | a => exact congrArg (fun v => { k.view with a := v }) h
  | x => exact congrArg (fun v => { k.view with x := v }) h

theorem onSeq_view {q : SeqId} {f : Seq → Seq} (h : (f (s.seq q)).view = (s.seq q).view) : (s.onSeq q f).view = s.view :=
  onCore_view s (Core.setSeq_view h)

@[simp] theorem onCluster_view (n : Nat) (f : Cluster → Cluster) : (s.onCluster n f).view = s.view := rfl
@[simp] theorem setCluster_view (n : Nat) (k : Cluster) : (s.setCluster n k).view = s.view := rfl
@[simp] theorem setRecord_view (n : Nat) (r : Rec) : (s.setRecord n r).view = s.view := rfl
@[simp] theorem setLaunch_view (n : Nat) (l : Launch) : (s.setLaunch n l).view = s.view := rfl
@[simp] theorem addReq_view (c owner : Nat) (op : ReqOp) (va data cmp : Word) (clock : Tab Nat) (w : ReqAt) :
    (s.addReq c owner op va data cmp clock w).view = s.view := rfl
@[simp] theorem clearArrivals_view (c : Nat) : (s.clearArrivals c).view = s.view := rfl
@[simp] theorem useBanks_view (c t p : Nat) (l : List Nat) : (s.useBanks c t p l).view = s.view := rfl
@[simp] theorem later_view (c lat : Nat) (t : Target) (v : Row) : (s.later c lat t v).view = s.view := onCore_view s rfl
@[simp] theorem pushLater_view (c : Nat) (q : QName) (lat : Nat) (v : Row) : (s.pushLater c q lat v).view = s.view :=
  onCore_view s rfl

end Updates

/-! Faults. -/

section Faults

variable (s : State)

@[simp] theorem missLaunch_view (rec? : Option Nat) : (s.missLaunch rec?).view = s.view := by
  unfold State.missLaunch
  (repeat' split) <;> rfl

@[simp] theorem markFaulted_view (rec? : Option Nat) : (s.markFaulted rec?).view = s.view := by
  unfold State.markFaulted
  (repeat' split) <;> rfl

@[simp] theorem raiseFor_view (die c : Nat) (rec? : Option Nat) (f : FaultInfo) (eng job : Option Nat) (page : Nat) :
    (s.raiseFor die c rec? f eng job page).view = s.view := by
  have hcount : ∀ (t : State) (g off hi lo n : Nat), (t.onDie g (·.count off hi lo n)).view = t.view :=
    fun t _ _ _ _ _ => onDie_view t rfl
  have hnote : ∀ (t : State) (g va : Nat), (t.onDie g (·.notePerm va)).view = t.view := fun t _ _ => onDie_view t rfl
  have hheld : ∀ (t : State) (g : Nat) (fr : FaultRec),
      (t.onDie g (fun d => { d with heldFaults := d.heldFaults ++ [fr] })).view = t.view := fun t _ _ => onDie_view t rfl
  have hstop : ∀ (t : State) (n : Nat), (t.onCore c (fun k => { k with stopAt := some (k.stopAt.getD n) })).view = t.view :=
    fun t _ => onCore_view t rfl
  simp only [State.raiseFor, apply_ite State.view, hcount, hnote, hheld, hstop, missLaunch_view, markFaulted_view, ite_self]

@[simp] theorem raisePrecise_view (q : SeqId) (insn : BitVec 32) (f : FaultInfo) : (s.raisePrecise q insn f).view = s.view :=
  (onSeq_view _ rfl).trans (raiseFor_view ..)

end Faults

/-! The checks of an access. -/

section Checks

variable (s : State)

@[simp] theorem dropAll_view (cl : Nat) (iss : Issuer) (job : Nat) : (s.dropAll cl iss job).view = s.view :=
  foldl_same State.view (fun t _ => onCore_view t rfl) _ s

/-- What undoes the start of a job is no part of the core's view. -/
theorem Core.unstart_view (k : Core) (e now : Nat) (tag : Word) : (k.unstart e now tag).view = k.view := by
  unfold Core.unstart
  split <;> rfl

@[simp] theorem faultStarter_view (iss : Issuer) (job : Nat) : (s.faultStarter iss job).view = s.view := by
  unfold State.faultStarter
  split
  · rfl
  · dsimp only
    split
    · rfl
    · rw [raiseFor_view]
      refine (onCore_view _ (Core.unstart_view ..)).trans ?_
      rw [onCluster_view]
      exact (onDie_view _ rfl).trans (dropAll_view ..)

@[simp] theorem checkFps_view (c : Nat) (iss : Issuer) (rs : List Range) : (s.checkFps c iss rs).1.view = s.view :=
  foldl_same State.view (fun t (f : Fp) => faultStarter_view t f.issuer f.job) _ s

@[simp] theorem eccRead_view (c : Nat) (rs : List Range) : (s.eccRead c rs).view = s.view := by
  unfold State.eccRead
  split
  · rfl
  · exact raiseFor_view ..

end Checks

/-! The issue of a word. -/

section Sequencers

variable (q : Seq)

theorem Seq.setLevel_view (n : BitVec 1) (l : LoopLevel) : (q.setLevel n l).view = q.view := by
  unfold Seq.setLevel
  split <;> rfl

theorem Seq.leaveLevel_view (n : BitVec 1) (t : BitVec 32) : (q.leaveLevel n t).view = q.view := by
  simp only [Seq.leaveLevel, apply_ite Seq.view, setLevel_view, ite_self]

theorem Seq.leaveLoops_view (t : BitVec 32) : (q.leaveLoops t).view = q.view := by
  simp only [Seq.leaveLoops, apply_ite Seq.view, setLevel_view, leaveLevel_view, ite_self]

theorem Seq.begin_view : q.begin.view = q.view := by
  unfold Seq.begin
  split
  · exact leaveLoops_view ..
  · rfl

theorem Seq.testLevel_view (n : BitVec 1) : (q.testLevel n).1.view = q.view := by
  simp only [Seq.testLevel, apply_ite Prod.fst, apply_ite Seq.view, setLevel_view, ite_self]

theorem Seq.testLoops_view : q.testLoops.1.view = q.view := by
  have h := q.testLevel_view q.lastLoop
  unfold Seq.testLoops
  split
  · next e => rwa [e] at h
  · next e => rwa [e] at h
  · next r e =>
    rw [e] at h
    exact (testLevel_view ..).trans h

/-- The tests at the end of a loop's body and the place of the next word are no part of what the sequencer holds. -/
theorem Seq.advance_view (now : Nat) (fl : Flow) : (q.advance now fl).view = q.view := by
  cases fl with
  | keep | stay | goto => rfl
  | branch t => exact testLoops_view { q with nextIssue := now + 1, captured := none }
  | next =>
    refine .trans ?_ (testLoops_view { q with nextIssue := now + 1, captured := none })
    unfold Seq.advance
    dsimp only
    split <;> rfl

end Sequencers

section Issue

variable (s : State)

@[simp] theorem popAll_view (c : Nat) (l : List QName) : (s.popAll c l).view = s.view :=
  popAll_same State.view (fun t _ _ => onCore_view t rfl) c l s

@[simp] theorem popped_view (o : Operands) : (s.popped o).view = s.view :=
  (onSeq_view _ (Seq.begin_view _)).trans (popAll_view ..)

@[simp] theorem pushZeros_view (c lat : Nat) (l : List QName) : (s.pushZeros c lat l).view = s.view :=
  foldl_same State.view (fun t q => pushLater_view t c q lat 0) l s

@[simp] theorem finish_view (q : SeqId) (fl : Flow) : (s.finish q fl).view = s.view := onSeq_view s (Seq.advance_view ..)

@[simp] theorem leaveGroup_view (q : SeqId) : (s.leaveGroup q).view = s.view :=
  (onCluster_view ..).trans (onSeq_view s rfl)

@[simp] theorem startWait_view (q : SeqId) (w : WaitCond) (cap : Option (Bool × List Word)) :
    (s.startWait q w cap).view = s.view :=
  (onSeq_view _ rfl).trans (leaveGroup_view ..)

@[simp] theorem freeze_view (n : Nat) (f : Freeze) : (s.freeze n f).view = s.view := by
  unfold State.freeze
  dsimp only
  rw [setCluster_view]
  split
  · exact onDie_view s rfl
  · rfl

end Issue

/-! A request on its way to its owner. -/

section Requests

variable (s : State)

@[simp] theorem leave_view (g owner : Nat) (writes : Bool) : (s.leave g owner writes).view = s.view := by
  unfold State.leave
  split
  · exact onDie_view s rfl
  · rfl

@[simp] theorem send_view (c owner : Nat) (op : ReqOp) (va data cmp : Word) : (s.send c owner op va data cmp).view = s.view := by
  unfold State.send
  dsimp only
  split
  · exact raiseFor_view ..
  · exact (addReq_view ..).trans (leave_view ..)

end Requests

end Sys2Proof.Machine
end

section
/-! SUPPORT. The views that a word can go on to, by its issue and by the effects that words share. -/

namespace Sys2Proof.Machine

/-- An answer that is a next state only with a view of V. -/
def Shows (V : View → Prop) : Out → Prop
  | .next t => V t.view
  | .fault _ | .refused _ => True

/-- An instruction's own effect that goes on only with a view of V. -/
def Res.Shows (V : View → Prop) : Res → Prop
  | .done t _ | .doneFault t _ | .faultAt t _ => V t.view
  | .wait _ | .fault _ => True

section Answers

variable {V : View → Prop} {s s' o t : State} {i : Instr} {x : Out}

theorem Shows.of_next (h : Shows V x) (e : x = .next t) : V t.view := by
  subst e
  exact h

/-- A word goes on with what its effect has gone on to, or with the state before or after its pops. -/
theorem conclude_shows {q : SeqId} {g : Bool} {vals : List Word} {r : Res} (hs : V s.view) (hs' : V s'.view) (hr : r.Shows V) :
    Shows V (conclude s s' q i g vals r) := by
  cases r with
  | done t fl | doneFault t f | faultAt t f => simpa [conclude, Shows, Res.Shows] using hr
  | wait w => simpa [conclude, Shows] using hs'
  | fault f => simpa [conclude, Shows] using hs

section Issue

variable {op : Operands} {onFalse : SeqId → State → Res} {body : SeqId → Vals → State → Res}

theorem issueWith_shows (hs : V s.view) (hf : ∀ q t, t.view = s.view → (onFalse q t).Shows V)
    (hb : ∀ q v t, t.view = s.view → (body q v t).Shows V) : Shows V (issueWith i op onFalse body s) := by
  have hp : ∀ l, ((s.popAll s.m.cur.core l).onSeq s.m.cur Seq.begin).view = s.view := fun l =>
    (onSeq_view _ (Seq.begin_view _)).trans (popAll_view ..)
  unfold issueWith
  dsimp only
  split
  · split
    · simpa [Shows] using hs
    · split
      · simpa [Shows] using hs
      · simpa [Shows] using hs
      · refine conclude_shows hs (by rwa [hp]) ?_
        split
        · exact hb _ _ _ (hp _)
        · exact hf _ _ (hp _)
  · trivial

theorem issue_shows (hs : V s.view) (hb : ∀ q v t, t.view = s.view → (body q v t).Shows V) : Shows V (issue i op body s) :=
  issueWith_shows hs (fun q t h => by simpa [pushesZero, Res.Shows, h] using hs) hb

/-- A word that runs goes on as its effect on what it reads does. -/
theorem issueWith_runs_shows (h : s.runs i op = true) (hs : V s.view)
    (hb : (body s.m.cur (s.reads op) (s.popped op)).Shows V) : Shows V (issueWith i op onFalse body s) := by
  rw [issueWith_runs h]
  exact conclude_shows hs (by rwa [popped_view]) hb

end Issue

/-! The effects that words share. -/

theorem accessStore_shows {k : State → Res} {c class_ last : Nat} {rs : List Range} {banks : List (Nat × Nat)}
    (ho : V o.view) (hk : ∀ t, t.view = s.view → (k t).Shows V) : (accessStore s o c class_ last rs banks k).Shows V := by
  unfold accessStore
  dsimp only
  split
  · refine hk _ ((foldl_same State.view (fun t b => useBanks_view ..) banks _).trans ?_)
    exact (onCore_view _ rfl).trans (eccRead_view ..)
  · simpa [Res.Shows] using ho

theorem sendOrLog_shows {c owner : Nat} {op : ReqOp} {va data cmp : Word} {ret atomic : Bool} (hs : V s.view) :
    (s.sendOrLog c owner op va data cmp ret atomic).Shows V := by
  have hpush : ∀ (t : State) (e : QEntry), (t.onCore c (·.push .reply e)).view = t.view := fun t e => onCore_view t rfl
  unfold State.sendOrLog
  dsimp only
  split
  · split
    · trivial
    · next e _ _ =>
      have hlog : ∀ t : State, (t.onCore c (fun k =>
          { k with sideLog := k.sideLog ++ [⟨e.page, s.m.nextReq, false, e.big, 0⟩] })).view = t.view :=
        fun t => onCore_view t rfl
      simpa only [Res.Shows, apply_ite State.view, hpush, hlog, addReq_view, ite_self] using hs
  · simpa only [Res.Shows, apply_ite State.view, hpush, send_view, ite_self] using hs

theorem domeAccess_shows {c size acc : Nat} {op : ReqOp} {va data cmp : Word} {ret atomic : Bool} (hs : V s.view) :
    (domeAccess s c va size op data cmp ret atomic acc).Shows V := by
  unfold domeAccess
  split
  · trivial
  · split
    · trivial
    · exact sendOrLog_shows hs

/-- A message received goes on as what is done with it does; other messages of its cycle leave a fault and no more (R321). -/
theorem crecvFrom_shows {k : Row → State → Res} {q : SeqId} {p : BitVec 3} {isRow : Bool} (ho : V o.view)
    (hk : ∀ v t, t.view = s.view → (k v t).Shows V) : (crecvFrom q p isRow o s k).Shows V := by
  unfold crecvFrom
  dsimp only
  split
  · trivial
  · split
    · trivial
    · split
      · exact ho
      · next m _ =>
        have h := hk m.val (s.clearArrivals q.core) rfl
        split
        · exact h
        · split
          · next e =>
            rw [e] at h
            simpa [Res.Shows] using h
          · exact h

end Answers

end Sys2Proof.Machine
end

section
/-! SUPPORT. What a write of bytes leaves of a view, and the words that store. -/

namespace Sys2Proof.Machine

/-- A view in which n bytes from address a on of a core's store hold the number x. -/
def View.put (v : View) (c a n x : Nat) : View :=
  { v with cores := fun y => if y = c then { v.cores c with store := writeNat (v.cores c).store a n x } else v.cores y }

theorem onCore_putNat_view {s : State} {c a n x : Nat} {f : Core → Core} (h : f (s.core c) = (s.core c).putNat a n x) :
    (s.onCore c f).view = s.view.put c a n x := by
  have hc : (fun y => ((s.onCore c f).core y).view) = (s.view.put c a n x).cores := by
    funext y
    rw [onCore_core, h, apply_ite Core.view]
    rfl
  exact congrArg (fun v => { s.view with cores := v }) hc

/-- The views that a store can leave: the one before it, or that with n bytes from address a on of a core's store written. -/
inductive View.Stored (v : View) (c a n : Nat) : View → Prop
  | same : v.Stored c a n v
  | put (x : Nat) : v.Stored c a n (v.put c a n x)

/-- A store changes no byte but those that it names. -/
theorem View.Stored.byte {v w : View} {c a n : Nat} (h : v.Stored c a n w) {p : Place} {x : Nat}
    (hx : p = .store c → x < a ∨ a + n ≤ x) : w.byte p x = v.byte p x := by
  cases h with
  | same => rfl
  | put y =>
    cases p with
    | dome | lantern | host => rfl
    | store e =>
      unfold View.byte View.put
      dsimp only
      split
      · next h =>
        subst h
        exact readByte_writeNat_outside _ y (hx rfl)
      · rfl

/-- A store changes nothing that a sequencer holds. -/
theorem View.Stored.seq {v w : View} {c a n : Nat} (h : v.Stored c a n w) (q : SeqId) : w.seq q = v.seq q := by
  cases h with
  | same => rfl
  | put y =>
    obtain ⟨e, sd⟩ := q
    cases sd with
    | a | x =>
      unfold View.seq View.put
      dsimp only
      split
      · next h => rw [h]
      · rfl

/-- The frame of a store, in the bytes of the states. -/
theorem View.Stored.byteIn {s t : State} {c a n : Nat} (h : s.view.Stored c a n t.view) :
    (∀ x, x < a ∨ a + n ≤ x → t.byteIn (.store c) x = s.byteIn (.store c) x)
      ∧ (∀ p, p ≠ .store c → ∀ x, t.byteIn p x = s.byteIn p x) := by
  simp only [byteIn_eq_view]
  exact ⟨fun x hx => h.byte fun _ => hx, fun p hp x => h.byte fun e => absurd e hp⟩

section Stores

variable {s t : State} {c a n : Nat}

/-- What is written on a state with the view of s. -/
theorem stored_done {f : Core → Core} {fl : Flow} (x : Nat) (ht : t.view = s.view)
    (h : f (t.core c) = (t.core c).putNat a n x) : (Res.done (t.onCore c f) fl).Shows (s.view.Stored c a n) := by
  change s.view.Stored c a n (t.onCore c f).view
  rw [onCore_putNat_view h, ht]
  exact .put x

theorem execSt_stored {g : BitVec 4} {d a : BitVec 5} {z : BitVec 3} {i : BitVec 9}
    (h : s.runs (.st g d a z i) { srcs := [d, a] } = true) :
    Shows (s.view.Stored s.m.cur.core (elemAddr ((s.reads { srcs := [d, a] }).x 1) i (sizeOf3 z)).toNat (sizeOf3 z))
      (execSt g d a z i s) := by
  unfold execSt issue
  refine issueWith_runs_shows h .same ?_
  dsimp only
  split
  · trivial
  · split
    · trivial
    · exact accessStore_shows .same fun t ht => stored_done _ (ht.trans (popped_view ..)) rfl

theorem execDst_stored {g d : BitVec 4} {a : BitVec 5} (h : s.runs (.dst g d a) { srcs := [a] } = true) :
    Shows (s.view.Stored s.m.cur.core ((s.reads { srcs := [a] }).x 0).toNat 64) (execDst g d a s) := by
  unfold execDst issue
  refine issueWith_runs_shows h .same ?_
  dsimp only
  split
  · trivial
  · split
    · trivial
    · exact accessStore_shows .same fun t ht => stored_done _ (ht.trans (popped_view ..)) rfl

theorem execCrecvRow_stored {g : BitVec 4} {a : BitVec 5} {p : BitVec 3} (h : s.runs (.crecvRow g a p) { srcs := [a] } = true) :
    Shows (s.view.Stored s.m.cur.core ((s.reads { srcs := [a] }).x 0).toNat 1024) (execCrecvRow g a p s) := by
  unfold execCrecvRow
  refine issueWith_runs_shows h .same ?_
  dsimp only
  split
  · trivial
  · split
    · exact .same
    · exact crecvFrom_shows .same fun v u hu => accessStore_shows .same fun t ht =>
        stored_done _ (ht.trans (hu.trans (popped_view ..))) rfl

end Stores

/-! The words that write later, or at another place. -/

section Later

variable {s : State}

theorem execGst_view {g : BitVec 4} {d a b : BitVec 5} {z : BitVec 2} : Shows (· = s.view) (execGst g d a b z s) :=
  issue_shows rfl fun _ _ _ ht => domeAccess_shows ht

theorem execSqw_view {g : BitVec 4} {n : BitVec 1} {a b : BitVec 5} {x : BitVec 1} :
    Shows (· = s.view) (execSqw g n a b x s) := by
  unfold execSqw
  refine issue_shows rfl fun q v t ht => ?_
  dsimp only
  split
  · trivial
  · split
    · trivial
    · exact accessStore_shows rfl fun u hu => (later_view ..).trans (hu.trans ht)

theorem postCounter_view {i : Instr} {a : BitVec 5} {r : BitVec 1} {c : BitVec 3} {tg : Nat → Target} :
    Shows (· = s.view) (postCounter i a r c tg s) := by
  unfold postCounter
  refine issue_shows rfl fun q v t ht => ?_
  split
  · exact (later_view ..).trans ht
  · split
    · trivial
    · split
      · trivial
      · exact (later_view ..).trans ht

end Later

/-! A request performed at its owner. -/

section Performed

variable {s : State} {r : Req} {g pa : Nat}

theorem effect_read {n : Nat} {sg : Bool} (h : r.op = .read n sg) : (s.effect r g pa).1 = s := by
  simp only [State.effect, h]

theorem effect_write {n : Nat} (h : r.op = .write n) : (s.effect r g pa).1 = s.onDie g (·.putNat pa n r.data.toNat) := by
  simp only [State.effect, h]

theorem effect_amo {ret : Bool} {op ty : Nat} (h : r.op = .amo ret op ty) :
    ∃ x, (s.effect r g pa).1 = s.onDie g (·.putNat pa (amoBytes ty) x) := by
  simp only [State.effect, h]
  exact ⟨_, rfl⟩

/-- A write of a Dome changes no byte but those that it names. -/
theorem onDie_putNat_byteIn (s : State) (g a n v : Nat) :
    (∀ x, x < a ∨ a + n ≤ x → (s.onDie g (·.putNat a n v)).byteIn (.dome g) x = s.byteIn (.dome g) x)
      ∧ (∀ p, p ≠ .dome g → ∀ x, (s.onDie g (·.putNat a n v)).byteIn p x = s.byteIn p x) := by
  constructor
  · intro x hx
    simp only [State.byteIn, onDie_die, if_true]
    exact readByte_writeNat_outside _ v hx
  · intro p hp x
    cases p with
    | store | host => rfl
    | dome e =>
      have he : e ≠ g := fun h => hp (congrArg Place.dome h)
      simp only [State.byteIn, onDie_die, if_neg he]
    | lantern e =>
      simp only [State.byteIn, onDie_die]
      split
      · next h =>
        subst h
        rfl
      · rfl

end Performed

/-! The meanings of the words. -/

theorem exec_st (g : BitVec 4) (d a : BitVec 5) (z : BitVec 3) (i : BitVec 9) (s : State) :
    exec (.st g d a z i) s = execSt g d a z i s := rfl
theorem exec_crecvRow (g : BitVec 4) (a : BitVec 5) (p : BitVec 3) (s : State) :
    exec (.crecvRow g a p) s = execCrecvRow g a p s := rfl
theorem exec_dst (g d : BitVec 4) (a : BitVec 5) (s : State) : exec (.dst g d a) s = execDst g d a s := rfl
theorem exec_gst (g : BitVec 4) (d a b : BitVec 5) (z : BitVec 2) (s : State) :
    exec (.gst g d a b z) s = execGst g d a b z s := rfl
theorem exec_sqw (g : BitVec 4) (n : BitVec 1) (a b : BitVec 5) (x : BitVec 1) (s : State) :
    exec (.sqw g n a b x) s = execSqw g n a b x s := rfl
theorem exec_kset (g : BitVec 4) (a : BitVec 5) (k : BitVec 4) (r : BitVec 1) (c : BitVec 3) (s : State) :
    exec (.kset g a k r c) s = execKset g a k r c s := rfl
theorem exec_kadd (g : BitVec 4) (a : BitVec 5) (k : BitVec 4) (r : BitVec 1) (c : BitVec 3) (s : State) :
    exec (.kadd g a k r c) s = execKadd g a k r c s := rfl

/-- Settles O45: what a store leaves shows the view before it, or that with the bytes it names written; the words that write later
leave the view as it is; and a request performed at its owner is one write of the Dome there, or none. -/
theorem storeFrame : Obligations.StoreFrame := by
  unfold Obligations.StoreFrame
  intro s g0 d0 a0 b0 z0 n0 x0 r0 k0 c0
  refine ⟨?st, ?crecvRow, ?dst, ?later, ?performed⟩
  case st =>
    intro g d a z i t o n addr h e
    rw [exec_st] at e
    have hs := (execSt_stored h).of_next e
    obtain ⟨hb, hp⟩ := hs.byteIn
    refine ⟨hb, hp, Seq.sameRegs_of_view ?_⟩
    rw [seq_view, seq_view]
    exact hs.seq _
  case crecvRow =>
    intro g a pe t o addr h e
    rw [exec_crecvRow] at e
    exact ((execCrecvRow_stored h).of_next e).byteIn
  case dst =>
    intro g d a t o addr h e
    rw [exec_dst] at e
    exact ((execDst_stored h).of_next e).byteIn
  case later =>
    intro i t hi e p x
    have hv : Shows (· = s.view) (exec i s) := by
      simp only [List.mem_cons, List.not_mem_nil, or_false] at hi
      obtain rfl | rfl | rfl | rfl := hi
      · rw [exec_gst]
        exact execGst_view
      · rw [exec_sqw]
        exact execSqw_view
      · rw [exec_kset]
        exact postCounter_view
      · rw [exec_kadd]
        exact postCounter_view
    rw [byteIn_eq_view, byteIn_eq_view, hv.of_next e]
  case performed =>
    intro r g pa
    cases hr : r.op with
    | read n sg =>
      rw [effect_read hr]
      exact ⟨fun _ _ => rfl, fun _ _ _ => rfl⟩
    | write n =>
      rw [effect_write hr]
      exact onDie_putNat_byteIn ..
    | amo ret op ty =>
      obtain ⟨x, hx⟩ := effect_amo (s := s) (g := g) (pa := pa) hr
      rw [hx]
      exact onDie_putNat_byteIn ..

end Sys2Proof.Machine
end
